-- ==== Sys2Proof/Word.lean ====
section
/-!
DEFINITION. Sys2Proof/Word.lean: the word types of the FLN-V840 (R1, R2, R20).
A memory byte, a 32-bit register or instruction word, a 64-bit address or register pair, and a set of the
threads of one band as a 64-bit mask. Field extraction and every other helper that a test could show wrong
stands in the mendable files under Machine/.
-/
namespace Sys2Proof

/-- One byte, the smallest addressable unit. -/
abbrev Byte := BitVec 8

/-- One 32-bit register, and one word of instruction memory (R51, R64). -/
abbrev Word := BitVec 32

/-- A 64-bit value: an address, a literal, a register pair (R20). -/
abbrev DWord := BitVec 64

end Sys2Proof
end

