-- ==== Sys2Proof/Machine/Tables.lean ====
section
/-!
DEFINITION. Sys2Proof/Machine/Tables.lean: finite tables keyed by Nat, held as lists of pairs with rising keys, and bit
fields of natural numbers. State holds records, queues and register entries in such tables, so that it stays plain data.
-/
namespace Sys2Proof.Machine

/-- A finite table: pairs with strictly rising keys. -/
abbrev Tbl (α : Type) := List (Nat × α)

namespace Tbl

variable {α β : Type}

/-- The entry of a key. -/
def find? (t : Tbl α) (k : Nat) : Option α :=
  match t with
  | [] => none
  | (j, v) :: r => if j = k then some v else find? r k

/-- The entry of a key, or d. -/
def get (t : Tbl α) (k : Nat) (d : α) : α := (find? t k).getD d

/-- The table with the entry of k set; keys stay rising. -/
def put (t : Tbl α) (k : Nat) (v : α) : Tbl α :=
  match t with
  | [] => [(k, v)]
  | (j, w) :: r => if k < j then (k, v) :: (j, w) :: r else if k = j then (k, v) :: r else (j, w) :: put r k v

/-- The table without the entry of k. -/
def del (t : Tbl α) (k : Nat) : Tbl α :=
  match t with
  | [] => []
  | (j, w) :: r => if j = k then del r k else (j, w) :: del r k

/-- The keys. -/
def keys (t : Tbl α) : List Nat := t.map (·.1)

/-- Every entry changed by f. -/
def mapVal (f : Nat → α → α) (t : Tbl α) : Tbl α := t.map fun p => (p.1, f p.1 p.2)

/-- Keys strictly rising. -/
def wf (t : Tbl α) : Bool :=
  match t with
  | [] => true
  | [_] => true
  | (j, _) :: (k, v) :: r => decide (j < k) && wf ((k, v) :: r)

end Tbl

/-- Bits [hi:lo] of a number. -/
def bits (x hi lo : Nat) : Nat := x / 2 ^ lo % 2 ^ (hi + 1 - lo)

/-- Bit i of a number. -/
def bitOf (x i : Nat) : Bool := x / 2 ^ i % 2 = 1

/-- An n-bit pattern read as two's complement. -/
def signed (x n : Nat) : Int := if 2 * (x % 2 ^ n) < 2 ^ n then ((x % 2 ^ n : Nat) : Int) else ((x % 2 ^ n : Nat) : Int) - (2 ^ n : Nat)

/-- An integer modulo 2^n. -/
def wrap (x : Int) (n : Nat) : Nat := (x % ((2 ^ n : Nat) : Int)).toNat

/-- The mask with one bit for each member of a list. -/
def maskOf (l : List Nat) : Nat := l.foldl (fun m i => if bitOf m i then m else m + 2 ^ i) 0

/-- The members of a mask below n, ascending. -/
def members (m n : Nat) : List Nat := (List.range n).filter (bitOf m ·)

/-- The first element of a list that satisfies p, with the list without it. -/
def takeFirst {α : Type} (p : α → Bool) (l : List α) : Option (α × List α) :=
  match l with
  | [] => none
  | a :: r => if p a then some (a, r) else (takeFirst p r).map fun q => (q.1, a :: q.2)

/-- The least element of a list under a key, the first on a tie. -/
def minBy {α : Type} (key : α → Nat) (l : List α) : Option α :=
  l.foldl (fun o a => match o with | none => some a | some b => if key a < key b then some a else some b) none

/-- The list with its i-th element changed. -/
def modAt {α : Type} (l : List α) (i : Nat) (f : α → α) : List α :=
  match l, i with
  | [], _ => []
  | a :: r, 0 => f a :: r
  | a :: r, i + 1 => a :: modAt r i f

end Sys2Proof.Machine
end

