-- ==== Sys2Proof/Machine/Num.lean ====
section
/-!
DEFINITION. Sys2Proof/Machine/Num.lean: the number formats (R21 to R25), exact values, Round with its overflow rule (R29), the
stochastic hash (R32), conversions (R30, R31, R139, R140), and the correctly rounded functions of R131.
-/
namespace Sys2Proof.Machine

/-- The floating-point element formats (R21). -/
inductive Fmt where
  | f32 | f16 | bf16 | e5m2 | e4m3 | e2m1
  deriving DecidableEq, Repr

namespace Fmt
/-- Mantissa bits. -/
def mant : Fmt → Nat | f32 => 23 | f16 => 10 | bf16 => 7 | e5m2 => 2 | e4m3 => 3 | e2m1 => 1
/-- Exponent bits. -/
def expo : Fmt → Nat | f32 => 8 | f16 => 5 | bf16 => 8 | e5m2 => 5 | e4m3 => 4 | e2m1 => 2
/-- Exponent bias. -/
def bias : Fmt → Nat | f32 => 127 | f16 => 15 | bf16 => 127 | e5m2 => 15 | e4m3 => 7 | e2m1 => 1
/-- p: significand bits with the hidden bit. -/
def p (f : Fmt) : Nat := f.mant + 1
/-- emin: exponent of the smallest normal value. -/
def emin (f : Fmt) : Int := 1 - (f.bias : Int)
/-- Width in bits. -/
def width (f : Fmt) : Nat := 1 + f.expo + f.mant
/-- Whether the format has infinities. -/
def hasInf : Fmt → Bool | e4m3 | e2m1 => false | _ => true
/-- The canonical NaN (R24); E2M1 has none and takes 0. -/
def nan : Fmt → Nat | f32 => 0x7FC00000 | f16 => 0x7E00 | bf16 => 0x7FC0 | e5m2 => 0x7E | e4m3 => 0x7F | e2m1 => 0
/-- The code of the largest finite value. -/
def maxCode : Fmt → Nat | f32 => 0x7F7FFFFF | f16 => 0x7BFF | bf16 => 0x7F7F | e5m2 => 0x7B | e4m3 => 0x7E | e2m1 => 7
/-- The sign bit of a code. -/
def signBit (f : Fmt) (neg : Bool) : Nat := if neg then 2 ^ (f.width - 1) else 0
/-- The infinity of a sign, for formats that have it. -/
def inf (f : Fmt) (neg : Bool) : Nat := f.signBit neg + (2 ^ f.expo - 1) * 2 ^ f.mant
/-- The zero of a sign. -/
def zero (f : Fmt) (neg : Bool) : Nat := f.signBit neg
end Fmt

/-- A decoded value: NaN, infinity, zero, or a finite m times 2^e with m above 0. -/
inductive Fv where
  | nan
  | inf (neg : Bool)
  | zero (neg : Bool)
  | fin (neg : Bool) (m : Nat) (e : Int)
  deriving DecidableEq, Repr

/-- The value of a code (R21). -/
def Fmt.decode (f : Fmt) (code : Nat) : Fv :=
  let c := code % 2 ^ f.width
  let neg := bitOf c (f.width - 1)
  let ex := c / 2 ^ f.mant % 2 ^ f.expo
  let m := c % 2 ^ f.mant
  let top := ex = 2 ^ f.expo - 1
  if top ∧ f.hasInf then (if m = 0 then .inf neg else .nan)
  else if f = .e4m3 ∧ top ∧ m = 7 then .nan
  else if ex = 0 then (if m = 0 then .zero neg else .fin neg m (f.emin - (f.mant : Int)))
  else .fin neg (2 ^ f.mant + m) ((ex : Int) - (f.bias : Int) - (f.mant : Int))

/-- An exact positive magnitude with sign: n times 2^e, and strictly more (by less than one unit of n) when sticky. -/
structure Ex where
  neg : Bool
  n : Nat
  e : Int
  sticky : Bool := false
  deriving DecidableEq, Repr

/-- n times 2^k for a possibly negative k, rounded down. -/
def shiftZ (n : Nat) (k : Int) : Nat := if 0 ≤ k then n * 2 ^ k.toNat else n / 2 ^ (-k).toNat

/-- The stochastic rounding hash (R32). -/
def srHash (seed tid ctr : Nat) : Nat :=
  let h := (seed + tid * 0x6A09E667 + ctr * 0xBB67AE85) % 2 ^ 32
  let h := h ^^^ (h / 2 ^ 16)
  let h := (h * 0x45D9F3B5) % 2 ^ 32
  let h := h ^^^ (h / 2 ^ 15)
  let h := (h * 0x2C1B3C6D) % 2 ^ 32
  h ^^^ (h / 2 ^ 16)

/-- What .sr draws from: RNDSEED, TIDX and RNDCTR (R29). -/
structure Sr where
  seed : Nat
  tid : Nat
  ctr : Nat
  deriving DecidableEq, Repr

/-- The value of H for the next element. -/
def Sr.h (r : Sr) : Nat := srHash r.seed r.tid r.ctr / 2 ^ 16

/-- The next element's source. -/
def Sr.next (r : Sr) : Sr := { r with ctr := (r.ctr + 1) % 2 ^ 32 }

/-- The integer that a magnitude x times the quantum 2^qe rounds to under a mode (R29): 0 rne, 1 rtz, 2 rdn, 3 rup, 4 rna,
5 sr. -/
def roundInt (x : Ex) (qe : Int) (mode : Nat) (sr : Sr) : Nat :=
  let k := qe - x.e
  let fl := shiftZ x.n (-k)
  -- the discarded part: d of D = 2^k units, plus the sticky part
  let unit := if 0 ≤ k then 2 ^ k.toNat else 1
  let rem := if 0 ≤ k then x.n % unit else 0
  let inexact := rem ≠ 0 || x.sticky
  let twice := 2 * rem
  let tie := twice = unit && !x.sticky && 0 < k
  let above := unit < twice || (twice = unit && x.sticky && 0 < k)
  match mode with
  | 0 => if above || (tie && fl % 2 = 1) then fl + 1 else fl
  | 1 => fl
  | 2 => if x.neg && inexact then fl + 1 else fl
  | 3 => if !x.neg && inexact then fl + 1 else fl
  | 4 => if above || tie then fl + 1 else fl
  | _ => (shiftZ x.n (16 - k) + sr.h) / 2 ^ 16

/-- The code of an overflowed result (R29). -/
def Fmt.overflow (f : Fmt) (neg : Bool) (mode : Nat) : Nat :=
  if !f.hasInf then f.signBit neg + f.maxCode
  else if mode = 0 || mode = 4 || mode = 5 then f.inf neg
  else if mode = 1 then f.signBit neg + f.maxCode
  else if (mode = 3 && !neg) || (mode = 2 && neg) then f.inf neg
  else f.signBit neg + f.maxCode

/-- The exponent floor(log2) of a magnitude. -/
def Ex.log2 (x : Ex) : Int := (Nat.log2 x.n : Int) + x.e

/-- Round of R29: the code of an exact non-zero value in a format. -/
def Fmt.round (f : Fmt) (x : Ex) (mode : Nat) (sr : Sr) : Nat :=
  let ex := max x.log2 f.emin
  let qe := ex - (f.p : Int) + 1
  let m := roundInt x qe mode sr
  -- a carry into the next binade keeps the value: 2^p quanta are 2^(p-1) of the next
  let m' := if m = 2 ^ f.p then 2 ^ (f.p - 1) else m
  let ex' := if m = 2 ^ f.p then ex + 1 else ex
  if m' = 0 then f.zero x.neg
  else if m' < 2 ^ (f.p - 1) then f.signBit x.neg + m'
  else
    let field := ex' + (f.bias : Int)
    let code := field.toNat * 2 ^ f.mant + (m' - 2 ^ (f.p - 1))
    if f.maxCode < code then f.overflow x.neg mode else f.signBit x.neg + code

/-- Draws of one rounding: one under .sr (R33). -/
def drawsOf (mode : Nat) : Nat := if mode = 5 then 1 else 0

/-- A magnitude's signed value over 2^e. -/
def signedMant (neg : Bool) (m : Nat) : Int := if neg then -(m : Int) else (m : Int)

/-- An integer times 2^e as an exact value, none for 0. -/
def exOfInt (x : Int) (e : Int) : Option Ex := if x = 0 then none else some { neg := x < 0, n := x.natAbs, e := e }

/-- The sum of finite terms m times 2^e, each with its sign, as an integer over the least exponent. -/
def sumTerms (l : List (Int × Int)) : Int × Int :=
  let e := l.foldl (fun m t => min m t.2) (l.headD (0, 0)).2
  (l.foldl (fun a t => a + t.1 * ((2 : Int) ^ (t.2 - e).toNat)) 0, e)

/-- The signed integer square root of n, rounded down, by bits from 2^k. -/
def isqrtFrom (n : Nat) : Nat → Nat → Nat
  | 0, r => r
  | k + 1, r => let q := r + 2 ^ k; isqrtFrom n k (if q * q ≤ n then q else r)

/-- The integer square root, rounded down. -/
def isqrt (n : Nat) : Nat := isqrtFrom n (Nat.log2 n / 2 + 1) 0

/-- The quotient of two magnitudes to at least 64 significant bits, with its sticky part. -/
def divEx (neg : Bool) (a : Nat) (ea : Int) (b : Nat) (eb : Int) : Ex :=
  let k := 64 + Nat.log2 b + 1
  { neg := neg, n := a * 2 ^ k / b, e := ea - eb - (k : Int), sticky := a * 2 ^ k % b ≠ 0 }

/-- The square root of m times 2^e to at least 64 bits. -/
def sqrtEx (m : Nat) (e : Int) : Ex :=
  let m' := if e % 2 = 0 then m else 2 * m
  let e' := if e % 2 = 0 then e else e - 1
  let r := isqrt (m' * 2 ^ 160)
  { neg := false, n := r, e := e' / 2 - 80, sticky := r * r ≠ m' * 2 ^ 160 }

/-- The reciprocal square root of m times 2^e to at least 64 bits. -/
def rsqrtEx (m : Nat) (e : Int) : Ex :=
  let m' := if e % 2 = 0 then m else 2 * m
  let e' := if e % 2 = 0 then e else e - 1
  let r := isqrt (2 ^ 240 / m')
  { neg := false, n := r, e := -(e' / 2) - 120, sticky := r * r * m' ≠ 2 ^ 240 }

/-! ### The transcendental functions (R131)

Each is computed as an integer over 2^-P with P = 704, far beyond the distance of any result of the formats from a
rounding boundary (log entry 11: DEDUCED). A result that is not exact carries the sticky part. -/

/-- The working precision. -/
def fxP : Nat := 704

/-- Terms of atanh(1/q) times 2^P: the sum of 1 / ((2i+1) q^(2i+1)); `sg` alternates the signs for arctan. -/
def atanSum (q : Nat) (alt : Bool) : Nat → Nat → Int → Int
  | 0, _, acc => acc
  | k + 1, i, acc =>
    let t : Int := ((2 ^ fxP / q ^ (2 * i + 1) / (2 * i + 1) : Nat) : Int)
    atanSum q alt k (i + 1) (if alt && i % 2 = 1 then acc - t else acc + t)

/-- pi times 2^P, by Machin's formula. -/
def fxPi : Int := 16 * atanSum 5 true 152 0 0 - 4 * atanSum 239 true 46 0 0

/-- ln 2 times 2^P. -/
def fxLn2 : Int := 2 * atanSum 3 false 224 0 0

/-- The product of two fixed-point numbers. -/
def fxMul (a b : Int) : Int := a * b / (2 : Int) ^ fxP

/-- The sum of r^i / i! for k terms, from the term t of index i. -/
def expSum (r : Int) : Nat → Nat → Int → Int → Int
  | 0, _, _, acc => acc
  | k + 1, i, t, acc => expSum r k (i + 1) (fxMul t r / ((i : Int) + 1)) (acc + t)

/-- e^r for r in [0, 1), fixed point. -/
def fxExp (r : Int) : Int := expSum r 160 0 ((2 : Int) ^ fxP) 0

/-- The alternating sum of the sine (odd) or cosine (even) series from the term t of index i. -/
def trigSum (r2 : Int) : Nat → Nat → Int → Int → Int
  | 0, _, _, acc => acc
  | k + 1, i, t, acc => trigSum r2 k (i + 2) (-(fxMul t r2) / (((i : Int) + 1) * ((i : Int) + 2))) (acc + t)

/-- sin r and cos r for |r| below 2, fixed point. -/
def fxSin (r : Int) : Int := trigSum (fxMul r r) 90 1 r 0
def fxCos (r : Int) : Int := trigSum (fxMul r r) 90 0 ((2 : Int) ^ fxP) 0

/-- The series of atanh z for z in [0, 1/3], fixed point. -/
def atanhSum (z2 : Int) : Nat → Nat → Int → Int → Int
  | 0, _, _, acc => acc
  | k + 1, i, t, acc => atanhSum z2 k (i + 2) (fxMul t z2) (acc + t / (i : Int))

/-- ln of f in [1, 2), fixed point. -/
def fxLn (f : Int) : Int :=
  let one := (2 : Int) ^ fxP
  let z := (f - one) * one / (f + one)
  2 * atanhSum (fxMul z z) 224 1 z 0

/-- m times 2^e in fixed point, rounded towards minus infinity. -/
def fxOf (neg : Bool) (m : Nat) (e : Int) : Int :=
  let k := e + (fxP : Int)
  let x : Int := if 0 ≤ k then (m : Int) * (2 : Int) ^ k.toNat else (m : Int) / (2 : Int) ^ (-k).toNat
  if neg then -x else x

/-- An irrational fixed-point result as an exact value with a sticky part; a result below the precision keeps one unit. -/
def fxEx (x : Int) : Ex := { neg := x < 0, n := max 1 x.natAbs, e := -(fxP : Int), sticky := true }

/-- 2^a for finite non-zero a = m 2^e: exact for an integer a. -/
def exp2Ex (neg : Bool) (m : Nat) (e : Int) : Ex :=
  if 12 < (Nat.log2 m : Int) + e then { neg := false, n := 1, e := if neg then -8192 else 8192 }
  else
    let x := fxOf neg m e
    let k := x / (2 : Int) ^ fxP
    let r := x % (2 : Int) ^ fxP
    if r = 0 then { neg := false, n := 1, e := k }
    else { neg := false, n := (fxExp (fxMul r fxLn2)).toNat, e := k - (fxP : Int), sticky := true }

/-- log2 of a = m 2^e above zero: exact for a power of two; none where the result is zero. -/
def log2Ex (m : Nat) (e : Int) : Option Ex :=
  let l := Nat.log2 m
  let k := (l : Int) + e
  if m = 2 ^ l then exOfInt k 0
  else
    let f := (m : Int) * (2 : Int) ^ (fxP - l)
    some (fxEx (k * (2 : Int) ^ fxP + fxLn f * (2 : Int) ^ fxP / fxLn2))

/-- The quadrant and the remainder of a finite angle in fixed point: a is k times pi/2 plus r. -/
def reduce (neg : Bool) (m : Nat) (e : Int) : Int × Int :=
  let x := fxOf neg m e
  let k := 2 * x / fxPi
  (k, x - k * fxPi / 2)

/-- sin a and cos a for finite non-zero a. -/
def sinEx (neg : Bool) (m : Nat) (e : Int) : Ex :=
  if (Nat.log2 m : Int) + e < -100 then
    -- a minus a third of its cube's half: just below a in magnitude
    { neg := neg, n := m * 2 ^ 300 - 1, e := e - 300, sticky := true }
  else
    let (k, r) := reduce neg m e
    fxEx (match (k % 4).toNat with | 0 => fxSin r | 1 => fxCos r | 2 => -fxSin r | _ => -fxCos r)

def cosEx (neg : Bool) (m : Nat) (e : Int) : Ex :=
  if (Nat.log2 m : Int) + e < -100 then { neg := false, n := 2 ^ 300 - 1, e := -300, sticky := true }
  else
    let (k, r) := reduce neg m e
    fxEx (match (k % 4).toNat with | 0 => fxCos r | 1 => -fxSin r | 2 => -fxCos r | _ => fxSin r)

/-- tanh a for finite non-zero a; from 128 on it lies above 1 - 2^-300 and below 1. -/
def tanhEx (neg : Bool) (m : Nat) (e : Int) : Ex :=
  if (Nat.log2 m : Int) + e < -100 then { neg := neg, n := m * 2 ^ 300 - 1, e := e - 300, sticky := true }
  else if 6 < (Nat.log2 m : Int) + e then { neg := neg, n := 2 ^ 300 - 1, e := -300, sticky := true }
  else
    let one := (2 : Int) ^ fxP
    let y := 2 * fxOf false m e
    let k := y / fxLn2
    let u := one * one / (fxExp (y - k * fxLn2)) / (2 : Int) ^ k.toNat
    { fxEx ((one - u) * one / (one + u)) with neg := neg }

/-! ### Conversions (R30, R31, R139, R140) -/

/-- The float format of a TF code, for the formats of R21 (R77). -/
def fmtOf (tf : Nat) : Fmt := match tf with | 1 => .f16 | 2 => .bf16 | 5 => .e4m3 | 6 => .e5m2 | 7 => .e2m1 | _ => .f32

/-- The value of an E8M0 byte (R25). -/
def decodeE8m0 (c : Nat) : Fv := if c % 256 = 255 then .nan else .fin false 1 ((c % 256 : Nat) - 127)

/-- Conversion of a value to a float format (R139): the code and the draws. -/
def convF (f : Fmt) (x : Fv) (mode : Nat) (sat : Bool) (sr : Sr) : Nat × Nat :=
  match x with
  | .nan => (f.nan, 0)
  | .zero n => (f.zero n, 0)
  | .inf n => (if sat || !f.hasInf then f.signBit n + f.maxCode else f.inf n, 0)
  | .fin n m e =>
    let y := f.round { neg := n, n := m, e := e } mode sr
    let isInf := f.hasInf && y % 2 ^ (f.width - 1) = f.inf false
    (if sat && isInf then f.signBit n + f.maxCode else y, drawsOf mode)

/-- Conversion of a value to an n-bit integer type (R31): the bits and the draws. -/
def convI (n : Nat) (sg : Bool) (x : Fv) (mode : Nat) (sr : Sr) : Nat × Nat :=
  let lo : Int := if sg then -(2 ^ (n - 1) : Nat) else 0
  let hi : Int := if sg then (2 ^ (n - 1) : Nat) - 1 else (2 ^ n : Nat) - 1
  match x with
  | .nan => (0, 0)
  | .zero _ => (0, 0)
  | .inf neg => (wrap (if neg then lo else hi) n, 0)
  | .fin neg m e =>
    let y := signedMant neg (roundInt { neg := neg, n := m, e := e } 0 mode sr)
    (wrap (min (max y lo) hi) n, drawsOf mode)

/-- Conversion to E8M0 (R140): the byte and the draws. -/
def convE8m0 (x : Fv) (mode : Nat) (sr : Sr) : Nat × Nat :=
  match x with
  | .nan | .inf _ => (255, 0)
  | .zero _ => (0, 0)
  | .fin _ m e =>
    let y : Ex := { neg := false, n := m, e := e }
    let ex := max y.log2 (-127)
    let q := roundInt y ex mode sr
    -- q is 0, 1 or 2 quanta of 2^ex
    let k := if q = 0 then -1000 else if q = 1 then ex else ex + 1
    (if k < -127 then 0 else if 127 < k then 254 else (k + 127).toNat, drawsOf mode)

/-- An integer as a value: 0 gives +0 (R139). -/
def fvOfInt (x : Int) : Fv := if x = 0 then .zero false else .fin (x < 0) x.natAbs 0

/-- A value scaled by 2^k, exactly. -/
def Fv.scale (x : Fv) (k : Int) : Fv := match x with | .fin n m e => .fin n m (e + k) | y => y

/-- The order of two values that are not NaN, with -0 equal to +0: less, equal, greater. -/
def Fv.cmp (x y : Fv) : Ordering :=
  let key (v : Fv) : Int × Int :=
    match v with
    | .nan => (0, 0)
    | .zero _ => (0, 0)
    | .inf n => (if n then -2 else 2, 0)
    | .fin _ _ _ => (1, 0)
  match x, y with
  | .fin n m e, .fin n' m' e' =>
    let l := min e e'
    compare (signedMant n m * (2 : Int) ^ (e - l).toNat) (signedMant n' m' * (2 : Int) ^ (e' - l).toNat)
  | .fin n _ _, v => if (key v).1 = 2 then .lt else if (key v).1 = -2 then .gt else if n then .lt else .gt
  | v, .fin n _ _ => if (key v).1 = 2 then .gt else if (key v).1 = -2 then .lt else if n then .gt else .lt
  | v, w => compare (key v).1 (key w).1

end Sys2Proof.Machine
end

