-- ==== Sys2Proof/Machine/Flags.lean ====
section
/-!
DEFINITION. Sys2Proof/Machine/Flags.lean: the conditions and flags of the spec: the integer conditions IC and float conditions
FC (R77, R124, R135), the class mask of FCLASS (R136), and BSTAT with its write-one-to-clear bits (R59). The hardware has no
arithmetic flags (R24).
-/
namespace Sys2Proof.Machine

/-- An integer condition on two n-bit patterns (R77, R124). -/
def intCond (code n a b : Nat) : Bool :=
  let x := signed a n; let y := signed b n
  match code with
  | 0 => a = b
  | 1 => a ≠ b
  | 2 => x < y
  | 3 => x ≤ y
  | 4 => y < x
  | 5 => y ≤ x
  | 6 => a < b
  | 7 => a ≤ b
  | 8 => b < a
  | _ => b ≤ a

/-- Whether a value is a NaN. -/
def Fv.isNan : Fv → Bool
  | .nan => true
  | _ => false

/-- A condition over an order (R135): 0 eq, 1 ne, 2 lt, 3 le, 4 gt, 5 ge, 6 unordered, 7 ordered; `un` tells that the
operands are unordered. -/
def orderCond (code : Nat) (un : Bool) (o : Ordering) : Bool :=
  match code with
  | 0 => !un && o = .eq
  | 1 => un || o ≠ .eq
  | 2 => !un && o = .lt
  | 3 => !un && o ≠ .gt
  | 4 => !un && o = .gt
  | 5 => !un && o ≠ .lt
  | 6 => un
  | _ => !un

/-- A float condition (R135). -/
def floatCond (code : Nat) (x y : Fv) : Bool := orderCond code (x.isNan || y.isNan) (Fv.cmp x y)

/-- The class mask of FCLASS (R136). -/
def classMask (f : Fmt) (code : Nat) : Nat :=
  match f.decode code with
  | .nan => 2 ^ 8
  | .inf n => if n then 2 ^ 0 else 2 ^ 7
  | .zero n => if n then 2 ^ 3 else 2 ^ 4
  | .fin n m _ =>
    if m < 2 ^ f.mant then (if n then 2 ^ 2 else 2 ^ 5) else (if n then 2 ^ 1 else 2 ^ 6)

/-- BSTAT as read (R59). -/
def bstat (mx qov : Bool) (bec : Nat) : Nat := (if mx then 2 ^ 9 else 0) + (if qov then 2 ^ 8 else 0) + bec

/-- Whether a write to BSTAT sets a must-be-zero bit (R59): bits [31:10] and [7:5]. -/
def bstatBad (w : Nat) : Bool := 2 ^ 10 ≤ w || bits w 7 5 ≠ 0

end Sys2Proof.Machine
end

