-- ==== Sys2Proof/Machine/Mem.lean ====
section
/-!
DEFINITION. Sys2Proof/Machine/Mem.lean: the bytes of the machine, one sparse list in canonical form for every space of the
spec (R279, R425): device DRAM by physical address, the scratchpads and the weight stores. Addresses rise strictly and no entry is zero, the value an unlisted byte reads as (log entry 2).
Multi-byte values are little-endian (R2).
-/
namespace Sys2Proof.Machine

/-- The bytes that something has written and that are not zero. -/
abbrev Memory := List Host.Cell

/-- What an unlisted byte reads as (DESIGN CHOICE, log entry 2: the spec gives memory no contents at power-on). -/
def Memory.fresh : Byte := 0

namespace Memory

/-- The byte at an address. -/
def byte (m : Memory) (a : Nat) : Byte :=
  match m with
  | [] => Memory.fresh
  | (b, v) :: r => if b = a then v else byte r a

/-- The memory with one byte written, in canonical form. -/
def set (m : Memory) (a : Nat) (v : Byte) : Memory :=
  match m with
  | [] => if v = Memory.fresh then [] else [(a, v)]
  | (b, w) :: r =>
    if a < b then (if v = Memory.fresh then (b, w) :: r else (a, v) :: (b, w) :: r)
    else if a = b then (if v = Memory.fresh then r else (a, v) :: r)
    else (b, w) :: set r a v

/-- The canonical form: addresses strictly rising, no entry equal to what an unlisted address reads as. -/
def wf (m : Memory) : Bool :=
  match m with
  | [] => true
  | [(_, v)] => v ≠ Memory.fresh
  | (a, v) :: (b, w) :: r => decide (a < b) && decide (v ≠ Memory.fresh) && wf ((b, w) :: r)

/-- n bytes from a, read as one little-endian number (R2). -/
def read (m : Memory) (a n : Nat) : Nat :=
  match n with
  | 0 => 0
  | n + 1 => (byte m a).toNat + 256 * read m (a + 1) n

/-- A number written as n little-endian bytes from a (R2). -/
def write (m : Memory) (a n x : Nat) : Memory :=
  match n with
  | 0 => m
  | n + 1 => write (set m a (BitVec.ofNat 8 x)) (a + 1) n (x / 256)

/-- A list of bytes written from a. -/
def writeBytes (m : Memory) (a : Nat) (l : List Byte) : Memory :=
  match l with
  | [] => m
  | v :: r => writeBytes (set m a v) (a + 1) r

/-- n bytes from a, lowest address first. -/
def readBytes (m : Memory) (a n : Nat) : List Byte := (List.range n).map fun i => byte m (a + i)

/-- Listed bytes written, each at its offset from a. -/
def writeAt (m : Memory) (a : Nat) (l : Tbl Byte) : Memory :=
  match l with
  | [] => m
  | (o, v) :: r => writeAt (set m (a + o) v) a r

end Memory

/-- The place of a device byte by physical address (R425): 42 bits. -/
def placePA (pa : Nat) : Nat := pa
/-- The place of byte off of a cluster's scratchpad (R12: 4 MiB). -/
def placeScratch (cluster off : Nat) : Nat := 2 ^ 54 + cluster * 2 ^ 22 + off
/-- The place of byte i of a die's weight store (R12: 1 GiB). -/
def placeWst (die i : Nat) : Nat := 2 ^ 55 + die * 2 ^ 30 + i

/-- The bytes of a number, lowest first. -/
def bytesOf (x n : Nat) : List Byte :=
  match n with
  | 0 => []
  | n + 1 => BitVec.ofNat 8 x :: bytesOf (x / 256) n

/-- The number that little-endian bytes stand for (R2). -/
def ofBytes (l : List Byte) : Nat :=
  match l with
  | [] => 0
  | v :: r => v.toNat + 256 * ofBytes r

end Sys2Proof.Machine
end

