-- ==== Sys2Proof/Syntax.lean ====
section
/-!
DEFINITION. Sys2Proof/Syntax.lean: the instructions and steps of the FLN-V840, one constructor of Instr for each row of
the opcode table. Rows of the first kind are instruction words; their arguments are the fields of the encoding form
(R67, R70, R81), so that no bit of a word is lost before the meaning reads it. Rows of the second kind are steps of the
device's units, firmware and host (the file "What each step holds"); their arguments name the unit, record or message
that the step acts on. The form named XL carries the literal forms of R69 and R72.
-/
namespace Sys2Proof

/-- Form S of R67: sub-operation M and the 6-bit fields B, A, D. -/
structure FormS where
  m : BitVec 4
  b : BitVec 6
  a : BitVec 6
  d : BitVec 6
  deriving DecidableEq, Repr

/-- Form I of R67: IMM16 and D. -/
structure FormI where
  imm : BitVec 16
  d : BitVec 6
  deriving DecidableEq, Repr

/-- Form B of R67: OFF18, GN and G. -/
structure FormB where
  off : BitVec 18
  gn : BitVec 1
  g : BitVec 3
  deriving DecidableEq, Repr

/-- Form X of R70: the fields of words 0 and 1, and word 2 (IMM32 or AUX). -/
structure FormX where
  g : BitVec 3
  ac : BitVec 2
  a : BitVec 8
  dc : BitVec 1
  d : BitVec 8
  mf : BitVec 4
  sub : BitVec 4
  lc : BitVec 1
  lb : BitVec 1
  la : BitVec 1
  gn : BitVec 1
  cc : BitVec 2
  c : BitVec 8
  bc : BitVec 2
  b : BitVec 8
  w2 : BitVec 32
  deriving DecidableEq, Repr

/-- The layout of REP (R81); `mbz` is the field that must be zero and `len` its LEN. -/
structure FormR where
  mbz : BitVec 7
  bstep : BitVec 3
  astep : BitVec 3
  dstep : BitVec 3
  count : BitVec 6
  len : BitVec 2
  deriving DecidableEq, Repr

/-- "Form X or literal form" of a row: Form S with a literal (LEN 0b10), Form X (0b01), Form X with a literal (0b11). -/
inductive XL where
  | sLit (f : FormS) (lit : BitVec 64)
  | x (f : FormX)
  | xLit (f : FormX) (lit : BitVec 64)
  deriving DecidableEq, Repr

/-- The encoding of one instruction as it stands in its words: LEN and the layout together. -/
inductive Form where
  | s (f : FormS)
  | sLit (f : FormS) (lit : BitVec 64)
  | x (f : FormX)
  | xLit (f : FormX) (lit : BitVec 64)
  | i (f : FormI)
  | iLit (f : FormI) (lit : BitVec 64)
  | b (f : FormB)
  | r (f : FormR)
  deriving DecidableEq, Repr

/-- What a trap hands to the frame (R174): cause, reason, base word, CODE, each thread's ADDR, and whether RPC is the
next instruction (SOFT, BREAK) or the instruction itself. -/
structure TrapInfo where
  cause : Nat
  reason : Nat := 0
  word : BitVec 32 := 0
  code : Nat := 0
  /-- ADDR per thread, in pairs (BTID, address); a thread not listed has 0 -/
  addrs : List (Nat × Nat) := []
  /-- 0 where RPC is FPC, else the length that RPC stands past it -/
  skip : Nat := 0
  deriving DecidableEq, Repr

/-- What a home slice does in one step M10 (R285): perform a delivered request, perform the next element of a tile
copy's global side, drop a recorded holder or a watch mark, or perform the next part of an engine's global write. -/
inductive SliceAct where
  | request (msg : Nat)
  | copyElement (copy : Nat)
  | dropHolder (line core : Nat)
  | dropMark (line : Nat)
  | engineBlock (cluster block : Nat)
  deriving DecidableEq, Repr

/-- What a scratchpad bank or weight store bank does in one step M14 (R285): an access of a thread, the next element
of a tile copy, the drop of a watch mark, or an engine's epilogue block. -/
inductive BankAct where
  | access (acc : Nat)
  | copyElement (copy : Nat)
  | dropMark (line : Nat)
  | engineBlock (cluster block : Nat)
  deriving DecidableEq, Repr

/-- A host access through BAR2 (R462). -/
inductive HostAcc where
  | read (addr size : Nat)
  | write (addr : Nat) (bytes : List (BitVec 8))
  | atomic (op addr size : Nat) (val cmp : BitVec 64)
  deriving DecidableEq, Repr

/-- A Kiln flit as received (R466, R467): FKIND, DEST, SEQ and ACK, the numbers of its payload, and how its check came
out: 0 good, 1 corrected by the code, 2 uncorrectable. -/
structure Flit where
  kind : Nat
  dest : Nat := 0
  seq : Nat
  ack : Nat
  body : List Nat
  check : Nat
  deriving DecidableEq, Repr

/-- The instructions and steps, one constructor per row of the opcode table. -/
inductive Instr where
  /-- IADD (R116): Short-form integer add of A and B into D under the TI type. -/
  | iadd (f : FormS)
  /-- IADD_X (R116): Form X or literal form of IADD, with guard, last-read bits, k operands and SAT. -/
  | iaddX (f : XL)
  /-- ISUB (R116): Short-form integer subtract of B from A into D. -/
  | isub (f : FormS)
  /-- ISUB_X (R116): Form X or literal form of ISUB. -/
  | isubX (f : XL)
  /-- IADDC (R117): Short-form carry out of an unsigned addition of A and B, with carry-in 0. -/
  | iaddc (f : FormS)
  /-- IADDC_X (R117): Form X or literal form of IADDC, with carry-in from C[0]. -/
  | iaddcX (f : XL)
  /-- IMUL (R116): Short-form integer multiply, low n bits of the product. -/
  | imul (f : FormS)
  /-- IMUL_X (R116): Form X or literal form of IMUL. -/
  | imulX (f : XL)
  /-- IMULH (R116): Short-form upper n bits of the 2n-bit product. -/
  | imulh (f : FormS)
  /-- IMULH_X (R116): Form X or literal form of IMULH. -/
  | imulhX (f : XL)
  /-- IMAD (R116): Integer multiply-add A times B plus C, one exact result then Put. -/
  | imad (f : XL)
  /-- IDIV (R116): Short-form integer divide toward zero, all ones on division by zero. -/
  | idiv (f : FormS)
  /-- IDIV_X (R116): Form X or literal form of IDIV. -/
  | idivX (f : XL)
  /-- IREM (R116): Short-form integer remainder with the sign of A. -/
  | irem (f : FormS)
  /-- IREM_X (R116): Form X or literal form of IREM. -/
  | iremX (f : XL)
  /-- IMIN (R116): Short-form integer minimum. -/
  | imin (f : FormS)
  /-- IMIN_X (R116): Form X or literal form of IMIN. -/
  | iminX (f : XL)
  /-- IMAX (R116): Short-form integer maximum. -/
  | imax (f : FormS)
  /-- IMAX_X (R116): Form X or literal form of IMAX. -/
  | imaxX (f : XL)
  /-- AND (R118): Short-form bitwise AND. -/
  | and (f : FormS)
  /-- AND_X (R118): Form X or literal form of AND. -/
  | andX (f : XL)
  /-- OR (R118): Short-form bitwise OR. -/
  | or (f : FormS)
  /-- OR_X (R118): Form X or literal form of OR. -/
  | orX (f : XL)
  /-- XOR (R118): Short-form bitwise XOR. -/
  | xor (f : FormS)
  /-- XOR_X (R118): Form X or literal form of XOR. -/
  | xorX (f : XL)
  /-- ANDN (R118): Short-form A AND NOT B. -/
  | andn (f : FormS)
  /-- ANDN_X (R118): Form X or literal form of ANDN. -/
  | andnX (f : XL)
  /-- NOT (R120): Short-form 32-bit bitwise complement. -/
  | not (f : FormS)
  /-- NOT_X (R120): Form X NOT at 32 or 64 bits. -/
  | notX (f : FormX)
  /-- IABS (R120): Short-form 32-bit signed absolute value. -/
  | iabs (f : FormS)
  /-- IABS_X (R120): Form X IABS at 32 or 64 bits, optionally saturating. -/
  | iabsX (f : FormX)
  /-- INEG (R120): Short-form 32-bit negation. -/
  | ineg (f : FormS)
  /-- INEG_X (R120): Form X INEG at 32 or 64 bits, optionally saturating. -/
  | inegX (f : FormX)
  /-- POPC (R120): Short-form population count of a 32-bit value. -/
  | popc (f : FormS)
  /-- POPC_X (R120): Form X POPC at 32 or 64 bits. -/
  | popcX (f : FormX)
  /-- CLZ (R120): Short-form count of leading zeros. -/
  | clz (f : FormS)
  /-- CLZ_X (R120): Form X CLZ at 32 or 64 bits. -/
  | clzX (f : FormX)
  /-- CTZ (R120): Short-form count of trailing zeros. -/
  | ctz (f : FormS)
  /-- CTZ_X (R120): Form X CTZ at 32 or 64 bits. -/
  | ctzX (f : FormX)
  /-- BREV (R120): Short-form bit reversal of a 32-bit value. -/
  | brev (f : FormS)
  /-- BREV_X (R120): Form X BREV at 32 or 64 bits. -/
  | brevX (f : FormX)
  /-- SHL (R119): Short-form logical shift left. -/
  | shl (f : FormS)
  /-- SHL_X (R119): Form X or literal form of SHL. -/
  | shlX (f : XL)
  /-- SHR (R119): Short-form logical shift right. -/
  | shr (f : FormS)
  /-- SHR_X (R119): Form X or literal form of SHR. -/
  | shrX (f : XL)
  /-- SHA (R119): Short-form arithmetic shift right. -/
  | sha (f : FormS)
  /-- SHA_X (R119): Form X or literal form of SHA. -/
  | shaX (f : XL)
  /-- ROTL (R119): Short-form rotate left. -/
  | rotl (f : FormS)
  /-- ROTL_X (R119): Form X or literal form of ROTL. -/
  | rotlX (f : XL)
  /-- BFX (R121): Extracts a bit field of A under a control word in B. -/
  | bfx (f : XL)
  /-- BFI (R121): Inserts B as a bit field into A under a control word in C. -/
  | bfi (f : XL)
  /-- BPERM (R122): Selects four result bytes from eight source bytes under selector C. -/
  | bperm (f : XL)
  /-- SEL (R123): Writes A when C is non-zero and B otherwise, per thread. -/
  | sel (f : XL)
  /-- ICMP (R124): Short-form 32-bit integer compare writing a predicate. -/
  | icmp (f : FormS)
  /-- ICMP_X (R124): Form X or literal form of ICMP, at 32 or 64 bits. -/
  | icmpX (f : XL)
  /-- PLOP (R125): Short-form predicate logic through a 4-bit truth table. -/
  | plop (f : FormS)
  /-- PLOP_X (R125): Form X PLOP with operands of any class. -/
  | plopX (f : FormX)
  /-- LEA (R128): Forms a 64-bit address A plus B shifted left by SHIFT. -/
  | lea (f : XL)
  /-- MOV (R126): Short-form move of B to D with narrow-type extension. -/
  | mov (f : FormS)
  /-- MOV_X (R126): Form X or literal form of MOV, including k destinations. -/
  | movX (f : XL)
  /-- MOVK (R127): Short-form read of register A of thread B into D. -/
  | movk (f : FormS)
  /-- MOVK_X (R127): Form X MOVK. -/
  | movkX (f : FormX)
  /-- LDI (R126): Loads a sign-extended 16-bit immediate into v0 to v63. -/
  | ldi (f : FormI)
  /-- LDI_LITERAL (R126): LDI with LEN 0b10, loading literal[31:0]. -/
  | ldiLiteral (f : FormI) (lit : BitVec 64)
  /-- FADD (R131): Short-form float add, rounded once. -/
  | fadd (f : FormS)
  /-- FADD_X (R131): Form X or literal form of FADD with rounding modifier. -/
  | faddX (f : XL)
  /-- FSUB (R131): Short-form float subtract. -/
  | fsub (f : FormS)
  /-- FSUB_X (R131): Form X or literal form of FSUB. -/
  | fsubX (f : XL)
  /-- FMUL (R131): Short-form float multiply. -/
  | fmul (f : FormS)
  /-- FMUL_X (R131): Form X or literal form of FMUL. -/
  | fmulX (f : XL)
  /-- FFMA (R131): Fused multiply-add A times B plus C, rounded once. -/
  | ffma (f : XL)
  /-- FMIN (R134): Short-form float minimum returning an operand bit for bit. -/
  | fmin (f : FormS)
  /-- FMIN_X (R134): Form X or literal form of FMIN. -/
  | fminX (f : XL)
  /-- FMAX (R134): Short-form float maximum returning an operand bit for bit. -/
  | fmax (f : FormS)
  /-- FMAX_X (R134): Form X or literal form of FMAX. -/
  | fmaxX (f : XL)
  /-- FCMP (R135): Short-form FP32 compare writing a predicate. -/
  | fcmp (f : FormS)
  /-- FCMP_X (R135): Form X or literal form of FCMP with the type in MF. -/
  | fcmpX (f : XL)
  /-- FCLASS (R136): Short-form one-hot class mask of A. -/
  | fclass (f : FormS)
  /-- FCLASS_X (R136): Form X FCLASS. -/
  | fclassX (f : FormX)
  /-- FRCP (R131): Short-form correctly rounded reciprocal. -/
  | frcp (f : FormS)
  /-- FRCP_X (R131): Form X FRCP. -/
  | frcpX (f : FormX)
  /-- FRSQ (R131): Short-form correctly rounded reciprocal square root. -/
  | frsq (f : FormS)
  /-- FRSQ_X (R131): Form X FRSQ. -/
  | frsqX (f : FormX)
  /-- FSQRT (R131): Short-form correctly rounded square root. -/
  | fsqrt (f : FormS)
  /-- FSQRT_X (R131): Form X FSQRT. -/
  | fsqrtX (f : FormX)
  /-- FDIV (R131): Short-form correctly rounded division. -/
  | fdiv (f : FormS)
  /-- FDIV_X (R131): Form X or literal form of FDIV. -/
  | fdivX (f : XL)
  /-- FEXP2 (R131): Short-form correctly rounded 2 to the power A. -/
  | fexp2 (f : FormS)
  /-- FEXP2_X (R131): Form X FEXP2. -/
  | fexp2X (f : FormX)
  /-- FLOG2 (R131): Short-form correctly rounded base-2 logarithm. -/
  | flog2 (f : FormS)
  /-- FLOG2_X (R131): Form X FLOG2. -/
  | flog2X (f : FormX)
  /-- FSIN (R131): Short-form correctly rounded sine. -/
  | fsin (f : FormS)
  /-- FSIN_X (R131): Form X FSIN. -/
  | fsinX (f : FormX)
  /-- FCOS (R131): Short-form correctly rounded cosine. -/
  | fcos (f : FormS)
  /-- FCOS_X (R131): Form X FCOS. -/
  | fcosX (f : FormX)
  /-- FTANH (R131): Short-form correctly rounded hyperbolic tangent. -/
  | ftanh (f : FormS)
  /-- FTANH_X (R131): Form X FTANH. -/
  | ftanhX (f : FormX)
  /-- FSCALE (R131): Short-form A times 2 to the integer B, rounded once. -/
  | fscale (f : FormS)
  /-- FSCALE_X (R131): Form X or literal form of FSCALE. -/
  | fscaleX (f : XL)
  /-- FRND (R131): Short-form rounding of A to an integer in its format. -/
  | frnd (f : FormS)
  /-- FRND_X (R131): Form X FRND with a rounding modifier. -/
  | frndX (f : FormX)
  /-- CVT (R139): Converts between float, integer and packed formats under RND and SAT. -/
  | cvt (f : XL)
  /-- SCALEX (R141): Computes an E8M0 block scale from amax into one byte of D. -/
  | scalex (f : XL)
  /-- QPACK (R142): Quantises a group of FP32 values into narrow codes under a scale byte. -/
  | qpack (f : XL)
  /-- QUNPK (R143): Expands narrow codes times a scale into FP32 registers. -/
  | qunpk (f : XL)
  /-- CBENC (R144): Encodes eight FP32 values into the nearest VQ2 index against a codebook table. -/
  | cbenc (f : XL)
  /-- CBDEC (R145): Decodes a VQ2 index into eight FP32 registers. -/
  | cbdec (f : XL)
  /-- VOTE (R153): Arrives at a band-operation instance that votes any, all or eq over the named threads. -/
  | vote (f : XL)
  /-- SHFL (R154): Arrives at a band-operation instance that gives each thread a value from a source thread. -/
  | shfl (f : XL)
  /-- BRED (R155): Arrives at a band-operation instance reducing the contributions of the named threads. -/
  | bred (f : XL)
  /-- BSCAN (R156): Arrives at a band-operation instance computing an inclusive or exclusive scan. -/
  | bscan (f : XL)
  /-- MATCH (R157): Arrives at a band-operation instance writing masks of threads with equal values. -/
  | matchOp (f : XL)
  /-- ELECT (R158): Arrives at a band-operation instance electing the lowest contributing thread. -/
  | elect (f : XL)
  /-- BARB (R159): Arrives at a band-operation instance that only synchronises the named threads. -/
  | barb (f : XL)
  /-- ACTV (R160): Short-form write of the mask of guarded threads of the run. -/
  | actv (f : FormS)
  /-- ACTV_X (R160): Form X ACTV with a v or k destination. -/
  | actvX (f : FormX)
  /-- COMPLETING_ISSUE (R149): Issues a completed band-operation instance, writing each present thread's result and advancing it. -/
  | completingIssue (band : Nat)
  /-- BRA (R163): Transfers each guarded thread to PC plus OFF18 within the slot. -/
  | bra (f : FormB)
  /-- BRS (R164): Splits the run by its condition and sheds the smaller side into spawn records. -/
  | brs (f : FormX)
  /-- BRX (R166): Indirect branch of each guarded thread to a PAD with a matching tag. -/
  | brx (f : XL)
  /-- PAD (R165): Landing pad that only advances the PC. -/
  | pad (f : FormI)
  /-- CALL (R168): Pushes the return point and calls PC plus OFF18, raising DEPTH. -/
  | call (f : FormB)
  /-- CALLX (R168): Pushes the return point and calls an indirect PAD target. -/
  | callx (f : XL)
  /-- RET (R169): Pops each thread's return entry and lowers DEPTH. -/
  | ret (f : FormI)
  /-- EXIT (R170): Ends every thread of the run with withdrawal from barriers and band operations. -/
  | exit (f : FormI)
  /-- EXIT_SUCC (R171): Form X exit of guarded threads, optionally recording a successor that restarts the band. -/
  | exitSucc (f : FormX)
  /-- TRAP (R177): Raises the trap of cause SOFT with its code. -/
  | trap (f : FormI)
  /-- BRK (R177): Halts the run for an attached debugger, or raises the trap of cause BREAK. -/
  | brk (f : FormI)
  /-- NOP (R172): Advances the PC. -/
  | nop (f : FormI)
  /-- SAFE (R172): Advances the PC, or is where a pending safe-point stop stops the threads. -/
  | safe (f : FormI)
  /-- YIELD (R173): Passes the lane over the band once and requests a rotation choice. -/
  | yield (f : FormI)
  /-- REP (R82): Executes the next instruction up to 64 times with stepped register numbers as one unit. -/
  | rep (f : FormR)
  /-- TAKE_TRAP (R175): Writes each thread's trap frame, sets the in-trap bit and moves PC to the trap entry, held while st is full. -/
  | takeTrap (t : TrapInfo)
  /-- TRET (R176): Loads each thread's trap frame and returns to RPC, resuming a REP iteration if needed. -/
  | tret (f : FormI)
  /-- SREG (R179): Form I read of a special register into v0 to v63. -/
  | sreg (f : FormI)
  /-- SREG_X (R179): Form X read of a special register into a v or k destination. -/
  | sregX (f : FormX)
  /-- SREGW (R180): Writes a writable special register such as RNDSEED, RNDCTR, BSTAT or STARVE. -/
  | sregw (f : FormX)
  /-- ECALL (R183): Parks the run's threads and requests a firmware service. -/
  | ecall (f : FormI)
  /-- ECALL_SERVICE_COMPLETE (R183): The Ember pair completes a service, writes status and advances the threads. -/
  | ecallServiceComplete (req : Nat)
  /-- ECALL_NOP (R420): Service 0x0000, no effect. -/
  | ecallNop (req : Nat)
  /-- ECALL_HALT (R420): Service 0x0001 halts the band for the debugger. -/
  | ecallHalt (req : Nat)
  /-- ENGSTAT (R420): Service 0x0010 writes the engine status, metadata and owner words to memory. -/
  | engstat (req : Nat)
  /-- TRACKER (R420): Service 0x0011 writes the band's loop tracker record to memory. -/
  | tracker (req : Nat)
  /-- RELEASE (R420): Service 0x0012 empties and releases owned accumulator slots once their operations retire. -/
  | release (req : Nat)
  /-- CSAVE (R184): Band-wide wait then save of selected band state to a record. -/
  | csave (f : FormX)
  /-- CREST (R184): Band-wide wait then restore of selected band state from a record. -/
  | crest (f : FormX)
  /-- CYCLE (R181): Writes the die's local cycle count to an even pair per thread. -/
  | cycle (f : FormS)
  /-- PERFR (R182): Reads a per-core performance or phase-table counter. -/
  | perfr (f : FormX)
  /-- LD (R196): Short-form global load at thread scope. -/
  | ld (f : FormS)
  /-- LD_X (R196): Form X load with space, ordering, scope and displacement. -/
  | ldX (f : FormX)
  /-- ST (R197): Short-form global store at thread scope. -/
  | st (f : FormS)
  /-- ST_X (R197): Form X store with space, release ordering, scope and displacement. -/
  | stX (f : FormX)
  /-- LDK (R199): One uniform load for the run into a k register, pair or quad. -/
  | ldk (f : FormX)
  /-- LDW (R200): Short-form read of the die's weight store, delayed by refresh windows. -/
  | ldw (f : FormS)
  /-- LDW_X (R200): Form X weight store read. -/
  | ldwX (f : FormX)
  /-- ATOM (R207): Atomic read-modify-write at the home slice returning the old value. -/
  | atom (f : XL)
  /-- ATOM2 (R208): Packed two-element atomic with per-word merging in the core. -/
  | atom2 (f : XL)
  /-- RED (R209): Atomic reduction at the slice returning nothing. -/
  | red (f : XL)
  /-- FENCE (R204): Release, acquire or both at the named scope. -/
  | fence (f : FormS)
  /-- WATCH (R212): Short-form arm of a global line in the band's watch set. -/
  | watch (f : FormS)
  /-- WATCH_X (R212): Form X WATCH, including scratchpad lines. -/
  | watchX (f : FormX)
  /-- WAITW (R214): Short-form wait for an event bit of the band's watched lines. -/
  | waitw (f : FormS)
  /-- WAITW_X (R214): Form X WAITW with a guard. -/
  | waitwX (f : FormX)
  /-- UNWATCH (R215): Short-form removal of a line, or all lines, from the watch set. -/
  | unwatch (f : FormS)
  /-- UNWATCH_X (R215): Form X UNWATCH. -/
  | unwatchX (f : FormX)
  /-- PREF (R216): Short-form prefetch of a line into the L1 or the slice. -/
  | pref (f : FormS)
  /-- PREF_X (R216): Form X PREF. -/
  | prefX (f : FormX)
  /-- WAITW_TIMEOUT (R214): A thread parked with an untabled line wakes after 2,048 core cycles. -/
  | waitwTimeout (band : Nat) (thread : Nat)
  /-- TCPY (R220): Starts a local tile copy per guarded thread and clears its tag. -/
  | tcpy (f : FormX)
  /-- TCPY_GRID (R222): Starts a grid copy to another device, or reports BUSY for a persistent instance. -/
  | tcpyGrid (f : FormX)
  /-- TILE_COPY_COMPLETE (R220): A copy finishes, drops PEND and sets its tag as a cluster-scope release. -/
  | tileCopyComplete (copy : Nat)
  /-- OVL (R227): Loads an overlay image into a slot once no thread stands in it. -/
  | ovl (f : FormX)
  /-- OVL_COMPLETE (R227): The slot receives its overlay id, length and source address. -/
  | ovlComplete (copy : Nat)
  /-- TWANY (R225): Short-form hold until some tag of the mask is set. -/
  | twany (f : FormS)
  /-- TWANY_X (R225): Form X or literal form of TWANY. -/
  | twanyX (f : XL)
  /-- TWALL (R225): Short-form hold until every tag of the mask is set. -/
  | twall (f : FormS)
  /-- TWALL_X (R225): Form X or literal form of TWALL. -/
  | twallX (f : XL)
  /-- TFFR (R225): Short-form index of the lowest set tag of the mask. -/
  | tffr (f : FormS)
  /-- TFFR_X (R225): Form X or literal form of TFFR. -/
  | tffrX (f : XL)
  /-- TCLR (R225): Short-form clear of the tags of the mask. -/
  | tclr (f : FormS)
  /-- TCLR_X (R225): Form X or literal form of TCLR. -/
  | tclrX (f : XL)
  /-- WAITC (R194): Holds the run until each outstanding-access counter is at or below its count. -/
  | waitc (f : FormX)
  /-- MMA (R245): Posts a matrix multiply-accumulate from its parameter block to the engine. -/
  | mma (f : FormX)
  /-- MFENCE (R248): Holds until earlier register writes and scratchpad stores are performed for the engine. -/
  | mfence (f : FormS)
  /-- RSLV (R252): Posts a resolve of a slot range to FP32 or BF16. -/
  | rslv (f : FormX)
  /-- ACLD (R250): Posts a load of slot images from memory or scratchpad. -/
  | acld (f : FormX)
  /-- ACST (R250): Posts a store of slot images to memory or scratchpad. -/
  | acst (f : FormX)
  /-- ACMP (R251): Posts an exact compare of slot elements writing a predicate. -/
  | acmp (f : FormX)
  /-- ACZ (R252): Short-form post setting one slot EMPTY. -/
  | acz (f : FormS)
  /-- ACZ_X (R252): Form X ACZ over a slot range. -/
  | aczX (f : FormX)
  /-- ACMOV (R252): Posts a copy of slot state, elements and metadata between ranges. -/
  | acmov (f : FormX)
  /-- MXQ_PUSH (R256): Copies a 128 B command to the tail of the engine's command ring. -/
  | mxqPush (f : FormX)
  /-- MXQ_INIT (R256): Sets the command ring's base and size and takes ownership. -/
  | mxqInit (f : FormX)
  /-- MPTBL (R254): Reads, checks and posts a load of a channel permutation table. -/
  | mptbl (f : FormX)
  /-- MCBTBL (R254): Reads and posts a load of a codebook table. -/
  | mcbtbl (f : FormX)
  /-- MROUTE (R255): Posts a write of a routing register of the context. -/
  | mroute (f : FormX)
  /-- BARI (R259): Initialises a barrier record in count, team or flight mode. -/
  | bari (f : XL)
  /-- BARJ (R260): Arrives at a barrier and waits for the phase. -/
  | barj (f : FormX)
  /-- BARA (R260): Arrives at a barrier and returns the phase arrived on. -/
  | bara (f : FormX)
  /-- BARW (R260): Waits for a given barrier phase to complete. -/
  | barw (f : XL)
  /-- TASKP (R263): Posts a task record to the pool of its own or a named cluster. -/
  | taskp (f : FormX)
  /-- GROW (R264): Raises QUOTA once the lane pool has room, first come first served. -/
  | grow (f : FormI)
  /-- SHRINK (R264): Lowers QUOTA, not below MAPPED, returning registers to the pool. -/
  | shrink (f : FormI)
  /-- PHASE (R264): Sets the band's PHASEID for the phase table. -/
  | phase (f : FormI)
  /-- PNCMD (R266): Sends a command record to a parameter node and holds until its status returns. -/
  | pncmd (f : FormX)
  /-- LOCAL_LOAD (R285): M2: a load is served from the write buffer or the L1. -/
  | localLoad (acc : Nat)
  /-- MISS_REQUEST (R285): M3: a read request enters the fabric queue toward the home slice. -/
  | missRequest (acc : Nat)
  /-- BUFFER_A_STORE (R285): M4: a store leaves the thread queue into the core's write buffer. -/
  | bufferAStore (acc : Nat)
  /-- DRAIN_INTO_L1 (R285): M5: a narrow store drains into the L1 as dirty bytes. -/
  | drainIntoL1 (acc : Nat)
  /-- WRITE_THROUGH (R285): M6: a wide or host-half store is sent through to the slice. -/
  | writeThrough (acc : Nat)
  /-- WRITE_BACK (R285): M7: a dirty sector is written back to its home slice. -/
  | writeBack (core : Nat) (line : Nat) (sector : Nat)
  /-- DROP (R285): M8: a clean sector becomes invalid. -/
  | drop (core : Nat) (line : Nat) (sector : Nat)
  /-- DELIVER (R285): M9: the oldest message of a fabric queue reaches its destination. -/
  | deliver (src : Nat) (dst : Nat) (lane : Nat)
  /-- PERFORM_AT_THE_SLICE (R285): M10: the home slice performs a read, write or atomic and sends invalidations. -/
  | performAtTheSlice (act : SliceAct)
  /-- FILL (R285): M11: a read response writes the load destination and fills the L1. -/
  | fill (msg : Nat)
  /-- INVALIDATE (R285): M12: a delivered invalidation drops clean sectors of the line. -/
  | invalidate (msg : Nat)
  /-- REPLAY (R429): M13: a side-log entry whose page is mapped is sent as a write and freed. -/
  | replay (core : Nat) (entry : Nat)
  /-- PERFORM_AT_A_BANK (R285): M14: a scratchpad bank performs a request on its single copy. -/
  | performAtABank (act : BankAct)
  /-- SECTOR_AGE_EXPIRY (R344): After 2^20 cycles a clean sector is dropped or a dirty sector written back. -/
  | sectorAgeExpiry (core : Nat) (line : Nat) (sector : Nat)
  /-- REFRESH_PERIOD_START (R281): A new weight store refresh period begins and WSREF.BASE updates. -/
  | refreshPeriodStart (die : Nat)
  /-- ENGINE_PASS_GRANT (R303): The arbiter grants the highest-ranked eligible entry one pass on the array or slot unit. -/
  | enginePassGrant (cluster : Nat) (entry : Nat)
  /-- PASS_END (R307): A pass ends, PROG advances and blocks whose last step it was retire. -/
  | passEnd (cluster : Nat) (entry : Nat)
  /-- PROMOTION (R303): An entry whose AGE reaches 4,096 is promoted to the top rank. -/
  | promotion (cluster : Nat) (entry : Nat)
  /-- EPILOGUE_RESOLVE (R311): The slot unit resolves, scales, applies ReLU and converts a queued block. -/
  | epilogueResolve (cluster : Nat)
  /-- EPILOGUE_SEND (R311): A resolved block is sent to the slot, scratchpad, memory or routed peer. -/
  | epilogueSend (cluster : Nat) (block : Nat)
  /-- BLOCK_ACCEPTED (R312): The destination accepts a sent block, counting it done. -/
  | blockAccepted (cluster : Nat) (block : Nat)
  /-- TL_RELEASE (R311): An operation's tl count is released 4 engine cycles after retirement. -/
  | tlRelease (cluster : Nat) (entry : Nat)
  /-- ENGINE_STOP_REQUEST (R309): Firmware stops a context's engine operations at a K step boundary and removes its entries. -/
  | engineStopRequest (cluster : Nat) (ctx : Nat)
  /-- FIRST_USE_TRAP (R403): Firmware spills another context's slot, loads the poster's image, reassigns ownership and reissues the run. -/
  | firstUseTrap (band : Nat)
  /-- RING_NOP (R315): Ring command 0 does nothing beyond its wait and signals. -/
  | ringNop (cluster : Nat)
  /-- RING_MMA (R315): Ring command 1 runs its parameter block as an MMA. -/
  | ringMma (cluster : Nat)
  /-- RING_RSLV (R315): Ring command 2 resolves the slot range in SOP. -/
  | ringRslv (cluster : Nat)
  /-- RING_ACST (R315): Ring command 3 stores the slot range in SOP. -/
  | ringAcst (cluster : Nat)
  /-- RING_ACZ (R315): Ring command 4 empties the slot range in SOP. -/
  | ringAcz (cluster : Nat)
  /-- RING_HALT (R315): Ring command 5 stops fetching until the next MXQ.init. -/
  | ringHalt (cluster : Nat)
  /-- RING_WAIT_HOLDS (R317): A command's wait on a phase or word holds and its passes may begin. -/
  | ringWaitHolds (cluster : Nat)
  /-- FREE_ARRIVAL (R317): Arrival at FADDR once the command's operand reads are done. -/
  | freeArrival (cluster : Nat) (entry : Nat)
  /-- DONE_ARRIVAL (R317): Arrival at DADDR once the command retires. -/
  | doneArrival (cluster : Nat) (entry : Nat)
  /-- SPAWN_RECORD_TIMEOUT (R276): A group whose oldest record waited 8,192 cycles forms an imago band. -/
  | spawnRecordTimeout (cluster : Nat) (group : Nat)
  /-- LOOP_WATCH_TIMEOUT (R331): Threads parked by the loop watch unit wake after 65,536 or 2,048 cycles. -/
  | loopWatchTimeout (band : Nat)
  /-- ROTATION_SCHEDULE (R336): The die scheduler restores runnable absent teams, saving candidates as needed. -/
  | rotationSchedule (die : Nat)
  /-- HOME_SCHEDULER_REQUEST (R337): A die scheduler requests an absent team from the flight's home scheduler. -/
  | homeSchedulerRequest (die : Nat) (flight : Nat)
  /-- TEAM_SAVE (R338): Drains, releases and writes a team to the context save area, freeing its room. -/
  | teamSave (flight : Nat) (team : Nat)
  /-- TEAM_RESTORE (R338): Writes a saved team into room and acquires at device scope before it issues. -/
  | teamRestore (flight : Nat) (team : Nat) (core : Nat)
  /-- STARVATION_CHECK (R342): Every 1,024 cycles the home scheduler compares each flight's clock with STARVE. -/
  | starvationCheck (die : Nat)
  /-- TASK_POST_ACCEPT (R350): The pool reads, checks and queues a posted task into its bin. -/
  | taskPostAccept (post : Nat)
  /-- TASK_DISPATCH (R355): The dispatcher starts a task band for the next dispatchable entry of its bin. -/
  | taskDispatch (cluster : Nat) (bin : Nat)
  /-- TASK_END (R357): A task band ends; release, STATUS write and successor counter decrement follow. -/
  | taskEnd (band : Nat)
  /-- NOTIFY_IDX (R363): A notify write advances the queue's NIDX. -/
  | notifyIdx (queue : Nat) (idx : Nat)
  /-- NOTIFY_RESUME (R363): A RESUME write returns a HALTED queue to IDLE past HIDX. -/
  | notifyResume (queue : Nat)
  /-- FLPOP (R367): An 8-byte load pops an empty segment from the free list. -/
  | flpop (msg : Nat)
  /-- FLPUSH (R367): An 8-byte store adds a segment to the free list. -/
  | flpush (msg : Nat)
  /-- QUEUE_SLOT_GRANT (R364): The queue mapper gives a pending queue a free active slot. -/
  | queueSlotGrant (queue : Nat) (slot : Nat)
  /-- SLOT_TIME_LIMIT (R364): A queue holding its slot 2^16 cycles with others pending gives it up. -/
  | slotTimeLimit (queue : Nat)
  /-- HEADER_READ (R368): The front end reads the next packet header with a device-scope acquire. -/
  | headerRead (queue : Nat)
  /-- EMPTY_SLOT_RETRY (R368): After 4,096 firmware cycles the front end rereads an empty slot. -/
  | emptySlotRetry (queue : Nat)
  /-- PACKET_NOP (R372): A NOP packet becomes DONE. -/
  | packetNop (queue : Nat)
  /-- PACKET_LINK (R368): A LINK moves the read segment and returns the old segment. -/
  | packetLink (queue : Nat)
  /-- PACKET_SIGNAL (R372): A SIGNAL releases and stores or adds its value once earlier packets are final. -/
  | packetSignal (queue : Nat)
  /-- PACKET_DEPEND (R372): A DEPEND blocks the queue until its words meet their condition. -/
  | packetDepend (queue : Nat)
  /-- PACKET_LAUNCH (R376): A LAUNCH is parsed, accepted as a flight, and its teams become absent. -/
  | packetLaunch (queue : Nat)
  /-- PACKET_GANG (R380): A GANG reserves room on every named partition and commits or rolls back. -/
  | packetGang (queue : Nat)
  /-- GANG_RETRY (R380): A BLOCKED gang retries its reservations when room frees. -/
  | gangRetry (queue : Nat)
  /-- GANG_GO (R381): A die starts its gang teams on GO and acknowledges. -/
  | gangGo (gang : Nat) (die : Nat)
  /-- GANG_ACK_TIMEOUT (R381): A die not acknowledging within 4,000 cycles has the gang killed. -/
  | gangAckTimeout (gang : Nat) (die : Nat)
  /-- FLIGHT_COMPLETE (R379): A finished flight is released, signalled, marked DONE and its vector raised. -/
  | flightComplete (flight : Nat)
  /-- EMBER_RESTART (R382): A lock-step mismatch restarts the Ember pair, which recovers the QCBs. -/
  | emberRestart
  /-- WORKER_HEARTBEAT_TIMEOUT (R382): A silent worker is reset and its queues recovered. -/
  | workerHeartbeatTimeout (worker : Nat)
  /-- CONTEXT_SWITCH (R388): Firmware stops and saves a context's teams, engine operations and rings. -/
  | contextSwitch (old : Nat) (new : Nat)
  /-- QUANTUM_EXPIRY (R388): A context's time slice ends while an equal-priority context has work. -/
  | quantumExpiry (ctx : Nat)
  /-- SAFE_POINT_TIMEOUT (R397): A band not stopped 2^20 cycles after a safe-point request stops at an instruction boundary. -/
  | safePointTimeout (band : Nat)
  /-- ATTACH (R411): Mailbox command attaching a debugger to the context. -/
  | attach (ctx : Nat)
  /-- DETACH (R411): Mailbox command resuming halted bands and clearing breakpoints. -/
  | detach (ctx : Nat)
  /-- HALT (R418): Mailbox command halting the named bands at instruction boundaries. -/
  | halt (ctx : Nat)
  /-- RESUME (R418): Mailbox command returning STATE 4 threads to STATE 0. -/
  | resume (ctx : Nat)
  /-- STEP (R416): Mailbox command issuing one halted thread alone as a run of one. -/
  | step (ctx : Nat)
  /-- READREG (R417): Mailbox command reading a thread register by name. -/
  | readreg (ctx : Nat)
  /-- WRITEREG (R417): Mailbox command writing a thread register, allocating within QUOTA. -/
  | writereg (ctx : Nat)
  /-- READPOS (R418): Mailbox command returning a position entry and park detail. -/
  | readpos (ctx : Nat)
  /-- SETBP (R412): Mailbox command writing a breakpoint register. -/
  | setbp (ctx : Nat)
  /-- SETWP (R413): Mailbox command writing a data watchpoint register. -/
  | setwp (ctx : Nat)
  /-- READENG (R418): Mailbox command writing engine entry, metadata and owner words to memory. -/
  | readeng (ctx : Nat)
  /-- KILL (R418): Mailbox command killing a thread, band or team with withdrawals. -/
  | kill (ctx : Nat)
  /-- RANGE_SET_LOAD (R424): A unit's range cache miss loads the context's range set in 96 cycles. -/
  | rangeSetLoad (unit : Nat) (ctx : Nat)
  /-- TABLE_WALK (R426): The die's walker translates an intermediate address after a cache miss. -/
  | tableWalk (die : Nat) (page : Nat)
  /-- MAPDONE (R427): Driver service making waiting accesses to a mapped range retranslate. -/
  | mapdone (lo : Nat) (hi : Nat)
  /-- PRI_RESPONSE (R427): The host's page response leads to a new translation request or an UNMAP. -/
  | priResponse (page : Nat) (ok : Bool)
  /-- SET_RANGE_TABLE (R422): Firmware service writing a context's range table, refusing bad tables. -/
  | setRangeTable (ctx : Nat) (table : List Nat)
  /-- REMAP (R431): Shoot-down for migration: hold, drop caches, write back and acknowledge. -/
  | remap (lo : Nat) (hi : Nat) (scope : Nat)
  /-- UNMAP (R431): Shoot-down for removal, also discarding side-log entries and stopping held work. -/
  | unmap (lo : Nat) (hi : Nat) (scope : Nat)
  /-- RANGE (R431): Shoot-down of a context's changed range set. -/
  | range (ctx : Nat) (scope : Nat)
  /-- SHOOTDOWN_ACK (R432): A node of the counted tree acknowledges once its steps and children are done. -/
  | shootdownAck (node : Nat)
  /-- SHOOTDOWN_TIMEOUT (R432): A child not acknowledging within SDTO is fenced off or disabled. -/
  | shootdownTimeout (node : Nat)
  /-- GRID_DELIVERY (R436): A grid delivery is translated by GKEY and performed or dropped at the target. -/
  | gridDelivery (msg : Nat)
  /-- CONTRIBUTION_ARRIVAL (R440): The reduction unit adds or buffers a contribution in ascending rank. -/
  | contributionArrival (msg : Nat)
  /-- PNCMD_REG (R449): Node command registering a tensor with initial weights and moments. -/
  | pncmdReg (die : Nat)
  /-- PNCMD_RULE (R449): Node command storing a tensor's update rule. -/
  | pncmdRule (die : Nat)
  /-- PNCMD_OPEN (R449): Node command discarding staged sums and resetting NEXTR and NRANK. -/
  | pncmdOpen (die : Nat)
  /-- PNCMD_COMMIT (R453): Node command applying step OPEN to every block or reporting MISSING. -/
  | pncmdCommit (die : Nat)
  /-- PNCMD_QUERY (R450): Node command writing the 64 B query record. -/
  | pncmdQuery (die : Nat)
  /-- PNCMD_SUB (R449): Node command adding or cancelling a subscription. -/
  | pncmdSub (die : Nat)
  /-- PNCMD_UNREG (R449): Node command freeing a tensor. -/
  | pncmdUnreg (die : Nat)
  /-- GRADIENT_BLOCK (R451): A routed gradient block is added, held, discarded or refused by the node. -/
  | gradientBlock (die : Nat) (msg : Nat)
  /-- SUBSCRIPTION_DELIVERY (R455): The node writes fresh blocks to a subscriber and sets its tag. -/
  | subscriptionDelivery (die : Nat) (sub : Nat)
  /-- WEIGHT_STORE_SUBSCRIPTION (R456): Fresh blocks are written to a weight store once no flight is resident on the die. -/
  | weightStoreSubscription (die : Nat) (sub : Nat)
  /-- NODE_RESTART (R457): A failed node is reset, reloads its tensors and completes interrupted commits. -/
  | nodeRestart (die : Nat)
  /-- NODE_HEARTBEAT_TIMEOUT (R484): A node silent for 2^22 firmware cycles is declared failed. -/
  | nodeHeartbeatTimeout (die : Nat)
  /-- HOST_WINDOW_ACCESS (R462): A host BAR2 read, write or AtomicOp is performed at the home slice. -/
  | hostWindowAccess (acc : HostAcc)
  /-- REGISTER_WRITE (R461): A BAR0 write to a register with no row of its own. -/
  | registerWrite (reg : Nat) (val : Nat)
  /-- MSIX_UNMASK (R465): Unmasking a vector sends its pending message. -/
  | msixUnmask (vec : Nat)
  /-- FLIT_RECEIVE (R467): A Kiln flit is checked, corrected or discarded and accepted in SEQ order. -/
  | flitReceive (link : Nat) (flit : Flit)
  /-- LINK_RETRAIN (R467): After 64 resends without progress the link retrains, keeping its flits. -/
  | linkRetrain (link : Nat)
  /-- LINK_TRAINING_DONE (R470): Training ends UP, DEGRADED or DOWN after three failures. -/
  | linkTrainingDone (link : Nat) (ok : Nat)
  /-- LINK_DISABLE (R470): Writing DIS 1 disables the link and moves its flits. -/
  | linkDisable (link : Nat)
  /-- LINK_ENABLE (R470): Writing DIS 0 returns a disabled link to DOWN. -/
  | linkEnable (link : Nat)
  /-- ROUTE_UNSERVED_TIMEOUT (R468): A rank served by no link for SDTO cycles is marked FAILED. -/
  | routeUnservedTimeout (rank : Nat)
  /-- BAND_STOP (R475): A class-1 fault stops the band, halting for the debugger or snapshotting and killing. -/
  | bandStop (band : Nat)
  /-- SET_FAULT_RING (R472): Driver service naming the fault ring. -/
  | setFaultRing (base : Nat) (log2 : Nat)
  /-- SNAPSHOT_RELEASE (R476): Driver service releasing a snapshot team record. -/
  | snapshotRelease (snap : Nat)
  /-- FLIGHT_KILL (R477): A flight is stopped, withdrawn, drained and signalled with -256. -/
  | flightKill (flight : Nat)
  /-- KILL_SIDE_LOG_TIMEOUT (R477): Side-log entries of a killed flight still waiting after 2^24 cycles are discarded. -/
  | killSideLogTimeout (flight : Nat)
  /-- CORRECTED_ERROR (R479): A corrected error is recorded and counted against its location. -/
  | correctedError (code : Nat)
  /-- UNCORRECTED_ERROR (R483): An uncorrected error poisons its data and acts on the reader or unit. -/
  | uncorrectedError (code : Nat) (target : Nat)
  /-- DIE_DISABLE (R486): A failed compute die is disabled and its flights killed. -/
  | dieDisable (die : Nat)
  /-- PEER_READMIT (R486): Firmware service re-admitting a reset peer device. -/
  | peerReadmit (rank : Nat)
  /-- COLD_RESET (R489): Power-on or fundamental reset runs the full bring-up. -/
  | coldReset
  /-- WARM_RESET (R490): A WRST write or Luna request kills flights and repeats bring-up without a power cycle. -/
  | warmReset
  /-- PARTCFG (R491): Write setting the partition count when no flight is resident. -/
  | partcfg (val : Nat)
  /-- PWRLIM (R493): Write setting the power limit, clamped to 500 to 3,000 W. -/
  | pwrlim (val : Nat)
  /-- POWER_CONTROL_TICK (R493): Each microsecond the controller lowers or raises each die's clock. -/
  | powerControlTick
  /-- SET_ENDPOINT_ID (R494): MCTP control message assigning the Luna endpoint ID. -/
  | setEndpointId (id : Nat)
  /-- GET_ENDPOINT_ID (R494): MCTP control message returning the endpoint ID. -/
  | getEndpointId
  /-- GET_MCTP_VERSION_SUPPORT (R494): MCTP control message returning supported versions. -/
  | getMctpVersionSupport
  /-- GET_MESSAGE_TYPE_SUPPORT (R494): MCTP control message returning supported message types. -/
  | getMessageTypeSupport
  /-- SENSOR_READ (R494): PLDM read of die temperature, rail current or package power. -/
  | sensorRead (sensor : Nat)
  /-- SET_LUNA_CAP (R494): PLDM effecter setting the Luna power cap. -/
  | setLunaCap (val : Nat)
  /-- READ_IDENTIFICATION (R494): Vendor message reading DEVID, UNITS, CMAP and STATUS. -/
  | readIdentification
  /-- READ_FAULT_RECORDS (R494): Vendor message reading the last 16 fault records. -/
  | readFaultRecords
  /-- SET_GRID_COORDINATES (R494): Vendor message setting grid coordinates for the next bring-up. -/
  | setGridCoordinates (val : Nat)
  /-- REQUEST_WARM_RESET (R494): Vendor message requesting a warm reset. -/
  | requestWarmReset
  /-- COLD_POWER_UP_REQUEST (R494): Luna request to power the device up while the I/O die is unpowered. -/
  | coldPowerUpRequest
  /-- REFRESH_WINDOW_CLOSE (R282): A bank's weight store refresh window closes and the LDW held on it returns its bytes. -/
  | refreshWindowClose (die : Nat) (bank : Nat)
  /-- REFRESH_PARAMETER_CHANGE (R281): Firmware changes PERIOD, WLEN or STAGGER and a new refresh period begins at that cycle. -/
  | refreshParameterChange (die : Nat) (period : Nat) (wlen : Nat) (stagger : Nat)
  /-- CREATE_CONTEXT (R386): Firmware service that creates a context with its root record, CSA, spill pool, priority and cluster mask. -/
  | createContext (ctx : Nat) (rec : List Nat)
  /-- DESTROY_CONTEXT (R407): Firmware service that destroys a context, emptying its owned slots, clearing AOWN and discarding images and snapshots. -/
  | destroyContext (ctx : Nat)
  /-- CREATE_QUEUE (R362): Firmware service creating a queue and its QCB. -/
  | createQueue (queue : Nat) (rec : List Nat)
  /-- BIND_QUEUE (R362): Firmware service binding a queue to its context, partition and ring. -/
  | bindQueue (queue : Nat) (rec : List Nat)
  /-- DISABLE_QUEUE (R362): Firmware service that puts a queue in STATE DISABLED. -/
  | disableQueue (queue : Nat)
  /-- SET_VEC (R465): Driver service that assigns an MSI-X vector to a queue, refusing values outside 2 to 2,047. -/
  | setVec (queue : Nat) (vec : Nat)
  /-- SET_GKEY (R436): Driver service that sets a context's 16-bit grid key. -/
  | setGkey (ctx : Nat) (key : Nat)
  /-- ATS_TRANSLATION_COMPLETION (R427): The host's ATS translation completion arrives, mapping or refusing a host-half page for waiting accesses. -/
  | atsTranslationCompletion (page : Nat) (rec : List Nat)
  /-- HOST_COMPLETION (R464): A PCI Express completion for a device read or AtomicOp to the host half arrives, possibly with an error that writes all ones and a HOSTATOMIC record. -/
  | hostCompletion (req : Nat) (rec : List Nat)
  /-- SPARE_ROW_COPY_DONE (R481): The copy of a faulty DRAM row to a spare row completes and the held accesses to the row proceed. -/
  | spareRowCopyDone (code : Nat)
  /-- WST_ROW_REPAIR (R481): A faulty weight store row is copied to a spare row once no kernel runs on the die. -/
  | wstRowRepair (code : Nat)
  /-- RAILS_DOWN (R492): Power is removed and the rails go down in reverse order, losing every state but the fuses. -/
  | railsDown
  deriving DecidableEq, Repr

end Sys2Proof
end

