-- ==== Sys2Proof/Machine/State.lean ====
section
/-!
DEFINITION. Sys2Proof/Machine/State.lean: the state of one FLN-V840 device as plain data: threads, bands, cores, clusters,
dies, the I/O die with its firmware, memory and the messages of the fabric. Records that exist only while something is
resident, in flight or registered stand in tables; an absent entry is the reset value of that record. INVENTORY.md lists
every piece with its rule and its reset value.
-/
namespace Sys2Proof.Machine

/-! ### Threads (R51, R58, R60) -/

/-- STATE of a position-table entry (R58). -/
inductive TState where
  | ready | onBarrier | onWatch | atOp | halted | exited
  deriving DecidableEq, Repr

/-- A barrier record (R257): in global memory by its intermediate address, or in a team's scratchpad allocation by its
offset there. -/
structure BarRef where
  space : Nat
  team : Nat := 0
  addr : Nat
  deriving DecidableEq, Repr

/-- The park detail of a thread (R394). -/
inductive Park where
  | none
  /-- waiting at BARJ or BARW for a phase of a record, named by its address in the instruction (R260) -/
  | barrier (ref : BarRef) (va phase ord scope len : Nat)
  /-- released from a barrier while absent: its acquire is still to be performed (R321) -/
  | acquire (ord scope : Nat)
  /-- band operation, CSAVE or CREST: the member mask (R149) -/
  | op (mask : Nat)
  /-- ECALL: service number, status once done, whether done (R183) -/
  | ecall (service status : Nat) (done : Bool)
  /-- WAITW since a cycle of the die (R214) -/
  | waitw (since len : Nat)
  /-- parked by the loop watch unit since a cycle of the die (R330) -/
  | loop (since : Nat)
  /-- stopped at a SAFE id (R397) -/
  | safe (id : Nat)
  /-- halted by its own BRK: a resume advances it (R177) -/
  | brk
  deriving DecidableEq, Repr

/-- One thread of a resident or saved band. -/
structure Thread where
  /-- STATE, 3 bits (R58); ready at launch -/
  state : TState := .ready
  /-- DEPTH, 8 bits (R58); 0 at launch -/
  depth : Nat := 0
  /-- PC, 16 bits (R58); the launch's entry -/
  pc : Nat := 0
  /-- p0 to p6, one bit each (R51); 0 at launch -/
  preds : Nat := 0
  /-- RNDCTR, 32 bits (R32); 0 at launch -/
  rndctr : Nat := 0
  /-- in-trap bit (R175); 0 at launch -/
  inTrap : Bool := false
  /-- TIDX, 32 bits (R61) -/
  tidx : Nat := 0
  /-- the REP iteration at which the thread's unit stands (R84, R85); 0 outside a unit -/
  rep : Nat := 0
  /-- park detail, 16 B (R394) -/
  park : Park := .none
  /-- invalidations that an acquire of the thread still waits for, by message number (R291) -/
  acqs : List Nat := []
  /-- the PCs at which it has been resumed or stepped since its last halt: no breakpoint matches there (R414) -/
  past : List Nat := []
  deriving DecidableEq, Repr

/-- One mapped architectural register of a band: its physical band-register and the entries of the threads whose live
bit is set (R54, R57). A thread without an entry has its live bit clear. -/
structure VReg where
  name : Nat
  preg : Nat
  vals : Tbl Word
  deriving DecidableEq, Repr

/-! ### Outstanding accesses (R193, R285) -/

/-- The class of an outstanding-access counter (R193). -/
inductive Cls where
  | ld | st | cp | tl
  deriving DecidableEq, Repr

/-- What an access writes when its data returns: nothing, a v register group or a k group under a TI code, a predicate,
or a block (of several that one run may read in turn) kept for the held run that asked for it. -/
inductive Dest where
  | none
  | v (reg ti : Nat)
  | k (reg ti : Nat)
  | pred (p : Nat)
  | block (step : Nat)
  deriving DecidableEq, Repr

/-- One counted run: the accesses of its threads that are not complete. -/
structure Group where
  gid : Nat
  cls : Cls
  dest : Dest := .none
  /-- key of the run, for the block reads of a held run -/
  depth : Nat := 0
  pc : Nat := 0
  /-- access units still outstanding, per thread -/
  left : Tbl Nat := []
  /-- the bytes returned so far, per thread, as a little-endian number -/
  buf : Tbl Nat := []
  /-- the number of bytes of each thread's access -/
  size : Nat := 0
  deriving DecidableEq, Repr

/-- The kinds of access unit. -/
inductive AccKind where
  | load | store | atom | atom2 | red | pref
  deriving DecidableEq, Repr

/-- One access unit of a thread: an access of 8 bytes or less that passes through the steps of R285 as one unit. -/
structure Acc where
  id : Nat
  gid : Nat
  core : Nat
  /-- key of the band's slot: 256 times the core, plus 4 times the lane, plus the slot -/
  band : Nat
  thread : Nat
  kind : AccKind
  /-- 0 global, 1 scratchpad, 2 weight store -/
  space : Nat
  /-- VA of a global access, for fault records -/
  va : Nat
  /-- intermediate address, absolute scratchpad offset of the cluster, or weight store index -/
  addr : Nat
  size : Nat
  scope : Nat
  acq : Bool := false
  rel : Bool := false
  data : Nat := 0
  cmp : Nat := 0
  /-- operation and type of an atomic (R205, R206) -/
  op : Nat := 0
  ty : Nat := 0
  /-- offset of the unit in its thread's access -/
  off : Nat := 0
  /-- physical address (or host intermediate address), once translated at the core's fabric port (R426) -/
  pa : Nat := 0
  /-- threads that receive the result of a merged ATOM2 (R208) -/
  fan : List Nat := []
  /-- progress of a release: groups of the band it waits for, then messages it waits for (R204) -/
  relPhase : Nat := 0
  relWait : List Nat := []
  /-- sent into the fabric by M3 -/
  sent : Bool := false
  /-- an acquire or an invalidation has passed the read in flight: its line is dropped by M8 as it fills (log entry 24) -/
  stale : Bool := false
  /-- a write of the cluster has passed the read in flight: the copy it fills is behind (log entry 26) -/
  behind : Bool := false
  /-- bytes of the line that left the core as a write while the read was in flight -/
  newer : Tbl Byte := []
  /-- a page fault holds the access and its band (R201, R427) -/
  faulted : Bool := false
  flight : Nat := 0
  ctx : Nat := 0
  /-- the band, whatever slot it stands in -/
  uid : Nat := 0
  deriving DecidableEq, Repr

/-- One L1 line (R198): valid bytes, dirty bytes, scope tag, and the cycles of the last fill and the first dirtying of
each sector (R344). -/
structure Line where
  /-- physical address of the line -/
  pa : Nat := 0
  bytes : Tbl Byte := []
  dirty : List Nat := []
  tag : Nat := 0
  filled : Tbl Nat := []
  dirtied : Tbl Nat := []
  /-- a write of another agent of the cluster has been performed since the line's clean bytes were read, so that an acquire at team
  scope or wider drops them (R292; log entry 26) -/
  behind : Bool := false
  deriving DecidableEq, Repr

/-- The body of a fabric message (R285). -/
inductive Body where
  /-- read request of access `acc` for the line at `ia`, physical line address `pa` -/
  | read (acc ia pa scope : Nat)
  /-- read response: the line's bytes, and the invalidations in flight to the core at the read -/
  | resp (acc ia : Nat) (bytes : Tbl Byte) (acqs : List Nat)
  /-- write of listed bytes at the line with the scope tag of its sector (8 for a write-through, 9 for a replay, 10 for a unit's, whose
  copy or entry `band` then names); acknowledged to a band's group, if gid is not 0 -/
  | write (ia pa : Nat) (bytes : Tbl Byte) (tag : Nat) (band gid thread : Nat)
  /-- a RED at the slice (R209) -/
  | red (ia pa size op ty data band gid thread : Nat)
  /-- an element of a tile copy with ROP: operation, element size, value, and its copy (R220) -/
  | rop (ia pa op size data copy : Nat)
  | ack (band gid thread : Nat)
  /-- an atomic of access `acc` at `pa`; `part` 1 is element 1 of an ATOM2 whose element 0 was `old` (R208, R295) -/
  | atomic (acc ia pa part old : Nat)
  | aresp (acc old : Nat) (acqs : List Nat)
  | inv (ia : Nat)
  /-- a read or AtomicOp that the I/O die has sent to the host (R463, R464) -/
  | host (acc ia : Nat) (atomic : Bool)
  deriving DecidableEq, Repr

/-- A message of a fabric queue; queues are the messages of one source, destination and lane, in order of number. -/
structure Msg where
  id : Nat
  src : Nat
  dst : Nat
  lane : Nat
  delivered : Bool := false
  body : Body
  deriving DecidableEq, Repr

/-- A side-log entry, 64 B (R428). -/
structure SideEntry where
  va : Nat
  ia : Nat
  data : Nat
  bmask : Nat
  red : Bool
  rtype : Nat
  rop : Nat
  scope : Nat
  rel : Bool
  lane : Nat
  slot : Nat
  btid : Nat
  ctx : Nat
  flight : Nat
  seq : Nat
  replaying : Bool := false
  uid : Nat
  gid : Nat := 0
  deriving DecidableEq, Repr

/-! ### Bands (R14, R51 to R59) -/

/-- A recorded successor (R171). -/
structure Succ where
  ovid : Nat
  off : Nat
  a : Nat
  n : Nat
  deriving DecidableEq, Repr

/-- A line of a band's watch set (R212, R213): its name (R326), whether a watch-table entry stands for it, and the
event bit of each thread. -/
structure Watch where
  name : Nat
  tabled : Bool
  /-- the mark stands at the slice or bank (R212); false after the slice dropped it (R213) -/
  marked : Bool := true
  events : Nat
  deriving DecidableEq, Repr

/-- A band operation's instance at a key that has completed and not yet issued (R149, R268). -/
structure Done where
  depth : Nat
  pc : Nat
  rep : Nat
  mask : Nat
  present : List Nat
  exited : List Nat
  deriving DecidableEq, Repr

/-- The loop watch unit's tracker of a slot, 96 B (R326); all zero at reset. -/
structure Tracker where
  active : Bool := false
  armed : Bool := false
  ev : Bool := false
  tpc : Nat := 0
  bpc : Nat := 0
  count : Nat := 0
  nins : Nat := 0
  tmask : Nat := 0
  h : Nat := 0
  prevh : Nat := 0
  clines : List Nat := []
  alines : List Nat := []
  /-- the armed lines that stand untabled (R329) -/
  untabled : List Nat := []
  deriving DecidableEq, Repr

/-- A class-1 fault that stopped a band and what its record will name (R473, R474). -/
structure BandFault where
  code : Nat
  pc : Nat
  btid : Nat
  addr : Nat := 0
  aux0 : Nat := 0
  aux1 : Nat := 0
  rep : Nat := 0
  inRep : Bool := false
  /-- firmware has acted on it (R475) -/
  noted : Bool := false
  deriving DecidableEq, Repr

/-- The halt record DHALT of a band, 16 B (R415); all zero while running. -/
structure Halt where
  why : Nat := 0
  idx : Nat := 0
  pc : Nat := 0
  tid : Nat := 0
  addr : Nat := 0
  deriving DecidableEq, Repr

/-- The progress of a release that a held run is making (R204): its key, the step, and the groups or messages it waits
for. -/
structure RelProg where
  depth : Nat
  pc : Nat
  phase : Nat := 0
  wait : List Nat := []
  deriving DecidableEq, Repr

/-- A band: the content of one slot, or of one band record. -/
structure Band where
  flight : Nat
  team : Nat
  bandid : Nat
  width : Nat
  threads : List Thread
  regs : List VReg := []
  /-- k0 to k63, 32 bits each (R51); the launch's initialisation block, 0 beyond it -/
  kregs : List Word := List.replicate 64 0
  /-- QUOTA (R56); the launch's REGS -/
  quota : Nat := 256
  /-- BSTAT.BEC, 5 bits (R59); 0 -/
  bec : Nat := 0
  /-- BSTAT.MX (R59); 0 -/
  mx : Bool := false
  /-- BSTAT.QOV (R59); 0 -/
  qov : Bool := false
  /-- RNDSEED, 32 bits (R32); 0 -/
  rndseed : Nat := 0
  /-- PHASEID, 4 bits (R60); 0 at launch, FLAGS.PHASE of a task band -/
  phase : Nat := 0
  /-- the choice that a YIELD asked for the next run (R173) -/
  yieldNext : Bool := false
  /-- the outstanding counted runs: ld, st, cp and tl are their numbers (R193) -/
  groups : List Group := []
  /-- completed instances that have not issued (R268) -/
  done : List Done := []
  watches : List Watch := []
  /-- the band is held until the page of an intermediate address is mapped (R201): a watch or a record read, with its
  virtual address -/
  pageWait : Option (Nat × Nat) := none
  /-- releases in progress of held runs (R204) -/
  rels : List RelProg := []
  succ : Option Succ := none
  tracker : Tracker := {}
  /-- the fault that stopped the band, if any (R475) -/
  fault : Option BandFault := none
  halt : Halt := {}
  /-- halted by the debugger (R270) -/
  halted : Bool := false
  /-- the thread that the debugger is stepping (R416) -/
  stepping : Option Nat := none
  /-- a stop request: none, at an instruction boundary, at a SAFE since a cycle (R395 to R397) -/
  stop : Option (Nat × Nat) := none
  /-- a task band: its cluster and lot (R355) -/
  task : Option (Nat × Nat) := none
  /-- a task band whose entry no word of an overlay can be: its first run raises PASTEND (R355) -/
  pastEnd : Bool := false
  /-- first posting position of a held GROW in its lane (R264) -/
  growTicket : Option Nat := none
  /-- a held tile operation's PC, thread and the slots of other contexts that it names, while firmware handles the
  first-use trap (R403) -/
  firstUse : Option (Nat × Nat × List Nat) := none
  /-- the key, depth and PC, of a run held at a GROW, or at a BRS for room: its threads count as parked (R264, R275) -/
  heldPark : Option (Nat × Nat) := none
  /-- breakpoints and watchpoint hits to act on after the run (R414) -/
  wpHit : Option (Nat × Nat × Nat) := none
  deriving DecidableEq, Repr

/-- The issue register: the run that an instruction's meaning acts on (R47, R268). -/
structure Run where
  /-- package core, lane and slot -/
  core : Nat := 0
  lane : Nat := 0
  slot : Nat := 0
  /-- threads of the run, ascending BTID -/
  threads : List Nat := []
  pc : Nat := 0
  depth : Nat := 0
  /-- base word and length of the instruction (R174) -/
  word : Word := 0
  len : Nat := 1
  /-- a rotation run (R268), a single-step run (R269) -/
  rot : Bool := false
  single : Bool := false
  /-- the iteration at which a REP unit starts (R84) -/
  rep : Nat := 0
  inRep : Bool := false
  /-- set by the meaning: the run is held; threads that took a backward branch; the run has retired or moved -/
  held : Bool := false
  /-- set where the run ended by a trap or a fault instead of retiring -/
  ended : Bool := false
  back : List Nat := []
  /-- addresses loaded and words written per thread, for the loop watch unit (R328) -/
  loads : List (Nat × Nat × Nat) := []
  writes : List (Nat × Nat) := []
  /-- the v registers written, with the thread (R231) -/
  regs : List (Nat × Nat) := []
  deriving DecidableEq, Repr

/-! ### Cores, lanes, clusters, dies -/

/-- An overlay slot (R65, R391). -/
structure Overlay where
  /-- overlay id; none while absent -/
  ovid : Option Nat := none
  /-- the loaded words; the loaded length is their number, 0 at reset -/
  words : List Word := []
  src : Nat := 0
  deriving DecidableEq, Repr

/-- A lane's rotation state (R48): the slot that issued last, a slot to pass over once (R173), the phase of the band that
issued last (R360), and the next ticket of its held GROWs (R264). -/
structure Lane where
  last : Nat := 3
  skip : Option Nat := none
  lastPhase : Nat := 0
  tickets : Nat := 0
  /-- cycles of the runs issued that have still to pass, and the die cycle up to which the lane's cycles are counted (R360); 0 -/
  owed : Nat := 0
  counted : Nat := 0
  deriving DecidableEq, Repr

/-- A range register (R422). -/
structure RangeReg where
  base : Nat
  limit : Nat
  iabase : Nat
  h : Bool
  a : Bool
  w : Bool
  x : Bool
  deriving DecidableEq, Repr

/-- One core (R11, R12). -/
structure Core where
  overlays : List Overlay := [{}, {}, {}, {}]
  l1 : Tbl Line := []
  /-- TAGS, 64 bits (R223); 0 -/
  tags : Nat := 0
  /-- PEND, 64 counts (R223); 0 -/
  pend : Tbl Nat := []
  /-- the message number at which each tag was last set, for the acquire of a tag wait (R291); the model's own -/
  tagAt : Tbl Nat := []
  sidelog : List SideEntry := []
  sideSeq : Nat := 0
  /-- counters 0 to 9 of R182; 0 -/
  perf : Tbl Nat := []
  /-- phase table, keyed by the selector of R182; 0 -/
  phases : Tbl Nat := []
  /-- context whose range set the core holds, with the set (R424) -/
  ranges : Option (Nat × List RangeReg) := none
  /-- the kernel image of the resident bands: ROI and KIDX (R377) -/
  image : Option (Nat × Nat) := none
  disabled : Bool := false
  deriving DecidableEq, Repr

/-- A raw accumulator element (R36): S and C of 72 bits, ANC of 10 bits and the flags; the reset element is all zero. -/
structure El where
  s : Nat := 0
  c : Nat := 0
  anc : Nat := 0
  stk : Bool := false
  nan : Bool := false
  pinf : Bool := false
  ninf : Bool := false
  deriving DecidableEq, Repr

/-- The state of an accumulator slot (R234) with its elements: raw and wide elements, or resolved codes. -/
inductive SlotVal where
  | empty
  | raw (els : List El)
  | wide (els : List El)
  | resolved (bf16 : Bool) (codes : List Nat)
  deriving DecidableEq, Repr

/-- An accumulator slot with the STOP and PROG of its metadata (R308) and its owner (R401). -/
structure ASlot where
  val : SlotVal := .empty
  stop : Bool := false
  prog : Nat := 0
  owner : Option Nat := none
  deriving DecidableEq, Repr

/-- The operation of a reservation-table entry (R301), decoded from the instruction or the command. -/
inductive TileOp where
  | mma (pb : Nat)
  | rslv (slot nm1 : Nat) (bf16 : Bool) (rnd : Nat)
  | acld (slot nm1 form space addr : Nat)
  | acst (slot nm1 form space addr rnd : Nat)
  | acmp (slot nm1 slotb cond : Nat) (any comp : Bool) (pred : Nat) (threads : List Nat)
  | acz (slot nm1 : Nat)
  | acmov (slot nm1 slotb : Nat)
  | mptbl (tbl : Nat) (image : List Nat)
  | mcbtbl (tbl : Nat) (image : List Nat)
  | mroute (n : Nat) (value : Nat)
  | mxqPush (addr : Nat)
  | mxqInit (base entries : Nat)
  /-- a ring command without an operation: NOP or HALT (R315) -/
  | idle
  deriving DecidableEq, Repr

/-- A reservation-table entry (R301): VALID is its presence. -/
structure Entry where
  op : TileOp
  prio : Nat
  prom : Bool := false
  started : Bool := false
  core : Nat
  lane : Nat
  slot : Nat
  ctx : Nat
  flight : Nat
  team : Nat
  /-- scratchpad base of the posting team (R188) -/
  sbase : Nat
  ssize : Nat
  prog : Nat := 0
  /-- die cycle of the post: AGE is the distance from it (R301) -/
  posted : Nat
  gid : Nat
  thread : Nat
  tidx : Nat
  rndseed : Nat
  bandw : Nat
  pc : Nat := 0
  /-- a pass is in progress -/
  passing : Bool := false
  /-- blocks still to be accepted (R311), and whether every pass is done -/
  blocksLeft : Nat := 0
  passesDone : Bool := false
  ring : Bool := false
  /-- set when the entry has retired and waits for TL_RELEASE (R311) -/
  retired : Bool := false
  rndctr : Nat := 0
  /-- the posting band, whatever slot it stands in -/
  uid : Nat
  /-- for ACMP: whether some pair has decided the result (R251) -/
  decided : Bool := false
  /-- what bands wrote among its operands while it read them (R231): rows of A and of B; columns of the bias, elements that it loads, or bytes
  that it pushes -/
  racedA : List Nat := []
  racedB : List Nat := []
  racedC : List Nat := []
  /-- an MMA whose first phase has run before a stop removed it (R309) -/
  begun : Bool := false
  /-- a ring entry: its command waits and names no slot yet; its number when its command was consumed; SIG (R315, R317) -/
  waits : Bool := false
  since : Nat := 0
  sig : Nat := 0
  deriving DecidableEq, Repr

/-- A block in the epilogue queue (R311): the entry, the block's coordinates and slot; after the resolve stage its codes. -/
structure Block where
  entry : Nat
  mt : Nat
  nt : Nat
  slot : Nat
  codes : Option (List Nat) := none
  sent : Bool := false
  /-- elements already on their way to their destination -/
  done : Nat := 0
  /-- it has left as a delivery to a peer -/
  shipped : Bool := false
  deriving DecidableEq, Repr

/-- An arrival that a ring command owes on a record of the ring's team (R315, R317). -/
structure Owed where
  entry : Nat
  flight : Nat
  team : Nat
  addr : Nat
  deriving DecidableEq, Repr

/-- The command ring of an engine (R256, R315, R406). -/
structure Ring where
  base : Nat := 0
  entries : Nat := 0
  head : Nat := 0
  tail : Nat := 0
  owner : Option Nat := none
  faulted : Bool := false
  haltedByCmd : Bool := false
  team : Nat := 0
  flight : Nat := 0
  /-- position of the allocation that the ring's offsets name -/
  sbase : Nat := 0
  ssize : Nat := 0
  epri : Nat := 0
  /-- the current command, whether its wait has held, its reservation entry -/
  cmd : Option Nat := none
  waited : Bool := false
  entry : Option Nat := none
  stopped : Bool := false
  /-- FREE and DONE arrivals still to be made for commands whose passes have ended -/
  frees : List Owed := []
  dones : List Owed := []
  /-- commands fetched since the last MXQ.init: the ring index of the current one is one less, modulo the entries -/
  index : Nat := 0
  deriving DecidableEq, Repr

/-- A matrix engine (R300). -/
structure Engine where
  slots : Tbl ASlot := []
  table : Tbl Entry := []
  nextEntry : Nat := 0
  /-- permutation tables, 256 entries (R34); the identity at reset when absent -/
  ptbl : Tbl (List Nat) := []
  /-- codebook tables, 256 entries of 24 bits (R27); undefined while absent (R146) -/
  cbtbl : Tbl (List Nat) := []
  /-- routing registers, key 8 times the context plus the number (R255) -/
  routes : Tbl Nat := []
  ring : Ring := {}
  epilogue : List (Nat × Block) := []
  nextBlock : Nat := 0
  /-- entries removed by a stop, with their context, in posting order (R309) -/
  removed : List (Nat × Entry) := []
  /-- contexts being stopped -/
  stopping : List Nat := []
  deriving DecidableEq, Repr

/-- A spawn record, 96 B (R274). -/
structure Spawn where
  tidx : Nat
  rndctr : Nat
  ovid : Nat
  off : Nat
  areg : Nat
  depth : Nat
  lmask : Nat
  flight : Nat
  live : Nat
  vals : List (Nat × Word)
  /-- die cycle at which the record was accepted -/
  since : Nat
  deriving DecidableEq, Repr

/-- A task pool entry, 128 B (R349). -/
structure PoolEntry where
  /-- which of the pool's 4,096 entries it is -/
  idx : Nat := 0
  record : Nat
  addr : Nat
  flight : Nat
  seq : Nat
  ctx : Nat
  bin : Nat
  deriving DecidableEq, Repr

/-- A task lot that is taken on a cluster (R355): its flight and number, and the queued copy of its record with its address and
context. `due` is what the dispatcher still has to do once the task has ended: 0 nothing yet, 1 the write of STATUS 3, 2 the counter
(R357), 3 the write of STATUS 4 (R358); `home` is the cluster of the ended band. -/
structure Lot where
  flight : Nat
  lot : Nat
  record : Nat
  addr : Nat
  ctx : Nat
  due : Nat := 0
  home : Nat := 0
  deriving DecidableEq, Repr

/-- A tile copy or overlay load of a unit (R220, R227). -/
structure Copy where
  cluster : Nat
  core : Nat
  bandid : Nat
  gid : Nat
  thread : Nat
  ctx : Nat
  flight : Nat
  team : Nat
  tag : Option Nat
  record : Nat
  recAddr : Nat
  sbase : Nat
  ssize : Nat
  /-- index of the next element to copy, and the number of elements -/
  next : Nat := 0
  total : Nat
  /-- for an overlay load: slot, overlay id, length, source -/
  ovl : Option (Nat × Nat × Nat × Nat) := none
  grid : Bool := false
  stopped : Bool := false
  /-- word index of the posting instruction (R495) -/
  pc : Nat := 0
  /-- a grid copy: the elements read, whether they were sent, the ranks that have not accepted them -/
  payload : List (Nat × Nat) := []
  sent : Bool := false
  waits : List Nat := []
  /-- a persistent plain copy: DST and instance, whose finish each rank's acceptance is (log entry 15) -/
  pers : Option (Nat × Nat) := none
  deriving DecidableEq, Repr

/-- An entry of a copy unit's table of persistent keys (R443), with the ranks still to report each instance. -/
structure PKey where
  dst : Nat
  grid : Nat
  repl : Nat
  nexti : Nat
  lowi : Nat
  waits : List (Nat × Nat) := []
  deriving DecidableEq, Repr

/-- A cluster (R11): scratchpad allocations, engine, copies, spawn memory, task pool. -/
structure Cluster where
  /-- scratchpad allocations: base, size, flight, team -/
  allocs : List (Nat × Nat × Nat × Nat) := []
  engine : Engine := {}
  spawns : List Spawn := []
  pool : List PoolEntry := []
  /-- task sequence counter, 32 bits (R350); 0 -/
  taskSeq : Nat := 0
  /-- current bin and dispatches of the turn (R353); 0 -/
  bin : Nat := 0
  turn : Nat := 0
  /-- lots taken (R355) -/
  lots : List Lot := []
  /-- cycle of the last dispatch (R354) -/
  lastDispatch : Nat := 0
  /-- persistent keys of the copy unit (R443) -/
  pkeys : List PKey := []
  disabled : Bool := false
  deriving DecidableEq, Repr

/-- A compute die (R10, R17, R281). -/
structure Die where
  /-- cycle count since die reset, 64 bits (R181); 0 -/
  cycle : Nat := 0
  /-- WSREF: BASE as the full count, PERIOD 0x0F00, WLEN 0x20, STAGGER 0x3C (R281) -/
  refBase : Nat := 0
  period : Nat := 0x0F00
  wlen : Nat := 0x20
  stagger : Nat := 0x3C
  /-- level-2 entries of the walker are not kept: they change latency only (R426) -/
  disabled : Bool := false
  /-- arithmetic clock in MHz (R17, R493); 940 -/
  clock : Nat := 940
  lastCheck : Nat := 0
  deriving DecidableEq, Repr

/-! ### Flights, teams, contexts, queues -/

/-- Where a team of a begun flight is (R334). -/
inductive Place where
  | notStarted
  | resident (core : Nat) (pair : Bool) (sbase : Nat)
  | absent (rec : Nat)
  | ended
  deriving DecidableEq, Repr

/-- A team (R14, R334). -/
structure Team where
  place : Place := .notStarted
  teamb : Nat
  /-- 0 launch, 1 imago, 2 task -/
  kind : Nat := 0
  /-- RUNSINCE and the moment it became a candidate or resident, in firmware order (R334, R336) -/
  runsince : Option Nat := none
  candidate : Option Nat := none
  residentAt : Nat := 0
  /-- imago: shedding cluster, target, records (R277) -/
  cluster : Option Nat := none
  imago : List Spawn := []
  /-- TIDX of the threads of an imago or task band (R61, R277, R355); empty where R61 gives it -/
  tidxs : List Nat := []
  /-- tags in TUSE, 64 bits (R390) -/
  tuse : Nat := 0
  /-- a save in progress (R338): 1 the bands are being stopped and drained, 2 its release waits; what that waits for; and the
  team, by flight and number, whose restore waits for the room (R336) -/
  saving : Nat := 0
  saveWait : List Nat := []
  savingFor : Option (Nat × Nat) := none
  /-- the die that the home scheduler has granted the absent team to (R337) -/
  granted : Option Nat := none
  /-- class-1 faults of its bands, by band, that wait for the save that is their snapshot (R475, R476) -/
  stops : List (Nat × BandFault) := []
  /-- of an absent team, by band and thread: the PCs at which the thread has been resumed since its last halt (R414), which the band
  record has no place for -/
  passed : Tbl (List Nat) := []
  deriving DecidableEq, Repr

/-- A thread of an absent team parked on a barrier record: team, band, thread, record, awaited phase, ORD, scope, and the
length of its instruction (R321). -/
structure AbsentWaiter where
  team : Nat
  band : Nat
  thread : Nat
  ref : BarRef
  phase : Nat
  ord : Nat
  scope : Nat
  len : Nat
  deriving DecidableEq, Repr

/-- A flight (R14, R373). -/
structure Flight where
  ctx : Nat
  queue : Nat
  /-- address of its LAUNCH packet's slot (R369) -/
  packet : Nat
  /-- packet index of its LAUNCH (R473) -/
  qidx : Nat := 0
  part : Nat
  teams : Nat
  teamb : Nat
  bandw : Nat
  regs : Nat
  scratch : Nat
  tlots : Nat := 0
  epri : Nat := 0
  wsw : Bool := false
  roi : Nat
  kidx : Nat
  entryOv : Nat
  entryOff : Nat
  nsafe : Nat := 0
  /-- VMASK of each SAFE id (R105) -/
  vmasks : Tbl Nat := []
  kinit : List Word := []
  /-- the CODE sections that the front end loads, the first min(NOVL, 4) in ascending overlay id: id, address, words (R377) -/
  codes : List (Nat × Nat × Nat) := []
  csbase : Nat
  trapEntry : Option (Nat × Nat) := none
  rlim : Nat := 0
  sigaddr : Nat := 0
  sigval : Nat := 0
  scope : Nat := 4
  intr : Bool := false
  /-- STARVE, 32 bits (R62); 2^22 -/
  starve : Nat := 2 ^ 22
  /-- starvation clock's start, in home-die cycles (R342) -/
  clockStart : Nat := 0
  members : Tbl Team := []
  /-- roster: the tracked records (R259) -/
  roster : List BarRef := []
  /-- a record's completed phases with the message number at which each did, for the acquire of a wait (R291); the model's own -/
  phaseAt : List (BarRef × Nat × Nat) := []
  /-- the records that the flight's threads have initialised, which no program may write otherwise (R257) -/
  bars : List BarRef := []
  /-- members that no record counts: a record and the TIDX of a thread that EXIT.succ restarted and that has not arrived there since
  (R171, R261) -/
  left : List (BarRef × Nat) := []
  /-- arrival marks: record and TIDX of each thread that arrived in its current phase (R260) -/
  marks : List (BarRef × Nat) := []
  /-- threads of absent teams parked on records (R320, R321) -/
  absent : List AbsentWaiter := []
  imagos : Nat := 0
  started : Bool := false
  killed : Bool := false
  gang : Option Nat := none
  /-- launched and imago threads that have ended, and imago threads that have started and threads restarted (R171, R259, R277) -/
  exited : Nat := 0
  joined : Nat := 0
  /-- a starved team was asked to stop (R343) -/
  preempted : Bool := false
  /-- the writes that the release of its completion waits for, once begun (R379) -/
  ending : Option (List Nat) := none
  /-- firmware cycle of step 1 of its kill (R477) -/
  killAt : Option Nat := none
  deriving DecidableEq, Repr

/-- A breakpoint register (R412). -/
structure Ibp where
  tval : Nat := 0
  cond : Nat := 0
  en : Bool := false
  ovid : Nat := 0
  woff : Nat := 0
  deriving DecidableEq, Repr

/-- A data watchpoint register (R413). -/
structure Dwp where
  base : Nat := 0
  len : Nat := 0
  en : Bool := false
  rw : Nat := 0
  space : Nat := 0
  deriving DecidableEq, Repr

/-- The debug mailbox, 64 B (R418). -/
structure Mailbox where
  cmd : Nat := 0
  mst : Nat := 0
  team : Nat := 0
  band : Nat := 0
  btid : Nat := 0
  rcls : Nat := 0
  ridx : Nat := 0
  val : Nat := 0
  addr : Nat := 0
  /-- the step that it asked for has begun (R416) -/
  begun : Bool := false
  deriving DecidableEq, Repr

/-- A context root record (R387) with the range table (R422), the grid key (R436) and the mailbox (R418). -/
structure Ctx where
  /-- CSTATE: 0 FREE, 1 READY, 2 RUNNING, 3 SWITCHING, 4 FAULTED -/
  cstate : Nat := 1
  cpri : Nat := 0
  quant : Nat := 0
  csabase : Nat := 0
  csasize : Nat := 0
  spbase : Nat := 0
  spsize : Nat := 0
  clmask : Nat := 0
  triglost : Bool := false
  /-- pending triggers: TKIND, cluster, TEAMID, ID (R409) -/
  triggers : List (Nat × Nat × Nat × Nat) := []
  attached : Bool := false
  ibps : List Ibp := [{}, {}, {}, {}]
  dwps : List Dwp := [{}, {}, {}, {}]
  ranges : List RangeReg := []
  gkey : Nat := 0
  mailbox : Mailbox := {}
  switchedOut : Bool := false
  /-- start of the running time slice, in firmware cycles (R388) -/
  sliceStart : Nat := 0
  /-- team records of the CSA: allocated address and size (R389) -/
  records : List (Nat × Nat) := []
  /-- spill images: key 128 times the cluster plus the slot; address and metadata word (R406) -/
  spills : Tbl (Nat × Nat) := []
  /-- command rings saved with the context, by cluster (R318, R406) -/
  rings : Tbl Ring := []
  deriving DecidableEq, Repr

/-- A queue control block copy (R362). -/
structure Qcb where
  seq : Nat := 0
  state : Nat := 0
  part : Nat := 0
  vec : Nat := 0
  ridx : Nat := 0
  nidx : Nat := 0
  rseg : Nat := 0
  qhdr : Nat := 0
  ctx : Nat := 0
  qslot : Nat := 0xFFFFFFFF
  hidx : Nat := 0
  deriving DecidableEq, Repr

/-- A queue: primary and shadow copies (R362), the header being evaluated, and its wait. -/
structure Queue where
  primary : Qcb := {}
  shadow : Qcb := {}
  /-- the header read and not yet acted on (R368) -/
  header : Option Nat := none
  /-- moment it became pending for a slot (R364) and moment it took its slot -/
  pending : Option Nat := none
  slotSince : Nat := 0
  /-- waiting on a DEPEND or BLOCKED gang -/
  waiting : Bool := false
  /-- firmware cycle at which an empty slot was read (R368) -/
  emptyAt : Option Nat := none
  /-- the queue is being recovered: packets that have been acted on are passed over (R385) -/
  recov : Bool := false
  /-- segments not yet returned, oldest first: address and first extended index (R368) -/
  segments : List (Nat × Nat) := []
  deriving DecidableEq, Repr

/-- A committed gang (R380, R381): its queue, the extended index of its GANG packet, its flights, the dies that GO was sent to and
that have acknowledged, and the firmware cycle of the first GO. -/
structure Gang where
  queue : Nat
  idx : Nat
  flights : List Nat
  dies : List Nat
  goDies : List Nat := []
  acked : List Nat := []
  goAt : Nat := 0
  deriving DecidableEq, Repr

/-! ### The whole machine -/

/-- One choice of the schedule: a lane takes its turn (R48), or a unit makes one step. -/
inductive Choice where
  | turn (core lane : Nat)
  | event (i : Instr)
  deriving DecidableEq, Repr

/-- A task post or a PNCMD on its way (R263, R266): kind 0 a task post, with its record as the issue read it, 1 a PNCMD, 2 the successor
post of a task that has ended (R357); the number and threads of its run's band with the run's key and group; the record's address; the named cluster or
die; the command; whether it has left for its node; and its status once there. -/
structure Post where
  kind : Nat
  uid : Nat
  gid : Nat
  depth : Nat := 0
  pc : Nat := 0
  thread : Nat := 0
  core : Nat
  ctx : Nat
  flight : Nat
  team : Nat
  addr : Nat
  target : Nat
  sub : Nat := 0
  sent : Bool := false
  reply : Option Nat := none
  /-- the lot that a successor post keeps taken (R357) -/
  lot : Nat := 0
  record : Nat := 0
  deriving DecidableEq, Repr

/-- An ECALL in service (R183): the band, key and threads, its service and arguments, and the tracker as captured. -/
structure Ecall where
  flight : Nat
  team : Nat
  bandid : Nat
  depth : Nat
  pc : Nat
  threads : List Nat
  service : Nat
  dreg : Nat
  args : List Nat
  tracker : Tracker
  core : Nat := 0
  /-- the status, once the service's effect has been made -/
  status : Option Nat := none
  deriving DecidableEq, Repr

/-- A fault or error as its record names it (R473, R474). -/
structure FaultNote where
  cls : Nat
  reason : Nat
  flags : Nat := 0
  repi : Nat := 0
  flight : Option Nat := none
  ctx : Option Nat := none
  team : Option Nat := none
  band : Option Nat := none
  btid : Option Nat := none
  pc : Nat := 0
  core : Option Nat := none
  addr : Nat := 0
  aux1 : Nat := 0
  aux2 : Nat := 0
  deriving DecidableEq, Repr

/-! ### The grid: deliveries, links, reductions, nodes (R435 to R458, R466 to R470) -/

/-- What a delivery carries (R435 to R455). -/
inductive Cargo where
  /-- elements of a plain grid copy; args: element size -/
  | copy
  /-- a contribution of a grid copy; args: header address, ROP, element size, 1 and the instance, or 0 and 0 -/
  | contribution
  /-- a block routed with KIND 2; args as a contribution -/
  | block
  /-- a block routed with KIND 3; args: die, TENS, block, step -/
  | gradient
  /-- a command record for a node; args: die, SUB, CTXID, record, then the regions it names -/
  | command
  /-- bytes written for a node on a subscriber's device; args: subscription die and number, CTXID, bytes, address, value, step -/
  | fresh
  /-- a tag to be set for a subscription; args: die and number, CTXID, TAG -/
  | tag
  /-- the outcome of a delivery for its sender; args: what it completes, 1 if it counts, the reason, its three values -/
  | outcome
  /-- an instance finished; args: header, instance, 1 if failed -/
  | finished
  /-- a shoot-down request for a child device; args: kind, context key, low, high; and its acknowledgement -/
  | shoot
  | shootAck
  deriving DecidableEq, Repr

/-- A delivery between devices: the sender's rank, flight, team, grid key and token, the target's rank, its fabric lane,
and its cargo; `els` are elements by address. -/
structure Delivery where
  cargo : Cargo
  src : Nat
  dst : Nat
  lane : Nat := 0
  flight : Nat := 0
  team : Nat := 0
  gkey : Nat := 0
  token : Nat := 0
  /-- the owner that a record names: CTXID, and of posted work the band's number, PC, thread and core (R495) -/
  poster : List Nat := []
  args : List Nat := []
  els : List (Nat × Nat) := []
  /-- elements performed so far -/
  next : Nat := 0
  deriving DecidableEq, Repr

/-- A Kiln link (R467 to R470): STATE DOWN at reset, lanes, PEER, DIS, sequence numbers, unacknowledged flits, and counters. -/
structure Link where
  state : Nat := 0
  lanes : Nat := 0
  peer : Nat := 0
  dis : Bool := false
  /-- it has trained, so that PEER names the far end -/
  met : Bool := false
  txSeq : Nat := 0
  /-- the highest sequence number received intact; the first is 0 (log entry 21) -/
  rxSeq : Nat := 65535
  sent : List (Nat × Delivery) := []
  /-- resends without progress, and failed attempts of the present training -/
  tries : Nat := 0
  fails : Nat := 0
  /-- lanes that the link trains without (R481) -/
  badLanes : Nat := 0
  crcerr : Nat := 0
  feccor : Nat := 0
  resend : Nat := 0
  retrain : Nat := 0
  flittx : Nat := 0
  flitrx : Nat := 0
  deriving DecidableEq, Repr

/-- A contribution held by the reduction unit in its early store (R440). -/
structure HeldPart where
  inst : Nat
  rank : Nat
  els : List (Nat × Nat)
  deriving DecidableEq, Repr

/-- A live instance of a reduction buffer (R440): NEXTR, the contributions that NEXTR has delivered, the elements touched,
and the tokens of the senders to tell. -/
structure RedInst where
  inst : Nat
  nextr : Nat
  count : Nat := 0
  touched : List Nat := []
  deriving DecidableEq, Repr

/-- An armed reduction buffer that the unit keeps (R440): its context and the address of its header. -/
structure RedBuf where
  ctx : Nat
  hdr : Nat
  insts : List RedInst := []
  held : List HeldPart := []
  deriving DecidableEq, Repr

/-- The fields of a block word (R446). -/
structure PnWord where
  applied : Nat
  nextr : Nat := 0
  ssel : Bool := false
  sel : Bool := false
  deriving DecidableEq, Repr

/-- A copy of a block: W, m and v as FP32 codes (R445). -/
structure PnCopy where
  w : List Nat := []
  m : List Nat := []
  v : List Nat := []
  deriving DecidableEq, Repr

/-- A block frame (R445). -/
structure Frame where
  word : PnWord
  copy0 : PnCopy := {}
  copy1 : PnCopy := {}
  stage0 : List El := []
  stage1 : List El := []
  deriving DecidableEq, Repr

/-- A subscription (R449, R455): the subscriber, TAG, DST, and the fresh blocks still to be delivered: step, address, bytes
and value; and the steps whose tag is still to be set. -/
structure Sub where
  tens : Nat
  rank : Nat
  ctx : Nat
  gkey : Nat
  flight : Nat
  team : Nat
  tag : Nat
  dst : Nat
  wst : Bool
  fresh : List (Nat × Nat × Nat × Nat) := []
  /-- sent and not yet performed on a remote device -/
  flying : Nat := 0
  tagDue : List Nat := []
  deriving DecidableEq, Repr

/-- A contribution in a node's early store (R451): block, step, rank, elements. -/
structure PnEarly where
  blk : Nat
  step : Nat
  rank : Nat
  els : List Nat
  deriving DecidableEq, Repr

/-- A command at a node (R447): SUB, the issuing rank, context, flight, team, grid key, the record, the bytes of the regions
that a remote record names, and what its reply completes. -/
structure PnCmd where
  sub : Nat
  rank : Nat
  ctx : Nat
  gkey : Nat := 0
  flight : Nat
  team : Nat
  record : Nat
  regions : List Nat := []
  token : Nat
  deriving DecidableEq, Repr

/-- A registered tensor (R445 to R449). -/
structure Tensor where
  outf : Nat
  nrank : Nat
  open' : Nat
  /-- TSTATE: 0 open, 1 committing, 2 recovering -/
  tstate : Nat := 0
  rule : Option (List Nat) := none
  dups : Nat := 0
  refd : Nat := 0
  frames : List Frame
  early : List PnEarly := []
  /-- the commit in progress: its command and the next block -/
  commit : Option (PnCmd × Nat) := none
  lost : Bool := false
  deriving DecidableEq, Repr

/-- A parameter node (R445, R457, R484). -/
structure Node where
  tensors : Tbl Tensor := []
  subs : Tbl Sub := []
  /-- failed or restarting -/
  failed : Bool := false
  disabled : Bool := false
  /-- stamps of its failures (R484) -/
  stamps : List Nat := []
  deriving DecidableEq, Repr

/-- A shoot-down (R431, R432): kind 0 REMAP, 1 UNMAP, 2 RANGE; its context, its lowest and highest IA, whether it has
started, the acknowledgements still due (dies 0 to 3, 4 the I/O die, 16 plus the rank of a child device), the firmware cycle of
its start, the parent device, and who asked for it (R430, R427): 0 a driver service, 1 the host's ATS Invalidate
Request, 2 a PRI response; the nodes whose ports hold and have dropped their
translations, and those whose dirty sectors have left (R431). -/
structure Shoot where
  kind : Nat
  ctx : Nat
  lo : Nat
  hi : Nat
  grid : Bool
  started : Bool := false
  due : List Nat := []
  since : Nat := 0
  parent : Option Nat := none
  origin : Nat := 0
  begun : List Nat := []
  flushed : List Nat := []
  deriving DecidableEq, Repr

/-- The state of one device. -/
structure State where
  /-- steps chosen in advance; when empty, `Config.schedule` names the next (the model's own, log entry 1) -/
  agenda : List Choice
  /-- number of the step, the argument of the free values (the model's own, log entry 3) -/
  fresh : Nat
  /-- next number for accesses, groups, messages and records (the model's own) -/
  nextId : Nat
  /-- the issue register (R47) -/
  issue : Run
  /-- bytes of every space (R279) -/
  mem : Memory
  /-- resident bands by slot key: 256 times the package core, 4 times the lane, plus the slot (R46) -/
  bands : Tbl Band
  /-- lanes by 64 times the package core plus the lane (R48) -/
  lanes : Tbl Lane
  /-- cores by package number (R11) -/
  cores : Tbl Core
  clusters : Tbl Cluster
  dies : Tbl Die
  /-- issued accesses not yet performed, IQ of R284, in issue order -/
  iq : List Acc
  /-- write buffers of the cores, WB of R284, in order of entry -/
  wb : List Acc
  /-- fabric queues and delivered requests (R284) -/
  msgs : List Msg
  /-- recorded holders by physical line address: package core and the line's intermediate address (R285) -/
  holders : Tbl (List (Nat × Nat))
  /-- translation caches by unit number (R426): page of 64 KiB to its frame -/
  tlbs : Tbl (Tbl Nat)
  /-- translations that ATS has returned (R427): 4 KiB page of the host half to its permission bits, 1 read, 2 write; 4 while
  the answer is due -/
  atc : Tbl Nat
  /-- pages requested from the driver or the host and not answered: 64 KiB pages of the device half, 2^60 plus the 4 KiB page
  of the host half (R427) -/
  pageAsks : List Nat
  /-- range caches of the units, by unit number times 4,096 plus CTXID (R424) -/
  rcaches : Tbl (List RangeReg)
  /-- DPTBASE, a 4 KiB aligned physical address (R425) -/
  dptbase : Nat
  /-- what the device sent to the host or the driver and nobody has taken: page requests, ATS and PRI requests,
  MSI-X messages, PCIe requests and messages of other ports, oldest first -/
  outbox : List (List Nat)
  /-- tile copies and overlay loads in progress (R220, R227) -/
  copies : Tbl Copy
  /-- task posts and node commands on their way (R263, R266) -/
  posts : Tbl Post
  ecalls : Tbl Ecall
  flights : Tbl Flight
  ctxs : Tbl Ctx
  queues : Tbl Queue
  /-- committed gangs whose dies have not all acknowledged GO (R380, R381) -/
  gangs : Tbl Gang
  /-- the free list of segments (R367) -/
  freeSegs : List Nat
  /-- snapshots, by number: their context and record (R476) -/
  snaps : Tbl (Nat × Nat)
  /-- next FLIGHTID, 32 bits (R376) -/
  nextFlight : Nat
  /-- the fault ring: its address and n; none until the driver names one (R472) -/
  faultRing : Option (Nat × Nat)
  /-- SEQ of the next fault record (R473); 0 -/
  faultSeq : Nat
  /-- FQLOST, 64 bits (R472); 0 -/
  faultLost : Nat
  /-- the records made, each as its 64 bytes, newest last: the Luna port reads the last 16 (R494) -/
  faultLog : List Nat
  /-- MSI-X table: message address, data and vector control, 1 masked, and the pending bits (R465); masked at reset -/
  msixTab : Tbl (Nat × Nat × Nat)
  msixPend : List Nat
  /-- grid rank of the device, and the rank that the Luna port set for the next bring-up (R435, R489) -/
  rank : Nat
  nextRank : Nat
  /-- grid map, one byte per rank: bit 0 PRESENT, bit 1 FAILED (R432) -/
  gridMap : Tbl Nat
  /-- Kiln links 0 to 15, and the route table (R468, R469) -/
  links : Tbl Link
  routes : Tbl Nat
  /-- deliveries that no link carries yet, oldest first, and delivered ones by number (R436, R468) -/
  outq : List Delivery
  inbox : Tbl Delivery
  /-- deliveries sent to other devices whose outcome is still to come -/
  flying : List Delivery
  /-- ranks that no link serves, since a firmware cycle (R468) -/
  unserved : Tbl Nat
  redBufs : List RedBuf
  nodes : Tbl Node
  shoots : Tbl Shoot
  /-- SDTO, 2^26 firmware cycles (R432) -/
  sdto : Nat
  /-- BWIN (R462): WBASE and WEN -/
  wbase : Nat
  wen : Bool
  /-- PARTCFG (R491), PWRLIM (R493), the Luna cap (R493), THROT.WHY, quiet intervals of each die -/
  npart : Nat
  pwrlim : Nat
  lunaCap : Nat
  throtWhy : Nat
  quiet : Tbl Nat
  /-- STATUS (R490), and whether the rails other than VAUX are up (R492) -/
  ready : Bool
  fatal : Bool
  therm : Bool
  powered : Bool
  /-- a warm reset is under way (R490) -/
  warm : Bool
  /-- endpoint ID of the Luna port (R494) -/
  eid : Nat
  /-- stamps of corrected errors by location code (R480), repairs made and spares used (R481), ways disabled, rows whose
  accesses are held during a copy, poisoned sectors with their location codes (R483), and stamps of Ember restarts (R485) -/
  stamps : Tbl (List Nat)
  repairs : Nat
  spares : Tbl Nat
  badWays : List Nat
  rowHolds : List Nat
  poison : Tbl Nat
  emberStamps : List Nat
  /-- firmware clock count (R17, R382) -/
  fwCycle : Nat
  deriving DecidableEq, Repr

/-- Why the machine stops. -/
inductive Fault where
  /-- the issue register names a slot without a band: raised by a meaning called outside a turn; safe, no run reaches it -/
  | noBand
  deriving DecidableEq, Repr

/-- Why an instruction has no meaning here. -/
inductive Refusal where
  /-- an instruction that the model has not given its meaning yet: raised by exec's own arm; safe -/
  | notModelled (mnemonic : String)
  deriving DecidableEq, Repr

/-- The outcome of a meaning. -/
abbrev Out := Host.Outcome State Fault Refusal

/-- The machine right after reset. -/
def State.reset : State where
  agenda := []
  fresh := 0
  nextId := 1
  issue := {}
  mem := []
  bands := []
  lanes := []
  cores := []
  clusters := []
  dies := []
  iq := []
  wb := []
  msgs := []
  holders := []
  tlbs := []
  atc := []
  pageAsks := []
  rcaches := []
  dptbase := 0
  outbox := []
  copies := []
  posts := []
  ecalls := []
  flights := []
  ctxs := []
  queues := []
  gangs := []
  freeSegs := []
  snaps := []
  nextFlight := 1
  faultRing := none
  faultSeq := 0
  faultLost := 0
  faultLog := []
  msixTab := []
  msixPend := []
  rank := 0
  nextRank := 0
  gridMap := []
  links := []
  routes := []
  outq := []
  inbox := []
  flying := []
  unserved := []
  redBufs := []
  nodes := []
  shoots := []
  sdto := 2 ^ 26
  wbase := 0
  wen := false
  npart := 0
  pwrlim := 3000
  lunaCap := 3000
  throtWhy := 0
  quiet := []
  ready := false
  fatal := false
  therm := false
  powered := true
  warm := false
  eid := 0
  stamps := []
  repairs := 0
  spares := []
  badWays := []
  rowHolds := []
  poison := []
  emberStamps := []
  fwCycle := 0

end Sys2Proof.Machine
end

