-- ==== Sys2Proof/Config.lean ====
section
/-!
DEFINITION. Sys2Proof/Config.lean: what an implementation fixes and the free values of the model. Every constant here is
opaque: nothing can evaluate it or prove a value of it, so that a statement holds whatever it is. The log entries named
say which open point of the spec each stands for.
-/
namespace Sys2Proof.Config
open Sys2Proof.Machine

/-- The next step when the agenda is empty, by step number (log entry 1): none is an idle step. -/
opaque schedule : Nat → Option Choice

/-- An undefined 32-bit value (R8): by step number, thread and position (log entry 3). -/
opaque freeWord : Nat → Nat → Nat → BitVec 32

/-- An undefined value of a unit (R8, R231): by step number and position (log entry 3). -/
opaque freeNat : Nat → Nat → Nat

/-- The sign of the exact zero log2 1, which no rule gives, by rounding mode: true for −0 (R29, R131, R133; log entry 12). -/
opaque logZero : Nat → Bool

/-- The cycles that pass on a die in a step, by step number and die (log entry 5). -/
opaque dieGap : Nat → Nat → Nat

/-- The firmware cycles that pass in a step (log entry 5). -/
opaque fwGap : Nat → Nat

/-- The L1 set of a line, among 256 (R12; log entry 114). -/
opaque l1Set : Nat → Nat

/-- The home slice of a device line among the four of its channel's core (R280; log entry 6). -/
opaque homeSlice : Nat → Nat

/-- The choice among free things where the spec leaves the choice to the device or the firmware: a physical
band-register (R54), the lanes of a team's bands, a region of the scratchpad or of the save area (log entry 7). -/
opaque pick : Nat → Nat → Nat

/-- The value of an imprecise or implementation-chosen quantity reported in a record or register (log entry 8). -/
opaque report : Nat → Nat → Nat

/-- A byte of host memory as a read of a step finds it, by step number and intermediate address: host memory is outside
the machine (log entry 9). -/
opaque hostByte : Nat → Nat → BitVec 8

/-- NWBASE: the place of the device notify window among the 64 KiB pages of the host half (R363; log entry 18). -/
opaque notifyBase : Nat

end Sys2Proof.Config
end

