-- ==== Sys2Proof/Machine/Legal.lean ====
section
/-!
DEFINITION. Sys2Proof/Machine/Legal.lean: the legality of an encoding (R64 to R87), and the operand table of every
opcode, taken from the opcode map (R79) and the encoding tables of the Instruction Reference chapters. An encoding that
fails several checks reports the lowest reason code (R87). The check that needs the PC (reason BRANCH, R80) and those
that need the words after (PASTEND, R65; the unit checks of REP, R83) stand in Decode.lean and Machine/Rep.lean.
-/
namespace Sys2Proof

/-- What a register field names (R68, R71, R110): nothing, so that it must be zero; a predicate; a register or special
operand of the accepted classes, whose number is a multiple of `align`; or a field with its own check. -/
inductive Use where
  | off
  | pred
  | opnd (v k sp lit : Bool) (align : Nat)
  | own
  deriving DecidableEq, Repr

/-- The operand table's row for one encoding: the use of each field, the assigned bits of MF and of word 2, whether M
or SUB is a listed and accepted code, the width for which operand B takes a literal (0: none; 33: a packed pair, which
takes literal [31:0]), and the reason codes of the row's own checks that fail. -/
structure Sig where
  d : Use := .off
  a : Use := .off
  b : Use := .off
  c : Use := .off
  mf : Nat := 0
  w2 : Nat := 0
  sub : Bool := true
  lit : Nat := 0
  guarded : Bool := true
  own : List Nat := []
  deriving DecidableEq, Repr

namespace Legal

/-- The width in bits of a TI code (R77); an unlisted code has 32. -/
def tiBits (c : Nat) : Nat :=
  match c with
  | 2 | 3 | 9 => 64
  | 4 | 5 | 10 => 16
  | 6 | 7 | 11 => 8
  | 12 => 128
  | _ => 32

/-- The register alignment of an operand of n bits (R71). -/
def alignOf (bits : Nat) : Nat := if bits ≤ 32 then 1 else bits / 32

/-- The short form of an opcode and the LEN values it accepts (R79); 0 none, 1 S, 2 I, 3 B, 4 the REP layout. -/
def opInfo (op : Nat) : Option (Nat × List Nat) :=
  if op = 0x06 then some (0, [1, 3])
  else if op = 0x0F then some (1, [0, 1])
  else if 0x14 ≤ op ∧ op ≤ 0x17 then some (0, [1, 3])
  else if op = 0x19 ∨ op = 0x1C then some (1, [0, 1])
  else if op = 0x1A then some (0, [1, 3])
  else if op = 0x1D then some (2, [0, 2])
  else if 0x01 ≤ op ∧ op ≤ 0x1B then some (1, [0, 1, 2, 3])
  else if op = 0x23 then some (0, [1, 3])
  else if op = 0x2B ∨ op = 0x31 ∨ (0x20 ≤ op ∧ op ≤ 0x26) then some (1, [0, 1, 2, 3])
  else if 0x27 ≤ op ∧ op ≤ 0x32 then some (1, [0, 1])
  else if 0x40 ≤ op ∧ op ≤ 0x45 then some (0, [1, 3])
  else if 0x50 ≤ op ∧ op ≤ 0x56 then some (0, [1, 3])
  else if op = 0x57 then some (1, [0, 1])
  else if op = 0x60 ∨ op = 0x64 then some (3, [0])
  else if op = 0x61 then some (0, [1])
  else if op = 0x62 ∨ op = 0x65 then some (0, [1, 3])
  else if op = 0x67 ∨ op = 0xD0 then some (2, [0, 1])
  else if op = 0x63 ∨ op = 0x66 ∨ (0x68 ≤ op ∧ op ≤ 0x6C) then some (2, [0])
  else if op = 0x7F then some (4, [0])
  else if (0x80 ≤ op ∧ op ≤ 0x83) ∨ (0x88 ≤ op ∧ op ≤ 0x8B) ∨ op = 0xB6 then some (1, [0, 1])
  else if 0x84 ≤ op ∧ op ≤ 0x86 then some (0, [1, 3])
  else if op = 0x87 ∨ op = 0xB1 ∨ op = 0xD6 then some (1, [0])
  else if 0xA2 ≤ op ∧ op ≤ 0xA5 then some (1, [0, 1, 3])
  else if op = 0xA0 ∨ op = 0xA1 ∨ op = 0xA6 ∨ op = 0xB0 then some (0, [1])
  else if 0xB2 ≤ op ∧ op ≤ 0xBB then some (0, [1])
  else if op = 0xC0 ∨ op = 0xC3 then some (0, [1, 3])
  else if op = 0xC1 ∨ op = 0xC2 ∨ op = 0xC4 ∨ op = 0xC8 then some (0, [1])
  else if (0xC5 ≤ op ∧ op ≤ 0xC7) ∨ op = 0xD2 ∨ op = 0xD3 then some (2, [0])
  else if op = 0xD1 ∨ op = 0xD4 ∨ op = 0xD5 ∨ op = 0xD7 then some (0, [1])
  else none

/-- A destination of class v or k. -/
def dst (align : Nat) : Use := .opnd true true false false align
/-- A source of any class but the literal. -/
def src (align : Nat) : Use := .opnd true true true false align
/-- A source B of any class, the literal included. -/
def srcL (align : Nat) : Use := .opnd true true true true align
/-- A "v" operand (R110). -/
def vOnly (align : Nat) : Use := .opnd true false false false align
/-- A global address pair, v or k (R186). -/
def pair : Use := .opnd true true false false 2
/-- The base of a space: a pair for global memory, one register of any class otherwise (R186). -/
def base (glob : Bool) : Use := if glob then pair else src 1

/-- The reason codes of a list of conditions that fail. -/
def failing (cs : List (Bool × Nat)) : List Nat := (cs.filter (·.1)).map (·.2)

/-- The signature of an arithmetic row with operands D, A, B of one width. -/
def ti3 (s acc : Nat) (w2 : Nat) : Sig :=
  let n := alignOf (tiBits s)
  { d := dst n, a := src n, b := srcL n, w2 := w2, sub := s < acc, lit := tiBits s }

/-- A float row: TF codes below acc, operands of one 32-bit register each. The literal of a packed type is read as R112 reads
one for a packed pair, [31:0] with [63:32] ignored, also for FSCALE, whose B is a pair of integers (log entry 107). -/
def tf (s acc nops w2 : Nat) : Sig :=
  { d := dst 1, a := src 1, b := if 2 ≤ nops then srcL 1 else .off, c := if 3 ≤ nops then src 1 else .off,
    w2 := w2, sub := s < acc, lit := if nops < 2 then 0 else if s = 3 ∨ s = 4 then 33 else 32 }

/-- CVT's accepted pairs of source and destination codes (R138). -/
def cvtOk (srci dsti : Bool) (s m : Nat) : Bool :=
  let flt (c : Nat) : Bool := [0, 1, 2, 5, 6, 7, 8].contains c
  match srci, dsti with
  | true, true => false
  | true, false => s < 8 && flt m
  | false, true => m < 8 && flt s
  | false, false => (flt s && flt m) || (s = 0 && (m = 3 || m = 4)) || ((s = 3 || s = 4) && m = 0)

/-- Bit i of a word-2 value. -/
def bit (w i : Nat) : Bool := w / 2 ^ i % 2 = 1

/-- The signature of CVT (R137, R138). -/
def cvt (x : FormX) : Sig :=
  let s := x.sub.toNat; let m := x.mf.toNat; let w := x.w2.toNat
  let srci := bit w 9; let dsti := bit w 10
  let pairForm := !dsti && (m = 3 || m = 4)
  { d := dst (if dsti then alignOf (tiBits m) else 1), a := src (if srci then alignOf (tiBits s) else 1),
    b := if pairForm then srcL 1 else .off, mf := 15, w2 := 0xE0F, sub := cvtOk srci dsti s m,
    lit := if pairForm then 32 else 0,
    own := failing [(bit w 11 && (srci || !(s = 3 || s = 4)), 8),
      (bit w 3 && (dsti || !([0, 1, 2, 3, 4, 6].contains m)), 8)] }

/-- The member mask of a band operation: a k pair or the literal (R148). -/
def member : Use := .opnd false true false true 2

/-- The width of the element of a BRED or BSCAN code (R147). -/
def redBits (m : Nat) : Nat := if m = 2 ∨ m = 3 then 64 else 32

/-- The signature of BRED and BSCAN (R147). -/
def bred (scan : Bool) (x : FormX) : Sig :=
  let s := x.sub.toNat; let m := x.mf.toNat; let w := x.w2.toNat
  let n := alignOf (redBits m)
  { d := if scan then vOnly n else dst n, a := src n, b := member, mf := 15, w2 := if scan then 0x20F else 0xF,
    sub := s < 6, lit := 64,
    own := failing [(!([0, 1, 2, 3, 8].contains m), 4), (m = 8 && 3 ≤ s, 4), (w % 8 = 5, 4),
      (bit w 3 && (s ≠ 0 || m = 8), 8)] }

/-- The signature of LD, ST, LDK, LDW in Form X (R186 to R189, R195). -/
def memX (op : Nat) (x : FormX) : Sig :=
  let s := x.sub.toNat; let m := x.mf.toNat; let mc := x.c.toNat
  let ord := 8 ≤ m; let scope := m % 8; let sp := mc % 4
  let n := alignOf (tiBits s)
  let glob := sp = 0 && op ≠ 0x83
  let isK := op = 0x82
  { d := if isK then .opnd false true false false n else dst n,
    a := if isK then (if glob then .opnd false true false false 2 else .opnd false true true false 1) else base glob,
    b := if isK then .opnd false true true false 1 else src 1, c := .own,
    mf := if op = 0x83 then 0 else 15, w2 := 0xFFFFFFFF,
    sub := if op = 0x80 then s < 13 else if isK then s = 8 || s = 9 || s = 12 else 8 ≤ s && s < 13,
    own := failing [(x.cc ≠ 0 || x.lc ≠ 0 || 4 ≤ mc, 8), (2 ≤ sp, 4), (op = 0x83 && mc ≠ 0, 8),
      (op ≠ 0x83 && ord && scope = 0, 4), (op ≠ 0x83 && sp = 1 && 3 < scope, 4),
      (op ≠ 0x83 && ord && 64 < tiBits s, 4)] }

/-- The signature of WATCH, WAITW, UNWATCH, PREF in Form X (R211). -/
def watchX (op : Nat) (x : FormX) : Sig :=
  let s := x.sub.toNat; let mc := x.c.toNat; let sp := mc % 4
  let none' := op = 0x89 || (op = 0x8A && s = 1)
  { a := if none' then .off else base (sp = 0), b := if none' then .off else src 1,
    c := if op = 0x89 then .off else .own, w2 := if none' then 0 else 0xFFFFFFFF,
    sub := s = 0 || (s = 1 && (op = 0x8A || op = 0x8B)),
    own := if op = 0x89 then [] else
      failing [(x.cc ≠ 0 || x.lc ≠ 0 || 4 ≤ mc, 8), (2 ≤ sp, 4), (op = 0x8B && sp = 1, 4)] }

/-- The register width of the data of ATOM and RED (R205). -/
def atomBits (op ty : Nat) : Nat := if op ≠ 0x85 ∧ (ty = 2 ∨ ty = 3 ∨ ty = 5) then 64 else 32

/-- The signature of ATOM, ATOM2, RED (R205, R206). -/
def atom (op : Nat) (x : FormX) : Sig :=
  let s := x.sub.toNat; let w := x.w2.toNat; let ty := w / 2 ^ 28; let scope := w / 2 ^ 25 % 8
  let ord := x.mf.toNat / 4
  let n := alignOf (atomBits op ty)
  { d := if op = 0x86 then .off else dst n, a := pair, b := srcL n,
    c := if op = 0x84 ∧ s = 7 then src n else .off, mf := 12, w2 := 0xFE0FFFFF,
    sub := if op = 0x84 then s < 8 else if op = 0x85 then s < 4 else s < 6,
    lit := if op = 0x85 then 33 else atomBits op ty,
    own := failing [(7 ≤ ty, 4), (op = 0x85 && ty ≠ 0, 4), (op ≠ 0x85 && ty = 6 && 3 ≤ s && s ≤ 5, 4),
      (ord ≠ 0 && scope = 0, 4), (op = 0x86 && (ord = 1 || ord = 3), 4)] }

/-- The signature of the barrier instructions (R258). -/
def bar (op : Nat) (x : FormX) : Sig :=
  let s := x.sub.toNat; let w := x.w2.toNat; let sp := w % 4; let scope := w / 16 % 8; let ord := x.mf.toNat / 4
  let accepts := if op = 0xC0 then ord = 0 else if op = 0xC1 then true else if op = 0xC2 then ord = 0 || ord = 2
    else ord = 0 || ord = 1
  { d := if op = 0xC2 then dst 1 else .off, a := base (sp = 0),
    b := if op = 0xC3 || (op = 0xC0 && s = 0) then srcL 1 else .off, mf := 12, w2 := 0x73,
    sub := if op = 0xC0 then s < 3 else s = 0, lit := 32,
    own := failing [(2 ≤ sp, 4), (ord ≠ 0 && scope = 0, 4), (!accepts, 4), (sp = 1 && 3 < scope, 4)] }

/-- The bits of AUX that name SLOT and NM1, and SLOTB (R249). -/
def slotBits : Nat := 0x3FFE00
def slotbBits : Nat := 0x1FC00000

/-- The reason of a slot range that leaves the engine (R249). -/
def slotOwn (w : Nat) : List Nat :=
  let nm1 := w / 2 ^ 16 % 64
  failing [(128 ≤ w / 2 ^ 9 % 128 + nm1, 6), (128 ≤ w / 2 ^ 22 % 128 + nm1, 6)]

/-- The signature of RSLV, ACLD, ACST, ACMP, ACZ, ACMOV in Form X (R249). -/
def acX (op : Nat) (x : FormX) : Sig :=
  let s := x.sub.toNat; let m := x.mf.toNat; let w := x.w2.toNat
  let form := m % 8
  if op = 0xB2 then { mf := 1, w2 := slotBits + 7, sub := s = 0, own := slotOwn w }
  else if op = 0xB3 then
    { a := base (s % 2 = 0), mf := 7, w2 := slotBits, sub := s < 2,
      own := slotOwn w ++ failing [(5 ≤ form || form = 0, 4)] }
  else if op = 0xB4 then
    { a := base (s % 2 = 0), mf := 7, w2 := slotBits + 7, sub := s < 2,
      own := slotOwn w ++ failing [(5 ≤ form, 4)] }
  else if op = 0xB5 then
    { d := .pred, mf := 3, w2 := if m / 2 % 2 = 1 then slotBits + slotbBits else slotBits, sub := s < 8,
      own := slotOwn w }
  else if op = 0xB6 then { w2 := slotBits, sub := s = 0, own := slotOwn w }
  else { w2 := slotBits + slotbBits, sub := s = 0, own := slotOwn w }

/-- The special registers of 64 bits (R60). -/
def sregWide (n : Nat) : Bool := n = 0x12 || n = 0x13

/-- The opcode's signature in Form X, literal or not (the tables under R77, R115, R129, R137, R147, R161, R178, R186,
R195, R205, R211, R219, R224, R226, R237, R249, R253, R258, R262, R265). -/
def sigX (op : Nat) (x : FormX) : Sig :=
  let s := x.sub.toNat
  let m := x.mf.toNat
  let w := x.w2.toNat
  let n := alignOf (tiBits s)
  let n64 := if m % 2 = 1 then 2 else 1
  match op with
  | 0x01 | 0x02 | 0x04 | 0x07 => ti3 s 8 8
  -- IADDC's C takes T's width, so that a 64-bit type names a pair, though only C [0] is used (log entry 108)
  | 0x03 => { ti3 s 4 0 with c := src n }
  | 0x05 => ti3 s 4 0
  | 0x06 => { ti3 s 4 8 with c := src n }
  | 0x08 | 0x09 | 0x0A => ti3 s 8 0
  | 0x0B | 0x0C | 0x0D | 0x0E => ti3 s 13 0
  | 0x0F => { d := dst (if 3 ≤ s && s ≤ 5 then 1 else n64), a := src n64, mf := 1, w2 := if s = 1 || s = 2 then 8 else 0,
              sub := s < 7 }
  | 0x10 | 0x11 | 0x12 | 0x13 => { d := dst n, a := src n, b := srcL 1, sub := s < 12, lit := 32 }
  | 0x14 => { d := dst n, a := src n, b := srcL 1, sub := s < 4, lit := 32 }
  | 0x15 => { ti3 s 16 0 with c := src 1, sub := s < 4 || s = 8 || s = 9 }
  | 0x16 => { d := dst 1, a := src 1, b := srcL 1, c := src 1, sub := s = 0, lit := 32 }
  | 0x17 => { ti3 s 16 0 with c := src 1, sub := s < 4 || s = 8 || s = 9 }
  | 0x18 => { d := .pred, a := src n64, b := srcL n64, mf := 1, sub := s < 10, lit := 32 * n64 }
  | 0x19 => { d := .pred, a := src 1, b := src 1 }
  | 0x1A => { d := dst 2, a := src 2, b := srcL 1, w2 := 0x1E00, sub := s = 0, lit := 32 }
  | 0x1B => { d := dst n, b := srcL n, sub := s < 13, lit := tiBits s }
  | 0x1C => { d := dst 1, a := src 1, b := src 1, sub := s = 0 }
  | 0x20 | 0x21 | 0x22 => tf s 5 2 7
  | 0x23 => tf s 5 3 7
  | 0x24 | 0x25 => tf s 5 2 0
  | 0x26 => { d := .pred, a := src 1, b := srcL 1, mf := 15, sub := s < 8, lit := 32, own := failing [(2 < m, 4)] }
  | 0x27 => tf s 3 1 0
  | 0x28 | 0x29 | 0x2A => tf s 3 1 7
  | 0x2B => tf s 3 2 7
  | 0x2C | 0x2D | 0x2E | 0x2F | 0x30 => tf s 3 1 7
  | 0x31 => tf s 5 2 7
  | 0x32 => tf s 5 1 7
  | 0x40 => cvt x
  | 0x41 => { d := dst 1, a := src 1, w2 := 0x180, sub := s = 5 || s = 6 || s = 7 || s = 9 }
  | 0x42 => { d := dst 1, a := vOnly (if s = 7 then 8 else 4), b := srcL 1, w2 := 0x18F, sub := 5 ≤ s && s ≤ 7, lit := 32 }
  | 0x43 => { d := vOnly (if s = 7 then 8 else 4), a := src 1, b := srcL 1, w2 := 0x187, sub := 5 ≤ s && s ≤ 7, lit := 32 }
  | 0x44 => { d := dst 1, a := vOnly 8, b := srcL 1, w2 := 0x780, sub := s = 9, lit := 32 }
  | 0x45 => { d := vOnly 8, a := src 1, b := srcL 1, w2 := 0x787, sub := s = 9, lit := 32 }
  | 0x50 => { d := .pred, a := src 1, b := member, sub := s < 3, lit := 64 }
  | 0x51 => { d := dst 1, a := vOnly 1, b := member, c := src 1, sub := s < 4, lit := 64 }
  | 0x52 => bred false x
  | 0x53 => bred true x
  | 0x54 => { d := dst 2, a := src n64, b := member, mf := 1, sub := s = 0, lit := 64 }
  | 0x55 => { d := .pred, b := member, sub := s = 0, lit := 64 }
  | 0x56 => { b := member, sub := s = 0, lit := 64 }
  | 0x57 => { d := dst 2, sub := s = 0 }
  | 0x61 => { a := vOnly 1, w2 := 0xFFFF3FFF, sub := s = 0,
              own := failing [((List.range 16).any fun i => bit w (16 + i) && 255 < x.a.toNat + i, 6)] }
  | 0x62 | 0x65 => { b := srcL 1, w2 := 0xFFFF, sub := s = 0, lit := 32 }
  | 0x67 =>
    if m % 2 = 1 then
      { d := .own, a := vOnly 1, mf := 1, w2 := 0xFFFFFFFF, sub := s = 0,
        own := failing [(x.dc ≠ 0, 8), (64 < x.d.toNat || 256 < x.a.toNat + x.d.toNat, 6)] }
    else { mf := 1, sub := s = 0 }
  | 0x80 | 0x81 | 0x82 | 0x83 => memX op x
  | 0x84 | 0x85 | 0x86 => atom op x
  | 0x88 | 0x89 | 0x8A | 0x8B => watchX op x
  | 0xA0 => { d := if s = 1 then .pred else .off, a := pair, w2 := 0x3F, sub := s < 2 }
  | 0xA1 => { a := pair, b := src 1, w2 := 0x3FFFF, sub := s = 0 }
  | 0xA2 | 0xA3 | 0xA5 => { b := .opnd true true false true 2, sub := s = 0, lit := 64 }
  | 0xA4 => { d := dst 1, b := .opnd true true false true 2, sub := s = 0, lit := 64 }
  | 0xA6 => { w2 := 0xFFFFFFFF, sub := s = 0 }
  | 0xB0 => { a := if s = 0 then .opnd false true false false 2 else pair, sub := s < 2,
              own := failing [(s = 0 && x.ac = 1 && 48 < x.a.toNat, 6)] }
  | 0xB2 | 0xB3 | 0xB4 | 0xB5 | 0xB6 | 0xB7 => acX op x
  | 0xB8 => { a := src 1, b := if s = 1 then src 1 else .off, sub := s < 2 }
  | 0xB9 | 0xBA => { a := base (s / 2 % 2 = 0), sub := s < 4 }
  | 0xBB => { a := .opnd false true false false 4, sub := s < 8 }
  | 0xC0 | 0xC1 | 0xC2 | 0xC3 => bar op x
  | 0xC4 => { a := pair, b := if w % 2 = 1 then src 1 else .off, w2 := 1, sub := s = 0 }
  | 0xC8 => { d := dst 1, a := pair, w2 := 3, sub := s < 7 }
  | 0xD0 => { d := dst (if sregWide (w % 256) then 2 else 1), w2 := 0xFF, sub := s = 0 }
  | 0xD1 => { a := src 1, w2 := 0xFF, sub := s = 0 }
  | 0xD4 | 0xD5 => { a := .opnd false true false false 2, w2 := 0xF, sub := s = 0, guarded := false }
  | 0xD7 => { d := dst 2, w2 := 0xFFFF, sub := s = 0 }
  | _ => { sub := false }

/-- The opcode's signature in Form S, with or without a literal: the same row with every field of Form X that Form S
lacks at zero (R67 to R69), but for the rows that read their fields otherwise. -/
def sigS (op : Nat) (f : FormS) : Sig :=
  let x : FormX :=
    { g := 7, ac := 0, a := f.a.setWidth 8, dc := 0, d := f.d.setWidth 8, mf := 0, sub := f.m, lc := 0, lb := 0, la := 0,
      gn := 0, cc := 0, c := 0, bc := 0, b := f.b.setWidth 8, w2 := 0 }
  match op with
  | 0x03 => { sigX op x with c := .off }
  | 0x19 => { d := .pred, a := .pred, b := .pred }
  | 0x82 => { sub := f.m = 8 || f.m = 9 || f.m = 12, d := .own, a := .own, b := .own, own := [5] }
  | 0x80 | 0x81 | 0x83 | 0x88 | 0x89 | 0x8A | 0x8B =>
    let g := sigX op x
    { g with a := if g.a = .off then .off else vOnly (if op = 0x83 then 1 else 2) }
  | 0x87 => { d := .own, sub := f.m = 1 || f.m = 2 || f.m = 3,
              own := failing [(8 ≤ f.d.toNat, 8), (f.d.toNat % 8 = 0, 4)] }
  | 0xB1 => { sub := f.m = 0 }
  | 0xB6 => { d := .own, a := .own, sub := f.m = 0, own := failing [(2 ≤ f.a.toNat, 8)] }
  | 0xD6 => { d := .opnd true false false false 2, sub := f.m = 0 }
  | _ => sigX op x

/-- The failures of one register field with class code cl, number n and last-read bit l (R71, R74, R75). -/
def field (u : Use) (cl n l : Nat) (lit11 isB : Bool) : List Nat :=
  match u with
  | .own => []
  | .off => failing [(isB && cl = 2 && n = 255 && !lit11, 7), (cl ≠ 0 || n ≠ 0 || l ≠ 0, 8)]
  | .pred => failing [(cl ≠ 0 || 8 ≤ n, 8)]
  | .opnd v k sp lit align =>
    if isB && cl = 2 && n = 255 && lit then failing [(!lit11, 7)]
    else if (cl = 0 && v) || (cl = 1 && k) then
      failing [(cl = 1 && 63 < n, 6), (n % align ≠ 0, 6)]
    else if cl = 2 && sp then
      if n = 255 && isB then failing [(!lit11, 7)] else failing [(8 < n, 6)]
    else [5]

/-- The failures of a literal standing for operand B (R69, R112). -/
def litFails (sg : Sig) (lit : Nat) : List Nat :=
  failing [(sg.b = .off || sg.lit = 0 || 64 < sg.lit, 7), (sg.lit ≤ 32 && 2 ^ 32 ≤ lit, 7)]

/-- RND codes 6 and 7 of an AUX word, assigned or not (R76, R87), and unassigned bits of word 2 and of MF (R75, R113). -/
def wordFails (aux : Bool) (sg : Sig) (mf w2 : Nat) : List Nat :=
  failing [(!sg.sub, 4), (aux && 6 ≤ w2 % 8, 4), (w2 &&& (0xFFFFFFFF - sg.w2) ≠ 0, 8),
    (mf &&& (15 - sg.mf) ≠ 0, 8)]

/-- Opcodes whose word 2 is AUX (R79). -/
def isAux (op : Nat) : Bool := op < 0x60 || (0xB0 ≤ op && op ≤ 0xBB)

/-- Every failed check of an encoding in its own fields (R64 to R79), by reason code. -/
def fails (op : Nat) (form : Form) : List Nat :=
  match form with
  | .s f =>
    let sg := sigS op f
    failing [(!sg.sub, 4)] ++ sg.own ++ field sg.d 0 f.d.toNat 0 false false ++ field sg.a 0 f.a.toNat 0 false false
      ++ field sg.b 0 f.b.toNat 0 false true
  | .sLit f lit =>
    let sg := sigS op f
    failing [(!sg.sub, 4), (f.b ≠ 0, 7)] ++ sg.own ++ field sg.d 0 f.d.toNat 0 false false
      ++ field sg.a 0 f.a.toNat 0 false false ++ litFails sg lit.toNat
  | .x f =>
    let sg := sigX op f
    wordFails (isAux op) sg f.mf.toNat f.w2.toNat ++ sg.own
      ++ failing [(!sg.guarded && (f.g ≠ 7 || f.gn ≠ 0), 8)]
      ++ field sg.d f.dc.toNat f.d.toNat 0 false false ++ field sg.a f.ac.toNat f.a.toNat f.la.toNat false false
      ++ field sg.b f.bc.toNat f.b.toNat f.lb.toNat false true
      ++ field sg.c f.cc.toNat f.c.toNat f.lc.toNat false false
  | .xLit f lit =>
    let sg := sigX op f
    wordFails (isAux op) sg f.mf.toNat f.w2.toNat ++ sg.own
      ++ field sg.d f.dc.toNat f.d.toNat 0 false false ++ field sg.a f.ac.toNat f.a.toNat f.la.toNat false false
      ++ field sg.c f.cc.toNat f.c.toNat f.lc.toNat false false
      ++ (if f.bc = 2 ∧ f.b = 255 then litFails sg lit.toNat
          else 7 :: field sg.b f.bc.toNat f.b.toNat f.lb.toNat true true)
  | .i f =>
    let i := f.imm.toNat; let d := f.d.toNat
    match op with
    | 0x1D | 0xD2 => []
    | 0x63 | 0x68 | 0x69 | 0x6B | 0xC5 | 0xC6 => failing [(d ≠ 0, 8)]
    | 0xC7 => failing [(d ≠ 0 || 15 < i, 8)]
    | 0xD0 => failing [(256 ≤ i, 8), (sregWide (i % 256) && d % 2 = 1, 6)]
    | _ => failing [(d ≠ 0 || i ≠ 0, 8)]
  | .iLit f lit => failing [(f.imm ≠ 0 || 2 ^ 32 ≤ lit.toNat, 7)]
  | .b _ => []
  | .r f => failing [(f.mbz ≠ 0 || f.len ≠ 0, 10)]

/-- The lowest reason code of a list of failures (R87). -/
def lowest (l : List Nat) : Option Nat := l.foldl (fun o r => match o with | none => some r | some q => some (min q r)) none

/-- The LEN of a form (R64). -/
def lenCode : Form → Nat
  | .s _ | .i _ | .b _ => 0
  | .x _ => 1
  | .sLit _ _ | .iLit _ _ => 2
  | .xLit _ _ => 3
  | .r f => f.len.toNat

/-- The short-form code of R79 that a form's layout belongs to; Form X belongs to every opcode that accepts LEN 0b01. -/
def shortCode : Form → Option Nat
  | .s _ | .sLit _ _ => some 1
  | .i _ | .iLit _ _ => some 2
  | .b _ => some 3
  | .r _ => some 4
  | .x _ | .xLit _ _ => none

/-- Why an encoding is refused, if it is: the lowest failing reason of R87, without PASTEND and BRANCH. -/
def reason (op : Nat) (form : Form) : Option Nat :=
  match opInfo op with
  | none => some 2
  | some (short, lens) =>
    if op = 0x7F then lowest (fails op form)
    else if !lens.contains (lenCode form) || (match shortCode form with | none => false | some c => c ≠ short) then some 3
    else lowest (fails op form)

end Legal
end Sys2Proof
end

