-- ==== Sys2Proof/Machine/Ops.lean ====
section
/-!
DEFINITION. Sys2Proof/Machine/Ops.lean: the named operations over the machine's records, registers and memory, the
posting of accesses, address checks, and taking a trap and returning from one (R174 to R176) as shared operations.
-/
namespace Sys2Proof.Machine

/-! ### Records -/

/-- The slot key of a core, lane and slot. -/
def slotKey (core lane slot : Nat) : Nat := core * 256 + lane * 4 + slot
/-- The package core of a slot key. -/
def keyCore (k : Nat) : Nat := k / 256
/-- The lane of a slot key. -/
def keyLane (k : Nat) : Nat := k / 4 % 64
/-- The slot of a slot key. -/
def keySlot (k : Nat) : Nat := k % 4
/-- The die of a package core (R11). -/
def coreDie (c : Nat) : Nat := c / 96
/-- The package cluster of a package core (R11). -/
def coreCluster (c : Nat) : Nat := c / 4
/-- The die of a package cluster. -/
def clusterDie (c : Nat) : Nat := c / 24
/-- The four package cores of a cluster. -/
def clusterCores (c : Nat) : List Nat := [4 * c, 4 * c + 1, 4 * c + 2, 4 * c + 3]

def State.core (s : State) (c : Nat) : Core := Tbl.get s.cores c {}
def State.setCore (s : State) (c : Nat) (v : Core) : State := { s with cores := Tbl.put s.cores c v }
def State.modCore (s : State) (c : Nat) (f : Core → Core) : State := s.setCore c (f (s.core c))
def State.cluster (s : State) (c : Nat) : Cluster := Tbl.get s.clusters c {}
def State.setCluster (s : State) (c : Nat) (v : Cluster) : State := { s with clusters := Tbl.put s.clusters c v }
def State.modCluster (s : State) (c : Nat) (f : Cluster → Cluster) : State := s.setCluster c (f (s.cluster c))
def State.die (s : State) (d : Nat) : Die := Tbl.get s.dies d {}
def State.setDie (s : State) (d : Nat) (v : Die) : State := { s with dies := Tbl.put s.dies d v }
def State.band? (s : State) (k : Nat) : Option Band := Tbl.find? s.bands k
def State.setBand (s : State) (k : Nat) (b : Band) : State := { s with bands := Tbl.put s.bands k b }
def State.modBand (s : State) (k : Nat) (f : Band → Band) : State :=
  match s.band? k with
  | some b => s.setBand k (f b)
  | none => s
def State.lane (s : State) (k : Nat) : Lane := Tbl.get s.lanes k {}
def State.setLane (s : State) (k : Nat) (l : Lane) : State := { s with lanes := Tbl.put s.lanes k l }
def State.flight? (s : State) (f : Nat) : Option Flight := Tbl.find? s.flights f
def State.modFlight (s : State) (f : Nat) (g : Flight → Flight) : State :=
  match s.flight? f with
  | some x => { s with flights := Tbl.put s.flights f (g x) }
  | none => s
def State.ctx? (s : State) (c : Nat) : Option Ctx := Tbl.find? s.ctxs c
def State.modCtx (s : State) (c : Nat) (g : Ctx → Ctx) : State :=
  match s.ctx? c with
  | some x => { s with ctxs := Tbl.put s.ctxs c (g x) }
  | none => s

/-- The cycle count of the die of a package core. -/
def State.cycleAt (s : State) (core : Nat) : Nat := (s.die (coreDie core)).cycle

/-- A new number for an access, group, message or record. -/
def State.newId (s : State) : Nat × State := (s.nextId, { s with nextId := s.nextId + 1 })

/-- One more of counter n of R182 on a core. -/
def State.count (s : State) (core n by' : Nat) : State :=
  s.modCore core fun c => { c with perf := Tbl.put c.perf n (Tbl.get c.perf n 0 + by') }

/-- The slot key of the issue register's run. -/
def Run.key (r : Run) : Nat := slotKey r.core r.lane r.slot

/-- The thread with index t of a band. -/
def Band.thread (b : Band) (t : Nat) : Thread := b.threads.getD t {}

/-- The band with thread t changed. -/
def Band.modThread (b : Band) (t : Nat) (f : Thread → Thread) : Band := { b with threads := modAt b.threads t f }

/-- The band with every thread of a list changed. -/
def Band.modThreads (b : Band) (ts : List Nat) (f : Nat → Thread → Thread) : Band :=
  ts.foldl (fun b t => b.modThread t (f t)) b

/-- The threads of a band in a state. -/
def Band.inState (b : Band) (st : TState) : List Nat :=
  (List.range b.threads.length).filter fun t => (b.thread t).state = st

/-- Whether every thread of a band has ended. -/
def Band.allExited (b : Band) : Bool := b.threads.all fun t => t.state = .exited

/-- The number of a band, whatever slot it stands in: its flight, team and index. -/
def uidOf (flight team bandid : Nat) : Nat := flight * 2 ^ 40 + team * 2 ^ 8 + bandid
/-- The number of a band. -/
def Band.uid (b : Band) : Nat := uidOf b.flight b.team b.bandid

/-- The context of a band's flight. -/
def State.bandCtx (s : State) (b : Band) : Nat := match s.flight? b.flight with | some f => f.ctx | none => 0

/-- A key as a number, first keys lowest (R267). -/
def keyNum (th : Thread) : Nat := (255 - th.depth) * 65536 + th.pc

/-- Whether a thread is stopped at a SAFE (R397). -/
def Thread.atSafe (th : Thread) : Bool := match th.park with | .safe _ => true | _ => false

/-- Whether a band's head run is held at a GROW or a BRS, so that the band offers no run (R319). -/
def Band.headHeld (b : Band) : Bool :=
  match b.heldPark with
  | none => false
  | some (depth, pc) =>
    let key := (255 - depth) * 65536 + pc
    let rd := (b.inState .ready).filter fun t => !(b.thread t).atSafe
    rd.any (fun t => keyNum (b.thread t) = key) && rd.all (fun t => decide (key ≤ keyNum (b.thread t)))
      && !((b.bec = 16 || b.yieldNext) && rd.any fun t => keyNum (b.thread t) ≠ key)

/-- Whether a ready thread is held as parked (R319): its run is held at a GROW or a BRS, or its band's head run is. -/
def Band.heldAsParked (b : Band) (t : Nat) : Bool := b.headHeld || decide (b.heldPark = some ((b.thread t).depth, (b.thread t).pc))

/-- A team of a flight. -/
def State.team? (s : State) (flight team : Nat) : Option Team := (s.flight? flight).bind fun f => Tbl.find? f.members team

/-- Whether a team is being saved. -/
def State.isSaving (s : State) (flight team : Nat) : Bool :=
  match s.team? flight team with
  | some t => decide (t.saving ≠ 0)
  | none => false

/-! ### How a meaning ends early -/

/-- Why a run does not take its instruction's effect: it is held (R268), it traps (R174), or its band stops with a
class-1 fault (R473). -/
inductive Stop where
  | hold
  | trap (t : TrapInfo)
  | fault (code addr aux0 aux1 : Nat)
  deriving DecidableEq, Repr

/-- A computation of a run that may end early. -/
abbrev Rd (α : Type) := Except Stop α

/-- The illegal-operand trap (R174). -/
def illOpnd : Stop := .trap { cause := 2 }
/-- The range trap with each failing thread's address (R190). -/
def rangeTrap (addrs : List (Nat × Nat)) : Stop := .trap { cause := 8, addrs := addrs }
/-- The illegal-instruction trap (R86). -/
def illInsn (reason : Nat) (word : Word) : Stop := .trap { cause := 1, reason := reason, word := word }

/-- f over a list, stopping at the first early end. -/
def mapRd {α β : Type} (f : α → Rd β) : List α → Rd (List β)
  | [] => .ok []
  | a :: r => do
    let b ← f a
    let l ← mapRd f r
    return b :: l

/-- The members of a list for which a test holds, stopping at the first early end. -/
def filterRd {α : Type} (f : α → Rd Bool) : List α → Rd (List α)
  | [] => .ok []
  | a :: r => do
    let c ← f a
    let l ← filterRd f r
    return if c then a :: l else l

/-! ### Registers (R49 to R56) -/

/-- The number of 32-bit registers of a value of n bits. -/
def wordsFor (bits : Nat) : Nat := if bits ≤ 32 then 1 else bits / 32

/-- The width in bits of a TI code (R77). -/
def tiBits (c : Nat) : Nat := Legal.tiBits c

/-- Whether a TI code is signed (R77). -/
def tiSigned (c : Nat) : Bool := c = 0 || c = 2 || c = 4 || c = 6

/-- The v registers that a destination covers. -/
def Dest.coversV (d : Dest) (r : Nat) : Bool :=
  match d with
  | .v reg ti => decide (reg ≤ r) && decide (r < reg + wordsFor (tiBits ti))
  | _ => false

/-- The k registers that a destination covers. -/
def Dest.coversK (d : Dest) (r : Nat) : Bool :=
  match d with
  | .k reg ti => decide (reg ≤ r) && decide (r < reg + wordsFor (tiBits ti))
  | _ => false

/-- Whether a v register of a thread awaits returned data (R48, R196). -/
def Band.pendingV (b : Band) (t r : Nat) : Bool :=
  b.groups.any fun g => g.dest.coversV r && 0 < Tbl.get g.left t 0

/-- Whether a k register awaits returned data (R48, R199). -/
def Band.pendingK (b : Band) (r : Nat) : Bool := b.groups.any fun g => g.dest.coversK r && g.left.any fun p => 0 < p.2

/-- Whether a predicate of a thread awaits its value (R251). -/
def Band.pendingP (b : Band) (t p : Nat) : Bool := b.groups.any fun g => g.dest = .pred p && 0 < Tbl.get g.left t 0

/-- The register record of a mapped name. -/
def Band.reg? (b : Band) (n : Nat) : Option VReg := b.regs.find? fun r => r.name = n

/-- MAPPED (R56). -/
def Band.mapped (b : Band) : Nat := b.regs.length

/-- The entry of thread t for vn, if its live bit is set (R54). -/
def Band.vreg? (b : Band) (n t : Nat) : Option Word := b.regs.findSome? fun r => if r.name = n then Tbl.find? r.vals t else none

/-- A read of vn by thread t; an entry that is not live is undefined (R54, R8). `pos` tells the reads of one
instruction apart. -/
def Band.readV (b : Band) (fresh t n pos : Nat) : Rd Word :=
  if b.pendingV t n then .error .hold
  else .ok ((b.vreg? n t).getD (Config.freeWord fresh t (pos * 256 + n)))

/-- A read of kn, once per run (R49). -/
def Band.readK (b : Band) (n : Nat) : Rd Word := if b.pendingK n then .error .hold else .ok (b.kregs.getD n 0)

/-- A read of predicate p; p7 reads 1 (R51). -/
def Band.readP (b : Band) (t p : Nat) : Rd Bool :=
  if p = 7 then .ok true else if b.pendingP t p then .error .hold else .ok (bitOf (b.thread t).preds p)

/-- A source operand (R71). -/
inductive Opnd where
  | v (n : Nat)
  | k (n : Nat)
  | p (n : Nat)
  | zero
  | lit (x : Nat)
  deriving DecidableEq, Repr

/-- The operand of a class code and a field value (R71); lit is the literal, if any. -/
def Opnd.of (cl n lit : Nat) : Opnd :=
  if cl = 0 then .v n else if cl = 1 then .k n else if n < 8 then .p n else if n = 255 then .lit lit else .zero

/-- n registers from reg, as one little-endian number of 32n bits (R20). -/
def Band.readGroup (b : Band) (fresh t reg pos : Nat) : Nat → Rd Nat
  | 0 => .ok 0
  | n + 1 => do
    let w ← b.readV fresh t reg pos
    let r ← b.readGroup fresh t (reg + 1) pos n
    return w.toNat + 2 ^ 32 * r

/-- n k registers from reg, as one little-endian number. -/
def Band.readKGroup (b : Band) (reg : Nat) : Nat → Rd Nat
  | 0 => .ok 0
  | n + 1 => do
    let w ← b.readK reg
    let r ← b.readKGroup (reg + 1) n
    return w.toNat + 2 ^ 32 * r

/-- An operand of `bits` bits as thread t reads it (R49, R71, R111). -/
def Band.readOpnd (b : Band) (fresh t : Nat) (o : Opnd) (bits pos : Nat) : Rd Nat :=
  match o with
  | .v n => do return (← b.readGroup fresh t n pos (wordsFor bits)) % 2 ^ bits
  | .k n => do return (← b.readKGroup n (wordsFor bits)) % 2 ^ bits
  | .p n => do return if (← b.readP t n) then 1 else 0
  | .zero => .ok 0
  | .lit x => .ok (x % 2 ^ bits)

/-- The live bit of thread t for vn cleared, as by a last read (R55); the register stays listed. -/
def Band.clearLive (b : Band) (n t : Nat) : Band :=
  { b with regs := b.regs.map fun r => if r.name = n then { r with vals := Tbl.del r.vals t } else r }

/-- The registers without a live entry unmapped, but for the names kept and the destinations of returning data (R54,
R55). -/
def Band.prune (b : Band) (keep : List Nat) : Band :=
  { b with regs := b.regs.filter fun r =>
      !r.vals.isEmpty || keep.contains r.name ||
        b.groups.any fun g => g.dest.coversV r.name && g.left.any fun p => decide (0 < p.2) }

/-- The list with a register record inserted by name. -/
def insertReg (v : VReg) : List VReg → List VReg
  | [] => [v]
  | r :: l => if v.name < r.name then v :: r :: l else r :: insertReg v l

/-- vn mapped, on a physical band-register preg if it was not (R54). -/
def Band.mapReg (b : Band) (n preg : Nat) : Band :=
  match b.reg? n with
  | some _ => b
  | none => { b with regs := insertReg { name := n, preg := preg, vals := [] } b.regs }

/-- A write of thread t's entry of a mapped vn, with its live bit (R54). -/
def Band.writeV (b : Band) (n t : Nat) (w : Word) : Band :=
  { b with regs := b.regs.map fun r => if r.name = n then { r with vals := Tbl.put r.vals t w } else r }

/-- A write of kn. -/
def Band.writeK (b : Band) (n : Nat) (w : Word) : Band := { b with kregs := b.kregs.set n w }

/-- A write of predicate p of thread t; a write to p7 is discarded (R51). -/
def Band.writeP (b : Band) (t p : Nat) (v : Bool) : Band :=
  if 7 ≤ p then b
  else b.modThread t fun th =>
    { th with preds := th.preds - (if bitOf th.preds p then 2 ^ p else 0) + (if v then 2 ^ p else 0) }

/-- n registers from reg written with the words of a number. -/
def Band.writeGroup (b : Band) (reg t x : Nat) : Nat → Band
  | 0 => b
  | n + 1 => (b.writeV reg t (BitVec.ofNat 32 x)).writeGroup (reg + 1) t (x / 2 ^ 32) n

/-- n k registers from reg written with the words of a number. -/
def Band.writeKGroup (b : Band) (reg x : Nat) : Nat → Band
  | 0 => b
  | n + 1 => (b.writeK reg (BitVec.ofNat 32 x)).writeKGroup (reg + 1) (x / 2 ^ 32) n

/-- The physical band-registers of a lane's pool at a width (R53). -/
def poolSize (width : Nat) : Nat := 8192 / width
/-- The largest quota of a width (R53). -/
def maxQuota (width : Nat) : Nat := if width = 64 then 128 else 256

/-- The resident bands of a lane. -/
def State.laneBands (s : State) (core lane : Nat) : List Band :=
  [0, 1, 2, 3].filterMap fun i => s.band? (slotKey core lane i)

/-- POOLFREE: pool registers of the lane not reserved by any quota (R60). -/
def State.poolFree (s : State) (core lane : Nat) : Nat :=
  match s.laneBands core lane with
  | [] => poolSize 16
  | b :: r => poolSize b.width - ((b :: r).map (·.quota)).sum

/-- A free physical band-register of the lane; which one is the device's choice (R54, log entry 7). -/
def State.freePreg (s : State) (core lane width salt : Nat) : Nat :=
  let used := (s.laneBands core lane).flatMap fun b => b.regs.map (·.preg)
  let free := (List.range (poolSize width)).filter fun p => !used.contains p
  free.getD (Config.pick s.fresh salt % free.length) 0

/-- The names of a list mapped, those that were not on free registers; the salts tell the choices apart. -/
def State.mapAll (s : State) (k : Nat) (b : Band) : List Nat → Band
  | [] => b
  | n :: r =>
    let b' := match b.reg? n with
      | some _ => b
      | none => b.mapReg n ((s.setBand k b).freePreg (keyCore k) (keyLane k) b.width n)
    s.mapAll k b' r

/-- The names of a list that need an allocation. -/
def Band.unmapped (b : Band) (names : List Nat) : List Nat := names.filter fun n => (b.reg? n).isNone

/-- Names mapped within QUOTA, or the quota-overrun fault (R56). -/
def State.allocate (s : State) (k : Nat) (b : Band) (names : List Nat) : Rd Band :=
  if b.quota < b.mapped + (b.unmapped names).length then .error (.fault 1 0 b.quota b.mapped)
  else .ok (s.mapAll k b names)

/-- A thread's live bits all cleared, as at its exit (R55). -/
def Band.dropLive (b : Band) (t : Nat) : Band :=
  let b' : Band := { b with regs := b.regs.map fun r => { r with vals := Tbl.del r.vals t } }
  b'.prune []

/-! ### Counters (R193) -/

/-- Whether some access of a counted run is not complete. -/
def Group.open (g : Group) : Bool := g.left.any fun p => decide (0 < p.2)

/-- The outstanding count of a class. -/
def Band.outstanding (b : Band) (c : Cls) : Nat := (b.groups.filter fun g => decide (g.cls = c) && g.open).length

/-- Whether one more counted run fits (R193). -/
def Band.roomFor (b : Band) (c : Cls) : Bool := decide (b.outstanding c < 1024)

/-! ### Address checks (R188 to R190, R422, R423) -/

/-- The permissions an access needs (R423). -/
structure Need where
  x : Bool := false
  w : Bool := false
  a : Bool := false
  deriving DecidableEq, Repr

/-- Loads and reads. -/
def needX : Need := { x := true }
/-- Stores. -/
def needW : Need := { w := true }
/-- Atomics, reductions and barrier records. -/
def needXWA : Need := { x := true, w := true, a := true }

/-- The lowest-numbered valid range that holds a virtual address (R423). -/
def rangeOf (rs : List RangeReg) (va : Nat) : Option RangeReg := rs.find? fun r => decide (r.base ≤ va) && decide (va ≤ r.limit)

/-- The intermediate address of one byte, if its range permits the access (R423). -/
def translate (rs : List RangeReg) (n : Need) (va : Nat) : Option Nat :=
  match rangeOf rs va with
  | some r => if (!n.x || r.x) && (!n.w || r.w) && (!n.a || r.a) then some (r.iabase + (va - r.base)) else none
  | none => none

/-- The first byte of [va, va + n) that fails its check (R190). -/
def firstFail (rs : List RangeReg) (n : Need) (va : Nat) : Nat → Option Nat
  | 0 => none
  | len + 1 => if (translate rs n va).isNone then some va else firstFail rs n ((va + 1) % 2 ^ 64) len

/-- The range set that a core holds for its image's context (R424). -/
def State.coreRanges (s : State) (core : Nat) : List RangeReg := match (s.core core).ranges with | some r => r.2 | none => []

/-- The range set of a context, as the caches of the units hold it (R424). -/
def State.ctxRanges (s : State) (ctx : Nat) : List RangeReg := match s.ctx? ctx with | some c => c.ranges | none => []

/-- The scratchpad allocation of a band's team: absolute base and size (R188); nothing where it has none. -/
def State.alloc (s : State) (b : Band) : Nat × Nat :=
  match s.flight? b.flight with
  | none => (0, 0)
  | some f => match Tbl.find? f.members b.team with
    | some tm => match tm.place with
      | .resident _ _ base => (base, f.scratch)
      | _ => (0, 0)
    | none => (0, 0)

/-- Whether a band's team is placed on a core pair (R15). -/
def State.onPair (s : State) (b : Band) : Bool :=
  match s.flight? b.flight with
  | none => false
  | some f => match Tbl.find? f.members b.team with
    | some tm => match tm.place with
      | .resident _ p _ => p
      | _ => false
    | none => false

/-- Team scope acts as cluster scope for a team on a core pair (R189). -/
def State.scopeOf (s : State) (b : Band) (scope : Nat) : Nat := if scope = 2 && s.onPair b then 3 else scope

/-! ### Posting accesses (R191, R193, M1 of R285) -/

/-- The units of an access of n bytes at a: whole when naturally aligned and 8 bytes or less, two halves for 16 aligned bytes,
8-byte units for longer blocks at a multiple of 8, single bytes otherwise (R191): (offset, size). -/
def splitUnits (a n : Nat) : List (Nat × Nat) :=
  if n ≤ 8 ∧ a % n = 0 then [(0, n)]
  else if 8 < n ∧ n % 8 = 0 ∧ a % (if n = 16 then 16 else 8) = 0 then (List.range (n / 8)).map fun i => (8 * i, 8)
  else (List.range n).map fun i => (i, 1)

/-- One thread's part of a counted run before splitting: thread, VA, IA or offset, bytes, data. -/
structure Part where
  thread : Nat
  va : Nat
  addr : Nat
  size : Nat
  data : Nat := 0
  cmp : Nat := 0
  fan : List Nat := []
  /-- offset of the part in the bytes that the thread's access returns -/
  base : Nat := 0
  deriving DecidableEq, Repr

/-- The counted runs that a release of a band waits for in its first step: those that are not complete, but a tile copy's only until
its unit has accepted it, which it has when the run that posts it retires (R204, R220, R297). -/
def State.relGroups (s : State) (b : Band) : List Nat :=
  (b.groups.filter fun g => g.open && (decide (g.cls ≠ .cp) || s.copies.any fun p => p.2.gid = g.gid && p.2.ovl.isSome)).map (·.gid)

/-- What the units of one counted run share. -/
structure Shape where
  kind : AccKind
  space : Nat := 0
  scope : Nat := 0
  acq : Bool := false
  rel : Bool := false
  op : Nat := 0
  ty : Nat := 0
  deriving DecidableEq, Repr

/-- The access units of one part, numbered from id; each unit of a global access has its own translation (R423). -/
def unitsOf (s : State) (k : Nat) (b : Band) (sh : Shape) (gid id : Nat) (p : Part) : List Acc :=
  (splitUnits p.addr p.size).zipIdx.map fun u =>
    let va := (p.va + u.1.1) % 2 ^ 64
    { id := id + u.2, gid := gid, core := keyCore k, band := k, thread := p.thread, kind := sh.kind, space := sh.space,
      va := va, addr := if sh.space = 0 then (translate (s.coreRanges (keyCore k)) {} va).getD 0 else p.addr + u.1.1,
      size := u.1.2, scope := sh.scope, acq := sh.acq, rel := sh.rel, relWait := if sh.rel then s.relGroups b else [],
      data := p.data / 2 ^ (8 * u.1.1) % 2 ^ (8 * u.1.2), cmp := p.cmp, op := sh.op, ty := sh.ty, off := p.base + u.1.1,
      fan := p.fan, flight := b.flight, ctx := s.bandCtx b, uid := b.uid }

/-- The units of all parts, with the number after the last. -/
def allUnits (s : State) (k : Nat) (b : Band) (sh : Shape) (gid : Nat) : Nat → List Part → List Acc
  | _, [] => []
  | id, p :: r =>
    let l := unitsOf s k b sh gid id p
    l ++ allUnits s k b sh gid (id + l.length) r

/-- One counted run issued (M1): its group joins the band and its units enter the threads' queues in order. -/
def State.post (s : State) (k : Nat) (b : Band) (cls : Cls) (dest : Dest) (sh : Shape) (parts : List Part) : State × Band :=
  let gid := s.nextId
  let us := allUnits s k b sh gid (gid + 1) parts
  let left := parts.foldl (fun t p =>
    let n := (splitUnits p.addr p.size).length
    let fan := if p.fan.isEmpty then [p.thread] else p.fan
    fan.foldl (fun t i => Tbl.put t i (Tbl.get t i 0 + n)) t) ([] : Tbl Nat)
  let g : Group := { gid := gid, cls := cls, dest := dest, depth := s.issue.depth, pc := s.issue.pc, left := left,
                     size := (parts.map (·.size)).foldl max 0 }
  let b' := if parts.isEmpty then b else { b with groups := b.groups ++ [g] }
  ({ s with nextId := gid + 1 + us.length, iq := s.iq ++ us }, b')

/-! ### Blocks read by a held run (R169, R176, R184, R220, R237) -/

/-- What a block read finds: still on its way (the state with the accesses issued), or each thread's bytes. -/
inductive BlockRes where
  | wait (s : State)
  | got (vals : Tbl Nat)
  deriving Repr

/-- Whether a group is the block read of a step at the key of the issue register. -/
def Group.isBlock (g : Group) (r : Run) (step : Nat) : Bool := decide (g.dest = .block step) && decide (g.depth = r.depth) && decide (g.pc = r.pc)

/-- The block read of a step for threads, each with its parts: issued for the threads that have none, and awaited; X is
needed (R423), and a failure takes the range trap with each thread's first failing byte or the address given. -/
def State.blockRead (s : State) (b : Band) (step : Nat) (ts : List Nat) (parts : List Part) (addrOf : Nat → Option Nat) : Rd BlockRes :=
  let r := s.issue
  let mine := b.groups.filter (·.isBlock r step)
  let has (t : Nat) : Bool := mine.any fun g => (Tbl.find? g.left t).isSome
  let new := parts.filter fun p => !has p.thread
  let rs := s.coreRanges r.core
  let bad := new.filterMap fun p => (firstFail rs needX p.va p.size).map fun a => (p.thread, (addrOf p.thread).getD a)
  if !bad.isEmpty then .error (rangeTrap bad)
  else if !new.isEmpty then
    if !b.roomFor .ld then .error .hold
    else
      let (s1, b1) := s.post r.key b .ld (.block step) { kind := .load } new
      .ok (.wait (s1.setBand r.key b1))
  else if mine.any fun g => g.open && ts.any fun t => (Tbl.find? g.left t).isSome then .error .hold
  else .ok (.got (ts.map fun t => (t, ((mine.find? fun g => (Tbl.find? g.left t).isSome).map fun g => Tbl.get g.buf t 0).getD 0)))

/-- The blocks that a run has read are consumed. -/
def Band.consume (b : Band) (r : Run) : Band :=
  { b with groups := b.groups.filter fun g => match g.dest with
      | .block _ => !(decide (g.depth = r.depth) && decide (g.pc = r.pc))
      | _ => true }

/-! ### Retiring -/

/-- The threads of a run advance by the instruction's length and the REP iteration clears (R64). Inside a REP unit the
key stays at the REP (R82). -/
def Band.advance (b : Band) (r : Run) (ts : List Nat) : Band :=
  if r.inRep then b else b.modThreads ts fun _ th => { th with pc := (th.pc + r.len) % 65536, rep := 0 }

/-- The state with the band of the issue register set. -/
def State.putBand (s : State) (b : Band) : State := s.setBand s.issue.key b

/-- A held run: nothing changes but the mark (R268). -/
def State.hold (s : State) : State := { s with issue := { s.issue with held := true } }

/-! ### Traps (R174 to R176) -/

/-- The overlay id in a slot, with absent written as 0. -/
def Core.ovidAt (c : Core) (pc : Nat) : Nat := ((c.overlays.getD (pc / 16384) {}).ovid).getD 0

/-- The layout of RPC and FPC: overlay id and word index (R174). -/
def ovPoint (c : Core) (pc : Nat) : Nat := c.ovidAt pc * 65536 + pc

/-- The lowest-numbered slot that holds an overlay id (R227). -/
def Core.slotOf? (c : Core) (ovid : Nat) : Option Nat :=
  [0, 1, 2, 3].find? fun i => decide ((c.overlays.getD i {}).ovid = some ovid)

/-- The address of a thread's control area (R167). -/
def controlArea (csbase tidx : Nat) : Nat := (csbase + 1088 * tidx) % 2 ^ 64

/-- A trap frame as one number of 64 bytes (R174). -/
def frameOf (c : Core) (r : Run) (th : Thread) (t : TrapInfo) (addr : Nat) : Nat :=
  let rpc := ovPoint c ((r.pc + t.skip) % 65536)
  rpc + ovPoint c r.pc * 2 ^ 32 + t.word.toNat * 2 ^ 64 + t.cause * 2 ^ 96 + t.reason * 2 ^ 104
    + (if r.inRep then r.rep else 0) * 2 ^ 112 + (if r.inRep then 1 else 0) * 2 ^ 120 + t.code * 2 ^ 128
    + th.depth * 2 ^ 144 + addr * 2 ^ 192

/-- The tracker of a slot reset (R332): cleared; its armed lines stand disarmed with it. -/
def Band.resetTracker (b : Band) : Band := { b with tracker := {} }

/-- A band stopped by a class-1 fault (R475), its tracker reset (R332): the fault stays with the band, whose BAND_STOP follows. -/
def State.stopBand (s : State) (k : Nat) (f : BandFault) : State :=
  s.modBand k fun b => { b.resetTracker with fault := some (b.fault.getD f), qov := b.qov || f.code = 1 }

/-- The band of the issue register stopped by a class-1 fault of its run; threads inside a REP unit keep the iteration that did not
complete, at which the unit is issued again (R84, R475). -/
def State.stopIssue (s : State) (f : BandFault) : State :=
  let r := s.issue
  (s.stopBand r.key f).modBand r.key fun b => if r.inRep then b.modThreads r.threads fun _ th => { th with rep := r.rep } else b

/-- The threads of a completing issue that traps are parked no more, and its instance is over (R185, R270). -/
def Band.unpark (b : Band) (r : Run) : Band :=
  let was (t : Nat) : Bool := (b.thread t).state = .atOp
  let b1 := b.modThreads (r.threads.filter was) fun _ th => { th with state := if b.halted then .halted else .ready, park := .none }
  if r.threads.any was then
    { b1 with done := b1.done.filter fun d => !(decide (d.depth = r.depth) && decide (d.pc = r.pc) && decide (d.rep = r.rep)) }
  else b1

/-- The trap entry of a band's flight as a fault record names it: overlay id and offset, or all ones where it names none (R373, R474). -/
def State.trapPoint (s : State) (b : Band) : Nat :=
  match (s.flight? b.flight).bind (·.trapEntry) with
  | some e => e.1 * 65536 + e.2
  | none => 0xFFFFFFFF

/-- Taking a trap for the run of the issue register (R175): each thread's frame is stored as one counted run, its in-trap
bit set and its PC moved to the trap entry; the run is held while the st counter is full, and the band stops where the
trap cannot be taken. -/
def State.takeTrap (s : State) (t : TrapInfo) : State :=
  let r := s.issue
  match s.band? r.key with
  | none => s
  | some b0 =>
    let b : Band := { b0.consume r with rels := b0.rels.filter fun p => !(decide (p.depth = r.depth) && decide (p.pc = r.pc)) }
    let word := if t.cause = 1 then t.word else r.word
    let stop (code addr aux0 : Nat) : State := s.stopIssue
      { code := code, pc := r.pc, btid := r.threads.headD 0, addr := addr, aux0 := aux0, rep := r.rep, inRep := r.inRep }
    match s.flight? b.flight with
    | none => stop 5 0 0
    | some f =>
      let c := s.core r.core
      if r.threads.any fun i => (b.thread i).inTrap then stop 4 0 t.cause
      else match f.trapEntry.bind fun e => (c.slotOf? e.1).map fun sl => sl * 16384 + e.2 with
        | none => stop 5 0 (s.trapPoint b)
        | some entry =>
          let rs := s.coreRanges r.core
          let area (i : Nat) : Nat := (controlArea f.csbase (b.thread i).tidx + 1024) % 2 ^ 64
          match r.threads.find? fun i => (firstFail rs needW (area i) 64).isSome with
          | some i => stop 6 (area i) 0
          | none =>
          if !b.roomFor .st then s.hold
          else
            let parts := r.threads.map fun i =>
              ({ thread := i, va := area i, addr := (translate rs needW (area i)).getD 0, size := 64,
                 data := frameOf c r (b.thread i) { t with word := word } (Tbl.get t.addrs i 0) } : Part)
            let (s1, b1) := s.post r.key b .st .none { kind := .store } parts
            let b2 := (b1.modThreads r.threads fun _ th => { th with inTrap := true, pc := entry, rep := 0 }).unpark r
            let b3 := if r.threads.any fun i => bitOf b.tracker.tmask i then b2.resetTracker else b2
            (s1.setBand r.key b3).count r.core 8 1

/-- What an early end does to the machine: the run is held, traps, or its band stops. -/
def State.stopRun (s : State) (e : Stop) : State :=
  let s' : State := { s with issue := { s.issue with ended := true } }
  match e with
  | .hold => s.hold
  | .trap t => s'.takeTrap t
  | .fault code addr aux0 aux1 =>
    s'.stopIssue
      { code := code, pc := s.issue.pc, btid := s.issue.threads.headD 0, addr := addr, aux0 := aux0,
        aux1 := aux1, rep := s.issue.rep, inRep := s.issue.inRep }

/-- The end of a meaning: its new state, or what its early end does. -/
def State.finish (s : State) (r : Rd State) : Out :=
  match r with
  | .ok s' => .next s'
  | .error e => .next (s.stopRun e)

/-- A meaning that needs the band of the issue register. -/
def State.withBand (s : State) (f : Band → Rd State) : Out :=
  match s.band? s.issue.key with
  | none => .fault .noBand
  | some b => s.finish (f b)

end Sys2Proof.Machine
end

