-- ==== Sys2Proof/Machine/Operands.lean ====
section
/-!
DEFINITION. Sys2Proof/Machine/Operands.lean: every operand form of the instruction words (R67 to R74, R110 to R112), read
into one view, and the one operation through which an instruction that works thread by thread reads its sources, clears
last-read bits, writes its destination and retires (R50, R55, R73, R109).
-/
namespace Sys2Proof.Machine

/-- The fields of an instruction word, whatever its form. -/
structure Fld where
  /-- Form X, with or without a literal -/
  isX : Bool
  g : Nat := 7
  gn : Bool := false
  dk : Bool := false
  d : Nat
  a : Opnd
  b : Opnd
  c : Opnd := .zero
  la : Bool := false
  lb : Bool := false
  lc : Bool := false
  sub : Nat
  mf : Nat := 0
  w2 : Nat := 0
  deriving DecidableEq, Repr

/-- Form S: v0 to v63, unguarded, no last-read bits, AUX zero (R68, R76). -/
def viewS (f : FormS) : Fld :=
  { isX := false, d := f.d.toNat, a := .v f.a.toNat, b := .v f.b.toNat, sub := f.m.toNat }

/-- Form X with a literal value for an operand B that selects it (R70, R72). -/
def viewXWith (f : FormX) (lit : Nat) : Fld :=
  { isX := true, g := f.g.toNat, gn := f.gn = 1, dk := f.dc = 1, d := f.d.toNat, a := .of f.ac.toNat f.a.toNat 0,
    b := .of f.bc.toNat f.b.toNat lit, c := .of f.cc.toNat f.c.toNat 0, la := f.la = 1, lb := f.lb = 1, lc := f.lc = 1,
    sub := f.sub.toNat, mf := f.mf.toNat, w2 := f.w2.toNat }

/-- Form X (R70). -/
def viewX (f : FormX) : Fld := viewXWith f 0

/-- Form X or a literal form (R69, R72). -/
def viewXL : XL → Fld
  | .sLit f l => { viewS f with b := .lit l.toNat }
  | .x f => viewX f
  | .xLit f l => viewXWith f l.toNat

/-- Form I: destination and immediate (R67). -/
def viewI (f : FormI) : Fld :=
  { isX := false, d := f.d.toNat, a := .zero, b := .lit f.imm.toNat, sub := 0, w2 := f.imm.toNat }

/-- RND of AUX (R76). -/
def Fld.rnd (f : Fld) : Nat := f.w2 % 8
/-- SAT of AUX (R76). -/
def Fld.sat (f : Fld) : Bool := bitOf f.w2 3
/-- BSEL of AUX (R76). -/
def Fld.bsel (f : Fld) : Nat := bits f.w2 8 7

/-- Whether a thread's guard holds (R73). -/
def Band.guard (b : Band) (f : Fld) (t : Nat) : Rd Bool := do return (← b.readP t f.g) != f.gn

/-- The threads of the run whose guard holds (R73). -/
def Band.guarded (b : Band) (f : Fld) (ts : List Nat) : Rd (List Nat) := filterRd (b.guard f) ts

/-- The last-read bit of one source applied for a thread (R55, R74). -/
def Band.lastRead (b : Band) (o : Opnd) (l : Bool) (bits t : Nat) : Band :=
  match o, l with
  | .v n, true => (List.range (wordsFor bits)).foldl (fun b i => b.clearLive (n + i) t) b
  | _, _ => b

/-- The last-read bits of an instruction applied for the threads of the run, whatever their guard (R55, R73). -/
def Band.lastReads (b : Band) (f : Fld) (wa wb wc : Nat) (ts : List Nat) : Band :=
  ts.foldl (fun b t => ((b.lastRead f.a f.la wa t).lastRead f.b f.lb wb t).lastRead f.c f.lc wc t) b

/-- Where a result goes: a group of registers of n words, or a predicate. -/
inductive Target where
  | regs (n : Nat)
  | pred
  | none
  deriving DecidableEq, Repr

/-- The v names that a destination allocates. -/
def Fld.destNames (f : Fld) (tg : Target) : List Nat :=
  match tg with
  | .regs n => if f.dk then [] else (List.range n).map (f.d + ·)
  | _ => []

/-- Whether a destination still awaits an earlier returned value for one of the threads (R196). -/
def Band.destPending (b : Band) (f : Fld) (tg : Target) (ts : List Nat) : Bool :=
  match tg with
  | .regs n => (List.range n).any fun i =>
      if f.dk then !ts.isEmpty && b.pendingK (f.d + i) else ts.any fun t => b.pendingV t (f.d + i)
  | .pred => ts.any fun t => b.pendingP t (f.d % 8)
  | .none => false

/-- One thread's result: the thread, the value, and the number of draws it made from RNDCTR (R33). -/
structure Res where
  thread : Nat
  val : Nat
  draws : Nat := 0
  deriving DecidableEq, Repr

/-- One thread's result written to its destination (R50, R51, R54). -/
def Band.writeRes (b : Band) (f : Fld) (tg : Target) (r : Res) : Band :=
  match tg with
  | .regs n => b.writeGroup f.d r.thread r.val n
  | .pred => b.writeP r.thread (f.d % 8) (r.val % 2 = 1)
  | .none => b

/-- The results of a run written: a k destination takes the lowest thread's (R50); RNDCTR advances by the draws (R33). -/
def Band.writeAll (b : Band) (f : Fld) (tg : Target) (rs : List Res) : Band :=
  let b1 := match tg, f.dk, rs with
    | .regs n, true, r :: _ => b.writeKGroup f.d r.val n
    | .regs _, true, [] => b
    | _, _, _ => rs.foldl (fun b r => b.writeRes f tg r) b
  rs.foldl (fun b r => b.modThread r.thread fun th => { th with rndctr := (th.rndctr + r.draws) % 2 ^ 32 }) b1

/-- The 32-bit words that a run has written as it retires, per thread, as the loop watch unit folds them (R328): of a k destination the
lowest thread's (R50), and nothing for a predicate that stays true (R51). -/
def writtenWords (f : Fld) (tg : Target) (rs : List Res) : List (Nat × Nat) :=
  match tg with
  | .regs n => (if f.dk then rs.take 1 else rs).flatMap fun r => (List.range n).map fun i => (r.thread, r.val / 2 ^ (32 * i) % 2 ^ 32)
  | .pred => if f.d % 8 = 7 then [] else rs.map fun r => (r.thread, r.val % 2)
  | .none => []

/-- The v registers that a run has written as it retires, each with its thread. -/
def writtenRegs (f : Fld) (tg : Target) (rs : List Res) : List (Nat × Nat) := rs.flatMap fun r => (f.destNames tg).map fun n => (n, r.thread)

/-- The end of a thread-by-thread instruction: last-read bits, allocation within QUOTA, writes, retirement (R55, R56,
R64, R73). Nothing changes where the allocation overruns. -/
def State.commit (s : State) (b : Band) (f : Fld) (wa wb wc : Nat) (tg : Target) (rs : List Res) : Rd State := do
  let r := s.issue
  let names := if rs.isEmpty then [] else f.destNames tg
  let b1 := (b.lastReads f wa wb wc r.threads).prune names
  let b2 ← s.allocate r.key b1 names
  let b3 := (b2.writeAll f tg rs).advance r r.threads
  return { s.putBand b3 with issue := { r with writes := r.writes ++ writtenWords f tg rs, regs := r.regs ++ writtenRegs f tg rs } }

/-- What a thread brings to its computation: the band, its index, and its operands. -/
structure In where
  band : Band
  t : Nat
  a : Nat
  b : Nat
  c : Nat
  fresh : Nat
  core : Nat
  deriving DecidableEq, Repr

/-- The operands of one thread (R49, R109). -/
def State.readIn (s : State) (b : Band) (f : Fld) (wa wb wc t : Nat) : Rd In := do
  let x ← if wa = 0 then .ok 0 else b.readOpnd s.fresh t f.a wa 1
  let y ← if wb = 0 then .ok 0 else b.readOpnd s.fresh t f.b wb 2
  let z ← if wc = 0 then .ok 0 else b.readOpnd s.fresh t f.c wc 3
  return { band := b, t := t, a := x, b := y, c := z, fresh := s.fresh, core := s.issue.core }

/-- An instruction that works thread by thread: every source of every guarded thread is read before any thread writes
(R109); widths of 0 mark fields that are not operands. `op` gives a thread's result and its draws, or ends the run. -/
def State.perThread (s : State) (f : Fld) (wa wb wc : Nat) (tg : Target) (op : In → Rd (Nat × Nat)) : Out :=
  s.withBand fun b => do
    let ts ← b.guarded f s.issue.threads
    if b.destPending f tg ts then .error .hold
    else
      let rs ← mapRd (fun t => do
        let i ← s.readIn b f wa wb wc t
        let v ← op i
        return ({ thread := t, val := v.1, draws := v.2 } : Res)) ts
      s.commit b f wa wb wc tg rs

/-- The value of one operand for the whole run: a v operand from the lowest guarded thread (R228). -/
def State.uniform (s : State) (b : Band) (o : Opnd) (bits pos : Nat) (ts : List Nat) : Rd Nat :=
  b.readOpnd s.fresh (ts.headD 0) o bits pos

/-- The run retires with no register written (last-read bits still act). -/
def State.retire (s : State) (b : Band) (f : Fld) (wa wb wc : Nat) : State :=
  let r := s.issue
  s.putBand (((b.lastReads f wa wb wc r.threads).prune []).advance r r.threads)

end Sys2Proof.Machine
end

