-- ==== Sys2Proof/Machine/Alu.lean ====
section
/-!
DEFINITION. Sys2Proof/Machine/Alu.lean: the integer, logic and address instructions (R109 to R128), each a definition of its
own over the shared operations.
-/
namespace Sys2Proof.Machine

/-! ### The computations -/

/-- Src of R111: the operand's pattern read under a TI code. -/
def srcTI (ti x : Nat) : Int :=
  let n := tiBits ti
  if tiSigned ti then signed x n else ((x % 2 ^ n : Nat) : Int)

/-- Put of R111: an exact result as the destination's bits, 32 at least. -/
def putTI (ti : Nat) (sat : Bool) (x : Int) : Nat :=
  let n := tiBits ti
  let lo : Int := if tiSigned ti then -((2 ^ (n - 1) : Nat) : Int) else 0
  let hi : Int := if tiSigned ti then ((2 ^ (n - 1) : Nat) : Int) - 1 else ((2 ^ n : Nat) : Int) - 1
  let y := if sat then min (max x lo) hi else x
  if n < 32 then wrap (if tiSigned ti then signed (wrap y n) n else ((wrap y n : Nat) : Int)) 32 else wrap y n

/-- The words of a destination of a TI type. -/
def tiWords (ti : Nat) : Nat := wordsFor (tiBits ti)

/-- A two-operand instruction under a TI type (R116, R118). -/
def State.intOp (s : State) (f : Fld) (op : Int → Int → Int) : Out :=
  let n := tiBits f.sub
  s.perThread f n n 0 (.regs (tiWords f.sub)) fun i =>
    .ok (putTI f.sub f.sat (op (srcTI f.sub i.a) (srcTI f.sub i.b)), 0)

/-- A two-operand instruction on n-bit patterns (R117, R118). -/
def State.bitOp (s : State) (f : Fld) (op : Nat → Nat → Nat) : Out :=
  let n := tiBits f.sub
  s.perThread f n n 0 (.regs (tiWords f.sub)) fun i => .ok (putTI f.sub false ((op i.a i.b : Nat) : Int), 0)

/-- IDIV's quotient towards zero under a TI code; division by zero gives all ones at the type's width, also for an unsigned type
under SAT, which R116's prose keeps from saturating (log entry 110). -/
def idivOp (ti : Nat) (a b : Int) : Int :=
  if b = 0 then (if tiSigned ti then -1 else ((2 ^ tiBits ti : Nat) : Int) - 1) else Int.tdiv a b
/-- IREM's remainder with the sign of a; division by zero gives a (R116). -/
def iremOp (a b : Int) : Int := if b = 0 then a else Int.tmod a b

/-- IADDC's carry out (R117). -/
def State.carryOp (s : State) (f : Fld) : Out :=
  let n := tiBits f.sub
  s.perThread f n n (if f.isX then n else 0) (.regs (tiWords f.sub)) fun i =>
    .ok ((i.a + i.b + i.c % 2) / 2 ^ n, 0)

/-- A shift by B [31:0] (R119). -/
def State.shiftOp (s : State) (f : Fld) (op : Nat → Nat → Nat → Nat) : Out :=
  let n := tiBits f.sub
  s.perThread f n 32 0 (.regs (tiWords f.sub)) fun i => .ok (putTI f.sub false ((op n i.a i.b : Nat) : Int), 0)

def shlOp (n u a : Nat) : Nat := if n ≤ a then 0 else u * 2 ^ a % 2 ^ n
def shrOp (n u a : Nat) : Nat := if n ≤ a then 0 else u / 2 ^ a
def shaOp (n u a : Nat) : Nat := wrap (signed u n / (2 : Int) ^ (min a (n - 1))) n
def rotlOp (n u a : Nat) : Nat := (u * 2 ^ (a % n) + u / 2 ^ (n - a % n)) % 2 ^ n

/-- The width of a unary operation or a compare (R77, R115). -/
def Fld.wide (f : Fld) : Nat := if f.mf % 2 = 1 then 64 else 32

/-- A unary operation to w bits (R120). -/
def State.unaryOp (s : State) (f : Fld) (op : Nat → Nat → Nat) : Out :=
  let w := f.wide
  s.perThread f w 0 0 (.regs (wordsFor w)) fun i => .ok (op w i.a % 2 ^ w, 0)

/-- A unary count to one 32-bit register (R120). -/
def State.countOp (s : State) (f : Fld) (op : Nat → Nat → Nat) : Out :=
  let w := f.wide
  s.perThread f w 0 0 (.regs 1) fun i => .ok (op w i.a, 0)

/-- A signed result at width w, clamped under SAT (R120). -/
def clampS (w : Nat) (sat : Bool) (x : Int) : Nat :=
  let hi : Int := ((2 ^ (w - 1) : Nat) : Int) - 1
  wrap (if sat then min x hi else x) w

def popcOp (w a : Nat) : Nat := ((List.range w).filter fun i => bitOf a i).length
def clzOp (w a : Nat) : Nat := ((List.range w).reverse.takeWhile fun i => !bitOf a i).length
def ctzOp (w a : Nat) : Nat := ((List.range w).takeWhile fun i => !bitOf a i).length
def brevOp (w a : Nat) : Nat := (List.range w).foldl (fun x i => if bitOf a i then x + 2 ^ (w - 1 - i) else x) 0

/-- BFX's field (R121). -/
def bfxOp (ti u ctl : Nat) : Int :=
  let n := tiBits ti; let p := ctl % 256; let l := min (ctl / 256 % 256) n
  let x := u / 2 ^ p % 2 ^ l
  if tiSigned ti && 0 < l && bitOf x (l - 1) then ((x : Nat) : Int) - ((2 ^ l : Nat) : Int) else ((x : Nat) : Int)

/-- BFI's result (R121). -/
def bfiOp (n u b ctl : Nat) : Nat :=
  let p := ctl % 256
  let l := if n ≤ p then 0 else min (ctl / 256 % 256) (n - p)
  let mask := (2 ^ l - 1) * 2 ^ p
  (u ^^^ (u &&& mask)) ||| (b * 2 ^ p &&& mask)

/-- BPERM's result (R122). -/
def bpermOp (a b c : Nat) : Nat :=
  let src := a + 2 ^ 32 * b
  (List.range 4).foldl (fun x i =>
    let nib := c / 2 ^ (4 * i) % 16
    let byte := src / 2 ^ (8 * (nib % 8)) % 256
    x + 2 ^ (8 * i) * (if 8 ≤ nib then (if 128 ≤ byte then 255 else 0) else byte)) 0

/-- A compare that writes a predicate (R124). -/
def State.cmpOp (s : State) (f : Fld) : Out :=
  let w := f.wide
  s.perThread f w w 0 .pred fun i => .ok (if intCond f.sub w i.a i.b then 1 else 0, 0)

/-- PLOP: bit 2a + b of the table (R78, R125). -/
def State.plopOp (s : State) (f : Fld) : Out :=
  s.perThread f 32 32 0 .pred fun i => .ok (f.sub / 2 ^ (2 * (i.a % 2) + i.b % 2) % 2, 0)

/-- MOV: the source under its type (R126). -/
def State.movOp (s : State) (f : Fld) : Out :=
  let n := tiBits f.sub
  s.perThread f 0 n 0 (.regs (tiWords f.sub)) fun i => .ok (putTI f.sub false (srcTI f.sub i.b), 0)

/-- MOVK: thread j's entry of A (R127). -/
def State.movkOp (s : State) (f : Fld) : Out :=
  s.perThread f 0 32 0 (.regs 1) fun i =>
    if i.band.width ≤ i.b then .error illOpnd
    else do return (← i.band.readOpnd i.fresh i.b f.a 32 (4 + i.t), 0)

/-- LEA: A plus the scaled index (R128). -/
def State.leaOp (s : State) (f : Fld) : Out :=
  s.perThread f 64 32 0 (.regs 2) fun i =>
    let idx : Int := if bitOf f.w2 12 then signed i.b 32 else ((i.b : Nat) : Int)
    .ok (wrap (((i.a : Nat) : Int) + idx * (2 : Int) ^ (bits f.w2 11 9)) 64, 0)

/-! ### The instructions -/

/-- IADD (R116). -/
def execIadd (f : FormS) (s : State) : Out := s.intOp (viewS f) (· + ·)
def execIaddX (f : XL) (s : State) : Out := s.intOp (viewXL f) (· + ·)
/-- ISUB (R116). -/
def execIsub (f : FormS) (s : State) : Out := s.intOp (viewS f) (· - ·)
def execIsubX (f : XL) (s : State) : Out := s.intOp (viewXL f) (· - ·)
/-- IADDC (R117). -/
def execIaddc (f : FormS) (s : State) : Out := s.carryOp (viewS f)
def execIaddcX (f : XL) (s : State) : Out := s.carryOp (viewXL f)
/-- IMUL (R116). -/
def execImul (f : FormS) (s : State) : Out := s.intOp (viewS f) (· * ·)
def execImulX (f : XL) (s : State) : Out := s.intOp (viewXL f) (· * ·)
/-- IMULH: the upper n bits of the product (R116). -/
def execImulh (f : FormS) (s : State) : Out :=
  s.intOp (viewS f) fun a b => a * b / (2 : Int) ^ tiBits f.m.toNat
def execImulhX (f : XL) (s : State) : Out :=
  s.intOp (viewXL f) fun a b => a * b / (2 : Int) ^ tiBits (viewXL f).sub
/-- IMAD: one exact result (R116). -/
def execImad (f : XL) (s : State) : Out :=
  let v := viewXL f
  let n := tiBits v.sub
  s.perThread v n n n (.regs (tiWords v.sub)) fun i =>
    .ok (putTI v.sub v.sat (srcTI v.sub i.a * srcTI v.sub i.b + srcTI v.sub i.c), 0)
/-- IDIV (R116). -/
def execIdiv (f : FormS) (s : State) : Out := s.intOp (viewS f) (idivOp (viewS f).sub)
def execIdivX (f : XL) (s : State) : Out := s.intOp (viewXL f) (idivOp (viewXL f).sub)
/-- IREM (R116). -/
def execIrem (f : FormS) (s : State) : Out := s.intOp (viewS f) iremOp
def execIremX (f : XL) (s : State) : Out := s.intOp (viewXL f) iremOp
/-- IMIN, IMAX (R116). -/
def execImin (f : FormS) (s : State) : Out := s.intOp (viewS f) min
def execIminX (f : XL) (s : State) : Out := s.intOp (viewXL f) min
def execImax (f : FormS) (s : State) : Out := s.intOp (viewS f) max
def execImaxX (f : XL) (s : State) : Out := s.intOp (viewXL f) max
/-- AND, OR, XOR, ANDN (R118). -/
def execAnd (f : FormS) (s : State) : Out := s.bitOp (viewS f) (· &&& ·)
def execAndX (f : XL) (s : State) : Out := s.bitOp (viewXL f) (· &&& ·)
def execOr (f : FormS) (s : State) : Out := s.bitOp (viewS f) (· ||| ·)
def execOrX (f : XL) (s : State) : Out := s.bitOp (viewXL f) (· ||| ·)
def execXor (f : FormS) (s : State) : Out := s.bitOp (viewS f) (· ^^^ ·)
def execXorX (f : XL) (s : State) : Out := s.bitOp (viewXL f) (· ^^^ ·)
def execAndn (f : FormS) (s : State) : Out := s.bitOp (viewS f) fun a b => a ^^^ (a &&& b)
def execAndnX (f : XL) (s : State) : Out := s.bitOp (viewXL f) fun a b => a ^^^ (a &&& b)
/-- NOT (R120). -/
def execNot (f : FormS) (s : State) : Out := s.unaryOp (viewS f) fun w a => 2 ^ w - 1 - a
def execNotX (f : FormX) (s : State) : Out := s.unaryOp (viewX f) fun w a => 2 ^ w - 1 - a
/-- IABS (R120). -/
def execIabs (f : FormS) (s : State) : Out := s.unaryOp (viewS f) fun w a => clampS w false ((signed a w).natAbs : Int)
def execIabsX (f : FormX) (s : State) : Out :=
  s.unaryOp (viewX f) fun w a => clampS w (viewX f).sat ((signed a w).natAbs : Int)
/-- INEG (R120). -/
def execIneg (f : FormS) (s : State) : Out := s.unaryOp (viewS f) fun w a => clampS w false (-(signed a w))
def execInegX (f : FormX) (s : State) : Out := s.unaryOp (viewX f) fun w a => clampS w (viewX f).sat (-(signed a w))
/-- POPC, CLZ, CTZ (R120). -/
def execPopc (f : FormS) (s : State) : Out := s.countOp (viewS f) popcOp
def execPopcX (f : FormX) (s : State) : Out := s.countOp (viewX f) popcOp
def execClz (f : FormS) (s : State) : Out := s.countOp (viewS f) clzOp
def execClzX (f : FormX) (s : State) : Out := s.countOp (viewX f) clzOp
def execCtz (f : FormS) (s : State) : Out := s.countOp (viewS f) ctzOp
def execCtzX (f : FormX) (s : State) : Out := s.countOp (viewX f) ctzOp
/-- BREV (R120). -/
def execBrev (f : FormS) (s : State) : Out := s.unaryOp (viewS f) brevOp
def execBrevX (f : FormX) (s : State) : Out := s.unaryOp (viewX f) brevOp
/-- SHL, SHR, SHA, ROTL (R119). -/
def execShl (f : FormS) (s : State) : Out := s.shiftOp (viewS f) shlOp
def execShlX (f : XL) (s : State) : Out := s.shiftOp (viewXL f) shlOp
def execShr (f : FormS) (s : State) : Out := s.shiftOp (viewS f) shrOp
def execShrX (f : XL) (s : State) : Out := s.shiftOp (viewXL f) shrOp
def execSha (f : FormS) (s : State) : Out := s.shiftOp (viewS f) shaOp
def execShaX (f : XL) (s : State) : Out := s.shiftOp (viewXL f) shaOp
def execRotl (f : FormS) (s : State) : Out := s.shiftOp (viewS f) rotlOp
def execRotlX (f : XL) (s : State) : Out := s.shiftOp (viewXL f) rotlOp
/-- BFX (R121). -/
def execBfx (f : XL) (s : State) : Out :=
  let v := viewXL f
  s.perThread v (tiBits v.sub) 32 0 (.regs (tiWords v.sub)) fun i => .ok (putTI v.sub false (bfxOp v.sub i.a i.b), 0)
/-- BFI (R121). -/
def execBfi (f : XL) (s : State) : Out :=
  let v := viewXL f
  let n := tiBits v.sub
  s.perThread v n n 32 (.regs (tiWords v.sub)) fun i => .ok (bfiOp n i.a i.b i.c, 0)
/-- BPERM (R122). -/
def execBperm (f : XL) (s : State) : Out :=
  s.perThread (viewXL f) 32 32 32 (.regs 1) fun i => .ok (bpermOp i.a i.b i.c, 0)
/-- SEL (R123). -/
def execSel (f : XL) (s : State) : Out :=
  let v := viewXL f
  let n := tiBits v.sub
  s.perThread v n n 32 (.regs (tiWords v.sub)) fun i =>
    .ok (putTI v.sub false (srcTI v.sub (if i.c ≠ 0 then i.a else i.b)), 0)
/-- ICMP (R124). -/
def execIcmp (f : FormS) (s : State) : Out := s.cmpOp (viewS f)
def execIcmpX (f : XL) (s : State) : Out := s.cmpOp (viewXL f)
/-- PLOP (R125); in Form S the sources name predicates (R68). -/
def execPlop (f : FormS) (s : State) : Out :=
  s.plopOp { viewS f with a := .p (f.a.toNat % 8), b := .p (f.b.toNat % 8) }
def execPlopX (f : FormX) (s : State) : Out := s.plopOp (viewX f)
/-- LEA (R128). -/
def execLea (f : XL) (s : State) : Out := s.leaOp (viewXL f)
/-- MOV (R126). -/
def execMov (f : FormS) (s : State) : Out := s.movOp (viewS f)
def execMovX (f : XL) (s : State) : Out := s.movOp (viewXL f)
/-- MOVK (R127). -/
def execMovk (f : FormS) (s : State) : Out := s.movkOp (viewS f)
def execMovkX (f : FormX) (s : State) : Out := s.movkOp (viewX f)
/-- LDI: IMM16 sign-extended (R126). -/
def execLdi (f : FormI) (s : State) : Out :=
  s.perThread (viewI f) 0 0 0 (.regs 1) fun _ => .ok (wrap (signed f.imm.toNat 16) 32, 0)
/-- LDI with a literal: literal [31:0] (R126). -/
def execLdiLiteral (f : FormI) (lit : BitVec 64) (s : State) : Out :=
  s.perThread (viewI f) 0 0 0 (.regs 1) fun _ => .ok (lit.toNat % 2 ^ 32, 0)

end Sys2Proof.Machine
end

