-- ==== Sys2Proof/Machine/Notify.lean ====
section
/-!
DEFINITION. Sys2Proof/Machine/Notify.lean: queue control blocks and their updates (R362, R384), notifies (R363) and the device
notify window (R363, R367).
-/
namespace Sys2Proof.Machine

/-! ### Queue control blocks (R362, R384) -/

/-- The device serves nothing: FATAL (R485), or a warm reset is under way (R490). -/
def State.frozen (s : State) : Bool := s.fatal || s.warm

def State.queue (s : State) (q : Nat) : Queue := Tbl.get s.queues q {}
def State.setQueue (s : State) (q : Nat) (v : Queue) : State := { s with queues := Tbl.put s.queues q v }

/-- The end of an update: SEQ even (R384). -/
def Queue.finishUpdate (q : Queue) : Queue :=
  if q.primary.seq % 2 = 1 then { q with primary := { q.primary with seq := (q.primary.seq + 1) % 2 ^ 32 } } else q

/-- The start of an update: the shadow takes the primary, SEQ becomes odd, and the changed fields are written (R384). -/
def Queue.beginUpdate (q : Queue) (f : Qcb → Qcb) : Queue :=
  let q1 := q.finishUpdate
  { q1 with shadow := q1.primary, primary := { f q1.primary with seq := (q1.primary.seq + 1) % 2 ^ 32 } }

/-- A whole update. -/
def Queue.update (q : Queue) (f : Qcb → Qcb) : Queue := (q.beginUpdate f).finishUpdate

/-- The packets notified and not yet read (R365). -/
def Qcb.ahead (q : Qcb) : Nat := (q.nidx + 2 ^ 32 - q.ridx % 2 ^ 32) % 2 ^ 32

/-- An IDLE queue with packets to read becomes pending for a slot (R364). -/
def Queue.settle (q : Queue) (now : Nat) : Queue :=
  if q.pending.isNone && q.primary.state = 1 && 32 ≤ q.primary.qslot && q.primary.ahead ≠ 0 then { q with pending := some now } else q

/-- The extended index one past the packet that halted a queue. -/
def Qcb.pastHalt (q : Qcb) : Nat :=
  let back := (q.ridx + 2 ^ 32 - q.hidx) % 2 ^ 32
  if back < 2 ^ 31 then q.ridx - back + 1 else q.ridx + (2 ^ 32 - back) + 1

/-! ### Notifies (R363) -/

/-- A notify: an IDX that lies ahead moves NIDX; RESUME takes a HALTED queue past the packet that halted it. -/
def Qcb.notify (q : Qcb) (idx : Option Nat) (resume : Bool) : Qcb :=
  let q1 : Qcb := if resume && q.state = 3 then { q with state := 1, ridx := q.pastHalt } else q
  match idx with
  | some i =>
    let d := (i % 2 ^ 32 + 2 ^ 32 - q.nidx) % 2 ^ 32
    if 1 ≤ d && d < 2 ^ 31 then { q1 with nidx := i % 2 ^ 32 } else q1
  | none => q1

/-- A write of a queue's notify register; one to a DISABLED queue is ignored. -/
def State.notify (s : State) (q : Nat) (idx : Option Nat) (resume : Bool) : State :=
  match Tbl.find? s.queues q with
  | none => s
  | some x =>
    if x.primary.state = 0 then s
    else
      let y := x.primary.notify idx resume
      let halted := resume && decide (x.primary.state = 3)
      if y = x.primary then s.setQueue q { x with emptyAt := none }
      else s.setQueue q ({ x.update (fun p => p.notify idx resume) with
        emptyAt := none, header := if halted then none else x.header, waiting := if halted then false else x.waiting }.settle s.fresh)

/-- An aligned write of 8 bytes of the notify register of a queue: the halves written, and their value. -/
def State.notifyWrite (s : State) (q : Nat) (low high : Bool) (v : Nat) : State :=
  if bits v 62 32 ≠ 0 then s else s.notify q (if low then some (v % 2 ^ 32) else none) (high && bitOf v 63)

/-! ### The device notify window (R363, R367) -/

/-- Where the window lies within the host half. -/
def windowOffset : Nat := 65536 * (Config.notifyBase % 2 ^ 35)

/-- The intermediate address of the window's first byte: NWBASE, in the host half, 64 KiB aligned. -/
def windowBase : Nat := 2 ^ 51 + windowOffset

/-- Whether an intermediate address lies in the window. -/
def inWindow (ia : Nat) : Bool := decide (windowBase ≤ ia) && decide (ia < windowBase + 65536)

/-- Whether a line of the window holds FLPOP and FLPUSH. -/
def listLine (line : Nat) : Bool := decide (line = windowBase + 0xF000)

/-- The bytes of a write at a window line, 8 at a time: the register's offset, which halves were written, and the value. -/
def windowGroups (line : Nat) (l : Tbl Byte) : List (Nat × Bool × Bool × Nat) :=
  (List.range 8).filterMap fun g =>
    let at' (i : Nat) : Option Byte := Tbl.find? l (8 * g + i)
    let low := (List.range 4).any fun i => (at' i).isSome
    let high := (List.range 4).any fun i => (at' (4 + i)).isSome
    if low || high then
      some (line - windowBase + 8 * g, low, high, (List.range 8).foldl (fun x i => x + ((at' i).getD 0).toNat * 2 ^ (8 * i)) 0)
    else none

/-- A write performed at a window line: notifies, and segments added to the free list by an 8-byte store at FLPUSH; every other
offset ignores it. -/
def State.windowWrite (s : State) (line : Nat) (l : Tbl Byte) : State :=
  (windowGroups line l).foldl (fun (s : State) g =>
    if g.1 < 0x2000 then s.notifyWrite (g.1 / 8) g.2.1 g.2.2.1 g.2.2.2
    else if g.1 = 0xF008 && (List.range 8).all (fun i => (Tbl.find? l (8 + i)).isSome) then { s with freeSegs := s.freeSegs ++ [g.2.2.2] }
    else s) s

end Sys2Proof.Machine
end

