-- ==== Sys2Proof/Machine/Fabric.lean ====
section
/-!
DEFINITION. Sys2Proof/Machine/Fabric.lean: the parts of the visibility machine (R279 to R299) as operations: agents, lanes and
translation at a port, L1 lines, home slices and holders, watch events, the completion of an access, and the steps of a
release and an acquire.
-/
namespace Sys2Proof.Machine

/-! ### Agents, lanes, homes (R280, R284) -/

/-- The I/O die as an agent of the fabric; cores are agents 0 to 383. -/
def agentIO : Nat := 900
/-- The tile copy unit of a cluster as an agent. -/
def agentCopy (cluster : Nat) : Nat := 1000 + cluster
/-- The matrix engine of a cluster as an agent. -/
def agentEngine (cluster : Nat) : Nat := 1100 + cluster
/-- The parameter node of a die as an agent. -/
def agentNode (die : Nat) : Nat := 1200 + die
/-- The home slice of a physical line, among the four of the core whose channel holds it (R280). -/
def agentSlice (linePA : Nat) : Nat := 2000 + 4 * (linePA / 2 ^ 40 % 4 * 96 + linePA / 2 ^ 30 % 1024) + Config.homeSlice linePA % 4

/-- The fabric lane of an intermediate address (R280). -/
def laneOf (ia : Nat) : Nat :=
  (List.range 11).foldl (fun x i => x ^^^ (ia / 2 ^ (6 + 4 * i) % 16)) (ia / 2 ^ 50 % 4)

/-- Whether an intermediate address lies in the host half (R421). -/
def isHost (ia : Nat) : Bool := bitOf ia 51

/-- The 64 B line of an address. -/
def lineOf (a : Nat) : Nat := a / 64 * 64

/-- A message put at the end of its queue. -/
def State.send (s : State) (src dst lane : Nat) (b : Body) : State :=
  { s with msgs := s.msgs ++ [{ id := s.nextId, src := src, dst := dst, lane := lane, body := b }], nextId := s.nextId + 1 }

/-! ### Translation at a port (R425, R426) -/

/-- What a walk of the device page table finds: a frame of 64 KiB, an unmapped page, or an entry of a wrong form at a level
(PTEBAD, also treated as not mapped). -/
inductive Walk where
  | frame (pa : Nat)
  | unmapped
  | bad (level : Nat)
  deriving DecidableEq, Repr

/-- One level of the walk: the table's address, the index and the kinds allowed there. -/
def walkLevel (m : Memory) (tbl ia level : Nat) : Walk × Nat :=
  let idx := match level with
    | 0 => bits ia 50 39
    | 1 => bits ia 38 30
    | 2 => bits ia 29 21
    | _ => bits ia 20 16
  let e := Memory.read m (placePA (tbl + 8 * idx)) 8
  let kind := bits e 62 61
  let addr := bits e 41 12 * 4096
  if !bitOf e 63 then (.unmapped, 0)
  else if bits e 60 42 ≠ 0 || bits e 11 0 ≠ 0 || 95 < addr / 2 ^ 30 % 1024 then (.bad level, 0)
  else if kind = 0 && level < 3 then (.unmapped, addr + 1)
  else if kind = 1 && level = 2 then
    if addr % 2 ^ 21 = 0 then (.frame (addr + bits ia 20 16 * 65536), 0) else (.bad level, 0)
  else if kind = 2 && level = 3 then if addr % 65536 = 0 then (.frame addr, 0) else (.bad level, 0)
  else (.bad level, 0)

/-- The walk from a level, `n` levels at most (R425). -/
def walkFrom (m : Memory) (ia : Nat) : Nat → Nat → Nat → Walk
  | 0, _, _ => .unmapped
  | n + 1, tbl, level =>
    match walkLevel m tbl ia level with
    | (.unmapped, 0) => .unmapped
    | (.unmapped, next + 1) => walkFrom m ia n next (level + 1)
    | (w, _) => w

/-- The walk of an intermediate address of the device half. -/
def State.walk (s : State) (ia : Nat) : Walk := walkFrom s.mem ia 4 s.dptbase 0

/-- The 64 KiB page number of an intermediate address. -/
def pageOf (ia : Nat) : Nat := ia / 65536

/-- The translation that a unit's port holds for an intermediate address; host addresses need an ATS translation with the
permission (R427), but for the notify window, which the I/O die claims (R363). -/
def State.cached (s : State) (tlbUnit ia : Nat) (write : Bool) : Option Nat :=
  if inWindow ia then some ia
  else if isHost ia then
    match Tbl.find? s.atc (ia / 4096) with
    | some p => if bitOf p (if write then 1 else 0) then some ia else none
    | none => none
  else (Tbl.find? (Tbl.get s.tlbs tlbUnit []) (pageOf ia)).map fun f => f + ia % 65536

/-- Whether the page of an intermediate address is mapped, as a walk or the host's tables stand. -/
def State.mapped (s : State) (ia : Nat) (write : Bool) : Bool :=
  if isHost ia then (s.cached agentIO ia write).isSome else match s.walk ia with | .frame _ => true | _ => false

/-- The address that a unit reaches: through its cache, or by a walk made for it. -/
def State.portPA (s : State) (tlbUnit ia : Nat) (write : Bool) : Option Nat :=
  match s.cached tlbUnit ia write with
  | some pa => some pa
  | none => if isHost ia then none else match s.walk ia with | .frame f => some (f + ia % 65536) | _ => none

/-- Something sent to the host or the driver. -/
def State.emit (s : State) (l : List Nat) : State := { s with outbox := s.outbox ++ [l] }

/-- An MSI-X message of a vector: sent, or pending while the vector is masked (R465). -/
def State.msix (s : State) (vec : Nat) : State :=
  let m := Tbl.get s.msixTab vec (0, 0, 1)
  if m.2.2 % 2 = 0 then s.emit [3, vec, m.1, m.2.1]
  else { s with msixPend := if s.msixPend.contains vec then s.msixPend else s.msixPend ++ [vec] }

/-- The number under which a page is asked for. -/
def askOf (ia : Nat) : Nat := if isHost ia then 2 ^ 60 + ia / 4096 else pageOf ia

/-- An ATS translation request for a host-half page (R427). -/
def State.askHost (s : State) (ia write : Nat) : State :=
  { s with atc := Tbl.put s.atc (ia / 4096) 4 }.emit [10, ia / 4096, write]

/-- Whether ATS has answered for a host-half page without the permission needed (R427). -/
def State.hostRefused (s : State) (ia : Nat) (write : Bool) : Bool :=
  match Tbl.find? s.atc (ia / 4096) with
  | some p => p ≠ 4 && !bitOf p (if write then 1 else 0)
  | none => false

/-- A page request, made once while it is open (R427): to the driver's fault queue with MSI-X vector 1 for the device half, a PRI
Page Request for the host half after ATS has refused it: kind code, IA, CTXID, access kind. -/
def State.pageRequest (s : State) (ia ctx write : Nat) : State :=
  if s.pageAsks.contains (askOf ia) then s
  else if !isHost ia then ({ s with pageAsks := s.pageAsks ++ [askOf ia] }.emit [1, ia, ctx, write]).msix 1
  else if s.hostRefused ia (write = 1) then { s with pageAsks := s.pageAsks ++ [askOf ia] }.emit [2, ia, ctx, write]
  else if (Tbl.find? s.atc (ia / 4096)).isNone then s.askHost ia write
  else s

/-! ### Shoot-downs in force, and a unit's reach (R424, R431) -/

/-- Whether a shoot-down names an intermediate address, or a context. -/
def Shoot.names (p : Shoot) (ia ctx : Nat) : Bool := if p.kind = 2 then p.ctx = ctx else decide (p.lo ≤ ia) && decide (ia ≤ p.hi)

/-- Whether a shoot-down in force at a node, a die or the I/O die, holds new accesses to an intermediate address (R431). -/
def State.shootHolds (s : State) (node ia ctx : Nat) : Bool := s.shoots.any fun p => p.2.begun.contains node && p.2.names ia ctx

/-- Whether a shoot-down in force at some node does. -/
def State.shootAny (s : State) (ia ctx : Nat) : Bool := s.shoots.any fun p => !p.2.begun.isEmpty && p.2.names ia ctx

/-- The node whose ports a unit uses: its die, or 4 for the I/O die. -/
def unitNode (u : Nat) : Nat :=
  if u < 384 then coreDie u else if u < 1000 then 4 else if u < 1100 then clusterDie (u - 1000) else if u < 1200 then clusterDie (u - 1100)
  else if u < 2000 then u - 1200 else 4

/-- The range set that a unit uses for a context: its cached one, or the table's (R424). -/
def State.unitRanges (s : State) (u ctx : Nat) : List RangeReg := (Tbl.find? s.rcaches (u * 4096 + ctx)).getD (s.ctxRanges ctx)

/-- Where a global access of a unit leads: its range fails, its page is not mapped or is held, or a translation. -/
inductive Reach where
  | bad
  | wait (ia : Nat)
  | at (ia pa : Nat)
  deriving DecidableEq, Repr

/-- A global access of a unit through the range set of a context and its port (R423, R426). -/
def State.reach (s : State) (u ctx va : Nat) (need : Need) (write : Bool) : Reach :=
  match translate (s.unitRanges u ctx) need va with
  | none => .bad
  | some ia =>
    if s.shootHolds (unitNode u) ia ctx then .wait ia
    else match s.portPA u ia write with
      | some pa => .at ia pa
      | none => .wait ia

/-- The first byte of [va, va + n), by a context's ranges, whose page is not mapped or is held: its intermediate address. -/
def State.firstUnmapped (s : State) (ctx va : Nat) (need : Need) (write : Bool) : Nat → Option Nat
  | 0 => none
  | n + 1 =>
    match translate (s.ctxRanges ctx) need va with
    | some ia => if s.mapped ia write && !s.shootAny ia ctx then s.firstUnmapped ctx ((va + 1) % 2 ^ 64) need write n else some ia
    | none => s.firstUnmapped ctx ((va + 1) % 2 ^ 64) need write n

/-! ### L1 lines (R198, R285, R286) -/

/-- The line of the L1 that holds an address; an absent line is empty. -/
def Core.line (c : Core) (ia : Nat) : Line := Tbl.get c.l1 (lineOf ia) {}

/-- A core's line set; a line without valid bytes is removed. -/
def Core.setLine (c : Core) (ia : Nat) (l : Line) : Core :=
  { c with l1 := if l.bytes.isEmpty then Tbl.del c.l1 (lineOf ia) else Tbl.put c.l1 (lineOf ia) l }

/-- Whether the L1, of 256 sets of 16 ways, holds a line or has a way for it (R12). -/
def Core.hasWay (c : Core) (ia : Nat) : Bool :=
  decide (c.l1.length < 16) || (Tbl.find? c.l1 (lineOf ia)).isSome
    || decide ((c.l1.filter fun p => Config.l1Set p.1 % 256 = Config.l1Set (lineOf ia) % 256).length < 16)

/-- The dirty bytes of a sector, with their values. -/
def Line.dirtyBytes (l : Line) (sector : Nat) : Tbl Byte := l.bytes.filter fun p => p.1 / 16 = sector && l.dirty.contains p.1

/-- Whether a sector is dirty. -/
def Line.dirtySector (l : Line) (sector : Nat) : Bool := l.dirty.any (· / 16 = sector)

/-- The line with a sector's bytes invalid. -/
def Line.dropSector (l : Line) (sector : Nat) : Line :=
  { l with bytes := l.bytes.filter fun p => p.1 / 16 ≠ sector, dirty := l.dirty.filter fun o => o / 16 ≠ sector,
           filled := Tbl.del l.filled sector, dirtied := Tbl.del l.dirtied sector }

/-- The line with its clean sectors invalid (M8, M12). -/
def Line.dropClean (l : Line) : Line := [0, 1, 2, 3].foldl (fun l k => if l.dirtySector k then l else l.dropSector k) l

/-- The line with a sector clean. -/
def Line.cleanSector (l : Line) (sector : Nat) : Line :=
  { l with dirty := l.dirty.filter fun o => o / 16 ≠ sector, dirtied := Tbl.del l.dirtied sector }

/-- The tag after a store, write-through or fill of a scope (R286). -/
def Line.retag (l : Line) (scope : Nat) (fill : Bool) : Nat :=
  if l.dirty.isEmpty then scope else if fill then l.tag else min l.tag scope

/-- The in-flight reads of a core whose line is the given one marked with bytes that left the core as a write: they take
precedence over the response (log entry 24). -/
def State.passOver (s : State) (core ia : Nat) (l : Tbl Byte) : State :=
  { s with iq := s.iq.map fun a =>
      if a.core = core && a.sent && lineOf a.addr = lineOf ia then { a with newer := l.foldl (fun t p => Tbl.put t p.1 p.2) a.newer } else a }

/-- A line of a core, and its reads in flight there, are behind: a write of another agent of the cluster has passed them (log entry 26). -/
def State.passLine (s : State) (core ia : Nat) : State :=
  let s1 : State := if (Tbl.find? (s.core core).l1 (lineOf ia)).isNone then s
    else s.modCore core fun c => c.setLine ia { c.line ia with behind := true }
  { s1 with iq := s1.iq.map fun a => if a.core = core && a.sent && lineOf a.addr = lineOf ia then { a with behind := true } else a }

/-- The in-flight reads of a core for a line serve their own load only (log entry 24). -/
def State.staleReads (s : State) (core ia : Nat) : State :=
  { s with iq := s.iq.map fun a => if a.core = core && a.sent && lineOf a.addr = lineOf ia then { a with stale := true } else a }

/-- A write sent into the fabric from a core toward the home of a line: to the slice, or to the I/O die. -/
def State.sendWrite (s : State) (core ia pa : Nat) (l : Tbl Byte) (tag band gid thread : Nat) : State :=
  let dst := if isHost ia then agentIO else agentSlice (lineOf pa)
  (s.passOver core ia l).send core dst (laneOf ia) (.write (lineOf ia) (lineOf pa) l tag band gid thread)

/-- The dirty bytes of one sector leave a core as one write, and the sector becomes clean (M7); siblings are not touched. -/
def State.flushSector (s : State) (core ia sector : Nat) : State :=
  let l := (s.core core).line ia
  if l.dirtySector sector then
    (s.modCore core fun c => c.setLine ia (l.cleanSector sector)).sendWrite core ia l.pa (l.dirtyBytes sector) l.tag 0 0 0
  else s

/-- Every dirty sector of a core's line leaves as a write. -/
def State.flushLine (s : State) (core ia : Nat) : State := [0, 1, 2, 3].foldl (fun s k => s.flushSector core ia k) s

/-- The other three cores of a core's cluster. -/
def siblings (core : Nat) : List Nat := (clusterCores (coreCluster core)).filter (· ≠ core)

/-- A line dropped from an L1: dirty sectors first leave as write-backs, then every sector becomes invalid (R285). -/
def State.dropLine (s : State) (core ia : Nat) : State :=
  let s1 := (s.flushLine core ia).passLine core ia
  s1.modCore core fun c => { c with l1 := Tbl.del c.l1 (lineOf ia) }

/-- The drop from the other three L1s of the cluster (M5, M6, M7). -/
def State.dropSiblings (s : State) (core ia : Nat) : State := (siblings core).foldl (fun s c => s.dropLine c ia) s

/-- The drop from the four L1s of a cluster (R296). -/
def State.dropCluster (s : State) (cluster ia : Nat) : State := (clusterCores cluster).foldl (fun s c => s.dropLine c ia) s

/-- The clean sectors of a line become invalid in one L1 (M12, R329); reads of it in flight there are dropped as they fill. -/
def State.dropClean (s : State) (core ia : Nat) : State :=
  (s.staleReads core ia).modCore core fun c => c.setLine ia ((c.line ia).dropClean)

/-- M7 of one sector: the write and the drop from the siblings. -/
def State.writeBack (s : State) (core ia sector : Nat) : State :=
  if ((s.core core).line ia).dirtySector sector then (s.flushSector core ia sector).dropSiblings core ia else s

/-- Bytes placed in a line as dirty or clean, with the cycle of each sector (R198, R344). -/
def Line.place (l : Line) (off : Nat) (v : List Byte) (dirty : Bool) (now : Nat) : Line :=
  let ps := v.zipIdx.map fun p => (off + p.2, p.1)
  let secs := (ps.map fun p => p.1 / 16).eraseDups
  { l with
    bytes := ps.foldl (fun t p => Tbl.put t p.1 p.2) l.bytes
    dirty := if dirty then l.dirty ++ (ps.map (·.1)).filter (!l.dirty.contains ·) else l.dirty
    filled := if dirty then l.filled else secs.foldl (fun t k => Tbl.put t k now) l.filled
    dirtied := if dirty then secs.foldl (fun t k => if (Tbl.find? t k).isSome then t else Tbl.put t k now) l.dirtied else l.dirtied }

/-! ### Threads woken (R270) -/

/-- A waiting thread goes on: STATE 0, or 4 in a halted band, with its PC advanced by a length (R270). -/
def Band.wake (b : Band) (t len : Nat) : Band :=
  b.modThread t fun th =>
    { th with state := if b.halted then .halted else .ready, pc := (th.pc + len) % 65536, park := .none }

/-- The event bits of a thread cleared in every line of the watch set (R214). -/
def Band.clearEvents (b : Band) (t : Nat) : Band :=
  { b with watches := b.watches.map fun w => { w with events := if bitOf w.events t then w.events - 2 ^ t else w.events } }

/-- Whether some event bit of a thread is set (R214). -/
def Band.hasEvent (b : Band) (t : Nat) : Bool := b.watches.any fun w => bitOf w.events t

/-- The threads parked at a WAITW whose event bit is set go on (R214). -/
def Band.wakeWatchers (b : Band) : Band :=
  (List.range b.threads.length).foldl (fun b t =>
    match (b.thread t).state, (b.thread t).park with
    | .onWatch, .waitw _ len => if b.hasEvent t then (b.clearEvents t).wake t len else b
    | _, _ => b) b

/-- Every thread parked by the loop watch unit wakes at the loop's top, and the tracker resets (R331). -/
def Band.wakeLoop (b : Band) : Band :=
  let b1 := (List.range b.threads.length).foldl (fun b t =>
    match (b.thread t).state, (b.thread t).park with
    | .onWatch, .loop _ => b.wake t 0
    | _, _ => b) b
  b1.resetTracker

/-- Whether some thread of a band is parked by the loop watch unit. -/
def Band.loopParked (b : Band) : Bool :=
  b.threads.any fun th => match th.state, th.park with | .onWatch, .loop _ => true | _, _ => false

/-- The name of a global line and of a line of a team's scratchpad allocation, by its offset (R188, R326). -/
def nameGlobal (ia : Nat) : Nat := lineOf ia
def nameScratch (off : Nat) : Nat := 2 ^ 63 + lineOf off

/-- Every event bit of a line's entry set (R213). -/
def Band.markEvents (b : Band) (name : Nat) : Band :=
  { b with watches := b.watches.map fun w =>
      if w.name = name && w.marked then { w with events := 2 ^ b.width - 1 } else w }

/-- An event on a marked line, for one band (R213, R329, R331); a band that is being saved records none (R340). -/
def State.watchBand (s : State) (k name : Nat) : State :=
  match s.band? k with
  | none => s
  | some b => if b.stop.isSome && s.isSaving b.flight b.team then s else
    let armed := b.tracker.armed && b.tracker.alines.contains name
    let b1 := (b.markEvents name).wakeWatchers
    let b2 : Band := if armed then { b1 with tracker := { b1.tracker with ev := true } } else b1
    let b3 := if armed && b2.loopParked then b2.wakeLoop else b2
    let woken := ((List.range b.threads.length).filter fun t => (b.thread t).state = .onWatch && (b3.thread t).state ≠ .onWatch).length
    let s1 := (s.setBand k b3).count (keyCore k) 5 woken
    if armed && name < 2 ^ 63 then s1.dropClean (keyCore k) name else s1

/-- An event on a global line, from any agent (R213). -/
def State.watchGlobal (s : State) (ia : Nat) : State :=
  (Tbl.keys s.bands).foldl (fun s k => s.watchBand k (nameGlobal ia)) s

/-- The name that a cluster's scratchpad line has for the band at a slot: its team's allocation holds it. -/
def State.scratchLine (s : State) (k cluster off : Nat) : Option Nat :=
  match s.band? k with
  | none => none
  | some b =>
    let a := s.alloc b
    if coreCluster (keyCore k) = cluster ∧ a.1 ≤ off ∧ off < a.1 + a.2 then some (nameScratch (off - a.1)) else none

/-- An event on a scratchpad line of a cluster (R213). -/
def State.watchScratch (s : State) (cluster off : Nat) : State :=
  (Tbl.keys s.bands).foldl (fun s k => match s.scratchLine k cluster off with | some n => s.watchBand k n | none => s) s

/-! ### Home slices (M10) -/

/-- The recorded holders of a physical line. -/
def State.holdersOf (s : State) (pa : Nat) : List (Nat × Nat) := Tbl.get s.holders (lineOf pa) []

/-- Holders set; an empty list is no entry. -/
def State.setHolders (s : State) (pa : Nat) (l : List (Nat × Nat)) : State :=
  { s with holders := if l.isEmpty then Tbl.del s.holders (lineOf pa) else Tbl.put s.holders (lineOf pa) l }

/-- An invalidation to every recorded holder of a line except the writer, and the holders cleared (M10). -/
def State.invalidate (s : State) (pa : Nat) (writer : Option Nat) : State :=
  let others := (s.holdersOf pa).filter fun h => writer ≠ some h.1
  let s1 := others.foldl (fun s h => s.send (agentSlice (lineOf pa)) h.1 (laneOf h.2) (.inv h.2)) s
  s1.setHolders pa []

/-- The copies of a line in the L1s of a cluster but one core's are behind once a write of the cluster is performed (log entry 26). -/
def State.passPeers (s : State) (cluster : Nat) (self : Option Nat) (ia : Nat) : State :=
  ((clusterCores cluster).filter fun c => some c ≠ self).foldl (fun s c => s.passLine c ia) s

/-- A sector of device memory as poison names it, and one of a weight store (R483). -/
def sectorOf (pa : Nat) : Nat := pa / 16
def sectorWst (die index : Nat) : Nat := 2 ^ 60 + die * 2 ^ 30 + index / 16

/-- The location code of the poison that n bytes of device memory meet. -/
def State.poisonAt (s : State) (pa n : Nat) : Option Nat := (List.range n).findSome? fun i => Tbl.find? s.poison (sectorOf (pa + i))

/-- A store of whole sectors clears their poison (R483). -/
def State.clearPoison (s : State) (pa : Nat) (l : Tbl Byte) : State :=
  if s.poison.isEmpty then s
  else { s with poison := s.poison.filter fun p => !(List.range 16).all fun i => l.any fun q => pa + q.1 = 16 * p.1 + i }

/-- The counts of a barrier record that some program has written otherwise than by BARI, EXPECT, ARRIVED and PHASE, hold undefined values
(R257; log entry 115). -/
def State.spoilRecord (s : State) (place : Nat) : State := { s with mem := Memory.write s.mem place 12 (Config.freeNat s.fresh place) }

/-- A program has written n bytes of global memory at an intermediate address: the barrier records there lose their counts (R257). -/
def State.spoilGlobal (s : State) (ia pa n : Nat) : State :=
  let refs := s.flights.flatMap fun p => p.2.bars.filter fun r => r.space = 0 && decide (r.addr < ia + n) && decide (ia < r.addr + 32) && !isHost ia
  refs.foldl (fun s r => s.spoilRecord (placePA (pa + r.addr - ia))) s

/-- A program has written n bytes of a cluster's scratchpad at an absolute offset: likewise. -/
def State.spoilScratch (s : State) (cluster off n : Nat) : State :=
  let bases := s.flights.flatMap fun p => p.2.bars.filterMap fun r => match Tbl.find? p.2.members r.team with
    | some t => match t.place with
      | .resident core _ base => if r.space = 1 && coreCluster core = cluster then some (base + r.addr) else none
      | _ => none
    | none => none
  (bases.filter fun a => decide (a < off + n) && decide (off < a + 32)).foldl (fun s a => s.spoilRecord (placeScratch cluster a)) s

/-- A write performed at the home of a line (M10): bytes at their offsets, invalidations, watch events; a host-half write
leaves as a posted write of the host port (R294, R463), but for one to the notify window (R363). -/
def State.sliceWrite (s : State) (ia pa : Nat) (l : Tbl Byte) (writer : Option Nat) : State :=
  if inWindow ia then s.windowWrite ia l
  else if isHost ia then s.emit (6 :: ia :: l.flatMap fun p => [p.1, p.2.toNat])
  else (({ s with mem := Memory.writeAt s.mem (placePA pa) l } : State).clearPoison pa l |>.invalidate pa writer).watchGlobal ia

/-- A write of firmware or of the I/O die, performed at the home of its line: n bytes of x at an intermediate address. -/
def State.agentWrite (s : State) (ia pa n x : Nat) : State := s.sliceWrite ia pa ((bytesOf x n).zipIdx.map fun p => (p.2, p.1)) none

/-- The cluster of a tile copy unit or a matrix engine. -/
def unitCluster (u : Nat) : Nat := if u < 1100 then u - 1000 else u - 1100

/-- A global write of a tile copy unit or an engine enters the fabric (R296): the line is dropped from the four L1s of the cluster, dirty
sectors leaving first, and a write-through of n bytes of x is on its way to its home, in the name of the unit's copy or entry. -/
def State.unitSend (s : State) (u ia pa n x owner : Nat) : State :=
  (s.dropCluster (unitCluster u) ia).send u (if isHost ia then agentIO else agentSlice (lineOf pa)) (laneOf ia)
    (.write (lineOf ia) (lineOf pa) ((bytesOf x n).zipIdx.map fun p => (ia % 64 + p.2, p.1)) 10 owner 0 0)

/-- An element of a tile copy with ROP enters the fabric likewise (R220, R296). -/
def State.unitSendRop (s : State) (u ia pa op n x owner : Nat) : State :=
  (s.dropCluster (unitCluster u) ia).send u (if isHost ia then agentIO else agentSlice (lineOf pa)) (laneOf ia) (.rop ia pa op n x owner)

/-- Where the units of an access of n bytes of a unit lead, with offset, size, intermediate and physical address; or the first that its
range refuses or that waits. -/
def State.places (s : State) (u ctx va : Nat) (need : Need) (write : Bool) : List (Nat × Nat) → Except Reach (List (Nat × Nat × Nat × Nat))
  | [] => .ok []
  | (o, k) :: r =>
    match s.reach u ctx ((va + o) % 2 ^ 64) need write, s.places u ctx va need write r with
    | .bad, _ => .error .bad
    | .at _ _, .error q => .error q
    | .at ia pa, .ok l => .ok ((o, k, ia, pa) :: l)
    | _, .error .bad => .error .bad
    | q, _ => .error q

/-- The units of a global write of a copy or an engine entry enter the fabric. -/
def State.unitStore (s : State) (u x owner : Nat) (ps : List (Nat × Nat × Nat × Nat)) : State :=
  ps.foldl (fun s p => s.unitSend u p.2.2.1 p.2.2.2 p.2.1 (x / 2 ^ (8 * p.1) % 2 ^ (8 * p.2.1)) owner) s

/-- Whether some write of a unit's copy or entry has not been performed yet (R296). -/
def State.unitFlying (s : State) (u owner : Nat) : Bool :=
  s.msgs.any fun m => decide (m.src = u) && match m.body with
    | .write _ _ _ tag o _ _ => decide (tag = 10) && decide (o = owner)
    | .rop _ _ _ _ _ o => decide (o = owner)
    | _ => false

/-- n bytes of host memory, as a read of this step finds them (log entry 9). -/
def hostBytes (fresh ia : Nat) : Nat → Nat
  | 0 => 0
  | n + 1 => (Config.hostByte fresh ia).toNat + 256 * hostBytes fresh (ia + 1) n

/-- A read at the home of a line, by an agent that bypasses the L1s; the registers of the notify window are write only and read as
zero (R4, R363). -/
def State.agentRead (s : State) (ia pa n : Nat) : Nat :=
  if isHost ia then (if inWindow ia then 0 else hostBytes s.fresh ia n) else Memory.read s.mem (placePA pa) n

/-- A write to a scratchpad of a cluster: n bytes of x at an absolute offset, as the bank performs it (M14, R299). -/
def State.scratchWrite (s : State) (cluster off n x : Nat) : State :=
  let s1 : State := { s with mem := Memory.write s.mem (placeScratch cluster off) n x }
  let s2 := s1.watchScratch cluster off
  if lineOf off = lineOf (off + n - 1) then s2 else s2.watchScratch cluster (off + n - 1)

/-- A read of a scratchpad of a cluster. -/
def State.scratchRead (s : State) (cluster off n : Nat) : Nat := Memory.read s.mem (placeScratch cluster off) n

/-! ### Firmware's accesses through a context's ranges (R423): byte by byte at the slices -/

/-- n bytes at a virtual address of a context, read at the slices: none where some byte has no translation. -/
def State.vaRead (s : State) (ctx va n : Nat) (need : Need) : Option Nat :=
  match n with
  | 0 => some 0
  | n + 1 =>
    match translate (s.ctxRanges ctx) need va with
    | none => none
    | some ia => match s.portPA agentIO ia false with
      | none => none
      | some pa => (s.vaRead ctx (va + 1) n need).map fun r => s.agentRead ia pa 1 + 256 * r

/-- The units of an access of n bytes of x at va written by firmware, each as one access at its home. -/
def State.vaUnits (s : State) (ctx va x : Nat) (need : Need) : List (Nat × Nat) → Option State
  | [] => some s
  | (o, k) :: r =>
    match translate (s.ctxRanges ctx) need ((va + o) % 2 ^ 64) with
    | none => none
    | some ia => match s.portPA agentIO ia true with
      | none => none
      | some pa => (s.agentWrite ia pa k (x / 2 ^ (8 * o) % 2 ^ (8 * k))).vaUnits ctx va x need r

/-- n bytes written at a virtual address of a context, at the slices, in the units of R191: none where some unit has no translation. -/
def State.vaWrite (s : State) (ctx va n x : Nat) (need : Need) : Option State :=
  if (firstFail (s.ctxRanges ctx) need va n).isSome then none else s.vaUnits ctx va x need (splitUnits va n)

/-! ### Completion of accesses (R193, R196) -/

/-- A thread's returned data written to its destination (R196, R199, R50); a thread that has ended meanwhile has no v register or
predicate to take it, and its band's k registers take it all the same. -/
def Band.land (b : Band) (g : Group) (t x : Nat) : Band :=
  match g.dest with
  | .none => b
  | .block _ => b
  | .v reg ti => if (b.thread t).state = .exited then b else b.writeGroup reg t (putTI ti false (srcTI ti x)) (tiWords ti)
  | .k reg ti =>
    if (g.left.map (·.1)).headD t = t then b.writeKGroup reg (putTI ti false (srcTI ti x)) (tiWords ti) else b
  | .pred p => if (b.thread t).state = .exited then b else b.writeP t p (x % 2 = 1)

/-- One unit of an access of a thread complete: n bytes of x at an offset of the access. -/
def Band.unitDone (b : Band) (gid t off n x : Nat) : Band :=
  match b.groups.find? fun g => g.gid = gid with
  | none => b
  | some g =>
    let left := Tbl.get g.left t 0
    let buf := Tbl.get g.buf t 0 + x % 2 ^ (8 * n) * 2 ^ (8 * off)
    let g' : Group := { g with left := Tbl.put g.left t (left - 1), buf := Tbl.put g.buf t buf }
    let keep := g'.open || match g.dest with | .block _ => true | _ => false
    let b1 : Band := { b with groups := if keep then b.groups.map fun h => if h.gid = gid then g' else h
                                        else b.groups.filter fun h => h.gid ≠ gid }
    let b2 := if left = 1 then b1.land g t buf else b1
    if g'.open then b2 else b2.prune []

/-- One unit complete for a thread, or for every thread of a merged contribution. -/
def State.unitDone (s : State) (k gid : Nat) (ts : List Nat) (off n x : Nat) : State :=
  s.modBand k fun b => ts.foldl (fun b t => b.unitDone gid t off n x) b

/-- The threads that an access unit serves. -/
def Acc.threads (a : Acc) : List Nat := if a.fan.isEmpty then [a.thread] else a.fan

/-- An access unit complete with its data. -/
def State.accDone (s : State) (a : Acc) (x : Nat) : State :=
  { s with iq := s.iq.filter fun b => b.id ≠ a.id }.unitDone a.band a.gid a.threads a.off a.size x

/-! ### Releases and acquires (R204, R289, R291) -/

/-- The invalidations on their way to a core that were sent before a message number. -/
def State.invsBefore (s : State) (core n : Nat) : List Nat :=
  (s.msgs.filter fun m => decide (m.dst = core) && decide (m.id < n) && match m.body with | .inv _ => true | _ => false).map (·.id)

/-- The invalidations on their way to a core. -/
def State.invsTo (s : State) (core : Nat) : List Nat :=
  (s.msgs.filter fun m => decide (m.dst = core) && match m.body with | .inv _ => true | _ => false).map (·.id)

/-- The writes and reductions of a core not yet performed at their slices. -/
def State.writesOf (s : State) (core : Nat) : List Nat :=
  (s.msgs.filter fun m => decide (m.src = core) && match m.body with
    | .write _ _ _ _ _ _ _ => true
    | .red _ _ _ _ _ _ _ _ _ => true
    | _ => false).map (·.id)

/-- Whether a core may start one more memory request: it has at most 1,024 outstanding, reads and atomics that have not returned and
writes that are not acknowledged (R12). -/
def State.mayRequest (s : State) (core : Nat) : Bool :=
  decide ((s.iq.filter fun a => decide (a.core = core) && a.sent).length
    + (s.msgs.filter fun m => match m.body with
        | .write _ _ _ _ _ gid _ => decide (m.src = core) && decide (gid ≠ 0)
        | .red _ _ _ _ _ _ _ gid _ => decide (m.src = core) && decide (gid ≠ 0)
        | .ack _ _ _ => decide (m.dst = core)
        | _ => false).length < 1024)

/-- Step 2 of R291 on a core: clean sectors of lines tagged narrower become invalid, host-half lines too at device scope or wider. With
it go, by M8, the clean copies that R292 lets no later load of the scope read: those behind a write of the cluster, and at die scope or
wider those that no slice has the core recorded for. Reads in flight that the same holds of are dropped by M8 as they fill (log entries
24 to 26). -/
def State.dropNarrow (s : State) (core scope : Nat) : State :=
  let drop (ia tag : Nat) (behind : Bool) : Bool := decide (tag < scope) || (decide (5 ≤ scope) && isHost ia) || (decide (2 ≤ scope) && behind)
  let lone (l : Line) : Bool := decide (4 ≤ scope) && decide (4 ≤ l.tag) && !(s.holdersOf l.pa).any (·.1 = core)
  let s1 := s.modCore core fun c =>
    { c with l1 := (c.l1.map fun p => if drop p.1 p.2.tag p.2.behind || lone p.2 then (p.1, p.2.dropClean) else p).filter fun p => !p.2.bytes.isEmpty }
  { s1 with iq := s1.iq.map fun a => if a.core = core && a.sent && drop a.addr a.scope a.behind then { a with stale := true } else a }

/-- An acquire of threads of a band at a scope; `invs` are the invalidations sent before its access step (R291). -/
def State.acquire (s : State) (k : Nat) (ts : List Nat) (scope : Nat) (invs : List Nat) : State :=
  let live := invs.filter fun i => s.msgs.any fun m => m.id = i
  (s.dropNarrow (keyCore k) scope).modBand k fun b =>
    b.modThreads ts fun _ th => { th with acqs := th.acqs ++ live.filter (!th.acqs.contains ·) }

/-- One step of a release's progress (R204, R289): whether it is complete, the new state, and what it waits for next. The
groups come first, then the writes of the core, then the side log. -/
def State.releaseStep (s : State) (k uid scope phase : Nat) (wait : List Nat) : State × Nat × List Nat × Bool :=
  let core := keyCore k
  match phase with
  | 0 =>
    let open' := match s.band? k with
      | some b => b.groups.any fun g => wait.contains g.gid && g.open
      | none => false
    if open' then (s, 0, wait, false)
    else
      let lines := (s.core core).l1.filter fun p => decide (p.2.tag < scope) && !p.2.dirty.isEmpty
      let s1 := lines.foldl (fun s p => [0, 1, 2, 3].foldl (fun s i => s.writeBack core p.1 i) s) s
      (s1, 1, s1.writesOf core, false)
  | _ =>
    let flying := wait.any fun i => s.msgs.any fun m => m.id = i
    let logged := s.cores.any fun c => c.2.sidelog.any fun e => decide (e.uid = uid) && decide (e.scope ≤ scope)
    (s, 1, wait, !flying && !logged)

/-- The progress of a release that the run of the issue register makes while held: true once it is complete (R204). -/
def State.releaseRun (s : State) (scope : Nat) : State × Bool :=
  let r := s.issue
  match s.band? r.key with
  | none => (s, true)
  | some b =>
    let own (p : RelProg) : Bool := decide (p.depth = r.depth) && decide (p.pc = r.pc)
    let at' : RelProg := (b.rels.find? own).getD
      { depth := r.depth, pc := r.pc, wait := s.relGroups b }
    let phase := at'.phase
    let wait := at'.wait
    let rec' (s : State) (rels : List RelProg → List RelProg) : State := s.modBand r.key fun b => { b with rels := rels (b.rels.filter (!own ·)) }
    let go (q : State × Nat × List Nat × Bool) : State × Bool :=
      if q.2.2.2 then (rec' q.1 id, true)
      else (rec' q.1 fun l => l ++ [{ depth := r.depth, pc := r.pc, phase := q.2.1, wait := q.2.2.1 }], false)
    let q := s.releaseStep r.key b.uid scope phase wait
    if phase = 0 && q.2.1 = 1 then go (q.1.releaseStep r.key b.uid scope 1 q.2.2.1) else go q

end Sys2Proof.Machine
end

