-- ==== Sys2Proof/Machine/Float.lean ====
section
/-!
DEFINITION. Sys2Proof/Machine/Float.lean: the float instructions (R129 to R136), each a definition of its own over the shared
element operations.
-/
namespace Sys2Proof.Machine

/-! ### Elements -/

/-- Round an exact value that may be zero: a zero takes the given sign (R131, R133). -/
def roundOr (f : Fmt) (x : Option Ex) (zneg : Bool) (mode : Nat) (sr : Sr) : Nat × Nat :=
  match x with
  | none => (f.zero zneg, 0)
  | some e => (f.round e mode sr, drawsOf mode)

/-- The sign of an exact-zero sum of terms that are not all zeros of one sign: +0, or -0 under .rdn (R29). -/
def zeroSign (mode : Nat) : Bool := mode = 2

/-- A sum of terms of which none is a NaN (R29, R132, R133): an infinity, a rounded value, or a signed zero. -/
def addTerms (f : Fmt) (l : List Fv) (mode : Nat) (sr : Sr) : Nat × Nat :=
  let pos := l.contains (.inf false); let neg := l.contains (.inf true)
  if l.any Fv.isNan || (pos && neg) then (f.nan, 0)
  else if pos || neg then (f.inf neg, 0)
  else
    let fins := l.filterMap fun v => match v with | .fin n m e => some (signedMant n m, e) | _ => none
    let sum := sumTerms fins
    let sameZero (b : Bool) : Bool := l.all fun v => v = .zero b
    roundOr f (if fins.isEmpty then none else exOfInt sum.1 sum.2)
      (if sameZero true then true else if sameZero false then false else zeroSign mode) mode sr

/-- Negation of a value. -/
def Fv.neg : Fv → Fv
  | .nan => .nan
  | .inf n => .inf !n
  | .zero n => .zero !n
  | .fin n m e => .fin (!n) m e

/-- The sign of a value that is not a NaN. -/
def Fv.sign : Fv → Bool
  | .nan => false
  | .inf n | .zero n | .fin n _ _ => n

/-- The exact product of two values; a zero times an infinity is a NaN (R132). -/
def Fv.mul (x y : Fv) : Fv :=
  match x, y with
  | .nan, _ | _, .nan => .nan
  | .inf _, .zero _ | .zero _, .inf _ => .nan
  | .inf n, v | v, .inf n => .inf (n != v.sign)
  | .zero n, v | v, .zero n => .zero (n != v.sign)
  | .fin n m e, .fin n' m' e' => .fin (n != n') (m * m') (e + e')

/-- A value rounded into a format, its zero and infinity kept (R131). -/
def roundFv (f : Fmt) (x : Fv) (mode : Nat) (sr : Sr) : Nat × Nat :=
  match x with
  | .nan => (f.nan, 0)
  | .inf n => (f.inf n, 0)
  | .zero n => (f.zero n, 0)
  | .fin n m e => (f.round { neg := n, n := m, e := e } mode sr, drawsOf mode)

/-- An element operation: format, mode, source of H, three operand codes, to the result's code and draws. -/
abbrev ElOp := Fmt → Nat → Sr → Nat → Nat → Nat → Nat × Nat

def faddEl : ElOp := fun f m r a b _ => addTerms f [f.decode a, f.decode b] m r
def fsubEl : ElOp := fun f m r a b _ => addTerms f [f.decode a, (f.decode b).neg] m r
def fmulEl : ElOp := fun f m r a b _ => roundFv f ((f.decode a).mul (f.decode b)) m r
def ffmaEl : ElOp := fun f m r a b c => addTerms f [(f.decode a).mul (f.decode b), f.decode c] m r

/-- FDIV (R131 to R133). -/
def fdivEl : ElOp := fun f m r a b _ =>
  let x := f.decode a; let y := f.decode b
  match x, y with
  | .nan, _ | _, .nan | .zero _, .zero _ | .inf _, .inf _ => (f.nan, 0)
  | .fin n _ _, .zero n' => (f.inf (n != n'), 0)
  | .inf n, v => (f.inf (n != v.sign), 0)
  | v, .inf n => (f.zero (n != v.sign), 0)
  | .zero n, v => (f.zero (n != v.sign), 0)
  | .fin n a' ea, .fin n' b' eb => (f.round (divEx (n != n') a' ea b' eb) m r, drawsOf m)

def frcpEl : ElOp := fun f m r a _ _ =>
  match f.decode a with
  | .nan => (f.nan, 0)
  | .zero n => (f.inf n, 0)
  | .inf n => (f.zero n, 0)
  | .fin n x e => (f.round (divEx n 1 0 x e) m r, drawsOf m)

def fsqrtEl : ElOp := fun f m r a _ _ =>
  match f.decode a with
  | .nan => (f.nan, 0)
  | .zero n => (f.zero n, 0)
  | .inf n => (if n then f.nan else f.inf false, 0)
  | .fin n x e => if n then (f.nan, 0) else (f.round (sqrtEx x e) m r, drawsOf m)

def frsqEl : ElOp := fun f m r a _ _ =>
  match f.decode a with
  | .nan => (f.nan, 0)
  | .zero n => (f.inf n, 0)
  | .inf n => (if n then f.nan else f.zero false, 0)
  | .fin n x e => if n then (f.nan, 0) else (f.round (rsqrtEx x e) m r, drawsOf m)

/-- FEXP2; a zero operand gives the exact result 1, rounded as any other (R131). -/
def fexp2El : ElOp := fun f m r a _ _ =>
  match f.decode a with
  | .nan => (f.nan, 0)
  | .inf n => (if n then f.zero false else f.inf false, 0)
  | .zero _ => (f.round { neg := false, n := 1, e := 0 } m r, drawsOf m)
  | .fin n x e => (f.round (exp2Ex n x e) m r, drawsOf m)

/-- FLOG2; log2 1 is an exact zero, whose sign no rule gives: a free value (log entry 12). -/
def flog2El : ElOp := fun f m r a _ _ =>
  match f.decode a with
  | .nan => (f.nan, 0)
  | .zero _ => (f.inf true, 0)
  | .inf n => (if n then f.nan else f.inf false, 0)
  | .fin n x e => if n then (f.nan, 0) else roundOr f (log2Ex x e) (Config.logZero m) m r

def fsinEl : ElOp := fun f m r a _ _ =>
  match f.decode a with
  | .nan | .inf _ => (f.nan, 0)
  | .zero n => (f.zero n, 0)
  | .fin n x e => (f.round (sinEx n x e) m r, drawsOf m)

def fcosEl : ElOp := fun f m r a _ _ =>
  match f.decode a with
  | .nan | .inf _ => (f.nan, 0)
  | .zero _ => (f.round { neg := false, n := 1, e := 0 } m r, drawsOf m)
  | .fin n x e => (f.round (cosEx n x e) m r, drawsOf m)

def ftanhEl : ElOp := fun f m r a _ _ =>
  match f.decode a with
  | .nan => (f.nan, 0)
  | .zero n => (f.zero n, 0)
  | .inf n => (f.signBit n + f.bias * 2 ^ f.mant, 0)
  | .fin n x e => (f.round (tanhEx n x e) m r, drawsOf m)

/-- FSCALE by a signed integer given as 32 bits of b (R130). -/
def fscaleEl : ElOp := fun f m r a b _ =>
  match f.decode a with
  | .nan => (f.nan, 0)
  | .zero n => (f.zero n, 0)
  | .inf n => (f.inf n, 0)
  | .fin n x e => (f.round { neg := n, n := x, e := e + max (-100000) (min 100000 (signed b 32)) } m r, drawsOf m)

/-- FRND: the one rounding is to an integer, exact in the format (R131). -/
def frndEl : ElOp := fun f m r a _ _ =>
  match f.decode a with
  | .nan => (f.nan, 0)
  | .zero n => (f.zero n, 0)
  | .inf n => (f.inf n, 0)
  | .fin n x e =>
    let i := roundInt { neg := n, n := x, e := e } 0 m r
    (if i = 0 then f.zero n else f.round { neg := n, n := i, e := 0 } 1 r, drawsOf m)

/-- Order of two values for FMIN and FMAX: -0 below +0 (R134). -/
def Fv.below (x y : Fv) : Bool :=
  match x, y with
  | .zero n, .zero n' => n && !n'
  | _, _ => Fv.cmp x y = .lt

/-- FMIN and FMAX (R134). -/
def fminmaxEl (mx : Bool) : ElOp := fun f _ _ a b _ =>
  let x := f.decode a; let y := f.decode b
  if x.isNan && y.isNan then (f.nan, 0)
  else if x.isNan then (b, 0)
  else if y.isNan then (a, 0)
  else if (if mx then x.below y else y.below x) then (b, 0) else (a, 0)

/-! ### Threads -/

/-- The scalar format of a TF code, and whether it is a packed pair (R77). -/
def tfFmt (tf : Nat) : Fmt × Bool :=
  match tf with
  | 1 => (.f16, false) | 2 => (.bf16, false) | 3 => (.f16, true) | 4 => (.bf16, true) | _ => (.f32, false)

/-- RNDSEED, TIDX and RNDCTR of a thread (R32). -/
def In.sr (i : In) : Sr := { seed := i.band.rndseed, tid := (i.band.thread i.t).tidx, ctr := (i.band.thread i.t).rndctr }

/-- One thread's result: one element, or element 0 then element 1 of a packed pair (R130). `bInt` marks FSCALE's B. -/
def floatThread (tf mode : Nat) (bInt : Bool) (op : ElOp) (i : In) : Nat × Nat :=
  let (f, packed) := tfFmt tf
  let w := f.width
  let sr := i.sr
  if packed then
    let ext (x : Nat) : Nat := if bInt then wrap (signed x 16) 32 else x
    let r0 := op f mode sr (i.a % 2 ^ 16) (ext (i.b % 2 ^ 16)) (i.c % 2 ^ 16)
    let sr1 := if r0.2 = 1 then sr.next else sr
    let r1 := op f mode sr1 (i.a / 2 ^ 16) (ext (i.b / 2 ^ 16)) (i.c / 2 ^ 16)
    (r0.1 + 2 ^ 16 * r1.1, r0.2 + r1.2)
  else op f mode sr (i.a % 2 ^ w) (if bInt then i.b else i.b % 2 ^ w) (i.c % 2 ^ w)

/-- A float instruction with `n` operands (R129). -/
def State.floatOp (s : State) (f : Fld) (n : Nat) (op : ElOp) : Out :=
  s.perThread f 32 (if 2 ≤ n then 32 else 0) (if 3 ≤ n then 32 else 0) (.regs 1) fun i =>
    .ok (floatThread f.sub f.rnd false op i)

/-- FSCALE (R130). -/
def State.scaleOp (s : State) (f : Fld) : Out :=
  s.perThread f 32 32 0 (.regs 1) fun i => .ok (floatThread f.sub f.rnd true fscaleEl i)

/-- FCMP: the type of Form X stands in MF (R77, R129). -/
def State.fcmpOp (s : State) (f : Fld) : Out :=
  let fm := (tfFmt f.mf).1
  s.perThread f 32 32 0 .pred fun i => .ok (if floatCond f.sub (fm.decode i.a) (fm.decode i.b) then 1 else 0, 0)

/-- FCLASS (R136). -/
def State.fclassOp (s : State) (f : Fld) : Out :=
  s.perThread f 32 0 0 (.regs 1) fun i => .ok (classMask (tfFmt f.sub).1 i.a, 0)

/-! ### The instructions -/

/-- FADD, FSUB, FMUL, FFMA (R131). -/
def execFadd (f : FormS) (s : State) : Out := s.floatOp (viewS f) 2 faddEl
def execFaddX (f : XL) (s : State) : Out := s.floatOp (viewXL f) 2 faddEl
def execFsub (f : FormS) (s : State) : Out := s.floatOp (viewS f) 2 fsubEl
def execFsubX (f : XL) (s : State) : Out := s.floatOp (viewXL f) 2 fsubEl
def execFmul (f : FormS) (s : State) : Out := s.floatOp (viewS f) 2 fmulEl
def execFmulX (f : XL) (s : State) : Out := s.floatOp (viewXL f) 2 fmulEl
def execFfma (f : XL) (s : State) : Out := s.floatOp (viewXL f) 3 ffmaEl
/-- FMIN, FMAX (R134). -/
def execFmin (f : FormS) (s : State) : Out := s.floatOp (viewS f) 2 (fminmaxEl false)
def execFminX (f : XL) (s : State) : Out := s.floatOp (viewXL f) 2 (fminmaxEl false)
def execFmax (f : FormS) (s : State) : Out := s.floatOp (viewS f) 2 (fminmaxEl true)
def execFmaxX (f : XL) (s : State) : Out := s.floatOp (viewXL f) 2 (fminmaxEl true)
/-- FCMP (R135), FCLASS (R136). -/
def execFcmp (f : FormS) (s : State) : Out := s.fcmpOp (viewS f)
def execFcmpX (f : XL) (s : State) : Out := s.fcmpOp (viewXL f)
def execFclass (f : FormS) (s : State) : Out := s.fclassOp (viewS f)
def execFclassX (f : FormX) (s : State) : Out := s.fclassOp (viewX f)
/-- FRCP, FRSQ, FSQRT, FDIV (R131). -/
def execFrcp (f : FormS) (s : State) : Out := s.floatOp (viewS f) 1 frcpEl
def execFrcpX (f : FormX) (s : State) : Out := s.floatOp (viewX f) 1 frcpEl
def execFrsq (f : FormS) (s : State) : Out := s.floatOp (viewS f) 1 frsqEl
def execFrsqX (f : FormX) (s : State) : Out := s.floatOp (viewX f) 1 frsqEl
def execFsqrt (f : FormS) (s : State) : Out := s.floatOp (viewS f) 1 fsqrtEl
def execFsqrtX (f : FormX) (s : State) : Out := s.floatOp (viewX f) 1 fsqrtEl
def execFdiv (f : FormS) (s : State) : Out := s.floatOp (viewS f) 2 fdivEl
def execFdivX (f : XL) (s : State) : Out := s.floatOp (viewXL f) 2 fdivEl
/-- FEXP2, FLOG2, FSIN, FCOS, FTANH (R131). -/
def execFexp2 (f : FormS) (s : State) : Out := s.floatOp (viewS f) 1 fexp2El
def execFexp2X (f : FormX) (s : State) : Out := s.floatOp (viewX f) 1 fexp2El
def execFlog2 (f : FormS) (s : State) : Out := s.floatOp (viewS f) 1 flog2El
def execFlog2X (f : FormX) (s : State) : Out := s.floatOp (viewX f) 1 flog2El
def execFsin (f : FormS) (s : State) : Out := s.floatOp (viewS f) 1 fsinEl
def execFsinX (f : FormX) (s : State) : Out := s.floatOp (viewX f) 1 fsinEl
def execFcos (f : FormS) (s : State) : Out := s.floatOp (viewS f) 1 fcosEl
def execFcosX (f : FormX) (s : State) : Out := s.floatOp (viewX f) 1 fcosEl
def execFtanh (f : FormS) (s : State) : Out := s.floatOp (viewS f) 1 ftanhEl
def execFtanhX (f : FormX) (s : State) : Out := s.floatOp (viewX f) 1 ftanhEl
/-- FSCALE, FRND (R130, R131). -/
def execFscale (f : FormS) (s : State) : Out := s.scaleOp (viewS f)
def execFscaleX (f : XL) (s : State) : Out := s.scaleOp (viewXL f)
def execFrnd (f : FormS) (s : State) : Out := s.floatOp (viewS f) 1 frndEl
def execFrndX (f : FormX) (s : State) : Out := s.floatOp (viewX f) 1 frndEl

end Sys2Proof.Machine
end

