-- ==== Sys2Proof/Machine/Visible.lean ====
section
/-!
DEFINITION. Sys2Proof/Machine/Visible.lean: the steps of the visibility machine (R285) for the accesses of threads: M2 to M9,
M11 to M14, the ages of R344, and refresh windows (R281, R282). A step whose condition does not hold leaves the state as it is.
-/
namespace Sys2Proof.Machine

/-! ### Conditions of a thread's access -/

/-- The access unit of a number. -/
def State.acc? (s : State) (id : Nat) : Option Acc := s.iq.find? fun a => a.id = id

/-- Whether two accesses share a byte. -/
def Acc.meets (a b : Acc) : Bool := a.space = b.space && decide (a.addr < b.addr + b.size) && decide (b.addr < a.addr + a.size)

/-- Whether two accesses belong to a common thread of a band. -/
def Acc.sameThread (a b : Acc) : Bool := a.uid = b.uid && a.threads.any fun t => b.threads.contains t

/-- Whether an operation acts at the slice as an atomic. -/
def AccKind.atomic : AccKind → Bool
  | .atom | .atom2 | .red => true
  | _ => false

/-- The order that M2, M3, M4 and M14 ask for: no earlier access of the thread, or of a lower thread of the run (R192),
touches the bytes, no earlier acquire of the thread is incomplete, but for LDW, which no acquire applies to (R283), and atomics of a core to one word keep their issue
order (R209, R295). -/
def State.inOrder (s : State) (a : Acc) : Bool :=
  let earlier := s.iq.filter fun b => decide (b.id < a.id) && b.kind ≠ .pref
  !(earlier.any fun b => (a.sameThread b && (a.meets b || (b.acq && decide (a.space ≠ 2)))) || (decide (a.gid = b.gid) && a.meets b)
      || (a.kind.atomic && b.kind.atomic && decide (a.core = b.core) && a.meets b))
  && match s.band? a.band with
     | some b => b.uid ≠ a.uid || a.space = 2 || a.threads.all fun t => (b.thread t).acqs.isEmpty
     | none => true

/-- Whether a shoot-down holds an access at a core's port (R431). -/
def State.portHeld (s : State) (a : Acc) : Bool := s.shootHolds (coreDie a.core) a.addr a.ctx

/-- Whether the core's side log holds an entry for the page of an access (R427, R429). -/
def State.logsPage (s : State) (core ia : Nat) : Bool := (s.core core).sidelog.any fun e => pageOf e.ia = pageOf ia

/-- The word index of the instruction that an access belongs to, where its band still counts it. -/
def State.accPc (s : State) (a : Acc) : Nat :=
  match s.band? a.band with
  | some b => if b.uid = a.uid then ((b.groups.find? fun g => g.gid = a.gid).map (·.pc)).getD 0xFFFF else 0xFFFF
  | none => 0xFFFF

/-- Threads' accesses of a counted run drop out of its count and write nothing (R476). -/
def Band.abandon (b : Band) (gid : Nat) (ts : List Nat) : Band :=
  let gs := b.groups.map fun g => if g.gid = gid then { g with left := ts.foldl (fun t i => Tbl.del t i) g.left } else g
  { b with groups := gs.filter fun g => g.gid ≠ gid || g.open }

/-- A load or atomic abandoned by a fault that stops its band (R431, R483). -/
def State.abandonAcc (s : State) (a : Acc) (code aux0 : Nat) : State :=
  let pc := s.accPc a
  let s1 : State := { s with iq := s.iq.filter fun b => b.id ≠ a.id }
  match s1.band? a.band with
  | some b =>
    if b.uid = a.uid then (s1.setBand a.band (b.abandon a.gid a.threads)).stopBand a.band { code := code, pc := pc, btid := a.thread, addr := a.va, aux0 := aux0 }
    else s1
  | none => s1

/-- The access unit changed in the threads' queues. -/
def State.modAcc (s : State) (id : Nat) (f : Acc → Acc) : State := { s with iq := s.iq.map fun a => if a.id = id then f a else a }

/-- The latest store of a thread in the write buffer that covers an address. -/
def State.buffered (s : State) (a : Acc) (addr : Nat) : Option Byte :=
  (s.wb.reverse.find? fun b => b.uid = a.uid && b.thread = a.thread && b.kind = .store && decide (b.addr ≤ addr)
    && decide (addr < b.addr + b.size)).map fun b => BitVec.ofNat 8 (b.data / 2 ^ (8 * (addr - b.addr)))

/-- Whether a reduction of the thread in the write buffer covers a byte of an access. -/
def State.redPending (s : State) (a : Acc) : Bool := s.wb.any fun b => b.uid = a.uid && b.thread = a.thread && b.kind = .red && a.meets b

/-- The bytes of a load from the write buffer and a line; none where a byte is in neither. -/
def State.localBytes (s : State) (a : Acc) (l : Line) : Nat → Option (List Byte)
  | 0 => some []
  | n + 1 =>
    let addr := a.addr + (a.size - (n + 1))
    match s.buffered a addr, Tbl.find? l.bytes (addr % 64), s.localBytes a l n with
    | some v, _, some r => some (v :: r)
    | none, some v, some r => some (v :: r)
    | _, _, _ => none

/-- The release steps that an access with release ordering makes before it is performed (R204): true once complete. -/
def State.releaseAcc (s : State) (a : Acc) : State × Bool :=
  if !a.rel || a.relPhase = 2 then (s, true)
  else
    let q := s.releaseStep a.band a.uid a.scope a.relPhase a.relWait
    if q.2.2.2 then (q.1.modAcc a.id fun b => { b with relPhase := 2, relWait := [] }, true)
    else (q.1.modAcc a.id fun b => { b with relPhase := q.2.1, relWait := q.2.2.1 }, false)

/-- A load that R291 sends to the slice: an acquire at die scope or wider, and any load at grid scope or wider to the host half. -/
def Acc.mustMiss (a : Acc) : Bool := (a.acq && decide (4 ≤ a.scope)) || (decide (6 ≤ a.scope) && isHost a.addr)

/-- A load complete: its data lands, and an acquire acts with the invalidations sent before its access step. -/
def State.loadDone (s : State) (a : Acc) (x : Nat) (invs : List Nat) : State :=
  let s1 := s.accDone a x
  if a.acq then s1.acquire a.band a.threads a.scope invs else s1

/-- M2: a load served by the write buffer and the L1 of its core. -/
def execLocalLoad (acc : Nat) (s : State) : Out :=
  match s.acc? acc with
  | none => .next s
  | some a =>
    if (a.kind ≠ .load && a.kind ≠ .pref) || a.space ≠ 0 || a.sent || a.mustMiss || !s.inOrder a || s.redPending a || s.logsPage a.core a.addr
    then .next s
    else match s.localBytes a ((s.core a.core).line a.addr) a.size with
      | none => .next s
      | some l => .next ((s.loadDone a (ofBytes l) (s.invsTo a.core)).count a.core 3 1)

/-- Whether M3 still waits for dirty sectors of siblings at team or cluster scope, or for their write-backs (R285). -/
def State.siblingDirty (s : State) (core ia : Nat) : Bool :=
  (siblings core).any fun c =>
    (let l := (s.core c).line ia; !l.dirty.isEmpty && (l.tag = 2 || l.tag = 3))
    || s.msgs.any fun m => m.src = c && match m.body with
        | .write i _ _ tag _ _ _ => decide (i = lineOf ia) && (tag = 2 || tag = 3)
        | _ => false

/-- The fault of an access whose page is not mapped: the band is held, and the page is requested once (R201, R427). -/
def State.faultAcc (s : State) (a : Acc) (write : Bool) : State :=
  if a.faulted then s
  else (s.modAcc a.id fun b => { b with faulted := true }).pageRequest a.addr a.ctx (if write then 1 else 0)

/-- M3, and the request of an atomic: the access enters the fabric toward its home slice (R207, R208, R285). -/
def execMissRequest (acc : Nat) (s : State) : Out :=
  match s.acc? acc with
  | none => .next s
  | some a =>
    let isLoad := a.kind = .load || a.kind = .pref
    let isAtom := a.kind = .atom || a.kind = .atom2
    if (!isLoad && !isAtom) || a.space ≠ 0 || a.sent || !s.inOrder a || s.redPending a || s.logsPage a.core a.addr || s.portHeld a
        || s.siblingDirty a.core a.addr || !s.mayRequest a.core then .next s
    else if isLoad && !a.mustMiss && (s.localBytes a ((s.core a.core).line a.addr) a.size).isSome then .next s
    else if isAtom && s.wb.any (fun b => a.sameThread b && a.meets b) then .next s
    else
      let (s1, ok) := s.releaseAcc a
      if !ok then .next s1
      else match s1.cached a.core a.addr isAtom with
        | none => .next (if s1.mapped a.addr isAtom then s1
                         else if isHost a.addr && !s1.hostRefused a.addr isAtom then s1.pageRequest a.addr a.ctx (if isAtom then 1 else 0)
                         else if a.kind = .pref then { s1 with iq := s1.iq.filter fun b => b.id ≠ a.id } else s1.faultAcc a isAtom)
        | some pa =>
          let dst := if isHost a.addr then agentIO else agentSlice (lineOf pa)
          let s2 := s1.modAcc a.id fun b => { b with sent := true, faulted := false, pa := pa }
          if isLoad then
            .next ((s2.count a.core 4 1).send a.core dst (laneOf a.addr) (.read a.id (lineOf a.addr) (lineOf pa) a.scope))
          else
            let sec := a.addr % 64 / 16
            let s3 := (s2.writeBack a.core a.addr sec).modCore a.core fun c => c.setLine a.addr ((c.line a.addr).dropSector sec)
            .next (s3.send a.core dst (laneOf a.addr) (.atomic a.id a.addr pa 0 0))

/-- An entry of the side log for a store or reduction (R428, R429): stores of one access to one word share their entry. -/
def State.logStore (s : State) (a : Acc) : Option State :=
  let c := s.core a.core
  let word := a.addr / 8 * 8
  let mask := (List.range a.size).foldl (fun m i => m + 2 ^ (a.addr % 8 + i)) 0
  let data := a.data % 2 ^ (8 * a.size) * 2 ^ (8 * (a.addr % 8))
  let same (e : SideEntry) : Bool := !e.red && a.kind = .store && decide (e.gid = a.gid) && decide (e.btid = a.thread)
    && decide (e.ia = word) && !e.replaying
  if c.sidelog.any same then
    let add (e : SideEntry) : SideEntry :=
      if same e then { e with va := min e.va a.va, data := e.data + data, bmask := e.bmask + mask } else e
    some (s.modCore a.core fun c => { c with sidelog := c.sidelog.map add })
  else if 64 ≤ c.sidelog.length then none
  else
    let e : SideEntry :=
      { va := a.va, ia := word, data := data, bmask := mask, red := a.kind = .red, rtype := if a.kind = .red then a.ty else 0,
        rop := if a.kind = .red then a.op else 0, scope := a.scope, rel := a.rel, lane := keyLane a.band, slot := keySlot a.band,
        btid := a.thread, ctx := a.ctx, flight := a.flight, seq := c.sideSeq, uid := a.uid, gid := a.gid }
    some ((s.modCore a.core fun c => { c with sidelog := c.sidelog ++ [e], sideSeq := (c.sideSeq + 1) % 2 ^ 32 }).count a.core 9 1)

/-- M4: a store or reduction enters the write buffer, translated at the port; on an unmapped page it retires into the side
log (R426, R429). -/
def execBufferAStore (acc : Nat) (s : State) : Out :=
  match s.acc? acc with
  | none => .next s
  | some a =>
    if (a.kind ≠ .store && a.kind ≠ .red) || a.space ≠ 0 || !s.inOrder a || s.portHeld a then .next s
    else
      let (s1, ok) := s.releaseAcc a
      if !ok then .next s1
      else
        let log (req : Bool) : Out := match s1.logStore a with
          | none => .next s1
          | some s2 => .next ((if req then s2.pageRequest a.addr a.ctx 1 else s2).accDone a 0)
        if s1.logsPage a.core a.addr then log false
        else match s1.cached a.core a.addr true with
          | none =>
            if s1.mapped a.addr true then .next s1
            else if isHost a.addr && !s1.hostRefused a.addr true then .next (s1.pageRequest a.addr a.ctx 1)
            else log true
          | some pa => .next { s1 with iq := s1.iq.filter fun b => b.id ≠ a.id, wb := s1.wb ++ [{ a with pa := pa }] }

/-- Whether no earlier overlapping entry of the write buffer comes from the thread or the run (M5, M6), nor, for a
reduction, from the core (R209, R295). -/
def State.wbFirst (s : State) (a : Acc) : Bool :=
  !(s.wb.takeWhile (fun b => b.id ≠ a.id)).any fun b =>
    a.meets b && (a.sameThread b || decide (a.gid = b.gid) || (a.kind = .red && b.kind = .red && decide (a.core = b.core)))

/-- M5: a store narrower than die scope enters the L1 (R198, R286). -/
def execDrainIntoL1 (acc : Nat) (s : State) : Out :=
  match s.wb.find? fun a => a.id = acc with
  | none => .next s
  | some a =>
    if a.kind ≠ .store || 4 ≤ a.scope || isHost a.addr || !s.wbFirst a || !(s.core a.core).hasWay a.addr then .next s
    else
      let s1 : State := { s with wb := s.wb.filter fun b => b.id ≠ a.id }
      let l := (s1.core a.core).line a.addr
      let l1 := ({ l with pa := lineOf a.pa, tag := l.retag a.scope false } : Line).place (a.addr % 64) (bytesOf a.data a.size) true (s1.cycleAt a.core)
      let s2 := s1.modCore a.core fun c => c.setLine a.addr l1
      let s3 := if a.scope = 3 then s2.dropSiblings a.core a.addr else s2
      .next (s3.unitDone a.band a.gid a.threads a.off a.size 0)

/-- The valid bytes of a line take a written value; they stay as clean or dirty as they were (M6). -/
def Line.update (l : Line) (off : Nat) (v : List Byte) : Line :=
  { l with bytes := v.zipIdx.foldl (fun t p => if (Tbl.find? t (off + p.2)).isSome then Tbl.put t (off + p.2) p.1 else t) l.bytes }

/-- A write sent through the L1 to the slice: valid bytes updated, siblings dropped, the write on its way (M6, M13). -/
def State.through (s : State) (core ia pa size data scope tag band gid thread : Nat) : State :=
  let l := (s.core core).line ia
  let s1 := if l.bytes.isEmpty then s
    else s.modCore core fun c => c.setLine ia { l.update (ia % 64) (bytesOf data size) with tag := l.retag scope false }
  (s1.dropSiblings core ia).sendWrite core ia pa ((bytesOf data size).zipIdx.map fun p => (ia % 64 + p.2, p.1)) tag band gid thread

/-- A reduction sent to the slice, after the sector that holds it left the L1 (R207, R209). -/
def State.sendRed (s : State) (core ia pa size op ty data band gid thread : Nat) : State :=
  let sec := ia % 64 / 16
  let s1 := (s.writeBack core ia sec).modCore core fun c => c.setLine ia ((c.line ia).dropSector sec)
  s1.send core (if isHost ia then agentIO else agentSlice (lineOf pa)) (laneOf ia) (.red ia pa size op ty data band gid thread)

/-- M6: a store at die scope or wider, or to the host half, or a reduction, goes to its home (R285, R294). -/
def execWriteThrough (acc : Nat) (s : State) : Out :=
  match s.wb.find? fun a => a.id = acc with
  | none => .next s
  | some a =>
    if (a.kind = .store && a.scope < 4 && !isHost a.addr) || !s.wbFirst a || !s.mayRequest a.core then .next s
    else
      let s1 : State := { s with wb := s.wb.filter fun b => b.id ≠ a.id }
      if a.kind = .red then .next (s1.sendRed a.core a.addr a.pa a.size a.op a.ty a.data a.band a.gid a.thread)
      else .next (s1.through a.core a.addr a.pa a.size a.data a.scope 8 a.band a.gid a.thread)

/-- M7: a dirty sector leaves its L1 as one write. -/
def execWriteBack (core line sector : Nat) (s : State) : Out := .next (s.writeBack core line (sector % 4))

/-- M8: a clean sector becomes invalid. -/
def execDrop (core line sector : Nat) (s : State) : Out :=
  if ((s.core core).line line).dirtySector (sector % 4) then .next s
  else .next (s.modCore core fun c => c.setLine line ((c.line line).dropSector (sector % 4)))

/-- M9: the oldest message of a queue reaches its destination; an acknowledgement completes its store there. -/
def execDeliver (src dst lane : Nat) (s : State) : Out :=
  match takeFirst (fun m : Msg => m.src = src && m.dst = dst && m.lane = lane && !m.delivered) s.msgs with
  | none => .next s
  | some (m, rest) =>
    match m.body with
    | .ack band gid thread => .next ({ s with msgs := rest }.unitDone band gid [thread] 0 0 0)
    | _ => .next { s with msgs := rest ++ [{ m with delivered := true }] }

/-! ### Atomics (R205 to R210) -/

/-- Bytes of an atomic's type (R205). -/
def atomBytes (ty : Nat) : Nat := if ty = 2 || ty = 3 || ty = 5 then 8 else 4

/-- The new value of an atomic operation (R206, R207). -/
def atomNew (op ty old b c : Nat) : Nat :=
  let n := 8 * atomBytes ty
  let sr : Sr := { seed := 0, tid := 0, ctr := 0 }
  let sg := ty = 0 || ty = 2
  let le (x y : Nat) : Bool := if sg then decide (signed x n ≤ signed y n) else decide (x ≤ y)
  match op with
  | 0 => if ty = 6 then (faddEl .f32 0 sr old b 0).1 else (old + b) % 2 ^ n
  | 1 => if ty = 6 then (fminmaxEl false .f32 0 sr old b 0).1 else if le old b then old else b
  | 2 => if ty = 6 then (fminmaxEl true .f32 0 sr old b 0).1 else if le b old then old else b
  | 3 => old &&& b
  | 4 => old ||| b
  | 5 => old ^^^ b
  | 6 => b
  | _ => if old = c then b else old

/-- The format of an element of ATOM2 (R206). -/
def atom2Fmt (op : Nat) : Fmt := if op = 1 then .f16 else .bf16

/-- The new value of one element of an ATOM2 word; for add, `c` is the merged sum in FP32 (R208). -/
def atom2New (op old c : Nat) : Nat :=
  let f := atom2Fmt op
  let sr : Sr := { seed := 0, tid := 0, ctr := 0 }
  match op with
  | 0 | 1 => (addTerms f [f.decode old, Fmt.f32.decode c] 0 sr).1
  | 2 => (fminmaxEl true f 0 sr old c 0).1
  | _ => (fminmaxEl false f 0 sr old c 0).1

/-- A value reduced into an old one under ROP of R217 at an element of z bytes. -/
def ropApply (rop z old new : Nat) : Nat :=
  let f : Fmt := if z = 4 then .f32 else .bf16
  match rop with
  | 1 => (addTerms f [f.decode old, f.decode new] 0 { seed := 0, tid := 0, ctr := 0 }).1
  | 2 => (addTerms f [f.decode old, f.decode new] 0 { seed := 0, tid := 0, ctr := 0 }).1
  | 3 => (fminmaxEl true f 0 { seed := 0, tid := 0, ctr := 0 } old new 0).1
  | 4 => (fminmaxEl false f 0 { seed := 0, tid := 0, ctr := 0 } old new 0).1
  | _ => new

/-- A word changed at its home, as an atomic of a core counts as a write (M10). -/
def State.homeUpdate (s : State) (core ia pa n new : Nat) : State :=
  ((s.passPeers (coreCluster core) (some core) ia).sliceWrite ia pa ((bytesOf new n).zipIdx.map fun p => (p.2, p.1)) (some core)).spoilGlobal ia pa n

/-- Whether a delivered request may be performed next at its home: requests go in delivery order, and between the two
elements of an ATOM2 the slice takes others, but for a later ATOM2 of the same core to the same word, and element 1 of the requests to
one word too goes in delivery order (R285, R295). -/
def State.mayPerform (s : State) (m : Msg) : Bool :=
  let second (q : Msg) : Bool := match q.body with | .atomic _ _ _ 1 _ => true | _ => false
  let reply (q : Msg) : Bool := match q.body with | .resp _ _ _ _ | .aresp _ _ _ | .inv _ | .ack _ _ _ | .host _ _ _ => true | _ => false
  let word (q : Msg) : Nat := match q.body with | .atomic _ ia _ _ _ => ia | _ => 0
  m.delivered && !reply m &&
  ((second m && (match s.msgs.find? fun q => decide (q.dst = m.dst) && q.delivered && second q && decide (word q = word m) with
      | none => false | some q => decide (q.id = m.id))) || !second m && match s.msgs.find? fun q => q.dst = m.dst && q.delivered && !reply q && !second q with
    | none => false
    | some q => decide (q.id = m.id) && !(match m.body with
        | .atomic _ _ _ _ _ => s.msgs.any fun p => decide (p.dst = m.dst) && p.delivered && second p && decide (p.src = m.src) && decide (word p = word m)
        | _ => false))

/-- M10 for a delivered request of a core (R285, R207, R208, R209, R294, R295); a read or AtomicOp of the host half leaves
through the host port and waits there for its completion (R463, R464). -/
def State.performBody (s : State) (m : Msg) : State :=
  let s0 : State := { s with msgs := s.msgs.filter fun q => q.id ≠ m.id }
  let core := m.src
  let wait (acc ia : Nat) (at' : Bool) : State :=
    { s with msgs := s.msgs.map fun q => if q.id = m.id then { q with body := .host acc ia at' } else q }
  match m.body with
  | .read acc ia pa scope =>
    if inWindow ia then s0.send m.dst core m.lane (.resp acc ia ((List.range 64).map fun o => (o, 0)) (s.invsTo core))
    else if isHost ia then (wait acc ia false).emit [7, m.id, ia, 64]
    else match (s.acc? acc).bind fun a => (s.poisonAt (pa + a.addr % 64) a.size).map fun c => (a, c) with
    | some (a, c) => if a.kind = .load then s0.abandonAcc a 8 c else { s0 with iq := s0.iq.filter fun b => b.id ≠ acc }
    | none =>
      let bs := ((Memory.readBytes s.mem (placePA pa) 64).zipIdx.map fun p => (p.2, p.1)).filter fun p => (s.poisonAt (pa + p.1) 1).isNone
      let hs := s.holdersOf pa
      let s1 := if 4 ≤ scope && !hs.any (·.1 = core) then s0.setHolders pa (hs ++ [(core, ia)]) else s0
      s1.send m.dst core m.lane (.resp acc ia bs (s.invsTo core))
  | .write ia pa bs tag band gid thread =>
    let spoil (s : State) : State := bs.foldl (fun s p => s.spoilGlobal (ia + p.1) (pa + p.1) 1) s
    if tag = 10 then spoil ((s0.passPeers (unitCluster m.src) none ia).sliceWrite ia pa bs none) else
    let s1 := spoil ((if isHost ia then s0 else s0.passPeers (coreCluster core) (some core) ia).sliceWrite ia pa bs (some core))
    if tag = 9 then s1.modCore core fun c => { c with sidelog := c.sidelog.filter fun e => !(e.replaying && e.seq = thread) }
    else if gid ≠ 0 then s1.send m.dst core m.lane (.ack band gid thread) else s1
  | .rop ia pa op size y _ =>
    let new := ropApply op size (s.agentRead ia pa size) y
    ((s0.passPeers (unitCluster m.src) none ia).sliceWrite ia pa ((bytesOf new size).zipIdx.map fun p => (p.2, p.1)) none).spoilGlobal ia pa size
  | .red ia pa size op ty data band gid thread =>
    let old := Memory.read s.mem (placePA pa) size
    let s1 := if (s.poisonAt pa size).isSome then s0 else s0.homeUpdate core ia pa size (atomNew op ty old data 0)
    if gid ≠ 0 then s1.send m.dst core m.lane (.ack band gid thread)
    else s1.modCore core fun c => { c with sidelog := c.sidelog.filter fun e => !(e.replaying && e.seq = thread) }
  | .atomic acc ia pa part old =>
    match s.acc? acc with
    | none => s0
    | some a =>
      if inWindow ia then s0.send m.dst core m.lane (.aresp acc 0 (s.invsTo core))
      else if isHost ia then (wait acc ia true).emit [8, m.id, ia, a.size, a.op, a.data, a.cmp]
      else match s.poisonAt pa a.size with
      | some c => s0.abandonAcc a 8 c
      | none =>
      if a.kind = .atom then
        let o := Memory.read s.mem (placePA pa) a.size
        (s0.homeUpdate core ia pa a.size (atomNew a.op a.ty o a.data a.cmp)).send m.dst core m.lane (.aresp acc o (s.invsTo core))
      else if part = 0 then
        let o := Memory.read s.mem (placePA pa) 2
        let s1 := s.homeUpdate core ia pa 2 (atom2New a.op o a.data)
        { s1 with msgs := s1.msgs.map fun q => if q.id = m.id then { q with body := .atomic acc ia pa 1 o } else q }
      else
        let pa' := pa + 2
        let o := Memory.read s.mem (placePA pa') 2
        (s0.homeUpdate core (ia + 2) pa' 2 (atom2New a.op o a.cmp)).send m.dst core m.lane (.aresp acc (old + 65536 * o) (s.invsTo core))
  | _ => s

/-- Whether a request acts on the free list at FLPOP or FLPUSH, as a step of its own (R367). -/
def Msg.onList (m : Msg) : Bool :=
  match m.body with
  | .read _ ia _ _ => listLine ia
  | .write ia _ _ _ _ _ _ => listLine ia
  | _ => false

/-- M10 for a delivered request, but for one at FLPOP or FLPUSH. -/
def State.performRequest (s : State) (m : Msg) : State := if m.onList then s else s.performBody m

/-- The slice drops a recorded holder: an invalidation goes to it (M10). -/
def State.dropHolder (s : State) (line core : Nat) : State :=
  match (s.holdersOf line).find? fun h => h.1 = core with
  | none => s
  | some h => (s.setHolders line ((s.holdersOf line).filter fun q => q.1 ≠ core)).send (agentSlice (lineOf line)) core (laneOf h.2) (.inv h.2)

/-- The mark of a line dropped for lack of room: every event bit is set, and later writes set none (R213). -/
def State.dropMark (s : State) (nameFor : Nat → Option Nat) : State :=
  (Tbl.keys s.bands).foldl (fun s k => match nameFor k with
    | none => s
    | some n => (s.watchBand k n).modBand k fun b => { b with watches := b.watches.map fun w => if w.name = n then { w with marked := false } else w }) s

/-! ### Returns to the core -/

/-- The line after a fill (M11, R286): bytes that are not dirty take the response's values. -/
def Line.fill (l : Line) (pa scope now : Nat) (bs : Tbl Byte) (behind : Bool) : Line :=
  let l1 : Line := { l with pa := pa, tag := l.retag scope true }
  { l1 with bytes := (List.range 64).foldl (fun t o => match Tbl.find? bs o with
              | some v => if l.dirty.contains o then t else Tbl.put t o v
              | none => t) l1.bytes
            filled := [0, 1, 2, 3].foldl (fun t k => Tbl.put t k now) l1.filled
            behind := behind }

/-- What M8 drops at once after a fill: the clean sectors, of a read that an acquire or an invalidation has passed, or those with bytes that
left the core as a write while the read was in flight (log entry 24). -/
def Line.settle (l : Line) (stale : Bool) (newer : Tbl Byte) : Line :=
  [0, 1, 2, 3].foldl (fun l k => if !l.dirtySector k && (stale || newer.any fun p => p.1 / 16 = k) then l.dropSector k else l) l

/-- M11: a delivered response: the line fills and the load completes, or an atomic's old value returns. The load's own bytes that left the
core as a write meanwhile are seen as written (R192; log entry 24), and a segment popped at FLPOP stands in no line (R367). -/
def execFill (msg : Nat) (s : State) : Out :=
  match s.msgs.find? fun m => m.id = msg && m.delivered with
  | none => .next s
  | some m =>
    let s0 : State := { s with msgs := s.msgs.filter fun q => q.id ≠ m.id }
    match m.body with
    | .resp acc ia bs invs =>
      match s.acc? acc with
      | none => .next s0
      | some a =>
        let l := ((s.core a.core).line ia).fill (lineOf a.pa) a.scope (s.cycleAt a.core) bs a.behind
        let seen : Line := { l with bytes := a.newer.foldl (fun t p => if l.dirty.contains p.1 then t else Tbl.put t p.1 p.2) l.bytes }
        let x := ofBytes ((s.localBytes a seen a.size).getD [])
        if !(s.core a.core).hasWay ia then .next s
        else .next ((s0.modCore a.core fun c => c.setLine ia (if listLine ia then (c.line ia) else l.settle a.stale a.newer)).loadDone a x invs)
    | .aresp acc old invs =>
      match s.acc? acc with
      | none => .next s0
      | some a => .next (s0.loadDone a old invs)
    | _ => .next s

/-- M12: a delivered invalidation drops the clean sectors of its line, and acquires that waited for it go on (R291). -/
def execInvalidate (msg : Nat) (s : State) : Out :=
  match s.msgs.find? fun m => m.id = msg && m.delivered with
  | none => .next s
  | some m =>
    match m.body with
    | .inv ia =>
      let s1 := ({ s with msgs := s.msgs.filter fun q => q.id ≠ m.id } : State).dropClean m.dst ia
      .next { s1 with bands := s1.bands.map fun p =>
                if keyCore p.1 = m.dst then
                  (p.1, { p.2 with threads := p.2.threads.map fun th => { th with acqs := th.acqs.filter (· ≠ m.id) } })
                else p }
    | _ => .next s

/-- M13: a side-log entry of a mapped page enters the fabric (R285, R429); entries of one page go in SEQ order. -/
def execReplay (core entry : Nat) (s : State) : Out :=
  match (s.core core).sidelog.find? fun e => e.seq = entry && !e.replaying with
  | none => .next s
  | some e =>
    let earlier := ((s.core core).sidelog.takeWhile fun f => f.seq ≠ entry).any fun f => !f.replaying && pageOf f.ia = pageOf e.ia
    let held := s.shootHolds (coreDie core) e.ia e.ctx
    match s.portPA core e.ia true with
    | none => .next s
    | some pa =>
      if earlier || held then .next s
      else
        let s1 := s.modCore core fun c => { c with sidelog := c.sidelog.map fun f => if f.seq = entry then { f with replaying := true } else f }
        let offs := members e.bmask 8
        let lo := offs.headD 0
        let data := e.data / 2 ^ (8 * lo)
        if e.red then .next (s1.send core (if isHost e.ia then agentIO else agentSlice (lineOf pa)) (laneOf (e.ia + lo))
          (.red (e.ia + lo) (pa + lo) offs.length e.rop e.rtype data core 0 entry))
        else
          .next (s1.sendWrite core e.ia pa (offs.map fun i => (e.ia % 64 + i, BitVec.ofNat 8 (e.data / 2 ^ (8 * i)))) 9 core 0 entry)

/-! ### Scratchpad banks and the weight store (M14, R282, R299) -/

/-- The start of the die's current refresh period (R281). -/
def Die.periodStart (d : Die) : Nat := d.refBase + (d.cycle - d.refBase) / (64 * max d.period 1) * (64 * max d.period 1)

/-- Whether a bank of the weight store is inside its refresh window (R281). -/
def Die.inWindow (d : Die) (bank : Nat) : Bool :=
  let now := d.cycle - d.periodStart
  let start := 64 * d.stagger * bank
  decide (start ≤ now) && decide (now < start + 8 * d.wlen)

/-- The bank of an offset (R200, R280). -/
def bankOf (a : Nat) : Nat := bits a 11 6

/-- M14 for an access of a thread: loads, stores and weight-store reads, in issue order per core and bank (R285, R299). -/
def State.performBank (s : State) (a : Acc) : State :=
  let first := !s.iq.any fun b => decide (b.id < a.id) && decide (b.core = a.core) && decide (b.space = a.space) && decide (bankOf b.addr = bankOf a.addr)
  if a.space = 0 || !first || !s.inOrder a then s
  else
    let (s1, ok) := s.releaseAcc a
    if !ok then s1
    else if a.space = 2 then match Tbl.find? s1.poison (sectorWst (coreDie a.core) a.addr) with
      | some c => s1.abandonAcc a 8 c
      | none => s1.loadDone a (Memory.read s1.mem (placeWst (coreDie a.core) a.addr) a.size) []
    else
      let cl := coreCluster a.core
      if a.kind = .load then s1.loadDone a (s1.scratchRead cl a.addr a.size) (s1.invsTo a.core)
      else ((s1.scratchWrite cl a.addr a.size a.data).spoilScratch cl a.addr a.size).accDone a 0

/-- M14 of a thread's access; a weight-store read inside its bank's refresh window waits (R282). -/
def State.bankAccess (s : State) (acc : Nat) : State :=
  match s.acc? acc with
  | none => s
  | some a => if a.space = 2 && (s.die (coreDie a.core)).inWindow (bankOf a.addr) then s else s.performBank a

/-- A refresh window closes: the weight-store reads of its bank that waited are performed (R282). -/
def execRefreshWindowClose (die bank : Nat) (s : State) : Out :=
  if (s.die die).inWindow bank then .next s
  else .next ((s.iq.filter fun a => a.space = 2 && coreDie a.core = die && bankOf a.addr = bank).foldl
    (fun s a => match s.acc? a.id with | some a => s.performBank a | none => s) s)

/-- A refresh period starts: BASE moves to it (R281). -/
def execRefreshPeriodStart (die : Nat) (s : State) : Out :=
  .next (s.setDie die { s.die die with refBase := (s.die die).periodStart })

/-- Whether a flight has a team resident on a die. -/
def State.dieBusy (s : State) (die : Nat) : Bool := s.bands.any fun p => coreDie (keyCore p.1) = die

/-- Firmware changes the refresh parameters, with no flight resident on the die and every window inside its period (R281,
R282). -/
def execRefreshParameterChange (die period wlen stagger : Nat) (s : State) : Out :=
  if s.dieBusy die || 65536 ≤ period || 256 ≤ wlen || 256 ≤ stagger || 64 * period < 64 * stagger * 63 + 8 * wlen then .next s
  else .next (s.setDie die { s.die die with refBase := (s.die die).cycle, period := period, wlen := wlen, stagger := stagger })

/-- The age bound of R344: a clean sector filled 2^20 cycles ago is dropped, a sector dirty as long is written back. -/
def execSectorAgeExpiry (core line sector : Nat) (s : State) : Out :=
  let k := sector % 4
  let l := (s.core core).line line
  let now := s.cycleAt core
  let old (t : Tbl Nat) : Bool := match Tbl.find? t k with | some c => decide (c + 2 ^ 20 ≤ now) | none => false
  if l.dirtySector k then .next (if old l.dirtied then s.writeBack core line k else s)
  else if old l.filled then .next (s.modCore core fun c => c.setLine line ((c.line line).dropSector k))
  else .next s

/-! ### Table walks (R425, R426) -/

/-- A page cached at a unit's port, in 256 entries (R426); which entry gives way is the device's choice. -/
def State.cachePage (s : State) (tlbUnit page frame : Nat) : State :=
  let t := Tbl.get s.tlbs tlbUnit []
  let t1 := if 256 ≤ t.length && (Tbl.find? t page).isNone then
      Tbl.del t (((Tbl.keys t).getD (Config.pick s.fresh 1 % t.length) 0)) else t
  { s with tlbs := Tbl.put s.tlbs tlbUnit (Tbl.put t1 page frame) }

end Sys2Proof.Machine
end

