-- ==== Sys2Proof/Machine/Access.lean ====
section
/-!
DEFINITION. Sys2Proof/Machine/Access.lean: the memory instructions of a thread: loads, stores, fences, atomics, watches,
prefetches, tag waits and WAITC (R186 to R216, R223 to R225). Each issues accesses into the threads' queues (M1); the
steps of the visibility machine perform them.
-/
namespace Sys2Proof.Machine

/-! ### Operands and addresses (R186 to R190) -/

/-- The memory control byte of a Form X access (R187). -/
def Fld.mc (f : Fld) : Nat := match f.c with | .v n => if f.isX then n else 0 | _ => 0
/-- The space that an access names. -/
def Fld.space (f : Fld) : Nat := f.mc % 4
/-- ORD of a load or store (R186). -/
def Fld.ord (f : Fld) : Bool := f.isX && bitOf f.mf 3
/-- SCOPE of a load or store (R186). -/
def Fld.scope (f : Fld) : Nat := if f.isX then f.mf % 8 else 0
/-- The width of the base operand. -/
def baseBits (space : Nat) : Nat := if space = 0 then 64 else 32

/-- A displacement of n bits (R186, R205). -/
def dispOf (w n : Nat) : Int := signed w n

/-- The address that a thread forms (R188). -/
def State.memAddr (s : State) (b : Band) (f : Fld) (space t : Nat) : Rd Nat := do
  let x ← b.readOpnd s.fresh t f.a (baseBits space) 1
  let y ← b.readOpnd s.fresh t f.b 32 2
  let d : Int := if f.isX then dispOf f.w2 32 else 0
  return wrap (((x + y : Nat) : Int) + d) (baseBits space)

/-- The first byte of a range of offsets that lies at or beyond a limit. -/
def firstBeyond (off n limit : Nat) : Option Nat := if off + n ≤ limit then none else some (max off limit)

/-- The address check of one access (R190): the first failing byte. -/
def State.checkAddr (s : State) (b : Band) (space : Nat) (need : Need) (a n : Nat) : Option Nat :=
  match space with
  | 0 => firstFail (s.coreRanges s.issue.core) need a n
  | 1 => firstBeyond a n (s.alloc b).2
  | _ => firstBeyond a n (2 ^ 30)

/-- The address at which the unit of an access is performed: intermediate address, absolute scratchpad offset, or weight
store index. -/
def State.target (s : State) (b : Band) (space a : Nat) : Nat :=
  match space with
  | 0 => (translate (s.coreRanges s.issue.core) {} a).getD 0
  | 1 => (s.alloc b).1 + a
  | _ => a

/-- Every thread's check before any access (R190). -/
def State.checkAll (s : State) (b : Band) (space : Nat) (need : Need) (n : Nat) (as : List (Nat × Nat)) : Rd Unit :=
  let bad := as.filterMap fun p => (s.checkAddr b space need p.2 n).map fun x => (p.1, x)
  if bad.isEmpty then .ok () else .error (rangeTrap bad)

/-- The addresses of the guarded threads. -/
def State.memAddrs (s : State) (b : Band) (f : Fld) (space : Nat) (ts : List Nat) : Rd (List (Nat × Nat)) :=
  mapRd (fun t => do return (t, ← s.memAddr b f space t)) ts

/-- The lines that an access names, for the loop watch unit (R326, R328): address folded once, each line's name; a scratchpad line is named by its
offset in the team's allocation (R188). -/
def lineNames (space a target n : Nat) : List (Nat × Nat) :=
  let x := if space = 0 then target else a
  let nm (y : Nat) : Nat := if space = 0 then nameGlobal y else nameScratch y
  if lineOf x = lineOf (x + n - 1) then [(a, nm x)] else [(a, nm x), (2 ^ 64, nm (x + n - 1))]

/-- The first page that a load or atomic inside a REP unit finds unmapped, as an intermediate address with its virtual address: the
run is then held at the iteration, which has no effect (R84, R201). -/
def State.repMiss (s : State) (b : Band) (sh : Shape) (parts : List Part) : Option (Nat × Nat) :=
  if s.issue.inRep && decide (sh.space = 0) && decide (sh.kind ≠ .store) && decide (sh.kind ≠ .red) then
    (parts.flatMap (unitsOf s s.issue.key b sh 0 0)).findSome? fun a => if s.mapped a.addr (decide (sh.kind ≠ .load)) then none else some (a.addr, a.va)
  else none

/-- A counted run issues: last reads, the destination's allocation, the accesses, retirement (R54, R55, R193). -/
def State.issueRun (s : State) (b : Band) (f : Fld) (wa wb wc : Nat) (tg : Target) (cls : Cls) (dest : Dest) (sh : Shape)
    (parts : List Part) : Rd State := do
  let r := s.issue
  let names := if parts.isEmpty then [] else f.destNames tg
  let b1 := (b.lastReads f wa wb wc r.threads).prune names
  let b2 ← s.allocate r.key b1 names
  if !parts.isEmpty && !b.roomFor cls then .error .hold
  else match s.repMiss b sh parts with
    | some q => return ((s.putBand { b with pageWait := some q }).pageRequest q.1 (s.bandCtx b) (if sh.kind = .load then 0 else 1)).hold
    | none =>
      let (s1, b3) := s.post r.key b2 cls dest sh parts
      return s1.putBand (b3.advance r r.threads)

/-! ### Loads (R195, R196, R199, R200) -/

/-- LD and LDW: one access for each guarded thread. -/
def State.loadOp (s : State) (f : Fld) (space : Nat) : Out :=
  s.withBand fun b => do
    let ts ← b.guarded f s.issue.threads
    let n := tiBits f.sub / 8
    let tg : Target := .regs (tiWords f.sub)
    let wsw := match s.flight? b.flight with | some fl => fl.wsw | none => false
    if b.destPending f tg ts then .error .hold
    else
      let as ← s.memAddrs b f space ts
      if space = 2 && wsw && !ts.isEmpty then .error illOpnd
      else if f.ord && as.any (fun p => p.2 % n ≠ 0) then .error illOpnd
      else
        s.checkAll b space needX n as
        let parts := as.map fun p => ({ thread := p.1, va := p.2, addr := s.target b space p.2, size := n } : Part)
        let dest : Dest := if f.dk then .k f.d f.sub else .v f.d f.sub
        let s1 ← s.issueRun b f (baseBits space) 32 0 tg .ld dest
          { kind := .load, space := space, scope := s.scopeOf b f.scope, acq := f.ord } parts
        let loads := as.flatMap fun p => (lineNames space p.2 (s.target b space p.2) n).map fun q => (p.1, q.1, q.2)
        return { s1 with issue := { s1.issue with loads := s1.issue.loads ++ loads } }

/-- LDK: one access for the run, into k registers (R199). -/
def State.ldkOp (s : State) (f : Fld) : Out :=
  s.withBand fun b => do
    let ts ← b.guarded f s.issue.threads
    let n := tiBits f.sub / 8
    let space := f.space
    let tg : Target := .regs (tiWords f.sub)
    if b.destPending f tg ts then .error .hold
    else
      let one := ts.take 1
      let as ← s.memAddrs b f space one
      if f.ord && as.any (fun p => p.2 % n ≠ 0) then .error illOpnd
      else
        let bad := as.filterMap fun p => s.checkAddr b space needX p.2 n
        if !bad.isEmpty then .error (rangeTrap (ts.map fun t => (t, bad.headD 0)))
        else
          let parts := as.map fun p => ({ thread := p.1, va := p.2, addr := s.target b space p.2, size := n } : Part)
          let s1 ← s.issueRun b f (baseBits space) 32 0 tg .ld (.k f.d f.sub)
            { kind := .load, space := space, scope := s.scopeOf b f.scope, acq := f.ord } parts
          let loads := as.flatMap fun p => (lineNames space p.2 (s.target b space p.2) n).map fun q => (p.1, q.1, q.2)
          return { s1 with issue := { s1.issue with loads := s1.issue.loads ++ loads } }

/-- LD (R196). -/
def execLd (f : FormS) (s : State) : Out := s.loadOp (viewS f) 0
def execLdX (f : FormX) (s : State) : Out := s.loadOp (viewX f) (viewX f).space
/-- LDK (R199). -/
def execLdk (f : FormX) (s : State) : Out := s.ldkOp (viewX f)
/-- LDW (R200). -/
def execLdw (f : FormS) (s : State) : Out := s.loadOp (viewS f) 2
def execLdwX (f : FormX) (s : State) : Out := s.loadOp (viewX f) 2

/-! ### Stores (R197) -/

/-- ST: the data is read at issue. -/
def State.storeOp (s : State) (f : Fld) : Out :=
  s.withBand fun b => do
    let ts ← b.guarded f s.issue.threads
    let n := tiBits f.sub / 8
    let space := f.space
    let as ← s.memAddrs b f space ts
    let ds ← mapRd (fun t => b.readOpnd s.fresh t (if f.dk then .k f.d else .v f.d) (tiBits f.sub) 3) ts
    if f.ord && as.any (fun p => p.2 % n ≠ 0) then .error illOpnd
    else
      s.checkAll b space needW n as
      let parts := (as.zip ds).map fun p =>
        ({ thread := p.1.1, va := p.1.2, addr := s.target b space p.1.2, size := n, data := p.2 } : Part)
      s.issueRun b f (baseBits space) 32 0 .none .st .none
        { kind := .store, space := space, scope := s.scopeOf b f.scope, rel := f.ord } parts

/-- ST (R197). -/
def execSt (f : FormS) (s : State) : Out := s.storeOp (viewS f)
def execStX (f : FormX) (s : State) : Out := s.storeOp (viewX f)

/-! ### Fences (R203, R204) -/

/-- FENCE: the run is held until its release is complete; its acquire acts at the step that retires it. -/
def execFence (f : FormS) (s : State) : Out :=
  s.withBand fun b => do
    let kind := f.m.toNat
    let scope := s.scopeOf b (f.d.toNat % 8)
    let (s1, ok) := if 2 ≤ kind then s.releaseRun scope else (s, true)
    if !ok then return s1.hold
    else
      let r := s.issue
      let s2 := if kind = 2 then s1 else s1.acquire r.key r.threads scope (s1.invsTo r.core)
      return s2.modBand r.key fun b => b.advance r r.threads

/-! ### Atomics (R205 to R210) -/

/-- The address of an atomic (R205). -/
def State.atomAddr (s : State) (b : Band) (f : Fld) (t : Nat) : Rd Nat := do
  let x ← b.readOpnd s.fresh t f.a 64 1
  return wrap ((x : Int) + dispOf f.w2 20) 64

/-- The TI code of a returned old value. -/
def atomTi (n : Nat) : Nat := if n = 8 then 9 else 8

/-- Some address of a run lies in the host half, where only some atomics are legal (R464). -/
def State.anyHost (s : State) (b : Band) (as : List (Nat × Nat)) : Bool := as.any fun p => isHost (s.target b 0 p.2)

/-- ATOM and RED: one access for each guarded thread; `ret` tells whether the old value returns. On the host half only ATOM `.add`,
`.exch` and `.cas` of an integer or `.b` type are legal (R464). -/
def State.atomOp (s : State) (f : Fld) (ret : Bool) : Out :=
  s.withBand fun b => do
    let ts ← b.guarded f s.issue.threads
    let ty := bits f.w2 31 28
    let n := atomBytes ty
    let tg : Target := if ret then .regs (wordsFor (8 * n)) else .none
    let cas := f.sub = 7 && ret
    if b.destPending f tg ts then .error .hold
    else
      let as ← mapRd (fun t => do return (t, ← s.atomAddr b f t)) ts
      let ds ← mapRd (fun t => do
        let x ← b.readOpnd s.fresh t f.b (8 * n) 2
        let c ← if cas then b.readOpnd s.fresh t f.c (8 * n) 3 else .ok 0
        return (x, c)) ts
      if as.any (fun p => p.2 % n ≠ 0) then .error illOpnd
      else
        s.checkAll b 0 needXWA n as
        if s.anyHost b as && !(ret && (f.sub = 0 || f.sub = 6 || f.sub = 7) && ty ≠ 6) then .error illOpnd
        let ord := f.mf / 4
        let parts := (as.zip ds).map fun p =>
          ({ thread := p.1.1, va := p.1.2, addr := s.target b 0 p.1.2, size := n, data := p.2.1, cmp := p.2.2 } : Part)
        let dest : Dest := if !ret then .none else if f.dk then .k f.d (atomTi n) else .v f.d (atomTi n)
        s.issueRun b f 64 (8 * n) (if cas then 8 * n else 0) tg (if ret then .ld else .st) dest
          { kind := if ret then .atom else .red, scope := s.scopeOf b (bits f.w2 27 25), acq := ret && bitOf ord 0,
            rel := bitOf ord 1, op := f.sub, ty := ty } parts

/-- The merge of one element of a run's contributions to a word (R208). -/
def atom2Merge (op : Nat) (els : List Nat) : Nat :=
  let f := atom2Fmt op
  let sr : Sr := { seed := 0, tid := 0, ctr := 0 }
  let widen (c : Nat) : Nat := (roundFv .f32 (f.decode c) 0 sr).1
  match els with
  | [] => 0
  | e :: r =>
    match op with
    | 0 | 1 => r.foldl (fun a c => (faddEl .f32 0 sr a (widen c) 0).1) (widen e)
    | 2 => r.foldl (fun a c => (fminmaxEl true f 0 sr a c 0).1) e
    | _ => r.foldl (fun a c => (fminmaxEl false f 0 sr a c 0).1) e

/-- ATOM2: the contributions of a run to one word leave the core merged (R208); never on the host half (R464). -/
def State.atom2Op (s : State) (f : Fld) : Out :=
  s.withBand fun b => do
    let ts ← b.guarded f s.issue.threads
    let tg : Target := .regs 1
    if b.destPending f tg ts then .error .hold
    else
      let as ← mapRd (fun t => do return (t, ← s.atomAddr b f t)) ts
      let ds ← mapRd (fun t => b.readOpnd s.fresh t f.b 32 2) ts
      if as.any (fun p => p.2 % 4 ≠ 0) then .error illOpnd
      else
        s.checkAll b 0 needXWA 4 as
        if s.anyHost b as then .error illOpnd
        let all := as.zip ds
        let words := (as.map (·.2)).eraseDups
        let parts := words.map fun w =>
          let g := all.filter fun p => p.1.2 = w
          ({ thread := (g.map (·.1.1)).headD 0, va := w, addr := s.target b 0 w, size := 4,
             data := atom2Merge f.sub (g.map fun p => p.2 % 65536), cmp := atom2Merge f.sub (g.map fun p => p.2 / 65536),
             fan := g.map (·.1.1) } : Part)
        let ord := f.mf / 4
        s.issueRun b f 64 32 0 tg .ld (if f.dk then .k f.d 8 else .v f.d 8)
          { kind := .atom2, scope := s.scopeOf b (bits f.w2 27 25), acq := bitOf ord 0, rel := bitOf ord 1, op := f.sub } parts

/-- ATOM (R207). -/
def execAtom (f : XL) (s : State) : Out := s.atomOp (viewXL f) true
/-- ATOM2 (R208). -/
def execAtom2 (f : XL) (s : State) : Out := s.atom2Op (viewXL f)
/-- RED (R209). -/
def execRed (f : XL) (s : State) : Out := s.atomOp (viewXL f) false

/-! ### Watches (R211 to R215) -/

/-- The line that a band's name stands for: a scratchpad line of the cluster, not of the allocation. -/
def State.lineAt (s : State) (b : Band) (name : Nat) : Nat := if name < 2 ^ 63 then name else name + (s.alloc b).1

/-- The lines with an entry of a core's watch table (R212). -/
def State.tabled (s : State) (core : Nat) : List Nat :=
  ((s.bands.filter fun p => keyCore p.1 = core).flatMap fun p =>
    ((p.2.watches.filter (·.tabled)).map (·.name) ++ p.2.tracker.alines.filter (!p.2.tracker.untabled.contains ·)).map (s.lineAt p.2)).eraseDups

/-- Whether a line of the band at a slot would have an entry of its core's watch table (R212). -/
def State.tableHas (s : State) (k name : Nat) : Bool :=
  let t := s.tabled (keyCore k)
  decide (t.length < 64) || (s.band? k).any fun b => t.contains (s.lineAt b name)

/-- A line added to a band's set with its event bits clear (R212, R213). -/
def State.arm (s : State) (k name : Nat) : State :=
  s.modBand k fun b =>
    if b.watches.any (·.name = name) then b
    else { b with watches := b.watches ++ [{ name := name, tabled := s.tableHas k name, events := 0 }] }

/-- WATCH and UNWATCH: the distinct lines that the guarded threads name. -/
def State.watchOp (s : State) (f : Fld) (add : Bool) : Out :=
  s.withBand fun b => do
    let ts ← b.guarded f s.issue.threads
    let space := f.space
    if !add && f.sub = 1 then
      return s.retire { b with watches := if ts.isEmpty then b.watches else [] } f 0 0 0
    else
      let as ← s.memAddrs b f space ts
      s.checkAll b space needX 1 as
      let name (a : Nat) : Nat := if space = 0 then nameGlobal (s.target b 0 a) else nameScratch a
      let names := (as.map fun p => name p.2).eraseDups
      if !add then
        return (s.retire { b with watches := b.watches.filter fun w => !names.contains w.name } f (baseBits space) 32 0)
      else
        let new := names.filter fun n => !b.watches.any (·.name = n)
        if 4 < b.watches.length + new.length then .error illOpnd
        else match (if space = 0 then as.find? fun p => !s.mapped (s.target b 0 p.2) false else none) with
          | some p =>
            let ia := s.target b 0 p.2
            return ((s.putBand { b with pageWait := some (ia, p.2) }).pageRequest ia (s.bandCtx b) 0).hold
          | none =>
            let s1 := names.foldl (fun s n => s.arm s.issue.key n) (s.retire b f (baseBits space) 32 0)
            return { s1 with issue := { s1.issue with loads := as.map fun p => (p.1, p.2, name p.2) } }

/-- WATCH (R212). -/
def execWatch (f : FormS) (s : State) : Out := s.watchOp (viewS f) true
def execWatchX (f : FormX) (s : State) : Out := s.watchOp (viewX f) true
/-- UNWATCH (R215). -/
def execUnwatch (f : FormS) (s : State) : Out := s.watchOp (viewS f) false
def execUnwatchX (f : FormX) (s : State) : Out := s.watchOp (viewX f) false

/-- WAITW (R214): each guarded thread advances or parks. -/
def State.waitwOp (s : State) (f : Fld) : Out :=
  s.withBand fun b => do
    let r := s.issue
    let ts ← b.guarded f r.threads
    let parks (t : Nat) : Bool := ts.contains t && !b.watches.isEmpty && !b.hasEvent t
    let b1 := (b.advance r (r.threads.filter (!parks ·))).modThreads (r.threads.filter parks) fun _ th =>
      { th with state := .onWatch, park := .waitw (s.cycleAt r.core) r.len }
    return s.putBand (ts.foldl (fun b t => if parks t then b else b.clearEvents t) b1)

/-- WAITW (R214). -/
def execWaitw (f : FormS) (s : State) : Out := s.waitwOp (viewS f)
def execWaitwX (f : FormX) (s : State) : Out := s.waitwOp (viewX f)

/-- A thread parked at a WAITW of a band with an untabled line wakes after 2,048 cycles (R214). -/
def execWaitwTimeout (band thread : Nat) (s : State) : Out :=
  match s.band? band with
  | none => .next s
  | some b =>
    match (b.thread thread).state, (b.thread thread).park with
    | .onWatch, .waitw since len =>
      if b.watches.any (!·.tabled) && since + 2048 ≤ s.cycleAt (keyCore band) then
        .next ((s.setBand band (b.wake thread len)).count (keyCore band) 5 1)
      else .next s
    | _, _ => .next s

/-! ### Prefetch (R216) -/

/-- PREF: a request for the line, not counted, dropped where it would fault. -/
def State.prefOp (s : State) (f : Fld) : Out :=
  s.withBand fun b => do
    let ts ← b.guarded f s.issue.threads
    let as ← s.memAddrs b f 0 ts
    let good := as.filter fun p => (s.checkAddr b 0 needX p.2 1).isNone && s.mapped (s.target b 0 p.2) false
    let us := if f.sub = 1 then [] else good.zipIdx.map fun q =>
      ({ id := s.nextId + q.2, gid := 0, core := s.issue.core, band := s.issue.key, thread := q.1.1, kind := .pref, space := 0,
         va := q.1.2, addr := s.target b 0 q.1.2, size := 1, scope := 0, flight := b.flight, ctx := s.bandCtx b, uid := b.uid } : Acc)
    let s1 := s.retire b f 64 32 0
    return { s1 with iq := s1.iq ++ us, nextId := s1.nextId + us.length }

/-- PREF (R216). -/
def execPref (f : FormS) (s : State) : Out := s.prefOp (viewS f)
def execPrefX (f : FormX) (s : State) : Out := s.prefOp (viewX f)

/-! ### Counters and tags (R194, R225) -/

/-- WAITC (R194). -/
def execWaitc (f : FormX) (s : State) : Out :=
  s.withBand fun b => do
    let v := viewX f
    let ts ← b.guarded v s.issue.threads
    let ok := decide (b.outstanding .ld ≤ bits v.w2 7 0) && decide (b.outstanding .st ≤ bits v.w2 15 8)
      && decide (b.outstanding .cp ≤ bits v.w2 23 16) && decide (b.outstanding .tl ≤ bits v.w2 31 24)
    if ts.isEmpty || ok then return s.retire b v 0 0 0 else .error .hold

/-- The masks of the guarded threads (R224). -/
def State.tagMasks (s : State) (b : Band) (f : Fld) (ts : List Nat) : Rd (List (Nat × Nat)) :=
  mapRd (fun t => do return (t, ← b.readOpnd s.fresh t f.b 64 2)) ts

/-- The acquire at cluster scope that a tag wait makes for each thread, with the tags that it saw set: its access step is the latest
completion among them (R225, R291). -/
def State.tagAcquire (s : State) (ts : List (Nat × Nat)) : State :=
  let at' (tags : Nat) : Nat := ((members tags 64).map fun g => Tbl.get (s.core s.issue.core).tagAt g 0).foldl max 0
  ts.foldl (fun s p => s.acquire s.issue.key [p.1] 3 (s.invsBefore s.issue.core (at' p.2))) s

/-- TWANY and TWALL: the run is held until every guarded thread's condition holds (R225). -/
def State.tagWait (s : State) (f : Fld) (cond : Nat → Nat → Bool) : Out :=
  s.withBand fun b => do
    let ts ← b.guarded f s.issue.threads
    let ms ← s.tagMasks b f ts
    let tags := (s.core s.issue.core).tags
    if ms.all fun p => cond tags p.2 then
      let s1 := s.tagAcquire ((ms.filter fun p => tags &&& p.2 ≠ 0).map fun p => (p.1, tags &&& p.2))
      return s1.retire ((s1.band? s.issue.key).getD b) f 0 64 0
    else .error .hold

/-- TFFR (R225). -/
def State.tffrOp (s : State) (f : Fld) : Out :=
  let tags := (s.core s.issue.core).tags
  let low (m : Nat) : Nat := (members (tags &&& m) 64).headD 64
  match s.perThread f 0 64 0 (.regs 1) (fun i => .ok (low i.b, 0)) with
  | .next s1 =>
    if s1.issue.held then .next s1
    else match s.band? s.issue.key with
      | none => .next s1
      | some b =>
        let saw := match b.guarded f s.issue.threads with
          | .ok ts => ts.filterMap fun t => match b.readOpnd s.fresh t f.b 64 2 with
            | .ok m => if low m < 64 then some (t, tags &&& m) else none
            | .error _ => none
          | .error _ => []
        .next (s1.tagAcquire saw)
  | o => o

/-- The tags of a mask noted in TUSE of a team (R390). -/
def State.useTags (s : State) (flight team mask : Nat) : State :=
  s.modFlight flight fun f => match Tbl.find? f.members team with
    | some t => { f with members := Tbl.put f.members team { t with tuse := t.tuse ||| mask } }
    | none => f

/-- TCLR (R225). -/
def State.tclrOp (s : State) (f : Fld) : Out :=
  s.withBand fun b => do
    let ts ← b.guarded f s.issue.threads
    let ms ← s.tagMasks b f ts
    let s1 := (s.retire b f 0 64 0).useTags b.flight b.team (ms.foldl (fun x p => x ||| p.2) 0)
    return s1.modCore s.issue.core fun c => { c with tags := ms.foldl (fun t p => t ^^^ (t &&& p.2)) c.tags }

/-- TWANY, TWALL, TFFR and TCLR (R225). -/
def execTwany (f : FormS) (s : State) : Out := s.tagWait (viewS f) fun tags m => tags &&& m ≠ 0
def execTwanyX (f : XL) (s : State) : Out := s.tagWait (viewXL f) fun tags m => tags &&& m ≠ 0
def execTwall (f : FormS) (s : State) : Out := s.tagWait (viewS f) fun tags m => tags &&& m = m
def execTwallX (f : XL) (s : State) : Out := s.tagWait (viewXL f) fun tags m => tags &&& m = m
def execTffr (f : FormS) (s : State) : Out := s.tffrOp (viewS f)
def execTffrX (f : XL) (s : State) : Out := s.tffrOp (viewXL f)
def execTclr (f : FormS) (s : State) : Out := s.tclrOp (viewS f)
def execTclrX (f : XL) (s : State) : Out := s.tclrOp (viewXL f)

end Sys2Proof.Machine
end

