-- ==== Sys2Proof/Machine/Convert.lean ====
section
/-!
DEFINITION. Sys2Proof/Machine/Convert.lean: conversion and narrow formats (R137 to R146), with the VQ2 decode of R28.
-/
namespace Sys2Proof.Machine

/-- The value of a source element under CVT's source code (R138, R139). -/
def cvtSource (srci : Bool) (code x : Nat) : Fv :=
  if srci then fvOfInt (srcTI code x) else if code = 8 then decodeE8m0 x else (fmtOf code).decode x

/-- One element converted (R139): the bits and the draws. An integer narrower than 32 bits is widened by R111's Put, which R139's
pseudocode calls, and not cleared above its width as R139's prose has it (log entry 109). -/
def cvtElement (dsti : Bool) (code : Nat) (x : Fv) (mode : Nat) (sat : Bool) (sr : Sr) : Nat × Nat :=
  if dsti then
    let r := convI (tiBits code) (tiSigned code) x mode sr
    (putTI code false (srcTI code r.1), r.2)
  else if code = 8 then convE8m0 x mode sr
  else convF (fmtOf code) x mode sat sr

/-- CVT (R138, R139). -/
def State.cvtOp (s : State) (f : Fld) : Out :=
  let srci := bitOf f.w2 9; let dsti := bitOf f.w2 10; let half := bitOf f.w2 11
  let wa := if srci then tiBits f.sub else 32
  if !dsti && (f.mf = 3 || f.mf = 4) then
    let fm := (tfFmt f.mf).1
    s.perThread f 32 32 0 (.regs 1) fun i =>
      let r0 := convF fm (Fmt.f32.decode i.a) f.rnd f.sat i.sr
      let r1 := convF fm (Fmt.f32.decode i.b) f.rnd f.sat (if r0.2 = 1 then i.sr.next else i.sr)
      .ok (r0.1 + 2 ^ 16 * r1.1, r0.2 + r1.2)
  else
    let dw := if dsti then tiWords f.mf else 1
    s.perThread f wa 0 0 (.regs dw) fun i =>
      let src := if !srci && (f.sub = 3 || f.sub = 4) then
          (tfFmt f.sub).1.decode (if half then i.a / 2 ^ 16 else i.a)
        else cvtSource srci f.sub i.a
      .ok (cvtElement dsti f.mf src f.rnd f.sat i.sr)

/-- A destination register's present value, read by an instruction that changes part of it (R141, R144). -/
def In.old (i : In) (f : Fld) : Rd Nat := i.band.readOpnd i.fresh i.t (if f.dk then .k f.d else .v f.d) 32 0

/-- A number with its bits [lo + n - 1 : lo] replaced. -/
def setBits (x lo n v : Nat) : Nat := x - x / 2 ^ lo % 2 ^ n * 2 ^ lo + v % 2 ^ n * 2 ^ lo

/-- EMAX of SCALEX's formats (R141). -/
def scaleEmax (tf : Nat) : Int := match tf with | 5 => 8 | 6 => 15 | _ => 2

/-- SCALEX's scale byte (R141). -/
def scaleByte (tf : Nat) (x : Fv) : Nat :=
  match x with
  | .nan | .inf _ => 255
  | .zero _ => 127
  | .fin _ m e => (min (max ((Nat.log2 m : Int) + e - scaleEmax tf + 127) 0) 254).toNat

/-- The scale byte BSEL of a register value (R26). -/
def Fld.scaleOf (f : Fld) (x : Nat) : Nat := x / 2 ^ (8 * f.bsel) % 256

/-- Elements converted in ascending order with their draws (R33): each of w bits, lowest first. -/
def convList (w : Nat) (op : Fv → Sr → Nat × Nat) : List Fv → Sr → Nat × Nat
  | [], _ => (0, 0)
  | x :: r, sr =>
    let a := op x sr
    let b := convList w op r (if a.2 = 1 then sr.next else sr)
    (a.1 + 2 ^ w * b.1, a.2 + b.2)

/-- The values of the n FP32 registers of a group. -/
def groupVals (x n : Nat) : List Fv := (List.range n).map fun i => Fmt.f32.decode (x / 2 ^ (32 * i))

/-- QPACK (R142). -/
def State.qpackOp (s : State) (f : Fld) : Out :=
  let fm := fmtOf f.sub
  let n := if f.sub = 7 then 8 else 4
  s.perThread f (32 * n) 32 0 (.regs 1) fun i =>
    let sc := f.scaleOf i.b
    let op (x : Fv) (sr : Sr) : Nat × Nat :=
      if sc = 255 || x.isNan then (fm.nan, 0) else convF fm (x.scale (127 - (sc : Int))) f.rnd f.sat sr
    .ok (convList (32 / n) op (groupVals i.a n) i.sr)

/-- QUNPK (R143). -/
def State.qunpkOp (s : State) (f : Fld) : Out :=
  let fm := fmtOf f.sub
  let n := if f.sub = 7 then 8 else 4
  s.perThread f 32 32 0 (.regs n) fun i =>
    let sc := f.scaleOf i.b
    let op (x : Fv) (sr : Sr) : Nat × Nat :=
      if sc = 255 then (Fmt.f32.nan, 0) else roundFv .f32 (x.scale ((sc : Int) - 127)) f.rnd sr
    .ok (convList 32 op ((List.range n).map fun j => fm.decode (i.a / 2 ^ (32 / n * j))) i.sr)

/-! ### VQ2 (R27, R28, R144 to R146) -/

/-- The eight values of an index against a pattern, in halves of the scale (R28): value i is twice the magnitude with its
sign, plus the coset. -/
def vq2Halves (pattern x : Nat) : List Int :=
  let sg (i : Nat) : Bool := bitOf x (i + 1)
  let s7 := ((List.range 7).filter sg).length % 2 = 1
  (List.range 8).map fun i =>
    let m : Int := ((pattern / 2 ^ (3 * i) % 8 : Nat) : Int)
    (if (if i = 7 then s7 else sg i) then -(2 * m) else 2 * m) + ((x % 2 : Nat) : Int)

/-- The codebook entry e of table t of a cluster's engine as a thread reads it; an unloaded table holds undefined entries, which
may read otherwise each time (R8, R146). -/
def State.codebook (s : State) (cluster thread t e : Nat) : Nat :=
  match Tbl.find? (s.cluster cluster).engine.cbtbl t with
  | some l => l.getD e 0
  | none => Config.freeNat s.fresh ((cluster * 64 + thread) * 512 + t * 256 + e) % 2 ^ 24

/-- The squared distance of eight halves from eight values clamped to [-8, 8], over a common exponent. -/
def vq2Dist (halves : List Int) (ys : List (Int × Int)) : Int × Int :=
  let ds := (halves.zip ys).map fun p =>
    let e := min (-1) p.2.2
    let d := p.1 * (2 : Int) ^ (-1 - e).toNat - p.2.1 * (2 : Int) ^ (p.2.2 - e).toNat
    (d * d, 2 * e)
  sumTerms ds

/-- Whether a is below b, both over powers of two. -/
def ltScaled (a b : Int × Int) : Bool :=
  let e := min a.2 b.2
  a.1 * (2 : Int) ^ (a.2 - e).toNat < b.1 * (2 : Int) ^ (b.2 - e).toNat

/-- The nearest index, the lowest on a tie (R144), over the indices below n. -/
def vq2Nearest (entry : Nat → Nat) (ys : List (Int × Int)) (n : Nat) : Nat :=
  let dist (q : Nat) : Int × Int := vq2Dist (vq2Halves (entry (q / 256)) q) ys
  ((List.range n).foldl (fun (best : Nat × (Int × Int)) q =>
    let d := dist q
    if ltScaled d best.2 then (q, d) else best) (0, dist 0)).1

/-- CBENC's clamped values over powers of two (R144). -/
def vq2Clamp (x : Fv) (sc : Nat) : Int × Int :=
  match x with
  | .nan => (0, 0)
  | .zero _ => (0, 0)
  | .inf n => (if n then -8 else 8, 0)
  | .fin n m e =>
    let e' := e + 127 - (sc : Int)
    if 3 ≤ (Nat.log2 m : Int) + e' then (if n then -8 else 8, 0) else (signedMant n m, e')

/-- CBENC (R144). -/
def State.cbencOp (s : State) (f : Fld) : Out :=
  let tbl := bits f.w2 10 10; let half := bits f.w2 9 9
  s.perThread f 256 32 0 (.regs 1) fun i => do
    let old ← i.old f
    let sc := f.scaleOf i.b
    let q := if sc = 255 then 0
      else vq2Nearest (s.codebook (coreCluster i.core) i.t tbl) ((groupVals i.a 8).map fun x => vq2Clamp x sc) 65536
    return (setBits old (16 * half) 16 q, 0)

/-- CBDEC (R145); a value of 0 gives +0. -/
def State.cbdecOp (s : State) (f : Fld) : Out :=
  let tbl := bits f.w2 10 10; let half := bits f.w2 9 9
  s.perThread f 32 32 0 (.regs 8) fun i =>
    let sc := f.scaleOf i.b
    let x := i.a / 2 ^ (16 * half) % 2 ^ 16
    let vals := (vq2Halves (s.codebook (coreCluster i.core) i.t tbl (x / 256)) x).map fun h =>
      (fvOfInt h).scale ((sc : Int) - 128)
    let op (v : Fv) (sr : Sr) : Nat × Nat := if sc = 255 then (Fmt.f32.nan, 0) else roundFv .f32 v f.rnd sr
    .ok (convList 32 op vals i.sr)

/-! ### The instructions -/

/-- CVT (R138). -/
def execCvt (f : XL) (s : State) : Out := s.cvtOp (viewXL f)
/-- SCALEX (R141). -/
def execScalex (f : XL) (s : State) : Out :=
  let v := viewXL f
  s.perThread v 32 0 0 (.regs 1) fun i => do
    return (setBits (← i.old v) (8 * v.bsel) 8 (scaleByte v.sub (Fmt.f32.decode i.a)), 0)
/-- QPACK (R142), QUNPK (R143), CBENC (R144), CBDEC (R145). -/
def execQpack (f : XL) (s : State) : Out := s.qpackOp (viewXL f)
def execQunpk (f : XL) (s : State) : Out := s.qunpkOp (viewXL f)
def execCbenc (f : XL) (s : State) : Out := s.cbencOp (viewXL f)
def execCbdec (f : XL) (s : State) : Out := s.cbdecOp (viewXL f)

end Sys2Proof.Machine
end

