-- ==== Sys2Proof/Machine/Accum.lean ====
section
/-!
DEFINITION. Sys2Proof/Machine/Accum.lean: the carry-save accumulator element (R36 to R43): one product added, propagation and wide
normalisation, resolve, re-expansion, comparison, and the memory images of slots (R236).
-/
namespace Sys2Proof.Machine

/-- A 72-bit two's complement number. -/
def signed72 (x : Nat) : Int := signed x 72
/-- An integer modulo 2^72. -/
def mod72 (x : Int) : Nat := wrap x 72

/-- V of an element: S + C as a signed 72-bit number (R37). -/
def El.v (e : El) : Int := signed72 (e.s + e.c)
/-- The exponent of bit 0 (R37). -/
def El.w (e : El) : Int := (e.anc : Int) - 599
/-- Whether the element is unordered (R251). -/
def El.unordered (e : El) : Bool := e.nan || (e.pinf && e.ninf)

/-- floor(log2 |x|) of a non-zero integer times 2^e. -/
def logInt (x : Int) (e : Int) : Int := (Nat.log2 x.natAbs : Int) + e

/-- The anchor's rise h for a product p times 2^e (R38). -/
def El.rise (el : El) (p e : Int) : Nat :=
  let w := el.w
  let lo := min w e
  let sum := el.v * (2 : Int) ^ (w - lo).toNat + p * (2 : Int) ^ (e - lo).toNat
  let a := logInt p e - w - 59
  let b := if sum = 0 then 0 else logInt sum lo - w - 69
  (max a (max b 0)).toNat

/-- The anchor raised by h (R38). -/
def El.raise (el : El) (h : Nat) : El :=
  let g := min h 72
  { el with
    stk := el.stk || el.s % 2 ^ g ≠ 0 || el.c % 2 ^ g ≠ 0
    s := mod72 (signed72 el.s / (2 : Int) ^ h)
    c := mod72 (signed72 el.c / (2 : Int) ^ h)
    anc := el.anc + h }

/-- A finite non-zero product p times 2^e added in carry-save form (R38). -/
def El.addFinite (el : El) (p e : Int) : El :=
  let h := el.rise p e
  if 1023 < el.anc + h then
    let lo := min el.w e
    if 0 < el.v * (2 : Int) ^ (el.w - lo).toNat + p * (2 : Int) ^ (e - lo).toNat then { el with pinf := true } else { el with ninf := true }
  else
    let r := if h = 0 then el else el.raise h
    let k := e - r.w
    let q : Nat := if 0 ≤ k then p.natAbs * 2 ^ k.toNat else p.natAbs / 2 ^ (-k).toNat
    let exact := if 0 ≤ k then true else decide (p.natAbs % 2 ^ (-k).toNat = 0)
    let x := mod72 (if p < 0 then -(q : Int) else (q : Int))
    { r with
      stk := r.stk || !exact
      s := r.s ^^^ r.c ^^^ x
      c := ((r.s &&& r.c) ||| (r.s &&& x) ||| (r.c &&& x)) * 2 % 2 ^ 72 }

/-- Accumulate (R38): one exact product into an element. -/
def El.accumulate (el : El) (p : Fv) : El :=
  if el.nan then el
  else match p with
    | .nan => { el with nan := true }
    | .inf false => if el.ninf then { el with nan := true } else { el with pinf := true }
    | .inf true => if el.pinf then { el with nan := true } else { el with ninf := true }
    | .zero _ => el
    | .fin neg m e => if el.pinf || el.ninf then el else el.addFinite (signedMant neg m) e

/-- The propagate pass with wide normalisation (R41): W in S, C zero. -/
def El.propagate (el : El) : El :=
  let w : El := { el with s := (el.s + el.c) % 2 ^ 72, c := 0 }
  if el.stk then w
  else if w.s = 0 then { w with anc := 0 }
  else
    let i := Nat.log2 (signed72 w.s).natAbs
    if i < 59 then
      let d := min (59 - i) w.anc
      { w with s := w.s * 2 ^ d % 2 ^ 72, anc := w.anc - d }
    else w

/-- Resolve (R42): the code and the draws. -/
def El.resolve (el : El) (f : Fmt) (mode : Nat) (sr : Sr) : Nat × Nat :=
  if el.unordered then (f.nan, 0)
  else if el.pinf then (f.inf false, 0)
  else if el.ninf then (f.inf true, 0)
  else
    let v := el.v
    if v = 0 && !el.stk then (f.zero false, 0)
    else
      -- epsilon is below every quantum: it acts as a sticky part, or takes the magnitude of a negative value just below
      let x : Ex :=
        if v = 0 then { neg := false, n := 1, e := -5000, sticky := true }
        else if el.stk && v < 0 then { neg := true, n := v.natAbs * 2 ^ 1200 - 1, e := el.w - 1200, sticky := true }
        else { neg := v < 0, n := v.natAbs, e := el.w, sticky := el.stk }
      (f.round x mode sr, drawsOf mode)

/-- A resolved element re-expanded (R43). -/
def reExpand (f : Fmt) (code : Nat) : El :=
  match f.decode code with
  | .nan => { nan := true }
  | .inf false => { pinf := true }
  | .inf true => { ninf := true }
  | .zero _ => {}
  | .fin neg m e =>
    let top := (Nat.log2 m : Int) + e
    { s := mod72 (signedMant neg (m * 2 ^ (59 - Nat.log2 m))), anc := (top + 540).toNat }

/-- The exact value of an element as ACMP compares it (R251): none where it is unordered; else minus 1, 0 or 1 for its
infinity, and the finite value V, its exponent and STK. -/
def El.value (el : El) : Option (Int × Int × Int × Bool) :=
  if el.unordered then none
  else if el.pinf then some (1, 0, 0, false)
  else if el.ninf then some (-1, 0, 0, false)
  else some (0, el.v, el.w, el.stk)

/-- The order of two exact values (R251). -/
def cmpValues (x y : Int × Int × Int × Bool) : Ordering :=
  if x.1 ≠ y.1 then compare x.1 y.1
  else
    let lo := min x.2.2.1 y.2.2.1
    let a := x.2.1 * (2 : Int) ^ (x.2.2.1 - lo).toNat
    let b := y.2.1 * (2 : Int) ^ (y.2.2.1 - lo).toNat
    if a ≠ b then compare a b
    else if x.2.2.2 = y.2.2.2 then .eq else if x.2.2.2 then .gt else .lt

/-! ### Slots and their images (R234, R236) -/

/-- The format of a resolved slot. -/
def rfFmt (bf16 : Bool) : Fmt := if bf16 then .bf16 else .f32

/-- The elements with which a slot enters accumulation (R245). -/
def SlotVal.enter : SlotVal → List El
  | .empty => List.replicate 1024 {}
  | .raw l => l
  | .wide l => l
  | .resolved bf l => l.map (reExpand (rfFmt bf))

/-- The elements of a slot in wide form. -/
def SlotVal.wideEls : SlotVal → List El
  | .empty => List.replicate 1024 {}
  | .raw l => l.map El.propagate
  | .wide l => l
  | .resolved bf l => l.map (reExpand (rfFmt bf))

/-- A list mapped by an operation that draws, in ascending order, with the draws. -/
def mapDraws {α : Type} (op : α → Sr → Nat × Nat) : List α → Sr → List Nat × Nat
  | [], _ => ([], 0)
  | a :: r, sr =>
    let q := op a sr
    let rest := mapDraws op r { sr with ctr := (sr.ctr + q.2) % 2 ^ 32 }
    (q.1 :: rest.1, q.2 + rest.2)

/-- The codes of a slot in a resolved format (R234, R250), with the draws. -/
def SlotVal.codes (v : SlotVal) (bf16 : Bool) (mode : Nat) (sr : Sr) : List Nat × Nat :=
  let f := rfFmt bf16
  match v with
  | .empty => (List.replicate 1024 0, 0)
  | .raw l => mapDraws (fun e r => e.resolve f mode r) l sr
  | .wide l => mapDraws (fun e r => e.resolve f mode r) l sr
  | .resolved bf l => if bf = bf16 then (l, 0) else mapDraws (fun c r => roundFv f ((rfFmt bf).decode c) mode r) l sr

/-- An element's flags and anchor from bit 0 up: ANC, STK, NAN, PINF, NINF. -/
def El.tail (e : El) : Nat :=
  e.anc % 1024 + (if e.stk then 2 ^ 10 else 0) + (if e.nan then 2 ^ 11 else 0) + (if e.pinf then 2 ^ 12 else 0) + (if e.ninf then 2 ^ 13 else 0)

/-- The raw image of an element, 20 bytes (R36). -/
def El.rawImage (e : El) : Nat := e.s + e.c * 2 ^ 72 + e.tail * 2 ^ 144
/-- The wide image of an element, 12 bytes (R40). -/
def El.wideImage (e : El) : Nat := e.s + e.tail * 2 ^ 72

/-- An element from its flags and anchor. -/
def elTail (s c t : Nat) : El :=
  { s := s, c := c, anc := t % 1024, stk := bitOf t 10, nan := bitOf t 11, pinf := bitOf t 12, ninf := bitOf t 13 }
/-- An element from its raw image; the must-be-zero bits load as zero. -/
def elOfRaw (x : Nat) : El := elTail (x % 2 ^ 72) (x / 2 ^ 72 % 2 ^ 72) (x / 2 ^ 144)
/-- An element from its wide image. -/
def elOfWide (x : Nat) : El := elTail (x % 2 ^ 72) 0 (x / 2 ^ 72)

/-- Bytes of an element in an image form: 1 raw, 2 wide, 3 f32, 4 bf16 (R236, R249). -/
def formBytes (form : Nat) : Nat := match form with | 1 => 20 | 2 => 12 | 3 => 4 | _ => 2

/-- The form that an ACST without a form stores (R235); a RAW slot has none. -/
def SlotVal.formOf (v : SlotVal) : Option Nat :=
  match v with
  | .empty => some 3
  | .raw _ => none
  | .wide _ => some 2
  | .resolved bf _ => some (if bf then 4 else 3)

/-- The elements' images of a slot in a form, and the draws (R250). -/
def SlotVal.image (v : SlotVal) (form mode : Nat) (sr : Sr) : List Nat × Nat :=
  match form with
  | 1 => (v.enter.map El.rawImage, 0)
  | 2 => (v.wideEls.map El.wideImage, 0)
  | 3 => v.codes false mode sr
  | _ => v.codes true mode sr

/-- A slot loaded from its elements' images in a form (R234, R250). -/
def slotOfImage (form : Nat) (l : List Nat) : SlotVal :=
  match form with
  | 1 => .raw (l.map elOfRaw)
  | 2 => .wide (l.map elOfWide)
  | 3 => .resolved false l
  | _ => .resolved true l

/-- STATE of the metadata word (R308). -/
def SlotVal.code : SlotVal → Nat
  | .empty => 0
  | .raw _ => 1
  | .wide _ => 2
  | .resolved _ _ => 3

/-- The metadata word of a slot (R308). -/
def ASlot.metaWord (a : ASlot) : Nat :=
  let rf := match a.val with | .resolved true _ => 1 | _ => 0
  a.prog % 65536 + (if a.stop then 2 ^ 28 else 0) + rf * 2 ^ 29 + a.val.code * 2 ^ 30

end Sys2Proof.Machine
end

