-- ==== Sys2Proof/Machine/Engine.lean ====
section
/-!
DEFINITION. Sys2Proof/Machine/Engine.lean: the tile operations of the matrix engine as a run issues them (R228 to R256): the
parameter block and its checks, the resources each operation names, and the post into the reservation table.
-/
namespace Sys2Proof.Machine

/-! ### The parameter block (R238 to R244) -/

/-- Bytes [hi:lo] of a parameter block. -/
def pbBytes (pb hi lo : Nat) : Nat := pb / 2 ^ (8 * lo) % 2 ^ (8 * (hi + 1 - lo))

/-- The K step of a format (R239); 0 for a code that R238 does not list. -/
def kStep (fmt : Nat) : Nat := match fmt with | 1 | 2 => 32 | 5 | 6 => 64 | 7 | 9 => 128 | _ => 0
/-- Bits per element of a format (R240). -/
def elBits (fmt : Nat) : Nat := match fmt with | 1 | 2 => 16 | 5 | 6 => 8 | 7 => 4 | _ => 2
/-- Bytes of an OUTF code (R243). -/
def outBytes (outf : Nat) : Nat := match outf with | 0 => 4 | 1 | 2 => 2 | _ => 1

/-- A parameter block's fields. -/
structure Mma where
  kt : Nat
  m : Nat
  n : Nat
  fa : Nat
  fb : Nat
  zi : Bool
  pte : Bool
  pt : Nat
  cbt : Nat
  aslot : Nat
  asrc : Nat
  bsrc : Nat
  asc : Nat
  bsc : Nat
  epi : Nat
  escale : Nat
  ebias : Nat
  dst : Nat
  dpitch : Nat
  prog : Nat
  deriving DecidableEq, Repr

/-- The fields of a parameter block (R238). -/
def mmaOf (pb : Nat) : Mma :=
  let mn := pbBytes pb 2 2
  let fm := pbBytes pb 3 3
  let fl := pbBytes pb 4 4
  { kt := pbBytes pb 1 0, m := 32 * (bits mn 2 0 + 1), n := 32 * (bits mn 5 3 + 1), fa := fm % 16, fb := fm / 16, zi := bitOf fl 0,
    pte := bitOf fl 1, pt := bits fl 2 2, cbt := bits fl 3 3, aslot := pbBytes pb 6 6, asrc := pbBytes pb 15 8, bsrc := pbBytes pb 23 16,
    asc := pbBytes pb 27 24, bsc := pbBytes pb 31 28, epi := pbBytes pb 39 32, escale := pbBytes pb 43 40, ebias := pbBytes pb 47 44,
    dst := pbBytes pb 55 48, dpitch := pbBytes pb 59 56, prog := pbBytes pb 61 60 }

namespace Mma
/-- K. -/
def k (x : Mma) : Nat := 32 * x.kt
/-- KB, the operation's K step (R239). -/
def kb (x : Mma) : Nat := min (kStep x.fa) (kStep x.fb)
/-- The number of K steps. -/
def steps (x : Mma) : Nat := x.k / max x.kb 1
/-- Output blocks along N, and all. -/
def nb (x : Mma) : Nat := x.n / 32
def blocks (x : Mma) : Nat := x.m / 32 * (x.n / 32)
/-- The epilogue's fields (R243). -/
def en (x : Mma) : Bool := bitOf x.epi 0
def rnd (x : Mma) : Nat := bits x.epi 4 2
def sb (x : Mma) : Bool := bitOf x.epi 5
def relu (x : Mma) : Bool := bitOf x.epi 6
def clr (x : Mma) : Bool := bitOf x.epi 7
def outf (x : Mma) : Nat := bits x.epi 11 8
def dest (x : Mma) : Nat := bits x.epi 13 12
def rreg (x : Mma) : Nat := bits x.epi 16 14
def osat (x : Mma) : Bool := bitOf x.epi 17
/-- Bytes of a destination row element, and the extent of the destination region (R244). -/
def z (x : Mma) : Nat := outBytes x.outf
def extent (x : Mma) : Nat := (x.m - 1) * x.dpitch + x.n * x.z
end Mma

/-- The offset of the segment of row i for K step q of a scratchpad operand (R240). -/
def segment (src i q : Nat) : Nat :=
  let base := bits src 21 0
  let rot := bits src 25 22
  let x := base + 64 * (q * bits src 63 48 + i * bits src 47 32)
  bits x 21 12 * 2 ^ 12 + (bits x 11 6 + rot * 4 * (i % 16)) % 64 * 2 ^ 6

/-- Whether an operand source breaks R240, R241 or R244. -/
def srcBad (src rows fmt k teamb bandw : Nat) : Bool :=
  if bitOf src 31 then
    let q := k * elBits fmt / 32
    let w := min bandw 32
    rows ≠ 32 || bits src 30 14 ≠ 0 || bits src 63 32 ≠ 0 || (bits src 13 8 ≠ 0x3F && decide (teamb ≤ bits src 13 8))
      || decide (256 < bits src 7 0 + q * (32 / w))
  else bits src 30 26 ≠ 0 || bits src 5 0 ≠ 0

/-- Whether a scale source breaks R242, R244 or R26. -/
def scaleBad (sc rows fmt k bandw : Nat) : Bool :=
  let kind := bits sc 31 30
  ((fmt = 1 || fmt = 2) && kind ≠ 0) || kind = 3 || (kind = 1 && bits sc 29 22 ≠ 0)
    || (kind = 2 && (bits sc 29 10 ≠ 0 || decide (4 * bandw < bits sc 9 8 + rows * (k / 32))))

/-- Whether the epilogue descriptor breaks R243, R244 or R312; `route` is the routing register as granted. -/
def epiBad (x : Mma) (route : Nat) : Bool :=
  if !x.en then x.epi ≠ 0
  else bits x.epi 63 18 ≠ 0 || bitOf x.epi 1 || decide (5 < x.rnd) || !([0, 1, 2, 5, 6].contains x.outf)
    || (x.dest = 0 && x.outf ≠ 0 && x.outf ≠ 2) || (x.sb && x.ebias % 4 ≠ 0)
    || (x.dest = 3 && (route % 4 = 0 || (route % 4 = 3 && (x.dst ≠ 0 || x.outf ≠ 0))))

/-- Whether a parameter block breaks R244. -/
def pbBad (pb route teamb bandw : Nat) : Bool :=
  let x := mmaOf pb
  bits (pbBytes pb 2 2) 7 6 ≠ 0 || bits (pbBytes pb 4 4) 7 4 ≠ 0 || pbBytes pb 5 5 ≠ 0 || pbBytes pb 7 7 ≠ 0 || pbBytes pb 63 62 ≠ 0
    || x.kt = 0 || kStep x.fa = 0 || kStep x.fb = 0 || x.k % max x.kb 1 ≠ 0 || (x.pte && x.k % 256 ≠ 0)
    || decide (128 < x.aslot + x.blocks) || decide (x.steps ≤ x.prog)
    || scaleBad x.asc x.m x.fa x.k bandw || scaleBad x.bsc x.n x.fb x.k bandw
    || srcBad x.asrc x.m x.fa x.k teamb bandw || srcBad x.bsrc x.n x.fb x.k teamb bandw || epiBad x route

/-- Whether an operand's segments leave an allocation of a size (R244). -/
def srcBeyond (src rows fmt : Nat) (x : Mma) (size : Nat) : Bool :=
  !bitOf src 31 && (List.range (x.steps - x.prog)).any fun q => (List.range rows).any fun i =>
    decide (size < segment src i (x.prog + q) + x.kb * elBits fmt / 8)

/-- Whether a scale source leaves an allocation of a size. -/
def scaleBeyond (sc rows : Nat) (x : Mma) (size : Nat) : Bool :=
  bits sc 31 30 = 1 && decide (size < bits sc 21 0 + rows * (x.k / 32))

/-- Whether some range of a parameter block leaves the allocation, or the range set of a context (R244). -/
def pbBeyond (pb size : Nat) (rs : List RangeReg) : Bool :=
  let x := mmaOf pb
  srcBeyond x.asrc x.m x.fa x size || srcBeyond x.bsrc x.n x.fb x size || scaleBeyond x.asc x.m x size || scaleBeyond x.bsc x.n x size
    || (x.en && ((x.sb && decide (size < x.ebias + 4 * x.n)) || (x.dest = 1 && decide (size < x.dst % 2 ^ 32 + x.extent))
        || (x.dest = 2 && (decide (2 ^ 64 < x.dst + x.extent) || (firstFail rs needW x.dst x.extent).isSome))))

/-! ### Resources (R230, R302) -/

/-- A resource of an engine. -/
inductive EngRes where
  | slot (n : Nat)
  | ptbl (n : Nat)
  | cbtbl (n : Nat)
  | route (ctx n : Nat)
  | ring
  deriving DecidableEq, Repr

/-- n + 1 slots from a slot on. -/
def slotRange (slot nm1 : Nat) : List Nat := (List.range (nm1 + 1)).map (slot + ·)

/-- The resources that an operation names, each with whether it writes it (R302). -/
def TileOp.names (op : TileOp) (ctx : Nat) : List (EngRes × Bool) :=
  let slots (s n : Nat) (w : Bool) : List (EngRes × Bool) := (slotRange s n).map fun i => (.slot i, w)
  match op with
  | .mma pb =>
    let x := mmaOf pb
    slots x.aslot (x.blocks - 1) true ++ (if x.pte then [(.ptbl x.pt, false)] else [])
      ++ (if x.fa = 9 || x.fb = 9 then [(.cbtbl x.cbt, false)] else []) ++ (if x.en && x.dest = 3 then [(.route ctx x.rreg, false)] else [])
  | .rslv s n _ _ => slots s n true
  | .acld s n _ _ _ => slots s n true
  | .acst s n form _ _ _ => slots s n (form = 2)
  | .acmp s n sb _ _ comp _ _ => slots s n false ++ (if comp then slots sb n false else [])
  | .acz s n => slots s n true
  | .acmov s n sb => slots s n true ++ slots sb n false
  | .mptbl t _ => [(.ptbl t, true)]
  | .mcbtbl t _ => [(.cbtbl t, true)]
  | .mroute n _ => [(.route ctx n, true)]
  | .mxqPush _ => [(.ring, true)]
  | .mxqInit _ _ => [(.ring, true)]
  | .idle => []

/-- The slots that an operation names, as source or destination (R232). -/
def TileOp.slots (op : TileOp) : List Nat :=
  ((op.names 0).filterMap fun p => match p.1 with | .slot n => some n | _ => none).eraseDups

/-- The resources of an entry; a ring entry also names the ring, and what its command's operation names once that is posted (R302, R315). -/
def Entry.names (e : Entry) : List (EngRes × Bool) := (if e.waits then [] else e.op.names e.ctx) ++ (if e.ring then [(.ring, false)] else [])

/-- Whether two entries share a resource that either writes (R230): the ring, or one other than the ring. -/
def Entry.conflicts (e f : Entry) (ring : Bool) : Bool :=
  e.names.any fun p => decide ((p.1 = .ring) ↔ ring = true) && f.names.any fun q => decide (p.1 = q.1) && (p.2 || q.2)

/-- The place of entry n in the order of posts, for the ring or for another resource: a ring entry names the ring from the moment its command is
consumed on (log entry 32). -/
def Entry.order (e : Entry) (n : Nat) (ring : Bool) : Nat := if ring && e.ring then e.since else n

/-- A slot of an engine. -/
def Engine.slot (e : Engine) (n : Nat) : ASlot := Tbl.get e.slots n {}

/-- The unretired entries of the reservation table, in table order. -/
def Engine.live (e : Engine) : List (Nat × Entry) := e.table.filter fun p => !p.2.retired

/-- The routing register of a context as an operation posted now would meet it at its grant (R244). -/
def Engine.routeOf (e : Engine) (ctx n : Nat) : Nat :=
  let posted := e.live.filterMap fun p => match p.2.op with | .mroute m v => if m = n && p.2.ctx = ctx then some v else none | _ => none
  (posted.getLast?).getD (Tbl.get e.routes (8 * ctx + n) 0)

/-! ### The post (R228, R229, R402) -/

/-- An entry for an operation of the run of the issue register. -/
def State.entryOf (s : State) (b : Band) (op : TileOp) (t gid : Nat) : Entry :=
  let r := s.issue
  let epri := match s.flight? b.flight with | some f => f.epri | none => 0
  let th := b.thread t
  { op := op, prio := epri, core := r.core, lane := r.lane, slot := r.slot, ctx := s.bandCtx b, flight := b.flight, team := b.team,
    sbase := (s.alloc b).1, ssize := (s.alloc b).2, posted := s.cycleAt r.core, gid := gid, thread := t, tidx := th.tidx,
    rndseed := b.rndseed, rndctr := th.rndctr, bandw := b.width, pc := r.pc, uid := b.uid, prog := match op with | .mma pb => (mmaOf pb).prog | _ => 0 }

/-- The unowned slots of a list claimed by a context (R402). -/
def Engine.claim (g : Engine) (ctx : Nat) (ns : List Nat) : Engine :=
  { g with slots := ns.foldl (fun t n =>
      let a := Tbl.get t n {}
      if a.owner.isNone then Tbl.put t n { a with owner := some ctx } else t) g.slots }

/-- A post enters the table (R300): posts of one engine cycle stand in ascending cluster position of their cores, those of one core in issue
order. -/
def Engine.enter (g : Engine) (e : Entry) : Engine :=
  let after := g.table.filter fun p => p.2.posted = e.posted && decide (e.core < p.2.core) && !p.2.ring && !p.2.started && !p.2.retired
  { g with table := ((after.map (·.1) ++ [g.nextEntry]).zip (e :: after.map (·.2))).foldl (fun t p => Tbl.put t p.1 p.2) g.table
           nextEntry := g.nextEntry + 1 }

/-- The issue of a tile operation (R228): the first-use check, a free entry and room in tl, then the claim of its unowned
slots and the post. `dest` and `ts` are those of the operation's completion. -/
def State.postTile (s : State) (b : Band) (f : Fld) (wa wb : Nat) (op : TileOp) (t : Nat) (dest : Dest) (ts : List Nat) : Rd State :=
  let r := s.issue
  let cl := coreCluster r.core
  let eng := (s.cluster cl).engine
  let ctx := s.bandCtx b
  let foreign := op.slots.filter fun n => match (eng.slot n).owner with | some c => c ≠ ctx | none => false
  if !foreign.isEmpty then .ok (s.putBand { b with firstUse := some (r.pc, t, foreign) }).hold
  else if 32 ≤ eng.live.length || !b.roomFor .tl then .error .hold
  else
    let gid := s.nextId
    let g : Group := { gid := gid, cls := .tl, dest := dest, depth := r.depth, pc := r.pc, left := ts.map fun i => (i, 1) }
    let b1 := (b.lastReads f wa wb 0 r.threads).prune []
    let s1 : State := { s with nextId := gid + 1 }
    let s2 := s1.putBand ({ b1 with groups := b1.groups ++ [g] }.advance r r.threads)
    .ok (s2.modCluster cl fun c => { c with engine := (c.engine.claim ctx op.slots).enter (s.entryOf b op t gid) })

/-- A tile operation: once per run, for the lowest guarded thread (R228). -/
def State.tileOp (s : State) (f : Fld) (wa wb : Nat) (go : Band → List Nat → Nat → Rd State) : Out :=
  s.withBand fun b => do
    let ts ← b.guarded f s.issue.threads
    match ts with
    | [] => return s.retire b f wa wb 0
    | t :: _ => go b ts t

/-- An operation without operands to read. -/
def State.plainTile (s : State) (f : Fld) (op : TileOp) : Out := s.tileOp f 0 0 fun b _ t => s.postTile b f 0 0 op t .none [t]

/-! ### MMA (R237 to R244) -/

/-- An MMA with its parameter block: every check of R244, then the post. -/
def State.postMma (s : State) (b : Band) (f : Fld) (wa t pb : Nat) : Rd State :=
  let eng := (s.cluster (coreCluster s.issue.core)).engine
  let teamb := match s.flight? b.flight with | some fl => (Tbl.get fl.members b.team { teamb := fl.teamb }).teamb | none => 1
  let x := mmaOf pb
  if pbBad pb (eng.routeOf (s.bandCtx b) x.rreg) teamb b.width then .error illOpnd
  else if pbBeyond pb (s.alloc b).2 (s.coreRanges s.issue.core) then .error (rangeTrap [])
  else s.postTile b f wa 0 (.mma pb) t .none [t]

/-- MMA (R237): the block from sixteen k registers, or read from memory by the held run. -/
def execMma (f : FormX) (s : State) : Out :=
  let v := viewX f
  s.tileOp v 64 0 fun b _ t =>
    if v.sub = 0 then do
      let a := match v.a with | .k n => n | _ => 0
      let pb ← b.readKGroup a 16
      s.postMma b v 0 t pb
    else do
      let va ← b.readOpnd s.fresh t v.a 64 1
      if va % 64 ≠ 0 then .error illOpnd
      else
        match ← s.blockRead b 1 [t] [{ thread := t, va := va, addr := s.target b 0 va, size := 64 }] (fun _ => none) with
        | .wait s1 => return s1.hold
        | .got vals => s.postMma (b.consume s.issue) v 64 t (Tbl.get vals t 0)

/-- MFENCE (R248): held while a v register write or a scratchpad store of the band is still to be performed. -/
def execMfence (f : FormS) (s : State) : Out :=
  s.withBand fun b =>
    let vPending := b.groups.any fun g => g.open && match g.dest with | .v _ _ => true | _ => false
    let stores := (s.iq ++ s.wb).any fun a => a.uid = b.uid && a.space = 1 && a.kind = .store
    if vPending || stores then .error .hold else .ok (s.retire b (viewS f) 0 0 0)

/-! ### Slot instructions (R249 to R252) -/

/-- SLOT, NM1 and SLOTB of AUX (R249). -/
def Fld.slot (f : Fld) : Nat := bits f.w2 15 9
def Fld.nm1 (f : Fld) : Nat := bits f.w2 21 16
def Fld.slotb (f : Fld) : Nat := bits f.w2 28 22

/-- RSLV (R252). -/
def execRslv (f : FormX) (s : State) : Out :=
  let v := viewX f
  s.plainTile v (.rslv v.slot v.nm1 (v.mf % 2 = 1) v.rnd)

/-- The address of ACLD, ACST and the table loads: a global pair or a scratchpad offset (R249, R253). -/
def State.tileAddr (s : State) (b : Band) (f : Fld) (space t : Nat) : Rd Nat := b.readOpnd s.fresh t f.a (if space = 0 then 64 else 32) 1

/-- The range check of an image at issue, for the issuing thread (R190, R250): none where it fits. -/
def State.imageFail (s : State) (b : Band) (space : Nat) (need : Need) (a n : Nat) : Option Nat := s.checkAddr b space need a n

/-- ACLD and ACST: alignment and range checks, then the post (R250). -/
def State.imageOp (s : State) (f : Fld) (load : Bool) : Out :=
  let space := f.sub % 2
  let form := f.mf % 8
  let wa := if space = 0 then 64 else 32
  s.tileOp f wa 0 fun b ts t => do
    let a ← s.tileAddr b f space t
    let n := (f.nm1 + 1) * 1024 * (if form = 0 then 12 else formBytes form)
    if a % 64 ≠ 0 then .error illOpnd
    else match s.imageFail b space (if load then needX else needW) a n with
      | some x => .error (rangeTrap (ts.map fun i => (i, x)))
      | none =>
        let op : TileOp := if load then .acld f.slot f.nm1 form space a else .acst f.slot f.nm1 form space a f.rnd
        s.postTile b f wa 0 op t .none [t]

/-- ACLD and ACST (R250). -/
def execAcld (f : FormX) (s : State) : Out := s.imageOp (viewX f) true
def execAcst (f : FormX) (s : State) : Out := s.imageOp (viewX f) false

/-- ACMP (R251): the predicate returns to every guarded thread. -/
def execAcmp (f : FormX) (s : State) : Out :=
  let v := viewX f
  s.tileOp v 0 0 fun b ts t =>
    if b.destPending v .pred ts then .error .hold
    else s.postTile b v 0 0 (.acmp v.slot v.nm1 v.slotb v.sub (v.mf % 2 = 1) (bitOf v.mf 1) (v.d % 8) ts) t (.pred (v.d % 8)) ts

/-- ACZ (R252): Form S names one slot. -/
def execAcz (f : FormS) (s : State) : Out := s.plainTile (viewS f) (.acz (f.d.toNat + 64 * (f.a.toNat % 2)) 0)
def execAczX (f : FormX) (s : State) : Out := let v := viewX f; s.plainTile v (.acz v.slot v.nm1)

/-- ACMOV (R252). -/
def execAcmov (f : FormX) (s : State) : Out := let v := viewX f; s.plainTile v (.acmov v.slot v.nm1 v.slotb)

/-! ### Tables, routes and the command ring (R253 to R256) -/

/-- The image of a table read by the held run, counted under ld (R254): n bytes. -/
def State.tableRead (s : State) (f : Fld) (n : Nat) (go : Band → Nat → Nat → Rd State) : Out :=
  let space := bits f.sub 1 1
  let wa := if space = 0 then 64 else 32
  s.tileOp f wa 0 fun b ts t => do
    let a ← s.tileAddr b f space t
    if a % 64 ≠ 0 then .error illOpnd
    else if space = 1 then
      match firstBeyond a n (s.alloc b).2 with
      | some x => .error (rangeTrap (ts.map fun i => (i, x)))
      | none =>
        let mine := b.groups.filter (·.isBlock s.issue 1)
        match mine with
        | [] =>
          if !b.roomFor .ld then .error .hold
          else
            let part : Part := { thread := t, va := a, addr := s.target b 1 a, size := n }
            let (s1, b1) := s.post s.issue.key b .ld (.block 1) { kind := .load, space := 1 } [part]
            return (s1.setBand s.issue.key b1).hold
        | g :: _ => if g.open then .error .hold else go (b.consume s.issue) t (Tbl.get g.buf t 0)
    else
      match ← s.blockRead b 1 [t] [{ thread := t, va := a, addr := s.target b 0 a, size := n }] (fun _ => none) with
      | .wait s1 => return s1.hold
      | .got vals => go (b.consume s.issue) t (Tbl.get vals t 0)

/-- Whether 256 bytes are a permutation of 0 to 255 (R34). -/
def isPermutation (l : List Nat) : Bool := (List.range 256).all l.contains

/-- MPTBL (R34, R254). -/
def execMptbl (f : FormX) (s : State) : Out :=
  let v := viewX f
  let wa := if bitOf v.sub 1 then 32 else 64
  s.tableRead v 256 fun b t x =>
    let l := (List.range 256).map fun i => x / 2 ^ (8 * i) % 256
    if isPermutation l then s.postTile b v wa 0 (.mptbl (v.sub % 2) l) t .none [t] else .error illOpnd

/-- MCBTBL (R27, R253, R254). -/
def execMcbtbl (f : FormX) (s : State) : Out :=
  let v := viewX f
  let wa := if bitOf v.sub 1 then 32 else 64
  s.tableRead v 768 fun b t x =>
    s.postTile b v wa 0 (.mcbtbl (v.sub % 2) ((List.range 256).map fun e => x / 2 ^ (24 * e) % 2 ^ 24)) t .none [t]

/-- MROUTE (R255). -/
def execMroute (f : FormX) (s : State) : Out :=
  let v := viewX f
  s.tileOp v 0 0 fun b _ t => do
    let a := match v.a with | .k n => n | _ => 0
    let x ← b.readKGroup a 4
    if bits x 35 34 ≠ 0 || bits x 3 2 ≠ 0 then .error illOpnd
    else s.postTile b v 0 0 (.mroute (v.sub % 8) x) t .none [t]

/-- The pushes that wait in the reservation table. -/
def Engine.pushes (e : Engine) : Nat := (e.live.filter fun p => match p.2.op with | .mxqPush _ => true | _ => false).length

/-- The ring as an operation posted now would meet it: after the MXQ.inits that wait in the table. -/
def Engine.ringAhead (e : Engine) : Ring :=
  e.live.foldl (fun r p => match p.2.op with
    | .mxqInit base n => { r with base := base, entries := n, head := 0, tail := 0, owner := some p.2.ctx, faulted := false }
    | _ => r) e.ring

/-- MXQ.push (R256, R316): refused for a faulted ring or one of another context, held while the ring is full. -/
def execMxqPush (f : FormX) (s : State) : Out :=
  let v := viewX f
  s.tileOp v 32 32 fun b ts t => do
    let a ← b.readOpnd s.fresh t v.a 32 1
    let eng := (s.cluster (coreCluster s.issue.core)).engine
    let ring := eng.ringAhead
    if a % 128 ≠ 0 || ring.faulted || ring.owner ≠ some (s.bandCtx b) then .error illOpnd
    else match firstBeyond a 128 (s.alloc b).2 with
      | some x => .error (rangeTrap (ts.map fun i => (i, x)))
      | none =>
        if ring.entries ≤ ring.tail - ring.head + eng.pushes then .error .hold
        else s.postTile b v 32 32 (.mxqPush a) t .none [t]

/-- MXQ.init (R256). -/
def execMxqInit (f : FormX) (s : State) : Out :=
  let v := viewX f
  s.tileOp v 32 32 fun b ts t => do
    let a ← b.readOpnd s.fresh t v.a 32 1
    let n ← b.readOpnd s.fresh t v.b 32 2
    let eng := (s.cluster (coreCluster s.issue.core)).engine
    let busy := decide (eng.ringAhead.head < eng.ringAhead.tail) || decide (0 < eng.pushes)
    if a % 128 ≠ 0 || !(List.range 8).any (fun i => n = 2 ^ (i + 1)) || busy then .error illOpnd
    else match firstBeyond a (128 * n) (s.alloc b).2 with
      | some x => .error (rangeTrap (ts.map fun i => (i, x)))
      | none => s.postTile b v 32 32 (.mxqInit a n) t .none [t]

end Sys2Proof.Machine
end

