-- ==== Sys2Proof/Machine/Record.lean ====
section
/-!
DEFINITION. Sys2Proof/Machine/Record.lean: the band record (R392 to R394), which context saves and CSAVE write and which
restores and CREST read, and the team record's places (R390).
-/
namespace Sys2Proof.Machine

/-- A piece of a record: its offset, its length in bytes and its value. -/
abbrev Chunk := Nat × Nat × Nat

/-- STATE as R58 codes it. -/
def TState.code : TState → Nat
  | .ready => 0
  | .onBarrier => 1
  | .onWatch => 2
  | .atOp => 3
  | .halted => 4
  | .exited => 5

/-- The STATE of a code (R58); 6 and 7 never occur. -/
def TState.of (c : Nat) : TState :=
  match c with
  | 1 => .onBarrier
  | 2 => .onWatch
  | 3 => .atOp
  | 4 => .halted
  | 5 => .exited
  | _ => .ready

/-- A position-table entry (R58). -/
def Thread.pos (th : Thread) : Nat := th.pc + th.depth * 2 ^ 16 + th.state.code * 2 ^ 24

/-- A park detail of 16 bytes from its fields (R394). -/
def parkFields (paddr pphase pkind pord pscope pfl : Nat) : Nat :=
  paddr % 2 ^ 64 + pphase % 2 ^ 32 * 2 ^ 64 + pkind * 2 ^ 96 + pord * 2 ^ 104 + pscope * 2 ^ 112 + pfl * 2 ^ 120

/-- The park detail of a thread (R394); `heldPark` tells whether the thread is held as parked. A ready or halted thread inside a
REP unit keeps its iteration, and one halted by its own BRK a mark, in PPHASE, which R394 leaves to other kinds (log entry 16). -/
def Thread.parkDetail (th : Thread) (heldPark : Bool) : Nat :=
  match th.state, th.park with
  | .onBarrier, .barrier ref va phase ord scope _ => parkFields va phase (if ref.space = 0 then 1 else 2) ord scope 0
  | .atOp, .op mask => parkFields mask th.rep 3 0 0 0
  | .atOp, .ecall service status done => parkFields (service % 65536) (if done then status else 0) 4 0 0 (if done then 1 else 0)
  | .onWatch, .waitw _ _ => parkFields 0 0 5 0 0 0
  | .onWatch, .loop _ => parkFields 0 0 6 0 0 0
  | _, .safe _ => parkFields 0 0 8 0 0 0
  | .ready, .acquire ord scope => parkFields 0 0 0 ord scope 0
  | .halted, .brk => parkFields 0 256 0 0 0 0
  | .exited, _ => 0
  | _, _ => parkFields 0 th.rep (if heldPark then 7 else 0) 0 0 0

/-- The live mask of a register (R57). -/
def VReg.live (v : VReg) : Nat := maskOf (v.vals.map (·.1))

/-- The bytes of one register image (R392). -/
def imageBytes (width : Nat) : Nat := 8 + 4 * width

/-- The size of a band record (R392). -/
def Band.recordSize (b : Band) : Nat := (0xC00 + b.mapped * imageBytes b.width + 63) / 64 * 64

/-- The header of a band record, 64 bytes (R393). -/
def Band.header (b : Band) (parts : Nat) : Nat :=
  let su := b.succ.getD { ovid := 0, off := 0, a := 0, n := 0 }
  let ctxOnly (x : Nat) : Nat := if bitOf parts 4 then x else 0
  1 + b.width * 2 ^ 8 + parts * 2 ^ 16 + b.quota * 2 ^ 32 + b.mapped * 2 ^ 48
    + ((if b.mx then 2 ^ 9 else 0) + (if b.qov then 2 ^ 8 else 0) + b.bec) * 2 ^ 64 + b.rndseed * 2 ^ 96 + b.phase * 2 ^ 128 + b.bandid * 2 ^ 136
    + b.outstanding .cp * 2 ^ 144 + b.outstanding .tl * 2 ^ 160
    + maskOf ((List.range b.threads.length).filter fun t => (b.thread t).inTrap) * 2 ^ 192
    + ctxOnly (su.off + su.ovid * 2 ^ 16) * 2 ^ 256 + ctxOnly su.a * 2 ^ 288 + ctxOnly su.n * 2 ^ 296
    + ((if b.succ.isSome then ctxOnly 1 else 0) + (if b.halted then ctxOnly 2 else 0)) * 2 ^ 304

/-- A sequence of values of n bytes each, as one number. -/
def packed (n : Nat) : List Nat → Nat
  | [] => 0
  | x :: r => x % 2 ^ (8 * n) + 2 ^ (8 * n) * packed n r

/-- The rename map of a record: PREG holds the index in the image (R392). -/
def Band.renameMap (b : Band) : Nat :=
  packed 4 ((List.range 256).map fun n => match (b.regs.map (·.name)).idxOf? n with | some i => 2 ^ 31 + i | none => 0)

/-- One register's image: live mask, then an entry for each thread; entries that are not live are undefined (R8). -/
def VReg.image (v : VReg) (width fresh : Nat) : Nat :=
  v.live + 2 ^ 64 * packed 4 ((List.range width).map fun t => ((Tbl.find? v.vals t).getD (Config.freeWord fresh t v.name)).toNat)

/-- The sections of a band record that `parts` selects (R184, R392); bit 4 marks a context save. -/
def Band.chunks (b : Band) (fresh parts : Nat) : List Chunk :=
  let ts := List.range 64
  let per (f : Thread → Nat) : List Nat := ts.map fun t => if t < b.width then f (b.thread t) else 0
  let regs := b.regs
  [(0, 64, b.header parts)]
    ++ (if bitOf parts 1 then [(0x40, 64, packed 1 (per (·.preds)))] else [])
    ++ (if bitOf parts 3 then [(0x80, 256, packed 4 (per (·.rndctr)))] else [])
    ++ (if bitOf parts 2 then [(0x180, 256, packed 4 (b.kregs.map (·.toNat)))] else [])
    ++ (if bitOf parts 4 then
          [(0x280, 256, packed 4 (per (·.pos))), (0x380, 32, packed 8 (b.watches.map (·.name))), (0x3A0, 96, 0),
           (0x400, 1024, packed 16 (ts.map fun t => if t < b.width then (b.thread t).parkDetail (b.heldAsParked t) else 0))] else [])
    ++ (if bitOf parts 0 then
          (0x800, 1024, b.renameMap) ::
            regs.zipIdx.map fun p => (0xC00 + p.2 * imageBytes b.width, imageBytes b.width, p.1.image b.width fresh) else [])

/-- The fields of a header that a reader uses. -/
structure RecHead where
  kind : Nat
  width : Nat
  parts : Nat
  mapped : Nat
  quota : Nat
  deriving DecidableEq, Repr

/-- The header of a record's number (R393). -/
def recHead (h : Nat) : RecHead :=
  { kind := bits h 7 0, width := bits h 15 8, parts := bits h 23 16, quota := bits h 47 32, mapped := bits h 63 48 }

/-- The registers of an image: names from the rename map by their index, values from the image (R392). `at'` reads the
record. Physical registers are given by the caller. -/
def recRegs (at' : Nat → Nat → Nat) (width mapped : Nat) (preg : Nat → Nat) : List VReg :=
  (List.range 256).filterMap fun n =>
    let e := at' (0x800 + 4 * n) 4
    if bitOf e 31 then
      let i := e % 512
      if i < mapped then
        let base := 0xC00 + i * imageBytes width
        let live := at' base 8
        some { name := n, preg := preg i,
               vals := ((List.range width).filter (bitOf live ·)).map fun t => (t, BitVec.ofNat 32 (at' (base + 8 + 4 * t) 4)) }
      else none
    else none

/-- A band with the sections of a record that `parts` selects (R184): predicates, k registers, random state, registers. -/
def Band.withRecord (b : Band) (at' : Nat → Nat → Nat) (parts : Nat) (preg : Nat → Nat) : Band :=
  let b1 : Band := if bitOf parts 1 then { b with threads := b.threads.zipIdx.map fun p => { p.1 with preds := at' (0x40 + p.2) 1 % 128 } } else b
  let b2 : Band := if bitOf parts 3 then
      { b1 with rndseed := at' 12 4, threads := b1.threads.zipIdx.map fun p => { p.1 with rndctr := at' (0x80 + 4 * p.2) 4 } } else b1
  let b3 : Band := if bitOf parts 2 then { b2 with kregs := (List.range 64).map fun i => BitVec.ofNat 32 (at' (0x180 + 4 * i) 4) } else b2
  if bitOf parts 0 then { b3 with regs := recRegs at' b.width (recHead (at' 0 64)).mapped preg } else b3

/-! ### Team records (R390) -/

/-- TEAMB and BRECSZ of a team record. -/
def State.recTeamb (s : State) (rec' : Nat) : Nat := Memory.read s.mem (placePA (rec' + 1)) 1
def State.recStride (s : State) (rec' : Nat) : Nat := Memory.read s.mem (placePA (rec' + 20)) 4
/-- The address of a band record in a team record. -/
def State.recBand (s : State) (rec' b : Nat) : Nat := rec' + 256 + b * s.recStride rec'
/-- The address of the scratchpad image. -/
def State.recScratch (s : State) (rec' : Nat) : Nat := rec' + 256 + s.recTeamb rec' * s.recStride rec'
/-- A read of firmware memory by physical address. -/
def State.fwRead (s : State) (pa n : Nat) : Nat := Memory.read s.mem (placePA pa) n
/-- A write of firmware memory by physical address, performed at the slices (R338). -/
def State.fwWrite (s : State) (pa n x : Nat) : State := { s with mem := Memory.write s.mem (placePA pa) n x }

/-- The core of a resident team, with its scratchpad base; the record of an absent one. -/
def State.placeOfTeam (s : State) (flight team : Nat) : Place :=
  match s.flight? flight with
  | none => .ended
  | some f => match Tbl.find? f.members team with
    | none => .ended
    | some t => t.place

/-- A team changed. -/
def State.modTeam (s : State) (flight team : Nat) (g : Team → Team) : State :=
  s.modFlight flight fun f => match Tbl.find? f.members team with
    | some t => { f with members := Tbl.put f.members team (g t) }
    | none => f

/-- Where a team's scratchpad bytes stand (R188, R390): in a cluster's scratchpad, or in the image of its record. -/
inductive ScratchAt where
  | here (cluster base : Nat)
  | saved (pa : Nat)
  deriving DecidableEq, Repr

/-- The place of a team's scratchpad bytes; where the team has ended, the place that its operations were posted with. -/
def State.scratchAt (s : State) (flight team cl base : Nat) : ScratchAt :=
  match s.placeOfTeam flight team with
  | .resident core _ b => .here (coreCluster core) b
  | .absent rec' => .saved (s.recScratch rec')
  | _ => .here cl base

/-- n bytes of a team's scratchpad from an offset. -/
def State.atRead (s : State) (p : ScratchAt) (off n : Nat) : Nat :=
  match p with
  | .here cl base => s.scratchRead cl (base + off) n
  | .saved pa => s.fwRead (pa + off) n

/-- The barrier records in the image of an absent team's scratchpad that a write there meets lose their counts (R257). -/
def State.spoilSaved (s : State) (pa off n : Nat) : State :=
  let offs := s.flights.flatMap fun p => p.2.bars.filterMap fun r => match Tbl.find? p.2.members r.team with
    | some t => match t.place with
      | .absent rec' => if r.space = 1 && s.recScratch rec' = pa then some r.addr else none
      | _ => none
    | none => none
  (offs.filter fun a => decide (a < off + n) && decide (off < a + 32)).foldl (fun s a => s.spoilRecord (placePA (pa + a))) s

/-- n bytes of a team's scratchpad written by its copies and tile operations. -/
def State.atWrite (s : State) (p : ScratchAt) (off n x : Nat) : State :=
  match p with
  | .here cl base => (s.scratchWrite cl (base + off) n x).spoilScratch cl (base + off) n
  | .saved pa => (s.fwWrite (pa + off) n x).spoilSaved pa off n

/-- The slot key of a resident band by its flight, team and index. -/
def State.findBand (s : State) (flight team bandid : Nat) : Option Nat :=
  (List.find? (fun p : Nat × Band => p.2.flight = flight && p.2.team = team && p.2.bandid = bandid) s.bands).map (·.1)

/-- TIDX of a thread (R61). -/
def tidxOf (team teamb bandid width t : Nat) : Nat := ((team * teamb + bandid) * width + t) % 2 ^ 32

end Sys2Proof.Machine
end

