-- ==== Sys2Proof/Machine/Faults.lean ====
section
/-!
DEFINITION. Sys2Proof/Machine/Faults.lean: fault records and their ring (R472 to R474) and asynchronous
faults of units that act for a flight.
-/
namespace Sys2Proof.Machine

/-- The 64 bytes of a fault record (R473). -/
def State.faultImage (s : State) (n : FaultNote) : Nat :=
  let q := match n.flight.bind s.flight? with | some f => (f.queue % 65536, f.qidx % 2 ^ 32) | none => (0, 0)
  let w (o : Option Nat) : Nat := o.getD 0xFFFFFFFF % 2 ^ 32
  n.cls + n.reason * 2 ^ 8 + n.flags * 2 ^ 16 + n.repi % 256 * 2 ^ 24 + w n.flight * 2 ^ 32 + w n.ctx * 2 ^ 64 + w n.team * 2 ^ 96
    + n.band.getD 0xFF % 256 * 2 ^ 128 + n.btid.getD 0xFF % 256 * 2 ^ 136 + n.pc % 65536 * 2 ^ 144 + n.core.getD 0xFFFF % 65536 * 2 ^ 160
    + q.1 * 2 ^ 176 + q.2 * 2 ^ 192 + s.faultSeq % 2 ^ 32 * 2 ^ 224 + n.addr % 2 ^ 64 * 2 ^ 256 + n.aux1 % 2 ^ 64 * 2 ^ 320
    + n.aux2 % 2 ^ 64 * 2 ^ 384 + s.fwCycle % 2 ^ 64 * 2 ^ 448

/-- n bytes written by firmware at an intermediate address of the device half, at the slices; nothing where it is not
mapped. -/
def State.iaWrite (s : State) (ia n x : Nat) : State :=
  match s.portPA agentIO ia true with
  | some pa => s.agentWrite ia pa n x
  | none => s

/-- n bytes read by firmware at an intermediate address. -/
def State.iaRead (s : State) (ia n : Nat) : Nat :=
  match s.portPA agentIO ia false with
  | some pa => s.agentRead ia pa n
  | none => 0

/-- FAULT_RECORD (R472): the record at FQPROD, FQPROD advanced and vector 0 sent; or FQLOST counted where the ring is full or
none is named. -/
def State.noteFault (s : State) (n : FaultNote) : State :=
  let img := s.faultImage n
  let s1 : State := { s with faultSeq := s.faultSeq + 1, faultLog := s.faultLog ++ [img] }
  match s.faultRing with
  | none => { s1 with faultLost := (s.faultLost + 1) % 2 ^ 64 }
  | some (base, k) =>
    let words := base + 64 * 2 ^ k
    let prod := s1.iaRead words 4
    let cons := s1.iaRead (words + 4) 4
    if 2 ^ k ≤ (prod + 2 ^ 32 - cons) % 2 ^ 32 then
      { s1.iaWrite (words + 8) 8 ((s.faultLost + 1) % 2 ^ 64) with faultLost := (s.faultLost + 1) % 2 ^ 64 }
    else (((s1.iaWrite (base + 64 * (prod % 2 ^ k)) 64 img).iaWrite words 4 ((prod + 1) % 2 ^ 32))).msix 0

/-- The status of a driver service, by the service's number: 0 done, 1 refused, and NOTREADY (R489; log entry 19). -/
def State.answer (s : State) (service status : Nat) : State := s.emit [4, service, status]

/-- A driver service: NOTREADY and no effect before READY (R489); nothing is served in FATAL (R485). -/
def State.service (s : State) (number : Nat) (f : State → State) : Out :=
  .next (if s.fatal then s else if s.ready then f s else s.answer number 0xFFFFFFFE)

/-- SET_FAULT_RING (R472): the driver names the ring; a size outside the rule or a misaligned base is refused. -/
def execSetFaultRing (base log2 : Nat) (s : State) : Out :=
  s.service 1 fun s =>
    if log2 < 4 || 16 < log2 || base % 4096 ≠ 0 then s.answer 1 1
    else { s with faultRing := some (base, log2) }.answer 1 0

/-- A flight marked as to be killed by a fault (R474): FLIGHT_KILL carries it out. -/
def State.markKill (s : State) (flight : Nat) : State := s.modFlight flight fun f => { f with killed := true }

/-- The owner of work that no instruction posted: only the flight and its context are named (R495). -/
def unposted (flight ctx : Nat) : FaultNote := { cls := 2, reason := 0, flight := some flight, ctx := some ctx, pc := 0xFFFF }

/-- The owner of work posted by an instruction: its team, band, PC, lowest thread and core (R495). -/
def postedBy (flight ctx uid pc thread core : Nat) : FaultNote :=
  { cls := 2, reason := 0, flight := some flight, ctx := some ctx, team := some (uid / 2 ^ 8 % 2 ^ 32), band := some (uid % 256), btid := some thread,
    pc := pc, core := some core }

/-- The owner that a record of a reservation-table entry names (R495). -/
def Entry.owner (e : Entry) : FaultNote :=
  if e.ring then unposted e.flight e.ctx else postedBy e.flight e.ctx e.uid e.pc e.thread e.core

/-- The owner that a record of a copy names (R495). -/
def Copy.owner (c : Copy) : FaultNote := postedBy c.flight c.ctx (uidOf c.flight c.team c.bandid) c.pc c.thread c.core

/-- The owner that a record of a side-log entry names (R495). -/
def SideEntry.owner (e : SideEntry) (core : Nat) : FaultNote := postedBy e.flight e.ctx e.uid 0xFFFF e.btid core

/-- An asynchronous fault of a flight (class 2): its record, and the kill where its reason asks for one (R474). -/
def State.asyncFault (s : State) (o : FaultNote) (reason addr aux1 aux2 : Nat) (kill : Bool) : State :=
  let s1 := s.noteFault { o with cls := 2, reason := reason, flags := if kill then 2 else 0, addr := addr, aux1 := aux1, aux2 := aux2 }
  match kill, o.flight with
  | true, some f => s1.markKill f
  | _, _ => s1

/-- A device fault (class 3): its record alone (R474). -/
def State.deviceFault (s : State) (reason addr aux1 aux2 : Nat) : State :=
  s.noteFault { cls := 3, reason := reason, addr := addr, aux1 := aux1, aux2 := aux2 }

end Sys2Proof.Machine
end

