-- ==== Sys2Proof/Machine/Threads.lean ====
section
/-!
DEFINITION. Sys2Proof/Machine/Threads.lean: what waits and what ends: barrier records and their phases (R257 to R261, R320 to
R323), band-operation instances (R149, R150), and the end of a thread with its withdrawals (R170, R171, R346).
-/
namespace Sys2Proof.Machine

/-! ### Barrier records (R257) -/

/-- A barrier record's fields (R257). -/
structure Bar where
  expect : Nat
  arrived : Nat
  phase : Nat
  mode : Nat
  init : Bool
  absent : Nat
  teams : Nat
  flight : Nat
  /-- bits [31:16] of WQH, zero but for a record in memory that no BARI wrote (R320) -/
  rest : Nat := 0
  deriving DecidableEq, Repr

/-- A record from its 32 bytes. -/
def Bar.of (x : Nat) : Bar :=
  { expect := bits x 31 0, arrived := bits x 63 32, phase := bits x 95 64, mode := bits x 103 96, init := bitOf x 104,
    teams := bits x 143 128, absent := bits x 191 160, flight := bits x 223 192, rest := bits x 159 144 }

/-- The 32 bytes of a record. -/
def Bar.num (r : Bar) : Nat :=
  r.expect % 2 ^ 32 + r.arrived % 2 ^ 32 * 2 ^ 32 + r.phase % 2 ^ 32 * 2 ^ 64 + r.mode * 2 ^ 96 + (if r.init then 2 ^ 104 else 0)
    + min r.teams 65535 * 2 ^ 128 + r.rest % 2 ^ 16 * 2 ^ 144 + r.absent % 2 ^ 32 * 2 ^ 160 + r.flight % 2 ^ 32 * 2 ^ 192

/-- Where a record stands. -/
inductive BarAt where
  | global (ia pa : Nat)
  | scratch (cluster off : Nat)
  | saved (pa : Nat)
  deriving DecidableEq, Repr

/-- The place of a record of a flight; none where its page is not mapped or its team has ended. -/
def State.barAt (s : State) (flight : Nat) (r : BarRef) : Option BarAt :=
  if r.space = 0 then (s.portPA agentIO r.addr true).map fun pa => .global r.addr pa
  else match s.placeOfTeam flight r.team with
    | .resident core _ base => some (.scratch (coreCluster core) (base + r.addr))
    | .absent rec' => some (.saved (s.recScratch rec' + r.addr))
    | _ => none

/-- The record at a place. -/
def State.barGet (s : State) (p : BarAt) : Bar :=
  match p with
  | .global ia pa => .of (s.agentRead ia pa 32)
  | .scratch c o => .of (s.scratchRead c o 32)
  | .saved pa => .of (s.fwRead pa 32)

/-- The record written by the barrier unit, one indivisible step (R257). -/
def State.barSet (s : State) (p : BarAt) (r : Bar) : State :=
  match p with
  | .global ia pa => s.agentWrite ia pa 32 r.num
  | .scratch c o => s.scratchWrite c o 32 r.num
  | .saved pa => s.fwWrite pa 32 r.num

/-- Whether phase v has been reached (R260). -/
def phaseReached (phase v : Nat) : Bool :=
  let d := (phase + 2 ^ 32 - v % 2 ^ 32) % 2 ^ 32
  decide (1 ≤ d) && decide (d < 2 ^ 31)

/-- Waiting threads of a resident band whose phase is reached go on, each with its acquire (R260). -/
def State.wakeBarrier (s : State) (k : Nat) (ref : BarRef) (phase : Nat) : State :=
  match s.band? k with
  | none => s
  | some b =>
    (List.range b.threads.length).foldl (fun s t =>
      match (b.thread t).state, (b.thread t).park with
      | .onBarrier, .barrier r _ v ord scope len =>
        if r = ref && phaseReached phase v then
          let s1 := s.modBand k fun b => b.wake t len
          if bitOf ord 0 then s1.acquire k [t] scope (s1.invsTo (keyCore k)) else s1
        else s
      | _, _ => s) s

/-- A trigger for a context that is switched out (R408, R409): queued, or lost where the list is full. -/
def State.trigger (s : State) (ctx tkind cluster team id : Nat) : State :=
  match s.ctx? ctx with
  | none => s
  | some c =>
    if !c.switchedOut then s
    else if c.triggers.length < 16 then s.modCtx ctx fun c => { c with triggers := c.triggers ++ [(tkind, cluster, team, id)] }
    else (s.modCtx ctx fun c => { c with triglost := true }).noteFault
      { cls := 2, reason := 23, ctx := some ctx, pc := 0xFFFF, aux1 := tkind, aux2 := id }

/-- Whether the debugger holds a thread of an absent team in STATE 4 (R341). -/
def State.recHalted (s : State) (rec' : Nat) : Bool :=
  (List.range (s.recTeamb rec')).any fun b => (List.range 64).any fun t => decide (bits (s.fwRead (s.recBand rec' b + 0x280 + 4 * t) 4) 26 24 = 4)

/-- The instance that thread t of a saved band is parked at: STATE, depth and PC, with kind and REP iteration (R85, R149, R394). -/
def State.recKey (s : State) (o t : Nat) : Nat × Nat × Nat :=
  (s.fwRead (o + 0x280 + 4 * t) 4, s.fwRead (o + 0x40C + 16 * t) 1, s.fwRead (o + 0x408 + 16 * t) 4)

/-- Whether every thread that the band operation of thread t of a saved band names is parked there or has ended (R149). -/
def State.recOpDone (s : State) (o width t : Nat) : Bool :=
  let mask := s.fwRead (o + 0x400 + 16 * t) 8
  (List.range width).all fun j => !bitOf mask j || decide (s.recKey o j = s.recKey o t) || decide (bits (s.recKey o j).1 26 24 = 5)

/-- Whether a thread of a saved band makes its team runnable (R334): ready, on a watch, at a service that is done, or at a band operation that
has completed and not issued (log entry 120). -/
def State.recRuns (s : State) (o width t : Nat) : Bool :=
  match bits (s.recKey o t).1 26 24, (s.recKey o t).2.1 with
  | 0, _ => true
  | 2, _ => true
  | 3, 3 => s.recOpDone o width t
  | 3, 4 => bitOf (s.fwRead (o + 0x40F + 16 * t) 1) 0
  | _, _ => false

/-- Whether an absent team is runnable by its record (R334), which it is not while the debugger holds a thread of it (R341). -/
def State.recRunnable (s : State) (rec' : Nat) : Bool :=
  !s.recHalted rec' && (List.range (s.recTeamb rec')).any fun b =>
    let o := s.recBand rec' b
    let width := s.fwRead (o + 1) 1
    (List.range width).any (s.recRuns o width ·)

/-- A team that is absent becomes runnable now, if its record says so and it was not (R334). -/
def State.makeRunnable (s : State) (flight team : Nat) : State :=
  s.modTeam flight team fun t => match t.place with
    | .absent a => if s.recRunnable a then { t with runsince := some (t.runsince.getD s.fresh) } else t
    | _ => { t with runsince := some (t.runsince.getD s.fresh) }

/-- An absent team is runnable from now on, or not any more, as its record says (R334). -/
def State.settleRunnable (s : State) (flight team : Nat) : State :=
  (s.makeRunnable flight team).modTeam flight team fun t => match t.place with
    | .absent a => if s.recRunnable a then t else { t with runsince := none }
    | _ => t

/-- A band of an absent team halts: its ready threads are recorded in STATE 4, and DBGH is set. -/
def State.haltAway (s : State) (flight team a b : Nat) : State :=
  let o := s.recBand a b
  let fl := s.fwRead (o + 38) 1
  let width := s.fwRead (o + 1) 1
  if bitOf fl 1 then s
  else
    let ready := (List.range width).filter fun t => decide (bits (s.fwRead (o + 0x280 + 4 * t) 4) 26 24 = 0) && s.fwRead (o + 0x40C + 16 * t) 1 ≠ 8
    let s1 := ready.foldl (fun (s : State) t => s.fwWrite (o + 0x280 + 4 * t) 4 (s.fwRead (o + 0x280 + 4 * t) 4 + 4 * 2 ^ 24)) (s.fwWrite (o + 38) 1 (fl + 2))
    (s1.modTeam flight team fun t => { t with passed := t.passed.filter fun p => !ready.any fun i => p.1 = 256 * b + i }).settleRunnable flight team

/-- One absent thread released: recorded ready, or halted with its band (R270), with its PC advanced, its
acquire left for the restore (R321). -/
def State.releaseAbsent (s : State) (flight : Nat) (w : AbsentWaiter) : State :=
  match s.placeOfTeam flight w.team with
  | .absent rec' =>
    let base := s.recBand rec' w.band
    let pos := s.fwRead (base + 0x280 + 4 * w.thread) 4
    let st := if bitOf (s.fwRead (base + 38) 1) 1 then 4 else 0
    let pos' := (pos % 65536 + w.len) % 65536 + bits pos 23 16 * 2 ^ 16 + st * 2 ^ 24
    let det := if bitOf w.ord 0 then parkFields 0 0 0 w.ord w.scope 0 else 0
    ((s.fwWrite (base + 0x280 + 4 * w.thread) 4 pos').fwWrite (base + 0x400 + 16 * w.thread) 16 det).makeRunnable flight w.team
  | _ => s

/-- The waiters of absent teams that a phase releases, and what WQH then counts (R320, R321). -/
def State.releaseAbsents (s : State) (flight : Nat) (ref : BarRef) (at' : BarAt) : State :=
  match s.flight? flight with
  | none => s
  | some f =>
    let bar := s.barGet at'
    let go := f.absent.filter fun w => w.ref = ref && phaseReached bar.phase w.phase
    if go.isEmpty then s
    else
      let stay := f.absent.filter fun w => !(w.ref = ref && phaseReached bar.phase w.phase)
      let here := stay.filter fun w => w.ref = ref
      let s1 := go.foldl (fun s w => s.releaseAbsent flight w) (s.modFlight flight fun f => { f with absent := stay })
      let s2 := s1.barSet at' { s1.barGet at' with absent := here.length, teams := ((here.map (·.team)).eraseDups).length }
      s2.trigger f.ctx 2 0 ((go.map (·.team)).headD 0) ref.addr

/-- A phase completes (R260): PHASE advances, ARRIVED clears, the marks clear and the waiters wake. -/
def State.completePhase (s : State) (flight : Nat) (ref : BarRef) (at' : BarAt) : State :=
  let bar := s.barGet at'
  let phase := (bar.phase + 1) % 2 ^ 32
  let s1 := (s.barSet at' { bar with phase := phase, arrived := 0 }).modFlight flight fun f =>
    { f with marks := f.marks.filter fun m => m.1 ≠ ref, phaseAt := f.phaseAt ++ [(ref, bar.phase, s.nextId)] }
  let keys := (s1.bands.filter fun p => p.2.flight = flight).map (·.1)
  (keys.foldl (fun s k => s.wakeBarrier k ref phase) s1).releaseAbsents flight ref at'

/-- One thread's arrival (R260): ARRIVED rises, the thread is marked, and the phase completes where EXPECT is reached; a restarted thread
is a member again (R171). -/
def State.arrive (s : State) (flight : Nat) (ref : BarRef) (at' : BarAt) (tidx : Nat) : State :=
  let bar := s.barGet at'
  let s1 := (s.barSet at' { bar with arrived := (bar.arrived + 1) % 2 ^ 32 }).modFlight flight fun f =>
    if bar.mode = 0 then f else { f with marks := f.marks ++ [(ref, tidx)], left := f.left.filter (· ≠ (ref, tidx)) }
  if bar.expect ≤ bar.arrived + 1 then s1.completePhase flight ref at' else s1

/-- Whether a TEAMID is that of a task band's team (R355). -/
def isTask (team : Nat) : Bool := decide (0x80000000 ≤ team)

/-- The withdrawal of one thread from one record (R261); a task thread belongs to no flight-mode record (R356), and a restarted thread to
none that it has not arrived at (R171). -/
def State.withdrawFrom (s : State) (flight team tidx : Nat) (ref : BarRef) : State :=
  match s.flight? flight, s.barAt flight ref with
  | some f, some at' =>
    let bar := s.barGet at'
    if ((bar.mode = 2 && !isTask team) || (bar.mode = 1 && ref.team = team)) && !f.left.contains (ref, tidx) then
      let marked := f.marks.contains (ref, tidx)
      let bar' : Bar := { bar with expect := bar.expect - 1, arrived := if marked then bar.arrived - 1 else bar.arrived }
      let s1 := (s.barSet at' bar').modFlight flight fun f => { f with marks := f.marks.filter fun m => m ≠ (ref, tidx) }
      if 1 ≤ bar'.expect && bar'.expect ≤ bar'.arrived then s1.completePhase flight ref at' else s1
    else s
  | _, _ => s

/-- The withdrawal of one thread from every record of its flight's roster (R261, R346). -/
def State.withdraw (s : State) (flight team tidx : Nat) : State :=
  match s.flight? flight with
  | none => s
  | some f => f.roster.foldl (fun s r => s.withdrawFrom flight team tidx r) s

/-- A started imago thread joins every flight-mode record of the roster (R277). -/
def State.joinRecords (s : State) (flight : Nat) : State :=
  match s.flight? flight with
  | none => s
  | some f => f.roster.foldl (fun s r =>
      match s.barAt flight r with
      | some at' => if (s.barGet at').mode = 2 then s.barSet at' { s.barGet at' with expect := (s.barGet at').expect + 1 } else s
      | none => s) (s.modFlight flight fun f => { f with joined := f.joined + 1 })

/-! ### Band operations (R149, R150) -/

/-- Whether a thread is parked at a band operation, CSAVE or CREST at a key and iteration (R85, R149). -/
def Band.opAt (b : Band) (depth pc rep t : Nat) : Bool :=
  let th := b.thread t
  match th.state, th.park with
  | .atOp, .op _ => decide (th.depth = depth) && decide (th.pc = pc) && decide (th.rep = rep)
  | _, _ => false

/-- The instances at which threads are parked, as they will be once complete: key, iteration and member mask. -/
def Band.instances (b : Band) : List Done :=
  (b.threads.filterMap fun th => match th.state, th.park with
    | .atOp, .op mask => some ({ depth := th.depth, pc := th.pc, rep := th.rep, mask := mask, present := [], exited := [] } : Done)
    | _, _ => none).eraseDups

/-- Whether an instance has completed and not yet issued. -/
def Band.isDone (b : Band) (i : Done) : Bool := b.done.any fun d => d.depth = i.depth && d.pc = i.pc && d.rep = i.rep

/-- The instances that no named thread is missing from any more complete (R149). -/
def Band.evalInstances (b : Band) : Band :=
  b.instances.foldl (fun b i =>
    let ms := members i.mask b.width
    let gone := ms.filter fun t => (b.thread t).state = .exited
    let there := ms.filter (b.opAt i.depth i.pc i.rep ·)
    if b.isDone i then b
    else if ms.all fun t => gone.contains t || there.contains t then
      { b with done := b.done ++ [{ i with present := there, exited := gone }], mx := b.mx || !gone.isEmpty }
    else b) b

/-- Whether a thread has passed an instance: at its depth with a higher PC, or parked at its REP in a later iteration (R85,
R150). -/
def Band.passed (b : Band) (i : Done) (t : Nat) : Bool :=
  let th := b.thread t
  decide (th.state ≠ .exited) && decide (th.depth = i.depth) &&
    (decide (i.pc < th.pc) || ((List.range 64).any fun j => decide (i.rep < j) && b.opAt i.depth i.pc j t))

/-- The PC and mask of a parked instance that a named thread has passed, with that thread (R150). -/
def Band.diverged (b : Band) : Option (Nat × Nat × Nat) :=
  (b.instances.filterMap fun i =>
    if b.isDone i then none else ((members i.mask b.width).find? (b.passed i ·)).map fun t => (i.pc, i.mask, t)).head?

/-- The lowest thread parked at a PC. -/
def Band.lowestAt (b : Band) (pc : Nat) : Nat :=
  ((b.inState .atOp).find? fun t => (b.thread t).pc = pc).getD 0

/-- The member-divergence fault, where some named thread has passed a parked instance (R150). -/
def State.checkDivergence (s : State) (k : Nat) : State :=
  match (s.band? k).bind Band.diverged with
  | some (pc, mask, t) => s.stopBand k { code := 2, pc := pc, btid := (((s.band? k).map fun b => b.lowestAt pc).getD 0), aux0 := mask, aux1 := t }
  | none => s

/-! ### The end of a thread (R170, R171, R278, R346) -/

/-- Threads of a band that has a service in progress leave it: the result is discarded (R183). -/
def State.leaveEcalls (s : State) (b : Band) (ts : List Nat) : State :=
  { s with ecalls := s.ecalls.map fun p =>
      if p.2.flight = b.flight && p.2.team = b.team && p.2.bandid = b.bandid then
        (p.1, { p.2 with threads := p.2.threads.filter (!ts.contains ·) })
      else p }

/-- The program counter of an overlay entry: the lowest slot that holds it (R227). -/
def State.entryPc (s : State) (core ovid off : Nat) : Nat :=
  match (s.core core).slotOf? ovid with
  | some sl => sl * 16384 + off
  | none => Config.pick s.fresh 2 % 4 * 16384 + off

/-- The threads of a restarted band are threads of its flight again, and members of no record (R171, R259). -/
def State.rejoin (s : State) (b : Band) : State :=
  s.modFlight b.flight fun f =>
    { f with
      joined := if isTask b.team then f.joined else f.joined + b.threads.length
      left := f.left ++ (f.roster.flatMap fun r => b.threads.map fun th => (r, th.tidx)).filter (!f.left.contains ·) }

/-- The band restarts at its successor (R171, R278). -/
def State.restart (s : State) (k : Nat) (b : Band) (su : Succ) : State :=
  let pc := s.entryPc (keyCore k) su.ovid su.off
  let kept := b.regs.filter fun r => decide (su.a ≤ r.name) && decide (r.name < su.a + su.n)
  (s.rejoin b).setBand k
    { b with threads := b.threads.map fun th => { th with state := .ready, depth := 0, pc := pc, preds := 0, rndctr := 0, inTrap := false,
                                                          rep := 0, park := .none, past := [] },
             regs := kept.filter fun r => !r.vals.isEmpty, bec := 0, done := [], watches := [], rels := [], succ := none, yieldNext := false,
             groups := b.groups.map fun g => match g.dest with | .k _ _ => g | _ => { g with dest := .none }, tracker := {} }

/-- Whether every band of a team has left its slots. -/
def State.teamGone (s : State) (flight team : Nat) : Bool := !s.bands.any fun p => p.2.flight = flight && p.2.team = team

/-- The room of a team freed: its scratchpad allocation (R188) and its place. -/
def State.freeTeam (s : State) (flight team : Nat) (place : Place) : State :=
  match s.placeOfTeam flight team with
  | .resident core _ _ =>
    (s.modCluster (coreCluster core) fun c => { c with allocs := c.allocs.filter fun a => !(a.2.2.1 = flight && a.2.2.2 = team) }).modTeam
      flight team fun t => { t with place := place, candidate := none }
  | _ => s.modTeam flight team fun t => { t with place := place }

/-- A band leaves its slot; its quota returns to the pool, and its team ends with its last band (R170). -/
def State.leaveSlot (s : State) (k : Nat) (b : Band) : State :=
  let s1 : State := { s with bands := Tbl.del s.bands k }
  if s1.teamGone b.flight b.team then s1.freeTeam b.flight b.team .ended else s1

/-- What follows the end of a band's last thread: a restart, the end of a task band later (R357), or the slot freed. -/
def State.bandEnded (s : State) (k : Nat) : State :=
  match s.band? k with
  | none => s
  | some b =>
    if !b.allExited then s
    else match b.succ with
      | some su => s.restart k b su
      | none => if b.task.isSome then s.modBand k fun b => { b with watches := [] } else s.leaveSlot k b

/-- Threads that end while an instance that they completed has not issued count there as exited: they contribute 0, set MX and
receive nothing (R149, R151, R185). -/
def Band.leaveDone (b : Band) (ts : List Nat) : Band :=
  let out (d : Done) : Bool := d.present.any ts.contains
  { b with
    mx := b.mx || b.done.any out
    done := (b.done.map fun d => if out d then
      { d with present := d.present.filter (!ts.contains ·), exited := d.exited ++ d.present.filter ts.contains } else d).filter
        fun d => !d.present.isEmpty }

/-- Threads of a resident band end: STATE 5, live bits cleared but for kept names, and every withdrawal (R346). -/
def State.endThreads (s : State) (k : Nat) (ts : List Nat) (keep : Nat → Bool) : State :=
  match s.band? k with
  | none => s
  | some b =>
    let live := ts.filter fun t => (b.thread t).state ≠ .exited
    let drop (b : Band) (t : Nat) : Band :=
      { b with regs := b.regs.map fun r => if keep r.name then r else { r with vals := Tbl.del r.vals t } }
    let b1 := ((live.foldl drop (b.modThreads live fun _ th => { th with state := .exited, park := .none, acqs := [] })).leaveDone live).prune []
    let b2 := if live.any fun t => bitOf b1.tracker.tmask t then b1.resetTracker else b1
    let s1 := (s.setBand k b2).modFlight b.flight fun f => if isTask b.team then f else { f with exited := f.exited + live.length }
    let s2 := live.foldl (fun s t => s.withdraw b.flight b.team (b.thread t).tidx) s1
    let s3 := (s2.leaveEcalls b live).modBand k Band.evalInstances
    s3.bandEnded k

end Sys2Proof.Machine
end

