-- ==== Sys2Proof/Machine/Passes.lean ====
section
/-!
DEFINITION. Sys2Proof/Machine/Passes.lean: the matrix engine at work (R230 to R247, R300 to R313): the arbiter, passes, the effect of
each operation on slots and memory, the epilogue queue and its sends, and retirement.
-/
namespace Sys2Proof.Machine

/-! ### Counts of resident and absent bands (R193, R393) -/

/-- The slot key of a resident band by its number. -/
def State.keyOfUid (s : State) (uid : Nat) : Option Nat := ((List.find? fun p => decide (p.2.uid = uid)) s.bands).map (·.1)

/-- One unit of a counted access of a unit complete: for a resident band in its group; for an absent one CPN or TLN of its
record drops by an atomic at the slice (R393). -/
def State.unitCount (s : State) (uid gid : Nat) (ts : List Nat) (copy : Bool) (x : Nat) : State :=
  match s.keyOfUid uid with
  | some k => s.unitDone k gid ts 0 1 x
  | none =>
    match s.placeOfTeam (uid / 2 ^ 40) (uid / 2 ^ 8 % 2 ^ 32) with
    | .absent rec' =>
      let a := s.recBand rec' (uid % 256) + (if copy then 18 else 20)
      if copy && s.copies.any (fun p => decide (p.2.gid = gid)) then s else s.fwWrite a 2 (s.fwRead a 2 - 1)
    | _ => s

/-! ### Entries -/

/-- The engine of a cluster, and the cluster with its engine changed. -/
def State.eng (s : State) (cl : Nat) : Engine := (s.cluster cl).engine
def State.modEng (s : State) (cl : Nat) (f : Engine → Engine) : State := s.modCluster cl fun c => { c with engine := f c.engine }

/-- An entry changed. -/
def State.modEntry (s : State) (cl e : Nat) (f : Entry → Entry) : State :=
  s.modEng cl fun g => match Tbl.find? g.table e with | some x => { g with table := Tbl.put g.table e (f x) } | none => g

/-- A slot changed. -/
def State.modSlot (s : State) (cl n : Nat) (f : ASlot → ASlot) : State :=
  s.modEng cl fun g => { g with slots := Tbl.put g.slots n (f (g.slot n)) }

/-- Where the allocation of an entry's team stands (R188). -/
def State.entryAt (s : State) (cl : Nat) (e : Entry) : ScratchAt := s.scratchAt e.flight e.team cl e.sbase

/-- The number of slot-unit passes of an operation (R303). -/
def TileOp.passes (op : TileOp) : Nat :=
  match op with
  | .mma pb => (mmaOf pb).steps
  | .rslv _ n _ _ => n + 1
  | .acld _ n _ _ _ => n + 1
  | .acst _ n _ _ _ _ => n + 1
  | .acmp _ n _ _ _ _ _ _ => n + 1
  | .acz _ n => n + 1
  | .acmov _ n _ => n + 1
  | _ => 1

/-- Whether an operation runs on the array. -/
def TileOp.onArray : TileOp → Bool
  | .mma _ => true
  | _ => false

/-! ### The arbiter (R303, R304, R309) -/

/-- Whether an entry may be granted a pass now; the ring entry of a command that a stop has removed still names the ring. -/
def State.eligible (s : State) (cl n : Nat) (e : Entry) : Bool :=
  let g := s.eng cl
  !e.retired && !e.passing && !e.passesDone && !e.waits && decide (e.prog < e.op.passes) && decide (e.posted + 4 ≤ (s.die (clusterDie cl)).cycle)
    && !(g.live.any fun p => [false, true].any fun ring => decide (p.2.order p.1 ring < e.order n ring) && p.2.conflicts e ring)
    && !(g.removed.any fun p => p.2.ring && p.2.conflicts e true)
    && (!g.stopping.contains e.ctx || (e.started && !e.op.onArray))

/-- The rank of an entry (R303). -/
def Entry.rank (e : Entry) : Nat := if e.prom then 4 else e.prio

/-- Whether a block has left the send stage (R311): every element is on its way. -/
def Block.leftSend (b : Block) : Bool := b.sent && (b.shipped || decide (1024 ≤ b.done))

/-- The entry that the arbiter would choose for the array or the slot unit. -/
def State.chosen (s : State) (cl : Nat) (array : Bool) : Option Nat :=
  let g := s.eng cl
  let busy := g.live.any fun p => p.2.passing && decide (p.2.op.onArray = array)
  let epilogue := !array && g.epilogue.any fun q => !q.2.leftSend
  if busy || epilogue then none
  else (minBy (fun p : Nat × Entry => (4 - p.2.rank) * 2 ^ 40 + p.1)
    (g.live.filter fun p => decide (p.2.op.onArray = array) && s.eligible cl p.1 p.2)).map (·.1)

/-- PROMOTION (R303): an entry whose AGE has reached 4,096. -/
def execPromotion (cluster entry : Nat) (s : State) : Out :=
  .next (s.modEntry cluster entry fun e => if e.posted + 4096 ≤ (s.die (clusterDie cluster)).cycle then { e with prom := true } else e)

/-! ### Retirement (R229, R311) -/

/-- An entry retires: its count drops four cycles later, and a ring command's DONE arrival follows (R311, R315). -/
def State.retireEntry (s : State) (cl n : Nat) : State :=
  s.modEntry cl n fun e => { e with retired := true, passing := false, posted := (s.die (clusterDie cl)).cycle }

/-- The accumulator-state fault (R233): the operation is void, and its band stops, an absent one on its record (R475), or its ring
faults (R316). -/
def State.accFault (s : State) (cl n : Nat) (e : Entry) (slot : Nat) : State :=
  let found := ((s.eng cl).slot slot).val.code
  let s1 := s.retireEntry cl n
  if e.ring then s1
  else match s.keyOfUid e.uid with
    | some k => s1.stopBand k { code := 3, pc := e.pc, btid := e.thread, aux0 := slot, aux1 := found }
    | none => s1.modTeam e.flight e.team fun t =>
        { t with stops := t.stops ++ [(e.uid % 256, { code := 3, pc := e.pc, btid := e.thread, aux0 := slot, aux1 := found })] }

/-- The command ring faulted (R316): the commands after the failed one are discarded, and the owner receives a record. -/
def State.ringFault (s : State) (cl reason : Nat) : State :=
  let r := (s.eng cl).ring
  let s1 := s.modEng cl fun g => { g with ring := { g.ring with faulted := true, head := g.ring.tail, cmd := none, waited := false, entry := none } }
  s1.asyncFault (unposted r.flight (r.owner.getD 0)) 19 0 ((r.index - 1) % max r.entries 1) reason false

/-! ### Operands of the array (R240 to R242, R245) -/

/-- Word n of thread t of a band by its number: of a resident band, or of the record of an absent one (R310, R392); none where it is not live. -/
def State.bandReg (s : State) (uid n t : Nat) : Option Word :=
  match (s.keyOfUid uid).bind s.band? with
  | some b => b.vreg? n t
  | none => match s.placeOfTeam (uid / 2 ^ 40) (uid / 2 ^ 8 % 2 ^ 32) with
    | .absent rec' =>
      let o := s.recBand rec' (uid % 256)
      let e := s.fwRead (o + 0x800 + 4 * n) 4
      let at' := o + 0xC00 + e % 512 * imageBytes (s.fwRead (o + 1) 1)
      if bitOf e 31 && bitOf (s.fwRead at' 8) t then some (BitVec.ofNat 32 (s.fwRead (at' + 8 + 4 * t) 4)) else none
    | _ => none

/-- The bits of an operand's element kk of row i from its source: the segment in the scratchpad or the source band's
registers; `pos` marks undefined words apart. -/
def State.operandBits (s : State) (cl : Nat) (e : Entry) (x : Mma) (src fmt i kk : Nat) : Nat :=
  let b := elBits fmt
  let width := if fmt = 9 then 16 else b
  if bitOf src 31 then
    let q := x.k * b / 32
    let w := min e.bandw 32
    let at' := if fmt = 9 then kk / 8 * 16 else kk * b
    let reg := bits src 7 0 + q * (i / w) + at' / 32
    let id := if bits src 13 8 = 0x3F then e.uid else uidOf e.flight e.team (bits src 13 8)
    ((s.bandReg id reg (i % w)).getD (Config.freeWord s.fresh i reg)).toNat / 2 ^ (at' % 32) % 2 ^ width
  else
    let off := kk % x.kb
    let at' := if fmt = 9 then off / 8 * 16 else off * b
    s.atRead (s.entryAt cl e) (segment src i (kk / x.kb) + at' / 8) (max 1 (width / 8)) / 2 ^ (at' % 8) % 2 ^ width

/-- The value of an operand's element (R21, R28). -/
def State.operand (s : State) (cl : Nat) (e : Entry) (x : Mma) (src fmt i kk : Nat) : Fv :=
  let c := s.operandBits cl e x src fmt i kk
  if fmt = 9 then
    let p := s.codebook cl (i * 4096 + kk / 8) x.cbt (c / 256)
    (fvOfInt ((vq2Halves p c).getD (kk % 8) 0)).scale (-1)
  else (fmtOf fmt).decode c

/-- The scale of row i at K position k (R242). -/
def State.operandScale (s : State) (cl : Nat) (e : Entry) (x : Mma) (sc i k : Nat) : Fv :=
  let j := i * (x.k / 32) + k / 32
  match bits sc 31 30 with
  | 1 => decodeE8m0 (s.atRead (s.entryAt cl e) (bits sc 21 0 + j) 1)
  | 2 =>
    let b := bits sc 9 8 + j
    decodeE8m0 (((s.bandReg e.uid (bits sc 7 0) (b / 4)).getD (Config.freeWord s.fresh (b / 4) (bits sc 7 0))).toNat / 2 ^ (8 * (b % 4)))
  | _ => .fin false 1 0

/-- The channel of K position k (R34). -/
def State.channel (s : State) (cl : Nat) (x : Mma) (k : Nat) : Nat :=
  if x.pte then
    match Tbl.find? (s.eng cl).ptbl x.pt with
    | some l => k / 256 * 256 + l.getD (k % 256) 0
    | none => k
  else k

/-- The products of one K step added to one element, in ascending K position (R38, R245). -/
def State.stepElement (s : State) (cl : Nat) (e : Entry) (x : Mma) (q i j : Nat) (el : El) : El :=
  (List.range x.kb).foldl (fun el t =>
    let k := q * x.kb + t
    let kk := s.channel cl x k
    let a := (s.operand cl e x x.asrc x.fa i kk).mul (s.operandScale cl e x x.asc i k)
    let b := (s.operand cl e x x.bsrc x.fb j kk).mul (s.operandScale cl e x x.bsc j k)
    el.accumulate (a.mul b)) el

/-- An undefined element (R231). -/
def freeEl (fresh pos : Nat) : El := elOfRaw (Config.freeNat fresh pos % 2 ^ 158)

/-- The slot of block number m of an MMA (R238). -/
def Mma.slotOf (x : Mma) (m : Nat) : Nat := x.aslot + m

/-- Whether element i of block m is computed from something that a band has written meanwhile (R231). -/
def Entry.racedAt (e : Entry) (x : Mma) (m i : Nat) : Bool :=
  e.racedA.contains (32 * (m / x.nb) + i / 32) || e.racedB.contains (32 * (m % x.nb) + i % 32)

/-- The elements of a block after K step q. -/
def State.stepBlock (s : State) (cl : Nat) (e : Entry) (x : Mma) (q m : Nat) : List El :=
  ((s.eng cl).slot (x.slotOf m)).val.enter.zipIdx.map fun p =>
    if e.racedAt x m p.2 then freeEl s.fresh (m * 1024 + p.2)
    else s.stepElement cl e x q (32 * (m / x.nb) + p.2 / 32) (32 * (m % x.nb) + p.2 % 32) p.1

/-- The first phase at an MMA's first grant (R245, R308, R309): each output slot enters accumulation, but a slot that a stopped MMA left
after its first phase keeps its elements and gives the step to resume at (log entry 31). -/
def State.prepare (s : State) (cl n : Nat) (e : Entry) (x : Mma) : State :=
  let first := (s.eng cl).slot x.aslot
  let s1 := (List.range x.blocks).foldl (fun s m =>
    s.modSlot cl (x.slotOf m) fun a =>
      if a.stop && e.begun then { a with stop := false }
      else { a with stop := false, val := .raw (if x.zi then List.replicate 1024 {} else a.val.enter), prog := x.prog }) s
  if first.stop && e.begun then s1.modEntry cl n fun e => { e with prog := first.prog } else s1

/-! ### Memory of the slot unit (R250) -/

/-- n bytes of x that an engine's entry writes at a virtual address of its context enter the fabric; units outside the range set are not
written. -/
def State.unitWrite (s : State) (cl ctx va n x owner : Nat) : State :=
  (splitUnits va n).foldl (fun s u => match s.reach (agentEngine cl) ctx ((va + u.1) % 2 ^ 64) needW true with
    | .at ia pa => s.unitSend (agentEngine cl) ia pa u.2 (x / 2 ^ (8 * u.1) % 2 ^ (8 * u.2)) owner
    | _ => s) s

/-- The elements of a slot image stored from an address on. -/
def State.storeImage (s : State) (cl n : Nat) (e : Entry) (space a z : Nat) (l : List Nat) : State :=
  l.zipIdx.foldl (fun s p =>
    if space = 1 then s.atWrite (s.entryAt cl e) (a + p.2 * z) z p.1 else s.unitWrite cl e.ctx ((a + p.2 * z) % 2 ^ 64) z p.1 n) s

/-- The elements of a slot image loaded from an address on. -/
def State.loadImage (s : State) (cl : Nat) (e : Entry) (space a z : Nat) : List Nat :=
  (List.range 1024).map fun i =>
    if space = 1 then s.atRead (s.entryAt cl e) (a + i * z) z else (s.vaRead e.ctx (a + i * z) z needX).getD 0

/-! ### Passes -/

/-- The record of an entry's absent band. -/
def State.entryRecord (s : State) (e : Entry) : Option Nat :=
  match s.placeOfTeam e.flight e.team with
  | .absent rec' => if e.ring then none else some (s.recBand rec' (e.uid % 256))
  | _ => none

/-- The source of H of an entry: the issuing thread's RNDSEED, TIDX and RNDCTR as they stand, in its band or in its record (R29, R247,
R392, R393). -/
def State.entrySr (s : State) (e : Entry) : Sr :=
  match (s.keyOfUid e.uid).bind s.band?, s.entryRecord e with
  | some b, _ => { seed := b.rndseed, tid := e.tidx, ctr := (b.thread e.thread).rndctr }
  | none, some o => { seed := s.fwRead (o + 12) 4, tid := e.tidx, ctr := s.fwRead (o + 0x80 + 4 * e.thread) 4 }
  | none, none => { seed := e.rndseed, tid := e.tidx, ctr := e.rndctr }

/-- RNDCTR of an entry's thread advanced by its draws, in its band or in its record (R33, R389). -/
def State.entryDraws (s : State) (cl n : Nat) (e : Entry) (d : Nat) : State :=
  let s1 := s.modEntry cl n fun e => { e with rndctr := (e.rndctr + d) % 2 ^ 32 }
  match s.keyOfUid e.uid, s.entryRecord e with
  | some k, _ => s1.modBand k fun b => b.modThread e.thread fun th => { th with rndctr := (th.rndctr + d) % 2 ^ 32 }
  | none, some o => let a := o + 0x80 + 4 * e.thread; if d = 0 then s1 else s1.fwWrite a 4 ((s1.fwRead a 4 + d) % 2 ^ 32)
  | none, none => s1

/-- The value of an element pair's comparison under an FC condition (R135, R251). -/
def cmpHolds (cond : Nat) (x y : Option (Int × Int × Int × Bool)) : Bool :=
  match x, y with
  | some a, some b => orderCond cond false (cmpValues a b)
  | _, _ => orderCond cond true .eq

/-- The elements that ACMP compares. -/
def SlotVal.values (v : SlotVal) : List (Option (Int × Int × Int × Bool)) := v.enter.map El.value

/-- Where the allocation stands that a ring's offsets name (R314). -/
def State.ringAt (s : State) (cl : Nat) : ScratchAt :=
  let r := (s.eng cl).ring
  s.scratchAt r.flight r.team cl r.sbase

/-- The bytes of a pushed command, with those that a band wrote meanwhile undefined (R231). -/
def Entry.pushed (e : Entry) (fresh x : Nat) : Nat :=
  if e.racedC.isEmpty then x
  else (List.range 128).foldl (fun t i =>
    t + (if e.racedC.contains i then Config.freeNat fresh i else x / 2 ^ (8 * i)) % 256 * 2 ^ (8 * i)) 0

/-- One pass of a slot operation over the slot of index i of its range, or of a table, route or ring operation; none while a
page it needs is not mapped (R227, R250, R427). -/
def State.slotPass (s : State) (cl n : Nat) (e : Entry) : Option State :=
  let i := e.prog
  let g := s.eng cl
  match e.op with
  | .mma _ => some s
  | .rslv slot _ bf rnd =>
    let q := (g.slot (slot + i)).val.codes bf rnd (s.entrySr e)
    some ((s.modSlot cl (slot + i) fun a => { a with val := .resolved bf q.1, stop := false, prog := 0 }).entryDraws cl n e q.2)
  | .acld slot _ form space a =>
    let z := formBytes form
    let base := a + i * 1024 * z
    if space = 0 && (s.firstUnmapped e.ctx base needX false (1024 * z)).isSome then none
    else
      let l := s.loadImage cl e space base z
      let l1 := if e.racedC.isEmpty then l
        else l.zipIdx.map fun p => if e.racedC.contains (1024 * i + p.2) then Config.freeNat s.fresh p.2 % 2 ^ (8 * z) else p.1
      some (s.modSlot cl (slot + i) fun b => { b with val := slotOfImage form l1, stop := false, prog := 0 })
  | .acst slot _ form space a rnd =>
    let v := (g.slot (slot + i)).val
    let f := if form = 0 then v.formOf.getD 2 else form
    let z := formBytes f
    let base := a + i * 1024 * z
    if space = 0 && (s.firstUnmapped e.ctx base needW true (1024 * z)).isSome then none
    else
      let q := v.image f rnd (s.entrySr e)
      let s1 := (s.storeImage cl n e space base z q.1).entryDraws cl n e q.2
      some (if form = 2 then
        s1.modSlot cl (slot + i) fun b =>
          { b with val := match b.val with | .raw l => .wide (l.map El.propagate) | v => v, stop := false, prog := 0 }
      else s1)
  | .acmp slot _ slotb cond any comp _ _ =>
    let xs := (g.slot (slot + i)).val.values
    let ys := if comp then (g.slot (slotb + i)).val.values else List.replicate 1024 (some (0, 0, 0, false))
    let hs := (xs.zip ys).map fun p => cmpHolds cond p.1 p.2
    some (s.modEntry cl n fun e => { e with decided := e.decided || (if any then hs.any id else hs.any (!·)) })
  | .acz slot _ => some (s.modSlot cl (slot + i) fun a => { owner := a.owner })
  | .acmov slot nm1 slotb =>
    -- the whole range is copied as if through a temporary at its last pass (R252)
    if i < nm1 then some s
    else some ((List.range (nm1 + 1)).foldl (fun s j => s.modSlot cl (slot + j) fun a => { g.slot (slotb + j) with owner := a.owner }) s)
  | .mptbl t l => some (s.modEng cl fun g => { g with ptbl := Tbl.put g.ptbl t l })
  | .mcbtbl t l => some (s.modEng cl fun g => { g with cbtbl := Tbl.put g.cbtbl t l })
  | .mroute r v => some (s.modEng cl fun g => { g with routes := Tbl.put g.routes (8 * e.ctx + r) v })
  | .mxqPush a =>
    let r := g.ring
    let x := e.pushed s.fresh (s.atRead (s.entryAt cl e) a 128)
    let s1 := s.atWrite (s.ringAt cl) (r.base + r.tail % max r.entries 1 * 128) 128 x
    some (s1.modEng cl fun g => { g with ring := { g.ring with tail := g.ring.tail + 1 } })
  | .mxqInit base k =>
    some (s.modEng cl fun g =>
      { g with ring := { base := base, entries := k, owner := some e.ctx, team := e.team, flight := e.flight, sbase := e.sbase,
                         ssize := e.ssize, epri := e.prio, frees := g.ring.frees, dones := g.ring.dones } })
  | .idle => some s

/-- The grant of a pass (R303): an ACST that finds a RAW slot faults (R233), and an MMA's first grant prepares its slots. -/
def State.grant (s : State) (cl n : Nat) (e : Entry) : State :=
  let raw := match e.op with
    | .acst slot nm1 0 _ _ _ => if e.started then none else (slotRange slot nm1).find? fun i => ((s.eng cl).slot i).val.formOf.isNone
    | _ => none
  match raw with
  | some slot => s.accFault cl n e slot
  | none =>
    let s1 := match e.op with
      | .mma pb => if e.started then s else s.prepare cl n e (mmaOf pb)
      | _ => s
    s1.modEntry cl n fun e => { e with started := true, passing := true }

/-- ENGINE_PASS_GRANT: the arbiter grants the chosen entry one pass. -/
def execEnginePassGrant (cluster entry : Nat) (s : State) : Out :=
  match Tbl.find? (s.eng cluster).table entry with
  | none => .next s
  | some e =>
    if s.chosen cluster e.op.onArray = some entry then
      let s1 := s.grant cluster entry e
      let failed := match Tbl.find? (s1.eng cluster).table entry with | some e1 => e1.retired | none => true
      .next (if e.ring && failed then s1.ringFault cluster 3 else s1)
    else .next s

/-- The end of the ring's current command's passes (R315): the arrivals it owes, FREE at once and DONE when it retires. -/
def State.ringEnd (s : State) (cl n : Nat) : State :=
  s.modEng cl fun g =>
    let r := g.ring
    let c := r.cmd.getD 0
    let sig := pbBytes c 66 66
    { g with ring := { r with
        cmd := none
        waited := false
        entry := none
        frees := if bitOf sig 0 then r.frees ++ [{ entry := n, flight := r.flight, team := r.team, addr := pbBytes c 79 76 }] else r.frees
        dones := if bitOf sig 1 then r.dones ++ [{ entry := n, flight := r.flight, team := r.team, addr := pbBytes c 83 80 }] else r.dones } }

/-- The end of an entry's passes. -/
def State.endOfPasses (s : State) (cl n : Nat) (e : Entry) : State := if e.ring then s.ringEnd cl n else s

/-- The end of an MMA's pass (R245, R307, R311). -/
def State.arrayPass (s : State) (cl n : Nat) (e : Entry) (x : Mma) : State :=
  let q := e.prog
  let blocks := (List.range x.blocks).map fun m => (m, s.stepBlock cl e x q m)
  let s1 := blocks.foldl (fun s p => s.modSlot cl (x.slotOf p.1) fun a => { a with val := .raw p.2, prog := q + 1 }) s
  let s2 := s1.modEntry cl n fun e => { e with prog := q + 1, passing := false }
  if q + 1 < x.steps then s2
  else
    let s3 := (s2.modEntry cl n fun e => { e with passesDone := true, blocksLeft := if x.en then x.blocks else 0 }).endOfPasses cl n e
    if x.en then
      (List.range x.blocks).foldl (fun s m => s.modEng cl fun g =>
        { g with epilogue := g.epilogue ++ [(g.nextBlock, { entry := n, mt := m / x.nb, nt := m % x.nb, slot := x.slotOf m })], nextBlock := g.nextBlock + 1 }) s3
    else s3.retireEntry cl n

/-- The page that an image operation waits for requested (R427). -/
def State.askPages (s : State) (cl : Nat) (e : Entry) : State :=
  let ask (write : Bool) (form a : Nat) : State :=
    match s.firstUnmapped e.ctx (a + e.prog * 1024 * formBytes form) (if write then needW else needX) write (1024 * formBytes form) with
    | some ia => s.pageRequest ia e.ctx (if write then 1 else 0)
    | none => s
  match e.op with
  | .acld _ _ form 0 a => ask false form a
  | .acst slot _ form 0 a _ => ask true (if form = 0 then (((s.eng cl).slot (slot + e.prog)).val.formOf).getD 2 else form) a
  | _ => s

/-- Whether the next image that an ACLD reads meets poison (R483). -/
def State.imagePoisoned (s : State) (e : Entry) : Bool :=
  match e.op with
  | .acld _ _ form 0 a =>
    let z := formBytes form
    !s.poison.isEmpty && (List.range 1024).any fun i => match translate (s.ctxRanges e.ctx) {} (a + (e.prog * 1024 + i) * z) with
      | some ia => match s.portPA agentIO ia false with | some pa => (s.poisonAt pa z).isSome | none => false
      | none => false
  | _ => false

/-- PASS_END: the pass in progress of an entry ends with its effect; an operation whose stores are still on their way retires once they are
performed (R229). -/
def execPassEnd (cluster entry : Nat) (s : State) : Out :=
  match Tbl.find? (s.eng cluster).table entry with
  | none => .next s
  | some e =>
    if !e.passing then .next s
    else match e.op with
      | .mma pb => .next (s.arrayPass cluster entry e (mmaOf pb))
      | op =>
        if s.imagePoisoned e then .next ((s.retireEntry cluster entry).asyncFault e.owner 18 (match op with | .acld _ _ _ _ a => a | _ => 0) e.prog 0 true)
        else match s.slotPass cluster entry e with
        | none => .next (s.askPages cluster e)
        | some s1 =>
          let s2 := s1.modEntry cluster entry fun e => { e with prog := e.prog + 1, passing := false }
          if e.prog + 1 < op.passes then .next s2
          else
            let s3 := (s2.modEntry cluster entry fun e => { e with passesDone := true }).endOfPasses cluster entry e
            .next (if s3.unitFlying (agentEngine cluster) entry then s3 else s3.retireEntry cluster entry)

/-! ### The epilogue (R247, R311) -/

/-- One element's epilogue: the code and the draws (R247). -/
def epiElement (x : Mma) (bias : Nat) (el : El) (sr : Sr) : Nat × Nat :=
  let r := el.resolve .f32 x.rnd sr
  let sr1 : Sr := { sr with ctr := (sr.ctr + r.2) % 2 ^ 32 }
  let y := if x.sb then (ffmaEl .f32 0 sr1 x.escale r.1 bias).1 else r.1
  let z := match x.relu, Fmt.f32.decode y with
    | true, .zero _ => 0
    | true, .inf true => 0
    | true, .fin true _ _ => 0
    | _, _ => y
  let c := convF (if x.outf = 0 then .f32 else fmtOf x.outf) (Fmt.f32.decode z) x.rnd x.osat sr1
  (c.1, r.2 + c.2)

/-- The codes of a block, in ascending (r, c), and the draws. -/
def State.epiBlock (s : State) (cl : Nat) (e : Entry) (x : Mma) (b : Block) : List Nat × Nat :=
  mapDraws (fun (p : El × Nat) sr =>
    let col := 32 * b.nt + p.2 % 32
    let bias := if !x.sb then 0 else if e.racedC.contains col then Config.freeNat s.fresh col % 2 ^ 32 else s.atRead (s.entryAt cl e) (x.ebias + 4 * col) 4
    epiElement x bias p.1 sr) ((s.eng cl).slot b.slot).val.enter.zipIdx (s.entrySr e)

/-- A block changed. -/
def State.modBlock (s : State) (cl n : Nat) (f : Block → Block) : State :=
  s.modEng cl fun g => { g with epilogue := g.epilogue.map fun q => if q.1 = n then (n, f q.2) else q }

/-- EPILOGUE_RESOLVE: the first queued block passes the resolve stage. -/
def execEpilogueResolve (cluster : Nat) (s : State) : Out :=
  match (s.eng cluster).epilogue.find? fun q => q.2.codes.isNone with
  | none => .next s
  | some (n, b) => match Tbl.find? (s.eng cluster).table b.entry with
    | none => .next s
    | some e => match e.op with
      | .mma pb =>
        let r := s.epiBlock cluster e (mmaOf pb) b
        .next ((s.modBlock cluster n fun b => { b with codes := some r.1 }).entryDraws cluster b.entry e r.2)
      | _ => .next s

/-- The operation stops with its unsent blocks left RAW, and an EPISTOP record names the first (R311, R312); it retires once the blocks that
have been sent before are accepted. -/
def State.epiStop (s : State) (cl n : Nat) (e : Entry) (x : Mma) : State :=
  let mine := (s.eng cl).epilogue.filter fun q => q.2.entry = n
  let unsent := mine.filter fun q => !q.2.leftSend
  let sent := mine.filter fun q => q.2.leftSend
  let s1 := (s.modEng cl fun g => { g with epilogue := g.epilogue.filter fun q => q.2.entry ≠ n || q.2.leftSend }).modEntry cl n fun e =>
    { e with blocksLeft := sent.length }
  let s2 := if sent.isEmpty then s1.retireEntry cl n else s1
  match unsent with
  | (_, b) :: _ => s2.asyncFault e.owner 18 x.dst (b.mt * 8 + b.nt) 0 true
  | [] => s

/-- The address of element number i of a block at a DEST 1, DEST 2 or KIND 1 destination (R247, R312). -/
def Mma.elementAt (x : Mma) (base : Nat) (b : Block) (i : Nat) : Nat :=
  (base + x.dst + (32 * b.mt + i / 32) * x.dpitch + (32 * b.nt + i % 32) * x.z) % 2 ^ 64

/-- The next element of a block performed at its destination: scratchpad, memory, or a reduction buffer of this device
(R247, R312); a page that is not mapped is requested and waited for. -/
def State.sendElement (s : State) (cl n : Nat) (b : Block) (e : Entry) (x : Mma) : State :=
  let y := (b.codes.getD []).getD b.done 0
  let next (s : State) : State := s.modBlock cl n fun b => { b with done := b.done + 1 }
  let route := Tbl.get (s.eng cl).routes (8 * e.ctx + x.rreg) 0
  if x.dest = 1 then next (s.atWrite (s.entryAt cl e) (x.elementAt 0 b b.done % 2 ^ 32) x.z y)
  else
    let rop := if x.dest = 2 then 0 else bits route 39 36
    let va := x.elementAt (if x.dest = 2 then 0 else route / 2 ^ 64) b b.done
    match s.places (agentEngine cl) e.ctx va (if rop = 0 then needW else needXWA) true (splitUnits va x.z) with
    | .error (.wait ia) => s.pageRequest ia e.ctx 1
    | .error _ => s.epiStop cl b.entry e x
    | .ok ps =>
      if rop = 0 then next (s.unitStore (agentEngine cl) y b.entry ps)
      else match ps with
        | [(_, _, ia, pa)] =>
          if (s.poisonAt pa x.z).isSome then s.epiStop cl b.entry e x else next (s.unitSendRop (agentEngine cl) ia pa rop x.z y b.entry)
        | _ => s.epiStop cl b.entry e x

/-- A block has reached its destination: the slot's state, and the operation's retirement with its last block (R247,
R311). -/
def State.blockDone (s : State) (cl n : Nat) (b : Block) (x : Mma) : State :=
  let s1 := s.modEng cl fun g => { g with epilogue := g.epilogue.filter fun q => q.1 ≠ n }
  let s2 := if x.dest = 0 then s1.modSlot cl b.slot fun a => { a with val := .resolved (decide (x.outf = 2)) (b.codes.getD []) }
    else if x.clr then s1.modSlot cl b.slot fun a => { a with val := .empty } else s1
  let s3 := s2.modEntry cl b.entry fun e => { e with blocksLeft := e.blocksLeft - 1 }
  match Tbl.find? (s3.eng cl).table b.entry with
  | some e => if e.blocksLeft = 0 then s3.retireEntry cl b.entry else s3
  | none => s3

/-- BLOCK_ACCEPTED: the destination has accepted every element of a sent block (R229, R312). -/
def execBlockAccepted (cluster block : Nat) (s : State) : Out :=
  match (s.eng cluster).epilogue.find? fun q => q.1 = block with
  | none => .next s
  | some (_, b) => match Tbl.find? (s.eng cluster).table b.entry with
    | none => .next s
    | some e => match e.op with
      | .mma pb => .next (if b.sent && decide (1024 ≤ b.done) && !s.unitFlying (agentEngine cluster) b.entry then s.blockDone cluster block b (mmaOf pb) else s)
      | _ => .next s

/-- A predicate of threads of an absent band written in its record (R251, R392). -/
def State.savedPred (s : State) (uid : Nat) (ts : List Nat) (p : Nat) (v : Bool) : State :=
  match s.placeOfTeam (uid / 2 ^ 40) (uid / 2 ^ 8 % 2 ^ 32) with
  | .absent rec' =>
    let base := s.recBand rec' (uid % 256) + 0x40
    ts.foldl (fun (s : State) t =>
      let x := s.fwRead (base + t) 1
      if 7 ≤ p then s else s.fwWrite (base + t) 1 (x - (if bitOf x p then 2 ^ p else 0) + (if v then 2 ^ p else 0))) s
  | _ => s

/-- TL_RELEASE: four engine cycles after retirement, the count drops, and the entry is gone (R229, R311). -/
def State.tlRelease (s : State) (cl n : Nat) (e : Entry) : State :=
  let s1 := s.modEng cl fun g => { g with table := Tbl.del g.table n }
  if e.ring then s1
  else
    let ts := match e.op with | .acmp _ _ _ _ _ _ _ ts => ts | _ => [e.thread]
    let x := match e.op with | .acmp _ _ _ _ any _ _ _ => if e.decided = any then 1 else 0 | _ => 0
    let s2 := match e.op, s.keyOfUid e.uid with | .acmp _ _ _ _ _ _ p _, none => s1.savedPred e.uid ts p (x = 1) | _, _ => s1
    s2.unitCount e.uid e.gid ts false x

/-! ### Races with the engine (R231) -/

/-- The rows of an operand whose segments hold a byte of the allocation (R240). -/
def Mma.rowsAt (x : Mma) (src rows fmt off : Nat) : List Nat :=
  if bitOf src 31 then []
  else (List.range rows).filter fun i => (List.range (x.steps - x.prog)).any fun q =>
    let a := segment src i (x.prog + q)
    decide (a ≤ off) && decide (off < a + x.kb * elBits fmt / 8)

/-- The rows whose scratchpad scales hold a byte (R242). -/
def Mma.scalesAt (x : Mma) (sc rows off : Nat) : List Nat :=
  if bits sc 31 30 = 1 && decide (bits sc 21 0 ≤ off) && decide (off < bits sc 21 0 + rows * (x.k / 32)) then [(off - bits sc 21 0) / max (x.k / 32) 1] else []

/-- What of an operation is computed from a byte of its team's allocation: rows of A, rows of B, and columns of the bias, elements of an image
that it loads or bytes of a command that it pushes. -/
def Entry.fromByte (e : Entry) (off : Nat) : List Nat × List Nat × List Nat :=
  match e.op with
  | .mma pb =>
    let x := mmaOf pb
    (x.rowsAt x.asrc x.m x.fa off ++ x.scalesAt x.asc x.m off, x.rowsAt x.bsrc x.n x.fb off ++ x.scalesAt x.bsc x.n off,
      if x.en && x.sb && decide (x.ebias ≤ off) && decide (off < x.ebias + 4 * x.n) then [(off - x.ebias) / 4] else [])
  | .acld _ nm1 form 1 a => ([], [], if a ≤ off ∧ off < a + (nm1 + 1) * 1024 * formBytes form then [(off - a) / formBytes form] else [])
  | .mxqPush a => ([], [], if a ≤ off ∧ off < a + 128 then [off - a] else [])
  | _ => ([], [], [])

/-- Whether an operation writes a byte of its team's allocation. -/
def Entry.writesByte (e : Entry) (off : Nat) : Bool :=
  match e.op with
  | .mma pb =>
    let x := mmaOf pb
    x.en && x.dest = 1 && (List.range x.m).any fun i =>
      decide (x.dst % 2 ^ 32 + i * x.dpitch ≤ off) && decide (off < x.dst % 2 ^ 32 + i * x.dpitch + x.n * x.z)
  | .acst _ nm1 form 1 a _ => decide (a ≤ off) && decide (off < a + (nm1 + 1) * 1024 * (if form = 0 then 12 else formBytes form))
  | _ => false

/-- Whether entry n reads its operands now: from its post, for a ring command from the moment its wait holds, until it has retired or its FREE
arrival is made (R231, R317). -/
def Engine.reads (g : Engine) (n : Nat) (e : Entry) : Bool :=
  (!e.waits || g.ring.waited)
    && if e.ring && bitOf e.sig 0 then !e.passesDone || g.ring.frees.any (fun w => w.entry = n) else !e.retired

/-- Whether entry n is still to write its results: until it has retired, or its DONE arrival is made. -/
def Engine.writes (g : Engine) (n : Nat) (e : Entry) : Bool := (!e.waits || g.ring.waited) && (!e.retired || g.ring.dones.any fun w => w.entry = n)

/-- Whether a byte of a cluster's scratchpad is one that a push in the table will write (R256). -/
def State.pushWrites (s : State) (cl a : Nat) : Bool :=
  let g := s.eng cl
  match s.ringAt cl with
  | .here c base => (List.range g.pushes).any fun j =>
      let p := base + (g.ring.base + (g.ring.tail + j) % max g.ring.entries 1 * 128)
      c = cl && decide (p ≤ a) && decide (a < p + 128)
  | .saved _ => false

/-- A slot's elements of some numbers made undefined. -/
def SlotVal.spoil (v : SlotVal) (fresh : Nat) (hit : Nat → Bool) : SlotVal :=
  let els (l : List El) : List El := l.zipIdx.map fun p => if hit p.2 then freeEl fresh p.2 else p.1
  match v with
  | .empty => .empty
  | .raw l => .raw (els l)
  | .wide l => .wide (els l)
  | .resolved bf l => .resolved bf (l.zipIdx.map fun p => if hit p.2 then Config.freeNat fresh p.2 % 2 ^ (if bf then 16 else 32) else p.1)

/-- Rows, columns and elements of an operation that a band has written meanwhile: what is computed from them is undefined (R231), in the passes
to come, in the slots that hold it and in the epilogue's codes not yet sent. -/
def State.spoilEntry (s : State) (cl n : Nat) (e0 : Entry) (hit : List Nat × List Nat × List Nat) : State :=
  let e : Entry := { e0 with racedA := (e0.racedA ++ hit.1).eraseDups, racedB := (e0.racedB ++ hit.2.1).eraseDups, racedC := (e0.racedC ++ hit.2.2).eraseDups }
  let s1 := s.modEntry cl n fun _ => e
  match e.op with
  | .mma pb =>
    let x := mmaOf pb
    let s2 := if e.started && !e.retired then
        (List.range x.blocks).foldl (fun (s : State) m => s.modSlot cl (x.slotOf m) fun a => { a with val := a.val.spoil s.fresh (e.racedAt x m) }) s1
      else s1
    s2.modEng cl fun g => { g with epilogue := g.epilogue.map fun q =>
      let b := q.2
      let hit (j : Nat) : Bool :=
        decide (b.done ≤ j) && !b.shipped && (e.racedAt x (b.mt * x.nb + b.nt) j || e.racedC.contains (32 * b.nt + j % 32))
      let codes := b.codes.map fun l => l.zipIdx.map fun p => if hit p.2 then Config.freeNat s.fresh (q.1 * 1024 + p.2) % 2 ^ (8 * x.z) else p.1
      if b.entry ≠ n then q else (q.1, { b with codes := codes }) }
  | .acld slot _ _ _ _ =>
    (List.range e.prog).foldl (fun (s : State) i => s.modSlot cl (slot + i) fun a =>
      { a with val := a.val.spoil s.fresh fun j => e.racedC.contains (1024 * i + j) }) s1
  | _ => s1

/-- The bytes of a scratchpad access of a band that race with an unretired operation become undefined, and so does what an operation computes
from them. -/
def State.raceScratch (s : State) (cl off n : Nat) (write : Bool) : State :=
  (List.range n).foldl (fun s i =>
    let a := off + i
    let g := s.eng cl
    let near (p : Nat × Entry) : Option Nat := match s.entryAt cl p.2 with
      | .here c base => if c = cl && decide (base ≤ a) then some (a - base) else none
      | .saved _ => none
    let readers := if !write then [] else g.table.filterMap fun p => if !g.reads p.1 p.2 then none else (near p).bind fun o =>
      let h := p.2.fromByte o
      if h = ([], [], []) then none else some (p.1, p.2, h)
    let written := !write && (s.pushWrites cl a || g.table.any fun p => g.writes p.1 p.2 && (near p).any p.2.writesByte)
    if readers.isEmpty && !written then s
    else
      let s1 : State := { s with mem := Memory.write s.mem (placeScratch cl a) 1 (Config.freeNat s.fresh a % 256) }
      readers.foldl (fun s p => s.spoilEntry cl p.1 p.2.1 p.2.2) s1) s

/-- The rows of a register operand that read word r of thread t of a band (R241). -/
def Entry.rowsOf (e : Entry) (x : Mma) (src fmt uid r t : Nat) : List Nat :=
  let id := if bits src 13 8 = 0x3F then e.uid else uidOf e.flight e.team (bits src 13 8)
  let q := x.k * elBits fmt / 32
  let w := min e.bandw 32
  if bitOf src 31 && decide (id = uid) then (List.range 32).filter fun i =>
    decide (i % w = t) && decide (bits src 7 0 + q * (i / w) ≤ r) && decide (r < bits src 7 0 + q * (i / w) + q)
  else []

/-- The rows whose register scales stand in word r of thread t (R242). -/
def Entry.scaleRowsOf (e : Entry) (x : Mma) (sc rows uid r t : Nat) : List Nat :=
  if bits sc 31 30 = 2 && decide (e.uid = uid) && decide (bits sc 7 0 = r) then (List.range rows).filter fun i =>
    decide (bits sc 9 8 + i * (x.k / 32) < 4 * t + 4) && decide (4 * t < bits sc 9 8 + (i + 1) * (x.k / 32))
  else []

/-- The rows of A and of B that an operation reads from word r of thread t of a band. -/
def Entry.fromReg (e : Entry) (uid r t : Nat) : List Nat × List Nat × List Nat :=
  match e.op with
  | .mma pb =>
    let x := mmaOf pb
    (e.rowsOf x x.asrc x.fa uid r t ++ e.scaleRowsOf x x.asc x.m uid r t, e.rowsOf x x.bsrc x.fb uid r t ++ e.scaleRowsOf x x.bsc x.n uid r t, [])
  | _ => ([], [], [])

/-- The v registers that returned data wrote in a step: those of the groups of which a thread's last unit has arrived. -/
def Band.landed (b0 b1 : Band) : List (Nat × Nat) :=
  b0.groups.flatMap fun g => match g.dest with
    | .v reg ti => (g.left.filter fun p => decide (0 < p.2) && !b1.pendingV p.1 reg).flatMap fun p =>
        (List.range (wordsFor (tiBits ti))).map fun i => (reg + i, p.1)
    | _ => []

/-- The v registers of a band written in a step, each with its thread: by the run that issued, by returned data, or otherwise changed. -/
def State.regsWritten (s1 : State) (b0 b1 : Band) (ran : Bool) : List (Nat × Nat) :=
  let changed := b1.regs.flatMap fun r => (r.vals.filter fun p => b0.vreg? r.name p.1 ≠ some p.2).map fun p => (r.name, p.1)
  ((if ran then s1.issue.regs else []) ++ b0.landed b1 ++ changed).eraseDups

/-- After a step: registers of a band that it wrote while an unretired operation reads them become undefined, and so does what the operation
computes from them (R231). -/
def State.raceRegs (s0 s1 : State) (k : Nat) (ran : Bool) : State :=
  match s0.band? k, s1.band? k with
  | some b0, some b1 =>
    let cl := coreCluster (keyCore k)
    if b0.uid ≠ b1.uid || (s1.eng cl).live.isEmpty then s1
    else
      (s1.regsWritten b0 b1 (ran && decide (s1.issue.key = k))).foldl (fun s w =>
        ((s.eng cl).table.filter fun p => (s.eng cl).reads p.1 p.2).foldl (fun s p =>
          let h := p.2.fromReg b1.uid w.1 w.2
          if h = ([], [], []) then s
          else (s.spoilEntry cl p.1 p.2 h).modBand k fun b =>
            { b with regs := b.regs.map fun r => if r.name = w.1 then
                { r with vals := r.vals.map fun q => if q.1 = w.2 then (q.1, Config.freeWord s.fresh q.1 (r.name + 1024)) else q } else r }) s) s1
  | _, _ => s1

end Sys2Proof.Machine
end

