-- ==== Sys2Proof/Machine/BandOps.lean ====
section
/-!
DEFINITION. Sys2Proof/Machine/BandOps.lean: the band operations (R147 to R160): the arrival of a run at an instance, and what
the completing issue of each operation writes.
-/
namespace Sys2Proof.Machine

/-! ### Arrival (R148, R149, R85) -/

/-- The threads of a run park at an instance with a member mask, and the instance completes if no named thread is
missing (R149); a named thread found past it stops the band (R150). -/
def State.parkOp (s : State) (b : Band) (mask : Nat) (ts : List Nat) : State :=
  let r := s.issue
  let rep := if r.inRep then r.rep else 0
  let b1 := (b.modThreads ts fun _ th => { th with state := .atOp, park := .op mask, rep := rep }).evalInstances
  (s.putBand b1).checkDivergence r.key

/-- The checks of R148 on a member mask; none where the run may park. -/
def Band.maskBad (b : Band) (r : Run) (mask : Nat) : Bool :=
  decide (2 ^ b.width ≤ mask) || (r.threads.any fun t => !bitOf mask t)
    || b.instances.any fun i => decide (i.depth = r.depth) && decide (i.pc = r.pc) && decide (i.rep = if r.inRep then r.rep else 0) && decide (i.mask ≠ mask)

/-- The arrival of a run at a band operation; a source or destination that awaits data holds it (R48). -/
def State.arriveOp (s : State) (f : Fld) (wa wc : Nat) (tg : Target) : Out :=
  s.withBand fun b => do
    let r := s.issue
    let ts ← b.guarded f r.threads
    let mask ← b.readOpnd s.fresh (r.threads.headD 0) f.b 64 2
    let _ ← mapRd (fun t => do
      let x ← if wa = 0 then .ok 0 else b.readOpnd s.fresh t f.a wa 1
      let y ← if wc = 0 then .ok 0 else b.readOpnd s.fresh t f.c wc 3
      return x + y) r.threads
    if b.destPending f tg ts then .error .hold
    else if b.maskBad r mask then .error illOpnd
    else return s.parkOp b mask r.threads

/-- The width of the elements of BRED and BSCAN. -/
def Fld.redBits (f : Fld) : Nat := if f.mf = 2 ∨ f.mf = 3 then 64 else 32

/-- VOTE, SHFL, BRED, BSCAN, MATCH, ELECT and BARB: arrivals. -/
def execVote (f : XL) (s : State) : Out := s.arriveOp (viewXL f) 32 0 .pred
def execShfl (f : XL) (s : State) : Out := s.arriveOp (viewXL f) 32 32 (.regs 1)
def execBred (f : XL) (s : State) : Out := s.arriveOp (viewXL f) (viewXL f).redBits 0 (.regs (wordsFor (viewXL f).redBits))
def execBscan (f : XL) (s : State) : Out := s.arriveOp (viewXL f) (viewXL f).redBits 0 (.regs (wordsFor (viewXL f).redBits))
def execMatchOp (f : XL) (s : State) : Out := s.arriveOp (viewXL f) (viewXL f).wide 0 (.regs 2)
def execElect (f : XL) (s : State) : Out := s.arriveOp (viewXL f) 0 0 .pred
def execBarb (f : XL) (s : State) : Out := s.arriveOp (viewXL f) 0 0 .none

/-! ### Completion (R151 to R159) -/

/-- The contributions to an instance in ascending BTID: the guarded present threads' operands, and 0 of each exited
thread (R151). -/
def contributions (d : Done) (vals : Tbl Nat) : Tbl Nat := d.exited.foldl (fun t j => Tbl.put t j 0) vals

/-- The F32 reduction of a list: the sum in one rounding, the minimum, the maximum. Over a single contribution, a NaN too, the minimum
and the maximum are that contribution bit for bit, since R134 combines nothing (log entry 112). -/
def reduceFloat (op rnd : Nat) (l : List Nat) : Nat :=
  let sr : Sr := { seed := 0, tid := 0, ctr := 0 }
  match op with
  | 0 => if l.isEmpty then 0 else (addTerms .f32 (l.map Fmt.f32.decode) rnd sr).1
  | 1 => match l with | [] => Fmt.inf .f32 false | x :: r => r.foldl (fun a c => (fminmaxEl false .f32 0 sr a c 0).1) x
  | _ => match l with | [] => Fmt.inf .f32 true | x :: r => r.foldl (fun a c => (fminmaxEl true .f32 0 sr a c 0).1) x

/-- The value of an element of type ty at a reduction. -/
def redInt (ty x : Nat) : Int :=
  if ty = 0 then signed x 32 else if ty = 2 then signed x 64 else (x : Int)

/-- The width of an integer type at a reduction. -/
def redWidth (ty : Nat) : Nat := if ty = 2 ∨ ty = 3 then 64 else 32

/-- The least value of an integer type at a reduction. -/
def redLow (ty : Nat) : Int := if ty = 0 ∨ ty = 2 then -((2 ^ (redWidth ty - 1) : Nat) : Int) else 0

/-- The greatest value of an integer type at a reduction. -/
def redHigh (ty : Nat) : Int :=
  if ty = 0 ∨ ty = 2 then ((2 ^ (redWidth ty - 1) : Nat) : Int) - 1 else ((2 ^ redWidth ty : Nat) : Int) - 1

/-- The exact sum of a list at a reduction. -/
def redSum (ty : Nat) (l : List Nat) : Int := l.foldl (fun a x => a + redInt ty x) 0

/-- The integer reduction of a list. -/
def reduceInt (op ty : Nat) (sat : Bool) (l : List Nat) : Nat :=
  match op with
  | 0 => wrap (if sat then min (max (redSum ty l) (redLow ty)) (redHigh ty) else redSum ty l) (redWidth ty)
  | 1 => wrap (l.foldl (fun a x => min a (redInt ty x)) (redHigh ty)) (redWidth ty)
  | 2 => wrap (l.foldl (fun a x => max a (redInt ty x)) (redLow ty)) (redWidth ty)
  | 3 => l.foldl (· &&& ·) (2 ^ redWidth ty - 1)
  | 4 => l.foldl (· ||| ·) 0
  | _ => l.foldl (· ^^^ ·) 0

/-- The result of a reduction of a list of values under a type and operation (R155). -/
def reduceVals (op ty rnd : Nat) (sat : Bool) (l : List Nat) : Nat :=
  if ty = 8 then reduceFloat op rnd l else reduceInt op ty sat l

/-- What a completing issue hands to an operation: the band, the instance, the receiving threads and their operands. -/
structure Issue where
  band : Band
  inst : Done
  fresh : Nat
  recv : List Nat
  f : Fld
  deriving DecidableEq, Repr

/-- The operands A of the receiving threads. -/
def Issue.operands (i : Issue) (w : Nat) : Rd (Tbl Nat) :=
  mapRd (fun t => do return (t, ← i.band.readOpnd i.fresh t i.f.a w 1)) i.recv

/-- VOTE's results (R153). -/
def Issue.vote (i : Issue) : Rd (List Res) := do
  let c := contributions i.inst (← i.operands 32)
  let v : Bool := match i.f.sub with
    | 0 => c.any fun p => p.2 % 2 = 1
    | 1 => c.all fun p => p.2 % 2 = 1
    | _ => c.all fun p => p.2 = (c.headD (0, 0)).2
  return i.recv.map fun t => { thread := t, val := if v then 1 else 0 }

/-- SHFL's results (R154). -/
def Issue.shfl (i : Issue) : Rd (List Res) :=
  mapRd (fun t => do
    let c ← i.band.readOpnd i.fresh t i.f.c 32 3
    let j : Int := match i.f.sub with
      | 0 => (c : Int)
      | 1 => (t : Int) - c
      | 2 => (t : Int) + c
      | _ => ((t ^^^ c : Nat) : Int)
    if j < 0 || (i.band.width : Int) ≤ j || !bitOf i.inst.mask j.toNat then
      return { thread := t, val := ← i.band.readOpnd i.fresh t i.f.a 32 1 }
    else if i.inst.exited.contains j.toNat then return { thread := t, val := 0 }
    else return { thread := t, val := ← i.band.readOpnd i.fresh j.toNat i.f.a 32 1 }) i.recv

/-- BRED's results (R155). -/
def Issue.bred (i : Issue) : Rd (List Res) := do
  let c := contributions i.inst (← i.operands i.f.redBits)
  let v := reduceVals i.f.sub i.f.mf i.f.rnd i.f.sat (c.map (·.2))
  return i.recv.map fun t => { thread := t, val := v }

/-- BSCAN's results (R156). -/
def Issue.bscan (i : Issue) : Rd (List Res) := do
  let c := contributions i.inst (← i.operands i.f.redBits)
  let excl := bitOf i.f.w2 9
  return i.recv.map fun t =>
    { thread := t, val := reduceVals i.f.sub i.f.mf i.f.rnd i.f.sat ((c.filter fun p => if excl then p.1 < t else p.1 ≤ t).map (·.2)) }

/-- MATCH's results (R157). -/
def Issue.matchOf (i : Issue) : Rd (List Res) := do
  let c ← i.operands i.f.wide
  return i.recv.map fun t => { thread := t, val := maskOf ((c.filter fun p => p.2 = Tbl.get c t 0).map (·.1)) }

/-- ELECT's results (R158). -/
def Issue.elect (i : Issue) : List Res := i.recv.map fun t => { thread := t, val := if i.recv.headD 64 = t then 1 else 0 }

/-- The present threads of an instance go on, ready or halted with their band (R270). -/
def Band.release (b : Band) (ts : List Nat) : Band :=
  b.modThreads ts fun _ th => { th with state := if b.halted then .halted else .ready, park := .none }

/-- A completing issue over the issue register (R149, R151): results are computed, last reads act, results are written
and the present threads go on. SHFL's last read of A acts on receiving threads alone (R154). -/
def State.completeWith (s : State) (f : Fld) (d : Done) (wa wc : Nat) (tg : Target) (shfl : Bool) (op : Issue → Rd (List Res)) : Rd State := do
  match s.band? s.issue.key with
  | none => .ok s
  | some b =>
    let recv ← b.guarded f d.present
    let rs ← op { band := b, inst := d, fresh := s.fresh, recv := recv, f := f }
    let r := s.issue
    let names := if rs.isEmpty then [] else f.destNames tg
    let b0 := if shfl then (b.lastReads { f with lc := false } wa 0 wc recv).lastReads { f with la := false } wa 0 wc d.present
              else b.lastReads f wa 0 wc d.present
    let b1 := b0.prune names
    let b2 ← s.allocate r.key b1 names
    let b3 := ((b2.writeAll f tg rs).advance r d.present).release d.present
    let s1 := s.putBand { b3 with done := b3.done.filter fun e => !(e.depth = d.depth && e.pc = d.pc && e.rep = d.rep) }
    return { s1 with issue := { r with regs := r.regs ++ writtenRegs f tg rs } }

/-- The completing issue of an operation that reads and writes registers; none for another instruction. -/
def State.completeOp (s : State) (i : Instr) (d : Done) : Option (Rd State) :=
  match i with
  | .vote f => some (s.completeWith (viewXL f) d 32 0 .pred false Issue.vote)
  | .shfl f => some (s.completeWith (viewXL f) d 32 32 (.regs 1) true Issue.shfl)
  | .bred f => some (s.completeWith (viewXL f) d (viewXL f).redBits 0 (.regs (wordsFor (viewXL f).redBits)) false Issue.bred)
  | .bscan f => some (s.completeWith (viewXL f) d (viewXL f).redBits 0 (.regs (wordsFor (viewXL f).redBits)) false Issue.bscan)
  | .matchOp f => some (s.completeWith (viewXL f) d (viewXL f).wide 0 (.regs 2) false Issue.matchOf)
  | .elect f => some (s.completeWith (viewXL f) d 0 0 .pred false fun i => .ok i.elect)
  | .barb f => some (s.completeWith (viewXL f) d 0 0 .none false fun _ => .ok [])
  | _ => none

/-! ### ACTV (R160) -/

/-- ACTV: the mask of the run's guarded threads. -/
def State.actvOp (s : State) (f : Fld) : Out :=
  s.withBand fun b => do
    let ts ← b.guarded f s.issue.threads
    if b.destPending f (.regs 2) ts then .error .hold
    else s.commit b f 0 0 0 (.regs 2) (ts.map fun t => { thread := t, val := maskOf ts })

def execActv (f : FormS) (s : State) : Out := s.actvOp (viewS f)
def execActvX (f : FormX) (s : State) : Out := s.actvOp (viewX f)

/-! ### CSAVE and CREST (R184) -/

/-- The arrival at CSAVE or CREST: as a band operation that names every thread; the address must be aligned. -/
def State.arriveSave (s : State) (f : Fld) : Out :=
  s.withBand fun b => do
    let a ← b.readOpnd s.fresh (s.issue.threads.headD 0) f.a 64 1
    if a % 64 ≠ 0 then .error illOpnd
    else if b.maskBad s.issue (2 ^ b.width - 1) then .error illOpnd
    else return s.parkOp b (2 ^ b.width - 1) s.issue.threads

def execCsave (f : FormX) (s : State) : Out := s.arriveSave (viewX f)
def execCrest (f : FormX) (s : State) : Out := s.arriveSave (viewX f)

/-- The present threads of a save advance, and the instance is over. -/
def Band.endSave (b : Band) (r : Run) (d : Done) : Band :=
  let b1 := ((b.consume r).advance r d.present).release d.present
  { b1 with done := b1.done.filter fun e => !(e.depth = d.depth && e.pc = d.pc && e.rep = d.rep) }

/-- Whether an unretired operation of a cluster's engine, at rest or not, reads word r of thread t of a band (R231). -/
def State.engineUses (s : State) (cl : Nat) (b : Band) (r t : Nat) : Bool :=
  let used (e : Entry) : Bool := e.fromReg b.uid r t ≠ ([], [], [])
  ((s.eng cl).table.any fun p => (s.eng cl).reads p.1 p.2 && used p.2) || (s.eng cl).removed.any fun p => used p.2

/-- The band as CSAVE saves it: a register that an operation still reads has an undefined value (R184). -/
def State.unsettled (s : State) (cl : Nat) (b : Band) : Band :=
  let val (n : Nat) (q : Nat × Word) : Nat × Word := if s.engineUses cl b n q.1 then (q.1, Config.freeWord s.fresh q.1 (n + 1024)) else q
  { b with regs := b.regs.map fun v => { v with vals := v.vals.map (val v.name) } }

/-- The completing issue of CSAVE: the selected sections leave as one counted run of ordinary stores. -/
def State.completeCsave (s : State) (f : Fld) (d : Done) : Rd State := do
  match s.band? s.issue.key with
  | none => .ok s
  | some b =>
    let t := d.present.headD 0
    let a ← b.readOpnd s.fresh t f.a 64 1
    if a % 64 ≠ 0 then .error illOpnd
    else if b.groups.any fun g => g.open && (match g.dest with | .none => false | .block _ => false | _ => true) then .error .hold
    else
      let cs := (s.unsettled (coreCluster s.issue.core) b).chunks s.fresh (f.w2 % 16)
      let rs := s.coreRanges s.issue.core
      match cs.findSome? fun c => firstFail rs needW ((a + c.1) % 2 ^ 64) c.2.1 with
      | some x => .error (rangeTrap [(t, x)])
      | none =>
        if !b.roomFor .st then .error .hold
        else
          let parts := cs.map fun c => ({ thread := t, va := (a + c.1) % 2 ^ 64, addr := (translate rs {} ((a + c.1) % 2 ^ 64)).getD 0,
                                          size := c.2.1, data := c.2.2 } : Part)
          let (s1, b1) := s.post s.issue.key b .st .none { kind := .store } parts
          return s1.putBand (b1.endSave s.issue d)

/-- The sections of a record that CREST reads after the header, with their offsets and lengths. -/
def crestParts (parts width mapped : Nat) : List (Nat × Nat) :=
  (if bitOf parts 1 then [(0x40, 64)] else []) ++ (if bitOf parts 3 then [(0x80, 256)] else [])
    ++ (if bitOf parts 2 then [(0x180, 256)] else [])
    ++ (if bitOf parts 0 then (0x800, 1024) :: (if mapped = 0 then [] else [(0xC00, mapped * imageBytes width)]) else [])

/-- The completing issue of CREST: the header, then the selected sections are loaded, and the band takes them. -/
def State.completeCrest (s : State) (f : Fld) (d : Done) : Rd State := do
  match s.band? s.issue.key with
  | none => .ok s
  | some b =>
    let t := d.present.headD 0
    let parts := f.w2 % 16
    let a ← b.readOpnd s.fresh t f.a 64 1
    let rs := s.coreRanges s.issue.core
    let part (o n : Nat) : Part :=
      { thread := t, va := (a + o) % 2 ^ 64, addr := (translate rs {} ((a + o) % 2 ^ 64)).getD 0, size := n, base := o }
    if a % 64 ≠ 0 then .error illOpnd
    else if b.groups.any fun g => g.open && (match g.dest with | .none => false | .block _ => false | _ => true) then .error .hold
    else match ← s.blockRead b 0 [t] [part 0 64] (fun _ => none) with
      | .wait s1 => return s1.hold
      | .got v0 =>
        let h := recHead (Tbl.get v0 t 0)
        if h.width ≠ b.width then .error illOpnd
        else
          let secs := crestParts parts b.width h.mapped
          let body ← if secs.isEmpty then .ok (BlockRes.got [(t, 0)])
            else s.blockRead b 1 [t] (secs.map fun c => part c.1 c.2) (fun _ => none)
          match body with
          | .wait s1 => return s1.hold
          | .got v1 =>
            let whole := Tbl.get v1 t 0 + Tbl.get v0 t 0
            let at' (o n : Nat) : Nat := whole / 2 ^ (8 * o) % 2 ^ (8 * n)
            if bitOf parts 0 && b.quota < h.mapped then .error (.fault 1 0 b.quota b.mapped)
            else
              let b1 := b.withRecord at' parts fun _ => 0
              let placed := s.mapAll s.issue.key { b1 with regs := [] } (b1.regs.map (·.name))
              let b2 : Band := if bitOf parts 0 then
                  { b1 with regs := b1.regs.map fun v => { v with preg := ((placed.reg? v.name).map (·.preg)).getD 0 } } else b1
              let regs := if bitOf parts 0 then b2.regs.flatMap fun v => v.vals.map fun q => (v.name, q.1) else []
              let s1 := s.putBand (b2.endSave s.issue d)
              return { s1 with issue := { s1.issue with regs := s1.issue.regs ++ regs } }

end Sys2Proof.Machine
end

