-- ==== Sys2Proof/Machine/Control.lean ====
section
/-!
DEFINITION. Sys2Proof/Machine/Control.lean: branches, calls, exits, traps and the system instructions (R161 to R183), with the
imago former's side of BRS (R274 to R277).
-/
namespace Sys2Proof.Machine

/-! ### Branches (R161 to R166) -/

/-- The threads of a run whose branch guard holds. -/
def Band.guardedG (b : Band) (g gn : Nat) (ts : List Nat) : Rd (List Nat) := filterRd (fun t => do return (← b.readP t g) != decide (gn = 1)) ts

/-- The PCs of listed threads set; the others of the run advance (R162, R64). -/
def Band.transfer (b : Band) (r : Run) (tgt : Tbl Nat) : Band :=
  (b.advance r (r.threads.filter fun t => (Tbl.find? tgt t).isNone)).modThreads (tgt.map (·.1)) fun t th => { th with pc := Tbl.get tgt t 0, rep := 0 }

/-- A branch made: threads moved, and those that went at or below their own PC noted as taken backward (R162). -/
def State.branch (s : State) (b : Band) (tgt : Tbl Nat) : State :=
  let r := s.issue
  { s.putBand (b.transfer r tgt) with issue := { r with back := (tgt.filter fun p => p.2 ≤ r.pc).map (·.1) } }

/-- The target of Form B (R80). -/
def formBTarget (pc : Nat) (f : FormB) : Nat := wrap ((pc : Int) + signed f.off.toNat 18) 16

/-- BRA (R163). -/
def execBra (f : FormB) (s : State) : Out :=
  s.withBand fun b => do
    let ts ← b.guardedG f.g.toNat f.gn.toNat s.issue.threads
    return s.branch b (ts.map fun t => (t, formBTarget s.issue.pc f))

/-- The word at an instruction index of a core, if a slot holds it. -/
def State.wordAt (s : State) (core pc : Nat) : Option Word := ((s.core core).overlays.getD (pc / 16384) {}).words[pc % 16384]?

/-- The targets of BRX and CALLX: overlay and offset resolved, and a PAD with the tag there (R166). -/
def State.padTargets (s : State) (b : Band) (f : Fld) (ts : List Nat) : Rd (Tbl Nat) := do
  let vs ← mapRd (fun t => do return (t, ← b.readOpnd s.fresh t f.b 32 2)) ts
  let c := s.core s.issue.core
  let at' (x : Nat) : Option Nat := (c.slotOf? (x / 65536)).bind fun sl =>
    if x % 65536 < (c.overlays.getD sl {}).words.length then some (sl * 16384 + x % 65536) else none
  if vs.any fun p => (at' p.2).isNone then .error (.trap { cause := 6 })
  else
    let tgt := vs.map fun p => (p.1, (at' p.2).getD 0)
    let pad := BitVec.ofNat 32 (f.w2 % 65536 * 65536 + 0x18C)
    if tgt.any fun p => s.wordAt s.issue.core p.2 ≠ some pad then .error (.trap { cause := 7 })
    else return tgt

/-- BRX (R166). -/
def execBrx (f : XL) (s : State) : Out :=
  s.withBand fun b => do
    let v := viewXL f
    let ts ← b.guarded v s.issue.threads
    let tgt ← s.padTargets b v ts
    return s.branch (b.lastReads v 0 32 0 s.issue.threads |>.prune []) tgt

/-- An instruction that does nothing but advance. -/
def State.nop (s : State) : Out := s.withBand fun b => .ok (s.putBand (b.advance s.issue s.issue.threads))

/-- PAD (R165) and NOP (R172). -/
def execPad (_f : FormI) (s : State) : Out := s.nop
def execNop (_f : FormI) (s : State) : Out := s.nop

/-! ### Shedding and the imago former (R164, R274 to R277) -/

/-- The group of a spawn record (R276). -/
def Spawn.group (r : Spawn) : List Nat := [r.flight, r.ovid, r.off, r.areg, r.lmask]

/-- An imago team formed from records of one group: an absent team that is runnable from now (R276, R277). -/
def State.formImago (s : State) (cluster flight : Nat) (recs : List Spawn) : State :=
  match s.flight? flight with
  | none => s
  | some _ =>
    let tm : Team := { teamb := 1, kind := 1, runsince := some s.fresh, cluster := some cluster, imago := recs }
    (s.modCluster cluster fun c => { c with spawns := c.spawns.filter (!recs.contains ·) }).modFlight flight fun f =>
      { f with members := Tbl.put f.members (f.teams + f.imagos) tm, imagos := f.imagos + 1 }

/-- The full groups of a cluster's spawn memory form imago bands, oldest records first (R276). -/
def State.formFull (s : State) (cluster : Nat) : State :=
  let gs := ((s.cluster cluster).spawns.map Spawn.group).eraseDups
  gs.foldl (fun s g =>
    let recs := (s.cluster cluster).spawns.filter fun r => r.group = g
    match s.flight? (g.headD 0) with
    | none => s
    | some fl => if 0 < fl.bandw && fl.bandw ≤ recs.length then s.formImago cluster (g.headD 0) (recs.take fl.bandw) else s) s

/-- A group whose oldest record has waited 8,192 cycles, or whose flight has no ready thread on the cluster, forms a band
from all of its records (R276); `group` is the index of a record of the group. -/
def execSpawnRecordTimeout (cluster group : Nat) (s : State) : Out :=
  match (s.cluster cluster).spawns[group]? with
  | none => .next s
  | some r =>
    let recs := (s.cluster cluster).spawns.filter fun q => q.group = r.group
    let waited := recs.any fun q => q.since + 8192 ≤ (s.die (clusterDie cluster)).cycle
    let ready := s.bands.any fun p => decide (coreCluster (keyCore p.1) = cluster) && decide (p.2.flight = r.flight)
      && p.2.threads.any fun th => th.state = .ready
    match s.flight? r.flight with
    | none => .next s
    | some f => .next (if waited || !ready then s.formImago cluster r.flight (recs.take f.bandw) else s)

/-- The spawn record of a shed thread (R274). -/
def State.spawnOf (s : State) (b : Band) (v : Fld) (t pc lmask : Nat) : Rd Spawn := do
  let c := s.core s.issue.core
  let th := b.thread t
  let a := match v.a with | .v n => n | _ => 0
  let vals ← mapRd (fun i => do return (i, ← b.readV s.fresh t (a + i) i)) (members lmask 16)
  return { tidx := th.tidx, rndctr := th.rndctr, ovid := c.ovidAt pc, off := pc % 16384, areg := a, depth := th.depth, lmask := lmask,
           flight := b.flight, live := maskOf ((members lmask 16).filter fun i => (b.vreg? (a + i) t).isSome), vals := vals,
           since := s.cycleAt s.issue.core }

/-- The 96 bytes of the reserved DRAM that hold a spawn record; the registers that are not listed are open there (R274; log entry 123). -/
def Spawn.image (r : Spawn) (fresh : Nat) : Nat :=
  r.tidx % 2 ^ 32 + r.rndctr % 2 ^ 32 * 2 ^ 32 + r.off % 2 ^ 16 * 2 ^ 64 + r.ovid % 2 ^ 16 * 2 ^ 80 + r.areg * 2 ^ 96 + r.depth * 2 ^ 104 + r.lmask * 2 ^ 112
    + r.flight % 2 ^ 32 * 2 ^ 128 + r.live * 2 ^ 160
    + packed 4 ((List.range 16).map fun i => ((Tbl.find? r.vals i).getD (Config.freeWord fresh r.tidx i)).toNat) * 2 ^ 256

/-- The side of a BRS that is shed (R164). -/
def shedSide (ts fs : List Nat) (up : Bool) : List Nat :=
  if ts.isEmpty || fs.isEmpty then []
  else if ts.length < fs.length then ts
  else if fs.length < ts.length then fs
  else if up then ts else fs

/-- BRS (R164, R275): the run is held until the spawn memory has room and the release at cluster scope is complete. -/
def execBrs (f : FormX) (s : State) : Out :=
  s.withBand fun b => do
    let v := viewX f
    let r := s.issue
    let ts ← b.guarded v r.threads
    let fs := r.threads.filter (!ts.contains ·)
    let target := r.pc / 16384 * 16384 + v.w2 % 16384
    let next := (r.pc + r.len) % 65536
    let shed := shedSide ts fs (decide (next < target))
    let stay (t : Nat) : Bool := !shed.contains t
    let dest (t : Nat) : Nat := if ts.contains t then target else next
    let cl := coreCluster r.core
    if shed.isEmpty then return s.branch ((b.lastReads v 0 0 0 r.threads).prune []) (ts.map fun t => (t, target))
    else if 65536 < (s.cluster cl).spawns.length + shed.length then return (s.putBand { b with heldPark := some (r.depth, r.pc) }).hold
    else
      let recs ← mapRd (fun t => s.spawnOf b v t (dest t) (v.w2 / 65536)) shed
      let (s1, ok) := s.releaseRun 3
      if !ok then return s1.hold
      else
        let s2 := s1.modBand r.key fun b => ((({ b with heldPark := none } : Band).lastReads v 0 0 0 (r.threads.filter stay)).prune []).modThreads
          (r.threads.filter stay) fun t th => { th with pc := dest t, rep := 0 }
        let back := (r.threads.filter stay).filter fun t => ts.contains t && decide (target ≤ r.pc)
        let s3 : State := { s2 with issue := { r with back := back } }
        let s4 := (s3.modCluster cl fun c => { c with spawns := c.spawns ++ recs }).endThreads r.key shed fun _ => false
        return s4.formFull cl

/-! ### Calls (R167 to R169) -/

/-- The address of a return-stack entry (R167). -/
def stackAt (csbase tidx depth : Nat) : Nat := (controlArea csbase tidx + 4 * depth) % 2 ^ 64

/-- CSBASE of a band's flight (R167). -/
def State.csbase (s : State) (b : Band) : Nat := match s.flight? b.flight with | some f => f.csbase | none => 0

/-- CALL and CALLX: the return points are pushed as one counted run of stores, and the threads move (R168). -/
def State.call (s : State) (b : Band) (ts : List Nat) (tgt : Tbl Nat) : Rd State :=
  let r := s.issue
  if ts.any fun t => (b.thread t).depth = 255 then .error (.trap { cause := 5 })
  else
    let ret := (r.pc + r.len) % 65536
    let entry := ovPoint (s.core r.core) ret
    let va (t : Nat) : Nat := stackAt (s.csbase b) (b.thread t).tidx ((b.thread t).depth + 1)
    let rs := s.coreRanges r.core
    let bad := ts.filterMap fun t => (firstFail rs needW (va t) 4).map fun a => (t, a)
    if !bad.isEmpty then .error (rangeTrap bad)
    else if !ts.isEmpty && !b.roomFor .st then .error .hold
    else
      let parts := ts.map fun t => ({ thread := t, va := va t, addr := (translate rs {} (va t)).getD 0, size := 4, data := entry } : Part)
      let (s1, b1) := s.post r.key b .st .none { kind := .store } parts
      .ok (s1.putBand ((b1.transfer r tgt).modThreads ts fun _ th => { th with depth := th.depth + 1 }))

/-- CALL (R168). -/
def execCall (f : FormB) (s : State) : Out :=
  s.withBand fun b => do
    let ts ← b.guardedG f.g.toNat f.gn.toNat s.issue.threads
    s.call b ts (ts.map fun t => (t, formBTarget s.issue.pc f))

/-- CALLX (R166, R168). -/
def execCallx (f : XL) (s : State) : Out :=
  s.withBand fun b => do
    let v := viewXL f
    let ts ← b.guarded v s.issue.threads
    if ts.any fun t => (b.thread t).depth = 255 then .error (.trap { cause := 5 })
    else
      let tgt ← s.padTargets b v ts
      s.call ((b.lastReads v 0 32 0 s.issue.threads).prune []) ts tgt

/-- RET (R169). -/
def execRet (_f : FormI) (s : State) : Out :=
  s.withBand fun b => do
    let r := s.issue
    if r.threads.any fun t => (b.thread t).depth = 0 then .error (.trap { cause := 5 })
    else
      let rs := s.coreRanges r.core
      let parts := r.threads.map fun t =>
        let va := stackAt (s.csbase b) (b.thread t).tidx (b.thread t).depth
        ({ thread := t, va := va, addr := (translate rs {} va).getD 0, size := 4 } : Part)
      match ← s.blockRead b 0 r.threads parts (fun _ => none) with
      | .wait s1 => return s1.hold
      | .got vals =>
        let c := s.core r.core
        if vals.any fun p => (c.overlays.getD (p.2 % 65536 / 16384) {}).ovid ≠ some (p.2 / 65536) then .error (.trap { cause := 6 })
        else return s.putBand ((b.consume r).modThreads r.threads fun t th =>
          { th with depth := th.depth - 1, pc := Tbl.get vals t 0 % 65536, rep := 0 })

/-! ### Ends of threads (R170, R171) -/

/-- EXIT in Form I (R170). -/
def execExit (_f : FormI) (s : State) : Out :=
  s.withBand fun _ => .ok (s.endThreads s.issue.key s.issue.threads fun _ => false)

/-- EXIT in Form X: guarded threads end, with a successor recorded under SUCC (R170, R171). -/
def execExitSucc (f : FormX) (s : State) : Out :=
  s.withBand fun b => do
    let v := viewX f
    let r := s.issue
    let ts ← b.guarded v r.threads
    let b1 := (b.lastReads v 0 0 0 r.threads).prune []
    let b2 := b1.advance r (r.threads.filter (!ts.contains ·))
    if v.mf % 2 = 0 then return (s.putBand b2).endThreads r.key ts fun _ => false
    else
      let a := match v.a with | .v n => n | _ => 0
      let su : Succ := { ovid := v.w2 / 65536, off := v.w2 % 65536, a := a, n := v.d }
      let c := s.core r.core
      let there := match c.slotOf? su.ovid with | some sl => decide (su.off < (c.overlays.getD sl {}).words.length) | none => false
      if ts.isEmpty then return s.putBand b2
      else if !there then .error (.trap { cause := 6 })
      else if b.succ.any (· ≠ su) then .error illOpnd
      else if ts.any fun t => (List.range su.n).any fun i => b.pendingV t (a + i) then .error .hold
      else return (s.putBand { b2 with succ := some su }).endThreads r.key ts fun n => decide (a ≤ n) && decide (n < a + su.n)

/-! ### Halts, traps and their return (R172 to R177) -/

/-- A band halted by the debugger (R270, R415): its ready threads enter STATE 4, but for those stopped at a SAFE
(R398); its tracker resets (R332). -/
def Band.haltWith (b : Band) (h : Halt) : Band :=
  { b.resetTracker with
    halted := true
    halt := h
    threads := b.threads.map fun th => match th.state, th.park with
      | .ready, .safe _ => th
      | .ready, _ => { th with state := .halted, past := [] }
      | _, _ => th }

/-- TRAP (R177). -/
def execTrap (f : FormI) (s : State) : Out :=
  s.withBand fun _ => .error (.trap { cause := 3, code := f.imm.toNat, skip := s.issue.len })

/-- BRK (R177): with a debugger attached the band halts with the run's threads at the BRK; else the trap BREAK. -/
def execBrk (f : FormI) (s : State) : Out :=
  s.withBand fun b =>
    let r := s.issue
    let att := match s.ctx? (s.bandCtx b) with | some c => c.attached | none => false
    if att then
      .ok (s.putBand ((b.haltWith { why := 4, pc := r.pc, tid := r.threads.headD 0 }).modThreads r.threads fun _ th => { th with park := .brk }))
    else .error (.trap { cause := 4, code := f.imm.toNat, skip := r.len })

/-- SAFE (R172, R397): with a safe-point stop pending, the threads of the run are stopped past it. -/
def execSafe (f : FormI) (s : State) : Out :=
  s.withBand fun b =>
    let r := s.issue
    let b1 := b.advance r r.threads
    match b.stop with
    | some (2, _) => .ok (s.putBand (b1.modThreads r.threads fun _ th => { th with park := .safe f.imm.toNat }))
    | _ => .ok (s.putBand b1)

/-- YIELD (R173); a single-step run leaves BEC (R269). -/
def execYield (_f : FormI) (s : State) : Out :=
  s.withBand fun b =>
    let r := s.issue
    let k := r.core * 64 + r.lane
    .ok ((s.putBand { b.advance r r.threads with bec := if r.single then b.bec else 0, yieldNext := true }).setLane k
      { s.lane k with skip := some r.slot })

/-- A trap taken by the run of the issue register (R174, R175, R86). -/
def execTakeTrap (t : TrapInfo) (s : State) : Out := s.withBand fun _ => .error (.trap t)

/-- TRET (R176). -/
def execTret (_f : FormI) (s : State) : Out :=
  s.withBand fun b => do
    let r := s.issue
    if r.threads.any fun t => !(b.thread t).inTrap then .error illOpnd
    else
      let rs := s.coreRanges r.core
      let parts := r.threads.map fun t =>
        let va := (controlArea (s.csbase b) (b.thread t).tidx + 1024) % 2 ^ 64
        ({ thread := t, va := va, addr := (translate rs {} va).getD 0, size := 64 } : Part)
      match ← s.blockRead b 0 r.threads parts (fun _ => none) with
      | .wait s1 => return s1.hold
      | .got vals =>
        let c := s.core r.core
        let rpc (x : Nat) : Nat := x % 2 ^ 32
        if vals.any fun p => (c.overlays.getD (rpc p.2 % 65536 / 16384) {}).ovid ≠ some (rpc p.2 / 65536) then .error (.fault 5 0 (s.trapPoint b) 0)
        else return s.putBand ((b.consume r).modThreads r.threads fun t th =>
          let x := Tbl.get vals t 0
          let again := bitOf x 120 && rpc x = bits x 63 32
          { th with depth := bits x 151 144, inTrap := false, pc := x % 65536, rep := if again then bits x 119 112 else 0 })

/-! ### Special registers (R60 to R63, R178 to R182) -/

/-- WSREF as read (R281). -/
def Die.wsref (d : Die) : Nat := d.periodStart % 2 ^ 32 * 2 ^ 32 + d.period * 2 ^ 16 + d.wlen * 2 ^ 8 + d.stagger

/-- A special register as a thread reads it (R60); none for a number without a register. -/
def State.sreg (s : State) (b : Band) (n t : Nat) : Option Nat :=
  let r := s.issue
  let th := b.thread t
  let fl := s.flight? b.flight
  let tm := fl.bind fun f => Tbl.find? f.members b.team
  match n with
  | 0x00 => some th.tidx
  | 0x01 => some t
  | 0x02 => some b.bandid
  | 0x03 => some b.team
  | 0x04 => some b.width
  | 0x05 => some ((tm.map (·.teamb)).getD ((fl.map (·.teamb)).getD 0))
  | 0x06 => some ((fl.map (·.teams)).getD 0)
  | 0x07 => some r.core
  | 0x08 => some r.lane
  | 0x09 => some r.slot
  | 0x0A => some th.depth
  | 0x0B => some r.pc
  | 0x0C => some (bstat b.mx b.qov b.bec)
  | 0x0D => some b.rndseed
  | 0x0E => some th.rndctr
  | 0x0F => some b.quota
  | 0x10 => some b.mapped
  | 0x11 => some (s.poolFree r.core r.lane)
  | 0x12 => some (s.core r.core).tags
  | 0x13 => some (s.die (coreDie r.core)).wsref
  | 0x14 => some ((fl.map (·.starve)).getD 0)
  | 0x15 => some b.phase
  | 0x16 => some (s.bandCtx b)
  | 0x17 => some (coreDie r.core)
  | 0x18 => some b.flight
  | _ => none

/-- SREG (R179). -/
def State.sregOp (s : State) (f : Fld) : Out :=
  s.withBand fun b => do
    let n := f.w2 % 256
    let tg : Target := .regs (if n = 0x12 ∨ n = 0x13 then 2 else 1)
    let ts ← b.guarded f s.issue.threads
    if 0x18 < n then .error illOpnd
    else if b.destPending f tg ts then .error .hold
    else s.commit b f 0 0 0 tg (ts.map fun t => { thread := t, val := (s.sreg b n t).getD 0 })

def execSreg (f : FormI) (s : State) : Out := s.sregOp { viewI f with isX := false }
def execSregX (f : FormX) (s : State) : Out := s.sregOp (viewX f)

/-- SREGW (R59, R62, R63, R180). A write of STARVE reaches the flight's home scheduler in the step that executes it, which is the
model's choice: of writes from bands on several dies R62 says only that the last received counts (log entry 113). -/
def execSregw (f : FormX) (s : State) : Out :=
  s.withBand fun b => do
    let v := viewX f
    let n := v.w2 % 256
    let r := s.issue
    let ts ← b.guarded v r.threads
    if !(n = 0x0C || n = 0x0D || n = 0x0E || n = 0x14) then .error illOpnd
    else
      let vals ← mapRd (fun t => do return (t, ← b.readOpnd s.fresh t v.a 32 1)) ts
      let b1 := ((b.lastReads v 32 0 0 r.threads).prune []).advance r r.threads
      match vals with
      | [] => return s.putBand b1
      | (_, x) :: _ =>
        match n with
        | 0x0C =>
          if bstatBad x then .error illOpnd
          else return s.putBand { b1 with mx := b1.mx && !bitOf x 9, qov := b1.qov && !bitOf x 8 }
        | 0x0D => return s.putBand { b1 with rndseed := x }
        | 0x0E => return s.putBand (b1.modThreads ts fun t th => { th with rndctr := Tbl.get vals t 0 })
        | _ => return (s.putBand b1).modFlight b.flight fun fl => { fl with starve := min (max x 4096) (2 ^ 22) }

/-- CYCLE (R181): the threads sample the count in their own cycles, which the run takes. -/
def execCycle (f : FormS) (s : State) : Out :=
  s.withBand fun b => do
    let v := viewS f
    let r := s.issue
    let d := s.die (coreDie r.core)
    if b.destPending v (.regs 2) r.threads then .error .hold
    else
      let s1 ← s.commit b v 0 0 0 (.regs 2) (r.threads.zipIdx.map fun p => { thread := p.1, val := (d.cycle + p.2) % 2 ^ 64 })
      return s1.setDie (coreDie r.core) { d with cycle := d.cycle + r.threads.length }

/-- The idle cycles of a lane without a band that no counter holds yet (R360): a lane's cycles are counted as its bands come, step and go. -/
def State.uncounted (s : State) (core lane : Nat) : Nat :=
  let l := s.lane (core * 64 + lane)
  if (List.range 4).any fun i => (s.band? (slotKey core lane i)).isSome then 0 else s.cycleAt core - l.counted - l.owed

/-- A counter of R182 and R360; the datapath is idle in every cycle in which no thread passes, one in which a run waits among them (log entry 124). -/
def State.perfCounter (s : State) (core sel : Nat) : Option Nat :=
  if sel = 2 then some ((Tbl.get (s.core core).perf 2 0 + ((List.range 64).map (s.uncounted core)).sum) % 2 ^ 64)
  else if sel ≤ 9 then some (Tbl.get (s.core core).perf sel 0 % 2 ^ 64)
  else if 0x1000 ≤ sel ∧ sel ≤ 0x1FFF then
    let x := Tbl.get (s.core core).phases sel 0
    match sel / 64 % 4 with
    | 3 => none
    | 1 => some ((x + if (s.lane (core * 64 + sel % 64)).lastPhase = sel / 256 % 16 then s.uncounted core (sel % 64) else 0) % 2 ^ 64)
    | _ => some (x % 2 ^ 64)
  else none

/-- PERFR (R182). -/
def execPerfr (f : FormX) (s : State) : Out :=
  s.withBand fun b => do
    let v := viewX f
    let ts ← b.guarded v s.issue.threads
    match s.perfCounter s.issue.core (v.w2 % 65536) with
    | none => .error illOpnd
    | some x =>
      if b.destPending v (.regs 2) ts then .error .hold
      else s.commit b v 0 0 0 (.regs 2) (ts.map fun t => { thread := t, val := x })

/-! ### ECALL (R183) -/

/-- ECALL: the run's threads park and the service is requested with the arguments of the lowest thread (R420). -/
def execEcall (f : FormI) (s : State) : Out :=
  s.withBand fun b => do
    let r := s.issue
    let svc := f.imm.toNat
    let args ← mapRd (fun i => do return (← b.readV s.fresh (r.threads.headD 0) i i).toNat) [0, 1, 2, 3]
    if r.threads.any fun t => b.pendingV t f.d.toNat then .error .hold
    else
      let e : Ecall := { flight := b.flight, team := b.team, bandid := b.bandid, depth := r.depth, pc := r.pc, threads := r.threads,
                         service := svc, dreg := f.d.toNat, args := args, tracker := b.tracker, core := r.core }
      let b1 := b.modThreads r.threads fun _ th => { th with state := .atOp, park := .ecall svc 0 false }
      let s1 := s.putBand b1
      return { s1 with ecalls := Tbl.put s1.ecalls s1.nextId e, nextId := s1.nextId + 1 }

end Sys2Proof.Machine
end

