-- ==== Sys2Proof/Machine/Image.lean ====
section
/-!
DEFINITION. Sys2Proof/Machine/Image.lean: the Ramten overlay image as the launch front end reads it (R102 to R106).
-/
namespace Sys2Proof.Machine

/-- A section entry (R103). -/
structure Sect where
  type : Nat
  ovid : Nat
  kidx : Nat
  aux : Nat
  off : Nat
  size : Nat
  mbz : Bool
  deriving DecidableEq, Repr

/-- The entry of 32 bytes. -/
def sectOf (x : Nat) : Sect :=
  { type := bits x 15 0, ovid := bits x 47 32, kidx := bits x 63 48, aux := bits x 127 96, off := bits x 191 128, size := bits x 255 192,
    mbz := bits x 31 16 = 0 && bits x 95 64 = 0 }

/-- A kernel of an image: its KERN fields (R104), its CODE sections in ascending overlay id, and the VMASK of each SAFE (R105). -/
structure Kern where
  entov : Nat
  entwd : Nat
  bandw : Nat
  kregs : Nat
  datak : Nat
  regs : Nat
  scratch : Nat
  novl : Nat
  nsafe : Nat
  codes : List (Nat × Nat × Nat) := []
  vmasks : Tbl Nat := []
  deriving DecidableEq, Repr

/-- The fields of a KERN section of 64 bytes, and whether its must-be-zero fields are zero. -/
def kernOf (x : Nat) : Kern × Bool :=
  ({ entov := bits x 79 64, entwd := bits x 95 80, bandw := bits x 103 96, kregs := bits x 111 104, datak := bits x 119 112, regs := bits x 143 128,
     scratch := bits x 191 160, novl := bits x 271 256, nsafe := bits x 287 272 },
   bits x 127 120 = 0 && bits x 159 144 = 0 && bits x 511 288 = 0)

/-- The largest quota of a width (R53); 256 for a width that is none. -/
def quotaOf (bandw : Nat) : Nat := maxQuota bandw

/-- Whether a KERN section breaks R106, but for its entry. -/
def Kern.bad (k : Kern) : Bool :=
  (k.bandw ≠ 16 && k.bandw ≠ 32 && k.bandw ≠ 64) || k.regs = 0 || decide (quotaOf k.bandw < k.regs) || decide (64 < k.kregs)
    || (k.datak ≠ 0xFF && (k.datak % 2 = 1 || decide (k.kregs ≤ k.datak)))

/-- Whether a section entry breaks R106 in an image of a size. -/
def Sect.bad (x : Sect) (size : Nat) : Bool :=
  !x.mbz || x.type = 0 || (decide (5 < x.type) && decide (x.type < 0x8000)) || decide (size < x.off + x.size)
    || (x.type = 1 && (x.size ≠ 4 * x.aux || decide (65536 < x.size) || x.off % 64 ≠ 0))

/-- Insertion of a CODE section by overlay id. -/
def insertCode (c : Nat × Nat × Nat) : List (Nat × Nat × Nat) → List (Nat × Nat × Nat)
  | [] => [c]
  | d :: l => if c.1 ≤ d.1 then c :: d :: l else d :: insertCode c l

/-- The CODE sections of a kernel. -/
def codesOf (roi kidx : Nat) (ss : List Sect) : List (Nat × Nat × Nat) :=
  (ss.filter fun x => x.type = 1 && x.kidx = kidx).foldr (fun x l => insertCode (x.ovid, (roi + x.off) % 2 ^ 64, x.aux) l) []

/-- The n SAFE records of a section: id and VMASK; none where a must-be-zero field is set or they cannot be read. Of records with one id the
last counts, in whatever order they stand (log entry 118). -/
def State.safesOf (s : State) (ctx roi n : Nat) (x : Sect) : Option (Tbl Nat) :=
  (List.range n).foldl (fun (t : Option (Tbl Nat)) i => t.bind fun t =>
    (s.vaRead ctx ((roi + x.off + 48 * i) % 2 ^ 64) 48 needX).bind fun r =>
      if bits r 63 16 ≠ 0 then none else some (Tbl.put t (r % 65536) (bits r 319 64))) (some [])

/-- The kernel `kidx` of the image at an address of a context: none where the image breaks R106 or has no such KERN section. What R102 to
R105 say of an image and R106 does not list, the model settles as log entry 118 says. -/
def State.kernel (s : State) (ctx roi kidx : Nat) : Option Kern :=
  match s.vaRead ctx roi 32 needX with
  | none => none
  | some h =>
    let size := bits h 191 128
    let tab := bits h 127 64
    if bits h 31 0 ≠ 0x01494F52 || bits h 47 32 ≠ 1 || bits h 255 192 ≠ 0 || tab % 32 ≠ 0 then none
    else
      let rs := (List.range (bits h 63 48)).map fun i => (s.vaRead ctx ((roi + tab + 32 * i) % 2 ^ 64) 32 needX).map sectOf
      let ss := rs.filterMap id
      let ks := (ss.filter fun x => x.type = 3).map fun x => (s.vaRead ctx ((roi + x.off) % 2 ^ 64) 64 needX).map kernOf
      let nsafe (x : Sect) : Nat := match ks[x.kidx]?.join with | some (k, _) => k.nsafe | none => x.size / 48
      if rs.any Option.isNone || ss.any (fun x => x.bad size || (x.type = 1 && decide (ks.length ≤ x.kidx))) then none
      else if ss.any fun x => x.type = 4 && (s.safesOf ctx roi (nsafe x) x).isNone then none
      else
        let good (p : Option (Kern × Bool)) (i : Nat) : Bool := match p with
          | some (k, z) => z && !k.bad && (codesOf roi i ss).any fun c => c.1 = k.entov && decide (k.entwd < c.2.2)
          | none => false
        if ks.zipIdx.any fun p => !good p.1 p.2 then none
        else match ks[kidx]?.join with
          | none => none
          | some (k, _) =>
            let safe := (ss.filter fun x => x.type = 4 && x.kidx = kidx).foldl (fun (t : Option (Tbl Nat)) x =>
              t.bind fun t => (s.safesOf ctx roi k.nsafe x).map fun u => u.foldl (fun t p => Tbl.put t p.1 p.2) t) (some [])
            safe.map fun v => { k with codes := codesOf roi kidx ss, vmasks := v }

/-- The first page that a parse of an image has to wait for: its header, its section table, or a KERN or SAFE section (R427). -/
def State.imageWaits (s : State) (ctx roi : Nat) : Option Nat :=
  match s.firstUnmapped ctx roi needX false 32 with
  | some ia => some ia
  | none =>
    let h := (s.vaRead ctx roi 32 needX).getD 0
    let tab := (roi + bits h 127 64) % 2 ^ 64
    let n := bits h 63 48
    match s.firstUnmapped ctx tab needX false (32 * n) with
    | some ia => some ia
    | none => (List.range n).findSome? fun i => match (s.vaRead ctx ((tab + 32 * i) % 2 ^ 64) 32 needX).map sectOf with
      | some x => if x.type = 3 || x.type = 4 then s.firstUnmapped ctx ((roi + x.off) % 2 ^ 64) needX false x.size else none
      | none => none

end Sys2Proof.Machine
end

