-- ==== Sys2Proof/Machine/Opcode.lean ====
section
/-!
DEFINITION. Sys2Proof/Machine/Opcode.lean: the major opcode and the form of each instruction word's constructor (R79), the
inverse of the decoder's tables. A step of a unit has neither.
-/
namespace Sys2Proof

/-- The form that "Form X or literal form" stands for (R69, R70). -/
def XL.form : XL → Form
  | .sLit f l => .sLit f l
  | .x f => .x f
  | .xLit f l => .xLit f l

/-- The major opcode and the form of an instruction word (R79). -/
def Instr.form? (i : Instr) : Option (Nat × Form) :=
  match i with
  | .iadd f => some (0x01, .s f)
  | .iaddX f => some (0x01, f.form)
  | .isub f => some (0x02, .s f)
  | .isubX f => some (0x02, f.form)
  | .iaddc f => some (0x03, .s f)
  | .iaddcX f => some (0x03, f.form)
  | .imul f => some (0x04, .s f)
  | .imulX f => some (0x04, f.form)
  | .imulh f => some (0x05, .s f)
  | .imulhX f => some (0x05, f.form)
  | .imad f => some (0x06, f.form)
  | .idiv f => some (0x07, .s f)
  | .idivX f => some (0x07, f.form)
  | .irem f => some (0x08, .s f)
  | .iremX f => some (0x08, f.form)
  | .imin f => some (0x09, .s f)
  | .iminX f => some (0x09, f.form)
  | .imax f => some (0x0A, .s f)
  | .imaxX f => some (0x0A, f.form)
  | .and f => some (0x0B, .s f)
  | .andX f => some (0x0B, f.form)
  | .or f => some (0x0C, .s f)
  | .orX f => some (0x0C, f.form)
  | .xor f => some (0x0D, .s f)
  | .xorX f => some (0x0D, f.form)
  | .andn f => some (0x0E, .s f)
  | .andnX f => some (0x0E, f.form)
  | .not f => some (0x0F, .s f)
  | .notX f => some (0x0F, .x f)
  | .iabs f => some (0x0F, .s f)
  | .iabsX f => some (0x0F, .x f)
  | .ineg f => some (0x0F, .s f)
  | .inegX f => some (0x0F, .x f)
  | .popc f => some (0x0F, .s f)
  | .popcX f => some (0x0F, .x f)
  | .clz f => some (0x0F, .s f)
  | .clzX f => some (0x0F, .x f)
  | .ctz f => some (0x0F, .s f)
  | .ctzX f => some (0x0F, .x f)
  | .brev f => some (0x0F, .s f)
  | .brevX f => some (0x0F, .x f)
  | .shl f => some (0x10, .s f)
  | .shlX f => some (0x10, f.form)
  | .shr f => some (0x11, .s f)
  | .shrX f => some (0x11, f.form)
  | .sha f => some (0x12, .s f)
  | .shaX f => some (0x12, f.form)
  | .rotl f => some (0x13, .s f)
  | .rotlX f => some (0x13, f.form)
  | .bfx f => some (0x14, f.form)
  | .bfi f => some (0x15, f.form)
  | .bperm f => some (0x16, f.form)
  | .sel f => some (0x17, f.form)
  | .icmp f => some (0x18, .s f)
  | .icmpX f => some (0x18, f.form)
  | .plop f => some (0x19, .s f)
  | .plopX f => some (0x19, .x f)
  | .lea f => some (0x1A, f.form)
  | .mov f => some (0x1B, .s f)
  | .movX f => some (0x1B, f.form)
  | .movk f => some (0x1C, .s f)
  | .movkX f => some (0x1C, .x f)
  | .ldi f => some (0x1D, .i f)
  | .ldiLiteral f lit => some (0x1D, .iLit f lit)
  | .fadd f => some (0x20, .s f)
  | .faddX f => some (0x20, f.form)
  | .fsub f => some (0x21, .s f)
  | .fsubX f => some (0x21, f.form)
  | .fmul f => some (0x22, .s f)
  | .fmulX f => some (0x22, f.form)
  | .ffma f => some (0x23, f.form)
  | .fmin f => some (0x24, .s f)
  | .fminX f => some (0x24, f.form)
  | .fmax f => some (0x25, .s f)
  | .fmaxX f => some (0x25, f.form)
  | .fcmp f => some (0x26, .s f)
  | .fcmpX f => some (0x26, f.form)
  | .fclass f => some (0x27, .s f)
  | .fclassX f => some (0x27, .x f)
  | .frcp f => some (0x28, .s f)
  | .frcpX f => some (0x28, .x f)
  | .frsq f => some (0x29, .s f)
  | .frsqX f => some (0x29, .x f)
  | .fsqrt f => some (0x2A, .s f)
  | .fsqrtX f => some (0x2A, .x f)
  | .fdiv f => some (0x2B, .s f)
  | .fdivX f => some (0x2B, f.form)
  | .fexp2 f => some (0x2C, .s f)
  | .fexp2X f => some (0x2C, .x f)
  | .flog2 f => some (0x2D, .s f)
  | .flog2X f => some (0x2D, .x f)
  | .fsin f => some (0x2E, .s f)
  | .fsinX f => some (0x2E, .x f)
  | .fcos f => some (0x2F, .s f)
  | .fcosX f => some (0x2F, .x f)
  | .ftanh f => some (0x30, .s f)
  | .ftanhX f => some (0x30, .x f)
  | .fscale f => some (0x31, .s f)
  | .fscaleX f => some (0x31, f.form)
  | .frnd f => some (0x32, .s f)
  | .frndX f => some (0x32, .x f)
  | .cvt f => some (0x40, f.form)
  | .scalex f => some (0x41, f.form)
  | .qpack f => some (0x42, f.form)
  | .qunpk f => some (0x43, f.form)
  | .cbenc f => some (0x44, f.form)
  | .cbdec f => some (0x45, f.form)
  | .vote f => some (0x50, f.form)
  | .shfl f => some (0x51, f.form)
  | .bred f => some (0x52, f.form)
  | .bscan f => some (0x53, f.form)
  | .matchOp f => some (0x54, f.form)
  | .elect f => some (0x55, f.form)
  | .barb f => some (0x56, f.form)
  | .actv f => some (0x57, .s f)
  | .actvX f => some (0x57, .x f)
  | .completingIssue _ => none
  | .bra f => some (0x60, .b f)
  | .brs f => some (0x61, .x f)
  | .brx f => some (0x62, f.form)
  | .pad f => some (0x63, .i f)
  | .call f => some (0x64, .b f)
  | .callx f => some (0x65, f.form)
  | .ret f => some (0x66, .i f)
  | .exit f => some (0x67, .i f)
  | .exitSucc f => some (0x67, .x f)
  | .trap f => some (0x68, .i f)
  | .brk f => some (0x69, .i f)
  | .nop f => some (0x6A, .i f)
  | .safe f => some (0x6B, .i f)
  | .yield f => some (0x6C, .i f)
  | .rep f => some (0x7F, .r f)
  | .takeTrap _ => none
  | .tret f => some (0xD3, .i f)
  | .sreg f => some (0xD0, .i f)
  | .sregX f => some (0xD0, .x f)
  | .sregw f => some (0xD1, .x f)
  | .ecall f => some (0xD2, .i f)
  | .ecallServiceComplete _ => none
  | .ecallNop _ => none
  | .ecallHalt _ => none
  | .engstat _ => none
  | .tracker _ => none
  | .release _ => none
  | .csave f => some (0xD4, .x f)
  | .crest f => some (0xD5, .x f)
  | .cycle f => some (0xD6, .s f)
  | .perfr f => some (0xD7, .x f)
  | .ld f => some (0x80, .s f)
  | .ldX f => some (0x80, .x f)
  | .st f => some (0x81, .s f)
  | .stX f => some (0x81, .x f)
  | .ldk f => some (0x82, .x f)
  | .ldw f => some (0x83, .s f)
  | .ldwX f => some (0x83, .x f)
  | .atom f => some (0x84, f.form)
  | .atom2 f => some (0x85, f.form)
  | .red f => some (0x86, f.form)
  | .fence f => some (0x87, .s f)
  | .watch f => some (0x88, .s f)
  | .watchX f => some (0x88, .x f)
  | .waitw f => some (0x89, .s f)
  | .waitwX f => some (0x89, .x f)
  | .unwatch f => some (0x8A, .s f)
  | .unwatchX f => some (0x8A, .x f)
  | .pref f => some (0x8B, .s f)
  | .prefX f => some (0x8B, .x f)
  | .waitwTimeout _ _ => none
  | .tcpy f => some (0xA0, .x f)
  | .tcpyGrid f => some (0xA0, .x f)
  | .tileCopyComplete _ => none
  | .ovl f => some (0xA1, .x f)
  | .ovlComplete _ => none
  | .twany f => some (0xA2, .s f)
  | .twanyX f => some (0xA2, f.form)
  | .twall f => some (0xA3, .s f)
  | .twallX f => some (0xA3, f.form)
  | .tffr f => some (0xA4, .s f)
  | .tffrX f => some (0xA4, f.form)
  | .tclr f => some (0xA5, .s f)
  | .tclrX f => some (0xA5, f.form)
  | .waitc f => some (0xA6, .x f)
  | .mma f => some (0xB0, .x f)
  | .mfence f => some (0xB1, .s f)
  | .rslv f => some (0xB2, .x f)
  | .acld f => some (0xB3, .x f)
  | .acst f => some (0xB4, .x f)
  | .acmp f => some (0xB5, .x f)
  | .acz f => some (0xB6, .s f)
  | .aczX f => some (0xB6, .x f)
  | .acmov f => some (0xB7, .x f)
  | .mxqPush f => some (0xB8, .x f)
  | .mxqInit f => some (0xB8, .x f)
  | .mptbl f => some (0xB9, .x f)
  | .mcbtbl f => some (0xBA, .x f)
  | .mroute f => some (0xBB, .x f)
  | .bari f => some (0xC0, f.form)
  | .barj f => some (0xC1, .x f)
  | .bara f => some (0xC2, .x f)
  | .barw f => some (0xC3, f.form)
  | .taskp f => some (0xC4, .x f)
  | .grow f => some (0xC5, .i f)
  | .shrink f => some (0xC6, .i f)
  | .phase f => some (0xC7, .i f)
  | .pncmd f => some (0xC8, .x f)
  | .localLoad _ => none
  | .missRequest _ => none
  | .bufferAStore _ => none
  | .drainIntoL1 _ => none
  | .writeThrough _ => none
  | .writeBack _ _ _ => none
  | .drop _ _ _ => none
  | .deliver _ _ _ => none
  | .performAtTheSlice _ => none
  | .fill _ => none
  | .invalidate _ => none
  | .replay _ _ => none
  | .performAtABank _ => none
  | .sectorAgeExpiry _ _ _ => none
  | .refreshPeriodStart _ => none
  | .enginePassGrant _ _ => none
  | .passEnd _ _ => none
  | .promotion _ _ => none
  | .epilogueResolve _ => none
  | .epilogueSend _ _ => none
  | .blockAccepted _ _ => none
  | .tlRelease _ _ => none
  | .engineStopRequest _ _ => none
  | .firstUseTrap _ => none
  | .ringNop _ => none
  | .ringMma _ => none
  | .ringRslv _ => none
  | .ringAcst _ => none
  | .ringAcz _ => none
  | .ringHalt _ => none
  | .ringWaitHolds _ => none
  | .freeArrival _ _ => none
  | .doneArrival _ _ => none
  | .spawnRecordTimeout _ _ => none
  | .loopWatchTimeout _ => none
  | .rotationSchedule _ => none
  | .homeSchedulerRequest _ _ => none
  | .teamSave _ _ => none
  | .teamRestore _ _ _ => none
  | .starvationCheck _ => none
  | .taskPostAccept _ => none
  | .taskDispatch _ _ => none
  | .taskEnd _ => none
  | .notifyIdx _ _ => none
  | .notifyResume _ => none
  | .flpop _ => none
  | .flpush _ => none
  | .queueSlotGrant _ _ => none
  | .slotTimeLimit _ => none
  | .headerRead _ => none
  | .emptySlotRetry _ => none
  | .packetNop _ => none
  | .packetLink _ => none
  | .packetSignal _ => none
  | .packetDepend _ => none
  | .packetLaunch _ => none
  | .packetGang _ => none
  | .gangRetry _ => none
  | .gangGo _ _ => none
  | .gangAckTimeout _ _ => none
  | .flightComplete _ => none
  | .emberRestart => none
  | .workerHeartbeatTimeout _ => none
  | .contextSwitch _ _ => none
  | .quantumExpiry _ => none
  | .safePointTimeout _ => none
  | .attach _ => none
  | .detach _ => none
  | .halt _ => none
  | .resume _ => none
  | .step _ => none
  | .readreg _ => none
  | .writereg _ => none
  | .readpos _ => none
  | .setbp _ => none
  | .setwp _ => none
  | .readeng _ => none
  | .kill _ => none
  | .rangeSetLoad _ _ => none
  | .tableWalk _ _ => none
  | .mapdone _ _ => none
  | .priResponse _ _ => none
  | .setRangeTable _ _ => none
  | .remap _ _ _ => none
  | .unmap _ _ _ => none
  | .range _ _ => none
  | .shootdownAck _ => none
  | .shootdownTimeout _ => none
  | .gridDelivery _ => none
  | .contributionArrival _ => none
  | .pncmdReg _ => none
  | .pncmdRule _ => none
  | .pncmdOpen _ => none
  | .pncmdCommit _ => none
  | .pncmdQuery _ => none
  | .pncmdSub _ => none
  | .pncmdUnreg _ => none
  | .gradientBlock _ _ => none
  | .subscriptionDelivery _ _ => none
  | .weightStoreSubscription _ _ => none
  | .nodeRestart _ => none
  | .nodeHeartbeatTimeout _ => none
  | .hostWindowAccess _ => none
  | .registerWrite _ _ => none
  | .msixUnmask _ => none
  | .flitReceive _ _ => none
  | .linkRetrain _ => none
  | .linkTrainingDone _ _ => none
  | .linkDisable _ => none
  | .linkEnable _ => none
  | .routeUnservedTimeout _ => none
  | .bandStop _ => none
  | .setFaultRing _ _ => none
  | .snapshotRelease _ => none
  | .flightKill _ => none
  | .killSideLogTimeout _ => none
  | .correctedError _ => none
  | .uncorrectedError _ _ => none
  | .dieDisable _ => none
  | .peerReadmit _ => none
  | .coldReset => none
  | .warmReset => none
  | .partcfg _ => none
  | .pwrlim _ => none
  | .powerControlTick => none
  | .setEndpointId _ => none
  | .getEndpointId => none
  | .getMctpVersionSupport => none
  | .getMessageTypeSupport => none
  | .sensorRead _ => none
  | .setLunaCap _ => none
  | .readIdentification => none
  | .readFaultRecords => none
  | .setGridCoordinates _ => none
  | .requestWarmReset => none
  | .coldPowerUpRequest => none
  | .refreshWindowClose _ _ => none
  | .refreshParameterChange _ _ _ _ => none
  | .createContext _ _ => none
  | .destroyContext _ => none
  | .createQueue _ _ => none
  | .bindQueue _ _ => none
  | .disableQueue _ => none
  | .setVec _ _ => none
  | .setGkey _ _ => none
  | .atsTranslationCompletion _ _ => none
  | .hostCompletion _ _ => none
  | .spareRowCopyDone _ => none
  | .wstRowRepair _ => none
  | .railsDown => none

end Sys2Proof
end

