-- ==== Sys2Proof/WellFormed.lean ====
section
/-!
DEFINITION. Sys2Proof/WellFormed.lean: an instruction is well formed when its encoding passes every check of R79 to R87
that does not need the PC or the words after it. A step of a unit has no words and is well formed.
-/
namespace Sys2Proof

/-- The sub-operation that a constructor stands for where its opcode has several (R77, R219, R253). -/
def Instr.subOk (i : Instr) : Bool :=
  match i with
  | .not f => f.m = 0
  | .notX f => f.sub = 0
  | .iabs f => f.m = 1
  | .iabsX f => f.sub = 1
  | .ineg f => f.m = 2
  | .inegX f => f.sub = 2
  | .popc f => f.m = 3
  | .popcX f => f.sub = 3
  | .clz f => f.m = 4
  | .clzX f => f.sub = 4
  | .ctz f => f.m = 5
  | .ctzX f => f.sub = 5
  | .brev f => f.m = 6
  | .brevX f => f.sub = 6
  | .tcpy f => f.sub = 0
  | .tcpyGrid f => f.sub = 1
  | .mxqPush f => f.sub = 0
  | .mxqInit f => f.sub = 1
  | _ => true

/-- The reason code for which an instruction's own encoding is refused, if it is (R87). -/
def Instr.illegal? (i : Instr) : Option Nat :=
  match i.form? with
  | none => none
  | some (op, form) => Legal.reason op form

/-- The encoding of the instruction is legal. -/
def Instr.wellFormed (i : Instr) : Bool := i.illegal?.isNone && i.subOk

end Sys2Proof
end

