-- ==== Sys2Proof/Decode.lean ====
section
/-!
DEFINITION. Sys2Proof/Decode.lean: from instruction words to instructions and back (R64 to R87). decodeAt is total: it
answers an instruction with its length in words, or the reason code of R87. The encoder follows it; decodeTableWord is
the same decoder fed with a word numbered as the opcode table numbers its bits.
-/
namespace Sys2Proof

namespace Decode

/-- Bits [hi:lo] of a word, as a field of n = hi - lo + 1 bits. -/
def fld (w : Word) (lo n : Nat) : BitVec n := BitVec.extractLsb' lo n w

/-- OP, bits [9:2] of the base word (R64). -/
def opOf (w : Word) : Nat := (fld w 2 8).toNat
/-- LEN, bits [1:0] of the base word (R64). -/
def lenOf (w : Word) : Nat := (fld w 0 2).toNat
/-- The number of words of each LEN code (R64). -/
def wordsOf (len : Nat) : Nat := match len with | 0 => 1 | 1 | 2 => 3 | _ => 5

/-- Form S of a base word (R67). -/
def formS (w : Word) : FormS := { m := fld w 28 4, b := fld w 22 6, a := fld w 16 6, d := fld w 10 6 }
/-- Form I of a base word (R67). -/
def formI (w : Word) : FormI := { imm := fld w 16 16, d := fld w 10 6 }
/-- Form B of a base word (R67). -/
def formB (w : Word) : FormB := { off := fld w 14 18, gn := fld w 13 1, g := fld w 10 3 }
/-- REP's layout (R81). -/
def formR (w : Word) : FormR :=
  { mbz := fld w 25 7, bstep := fld w 22 3, astep := fld w 19 3, dstep := fld w 16 3, count := fld w 10 6, len := fld w 0 2 }
/-- Form X of its three words (R70). -/
def formX (w0 w1 w2 : Word) : FormX :=
  { g := fld w0 29 3, ac := fld w0 27 2, a := fld w0 19 8, dc := fld w0 18 1, d := fld w0 10 8,
    mf := fld w1 28 4, sub := fld w1 24 4, lc := fld w1 23 1, lb := fld w1 22 1, la := fld w1 21 1, gn := fld w1 20 1,
    cc := fld w1 18 2, c := fld w1 10 8, bc := fld w1 8 2, b := fld w1 0 8, w2 := w2 }
/-- A literal from its two words, the low one first (R64). -/
def literal (lo hi : Word) : BitVec 64 := hi ++ lo

/-- The layout of the words that LEN and the opcode's short form select (R64, R67, R70); the words are there. -/
def layout (short : Nat) (ws : List Word) : Option Form :=
  match ws with
  | [] => none
  | w0 :: r =>
    if opOf w0 = 0x7F then some (.r (formR w0))
    else match lenOf w0, r with
      | 0, _ => if short = 1 then some (.s (formS w0)) else if short = 2 then some (.i (formI w0))
                else if short = 3 then some (.b (formB w0)) else none
      | 1, w1 :: w2 :: _ => some (.x (formX w0 w1 w2))
      | 2, l0 :: l1 :: _ => if short = 1 then some (.sLit (formS w0) (literal l0 l1))
                else if short = 2 then some (.iLit (formI w0) (literal l0 l1)) else none
      | 3, w1 :: w2 :: l0 :: l1 :: _ => some (.xLit (formX w0 w1 w2) (literal l0 l1))
      | _, _ => none

/-- The Form S rows of the opcode map (R79). -/
def tableS : List (Nat × (FormS → Instr)) :=
  [(0x01, Instr.iadd), (0x02, Instr.isub), (0x03, Instr.iaddc), (0x04, Instr.imul),
   (0x05, Instr.imulh), (0x07, Instr.idiv), (0x08, Instr.irem), (0x09, Instr.imin),
   (0x0A, Instr.imax), (0x0B, Instr.and), (0x0C, Instr.or), (0x0D, Instr.xor),
   (0x0E, Instr.andn), (0x10, Instr.shl), (0x11, Instr.shr), (0x12, Instr.sha),
   (0x13, Instr.rotl), (0x18, Instr.icmp), (0x19, Instr.plop), (0x1B, Instr.mov),
   (0x1C, Instr.movk), (0x20, Instr.fadd), (0x21, Instr.fsub), (0x22, Instr.fmul)]
  ++ [(0x24, Instr.fmin), (0x25, Instr.fmax), (0x26, Instr.fcmp), (0x27, Instr.fclass),
   (0x28, Instr.frcp), (0x29, Instr.frsq), (0x2A, Instr.fsqrt), (0x2B, Instr.fdiv),
   (0x2C, Instr.fexp2), (0x2D, Instr.flog2), (0x2E, Instr.fsin), (0x2F, Instr.fcos),
   (0x30, Instr.ftanh), (0x31, Instr.fscale), (0x32, Instr.frnd), (0x57, Instr.actv),
   (0xD6, Instr.cycle), (0x80, Instr.ld), (0x81, Instr.st), (0x83, Instr.ldw),
   (0x87, Instr.fence), (0x88, Instr.watch), (0x89, Instr.waitw), (0x8A, Instr.unwatch)]
  ++ [(0x8B, Instr.pref), (0xA2, Instr.twany), (0xA3, Instr.twall), (0xA4, Instr.tffr),
   (0xA5, Instr.tclr), (0xB1, Instr.mfence), (0xB6, Instr.acz)]

/-- The Form S rows told apart by M: the unary operations (R77). -/
def tableSSub : List ((Nat × Nat) × (FormS → Instr)) :=
  [((0x0F, 0), Instr.not),
   ((0x0F, 1), Instr.iabs),
   ((0x0F, 2), Instr.ineg),
   ((0x0F, 3), Instr.popc),
   ((0x0F, 4), Instr.clz),
   ((0x0F, 5), Instr.ctz),
   ((0x0F, 6), Instr.brev)]

/-- The Form X rows of opcodes that take no literal (R79). -/
def tableX : List (Nat × (FormX → Instr)) :=
  [(0x19, Instr.plopX), (0x1C, Instr.movkX), (0x27, Instr.fclassX), (0x28, Instr.frcpX),
   (0x29, Instr.frsqX), (0x2A, Instr.fsqrtX), (0x2C, Instr.fexp2X), (0x2D, Instr.flog2X),
   (0x2E, Instr.fsinX), (0x2F, Instr.fcosX), (0x30, Instr.ftanhX), (0x32, Instr.frndX),
   (0x57, Instr.actvX), (0x61, Instr.brs), (0x67, Instr.exitSucc), (0xD0, Instr.sregX),
   (0xD1, Instr.sregw), (0xD4, Instr.csave), (0xD5, Instr.crest), (0xD7, Instr.perfr),
   (0x80, Instr.ldX), (0x81, Instr.stX), (0x82, Instr.ldk), (0x83, Instr.ldwX)]
  ++ [(0x88, Instr.watchX), (0x89, Instr.waitwX), (0x8A, Instr.unwatchX), (0x8B, Instr.prefX),
   (0xA1, Instr.ovl), (0xA6, Instr.waitc), (0xB0, Instr.mma), (0xB2, Instr.rslv),
   (0xB3, Instr.acld), (0xB4, Instr.acst), (0xB5, Instr.acmp), (0xB6, Instr.aczX),
   (0xB7, Instr.acmov), (0xB9, Instr.mptbl), (0xBA, Instr.mcbtbl), (0xBB, Instr.mroute),
   (0xC1, Instr.barj), (0xC2, Instr.bara), (0xC4, Instr.taskp), (0xC8, Instr.pncmd)]

/-- The Form X rows told apart by SUB: unary (R77), TCPY (R219) and MXQ (R253). -/
def tableXSub : List ((Nat × Nat) × (FormX → Instr)) :=
  [((0x0F, 0), Instr.notX),
   ((0x0F, 1), Instr.iabsX),
   ((0x0F, 2), Instr.inegX),
   ((0x0F, 3), Instr.popcX),
   ((0x0F, 4), Instr.clzX),
   ((0x0F, 5), Instr.ctzX),
   ((0x0F, 6), Instr.brevX),
   ((0xA0, 0), Instr.tcpy),
   ((0xA0, 1), Instr.tcpyGrid),
   ((0xB8, 0), Instr.mxqPush),
   ((0xB8, 1), Instr.mxqInit)]

/-- The rows that a literal may extend (R79). -/
def tableXL : List (Nat × (XL → Instr)) :=
  [(0x01, Instr.iaddX), (0x02, Instr.isubX), (0x03, Instr.iaddcX), (0x04, Instr.imulX),
   (0x05, Instr.imulhX), (0x06, Instr.imad), (0x07, Instr.idivX), (0x08, Instr.iremX),
   (0x09, Instr.iminX), (0x0A, Instr.imaxX), (0x0B, Instr.andX), (0x0C, Instr.orX),
   (0x0D, Instr.xorX), (0x0E, Instr.andnX), (0x10, Instr.shlX), (0x11, Instr.shrX),
   (0x12, Instr.shaX), (0x13, Instr.rotlX), (0x14, Instr.bfx), (0x15, Instr.bfi),
   (0x16, Instr.bperm), (0x17, Instr.sel), (0x18, Instr.icmpX), (0x1A, Instr.lea)]
  ++ [(0x1B, Instr.movX), (0x20, Instr.faddX), (0x21, Instr.fsubX), (0x22, Instr.fmulX),
   (0x23, Instr.ffma), (0x24, Instr.fminX), (0x25, Instr.fmaxX), (0x26, Instr.fcmpX),
   (0x2B, Instr.fdivX), (0x31, Instr.fscaleX), (0x40, Instr.cvt), (0x41, Instr.scalex),
   (0x42, Instr.qpack), (0x43, Instr.qunpk), (0x44, Instr.cbenc), (0x45, Instr.cbdec),
   (0x50, Instr.vote), (0x51, Instr.shfl), (0x52, Instr.bred), (0x53, Instr.bscan),
   (0x54, Instr.matchOp), (0x55, Instr.elect), (0x56, Instr.barb), (0x62, Instr.brx)]
  ++ [(0x65, Instr.callx), (0x84, Instr.atom), (0x85, Instr.atom2), (0x86, Instr.red),
   (0xA2, Instr.twanyX), (0xA3, Instr.twallX), (0xA4, Instr.tffrX), (0xA5, Instr.tclrX),
   (0xC0, Instr.bari), (0xC3, Instr.barw)]

/-- The Form I rows (R79). -/
def tableI : List (Nat × (FormI → Instr)) :=
  [(0x1D, Instr.ldi), (0x63, Instr.pad), (0x66, Instr.ret), (0x67, Instr.exit),
   (0x68, Instr.trap), (0x69, Instr.brk), (0x6A, Instr.nop), (0x6B, Instr.safe),
   (0x6C, Instr.yield), (0xD3, Instr.tret), (0xD0, Instr.sreg), (0xD2, Instr.ecall),
   (0xC5, Instr.grow), (0xC6, Instr.shrink), (0xC7, Instr.phase)]

/-- The Form B rows (R79). -/
def tableB : List (Nat × (FormB → Instr)) :=
  [(0x60, Instr.bra), (0x64, Instr.call)]

/-- The first entry of an opcode in a table. -/
def pick {α : Type} {β : Type} [DecidableEq α] (t : List (α × β)) (k : α) : Option β :=
  match t with
  | [] => none
  | (a, b) :: r => if a = k then some b else pick r k

/-- The instruction of an opcode and a form: the row of the opcode map (R79). -/
def ofForm (op : Nat) (form : Form) : Option Instr :=
  match form with
  | .s f => match pick tableS op with
    | some g => some (g f)
    | none => (pick tableSSub (op, f.m.toNat)).map (· f)
  | .sLit f lit => (pick tableXL op).map (· (.sLit f lit))
  | .x f => match pick tableXL op with
    | some g => some (g (.x f))
    | none => match pick tableX op with
      | some g => some (g f)
      | none => (pick tableXSub (op, f.sub.toNat)).map (· f)
  | .xLit f lit => (pick tableXL op).map (· (.xLit f lit))
  | .i f => (pick tableI op).map (· f)
  | .iLit f lit => if op = 0x1D then some (.ldiLiteral f lit) else none
  | .b f => (pick tableB op).map (· f)
  | .r f => if op = 0x7F then some (.rep f) else none

/-- The target of a Form B instruction at word pc: PC + OFF18, signed (R80). -/
def branchTarget (pc : Nat) (f : FormB) : Int := (pc : Int) + f.off.toInt

/-- Whether a Form B target lies in the slot of its instruction (R80). -/
def branchOk (pc : Nat) (f : FormB) : Bool :=
  let t := branchTarget pc f
  decide (0 ≤ t) && decide (t < 65536) && t.toNat / 16384 == pc / 16384

/-- The BRANCH check of R80, which alone of the field checks needs the PC. -/
def branchReason (pc : Nat) : Form → Option Nat
  | .b f => if branchOk pc f then none else some 9
  | _ => none

/-- Decoding at word pc, with the words from pc to the end of the slot's loaded length (R65): the instruction and its
length in words, or the reason code of R87. -/
def decodeAt (pc : Nat) (ws : List Word) : Except Nat (Instr × Nat) :=
  match ws with
  | [] => .error 1
  | w0 :: _ =>
    let op := opOf w0
    let n := if op = 0x7F then 1 else wordsOf (lenOf w0)
    if ws.length < n then .error 1
    else match Legal.opInfo op with
      | none => .error 2
      | some (short, lens) =>
        if op ≠ 0x7F ∧ !lens.contains (lenOf w0) then .error 3
        else match layout short ws with
          | none => .error 3
          | some form =>
            match Legal.reason op form with
            | some r => .error r
            | none => match branchReason pc form with
              | some r => .error r
              | none => match ofForm op form with
                | some i => .ok (i, n)
                | none => .error 4

end Decode

/-- The instruction at the head of a list of words, as at word 0 of a slot (R64 to R87). -/
def decode (ws : List Word) : Option (Instr × Nat) := (Decode.decodeAt 0 ws).toOption

namespace Encode

/-- The base word of Form S (R67). -/
def wordS (op len : Nat) (f : FormS) : Word := f.m ++ f.b ++ f.a ++ f.d ++ BitVec.ofNat 8 op ++ BitVec.ofNat 2 len
/-- The base word of Form I (R67). -/
def wordI (op len : Nat) (f : FormI) : Word := f.imm ++ f.d ++ BitVec.ofNat 8 op ++ BitVec.ofNat 2 len
/-- The base word of Form B (R67). -/
def wordB (op : Nat) (f : FormB) : Word := f.off ++ f.gn ++ f.g ++ BitVec.ofNat 8 op ++ 0#2
/-- REP's word (R81). -/
def wordR (f : FormR) : Word := f.mbz ++ f.bstep ++ f.astep ++ f.dstep ++ f.count ++ 0x7F#8 ++ f.len
/-- The three words of Form X (R70). -/
def wordsX (op len : Nat) (f : FormX) : List Word :=
  [f.g ++ f.ac ++ f.a ++ f.dc ++ f.d ++ BitVec.ofNat 8 op ++ BitVec.ofNat 2 len,
   f.mf ++ f.sub ++ f.lc ++ f.lb ++ f.la ++ f.gn ++ f.cc ++ f.c ++ f.bc ++ f.b, f.w2]
/-- A literal's two words (R64). -/
def wordsLit (l : BitVec 64) : List Word := [l.setWidth 32, BitVec.extractLsb' 32 32 l]

/-- The words of an opcode and a form, base word first (R64, R67, R70). -/
def words (op : Nat) : Form → List Word
  | .s f => [wordS op 0 f]
  | .sLit f l => wordS op 2 f :: wordsLit l
  | .x f => wordsX op 1 f
  | .xLit f l => wordsX op 3 f ++ wordsLit l
  | .i f => [wordI op 0 f]
  | .iLit f l => wordI op 2 f :: wordsLit l
  | .b f => [wordB op f]
  | .r f => [wordR f]

end Encode

/-- The words of an instruction; a step of a unit has none. -/
def encode (i : Instr) : List Word :=
  match i.form? with
  | some (op, f) => Encode.words op f
  | none => []

/-- The bits of an instruction, numbered as the opcode table numbers them (bit 0 the least significant bit of the first
word), as words; bits above nbits are zero, up to the longest instruction of five words. -/
def tableWords (nbits w : Nat) : List Word :=
  (List.range 5).map fun i => BitVec.ofNat 32 ((w % 2 ^ nbits) / 2 ^ (32 * i))

/-- The decoder's answer for an instruction whose bits are w. -/
def decodeTableWord (nbits w : Nat) : Option Instr := (decode (tableWords nbits w)).map (·.1)

end Sys2Proof
end

