-- ==== Sys2Proof/Machine/Rep.lean ====
section
/-!
DEFINITION. Sys2Proof/Machine/Rep.lean: REP and its target as one unit (R81 to R85), and the completing issue of a band
operation, alone or as an iteration of a unit (R149, R152, R85).
-/
namespace Sys2Proof.Machine

/-- One iteration's execution of a target: the opcodes that R83 admits. -/
def execTarget (i : Instr) (s : State) : Out :=
  match i with
  | .iadd f => execIadd f s
  | .iaddX f => execIaddX f s
  | .isub f => execIsub f s
  | .isubX f => execIsubX f s
  | .iaddc f => execIaddc f s
  | .iaddcX f => execIaddcX f s
  | .imul f => execImul f s
  | .imulX f => execImulX f s
  | .imulh f => execImulh f s
  | .imulhX f => execImulhX f s
  | .imad f => execImad f s
  | .idiv f => execIdiv f s
  | .idivX f => execIdivX f s
  | .irem f => execIrem f s
  | .iremX f => execIremX f s
  | .imin f => execImin f s
  | .iminX f => execIminX f s
  | .imax f => execImax f s
  | .imaxX f => execImaxX f s
  | .and f => execAnd f s
  | .andX f => execAndX f s
  | .or f => execOr f s
  | .orX f => execOrX f s
  | .xor f => execXor f s
  | .xorX f => execXorX f s
  | .andn f => execAndn f s
  | .andnX f => execAndnX f s
  | .not f => execNot f s
  | .notX f => execNotX f s
  | .iabs f => execIabs f s
  | .iabsX f => execIabsX f s
  | .ineg f => execIneg f s
  | .inegX f => execInegX f s
  | .popc f => execPopc f s
  | .popcX f => execPopcX f s
  | .clz f => execClz f s
  | .clzX f => execClzX f s
  | .ctz f => execCtz f s
  | .ctzX f => execCtzX f s
  | .brev f => execBrev f s
  | .brevX f => execBrevX f s
  | .shl f => execShl f s
  | .shlX f => execShlX f s
  | .shr f => execShr f s
  | .shrX f => execShrX f s
  | .sha f => execSha f s
  | .shaX f => execShaX f s
  | .rotl f => execRotl f s
  | .rotlX f => execRotlX f s
  | .bfx f => execBfx f s
  | .bfi f => execBfi f s
  | .bperm f => execBperm f s
  | .sel f => execSel f s
  | .icmp f => execIcmp f s
  | .icmpX f => execIcmpX f s
  | .plop f => execPlop f s
  | .plopX f => execPlopX f s
  | .lea f => execLea f s
  | .mov f => execMov f s
  | .movX f => execMovX f s
  | .movk f => execMovk f s
  | .movkX f => execMovkX f s
  | .ldi f => execLdi f s
  | .ldiLiteral f lit => execLdiLiteral f lit s
  | .fadd f => execFadd f s
  | .faddX f => execFaddX f s
  | .fsub f => execFsub f s
  | .fsubX f => execFsubX f s
  | .fmul f => execFmul f s
  | .fmulX f => execFmulX f s
  | .ffma f => execFfma f s
  | .fmin f => execFmin f s
  | .fminX f => execFminX f s
  | .fmax f => execFmax f s
  | .fmaxX f => execFmaxX f s
  | .fcmp f => execFcmp f s
  | .fcmpX f => execFcmpX f s
  | .fclass f => execFclass f s
  | .fclassX f => execFclassX f s
  | .frcp f => execFrcp f s
  | .frcpX f => execFrcpX f s
  | .frsq f => execFrsq f s
  | .frsqX f => execFrsqX f s
  | .fsqrt f => execFsqrt f s
  | .fsqrtX f => execFsqrtX f s
  | .fdiv f => execFdiv f s
  | .fdivX f => execFdivX f s
  | .fexp2 f => execFexp2 f s
  | .fexp2X f => execFexp2X f s
  | .flog2 f => execFlog2 f s
  | .flog2X f => execFlog2X f s
  | .fsin f => execFsin f s
  | .fsinX f => execFsinX f s
  | .fcos f => execFcos f s
  | .fcosX f => execFcosX f s
  | .ftanh f => execFtanh f s
  | .ftanhX f => execFtanhX f s
  | .fscale f => execFscale f s
  | .fscaleX f => execFscaleX f s
  | .frnd f => execFrnd f s
  | .frndX f => execFrndX f s
  | .cvt f => execCvt f s
  | .scalex f => execScalex f s
  | .qpack f => execQpack f s
  | .qunpk f => execQunpk f s
  | .cbenc f => execCbenc f s
  | .cbdec f => execCbdec f s
  | .vote f => execVote f s
  | .shfl f => execShfl f s
  | .bred f => execBred f s
  | .bscan f => execBscan f s
  | .matchOp f => execMatchOp f s
  | .elect f => execElect f s
  | .barb f => execBarb f s
  | .actv f => execActv f s
  | .actvX f => execActvX f s
  | .ld f => execLd f s
  | .ldX f => execLdX f s
  | .st f => execSt f s
  | .stX f => execStX f s
  | .ldk f => execLdk f s
  | .ldw f => execLdw f s
  | .ldwX f => execLdwX f s
  | .atom f => execAtom f s
  | .atom2 f => execAtom2 f s
  | .red f => execRed f s
  | .pref f => execPref f s
  | .prefX f => execPrefX f s
  | _ => .next s

/-- The words of a core's overlay slot from an instruction index to the end of the loaded length (R65). -/
def State.wordsFrom (s : State) (core pc : Nat) : List Word := ((s.core core).overlays.getD (pc / 16384) {}).words.drop (pc % 16384)

/-- Whether an opcode may be the target of a REP (R83). -/
def repOpcode (op : Nat) : Bool :=
  (decide (1 ≤ op) && decide (op ≤ 0x57)) || [0x80, 0x81, 0x82, 0x83, 0x84, 0x85, 0x86, 0x8B].contains op

/-- Whether an opcode waits for other threads as a band operation (R85). -/
def waitsForBand (op : Nat) : Bool := decide (0x50 ≤ op) && decide (op ≤ 0x56)

/-- A register field stepped: none where it leaves the field's range. -/
def stepField (n : Nat) (x : Nat) (k : Int) : Option (BitVec n) :=
  let y := (x : Int) + k
  if 0 ≤ y ∧ y < ((2 ^ n : Nat) : Int) then some (BitVec.ofNat n y.toNat) else none

/-- Form S with its fields stepped (R82). -/
def stepS (f : FormS) (d a b : Int) : Option FormS := do
  let d' ← stepField 6 f.d.toNat d
  let a' ← stepField 6 f.a.toNat a
  let b' ← stepField 6 f.b.toNat b
  return { f with d := d', a := a', b := b' }

/-- Form X with its fields stepped (R82). -/
def stepX (f : FormX) (d a b : Int) : Option FormX := do
  let d' ← stepField 8 f.d.toNat d
  let a' ← stepField 8 f.a.toNat a
  let b' ← stepField 8 f.b.toNat b
  return { f with d := d', a := a', b := b' }

/-- An encoding with its fields stepped; a form without register fields B or A keeps them. -/
def stepForm (form : Form) (d a b : Int) : Option Form :=
  match form with
  | .s f => (stepS f d a b).map .s
  | .sLit f l => (stepS f d a b).map (.sLit · l)
  | .x f => (stepX f d a b).map .x
  | .xLit f l => (stepX f d a b).map (.xLit · l)
  | .i f => (stepField 6 f.d.toNat d).map fun d' => .i { f with d := d' }
  | .iLit f l => (stepField 6 f.d.toNat d).map fun d' => .iLit { f with d := d' } l
  | .b f => some (.b f)
  | .r f => some (.r f)

/-- Whether a use names a v or k register under a class code. -/
def usesReg (u : Use) (cl n : Nat) (isB : Bool) : Bool :=
  match u with
  | .opnd _ _ _ _ _ => cl < 2 && !(isB && cl = 2 && n = 255)
  | _ => false

/-- Whether the fields that a unit steps are register fields of its target: D, A and B (R83). -/
def stepUses (op : Nat) (form : Form) : Bool × Bool × Bool :=
  match form with
  | .s f => let g := Legal.sigS op f; (usesReg g.d 0 0 false, usesReg g.a 0 0 false, usesReg g.b 0 0 true)
  | .sLit f _ => let g := Legal.sigS op f; (usesReg g.d 0 0 false, usesReg g.a 0 0 false, false)
  | .x f => let g := Legal.sigX op f
    (usesReg g.d f.dc.toNat 0 false, usesReg g.a f.ac.toNat 0 false, usesReg g.b f.bc.toNat 0 true)
  | .xLit f _ => let g := Legal.sigX op f
    (usesReg g.d f.dc.toNat 0 false, usesReg g.a f.ac.toNat 0 false, usesReg g.b f.bc.toNat 0 true)
  | .i _ => (true, false, false)
  | .iLit _ _ => (true, false, false)
  | _ => (false, false, false)

/-- The steps of a REP (R81). -/
def repSteps (f : FormR) : Int × Int × Int := (f.dstep.toInt, f.astep.toInt, f.bstep.toInt)
/-- The iterations of a REP (R81). -/
def repCount (f : FormR) : Nat := if f.count = 0 then 64 else f.count.toNat

/-- The target in one iteration (R82). -/
def iteration (op : Nat) (form : Form) (st : Int × Int × Int) (i : Nat) : Option Instr :=
  (stepForm form (st.1 * i) (st.2.1 * i) (st.2.2 * i)).bind fun g =>
    if (Legal.reason op g).isSome then none else Decode.ofForm op g

/-- A checked unit: the target's opcode, form and length (R83), or the reason and the word to record. -/
def State.repUnit (s : State) (core pc : Nat) (f : FormR) (word : Word) : Except (Nat × Word) (Nat × Form × Nat) :=
  let ws := s.wordsFrom core (pc + 1)
  match Decode.decodeAt (pc + 1) ws with
  | .error r => if ws.isEmpty || r = 10 then .error (r, word) else .error (r, ws.headD 0)
  | .ok (i, len) =>
    match i.form? with
    | none => .error (10, word)
    | some (op, form) =>
      let st := (repSteps f)
      let u := stepUses op form
      let bad := f.mbz ≠ 0 || f.len ≠ 0 || !repOpcode op || (st.1 ≠ 0 && !u.1) || (st.2.1 ≠ 0 && !u.2.1) || (st.2.2 ≠ 0 && !u.2.2)
        || (List.range (repCount f)).any fun i => (iteration op form st i).isNone
      if bad then .error (10, word) else .ok (op, form, len)

/-- The threads of the run stand at an iteration of their unit. -/
def State.atIteration (s : State) (i : Nat) : State :=
  s.modBand s.issue.key fun b => b.modThreads s.issue.threads fun _ th => { th with rep := i }

/-- The end of a unit: the threads of the run move past REP and its target (R82). -/
def State.endUnit (s : State) (len : Nat) : State :=
  let r := s.issue
  s.modBand r.key fun b => b.modThreads r.threads fun _ th => { th with pc := (r.pc + 1 + len) % 65536, rep := 0 }

/-- The iterations of a unit from i on, n of them (R82, R84, R85): a held iteration keeps the run at i, a trap or fault
ends it, and a band operation parks it. -/
def repLoop (op : Nat) (form : Form) (st : Int × Int × Int) (len : Nat) : Nat → Nat → State → Out
  | 0, _, s => .next (s.endUnit len)
  | n + 1, i, s =>
    match iteration op form st i with
    | none => .next s
    | some t =>
      match execTarget t { s with issue := { s.issue with rep := i, inRep := true }, fresh := s.fresh + 1 } with
      | .next s1 =>
        if s1.issue.held then .next (s1.atIteration i)
        else if s1.issue.ended || waitsForBand op then .next s1
        else repLoop op form st len n (i + 1) s1
      | o => o

/-- REP with its target (R81 to R85). -/
def execRep (f : FormR) (s : State) : Out :=
  s.withBand fun _ =>
    match s.repUnit s.issue.core s.issue.pc f s.issue.word with
    | .error (r, w) => .error (illInsn r w)
    | .ok (op, form, len) =>
      match repLoop op form (repSteps f) len ((repCount f) - s.issue.rep) s.issue.rep s with
      | .next s1 => .ok s1
      | _ => .ok s

/-- The reason and word of a refused REP word: its target's own reason where that is lower (R83, R87). -/
def State.repRefusal (s : State) (core pc : Nat) (word : Word) : Nat × Word :=
  match s.repUnit core pc (Decode.formR word) word with
  | .error q => q
  | .ok _ => (10, word)

/-! ### Completing issues -/

/-- The completed instance of a band that issues first: the first key, then the lowest iteration (R267, R268). -/
def Band.firstDone (b : Band) : Option Done := minBy (fun d : Done => (255 - d.depth) * 2 ^ 24 + d.pc * 64 + d.rep) b.done

/-- The issue register for the completing issue of an instance. -/
def State.issueDone (s : State) (k : Nat) (d : Done) (word : Word) (len : Nat) (inRep : Bool) : State :=
  { s with issue := { core := keyCore k, lane := keyLane k, slot := keySlot k, threads := d.present, pc := d.pc, depth := d.depth,
                      word := word, len := len, rep := d.rep, inRep := inRep } }

/-- The completing issue of an instruction outside a unit. -/
def State.completeInstr (s : State) (i : Instr) (d : Done) : Rd State :=
  match i with
  | .csave f => s.completeCsave (viewX f) d
  | .crest f => s.completeCrest (viewX f) d
  | _ => (s.completeOp i d).getD (.ok s)

/-- After an iteration of a unit has completed: its threads arrive at the next within the same issue, in a halted band too, or the
unit ends (R84, R85). -/
def State.continueUnit (s : State) (op : Nat) (form : Form) (f : FormR) (len : Nat) (d : Done) : State :=
  if d.rep + 1 < (repCount f) then
    let s1 := s.atIteration (d.rep + 1)
    match iteration op form (repSteps f) (d.rep + 1) with
      | none => s1
      | some t => match execTarget t { s1 with issue := { s1.issue with rep := d.rep + 1 } } with
        | .next s2 => s2
        | _ => s1
  else s.endUnit len

/-- The completing issue of an instance of a band (R149, R152, R268). -/
def State.completing (s : State) (k : Nat) (d : Done) : Out :=
  let core := keyCore k
  match Decode.decodeAt d.pc (s.wordsFrom core d.pc) with
  | .error _ => .next s
  | .ok (i, len) =>
    let w := (s.wordAt core d.pc).getD 0
    match i with
    | .rep f =>
      match s.repUnit core d.pc f w with
      | .error _ => .next s
      | .ok (op, form, tlen) =>
        match iteration op form (repSteps f) d.rep with
        | none => .next s
        | some t =>
          let s1 := s.issueDone k d w len true
          match (s1.completeOp t d).getD (.ok s1) with
          | .error e => .next (s1.stopRun e)
          | .ok s2 =>
            let s3 := s2.continueUnit op form f tlen d
            .next (if s3.issue.held then s1.hold else s3)
    | _ =>
      let s1 := s.issueDone k d w len false
      s1.finish (s1.completeInstr i d)

end Sys2Proof.Machine
end

