-- ==== Sys2Proof/Machine/Grid.lean ====
section
/-!
DEFINITION. Sys2Proof/Machine/Grid.lean: deliveries between devices (R435, R436): their tokens and owners, what their outcome
completes on the sender, their way to a Kiln link (R466, R468), their arrival, and plain grid copies at the target (R437).
-/
namespace Sys2Proof.Machine

/-! ### Numbers of a delivery on a link -/

/-- The code of a cargo in a flit (the model's own, log entry 13). -/
def Cargo.code : Cargo → Nat
  | .copy => 0
  | .contribution => 1
  | .block => 2
  | .gradient => 3
  | .command => 4
  | .fresh => 5
  | .tag => 6
  | .outcome => 7
  | .finished => 8
  | .shoot => 9
  | .shootAck => 10

/-- The cargo of a code. -/
def Cargo.of (n : Nat) : Option Cargo :=
  [Cargo.copy, .contribution, .block, .gradient, .command, .fresh, .tag, .outcome, .finished, .shoot, .shootAck][n]?

/-- The numbers of a delivery's payload in a flit (log entry 13). -/
def Delivery.numbers (d : Delivery) : List Nat :=
  [d.cargo.code, d.src, d.dst, d.lane, d.flight, d.team, d.gkey, d.token, d.poster.length, d.args.length] ++ d.poster ++ d.args
    ++ d.els.flatMap fun p => [p.1, p.2]

/-- Pairs of a list of numbers. -/
def pairsOf : List Nat → List (Nat × Nat)
  | a :: b :: r => (a, b) :: pairsOf r
  | _ => []

/-- The delivery of a flit's payload. -/
def Delivery.of (l : List Nat) : Option Delivery :=
  match l with
  | c :: src :: dst :: lane :: flight :: team :: gkey :: token :: np :: na :: r =>
    (Cargo.of c).map fun c =>
      { cargo := c, src := src, dst := dst, lane := lane, flight := flight, team := team, gkey := gkey, token := token, poster := r.take np,
        args := (r.drop np).take na, els := pairsOf (r.drop (np + na)) }
  | _ => none

/-- Argument i of a delivery. -/
def Delivery.arg (d : Delivery) (i : Nat) : Nat := d.args.getD i 0

/-! ### Tokens: what an outcome completes -/

/-- A copy, an epilogue block, a node command and a subscription as a token. -/
def tokCopy (copy : Nat) : Nat := 4 * copy
def tokBlock (cluster block : Nat) : Nat := 4 * (cluster * 2 ^ 40 + block) + 1
def tokCmd (post : Nat) : Nat := 4 * post + 2
def tokSub (die sub : Nat) : Nat := 4 * (die * 2 ^ 32 + sub) + 3

/-- The owner of a delivery in fault records (R495). -/
def Delivery.owner (d : Delivery) : FaultNote :=
  match d.poster with
  | [ctx, uid, pc, thread, core] => postedBy d.flight ctx uid pc thread core
  | ctx :: _ => unposted d.flight ctx
  | [] => unposted d.flight 0

/-- The owner of an entry as a delivery carries it. -/
def Entry.poster (e : Entry) : List Nat := if e.ring then [e.ctx] else [e.ctx, e.uid, e.pc, e.thread, e.core]

/-- The owner of a copy as a delivery carries it. -/
def Copy.poster (c : Copy) : List Nat := [c.ctx, uidOf c.flight c.team c.bandid, c.pc, c.thread, c.core]

/-- The node of a die, and it changed. -/
def State.node (s : State) (d : Nat) : Node := Tbl.get s.nodes d {}
def State.modNode (s : State) (d : Nat) (f : Node → Node) : State := { s with nodes := Tbl.put s.nodes d (f (s.node d)) }

/-- The finish of an instance reported to a copy unit (R441, R443): the lowest unfinished instance rises, and an entry with
nothing in flight is freed. -/
def State.finishInstance (s : State) (dst inst rank : Nat) : State :=
  let up (k : PKey) : PKey :=
    if k.dst = dst then
      let waits := k.waits.filter (· ≠ (inst, rank))
      { k with waits := waits, lowi := (waits.map (·.1)).foldl min k.nexti }
    else k
  { s with clusters := s.clusters.map fun p => (p.1, { p.2 with pkeys := (p.2.pkeys.map up).filter fun k => k.lowi ≠ k.nexti }) }

/-- The count that a delivery holds open completes (R435): for its copy the rank has accepted it; its block is accepted; its
command has its status; its subscription has one delivery less in flight. -/
def State.settle (s : State) (token rank status : Nat) : State :=
  let n := token / 4
  match token % 4 with
  | 0 => match Tbl.find? s.copies n with
    | some c =>
      let s1 : State := { s with copies := Tbl.put s.copies n { c with waits := c.waits.filter (· ≠ rank) } }
      match c.pers with
      | some p => s1.finishInstance p.1 p.2 rank
      | none => s1
    | none => s
  | 1 => s.modBlock (n / 2 ^ 40) (n % 2 ^ 40) fun b => { b with done := 1024 }
  | 2 => match Tbl.find? s.posts n with
    | some p => { s with posts := Tbl.put s.posts n { p with reply := some status } }
    | none => s
  | _ => s.modNode (n / 2 ^ 32) fun g => match Tbl.find? g.subs (n % 2 ^ 32) with
    | some u => { g with subs := Tbl.put g.subs (n % 2 ^ 32) { u with flying := u.flying - 1 } }
    | none => g

/-- The destination address that a record of a delivery names. -/
def Delivery.target (d : Delivery) : Nat :=
  match d.cargo with
  | .contribution | .block => d.arg 0
  | .fresh => d.arg 4
  | _ => (d.els.headD (0, 0)).1

/-- A delivery that cannot reach its rank: a GRIDDEAD record, and its count completes (R435, R447). -/
def State.dead (s : State) (d : Delivery) : State :=
  match d.cargo with
  | .outcome | .finished | .tag | .shoot | .shootAck => s
  | _ =>
    let s1 := ({ s with flying := s.flying.filter fun e => !(e.token = d.token && e.dst = d.dst) }.asyncFault d.owner 24 d.target d.dst 0 false).settle
      d.token d.dst 0xFFFFFFFF
    if d.cargo = .contribution && d.arg 3 = 1 then s1.finishInstance (d.arg 0 + 64) (d.arg 4) d.dst else s1

/-- Whether a rank can receive deliveries (R432, R435). -/
def State.alive (s : State) (rank : Nat) : Bool := Tbl.get s.gridMap rank 0 = 1

/-! ### The way onto a link (R466, R468) -/

/-- A link. -/
def State.link (s : State) (n : Nat) : Link := Tbl.get s.links n {}
/-- A link set. -/
def State.setLink (s : State) (n : Nat) (l : Link) : State := { s with links := Tbl.put s.links n l }
/-- Whether a link carries flits. -/
def Link.up (l : Link) : Bool := l.state = 2 || l.state = 3

/-- The link that a delivery leaves on (R468): none while its entry is zero. -/
def State.linkFor (s : State) (d : Delivery) : Option Nat :=
  let ls := members (Tbl.get s.routes d.dst 0) 16
  if ls.isEmpty then none else ls[d.lane % ls.length]?

/-- A data flit of a link, as the port sends it. -/
def State.sendFlit (s : State) (link seq : Nat) (d : Delivery) : State :=
  s.emit ([9, link, 1, d.dst, seq, (s.link link).rxSeq] ++ d.numbers)

/-- An acknowledgement flit of a link. -/
def State.sendAck (s : State) (link : Nat) : State := s.emit [9, link, 2, (s.link link).peer, 0, (s.link link).rxSeq]

/-- The deliveries of a list that a link can carry leave, in order; one that waits holds back those of its rank and lane. -/
def State.pumpList (s : State) (held : List (Nat × Nat)) : List Delivery → State × List Delivery
  | [] => (s, [])
  | d :: r =>
    let stay (s : State) : State × List Delivery :=
      let q := s.pumpList ((d.dst, d.lane) :: held) r
      (q.1, d :: q.2)
    if held.contains (d.dst, d.lane) then stay s
    else match s.linkFor d with
      | none => stay s
      | some n =>
        let l := s.link n
        if !l.up || 4096 ≤ l.sent.length then stay s
        else
          let s1 := s.setLink n { l with txSeq := (l.txSeq + 1) % 65536, sent := l.sent ++ [(l.txSeq, d)], flittx := (l.flittx + 1) % 2 ^ 64 }
          (s1.sendFlit n l.txSeq d).pumpList held r

/-- Waiting deliveries leave as links allow. -/
def State.pump (s : State) : State :=
  let q := ({ s with outq := [] } : State).pumpList [] s.outq
  { q.1 with outq := q.2 }

/-- A delivery handed to the links. -/
def State.enqueue (s : State) (d : Delivery) : State := ({ s with outq := s.outq ++ [d] } : State).pump

/-! ### Outcomes (R435, R436) -/

/-- The outcome of a delivery at its sender: a record where a reason is named, the bytes that a node wrote for a command, and
the count. -/
def State.applyOutcome (s : State) (d : Delivery) : State :=
  let s0 : State := { s with flying := if d.arg 0 = 1 then s.flying.filter fun e => !(e.token = d.token && e.dst = d.src) else s.flying }
  let s1 := if d.arg 1 ≠ 0 then s0.asyncFault d.owner (d.arg 1) (d.arg 2) (d.arg 3) (d.arg 4) false else s0
  let s2 := d.els.foldl (fun s p => (s.vaWrite (d.poster.headD 0) p.1 (d.arg 6) p.2 needW).getD s) s1
  if d.arg 0 = 1 then s2.settle d.token d.src (d.arg 5) else s2

/-- A tag set for a team by a subscription (R455): on its core while it is resident; in TIMG of its record, with a PEER trigger, while it
is absent; dropped where its flight has ended. -/
def State.setTag (s : State) (flight team ctx tag dst : Nat) : State :=
  match s.placeOfTeam flight team with
  | .resident core pair _ =>
    let up (s : State) (c : Nat) : State := s.modCore c fun x => { x with tags := if bitOf x.tags tag then x.tags else x.tags + 2 ^ tag }
    if pair then up (up s core) (core + 1) else up s core
  | .absent rec' =>
    let t := s.fwRead (rec' + 32) 8
    ((s.fwWrite (rec' + 32) 8 (if bitOf t tag then t else t + 2 ^ tag)).makeRunnable flight team).trigger ctx 4 0 team dst
  | _ => s

/-- A delivery has reached its device. -/
def State.arriveHere (s : State) (d : Delivery) : State :=
  match d.cargo with
  | .outcome => s.applyOutcome d
  | .finished => s.finishInstance (d.arg 0) (d.arg 1) d.src
  | .tag => s.setTag d.flight d.team (d.arg 2) (d.arg 3) (d.arg 4)
  | _ => { s with inbox := Tbl.put s.inbox s.nextId d, nextId := s.nextId + 1 }

/-- A message about a delivery sent back to its device. -/
def State.sendBack (s : State) (d : Delivery) : State :=
  if d.dst = s.rank then s.arriveHere d else if s.alive d.dst then s.enqueue d else s

/-- The outcome of a delivery reported to its sender: whether its count completes, the reason of a record or 0 with the values
it names, and for a command its status with the bytes written for it. -/
def State.report (s : State) (d : Delivery) (counts : Bool) (reason v0 v1 v2 : Nat) (status : Nat := 0) (z : Nat := 0)
    (els : List (Nat × Nat) := []) : State :=
  s.sendBack { cargo := .outcome, src := s.rank, dst := d.src, lane := d.lane, flight := d.flight, team := d.team, token := d.token,
               poster := d.poster, args := [if counts then 1 else 0, reason, v0, v1, v2, status, z], els := els }

/-- A delivery has reached its device; a block with KIND 2 is accepted once the link unit has buffered it (R312). -/
def State.deliver (s : State) (d : Delivery) : State :=
  let s1 := s.arriveHere d
  if d.cargo = .block then s1.report d true 0 0 0 0 else s1

/-- A delivery sent: to this device at once, to another over the links, or dropped (R435). -/
def State.ship (s : State) (d : Delivery) : State :=
  if d.dst = s.rank then s.deliver d
  else if s.alive d.dst then ({ s with flying := s.flying ++ [d] } : State).enqueue d
  else s.dead d

/-! ### At the target (R436, R437) -/

/-- The context of this device that holds a grid key (R436). -/
def State.ctxOfKey (s : State) (gkey : Nat) : Option Nat := (List.find? (fun p : Nat × Ctx => p.2.gkey = gkey) s.ctxs).map (·.1)

/-- A delivery leaves the link unit. -/
def State.dropDelivery (s : State) (msg : Nat) : State := { s with inbox := Tbl.del s.inbox msg }

/-- The next element of a plain copy performed at its home slice; a page that is not mapped is requested and waited for. Its end queues a PEER
trigger (R408, R410). -/
def State.copyElementIn (s : State) (msg ctx : Nat) (d : Delivery) : State :=
  match d.els[d.next]? with
  | none => ((s.dropDelivery msg).trigger ctx 4 0 0xFFFFFFFF (d.els.headD (0, 0)).1).report d true 0 0 0 0
  | some (va, x) =>
    let z := d.arg 0
    match firstFail (s.ctxRanges ctx) needW va z with
    | some _ => (s.dropDelivery msg).report d true 26 va s.rank 0
    | none => match s.firstUnmapped ctx va needW true z, s.vaWrite ctx va z x needW with
      | none, some s1 => { s1 with inbox := Tbl.put s1.inbox msg { d with next := d.next + 1 } }
      | some ia, _ => s.pageRequest ia ctx 1
      | _, _ => s

/-- Bytes of fresh blocks written for a node of another device (R455): args die and number, CTXID, bytes, address, value, step, TENS,
DST. -/
def State.freshIn (s : State) (msg : Nat) (d : Delivery) : State :=
  let ctx := d.arg 2
  let z := d.arg 3
  let va := d.arg 4
  match firstFail (s.ctxRanges ctx) needW va z with
  | some _ =>
    let s1 := if (s.flight? d.flight).isSome then s.asyncFault (unposted d.flight ctx) 29 (d.arg 8) (d.arg 7) (d.arg 6) false else s
    (s1.dropDelivery msg).report d true 0 0 0 0
  | none => match s.firstUnmapped ctx va needW true z, s.vaWrite ctx va z (d.arg 5) needW with
    | none, some s1 => ((s1.dropDelivery msg).trigger ctx 4 0 d.team (d.arg 8)).report d true 0 0 0 0
    | some ia, _ => s.pageRequest ia ctx 1
    | _, _ => s

/-- GRID_DELIVERY (R436, R437): a delivery is translated through the context that holds its key, and the next element of a
plain copy performed; or it is dropped with a record for its sender. Contributions and blocks go on to CONTRIBUTION_ARRIVAL. -/
def execGridDelivery (msg : Nat) (s : State) : Out :=
  match Tbl.find? s.inbox msg with
  | none => .next s
  | some d =>
    match d.cargo with
    | .fresh => .next (s.freshIn msg d)
    | .copy | .contribution | .block =>
      match s.ctxOfKey d.gkey with
      | none => .next ((s.dropDelivery msg).report d (d.cargo ≠ .block) 25 d.target s.rank 0)
      | some ctx => if d.cargo = .copy then .next (s.copyElementIn msg ctx d) else .next s
    | _ => .next s

end Sys2Proof.Machine
end

