-- ==== Sys2Proof/Machine/EngineSteps.lean ====
section
/-!
DEFINITION. Sys2Proof/Machine/EngineSteps.lean: sends of the epilogue (R247, R312), the stop and repost of operations (R309, R404),
the first-use trap (R403), the release of counts (R311), and the command ring (R314 to R318).
-/
namespace Sys2Proof.Machine

/-! ### Sends (R311, R312, R444) -/

/-- The grid rank of coordinates packed as x, y, z from bit 0 (R217, R255, R435). -/
def rankOf (c : Nat) : Nat := c % 4096

/-- The delivery of a block to the peer that a routing register names (R312, R435, R444). -/
def State.blockDelivery (s : State) (cl n : Nat) (e : Entry) (x : Mma) (b : Block) (route : Nat) : Delivery :=
  let gkey := match s.ctx? e.ctx with | some c => c.gkey | none => 0
  let codes := b.codes.getD []
  let base : Delivery :=
    { cargo := .block, src := s.rank, dst := rankOf (bits route 15 4), lane := cl % 4, flight := e.flight, team := e.team, gkey := gkey,
      token := tokBlock cl n, poster := e.poster }
  if route % 4 = 3 then
    { base with cargo := .gradient, args := [bits route 33 32, bits route 31 16, bits route 63 40 + b.mt * x.nb + b.nt, bits route 95 64],
                els := codes.map fun y => (0, y) }
  else
    { base with args := [bits route 127 64, bits route 39 36, x.z, 0, 0],
                els := codes.zipIdx.map fun p => (x.elementAt (bits route 127 64 + 64) b p.2, p.1) }

/-- EPILOGUE_SEND (R311): a block enters the send stage once it has left the resolve stage and the blocks before it have left the send stage.
Elements for this device's scratchpad and memory leave one by one. -/
def execEpilogueSend (cluster block : Nat) (s : State) : Out :=
  let q := (s.eng cluster).epilogue
  match q.find? fun p => p.1 = block with
  | none => .next s
  | some (_, b) =>
    if b.codes.isNone || b.sent || q.any (fun p => p.1 < block && !p.2.leftSend) then .next s
    else match Tbl.find? (s.eng cluster).table b.entry with
      | none => .next s
      | some e => match e.op with
        | .mma pb =>
          let x := mmaOf pb
          let s1 := s.modBlock cluster block fun b => { b with sent := true }
          let route := Tbl.get (s.eng cluster).routes (8 * e.ctx + x.rreg) 0
          .next (if x.dest = 0 then s1.modBlock cluster block fun b => { b with done := 1024 }
                 else if x.dest = 3 && route % 4 ≠ 1 then
                   (s1.modBlock cluster block fun b => { b with shipped := true }).ship (s.blockDelivery cluster block e x b route)
                 else s1)
        | _ => .next s

/-- An epilogue block's next element performed at its destination: at a slice, or at a scratchpad bank. -/
def State.engineBlock (s : State) (cl n : Nat) (bank : Bool) : State :=
  match (s.eng cl).epilogue.find? fun p => p.1 = n with
  | none => s
  | some (_, b) => match Tbl.find? (s.eng cl).table b.entry with
    | none => s
    | some e => match e.op with
      | .mma pb =>
        let x := mmaOf pb
        let route := Tbl.get (s.eng cl).routes (8 * e.ctx + x.rreg) 0
        let here := x.dest = 2 || (x.dest = 3 && route % 4 = 1)
        if b.sent && decide (b.done < 1024) && (if bank then decide (x.dest = 1) else here) then s.sendElement cl n b e x else s
      | _ => s

/-! ### Stops and reposts (R309, R404) -/

/-- Whether every operation of a context has come to rest on an engine: no pass in progress, no slot-unit entry half done, no
block in the epilogue. -/
def Engine.atRest (g : Engine) (ctx : Nat) : Bool :=
  !(g.live.any fun p => p.2.ctx = ctx && (p.2.passing || (p.2.started && !p.2.op.onArray) || p.2.passesDone))

/-- An entry removed from the table (R309): an MMA leaves STOP and its PROG with its output slots, where no earlier one has; the wait of a
ring's command that has not been posted is to be tested again (R318). -/
def State.removeEntry (s : State) (cl n : Nat) (e : Entry) : State :=
  let s1 := match e.op with
    | .mma pb => if e.waits then s else
        (List.range (mmaOf pb).blocks).foldl (fun (s : State) m => s.modSlot cl ((mmaOf pb).slotOf m) fun a =>
          if a.stop && !e.started then a else { a with stop := true, prog := e.prog }) s
    | _ => s
  s1.modEng cl fun g =>
    { g with table := Tbl.del g.table n
             removed := g.removed ++ [(e.ctx, { e with started := false, begun := e.begun || e.started })]
             ring := if e.ring && g.ring.entry = some n then
                 { g.ring with entry := none, waited := if e.waits then g.ring.cmd.any fun c => pbBytes c 65 65 = 0 else g.ring.waited }
               else g.ring }

/-- The stop of a context's operations on an engine, as far as it can go now; true once it is complete (R309, R318). -/
def State.stopEngine (s : State) (cl ctx : Nat) : State × Bool :=
  let s1 := s.modEng cl fun g =>
    { g with stopping := if g.stopping.contains ctx then g.stopping else g.stopping ++ [ctx]
             ring := if g.ring.owner = some ctx then { g.ring with stopped := true } else g.ring }
  if (s1.eng cl).atRest ctx then
    (((s1.eng cl).live.filter fun p => p.2.ctx = ctx).foldl (fun s p => s.removeEntry cl p.1 p.2) s1, true)
  else (s1, false)

/-- A removed entry posted again (R309): a ring entry stays the ring's. -/
def State.postAgain (s : State) (cl : Nat) (e : Entry) : State :=
  s.modEng cl fun g =>
    { g with table := Tbl.put g.table g.nextEntry { e with posted := (s.die (clusterDie cl)).cycle, prom := false, since := g.nextEntry }
             nextEntry := g.nextEntry + 1
             ring := if e.ring && g.ring.owner = some e.ctx then { g.ring with entry := some g.nextEntry } else g.ring }

/-- The address of a context's engine section (R389). -/
def Ctx.section (c : Ctx) (cl : Nat) : Nat := c.csabase + 2304 * cl

/-- A free 12 KiB unit of a spill pool (R407); which one is the firmware's choice (log entry 7). -/
def Ctx.spillUnit (c : Ctx) (salt : Nat) : Option Nat :=
  let free := (List.range (c.spsize / 12288)).filter fun i => !c.spills.any fun p => p.2.1 = c.spbase + 12288 * i
  (free[salt % max free.length 1]?).map fun i => c.spbase + 12288 * i

/-- A list of values of z bytes each written from a physical address on, by firmware. -/
def State.fwWriteList (s : State) (pa z : Nat) (l : List Nat) : State := l.zipIdx.foldl (fun s p => s.fwWrite (pa + p.2 * z) z p.1) s

/-- n values of z bytes each from a physical address on. -/
def State.fwReadList (s : State) (pa z n : Nat) : List Nat := (List.range n).map fun i => s.fwRead (pa + i * z) z

/-- Step 2 of R403: a slot saved into its owner's engine section; none where the spill pool has no free unit. -/
def State.spillSlot (s : State) (cl n owner : Nat) : Option State :=
  let a := (s.eng cl).slot n
  let form := match a.val with | .empty => 0 | .raw _ => 2 | .wide _ => 2 | .resolved bf _ => if bf then 4 else 3
  if form = 0 then some s
  else match s.ctx? owner with
    | none => some s
    | some c => (c.spillUnit (Config.pick s.fresh n)).map fun u =>
      let s1 := s.fwWriteList u (formBytes form) (a.val.image form 0 { seed := 0, tid := 0, ctr := 0 }).1
      let dir := c.section cl + 256 + 16 * n
      (s1.fwWrite dir 16 (a.metaWord + 2 ^ 32 + u * 2 ^ 64)).modCtx owner fun c => { c with spills := Tbl.put c.spills (128 * cl + n) (u, a.metaWord) }

/-- The slots of a context on a cluster that is being powered off are spilled to it (R482); those that its pool has no room for stay. -/
def State.retireSlots (s : State) (cl ctx : Nat) : State :=
  ((List.range 128).filter fun n => ((s.eng cl).slot n).owner = some ctx).foldl (fun (s : State) n =>
    match s.spillSlot cl n ctx with
    | some s1 => s1.modSlot cl n fun _ => {}
    | none => s) s

/-- ENGINE_STOP_REQUEST (R309): the stop of a context's operations goes as far as it can; on a disabled cluster its slots then leave
(R482). -/
def execEngineStopRequest (cluster ctx : Nat) (s : State) : Out :=
  let q := s.stopEngine cluster ctx
  .next (if q.2 && (s.cluster cluster).disabled then q.1.retireSlots cluster ctx else q.1)

/-- Step 4 of R403: the present image of a context's slot loaded, with its metadata word; an absent one leaves EMPTY. -/
def State.loadSpill (s : State) (cl n ctx : Nat) : State :=
  match (s.ctx? ctx).bind fun c => (Tbl.find? c.spills (128 * cl + n)).map fun p => (c, p) with
  | none => s.modSlot cl n fun _ => { owner := some ctx }
  | some (c, u, word) =>
    let form := if bits word 31 30 = 3 then (if bitOf word 29 then 4 else 3) else 2
    let v := slotOfImage form (s.fwReadList u (formBytes form) 1024)
    let s1 := s.modSlot cl n fun _ => { val := v, stop := bitOf word 28, prog := word % 65536, owner := some ctx }
    let dir := c.section cl + 256 + 16 * n
    (s1.fwWrite (dir + 4) 1 0).modCtx ctx fun c => { c with spills := Tbl.del c.spills (128 * cl + n) }

/-- Steps 2 to 5 of R403 for one slot: none where the owner's pool is full. -/
def State.takeSlot (s : State) (cl n ctx : Nat) : Option State :=
  match ((s.eng cl).slot n).owner with
  | none => some (s.modSlot cl n fun a => { a with owner := some ctx })
  | some o => if o = ctx then some s else (s.spillSlot cl n o).map fun s1 => s1.loadSpill cl n ctx

/-- The slots of an entry that another context owns. -/
def State.foreignSlots (s : State) (cl : Nat) (e : Entry) : List Nat :=
  e.op.slots.filter fun n => match ((s.eng cl).slot n).owner with | some o => o ≠ e.ctx | none => false

/-- Whether some unretired operation of another context, in the table or removed by a stop, names one of some slots. -/
def Engine.namedByOther (g : Engine) (ctx : Nat) (ns : List Nat) : Bool :=
  g.live.any (fun q => !q.2.waits && q.2.op.slots.any ns.contains) || g.removed.any fun q => q.1 ≠ ctx && !q.2.waits && q.2.op.slots.any ns.contains

/-- The removed entries of a context posted again in their order (R309, R404); `back` also takes back slots that no operation
of their new owner names any more. Entries that must wait stay removed, and so does a ring's whose ring does not stand here (R318). -/
def State.repost (s : State) (cl ctx : Nat) (back : Bool) : State :=
  let g := s.eng cl
  let s0 := s.modEng cl fun g =>
    { g with stopping := g.stopping.filter (· ≠ ctx), removed := g.removed.filter fun p => p.1 ≠ ctx
             ring := if g.ring.owner = some ctx then { g.ring with stopped := false } else g.ring }
  (g.removed.filter fun p => p.1 = ctx).foldl (fun s p =>
    let keep := s.modEng cl fun g => { g with removed := g.removed ++ [p] }
    let fs := if p.2.waits then [] else (List.range 128).filter (s.foreignSlots cl p.2).contains
    if p.2.ring && (s.eng cl).ring.owner ≠ some ctx then keep
    else if fs.isEmpty then s.postAgain cl p.2
    else if !back || (s.eng cl).namedByOther ctx fs then keep
    else match fs.foldl (fun o n => o.bind fun s => s.takeSlot cl n ctx) (some s) with
      | some s1 => s1.postAgain cl p.2
      | none => keep) s0

/-- The contexts whose removed entries firmware may post again: those not switched out and not being stopped. -/
def State.repostAll (s : State) (cl : Nat) : State :=
  let g := s.eng cl
  let cs := ((g.removed.map (·.1)).eraseDups).filter fun c =>
    !g.stopping.contains c && match s.ctx? c with | some x => !x.switchedOut | none => false
  cs.foldl (fun s c => s.repost cl c true) s

/-- TL_RELEASE (R311): four engine cycles after its retirement an operation's count is released. -/
def execTlRelease (cluster entry : Nat) (s : State) : Out :=
  match Tbl.find? (s.eng cluster).table entry with
  | none => .next s
  | some e =>
    let ring := (s.eng cluster).ring
    if !e.retired then .next (if e.passesDone && e.blocksLeft = 0 && !s.unitFlying (agentEngine cluster) entry then s.retireEntry cluster entry else s)
    else if e.posted + 4 ≤ (s.die (clusterDie cluster)).cycle ∧ !((ring.frees ++ ring.dones).any fun w => w.entry = entry) then
      .next ((s.tlRelease cluster entry e).repostAll cluster)
    else .next s

/-- What comes of the firmware's work for an operation that names slots of other contexts (R403, R407). -/
inductive FirstUse where
  /-- the operations of an owner have not come to rest -/
  | waits (s : State)
  /-- every slot is the context's or unowned -/
  | done (s : State)
  /-- the spill pool of a slot's owner has no room -/
  | full (s : State) (slot owner : Nat)
  deriving DecidableEq, Repr

/-- The firmware's work on slots that other contexts own (R403): in ascending slot number. -/
def State.firstUse (s : State) (cl ctx : Nat) (slots : List Nat) : FirstUse :=
  let owners := (slots.filterMap fun n => ((s.eng cl).slot n).owner).eraseDups.filter (· ≠ ctx)
  let q := owners.foldl (fun (q : State × Bool) o => let r := q.1.stopEngine cl o; (r.1, q.2 && r.2)) (s, true)
  if !q.2 then .waits q.1
  else
    let go (o : Except (State × Nat) State) (n : Nat) : Except (State × Nat) State :=
      match o with
      | .error e => .error e
      | .ok s => match s.takeSlot cl n ctx with
        | some s1 => .ok s1
        | none => .error (s, n)
    let resume (s : State) : State :=
      (owners.filter fun o => match s.ctx? o with | some c => !c.switchedOut | none => true).foldl (fun s o => s.repost cl o false) s
    match ((List.range 128).filter slots.contains).foldl go (.ok q.1) with
    | .ok s1 => .done (resume s1)
    | .error (s1, n) => .full (resume s1) n ((((s1.eng cl).slot n).owner).getD 0)

/-- FIRST_USE_TRAP (R403): firmware handles the slots that a held tile operation names and others own; it waits until their
owners' operations have come to rest. -/
def execFirstUseTrap (band : Nat) (s : State) : Out :=
  match s.band? band with
  | none => .next s
  | some b =>
    match b.firstUse with
    | none => .next s
    | some (pc, thread, slots) =>
      let clear (s : State) : State := s.modBand band fun b => { b with firstUse := none }
      .next (match s.firstUse (coreCluster (keyCore band)) (s.bandCtx b) slots with
        | .waits s1 => s1
        | .done s1 => clear s1
        | .full s1 n owner => (clear s1).stopBand band { code := 9, pc := pc, btid := thread, aux0 := n, aux1 := owner })

/-! ### The command ring (R314 to R317) -/

/-- The ring of a cluster's engine changed. -/
def State.modRing (s : State) (cl : Nat) (f : Ring → Ring) : State := s.modEng cl fun g => { g with ring := f g.ring }

/-- Where the allocation of the ring's team stands, while it is resident on the cluster (R314). -/
def State.ringBase (s : State) (cl : Nat) : Option Nat :=
  match s.placeOfTeam (s.eng cl).ring.flight (s.eng cl).ring.team with
  | .resident core _ base => if coreCluster core = cl then some base else none
  | _ => none

/-- Fields of a command: CMD, WKIND, SIG, WADDR, WVAL, SOP (R314). -/
def cmdKind (c : Nat) : Nat := pbBytes c 64 64
def cmdWkind (c : Nat) : Nat := pbBytes c 65 65
def cmdSig (c : Nat) : Nat := pbBytes c 66 66
def cmdWaddr (c : Nat) : Nat := pbBytes c 71 68
def cmdWval (c : Nat) : Nat := pbBytes c 75 72
def cmdSop (c : Nat) : Nat := pbBytes c 87 84

/-- The record of the ring's team at an offset. -/
def Ring.ref (r : Ring) (a : Nat) : BarRef := { space := 1, team := r.team, addr := a }

/-- Whether a record at an offset serves a ring: inside the allocation, initialised by its flight, in count mode. -/
def State.ringRecord (s : State) (cl base a : Nat) : Bool :=
  let r := (s.eng cl).ring
  let bar := s.barGet (.scratch cl (base + a))
  decide (a + 32 ≤ r.ssize) && bar.init && decide (bar.flight = r.flight) && decide (bar.mode = 0)

/-- The form of a command (R314): true where it breaks the layout. -/
def cmdBad (c : Nat) : Bool :=
  let pb := c % 2 ^ 512
  let k := cmdKind c
  let sop := cmdSop c
  decide (5 < k) || decide (2 < cmdWkind c) || decide (4 ≤ cmdSig c) || pbBytes c 67 67 ≠ 0 || pbBytes c 127 88 ≠ 0
    || (cmdWkind c = 1 && cmdWaddr c % 32 ≠ 0) || (cmdWkind c = 2 && cmdWaddr c % 4 ≠ 0)
    || (bitOf (cmdSig c) 0 && pbBytes c 79 76 % 32 ≠ 0) || (bitOf (cmdSig c) 1 && pbBytes c 83 80 % 32 ≠ 0)
    || bitOf sop 7 || bits sop 15 14 ≠ 0 || bitOf sop 19 || bits sop 31 25 ≠ 0
    || decide (128 < bits sop 6 0 + bits sop 13 8 + 1) || decide (4 < bits sop 18 16) || decide (5 < bits sop 22 20)
    || (k = 3 && pb ≠ pbBytes pb 55 48 * 2 ^ 384) || ((k = 0 || k = 2 || k = 4 || k = 5) && pb ≠ 0)

/-- The check of a command at the ring's head (R316): the reason it faults the ring for. -/
def State.cmdFault (s : State) (cl base c : Nat) : Option Nat :=
  let g := s.eng cl
  let r := g.ring
  let ctx := r.owner.getD 0
  let f := s.flight? r.flight
  let x := mmaOf (c % 2 ^ 512)
  let sop := cmdSop c
  let n := (bits sop 13 8 + 1) * 1024 * (if bits sop 18 16 = 0 then 12 else formBytes (bits sop 18 16))
  let a := pbBytes c 55 48
  let beyond := if bitOf sop 24 then (firstBeyond a n r.ssize).isSome else (firstFail (s.ctxRanges ctx) needW a n).isSome
  if cmdBad c || (cmdWkind c = 2 && decide (r.ssize < cmdWaddr c + 4)) then some 1
  else if cmdKind c = 3 && (a % 64 ≠ 0 || beyond) then some 1
  else if cmdKind c = 1 && (pbBad (c % 2 ^ 512) (g.routeOf ctx x.rreg) ((f.map (·.teamb)).getD 1) ((f.map (·.bandw)).getD 16)
      || pbBeyond (c % 2 ^ 512) r.ssize (s.ctxRanges ctx)) then some 2
  else if (cmdWkind c = 1 && !s.ringRecord cl base (cmdWaddr c)) || (bitOf (cmdSig c) 0 && !s.ringRecord cl base (pbBytes c 79 76))
      || (bitOf (cmdSig c) 1 && !s.ringRecord cl base (pbBytes c 83 80)) then some 4
  else none

/-- The operation of a command (R315); none for NOP and HALT. -/
def cmdOp (c : Nat) : Option TileOp :=
  let sop := cmdSop c
  match cmdKind c with
  | 1 => some (.mma (c % 2 ^ 512))
  | 2 => some (.rslv (bits sop 6 0) (bits sop 13 8) (bitOf sop 23) (bits sop 22 20))
  | 3 => some (.acst (bits sop 6 0) (bits sop 13 8) (bits sop 18 16) (bits sop 24 24) (pbBytes c 55 48) (bits sop 22 20))
  | 4 => some (.acz (bits sop 6 0) (bits sop 13 8))
  | _ => none

/-- The entry of a ring command (R315), which waits: its draws have no thread, so that its source of H is undefined (log entry 14). -/
def State.ringEntry (s : State) (cl base c : Nat) : Entry :=
  let r := (s.eng cl).ring
  let op := (cmdOp c).getD .idle
  { op := op, waits := true, since := (s.eng cl).nextEntry, sig := cmdSig c, prio := r.epri, core := 4 * cl, lane := 0, slot := 0, ctx := r.owner.getD 0, flight := r.flight, team := r.team, sbase := base,
    ssize := r.ssize, posted := (s.die (clusterDie cl)).cycle, gid := 0, thread := 0, tidx := 0, rndseed := Config.freeNat s.fresh cl % 2 ^ 32,
    bandw := match s.flight? r.flight with | some f => f.bandw | none => 16, uid := uidOf r.flight r.team 255, ring := true,
    prog := match op with | .mma pb => (mmaOf pb).prog | _ => 0 }

/-- The command at the head fetched and checked (R315, R316): it is consumed and stands in the table as the ring entry, waiting. -/
def State.ringFetch (s : State) (cl kind base : Nat) : State :=
  let g := s.eng cl
  let r := g.ring
  let c := s.scratchRead cl (base + r.base + r.head % max r.entries 1 * 128) 128
  if r.tail ≤ r.head || 32 ≤ g.live.length || !(cmdKind c = kind || (kind = 0 && 5 < cmdKind c)) then s
  else
    let s1 := s.modRing cl fun r => { r with index := r.index + 1 }
    match s.cmdFault cl base c with
    | some reason => s1.ringFault cl reason
    | none => s1.modEng cl fun h =>
      { h with table := Tbl.put h.table g.nextEntry (s.ringEntry cl base c)
               nextEntry := g.nextEntry + 1
               ring := { h.ring with head := r.head + 1, cmd := some c, waited := decide (cmdWkind c = 0), entry := some g.nextEntry } }

/-- The operation of a command whose wait holds posted at this moment, with the first-use check, the claim of its unowned slots and the end of the
table as its place (R315, R402, R403); a full spill pool faults the ring (log entry 32). -/
def State.ringPost (s : State) (cl n : Nat) (e : Entry) : State :=
  let post (s : State) : State := s.modEng cl fun g =>
    { g.claim e.ctx e.op.slots with
      table := Tbl.put (Tbl.del g.table n) g.nextEntry { e with waits := false, posted := (s.die (clusterDie cl)).cycle }
      nextEntry := g.nextEntry + 1
      ring := { g.ring with entry := some g.nextEntry } }
  let foreign := s.foreignSlots cl e
  if foreign.isEmpty then post s
  else match s.firstUse cl e.ctx foreign with
    | .waits s1 => s1
    | .done s1 => post s1
    | .full s1 slot owner =>
      let s2 := s1.modEng cl fun g => { g with table := Tbl.del g.table n
                                               ring := { g.ring with faulted := true, head := g.ring.tail, cmd := none, waited := false, entry := none } }
      s2.asyncFault (unposted e.flight e.ctx) 9 0 slot owner false

/-- One step of the ring reader for a command of one kind (R315): it is fetched and checked, or, once its wait holds, its operation is posted; a
NOP ends, and a HALT stops the reader. -/
def State.ringStep (s : State) (cl kind : Nat) : State :=
  let r := (s.eng cl).ring
  match s.ringBase cl with
  | none => s
  | some base =>
    if r.owner.isNone || r.faulted || r.haltedByCmd || r.stopped then s
    else match r.cmd, r.entry with
      | none, _ => s.ringFetch cl kind base
      | some _, none => s
      | some c, some n => match Tbl.find? (s.eng cl).table n with
        | none => s
        | some e =>
          if cmdKind c ≠ kind || !r.waited || !e.waits then s
          else match cmdOp c with
            | some _ => s.ringPost cl n e
            | none =>
              let s1 := (s.modEng cl fun g => { g with table := Tbl.del g.table n }).ringEnd cl n
              if kind = 5 then s1.modRing cl fun r => { r with haltedByCmd := true } else s1

/-- RING_NOP, RING_MMA, RING_RSLV, RING_ACST, RING_ACZ and RING_HALT (R315). -/
def execRingNop (cluster : Nat) (s : State) : Out := .next (s.ringStep cluster 0)
def execRingMma (cluster : Nat) (s : State) : Out := .next (s.ringStep cluster 1)
def execRingRslv (cluster : Nat) (s : State) : Out := .next (s.ringStep cluster 2)
def execRingAcst (cluster : Nat) (s : State) : Out := .next (s.ringStep cluster 3)
def execRingAcz (cluster : Nat) (s : State) : Out := .next (s.ringStep cluster 4)
def execRingHalt (cluster : Nat) (s : State) : Out := .next (s.ringStep cluster 5)

/-- Whether the wait of a ring's command holds (R317). -/
def State.waitHolds (s : State) (r : Ring) (c : Nat) : Bool :=
  let at' : Option BarAt := s.barAt r.flight (r.ref (cmdWaddr c))
  match at' with
  | none => false
  | some p =>
    if cmdWkind c = 1 then phaseReached (s.barGet p).phase (cmdWval c)
    else decide (cmdWval c ≤ (match p with
      | .scratch cl off => s.scratchRead cl off 4
      | .saved pa => s.fwRead pa 4
      | .global ia pa => s.agentRead ia pa 4))

/-- The context whose stopped ring for a cluster, saved with it or still on the engine, has a wait that holds and no trigger for it yet
(R408). -/
def State.stoppedWait (s : State) (cl : Nat) : Option (Nat × Ring) :=
  let due (x : Ctx) (r : Ring) : Bool := !r.waited && r.cmd.any (s.waitHolds r) && !x.triggers.any fun t => t.1 = 3 && t.2.2.2 = cl
  List.findSome? (fun p : Nat × Ctx =>
    let r := if (s.eng cl).ring.owner = some p.1 && (s.eng cl).ring.stopped then some (s.eng cl).ring else Tbl.find? p.2.rings cl
    if p.2.switchedOut then r.bind fun r => if due p.2 r then some (p.1, r) else none else none) s.ctxs

/-- RING_WAIT_HOLDS (R317): the current command's wait holds; for a stopped ring it queues a trigger (R408). -/
def execRingWaitHolds (cluster : Nat) (s : State) : Out :=
  let r := (s.eng cluster).ring
  if !r.stopped && !r.waited && r.cmd.any (s.waitHolds r) then .next (s.modRing cluster fun r => { r with waited := true })
  else match s.stoppedWait cluster with
    | some (ctx, r) => .next (s.trigger ctx 3 cluster r.team cluster)
    | none => .next s

/-- One arrival of a ring command on a record (R317): made once the record's allocation can be reached. -/
def State.ringArrive (s : State) (w : Owed) : Option State :=
  let ref : BarRef := { space := 1, team := w.team, addr := w.addr }
  (s.barAt w.flight ref).map fun p => s.arrive w.flight ref p 0

/-- FREE_ARRIVAL (R317): the command's operand reads are done. -/
def execFreeArrival (cluster entry : Nat) (s : State) : Out :=
  match (s.eng cluster).ring.frees.find? fun w => w.entry = entry with
  | none => .next s
  | some w =>
    .next ((s.ringArrive w).map (fun s1 => s1.modRing cluster fun r => { r with frees := r.frees.filter fun w => w.entry ≠ entry }) |>.getD s)

/-- DONE_ARRIVAL (R317): the command has retired. -/
def execDoneArrival (cluster entry : Nat) (s : State) : Out :=
  match (s.eng cluster).ring.dones.find? fun w => w.entry = entry with
  | none => .next s
  | some w =>
    let retired := match Tbl.find? (s.eng cluster).table entry with | some e => e.retired | none => true
    if !retired then .next s
    else .next ((s.ringArrive w).map (fun s1 => s1.modRing cluster fun r => { r with dones := r.dones.filter fun w => w.entry ≠ entry }) |>.getD s)

end Sys2Proof.Machine
end

