-- ==== Sys2Proof/Machine/Copies.lean ====
section
/-!
DEFINITION. Sys2Proof/Machine/Copies.lean: tile copies (R217 to R221), grid copies with their persistent instances (R222, R443),
and overlay loads (R226, R227).
-/
namespace Sys2Proof.Machine

/-! ### Shape records (R217, R218) -/

/-- Bytes [hi:lo] of a record. -/
def recBytes (r hi lo : Nat) : Nat := r / 2 ^ (8 * lo) % 2 ^ (8 * (hi + 1 - lo))

/-- A shape record's fields (R217). -/
structure Tile where
  src : Nat
  dst : Nat
  ext : List Nat
  sstr : List Int
  dstr : List Int
  esz : Nat
  sspc : Nat
  dspc : Nat
  rop : Nat
  pers : Bool
  repl : Nat
  grid : Nat
  inst : Nat
  deriving DecidableEq, Repr

/-- The fields of a record. -/
def tileOf (r : Nat) : Tile :=
  { src := recBytes r 7 0, dst := recBytes r 15 8, ext := (List.range 4).map fun i => recBytes r (17 + 2 * i) (16 + 2 * i),
    sstr := (List.range 3).map fun i => signed (recBytes r (27 + 4 * i) (24 + 4 * i)) 32,
    dstr := (List.range 3).map fun i => signed (recBytes r (39 + 4 * i) (36 + 4 * i)) 32, esz := recBytes r 48 48,
    sspc := recBytes r 49 49 % 4, dspc := bits (recBytes r 49 49) 3 2, rop := recBytes r 50 50, pers := bitOf (recBytes r 51 51) 0,
    repl := recBytes r 53 52, grid := recBytes r 55 54, inst := recBytes r 59 56 }

/-- Bytes of an element. -/
def Tile.z (x : Tile) : Nat := 2 ^ x.esz
/-- The number of elements. -/
def Tile.total (x : Tile) : Nat := x.ext.foldl (· * ·) 1

/-- The displacement of element number n, in ascending i3, then i2, i1 and i0 (R217, R220). -/
def Tile.disp (x : Tile) (str : List Int) (n : Nat) : Int :=
  let e0 := max (x.ext.getD 0 1) 1
  let e1 := max (x.ext.getD 1 1) 1
  let e2 := max (x.ext.getD 2 1) 1
  (x.z * (n % e0) : Nat) + str.getD 0 0 * (n / e0 % e1 : Nat) + str.getD 1 0 * (n / (e0 * e1) % e2 : Nat) + str.getD 2 0 * (n / (e0 * e1 * e2) : Nat)

/-- The source and destination addresses of an element; an offset in a scratchpad or weight store has 32 bits (R188). -/
def Tile.srcAt (x : Tile) (n : Nat) : Nat := wrap ((x.src : Int) + x.disp x.sstr n) (if x.sspc = 0 then 64 else 32)
def Tile.dstAt (x : Tile) (n : Nat) : Nat := wrap ((x.dst : Int) + x.disp x.dstr n) (if x.dspc = 0 then 64 else 32)

/-- Whether a reduce operator does not go with an element size (R218). -/
def ropBad (rop esz : Nat) : Bool :=
  match rop with
  | 0 => false
  | 1 => esz ≠ 2
  | 2 => esz ≠ 1
  | 3 => esz ≠ 1 && esz ≠ 2
  | 4 => esz ≠ 1 && esz ≠ 2
  | _ => true

/-- Whether the unit rejects a record (R218): `wsw` is the weight-store write permission of R200. A grid copy goes to global
memory of its target (R436). -/
def Tile.bad (x : Tile) (r : Nat) (grid wsw : Bool) : Bool :=
  x.ext.any (· = 0) || decide (4 < x.esz) || decide (1 < x.sspc) || decide (2 < x.dspc) || bits (recBytes r 49 49) 7 4 ≠ 0 || bits (recBytes r 51 51) 7 1 ≠ 0
    || recBytes r 63 60 ≠ 0 || ropBad x.rop x.esz || bits x.grid 15 12 ≠ 0 || (!x.pers && x.inst ≠ 0)
    || (!grid && (x.repl ≠ 0 || x.grid ≠ 0 || x.pers)) || (grid && x.dspc ≠ 0) || (x.dspc = 2 && !wsw)
    || (List.range x.total).any fun n => x.srcAt n % x.z ≠ 0 || x.dstAt n % x.z ≠ 0

/-- The range check of a record's elements (R190, R218): true where some address fails. -/
def State.tileBeyond (s : State) (b : Band) (x : Tile) (grid : Bool) : Bool :=
  (List.range x.total).any fun n =>
    (s.checkAddr b x.sspc needX (x.srcAt n) x.z).isSome
      || (!grid && (s.checkAddr b x.dspc (if x.rop = 0 then needW else needXWA) (x.dstAt n) x.z).isSome)

/-! ### Records read by a held run (R220) -/

/-- The record of n bytes of each thread, read at the home slices: the range trap names the record's address, and a page that
is not mapped holds the band (R220, R201); the last component is the state that holds it. -/
def State.sliceRecords (s : State) (b : Band) (need : Need) (n : Nat) (as : List (Nat × Nat)) : Rd (Except State (List (Nat × Nat))) :=
  let rs := s.coreRanges s.issue.core
  let bad := as.filter fun p => (firstFail rs need p.2 n).isSome
  if as.any fun p => p.2 % 64 ≠ 0 then .error illOpnd
  else if !bad.isEmpty then .error (rangeTrap bad)
  else match as.find? fun p => !s.mapped (s.target b 0 p.2) false with
    | some p =>
      let ia := s.target b 0 p.2
      .ok (.error ((s.putBand { b with pageWait := some (ia, p.2) }).pageRequest ia (s.bandCtx b) 0).hold)
    | none => .ok (.ok (as.map fun p => (p.1, (s.vaRead (s.bandCtx b) p.2 n {}).getD 0)))

/-- The address operand of each guarded thread. -/
def State.recordAddrs (s : State) (b : Band) (v : Fld) (ts : List Nat) : Rd (List (Nat × Nat)) :=
  mapRd (fun t => do return (t, ← b.readOpnd s.fresh t v.a 64 1)) ts

/-! ### Starting copies (R220, R222, R443) -/

/-- A copy of a thread as its unit takes it. -/
def State.copyOf (s : State) (b : Band) (gid t tag addr rec' : Nat) (grid : Bool) : Copy :=
  let core := s.issue.core
  let x := tileOf rec'
  { cluster := coreCluster core, core := core, bandid := b.bandid, gid := gid, thread := t, ctx := s.bandCtx b, flight := b.flight, team := b.team,
    tag := some tag, record := rec', recAddr := addr, sbase := (s.alloc b).1, ssize := (s.alloc b).2, total := x.total, grid := grid, pc := s.issue.pc,
    pers := if grid && x.pers && x.rop = 0 then some (x.dst, x.inst) else none }

/-- The ranks that a grid copy goes to (R222): the named one, and those of REPL with its y and z. -/
def Tile.ranks (x : Tile) : List Nat :=
  let r := x.grid % 4096
  r :: ((List.range 16).map fun j => r / 16 * 16 + j).filter fun q => bitOf x.repl (q % 16) && q ≠ r

/-- The persistent key of a copy about to start (R443): the table with the instance started, or none where the instance is
BUSY; the run is held where the table is full, and traps where the instance is not the next. -/
def startInstance (ks : List PKey) (x : Tile) : Rd (Option (List PKey)) :=
  let same (k : PKey) : Bool := k.dst = x.dst && k.grid = x.grid && k.repl = x.repl
  let go (k : PKey) : Rd (Option PKey) :=
    if x.inst ≠ k.nexti then .error illOpnd
    else if k.lowi + 2 ≤ x.inst then .ok none
    else .ok (some { k with nexti := k.nexti + 1, waits := k.waits ++ x.ranks.map fun r => (x.inst, r) })
  match ks.find? same with
  | some k => do return (← go k).map fun k' => ks.map fun j => if same j then k' else j
  | none =>
    if 64 ≤ ks.length then .error .hold
    else do return (← go { dst := x.dst, grid := x.grid, repl := x.repl, nexti := x.inst, lowi := x.inst }).map fun k' => ks ++ [k']

/-- The threads whose copies start, with the table of persistent keys after them. -/
def startAll (ks : List PKey) : List (Nat × Nat) → Rd (List Nat × List PKey)
  | [] => .ok ([], ks)
  | p :: r => do
    let x := tileOf p.2
    let k ← if x.pers then startInstance ks x else .ok (some ks)
    match k with
    | none => startAll ks r
    | some ks1 =>
      let q ← startAll ks1 r
      return (p.1 :: q.1, q.2)

/-- TCPY (R219, R220, R222): each guarded thread's record is read and checked, then the copies start. -/
def State.tcpyOp (s : State) (v : Fld) (grid : Bool) : Out :=
  s.withBand fun b => do
    let ts ← b.guarded v s.issue.threads
    if ts.isEmpty then return s.retire b v 64 0 0
    else
      let as ← s.recordAddrs b v ts
      let tg : Target := if grid then .pred else .none
      if b.destPending v tg ts then .error .hold
      else match ← s.sliceRecords b needX 64 as with
        | .error s1 => return s1
        | .ok rs =>
          let wsw := match s.flight? b.flight with | some f => f.wsw | none => false
          if rs.any fun p => (tileOf p.2).bad p.2 grid wsw then .error illOpnd
          else
            let beyond := as.filter fun p => s.tileBeyond b (tileOf ((rs.find? fun q => q.1 = p.1).getD (0, 0)).2) grid
            if !beyond.isEmpty then .error (rangeTrap beyond)
            else
              let cl := coreCluster s.issue.core
              let q ← startAll (s.cluster cl).pkeys rs
              let go := q.1
              if !go.isEmpty && !b.roomFor .cp then .error .hold
              else
                let tag := v.w2 % 64
                let gid := s.nextId
                let b1 := (b.lastReads v 64 0 0 s.issue.threads).prune []
                let b2 := if grid then b1.writeAll v .pred (ts.map fun t => { thread := t, val := if go.contains t then 0 else 1 }) else b1
                let g : Group := { gid := gid, cls := .cp, depth := s.issue.depth, pc := s.issue.pc, left := go.map fun t => (t, 1) }
                let b3 : Band := if go.isEmpty then b2 else { b2 with groups := b2.groups ++ [g] }
                let s1 : State := { s with nextId := gid + 1 + go.length }
                let s2 := s1.putBand (b3.advance s.issue s.issue.threads)
                let s3 := if go.isEmpty then s2 else s2.useTags b.flight b.team (2 ^ tag)
                let s4 := s3.modCluster cl fun c => { c with pkeys := q.2 }
                let s5 := s4.modCore s.issue.core fun c =>
                  if go.isEmpty then c
                  else { c with tags := if bitOf c.tags tag then c.tags - 2 ^ tag else c.tags, pend := Tbl.put c.pend tag (Tbl.get c.pend tag 0 + go.length) }
                let addr (t : Nat) : Nat := ((as.find? fun q => q.1 = t).getD (0, 0)).2
                let rec' (t : Nat) : Nat := ((rs.find? fun q => q.1 = t).getD (0, 0)).2
                return { s5 with copies := go.zipIdx.foldl (fun c p => Tbl.put c (gid + 1 + p.2) (s.copyOf b gid p.1 tag (addr p.1) (rec' p.1) grid)) s5.copies }

/-- TCPY, local form (R220). -/
def execTcpy (f : FormX) (s : State) : Out := s.tcpyOp (viewX f) false
/-- TCPY, grid form (R222). -/
def execTcpyGrid (f : FormX) (s : State) : Out := s.tcpyOp (viewX f) true

/-! ### The unit at work (R220, R221) -/

/-- A copy changed. -/
def State.setCopy (s : State) (id : Nat) (c : Copy) : State := { s with copies := Tbl.put s.copies id c }

/-- A copy stops at a range that is gone (R221): its record names the first element not written. -/
def State.copyStop (s : State) (id : Nat) (c : Copy) : State :=
  (s.setCopy id { c with stopped := true }).asyncFault c.owner 17 c.recAddr c.next 0 true

/-- The value of the next element at its source: none where the copy waits or stops, with the state. -/
def State.copySource (s : State) (id : Nat) (c : Copy) (x : Tile) : Except State Nat :=
  if x.sspc = 1 then .ok (s.atRead (s.scratchAt c.flight c.team c.cluster c.sbase) (x.srcAt c.next) x.z)
  else match s.reach (agentCopy c.cluster) c.ctx (x.srcAt c.next) needX false with
    | .bad => .error (s.copyStop id c)
    | .wait ia => .error (s.pageRequest ia c.ctx 0)
    | .at ia pa => if (s.poisonAt pa x.z).isSome then .error (s.copyStop id c) else .ok (s.agentRead ia pa x.z)

/-- One element of a tile copy on its way to a slice, or performed at a bank or in the weight store (R220, R296). -/
def State.tileElement (s : State) (id : Nat) (c : Copy) (x : Tile) (y : Nat) : State :=
  let a := x.dstAt c.next
  let c1 : Copy := { c with next := c.next + 1 }
  match x.dspc with
  | 0 =>
    match s.places (agentCopy c.cluster) c.ctx a (if x.rop = 0 then needW else needXWA) true (splitUnits a x.z) with
    | .error (.wait ia) => s.pageRequest ia c.ctx 1
    | .error _ => s.copyStop id c
    | .ok ps =>
      if x.rop = 0 then (s.setCopy id c1).unitStore (agentCopy c.cluster) y id ps
      else match ps with
        | [(_, _, ia, pa)] =>
          if (s.poisonAt pa x.z).isSome then s.copyStop id c
          else (s.setCopy id c1).unitSendRop (agentCopy c.cluster) ia pa x.rop x.z y id
        | _ => s.copyStop id c
  | 1 =>
    let p := s.scratchAt c.flight c.team c.cluster c.sbase
    (s.setCopy id c1).atWrite p a x.z (if x.rop = 0 then y else ropApply x.rop x.z (s.atRead p a x.z) y)
  | _ =>
    let p := placeWst (clusterDie c.cluster) a
    let s1 := s.setCopy id c1
    { s1 with mem := Memory.write s1.mem p x.z (if x.rop = 0 then y else ropApply x.rop x.z (Memory.read s1.mem p x.z) y) }

/-- The next step of a copy at a slice, or at a bank: an element of a tile copy at its destination, an element of a grid copy
at its source, or a word of an overlay. -/
def State.copyElement (s : State) (id : Nat) (bank : Bool) : State :=
  match Tbl.find? s.copies id with
  | none => s
  | some c =>
    if c.stopped || c.total ≤ c.next then s
    else match c.ovl with
      | some (_, _, _, src) =>
        if bank then s
        else match s.reach (agentCopy c.cluster) c.ctx (src + 4 * c.next) needX false with
          | .bad => s.copyStop id c
          | .wait ia => s.pageRequest ia c.ctx 0
          | .at ia pa =>
            if (s.poisonAt pa 4).isSome then s.copyStop id c
            else s.setCopy id { c with next := c.next + 1, payload := c.payload ++ [(0, s.agentRead ia pa 4)] }
      | none =>
        let x := tileOf c.record
        let site := if c.grid then x.sspc else x.dspc
        if (if bank then site = 0 else site ≠ 0) then s
        else match s.copySource id c x with
          | .error s1 => s1
          | .ok y => if c.grid then s.setCopy id { c with next := c.next + 1, payload := c.payload ++ [(x.dstAt c.next, y)] }
                     else s.tileElement id c x y

/-! ### Completion (R220, R390, R393) -/

/-- The completion of a tag (R220): PEND drops, and at zero the tag is set; for an absent team in its record, with a trigger
(R390, R408). -/
def State.tagDone (s : State) (c : Copy) (tag : Nat) : State :=
  match s.placeOfTeam c.flight c.team with
  | .absent rec' =>
    let a := rec' + 64 + 2 * tag
    let n := s.fwRead a 2 - 1
    let s1 := s.fwWrite a 2 n
    if n = 0 then
      let t := s1.fwRead (rec' + 32) 8
      (s1.fwWrite (rec' + 32) 8 (if bitOf t tag then t else t + 2 ^ tag)).trigger c.ctx 1 c.cluster c.team tag
    else s1
  | _ =>
    let core := match s.keyOfUid (uidOf c.flight c.team c.bandid) with | some k => keyCore k | none => c.core
    s.modCore core fun x =>
      let n := Tbl.get x.pend tag 0 - 1
      { x with tagAt := if n = 0 then Tbl.put x.tagAt tag s.nextId else x.tagAt
               pend := if n = 0 then Tbl.del x.pend tag else Tbl.put x.pend tag n
               tags := if n = 0 && !bitOf x.tags tag then x.tags + 2 ^ tag else x.tags }

/-- A grid copy's payload sent to each of its ranks (R222, R437, R440). -/
def State.sendCopy (s : State) (id : Nat) (c : Copy) : State :=
  let x := tileOf c.record
  let gkey := match s.ctx? c.ctx with | some k => k.gkey | none => 0
  let base : Delivery := { cargo := .copy, src := s.rank, dst := 0, lane := c.cluster % 4, flight := c.flight, team := c.team, gkey := gkey,
                           token := tokCopy id, poster := c.poster, args := [x.z], els := c.payload }
  let d : Delivery := if x.rop = 0 then base
    else { base with cargo := .contribution, args := [(x.dst + 2 ^ 64 - 64) % 2 ^ 64, x.rop, x.z, if x.pers then 1 else 0, x.inst] }
  x.ranks.foldl (fun s r => s.ship { d with dst := r }) (s.setCopy id { c with sent := true, waits := x.ranks, payload := [] })

/-- TILE_COPY_COMPLETE (R220, R221, R437): a copy whose every element is performed completes its tag and its count; a grid copy is
first sent, and completes once every rank has performed it. -/
def execTileCopyComplete (copy : Nat) (s : State) : Out :=
  match Tbl.find? s.copies copy with
  | none => .next s
  | some c =>
    if c.ovl.isSome || (!c.stopped && c.next < c.total) || s.unitFlying (agentCopy c.cluster) copy then .next s
    else if c.grid && !c.sent && !c.stopped then .next (s.sendCopy copy c)
    else if !c.waits.isEmpty then .next s
    else
      let s1 : State := { s with copies := Tbl.del s.copies copy }
      .next ((s1.tagDone c (c.tag.getD 0)).unitCount (uidOf c.flight c.team c.bandid) c.gid [c.thread] true 0)

/-! ### Overlays (R226, R227) -/

/-- Whether a team placed on a core pair holds a core. -/
def State.pairHeld (s : State) (core : Nat) : Bool :=
  s.flights.any fun p => p.2.members.any fun q => match q.2.place with
    | .resident c true _ => decide (c / 2 = core / 2)
    | _ => false

/-- The cores whose slots an overlay load of a band changes: its core, or both of the pair that its team or another of the core stands on,
which always hold the same slots (R227; log entry 117). -/
def State.ovlCores (s : State) (core : Nat) : List Nat := if s.pairHeld core then [core / 2 * 2, core / 2 * 2 + 1] else [core]

/-- Whether some unexited thread of a band stands in a slot. -/
def Band.stands (b : Band) (slot : Nat) : Bool := b.threads.any fun th => th.state ≠ .exited && th.pc / 16384 = slot

/-- OVL (R227): held while a thread of another resident band stands in the slot; then the slot becomes absent and the load starts. -/
def execOvl (f : FormX) (s : State) : Out :=
  s.withBand fun b => do
    let v := viewX f
    let r := s.issue
    let ts ← b.guarded v r.threads
    match ts with
    | [t] =>
      let src ← b.readOpnd s.fresh t v.a 64 1
      let n ← b.readOpnd s.fresh t v.b 32 2
      let slot := bits v.w2 17 16
      let cores := s.ovlCores r.core
      if src % 64 ≠ 0 || n = 0 || 16384 < n || b.stands slot then .error illOpnd
      else match firstFail (s.coreRanges r.core) needX src (4 * n) with
        | some a => .error (rangeTrap [(t, a)])
        | none =>
          if s.bands.any fun p => cores.contains (keyCore p.1) && p.2.stands slot then .error .hold
          else if !b.roomFor .cp then .error .hold
          else
            let gid := s.nextId
            let g : Group := { gid := gid, cls := .cp, depth := r.depth, pc := r.pc, left := [(t, 1)] }
            let b1 := (b.lastReads v 64 32 0 r.threads).prune []
            let s1 : State := { s with nextId := gid + 2 }
            let s2 := s1.putBand ({ b1 with groups := b1.groups ++ [g] }.advance r r.threads)
            let s3 := cores.foldl (fun s c => s.modCore c fun x => { x with overlays := modAt x.overlays slot fun _ => {} }) s2
            return s3.setCopy (gid + 1)
              { cluster := coreCluster r.core, core := r.core, bandid := b.bandid, gid := gid, thread := t, ctx := s.bandCtx b, flight := b.flight,
                team := b.team, tag := none, record := 0, recAddr := src, sbase := 0, ssize := 0, total := n, pc := r.pc,
                ovl := some (slot, v.w2 % 65536, n, src), waits := cores }
    | _ => .error illOpnd

/-- OVL_COMPLETE (R227): the slot takes its overlay id, length and source address. -/
def execOvlComplete (copy : Nat) (s : State) : Out :=
  match Tbl.find? s.copies copy with
  | none => .next s
  | some c =>
    match c.ovl with
    | none => .next s
    | some (slot, ovid, _, src) =>
      if !c.stopped && c.next < c.total then .next s
      else
        let o : Overlay := { ovid := some ovid, words := c.payload.map fun p => BitVec.ofNat 32 p.2, src := src }
        let s1 : State := { s with copies := Tbl.del s.copies copy }
        let s2 := if c.stopped then s1 else c.waits.foldl (fun s k => s.modCore k fun x => { x with overlays := modAt x.overlays slot fun _ => o }) s1
        .next (s2.unitCount (uidOf c.flight c.team c.bandid) c.gid [c.thread] true 0)

/-! ### Performing at the slice and at the bank (M10, M14) -/

/-- PERFORM_AT_THE_SLICE (R285): M10 for a delivered request, one step of a copy or of an epilogue block, or a dropped record. -/
def execPerformAtTheSlice (act : SliceAct) (s : State) : Out :=
  match act with
  | .request msg => match s.msgs.find? fun m => m.id = msg with
    | some m => .next (if s.mayPerform m then s.performRequest m else s)
    | none => .next s
  | .copyElement copy => .next (s.copyElement copy false)
  | .dropHolder line core => .next (s.dropHolder line core)
  | .dropMark line => .next (s.dropMark fun _ => some (nameGlobal line))
  | .engineBlock cluster block => .next (s.engineBlock cluster block false)

/-- An access of a thread at a bank, with what it does to the engine operations that it races with (R231). -/
def State.bankStep (s : State) (acc : Nat) : State :=
  match s.acc? acc with
  | none => s
  | some a =>
    let cl := coreCluster a.core
    let s1 := s.bankAccess acc
    if a.space ≠ 1 || (s1.acc? acc).isSome then s1
    else if a.kind = .load then (s.raceScratch cl a.addr a.size false).bankAccess acc
    else s1.raceScratch cl a.addr a.size true

/-- PERFORM_AT_A_BANK (R285): M14. A scratchpad line is named by its cluster, times 2^22, plus its offset. -/
def execPerformAtABank (act : BankAct) (s : State) : Out :=
  match act with
  | .access acc => .next (s.bankStep acc)
  | .copyElement copy => .next (s.copyElement copy true)
  | .dropMark line => .next (s.dropMark fun k => s.scratchLine k (line / 2 ^ 22) (line % 2 ^ 22))
  | .engineBlock cluster block => .next (s.engineBlock cluster block true)

end Sys2Proof.Machine
end

