-- ==== Sys2Proof/Machine/Sync.lean ====
section
/-!
DEFINITION. Sys2Proof/Machine/Sync.lean: barriers (R257 to R261), the post of a task (R262, R263), quotas and phases (R264), and
the issue of a parameter node command (R265, R266).
-/
namespace Sys2Proof.Machine

/-! ### Barriers (R258 to R260) -/

/-- A thread's record at a barrier instruction: the thread, the address as its instruction names it, and where it stands. -/
structure BarUse where
  thread : Nat
  va : Nat
  ref : BarRef
  site : BarAt
  deriving DecidableEq, Repr

/-- SPACE and SCOPE of a barrier instruction, and its ORD (R258). -/
def Fld.barSpace (f : Fld) : Nat := f.w2 % 4
def Fld.barScope (f : Fld) : Nat := bits f.w2 6 4
def Fld.barOrd (f : Fld) : Nat := bits f.mf 3 2

/-- The record of an address. -/
def State.barUse (s : State) (b : Band) (space t a : Nat) : BarUse :=
  if space = 0 then
    let ia := s.target b 0 a
    { thread := t, va := a, ref := { space := 0, addr := ia }, site := .global ia ((s.portPA s.issue.core ia true).getD 0) }
  else { thread := t, va := a, ref := { space := 1, team := b.team, addr := a }, site := .scratch (coreCluster s.issue.core) ((s.alloc b).1 + a) }

/-- The records that threads name, after the checks of R258; a page that is not mapped holds the band (R427). -/
def State.barUses (s : State) (b : Band) (f : Fld) (ts : List Nat) : Rd (Except State (List BarUse)) := do
  let space := f.barSpace
  let as ← mapRd (fun t => do return (t, ← b.readOpnd s.fresh t f.a (if space = 0 then 64 else 32) 1)) ts
  let bad := as.filterMap fun p => (s.checkAddr b space needXWA p.2 32).map fun x => (p.1, x)
  if as.any fun p => p.2 % 32 ≠ 0 then .error illOpnd
  else if !bad.isEmpty then .error (rangeTrap bad)
  else match (if space = 0 then as.find? fun p => !s.mapped (s.target b 0 p.2) true else none) with
    | some p =>
      let ia := s.target b 0 p.2
      return .error ((s.putBand { b with pageWait := some (ia, p.2) }).pageRequest ia (s.bandCtx b) 1).hold
    | none => return .ok (as.map fun p => s.barUse b space p.1 p.2)

/-- The flight's threads that have not exited, those of teams not yet started counted (R259). -/
def Flight.liveThreads (f : Flight) : Nat := f.teams * f.teamb * f.bandw + f.joined - f.exited

/-- The threads of a team that have not exited. -/
def State.teamThreads (s : State) (flight team : Nat) : Nat :=
  ((s.bands.filter fun p => p.2.flight = flight && p.2.team = team).map fun p => (p.2.threads.filter fun th => th.state ≠ .exited).length).sum

/-- Whether some thread waits on a record. -/
def State.barWaited (s : State) (flight : Nat) (ref : BarRef) : Bool :=
  (s.bands.any fun p => p.2.flight = flight && p.2.threads.any fun th => match th.state, th.park with
    | .onBarrier, .barrier r _ _ _ _ _ => r = ref
    | _, _ => false)
    || match s.flight? flight with | some f => f.absent.any fun w => w.ref = ref | none => false

/-- BARI (R259): once per run; mode 0 count, 1 team, 2 flight. -/
def execBari (f : XL) (s : State) : Out :=
  let v := viewXL f
  let wa := if v.barSpace = 0 then 64 else 32
  let wb := if v.sub = 0 then 32 else 0
  s.withBand fun b => do
    let ts ← b.guarded v s.issue.threads
    match ts with
    | [] => return s.retire b v wa wb 0
    | t :: _ =>
      match ← s.barUses b v [t] with
      | .error s1 => return s1
      | .ok us =>
        let n ← if wb = 0 then .ok 0 else b.readOpnd s.fresh t v.b 32 2
        match us, s.flight? b.flight with
        | u :: _, some fl =>
          let old := s.barGet u.site
          let roster := fl.roster.filter (· ≠ u.ref)
          let expect := match v.sub with | 0 => n | 1 => s.teamThreads b.flight b.team | _ => fl.liveThreads
          if old.teams ≠ 0 || old.absent ≠ 0 || old.rest ≠ 0 || s.barWaited b.flight u.ref || (v.sub ≠ 0 && 32 ≤ roster.length)
              || (v.sub = 1 && v.barSpace ≠ 1) || (v.sub = 2 && v.barSpace ≠ 0) || (v.sub = 0 && n = 0) then .error illOpnd
          else
            let bar : Bar := { expect := expect, arrived := 0, phase := 0, mode := v.sub, init := true, absent := 0, teams := 0, flight := b.flight }
            return ((s.retire b v wa wb 0).barSet u.site bar).modFlight b.flight fun fl =>
              { fl with roster := if v.sub = 0 then roster else roster ++ [u.ref], marks := fl.marks.filter fun m => m.1 ≠ u.ref,
                        phaseAt := fl.phaseAt.filter fun m => m.1 ≠ u.ref, left := fl.left.filter fun m => m.1 ≠ u.ref,
                        bars := fl.bars.filter (· ≠ u.ref) ++ [u.ref] }
        | _, _ => .error illOpnd

/-- The check of R260 (and R356) on the records of a run: initialised by the flight, and no thread arrives twice in a phase. -/
def State.barCheck (s : State) (b : Band) (us : List BarUse) (arrives : Bool) : Bool :=
  let marks := match s.flight? b.flight with | some f => f.marks | none => []
  us.all fun u =>
    let bar := s.barGet u.site
    bar.init && bar.flight = b.flight && !(isTask b.team && bar.mode = 2)
      && !(arrives && bar.mode ≠ 0 && marks.contains (u.ref, (b.thread u.thread).tidx))

/-- A thread parks at a record for a phase. -/
def State.parkAt (s : State) (u : BarUse) (phase ord scope : Nat) : State :=
  s.modBand s.issue.key fun b => b.modThread u.thread fun th =>
    { th with state := .onBarrier, park := .barrier u.ref u.va phase ord scope s.issue.len }

/-- BARJ of one thread: it waits for the phase it arrives in, so that its own arrival may release it. -/
def State.joinOne (s : State) (b : Band) (ord scope : Nat) (u : BarUse) : State :=
  (s.parkAt u (s.barGet u.site).phase ord scope).arrive b.flight u.ref u.site (b.thread u.thread).tidx

/-- The invalidations that the acquire of a wait for a phase that is over waits for: those sent before the phase completed (R291). -/
def State.phaseInvs (s : State) (flight : Nat) (ref : BarRef) (phase : Nat) : List Nat :=
  let done := match s.flight? flight with | some f => List.find? (fun m : BarRef × Nat × Nat => m.1 = ref && m.2.1 = phase % 2 ^ 32) f.phaseAt.reverse | none => none
  s.invsBefore s.issue.core (match done with | some m => m.2.2 | none => 0)

/-- BARW of one thread for a phase. -/
def State.waitOne (s : State) (ord scope phase : Nat) (u : BarUse) : State :=
  let s1 := s.parkAt u phase ord scope
  if phaseReached (s.barGet u.site).phase phase then
    let s2 := s1.modBand s.issue.key fun b => b.modThread u.thread fun th =>
      { th with state := .ready, park := .none, pc := (th.pc + s.issue.len) % 65536 }
    let flight := match s.band? s.issue.key with | some b => b.flight | none => 0
    if bitOf ord 0 then s2.acquire s.issue.key [u.thread] scope (s2.phaseInvs flight u.ref phase) else s2
  else s1

/-- The arrivals of a BARA run, with the phase that each thread arrived in. -/
def State.arriveAll (s : State) (b : Band) : List BarUse → State × List Res
  | [] => (s, [])
  | u :: r =>
    let ph := (s.barGet u.site).phase
    let q := (s.arrive b.flight u.ref u.site (b.thread u.thread).tidx).arriveAll b r
    (q.1, { thread := u.thread, val := ph } :: q.2)

/-- BARJ, BARA and BARW (R260): checks of the whole run, the release, then each guarded thread in ascending BTID. -/
def State.barOp (s : State) (v : Fld) (kind : Nat) : Out :=
  let r := s.issue
  let wa := if v.barSpace = 0 then 64 else 32
  let wb := if kind = 2 then 32 else 0
  let tg : Target := if kind = 1 then .regs 1 else .none
  s.withBand fun b => do
    let ts ← b.guarded v r.threads
    if ts.isEmpty then return s.retire b v wa wb 0
    else if b.destPending v tg ts then .error .hold
    else match ← s.barUses b v ts with
      | .error s1 => return s1
      | .ok us =>
        let vals ← mapRd (fun t => do return (t, ← if wb = 0 then .ok 0 else b.readOpnd s.fresh t v.b 32 2)) ts
        let ord := v.barOrd
        let scope := s.scopeOf b v.barScope
        if !s.barCheck b us (kind ≠ 2) then .error illOpnd
        else
          let (s1, ok) := if 2 ≤ ord then s.releaseRun scope else (s, true)
          let b1 := (s1.band? r.key).getD b
          if !ok then return s1.hold
          else if kind = 1 then
            let q := s1.arriveAll b us
            q.1.commit ((q.1.band? r.key).getD b1) v wa wb 0 tg q.2
          else
            let s2 := s1.putBand (((b1.lastReads v wa wb 0 r.threads).prune []).advance r (r.threads.filter (!ts.contains ·)))
            return us.foldl (fun s u => if kind = 0 then s.joinOne b ord scope u else s.waitOne ord scope (Tbl.get vals u.thread 0) u) s2

/-- BARJ (R260). -/
def execBarj (f : FormX) (s : State) : Out := s.barOp (viewX f) 0
/-- BARA (R260). -/
def execBara (f : FormX) (s : State) : Out := s.barOp (viewX f) 1
/-- BARW (R260). -/
def execBarw (f : XL) (s : State) : Out := s.barOp (viewXL f) 2

/-! ### The post of a task (R262, R263, R496) -/

/-- What the run of the issue register has sent of a kind, if any: by its key, and a thread of it. -/
def State.pending (s : State) (b : Band) (kind : Nat) : Option (Nat × Post) :=
  List.find? (fun p : Nat × Post => decide (p.2.kind = kind) && p.2.uid = b.uid && p.2.depth = s.issue.depth && p.2.pc = s.issue.pc
    && s.issue.threads.contains p.2.thread) s.posts

/-- The room of a cluster's pool that posts on their way will take. -/
def State.poolTaken (s : State) (cl : Nat) : Nat :=
  (s.cluster cl).pool.length + (List.filter (fun p : Nat × Post => decide (p.2.kind = 0) && decide (p.2.target = cl)) s.posts).length

/-- The check of R351 on a record. -/
def taskBad (r tlots : Nat) : Bool :=
  let flags := bits r 63 32
  let status := bits r 479 448
  bits flags 31 8 ≠ 0 || bits flags 3 1 ≠ 0 || status = 1 || status = 2
    || (bitOf flags 0 && (bits r 319 256 % 4 ≠ 0 || bits r 383 320 % 64 ≠ 0)) || tlots = 0

/-- TASKP (R263, R350): once per run. The run is held while the pool is full, and takes the illegal-operand trap where the record fails the
check; else the post is on its way, counted under st until the pool accepts it, and the run retires (log entry 17). -/
def execTaskp (f : FormX) (s : State) : Out :=
  let v := viewX f
  let named := v.w2 % 2 = 1
  s.withBand fun b => do
    let r := s.issue
    let ts ← b.guarded v r.threads
    match ts with
    | [] => return s.retire b v 64 32 0
    | t :: _ =>
      let a ← b.readOpnd s.fresh t v.a 64 1
      let c ← if named then b.readOpnd s.fresh t v.b 32 2 else .ok (coreCluster r.core)
      let ctx := s.bandCtx b
      if a % 64 ≠ 0 || 95 < c then .error illOpnd
      else match firstFail (s.coreRanges r.core) { x := true, w := true } a 64 with
        | some x => .error (rangeTrap (ts.map fun i => (i, x)))
        | none =>
          if 4096 ≤ s.poolTaken c || !b.roomFor .st then .error .hold
          else match s.firstUnmapped ctx a needX false 64 with
            | some ia => return (s.pageRequest ia ctx 0).hold
            | none =>
              let rec' := (s.vaRead ctx a 64 needX).getD 0
              let tlots := match s.flight? b.flight with | some f => f.tlots | none => 0
              if taskBad rec' tlots then .error illOpnd
              else
                let gid := s.nextId
                let g : Group := { gid := gid, cls := .st, depth := r.depth, pc := r.pc, left := [(t, 1)] }
                let p : Post := { kind := 0, uid := b.uid, gid := gid, depth := r.depth, pc := r.pc, thread := t, core := r.core, ctx := ctx,
                                  flight := b.flight, team := b.team, addr := a, target := c, record := rec' }
                let s1 := s.retire { b with groups := b.groups ++ [g] } v 64 32 0
                return { s1 with nextId := gid + 2, posts := Tbl.put s1.posts (gid + 1) p }

/-! ### Quotas and phases (R264) -/

/-- Whether an earlier held GROW of the lane stands before a band's. -/
def State.growBefore (s : State) (k ticket : Nat) : Bool :=
  (s.laneBands (keyCore k) (keyLane k)).any fun b => match b.growTicket with | some t => decide (t < ticket) | none => false

/-- GROW (R264): granted once the lane's pool has room and no earlier held GROW of the lane stands before it. -/
def execGrow (f : FormI) (s : State) : Out :=
  s.withBand fun b =>
    let r := s.issue
    let n := f.imm.toNat
    let lk := r.core * 64 + r.lane
    let l := s.lane lk
    let ticket := b.growTicket.getD l.tickets
    if n = 0 then .ok (s.putBand (b.advance r r.threads))
    else if maxQuota b.width < b.quota + n then .error illOpnd
    else if n ≤ s.poolFree r.core r.lane && !s.growBefore r.key ticket then
      .ok (s.putBand ({ b with quota := b.quota + n, growTicket := none, heldPark := none }.advance r r.threads))
    else if b.growTicket.isSome then .error .hold
    else .ok ((s.putBand { b with growTicket := some ticket, heldPark := some (r.depth, r.pc) }).setLane lk { l with tickets := l.tickets + 1 }).hold

/-- SHRINK (R264). -/
def execShrink (f : FormI) (s : State) : Out :=
  s.withBand fun b => .ok (s.putBand ({ b with quota := max (b.quota - f.imm.toNat) b.mapped }.advance s.issue s.issue.threads))

/-- PHASE (R264). -/
def execPhase (f : FormI) (s : State) : Out :=
  s.withBand fun b => .ok (s.putBand ({ b with phase := f.imm.toNat % 16 }.advance s.issue s.issue.threads))

/-! ### Parameter node commands (R265, R266) -/

/-- PNCMD (R266): once per run, counted under ld; the run is held until the node replies, then takes the status and acquires at
device scope (R447). -/
def execPncmd (f : FormX) (s : State) : Out :=
  let v := viewX f
  s.withBand fun b => do
    let r := s.issue
    let ts ← b.guarded v r.threads
    match ts with
    | [] => return s.retire b v 64 0 0
    | t :: _ =>
      match s.pending b 1 with
      | none =>
        let a ← b.readOpnd s.fresh t v.a 64 1
        if a % 64 ≠ 0 then .error illOpnd
        else if b.destPending v (.regs 1) ts || !b.roomFor .ld then .error .hold
        else
          let gid := s.nextId
          let g : Group := { gid := gid, cls := .ld, depth := r.depth, pc := r.pc, left := [(t, 1)] }
          let p : Post := { kind := 1, uid := b.uid, gid := gid, depth := r.depth, pc := r.pc, thread := t, core := r.core, ctx := s.bandCtx b,
                            flight := b.flight, team := b.team, addr := a, target := v.w2 % 4, sub := v.sub }
          let s1 := s.putBand { b with groups := b.groups ++ [g] }
          return ({ s1 with nextId := gid + 2, posts := Tbl.put s1.posts (gid + 1) p } : State).hold
      | some (id, p) =>
        match p.reply with
        | none => .error .hold
        | some x =>
          let b1 : Band := { b with groups := b.groups.filter fun g => g.gid ≠ p.gid }
          let s1 ← s.commit b1 v 64 0 0 (.regs 1) (ts.map fun i => { thread := i, val := x })
          return ({ s1 with posts := Tbl.del s1.posts id } : State).acquire r.key ts 5 (s1.invsTo r.core)

end Sys2Proof.Machine
end

