-- ==== Sys2Proof/Machine/Place.lean ====
section
/-!
DEFINITION. Sys2Proof/Machine/Place.lean: partitions (R361), the room that admits a team (R15, R53, R497), the start of a team
(R52, R277, R377, R378), its save (R338, R390 to R397) and its restore (R391, R399, R325).
-/
namespace Sys2Proof.Machine

/-! ### Partitions and sites (R361, R15) -/

/-- The package clusters of a partition under a division (R361). -/
def partClusters (npart p : Nat) : List Nat :=
  match npart with
  | 0 => List.range 96
  | 1 => (List.range 48).map (48 * p + ·)
  | 2 => (List.range 24).map (24 * p + ·)
  | _ => (List.range 12).map (12 * p + ·)

/-- Whether a cluster, or a core, works (R482, R486). -/
def State.clusterWorks (s : State) (c : Nat) : Bool := !(s.cluster c).disabled && !(s.die (clusterDie c)).disabled
def State.coreWorks (s : State) (c : Nat) : Bool := s.clusterWorks (coreCluster c) && !(s.core c).disabled

/-- The clusters that a flight's teams may be placed on (R361, R387). -/
def State.flightClusters (s : State) (f : Flight) : List Nat :=
  let all := partClusters s.npart f.part
  match s.ctx? f.ctx with
  | some c => if c.clmask = 0 then all else all.filter (bitOf c.clmask ·)
  | none => all

/-- The working dies of a flight's partition, and its home die, the lowest (R337). -/
def State.flightDies (s : State) (f : Flight) : List Nat :=
  (((partClusters s.npart f.part).map clusterDie).eraseDups).filter fun d => !(s.die d).disabled
def State.homeDie (s : State) (f : Flight) : Nat := (s.flightDies f).headD 0

/-- A site: a core, or 384 plus the number of a core pair (R15); its cores and its cluster. -/
def siteCores (n : Nat) : List Nat := if n < 384 then [n] else [2 * (n - 384), 2 * (n - 384) + 1]
def siteCluster (n : Nat) : Nat := coreCluster ((siteCores n).headD 0)
/-- The sites of a cluster. -/
def clusterSites (c : Nat) : List Nat := clusterCores c ++ [384 + 2 * c, 384 + 2 * c + 1]

/-! ### Room (R53, R497) -/

/-- Whether a lane has a free slot of a width, and pool room for a quota (R53, R56). -/
def State.laneAdmits (s : State) (core lane width quota : Nat) : Bool :=
  match s.laneBands core lane with
  | [] => decide (quota ≤ poolSize width)
  | b :: r => b.width = width && decide (r.length < 3) && decide (((b :: r).map (·.quota)).sum + quota ≤ poolSize width)

/-- Slots for bands of given quotas on cores; which lanes and slots is the device's choice (log entry 7). -/
def State.seats (s : State) (cores : List Nat) (width : Nat) : List Nat → Option (List Nat)
  | [] => some []
  | q :: r =>
    let lanes := cores.flatMap fun c => ((List.range 64).filter fun l => s.laneAdmits c l width q).map fun l => (c, l)
    match lanes[Config.pick s.fresh (2 * r.length) % max lanes.length 1]? with
    | none => none
    | some (c, l) =>
      let free := [0, 1, 2, 3].filter fun i => (s.band? (slotKey c l i)).isNone
      let k := slotKey c l (free.getD (Config.pick s.fresh (2 * r.length + 1) % max free.length 1) 0)
      ((s.setBand k { flight := 0, team := 0, bandid := 0, width := width, threads := [], quota := q }).seats cores width r).map (k :: ·)

/-- The first addresses of the gaps among used regions that hold a size, with the number of 64-byte starts in each. -/
def freeGaps (size total : Nat) (used : List (Nat × Nat)) : List (Nat × Nat) :=
  (0 :: used.map fun u => (u.1 + u.2 + 63) / 64 * 64).filterMap fun b =>
    let e := ((used.filter fun u => decide (b < u.1 + u.2)).map (·.1)).foldl min total
    if b + size ≤ e then some (b, (e - b - size) / 64 + 1) else none

/-- A 64 B aligned free region of a size among used regions; which one is the firmware's choice (log entry 7). -/
def freeBase (size total : Nat) (used : List (Nat × Nat)) (salt : Nat) : Option Nat :=
  if size = 0 then some 0
  else
    let gaps := freeGaps size total used
    (gaps[salt % max gaps.length 1]?).map fun g => g.1 + 64 * (salt / max gaps.length 1 % g.2)

/-- The overlays that a team needs: those that its launch loads, with its entry overlay; one that a slot must hold; or a slot map:
for each slot the id, length and source (R377, R277, R355, R391). -/
inductive Overlays where
  | launch (entry : Nat)
  | held (ovid : Nat)
  | saved (map : List (Nat × Nat × Nat))
  deriving DecidableEq, Repr

/-- What a team, a task band or an imago band needs (R497). -/
structure Want where
  width : Nat
  quotas : List Nat
  scratch : Nat
  /-- the kernel image: its context, ROI and KIDX -/
  image : Nat × Nat
  overlays : Overlays
  clusters : List Nat
  single : Bool := false
  deriving DecidableEq, Repr

/-- A flight's kernel image as a core records it: ROI lies in the flight's context. -/
def Flight.image (f : Flight) : Nat × Nat := (f.ctx * 2 ^ 64 + f.roi, f.kidx)

/-- Whether a core holds no band. -/
def State.coreEmpty (s : State) (c : Nat) : Bool := !s.bands.any fun p => keyCore p.1 = c

/-- Whether a core's slots hold what a team needs (R391). -/
def Core.holdsOverlays (c : Core) : Overlays → Bool
  | .launch e => (c.slotOf? e).isSome
  | .held o => (c.slotOf? o).isSome
  | .saved map => (List.range 4).all fun i =>
      let o := c.overlays.getD i {}
      let m := map.getD i (0, 0, 0)
      if m.2.1 = 0 then o.ovid.isNone || o.words.isEmpty else decide (o.ovid = some m.1) && decide (o.words.length = m.2.1)

/-- Whether cores hold the overlays that an image's team needs as they stand: a pair's cores hold the same slots (R227, R391). -/
def State.overlaysStand (s : State) (cores : List Nat) (w : Want) : Bool :=
  (cores.all fun c => decide ((s.core c).image = some w.image) && (s.core c).holdsOverlays w.overlays)
    && cores.all fun c => decide ((s.core c).overlays = (s.core (cores.headD 0)).overlays)

/-- Whether empty cores are loaded for a team: with its overlays, which one that is restored may find there (R377, R391). -/
def State.loadsCores (s : State) (cores : List Nat) (w : Want) : Bool :=
  cores.all s.coreEmpty && match w.overlays with
    | .held _ => false
    | .launch _ => true
    | .saved _ => !s.overlaysStand cores w

/-- Whether cores may take bands of an image with these overlays: as they stand, or empty, so that they are loaded first. -/
def State.overlaysFit (s : State) (cores : List Nat) (w : Want) : Bool := s.loadsCores cores w || s.overlaysStand cores w

/-- The room of a site for what is wanted: the slots, and the base of the scratchpad region (R497). -/
def State.roomAt (s : State) (w : Want) (site : Nat) : Option (List Nat × Nat) :=
  let cores := siteCores site
  let cl := siteCluster site
  if !w.clusters.contains cl || !cores.all s.coreWorks || (w.single && decide (384 ≤ site)) || !s.overlaysFit cores w then none
  else match s.seats cores w.width w.quotas, freeBase w.scratch (2 ^ 22) ((s.cluster cl).allocs.map fun a => (a.1, a.2.1)) (Config.pick s.fresh 1000) with
    | some ks, some base => some (ks, base)
    | _, _ => none

/-! ### What a team wants -/

/-- Reads of a team record: its slot map, and whether a band of it has a thread that has not ended. -/
def State.recMap (s : State) (rec' : Nat) : List (Nat × Nat × Nat) :=
  (List.range 4).map fun i => (s.fwRead (rec' + 192 + 12 * i) 2, s.fwRead (rec' + 194 + 12 * i) 2, s.fwRead (rec' + 196 + 12 * i) 8)
def State.recPos (s : State) (rec' b t : Nat) : Nat := s.fwRead (s.recBand rec' b + 0x280 + 4 * t) 4
def State.recLive (s : State) (rec' b width : Nat) : List Nat := (List.range width).filter fun t => bits (s.recPos rec' b t) 26 24 ≠ 5
def State.recQuota (s : State) (rec' b : Nat) : Nat := s.fwRead (s.recBand rec' b + 4) 2

/-- The bands of a saved team that still have a thread. -/
def State.recBands (s : State) (rec' width : Nat) : List Nat := (List.range (s.recTeamb rec')).filter fun b => !(s.recLive rec' b width).isEmpty

/-- What an absent team wants of a site. -/
def State.wantOf (s : State) (f : Flight) (t : Team) : Want :=
  let clusters := match t.cluster with | some c => [c] | none => s.flightClusters f
  match t.place with
  | .absent rec' =>
    { width := f.bandw, quotas := (s.recBands rec' f.bandw).map (s.recQuota rec' ·), scratch := f.scratch, image := f.image,
      overlays := .saved (s.recMap rec'), clusters := clusters, single := t.kind ≠ 0 }
  | _ =>
    { width := f.bandw, quotas := List.replicate t.teamb f.regs, scratch := f.scratch, image := f.image,
      overlays := match t.imago with | r :: _ => .held r.ovid | [] => .launch f.entryOv, clusters := clusters, single := t.kind ≠ 0 }

/-! ### Entering cores (R377, R391, R424) -/

/-- Overlays to load on an empty core: slot, id, words, source. -/
def State.loadsFor (f : Flight) : Overlays → List (Nat × Nat × Nat × Nat)
  | .launch _ => (f.codes.take 4).zipIdx.map fun p => (p.2, p.1.1, p.1.2.2, p.1.2.1)
  | .saved map => map.zipIdx.map fun p => (p.2, p.1.1, p.1.2.1, p.1.2.2)
  | .held _ => []

/-- The words of an overlay at a global address, read at device scope: none where some byte cannot be read. -/
def State.overlayWords (s : State) (ctx src n : Nat) : Option (List Word) :=
  (s.vaRead ctx src (4 * n) needX).map fun x => (List.range n).map fun i => BitVec.ofNat 32 (x / 2 ^ (32 * i))

/-- The first page that a load of overlays would have to wait for (R427). -/
def State.loadWaits (s : State) (f : Flight) (w : Want) (cores : List Nat) : Option Nat :=
  if s.loadsCores cores w then (State.loadsFor f w.overlays).findSome? fun l => s.firstUnmapped f.ctx l.2.2.2 needX false (4 * l.2.2.1) else none

/-- Cores take a team of an image: empty cores load its overlays, and the range set of its context (R377, R391, R424); none where
an overlay cannot be read. A slot that nothing is loaded into stands as it is at a launch, but for one that differs between the cores of a
pair, which becomes empty (R227; log entry 117), and is left empty by a restore. -/
def State.enterCores (s : State) (f : Flight) (w : Want) (cores : List Nat) : Option State :=
  let ls := State.loadsFor f w.overlays
  let read := ls.map fun l => (l.1, if l.2.2.1 = 0 then some ({} : Overlay) else
    (s.overlayWords f.ctx l.2.2.2 l.2.2.1).map fun ws => { ovid := some l.2.1, words := ws, src := l.2.2.2 })
  if s.loadsCores cores w then
    let olds := cores.map fun c => (s.core c).overlays
    let common (i : Nat) : Overlay := if olds.all fun o => decide (o.getD i {} = (olds.headD []).getD i {}) then (olds.headD []).getD i {} else {}
    if read.any fun p => p.2.isNone then none
    else
      let put (c : Core) : Core :=
        { c with image := some f.image, ranges := some (f.ctx, s.ctxRanges f.ctx)
                 overlays := read.foldl (fun o p => modAt o p.1 fun x => p.2.getD x) ((List.range 4).map common) }
      some (cores.foldl (fun (s : State) c => s.modCore c put) s)
  else some s

/-! ### Starting teams (R52, R61, R277, R378) -/

/-- A write of a flight's packet, or of another structure of its context, at the slices; nothing where it has no translation. -/
def State.vaPut (s : State) (ctx va n x : Nat) : State := (s.vaWrite ctx va n x needW).getD s

/-- The flight's first team has started: STATUS of its packet becomes 2 (R376). -/
def State.begun (s : State) (flight : Nat) : State :=
  match s.flight? flight with
  | none => s
  | some f => if f.started then s else (s.modFlight flight fun f => { f with started := true }).vaPut f.ctx (f.packet + 2) 1 2

/-- A new team's scratchpad allocation holds undefined values (R8, R277, R355; for a launched team log entry 119). -/
def State.scrambleScratch (s : State) (cl base size : Nat) : State :=
  { s with mem := Memory.write s.mem (placeScratch cl base) size (Config.freeNat s.fresh 5000) }

/-- Whether a flight has a resident team. -/
def Flight.anyResident (f : Flight) : Bool := f.members.any fun p => match p.2.place with | .resident _ _ _ => true | _ => false

/-- A team now stands at a site (R342: its flight's starvation clock restarts; R388: a context that holds no core begins its slice). -/
def State.seatTeam (s : State) (flight team site base : Nat) : State :=
  let cl := siteCluster site
  match s.flight? flight with
  | none => s
  | some f =>
    let s0 := if s.flights.any (fun p => p.2.ctx = f.ctx && p.2.anyResident) then s else s.modCtx f.ctx fun c => { c with sliceStart := s.fwCycle }
    let s1 := s0.modCluster cl fun c => { c with allocs := if f.scratch = 0 then c.allocs else c.allocs ++ [(base, f.scratch, flight, team)] }
    let s2 := s1.modTeam flight team fun t =>
      { t with place := .resident ((siteCores site).headD 0) (decide (384 ≤ site)) base, runsince := none, candidate := none, residentAt := s.fresh,
               granted := none, imago := [] }
    s2.modFlight flight fun f => { f with clockStart := (s2.die (s2.homeDie f)).cycle, preempted := false }

/-- A launch team's band (R52, R378). -/
def launchBand (f : Flight) (flight team b pc : Nat) : Band :=
  { flight := flight, team := team, bandid := b, width := f.bandw, kregs := f.kinit, quota := f.regs
    threads := (List.range f.bandw).map fun t => { pc := pc, tidx := tidxOf team f.teamb b f.bandw t } }

/-- The start of a launch team in a room. -/
def State.startTeam (s : State) (f : Flight) (flight team site : Nat) (ks : List Nat) (base : Nat) : State :=
  let pc := s.entryPc ((siteCores site).headD 0) f.entryOv f.entryOff
  let s1 := ks.zipIdx.foldl (fun (s : State) p => s.setBand p.1 (launchBand f flight team p.2 pc)) s
  ((s1.seatTeam flight team site base).scrambleScratch (siteCluster site) base f.scratch).begun flight

/-- Insertion of a spawn record by TIDX. -/
def insertSpawn (r : Spawn) : List Spawn → List Spawn
  | [] => [r]
  | q :: l => if r.tidx ≤ q.tidx then r :: q :: l else q :: insertSpawn r l

/-- An imago band from its records (R276, R277), its listed registers mapped on free ones. -/
def State.imagoBand (s : State) (k : Nat) (f : Flight) (flight team : Nat) (recs : List Spawn) : Band :=
  let rs := recs.foldr insertSpawn []
  let r0 := rs.head?
  let pc := match r0 with | some r => s.entryPc (keyCore k) r.ovid r.off | none => 0
  let th (t : Nat) : Thread := match rs[t]? with
    | some r => { pc := pc, depth := r.depth, tidx := r.tidx, rndctr := r.rndctr }
    | none => { pc := pc, state := .exited }
  let b : Band := { flight := flight, team := team, bandid := 0, width := f.bandw, kregs := f.kinit, quota := f.regs,
                    threads := (List.range f.bandw).map th }
  let names := match r0 with
    | some r => (members r.lmask 16).filterMap fun i => if rs.any fun q => bitOf q.live i then some (r.areg + i) else none
    | none => []
  rs.zipIdx.foldl (fun b p => p.1.vals.foldl (fun b v =>
    if bitOf p.1.live v.1 then b.writeV (p.1.areg + v.1) p.2 v.2 else b) b) (s.mapAll k b names)

/-- The start of an imago team in a room (R277): its threads join the flight-mode records, and acquire at cluster scope. -/
def State.startImago (s : State) (f : Flight) (flight team site : Nat) (recs : List Spawn) (ks : List Nat) (base : Nat) : State :=
  match ks with
  | [] => s
  | k :: _ =>
    let b := s.imagoBand k f flight team recs
    let s1 := (((s.setBand k b).seatTeam flight team site base).scrambleScratch (siteCluster site) base f.scratch).modTeam flight team fun t =>
      { t with tidxs := b.threads.map (·.tidx) }
    let live := List.range recs.length
    let s2 := (live.foldl (fun (s : State) _ => s.joinRecords flight) s1).begun flight
    s2.acquire k live 3 (s2.invsTo (keyCore k))

/-! ### Saving (R338, R390 to R397) -/

/-- Whether a band is stopped at an instruction boundary, or at its SAFEs (R396, R397). -/
def Band.stopHolds (b : Band) : Bool := match b.stop with | some (1, _) | some (3, _) => true | _ => false

/-- The ready threads of a band that stand inside a REP unit, which a stop lets end (R84). -/
def Band.midUnit (b : Band) : List Nat := (b.inState .ready).filter fun t => decide (0 < (b.thread t).rep)

/-- The slot keys of a team's resident bands. -/
def State.teamKeys (s : State) (flight team : Nat) : List Nat :=
  (s.bands.filter fun p => p.2.flight = flight && p.2.team = team).map (·.1)

/-- The mode of a stop request (R395): 1 at an instruction boundary, 2 at SAFEs. -/
def State.stopMode (s : State) (b : Band) : Nat :=
  let nsafe := match s.flight? b.flight with | some f => f.nsafe | none => 0
  if b.halted || b.mapped ≤ 64 || nsafe = 0 then 1 else 2

/-- A stop requested of a band, with its tracker reset (R332, R395); one that waits already stands. -/
def State.requestStop (s : State) (k mode : Nat) : State :=
  s.modBand k fun b => { b.resetTracker with stop := some (match b.stop with
    | some (m, c) => if mode = 1 && m = 2 then (1, c) else (m, c)
    | none => (mode, s.cycleAt (keyCore k))) }

/-- Whether a thread counts as stopped for a safe-point stop (R397): ended, parked, held as parked, halted, or at a SAFE. -/
def Band.threadRests (b : Band) (t : Nat) : Bool :=
  let th := b.thread t
  match th.state, th.park with
  | .ready, .safe _ => true
  | .ready, _ => b.heldAsParked t
  | _, _ => true

/-- Whether a band's stop has taken effect (R396, R397). -/
def Band.stopped (b : Band) : Bool :=
  b.fault.isSome || match b.stop with
    | some (1, _) => b.midUnit.isEmpty
    | some (3, _) => true
    | some _ => (List.range b.threads.length).all b.threadRests
    | none => false

/-- A safe-point stop that has taken effect holds its band (R397), and its tracker resets (R332). -/
def Band.settleStop (b : Band) : Band :=
  match b.stop with
  | some (2, c) => if b.stopped then { b.resetTracker with stop := some (3, c) } else b
  | _ => b

/-- The registers of a band as a save writes them (R397): a thread stopped at a SAFE keeps those of its VMASK. -/
def Band.forSave (b : Band) (vmasks : Tbl Nat) : Band :=
  let cut (n : Nat) (t : Nat) : Bool := match b.stop, (b.thread t).park with
    | some (3, _), .safe id => !bitOf (Tbl.get vmasks id 0) n
    | _, _ => false
  if match b.stop with | some (3, _) => true | _ => false then
    { b with regs := (b.regs.map fun r => { r with vals := r.vals.filter fun p => !cut r.name p.1 }).filter fun r => !r.vals.isEmpty }
  else b

/-- A band that has left, as its record shows it: every thread ended. -/
def goneBand (f : Flight) (flight team b : Nat) : Band :=
  { flight := flight, team := team, bandid := b, width := f.bandw, threads := List.replicate f.bandw { state := .exited }, quota := f.regs }

/-- The PCs at which threads of a band have been resumed since their last halt (R414), as the team keeps them while absent; they come back
with the band. -/
def Band.passedBy (b : Band) : Tbl (List Nat) :=
  ((List.range b.threads.length).filter fun t => !(b.thread t).past.isEmpty).map fun t => (256 * b.bandid + t, (b.thread t).past)
def Band.withPassed (b : Band) (passed : Tbl (List Nat)) : Band :=
  b.modThreads (List.range b.threads.length) fun t th => { th with past := Tbl.get passed (256 * b.bandid + t) [] }

/-- The bands of a resident team by index, as a save writes them. -/
def State.bandsForSave (s : State) (f : Flight) (flight team teamb : Nat) : List Band :=
  (List.range teamb).map fun i => match (s.findBand flight team i).bind s.band? with
    | some b => b.forSave f.vmasks
    | none => goneBand f flight team i

/-- The bytes of a team record with bands of these sizes (R390). -/
def recordBytes (bs : List Band) (scratch : Nat) : Nat := 256 + bs.length * (bs.map (·.recordSize)).foldl max 0 + scratch

/-- An address for a team record in a context's save area (R389); none where it has no room. -/
def State.recordRoom (s : State) (ctx size : Nat) : Option Nat :=
  match s.ctx? ctx with
  | none => none
  | some c =>
    let lo := 2304 * 96
    (freeBase size (c.csasize - lo) (c.records.map fun r => (r.1 - (c.csabase + lo), r.2)) (Config.pick s.fresh 1001)).map (c.csabase + lo + ·)

/-- A save of a resident team begins, where the save area has room (R338, R389); a save under way is one (R340, R398), and
a task's team whose threads have all ended stays for its end (R357). -/
def State.beginSave (s : State) (flight team : Nat) (for' : Option (Nat × Nat)) (mode : Option Nat) : State :=
  match s.flight? flight with
  | none => s
  | some f => match Tbl.find? f.members team with
    | none => s
    | some t => match t.place with
      | .resident _ _ _ =>
        if t.saving ≠ 0 || (s.teamKeys flight team).all (fun k => (s.band? k).all Band.allExited) || (s.recordRoom f.ctx (recordBytes (s.bandsForSave f flight team t.teamb) f.scratch)).isNone then s
        else
          let s1 := s.modTeam flight team fun t => { t with saving := 1, saveWait := [], savingFor := for' }
          (s1.teamKeys flight team).foldl (fun (s : State) k =>
            match s.band? k with
            | some b => s.requestStop k (mode.getD (s.stopMode b))
            | none => s) s1
      | _ => s

/-- The dirty sectors of a core tagged narrower than device scope leave as writes (R204, R338). -/
def State.flushNarrow (s : State) (core scope : Nat) : State :=
  (((s.core core).l1).filter fun p => decide (p.2.tag < scope) && !p.2.dirty.isEmpty).foldl
    (fun (s : State) p => [0, 1, 2, 3].foldl (fun (s : State) i => s.writeBack core p.1 i) s) s

/-- The threads of a team that wait on barrier records, as its save records them (R320, R321). -/
def Band.waiters (b : Band) : List AbsentWaiter :=
  (List.range b.threads.length).filterMap fun t => match (b.thread t).state, (b.thread t).park with
    | .onBarrier, .barrier ref _ phase ord scope len =>
      some { team := b.team, band := b.bandid, thread := t, ref := ref, phase := phase, ord := ord, scope := scope, len := len }
    | _, _ => none

/-- ABSENT and TEAMS of a flight's records written from the threads of absent teams (R320). -/
def State.recount (s : State) (flight : Nat) (refs : List BarRef) : State :=
  refs.foldl (fun (s : State) r => match s.barAt flight r, s.flight? flight with
    | some p, some f =>
      let here := f.absent.filter fun w => w.ref = r
      s.barSet p { s.barGet p with absent := here.length, teams := ((here.map (·.team)).eraseDups).length }
    | _, _ => s) s

/-- Whether a band saved now leaves its team runnable (R334): a thread ready, on a watch, at a service that is done, or at a band operation
that has completed and not issued (log entry 120). -/
def Band.savedRunnable (b : Band) : Bool :=
  !b.done.isEmpty || b.threads.any fun th => match th.state, th.park with
    | .ready, _ => true
    | .onWatch, _ => true
    | .atOp, .ecall _ _ done => done
    | _, _ => false

/-- The header of a team record, 256 bytes (R390). -/
def State.teamHeader (s : State) (f : Flight) (flight team : Nat) (t : Team) (core : Nat) (cores : List Nat) (stride : Nat) : Nat :=
  let tuse := t.tuse
  let tags := (cores.map fun c => (s.core c).tags).foldl (fun a x => a ||| x) 0 &&& tuse
  let pend (g : Nat) : Nat := if bitOf tuse g then (cores.map fun c => Tbl.get (s.core c).pend g 0).sum else 0
  let ov (i : Nat) : Nat :=
    let o := (s.core core).overlays.getD i {}
    if o.ovid.isNone || o.words.isEmpty then 0 else o.ovid.getD 0 + o.words.length * 2 ^ 16 + o.src * 2 ^ 32
  2 + t.teamb * 2 ^ 8 + f.bandw * 2 ^ 16 + (if 1 < cores.length then 1 else 0) * 2 ^ 24 + team * 2 ^ 32 + flight * 2 ^ 64 + f.ctx * 2 ^ 96
    + f.scratch * 2 ^ 128 + stride * 2 ^ 160 + tuse * 2 ^ 192 + tags * 2 ^ 256 + packed 2 ((List.range 64).map pend) * 2 ^ 512
    + packed 12 ((List.range 4).map ov) * 2 ^ 1536

/-- The tags of a team moved off its cores by a save (R390). -/
def State.moveTags (s : State) (cores : List Nat) (tuse : Nat) : State :=
  cores.foldl (fun (s : State) c => s.modCore c fun x =>
    { x with tags := (List.range 64).foldl (fun a g => if bitOf tuse g && bitOf a g then a - 2 ^ g else a) x.tags
             pend := x.pend.filter fun p => !bitOf tuse p.1 }) s

/-- Steps 4 and 5 of R338: the record written at the slices, the waiters recorded, and the room freed; it waits where the save
area has no room (R389). -/
def State.writeTeam (s : State) (f : Flight) (flight team : Nat) (t : Team) (core : Nat) (pair : Bool) (base : Nat) : State :=
  let bs := s.bandsForSave f flight team t.teamb
  let stride := (bs.map (·.recordSize)).foldl max 0
  match s.recordRoom f.ctx (recordBytes bs f.scratch) with
  | none => s
  | some a =>
    let cores := if pair then [core, core + 1] else [core]
    let s1 := s.fwWrite a 256 (s.teamHeader f flight team t core cores stride)
    let s2 := bs.zipIdx.foldl (fun (s : State) p =>
      (p.1.chunks s.fresh 31).foldl (fun (s : State) c => s.fwWrite (a + 256 + p.2 * stride + c.1) c.2.1 c.2.2) s) s1
    let s3 := s2.fwWrite (a + 256 + t.teamb * stride) f.scratch (s2.scratchRead (coreCluster core) base f.scratch)
    let ws := bs.flatMap Band.waiters
    let halted := bs.any fun b => !(b.inState .halted).isEmpty
    let s4 := (s3.moveTags cores t.tuse).modCtx f.ctx fun c => { c with records := c.records ++ [(a, recordBytes bs f.scratch)] }
    let s5 : State := { s4 with bands := s4.bands.filter fun p => !(p.2.flight = flight && p.2.team = team) }
    let s6 := (s5.freeTeam flight team (.absent a)).modTeam flight team fun t =>
      { t with saving := 0, saveWait := [], savingFor := none, passed := bs.flatMap Band.passedBy, runsince := if !halted && (bs.any Band.savedRunnable || !s.coreWorks core) then some s.fresh else none }
    (s6.modFlight flight fun f => { f with absent := f.absent ++ ws }).recount flight ((ws.map (·.ref)).eraseDups)

/-- The next step of a team's save (R338): its bands come to rest and drain; its cores' narrow dirty sectors leave; once they are
performed and the side log holds nothing of the team, its record is written. -/
def State.saveStep (s0 : State) (flight team : Nat) : State :=
  match s0.flight? flight with
  | none => s0
  | some f => match Tbl.find? f.members team with
    | none => s0
    | some t => match t.place with
      | .resident core pair base =>
        let ks := s0.teamKeys flight team
        let s := ks.foldl (fun (s : State) k => s.modBand k Band.settleStop) s0
        let bs := ks.filterMap s.band?
        let cores := if pair then [core, core + 1] else [core]
        if t.saving = 0 || !bs.all Band.stopped then s
        else if t.saving = 1 then
          if bs.any fun b => decide (0 < b.outstanding .ld) || decide (0 < b.outstanding .st) then s
          else
            let s1 := cores.foldl (fun (s : State) c => s.flushNarrow c 5) s
            s1.modTeam flight team fun t => { t with saving := 2, saveWait := cores.flatMap s1.writesOf }
        else
          let flying := t.saveWait.any fun i => s.msgs.any fun m => m.id = i
          let uids := bs.map (·.uid)
          let logged := s.cores.any fun c => c.2.sidelog.any fun e => uids.contains e.uid && decide (e.scope ≤ 5)
          if flying || logged then s else s.writeTeam f flight team t core pair base
      | _ => s0

/-! ### Restoring (R338, R391, R394, R399, R325) -/

/-- Whether a saved band record breaks R399. -/
def State.bandBad (s : State) (a width : Nat) : Bool :=
  let h := recHead (s.fwRead a 64)
  let r (o n : Nat) : Nat := s.fwRead (a + o) n
  h.kind ≠ 1 || h.width ≠ width || !bitOf h.parts 4 || 32 ≤ h.parts || r 3 1 ≠ 0 || decide (h.quota < h.mapped) || r 22 2 ≠ 0
    || bits (r 8 4) 31 10 ≠ 0 || bits (r 8 4) 7 5 ≠ 0 || decide (4 ≤ r 38 1) || r 39 25 ≠ 0 || r 0x3A0 96 ≠ 0
    || (List.range 64).any (fun t =>
        let p := r (0x280 + 4 * t) 4
        decide (6 ≤ bits p 31 24) || bitOf (r (0x40 + t) 1) 7 || decide (2 ≤ r (0x40F + 16 * t) 1)
          || (decide (width ≤ t) && (p ≠ 0 || r (0x40 + t) 1 ≠ 0 || r (0x80 + 4 * t) 4 ≠ 0 || r (0x400 + 16 * t) 16 ≠ 0)))
    || (List.range 256).any fun n => bits (r (0x800 + 4 * n) 4) 30 9 ≠ 0

/-- Whether a team record breaks R399. -/
def State.recordBad (s : State) (a width : Nat) : Bool :=
  s.fwRead a 1 ≠ 2 || decide (2 ≤ s.fwRead (a + 3) 1) || s.fwRead (a + 2) 1 ≠ width || s.fwRead (a + 40) 24 ≠ 0 || s.fwRead (a + 240) 16 ≠ 0
    || (List.range (s.recTeamb a)).any fun b => s.bandBad (s.recBand a b) width

/-- The length of the instruction at a program counter. -/
def State.lenAt (s : State) (core pc : Nat) : Nat :=
  match Decode.decodeAt pc (s.wordsFrom core pc) with
  | .ok p => p.2
  | .error _ => 1

/-- A thread from its entries in a band record (R394). -/
def State.recThread (s : State) (f : Flight) (core a team t tidx : Nat) : Thread :=
  let r (o n : Nat) : Nat := s.fwRead (a + o) n
  let pos := r (0x280 + 4 * t) 4
  let d := r (0x400 + 16 * t) 16
  let st := if bits d 103 96 = 8 && bitOf (r 38 1) 1 then .halted else TState.of (bits pos 26 24)
  let pc := pos % 65536
  let addr := d % 2 ^ 64
  let pph := bits d 95 64
  let kind := bits d 103 96
  let ord := bits d 111 104
  let scope := bits d 119 112
  let park : Park := match kind with
    | 1 => .barrier { space := 0, addr := (translate (s.ctxRanges f.ctx) {} addr).getD 0 } addr pph ord scope (s.lenAt core pc)
    | 2 => .barrier { space := 1, team := team, addr := addr % 2 ^ 32 } (addr % 2 ^ 32) pph ord scope (s.lenAt core pc)
    | 3 => .op addr
    | 4 => .ecall (addr % 65536) pph (bitOf d 120)
    | 5 => .waitw (s.cycleAt core) (s.lenAt core pc)
    | 6 => .loop (s.cycleAt core)
    | 0 => if st = .halted && bitOf pph 8 then .brk else if ord ≠ 0 then .acquire ord scope else .none
    | _ => .none
  { state := st, depth := bits pos 23 16, pc := pc, preds := r (0x40 + t) 1 % 128, rndctr := r (0x80 + 4 * t) 4, inTrap := bitOf (r 24 8) t,
    tidx := tidx, rep := if kind ≤ 3 && kind ≠ 1 && kind ≠ 2 || kind = 7 then pph % 256 else 0, park := park }

/-- The counted runs of a band that its outstanding copies and tile operations belong to (R393, R394). -/
def State.openGroups (s : State) (uid : Nat) : List Group :=
  let cps := List.filter (fun p : Nat × Copy => uidOf p.2.flight p.2.team p.2.bandid = uid) s.copies
  let ents := s.clusters.flatMap fun c => (List.map (fun p : Nat × Entry => p.2) c.2.engine.table ++ c.2.engine.removed.map (·.2)).filter fun e =>
    e.uid = uid && !e.ring
  let cgs := (cps.map fun p => p.2.gid).eraseDups.map fun g =>
    ({ gid := g, cls := .cp, left := (cps.filter fun p => p.2.gid = g).map fun p => (p.2.thread, 1) } : Group)
  cgs ++ ents.map fun e => match e.op with
    | .acmp _ _ _ _ _ _ p ts => { gid := e.gid, cls := .tl, dest := .pred p, left := ts.map fun t => (t, 1) }
    | _ => { gid := e.gid, cls := .tl, left := [(e.thread, 1)] }

/-- The halt record of a band restored halted (R415): a record of R393 holds only that the band is halted, so its fields are open (log
entry 121). -/
def Halt.free (fresh k : Nat) : Halt :=
  let x (i : Nat) : Nat := Config.freeNat fresh (4 * k + i)
  { why := 1 + x 0 % 7, idx := x 1 % 256, pc := x 2 % 65536, tid := x 3 % 64, addr := x 4 % 2 ^ 64 }

/-- A band from its record, placed at a slot (R392, R399). -/
def State.recBandAt (s : State) (f : Flight) (k a flight team b : Nat) (tidxs : List Nat) : Band :=
  let r (o n : Nat) : Nat := s.fwRead (a + o) n
  let tidx (t : Nat) : Nat := if tidxs.isEmpty then tidxOf team f.teamb b f.bandw t else tidxs.getD t 0
  let halted := bitOf (r 38 1) 1
  let b0 : Band :=
    { flight := flight, team := team, bandid := b, width := f.bandw, quota := r 4 2, bec := r 8 1 % 32, mx := bitOf (r 8 4) 9, qov := bitOf (r 8 4) 8,
      rndseed := r 12 4, phase := r 16 1 % 16, kregs := (List.range 64).map fun i => BitVec.ofNat 32 (r (0x180 + 4 * i) 4), halted := halted,
      halt := if halted then Halt.free s.fresh k else {},
      threads := (List.range f.bandw).map fun t => s.recThread f (keyCore k) a team t (tidx t),
      task := if isTask team then some ((team - 0x80000000) / max f.tlots 1, (team - 0x80000000) % max f.tlots 1) else none
      succ := if bitOf (r 38 1) 0 then some { ovid := r 34 2, off := r 32 2, a := r 36 1, n := r 37 1 } else none }
  let regs := recRegs r f.bandw (r 6 2) fun _ => 0
  let placed := s.mapAll k b0 (regs.map (·.name))
  { b0 with regs := regs.map fun v => { v with preg := ((placed.reg? v.name).map (·.preg)).getD 0 }
            groups := s.openGroups b0.uid }

/-- The watch set of a restored band: each line armed with every event bit set (R325). -/
def State.rearm (s : State) (k a : Nat) : State :=
  ((List.range 4).map fun i => s.fwRead (a + 0x380 + 8 * i) 8).foldl (fun (s : State) n =>
    if n = 0 then s
    else
      let free := s.tableHas k n
      s.modBand k fun b => { b with watches := b.watches ++ [{ name := n, tabled := free, events := 2 ^ b.width - 1 }] }) s

/-- The threads of a restored band that wait on a watch wake (R325). -/
def Band.wakeRestored (b : Band) : Band :=
  (List.range b.threads.length).foldl (fun b t =>
    match (b.thread t).state, (b.thread t).park with
    | .onWatch, .waitw _ len => (b.clearEvents t).wake t len
    | .onWatch, _ => b.wake t 0
    | _, _ => b) b

/-- A service that was done while its team was away: its status lands and its threads advance (R183, R394). -/
def State.landEcalls (s : State) (k : Nat) : State :=
  match s.band? k with
  | none => s
  | some b =>
    let mine (e : Ecall) : Bool := decide (uidOf e.flight e.team e.bandid = b.uid) && e.status.isSome
    (List.filter (fun p : Nat × Ecall => mine p.2) s.ecalls).foldl (fun (s : State) p =>
      match s.band? k with
      | none => s
      | some b =>
        let ts := p.2.threads.filter fun t => match (b.thread t).park with | .ecall _ _ _ => (b.thread t).state = .atOp | _ => false
        match s.allocate k b [p.2.dreg] with
        | .error (.fault code a x y) =>
          s.stopBand k { code := code, pc := p.2.pc, btid := ts.headD 0, addr := a, aux0 := x, aux1 := y }
        | .error _ => s
        | .ok b1 =>
          let b2 := ts.foldl (fun b t => (b.writeV p.2.dreg t (BitVec.ofNat 32 (p.2.status.getD 0))).wake t 1) b1
          { s.setBand k b2 with ecalls := Tbl.del s.ecalls p.1 }) s

/-- The acquires and wakes of one restored band: at device scope for every thread (R338), then those of threads released while away
(R321), the watches (R325), barriers whose phase has come (R394), services done, and instances (R149). -/
def State.wakeRestored (s : State) (k a : Nat) : State :=
  let core := keyCore k
  match s.band? k with
  | none => s
  | some b =>
    let s1 := s.acquire k ((List.range b.threads.length).filter fun t => (b.thread t).state ≠ .exited) 5 (s.invsTo core)
    let s2 := (List.range b.threads.length).foldl (fun (s : State) t => match (b.thread t).park with
      | .acquire _ scope => (s.modBand k fun b => b.modThread t fun th => { th with park := .none }).acquire k [t] scope (s.invsTo core)
      | _ => s) s1
    let s3 := (s2.rearm k a).modBand k Band.wakeRestored
    let refs := (b.waiters.map (·.ref)).eraseDups
    let s4 := refs.foldl (fun (s : State) r => match s.barAt b.flight r with
      | some p => s.wakeBarrier k r (s.barGet p).phase
      | none => s) s3
    (s4.landEcalls k).modBand k Band.evalInstances

/-- A team record leaves its save area. -/
def State.freeRecord (s : State) (ctx a : Nat) : State := s.modCtx ctx fun c => { c with records := c.records.filter fun r => r.1 ≠ a }

/-- The tags of a restored team (R390): TIMG joins the cores' TAGS, and each core's PEND takes the copies of its bands. -/
def State.takeTags (s : State) (cores : List Nat) (flight team a : Nat) : State :=
  let timg := s.fwRead (a + 32) 8
  let pend (g : Nat) : Nat := s.fwRead (a + 64 + 2 * g) 2
  let onCore (c g : Nat) : Nat :=
    (List.filter (fun p : Nat × Copy => p.2.flight = flight && p.2.team = team && p.2.tag = some g
      && (match s.keyOfUid (uidOf flight team p.2.bandid) with | some k => decide (keyCore k = c) | none => false)) s.copies).length
  let rest := cores.tail
  cores.foldl (fun (s : State) c => s.modCore c fun x =>
    { x with tags := x.tags ||| timg
             pend := (List.range 64).foldl (fun t g =>
               let n := if rest.contains c then onCore c g else pend g - (rest.map fun d => onCore d g).sum
               if n = 0 then t else Tbl.put t g (Tbl.get t g 0 + n)) x.pend }) s

/-- A saved team restored in a room (R338). -/
def State.restoreTeam (s : State) (f : Flight) (flight team site a : Nat) (tidxs : List Nat) (ks : List Nat) (base : Nat) : State :=
  let cores := siteCores site
  let bands := (s.recBands a f.bandw).zip ks
  let passed := match s.team? flight team with | some t => t.passed | none => []
  let s1 := bands.foldl (fun (s : State) p => s.setBand p.2 ((s.recBandAt f p.2 (s.recBand a p.1) flight team p.1 tidxs).withPassed passed)) s
  let image := s1.fwRead (s1.recScratch a) f.scratch
  let s2 : State := { s1 with mem := Memory.write s1.mem (placeScratch (siteCluster site) base) f.scratch image }
  let tuse := s2.fwRead (a + 24) 8
  let gone := match s.flight? flight with | some f => f.absent.filter (fun (w : AbsentWaiter) => w.team = team) | none => []
  let s3 := ((s2.seatTeam flight team site base).modTeam flight team fun t => { t with tuse := tuse, passed := [] }).modFlight flight fun f =>
    { f with absent := f.absent.filter fun w => w.team ≠ team }
  let s4 := (s3.recount flight ((gone.map AbsentWaiter.ref).eraseDups)).takeTags cores flight team a
  (bands.foldl (fun (s : State) p => s.wakeRestored p.2 (s.recBand a p.1)) s4).freeRecord f.ctx a

/-- Threads of an absent team end, on its record (R347): STATE 5, every withdrawal, and their waits are discarded; a team whose
every thread has ended is discarded, and another is runnable as its record now says (R334). The record of a snapshot stays as it is (R476). -/
def State.killAbsent (s : State) (flight team : Nat) (who : Nat → Nat → Bool) (keep : Bool) : State :=
  match s.flight? flight with
  | none => s
  | some f => match Tbl.find? f.members team with
    | none => s
    | some t => match t.place with
      | .absent a =>
        let all := (List.range (s.recTeamb a)).flatMap fun b => ((s.recLive a b f.bandw).filter fun i => who b i).map fun i => (b, i)
        let tidx (p : Nat × Nat) : Nat := if t.tidxs.isEmpty then tidxOf team f.teamb p.1 f.bandw p.2 else t.tidxs.getD p.2 0
        let mine (w : AbsentWaiter) : Bool := w.team = team && all.contains (w.band, w.thread)
        let refs := ((f.absent.filter mine).map (·.ref)).eraseDups
        let s0 := (s.modFlight flight fun f =>
          { f with absent := f.absent.filter (!mine ·), exited := if isTask team then f.exited else f.exited + all.length }).recount flight refs
        let s1 := if keep then s0 else all.foldl (fun (s : State) p =>
          let o := s.recBand a p.1
          (s.fwWrite (o + 0x280 + 4 * p.2) 4 (s.recPos a p.1 p.2 % 2 ^ 24 + 5 * 2 ^ 24)).fwWrite (o + 0x400 + 16 * p.2) 16 0) s0
        let s2 := all.foldl (fun (s : State) p => s.withdraw flight team (tidx p)) s1
        let s3 : State := { s2 with ecalls := s2.ecalls.map fun p =>
          if p.2.flight = flight && p.2.team = team then (p.1, { p.2 with threads := p.2.threads.filter fun i => !all.contains (p.2.bandid, i) }) else p }
        if keep then s3.modTeam flight team fun t => { t with place := .ended, runsince := none }
        else if (s3.recBands a f.bandw).isEmpty then (s3.modTeam flight team fun t => { t with place := .ended, runsince := none }).freeRecord f.ctx a
        else s3.settleRunnable flight team
      | _ => s

/-- The lot of a task team that has ended away from its core still needs STATUS 4 (R358). -/
def State.lotFails (s : State) (f : Flight) (flight team : Nat) : State :=
  if !isTask team then s
  else s.modCluster ((team - 0x80000000) / max f.tlots 1) fun c =>
    { c with lots := c.lots.map fun l => if l.flight = flight && l.lot = (team - 0x80000000) % max f.tlots 1 then { l with due := 3 } else l }

/-- A restore that finds a corrupt record (R399): the fault record, and the team's threads are killed. -/
def State.corrupt (s : State) (f : Flight) (flight team a : Nat) : State :=
  let s1 := s.asyncFault (unposted flight f.ctx) 22 a 0 0 false
  let s2 := (s1.killAbsent flight team (fun _ _ => true) false).lotFails f flight team
  (s2.modTeam flight team fun t => { t with place := .ended, runsince := none }).freeRecord f.ctx a

/-- An absent team placed at a site that has room for it; none where the site does not admit it. A page that its overlays wait for is
requested. -/
def State.placeTeam (s : State) (flight team site : Nat) : Option State :=
  match s.flight? flight with
  | none => none
  | some f => match Tbl.find? f.members team with
    | none => none
    | some t =>
      let w := s.wantOf f t
      match s.roomAt w site with
      | none => none
      | some (ks, base) => match s.loadWaits f w (siteCores site) with
        | some ia => some (s.pageRequest ia f.ctx 0)
        | none => (s.enterCores f w (siteCores site)).map fun s1 =>
          match t.place with
          | .absent a => if s.recordBad a f.bandw then s.corrupt f flight team a else s1.restoreTeam f flight team site a t.tidxs ks base
          | .notStarted => if t.imago.isEmpty then s1.startTeam f flight team site ks base else s1.startImago f flight team site t.imago ks base
          | _ => s1

end Sys2Proof.Machine
end

