-- ==== Sys2Proof/Machine/Rotation.lean ====
section
/-!
DEFINITION. Sys2Proof/Machine/Rotation.lean: eviction candidates and starvation clocks (R333, R341, R342), the rotation scheduler
and the home scheduler (R334 to R337), and the starvation fallback (R343).
-/
namespace Sys2Proof.Machine

/-! ### Candidates, clocks (R333, R341, R342) -/

/-- Whether a thread of a band is halted by the debugger. -/
def Band.anyHalted (b : Band) : Bool := !(b.inState .halted).isEmpty

/-- Whether a resident team is an eviction candidate (R333): every thread that has not ended is parked or held as parked. A gang's team
is never one (R380). -/
def State.isCandidate (s : State) (f : Flight) (flight team : Nat) (t : Team) : Bool :=
  let bs := (s.teamKeys flight team).filterMap s.band?
  t.saving = 0 && f.gang.isNone && bs.any (fun b => !b.allExited)
    && bs.all fun b => b.fault.isNone && (List.range b.threads.length).all fun i =>
      let th := b.thread i
      match th.state with
      | .halted => false
      | .ready => b.heldAsParked i
      | _ => true

/-- Whether the debugger holds some thread of a flight (R341). -/
def State.flightHalted (s : State) (n : Nat) (f : Flight) : Bool :=
  (s.bands.any fun p => p.2.flight = n && p.2.anyHalted)
    || f.members.any fun q => match q.2.place with | .absent a => s.recHalted a | _ => false

/-- Whether a team is absent and runnable (R334), with no class-1 fault that its band stops for before its next run (R233). -/
def Team.runnable (t : Team) : Bool :=
  t.runsince.isSome && t.stops.isEmpty && match t.place with
    | .notStarted => true
    | .absent _ => true
    | _ => false

/-- Whether a flight has a runnable absent team. -/
def Flight.anyRunnable (f : Flight) : Bool := f.members.any fun p => p.2.runnable

/-- What follows each step for the schedulers: candidates noted at the moment they become so (R336), and starvation clocks that do not
run (R341, R342, R388) moved along, a request of R343 over once the clock is below STARVE; `gap` is what the cycles of each die have advanced by. -/
def State.settleTeams (s : State) (gap : Nat → Nat) : State :=
  { s with flights := s.flights.map fun p =>
      let f := p.2
      let home := s.homeDie f
      let now := (s.die home).cycle
      let out := match s.ctx? f.ctx with | some c => c.switchedOut | none => false
      let clock := if out then f.clockStart + gap home else if s.flightHalted p.1 f || !f.anyRunnable then now else f.clockStart
      let members := f.members.map fun q => match q.2.place with
        | .resident _ _ _ => (q.1, { q.2 with candidate := if s.isCandidate f p.1 q.1 q.2 then some (q.2.candidate.getD s.fresh) else none })
        | _ => q
      (p.1, { f with clockStart := clock, members := members, preempted := f.preempted && f.anyRunnable && decide (clock + f.starve ≤ now) }) }

/-! ### The choice of the next team (R336, R378, R388) -/

/-- The number of resident teams of a flight (R335). -/
def Flight.residents (f : Flight) : Nat := (List.filter (fun p : Nat × Team => match p.2.place with | .resident _ _ _ => true | _ => false) f.members).length

/-- Whether two flights share a die. -/
def State.shareDie (s : State) (f g : Flight) : Bool := (s.flightDies f).any (s.flightDies g).contains

/-- Whether a subscription still has to write the weight store of a die (R456). -/
def State.wstDue (s : State) (die : Nat) : Bool :=
  s.nodes.any fun n => n.2.subs.any fun u => u.2.wst && !u.2.fresh.isEmpty && bits u.2.dst 33 32 = die

/-- Whether a flight with weight-store write permission has its dies for itself: from its start to its end, but for a time in which its context is
switched out and no copy of it is under way (R200, R283; log entry 122). -/
def State.holdsWst (s : State) (flight : Nat) (f : Flight) : Bool :=
  f.wsw && f.started && (!(s.ctx? f.ctx).any (fun c => c.switchedOut) || s.copies.any fun p => p.2.flight = flight)

/-- Whether teams of a flight may start or be restored (R376, R378): apart from a flight with weight-store write permission (R200), and for its first
teams after the earlier launches of its queue in its partition and after every flight that writes the weight store (R283). -/
def State.mayStart (s : State) (flight : Nat) (f : Flight) : Bool :=
  (!s.flights.any fun p => p.1 ≠ flight && s.shareDie f p.2 && ((f.wsw && p.2.anyResident) || s.holdsWst p.1 p.2))
    && (f.started || (!(s.flightDies f).any s.wstDue) && !s.flights.any fun p =>
      p.1 ≠ flight && ((decide (p.1 < flight) && p.2.queue = f.queue && p.2.part = f.part && !p.2.started && !p.2.killed)
        || (s.shareDie f p.2 && p.2.wsw && p.2.started)))

/-- Whether a switched-out context of a higher priority has runnable work on a die (R388). -/
def State.outranked (s : State) (die cpri : Nat) : Bool :=
  s.flights.any fun p => !p.2.killed && (s.flightDies p.2).contains die && match s.ctx? p.2.ctx with
    | some c => c.switchedOut && decide (cpri < c.cpri) && (p.2.anyRunnable || !c.triggers.isEmpty || c.triglost)
    | none => false

/-- Whether a die's scheduler considers a flight (R336, R341, R361, R380, R388): not while a context of a higher priority waits for cores. -/
def State.considers (s : State) (die flight : Nat) (f : Flight) : Bool :=
  !f.killed && (s.flightDies f).contains die && s.mayStart flight f
    && (f.gang.isNone || f.started)
    && match s.ctx? f.ctx with | some c => !c.switchedOut && c.cstate ≠ 3 && !s.outranked die c.cpri | none => false

/-- A runnable absent team that a scheduler considers: its flight, team, RUNSINCE and the priority of its context. -/
structure Runner where
  flight : Nat
  team : Nat
  since : Nat
  cpri : Nat
  deriving DecidableEq, Repr

/-- Whether one runner comes before another: higher priority (R388), earlier RUNSINCE, lower flight, lower team (R336). -/
def Runner.before (a b : Runner) : Bool :=
  if a.cpri ≠ b.cpri then decide (b.cpri < a.cpri)
  else if a.since ≠ b.since then decide (a.since < b.since)
  else if a.flight ≠ b.flight then decide (a.flight < b.flight) else decide (a.team < b.team)

/-- The first of a list under R336. -/
def Runner.first : List Runner → Option Runner
  | [] => none
  | a :: r => match Runner.first r with
    | none => some a
    | some b => some (if a.before b then a else b)

/-- The runnable absent teams of a flight, but for those that the home scheduler has granted to another die (R337). -/
def State.runners (s : State) (die flight : Nat) (f : Flight) : List Runner :=
  let cpri := match s.ctx? f.ctx with | some c => c.cpri | none => 0
  f.members.filterMap fun p =>
    if p.2.runnable && (p.2.granted.isNone || p.2.granted = some die) then
      some { flight := flight, team := p.1, since := p.2.runsince.getD 0, cpri := cpri } else none

/-- X of R336 for a die. -/
def State.nextTeam (s : State) (die : Nat) : Option Runner :=
  Runner.first (s.flights.flatMap fun p => if s.considers die p.1 p.2 then s.runners die p.1 p.2 else [])

/-- Whether a die's scheduler holds a team: it is the home scheduler, or has its grant (R337). -/
def State.holdsTeam (s : State) (die : Nat) (f : Flight) (t : Team) : Bool := s.homeDie f = die || t.granted = some die

/-- Whether a flight may have one more resident team (R335). -/
def Flight.belowLimit (f : Flight) : Bool := f.rlim = 0 || decide (f.residents < f.rlim)

/-- The sites of a die. -/
def dieSites (d : Nat) : List Nat := ((List.range 24).map (24 * d + ·)).flatMap clusterSites

/-- The state as the room of a team would leave it (R497). -/
def State.without (s : State) (flight team : Nat) : State :=
  { s with
    bands := s.bands.filter fun p => !(p.2.flight = flight && p.2.team = team)
    clusters := s.clusters.map fun p => (p.1, { p.2 with allocs := p.2.allocs.filter fun a => !(a.2.2.1 = flight && a.2.2.2 = team) }) }

/-- Whether the room of a resident team, with free room beside it, admits what is wanted (R336, R343). -/
def State.roomOf (s : State) (flight team core : Nat) (w : Want) : Bool :=
  (clusterSites (coreCluster core)).any fun site => ((s.without flight team).roomAt w site).isSome

/-- A resident team: its flight, number and core. -/
def State.residentTeams (s : State) : List (Nat × Nat × Nat × Team) :=
  s.flights.flatMap fun p => p.2.members.filterMap fun q => match q.2.place with
    | .resident core _ _ => some (p.1, q.1, core, q.2)
    | _ => none

/-- E of R336: the candidate of the die that has been one longest among those whose room admits the team. -/
def State.evictee (s : State) (die : Nat) (x : Runner) (w : Want) (own : Bool) : Option (Nat × Nat) :=
  let cs := s.residentTeams.filter fun q =>
    q.2.2.2.candidate.isSome && coreDie q.2.2.1 = die && (!own || q.1 = x.flight) && s.roomOf q.1 q.2.1 q.2.2.1 w
  (minBy (fun q : Nat × Nat × Nat × Team => (q.2.2.2.candidate.getD 0) * 1024 + q.2.2.1) cs).map fun q => (q.1, q.2.1)

/-- The team of a runner, with its flight. -/
def State.runnerTeam (s : State) (x : Runner) : Option (Flight × Team) :=
  (s.flight? x.flight).bind fun f => (Tbl.find? f.members x.team).map fun t => (f, t)

/-- Whether some team is being saved to make room for a team. -/
def State.savingFor (s : State) (x : Runner) : Bool := s.residentTeams.any fun q => q.2.2.2.savingFor = some (x.flight, x.team)

/-- ROTATION_SCHEDULE (R336): where no free room of the die admits the next team, the candidate of longest standing whose room does is
saved; without one, the team returns to its flight's home scheduler. Its restore is TEAM_RESTORE. -/
def execRotationSchedule (die : Nat) (s : State) : Out :=
  match s.nextTeam die with
  | none => .next s
  | some x => match s.runnerTeam x with
    | none => .next s
    | some (f, t) =>
      if !s.holdsTeam die f t || s.savingFor x then .next s
      else
        let w := s.wantOf f t
        if f.belowLimit && (dieSites die).any fun site => (s.roomAt w site).isSome then .next s
        else match s.evictee die x w (!f.belowLimit) with
          | some (ef, et) => .next (s.beginSave ef et (some (x.flight, x.team)) none)
          | none => .next (s.modTeam x.flight x.team fun t => { t with granted := none })

/-- HOME_SCHEDULER_REQUEST (R337): the home scheduler of a flight grants its first runnable absent team to a die of the partition that
asks for one. -/
def execHomeSchedulerRequest (die flight : Nat) (s : State) : Out :=
  match s.flight? flight with
  | none => .next s
  | some f =>
    if !s.considers die flight f || s.homeDie f = die || f.members.any (fun p => p.2.granted = some die && p.2.runnable) then .next s
    else match Runner.first ((s.runners die flight f).filter fun r => (Tbl.find? f.members r.team).any fun t => t.granted.isNone) with
      | some x => .next (s.modTeam flight x.team fun t => { t with granted := some die })
      | none => .next s

/-- TEAM_RESTORE (R336, R338): the next team of a die, where its flight is below RLIM, starts or is restored at a site of the die
that admits it, a saved team first at one that holds its overlays (R391); a site is a core, or 384 plus the number of a core pair. -/
def execTeamRestore (flight team core : Nat) (s : State) : Out :=
  let die := clusterDie (siteCluster core)
  match s.nextTeam die with
  | none => .next s
  | some x => match s.runnerTeam x with
    | none => .next s
    | some (f, t) =>
      let w := s.wantOf f t
      let stands (site : Nat) : Bool := s.overlaysStand (siteCores site) w && (s.roomAt w site).isSome
      let better := match w.overlays with | .saved _ => !s.overlaysStand (siteCores core) w && (dieSites die).any stands | _ => false
      if x.flight ≠ flight || x.team ≠ team || !s.holdsTeam die f t || !f.belowLimit || better then .next s
      else .next ((s.placeTeam flight team core).getD s)

/-! ### The starvation fallback (R342, R343) -/

/-- The pre-emption that a check makes for a flight (R343); of a team that is being saved already it is that save (R340). -/
def State.starved (s : State) (flight : Nat) (f : Flight) : State :=
  let xs := f.members.filterMap fun p =>
    if p.2.runnable then some ({ flight := flight, team := p.1, since := p.2.runsince.getD 0, cpri := 0 } : Runner) else none
  match (Runner.first xs).bind s.runnerTeam with
  | none => s
  | some (_, t) =>
    let w := s.wantOf f t
    let mine := s.residentTeams.filter fun q => q.1 = flight
    let fit := mine.filter fun q => s.roomOf q.1 q.2.1 q.2.2.1 w
    match minBy (fun q : Nat × Nat × Nat × Team => q.2.2.2.residentAt) (if fit.isEmpty then mine else fit) with
    | none => s
    | some q =>
      let s1 := s.beginSave flight q.2.1 none none
      if s1.isSaving flight q.2.1 then s1.modFlight flight fun f => { f with preempted := true } else s

/-- STARVATION_CHECK (R342, R343): every 1,024 cycles of a die, the flights whose home scheduler is the die's are checked. -/
def execStarvationCheck (die : Nat) (s : State) : Out :=
  let now := (s.die die).cycle
  if now < (s.die die).lastCheck + 1024 then .next s
  else
    let s1 := s.setDie die { s.die die with lastCheck := now }
    .next ((s.flights.map (·.1)).foldl (fun (s : State) n => match s.flight? n with
      | some f =>
        if s.homeDie f = die && !f.killed && f.gang.isNone && !f.preempted && f.anyRunnable && decide (f.clockStart + f.starve ≤ now) then s.starved n f else s
      | none => s) s1)

end Sys2Proof.Machine
end

