-- ==== Sys2Proof/Machine/Launch.lean ====
section
/-!
DEFINITION. Sys2Proof/Machine/Launch.lean: the queue mapper (R364), the front end's reading of rings (R365 to R372), launches (R373 to
R378) and the completion of a flight (R379).
-/
namespace Sys2Proof.Machine

/-! ### Rings (R365, R366, R368) -/

/-- The extended index of the first packet of the segment that a queue reads, the one at RSEG. -/
def Queue.segFirst (q : Queue) : Nat :=
  match List.find? (fun p : Nat × Nat => p.1 = q.primary.rseg) q.segments.reverse with | some p => p.2 | none => q.primary.ridx / 63 * 63
/-- Whether a queue's next slot is slot 63 (R368). -/
def Queue.atLink (q : Queue) : Bool := q.primary.ridx = q.segFirst + 63
/-- The address of a queue's next slot. -/
def Queue.slotAddr (q : Queue) : Nat := (q.primary.rseg + 64 * (q.primary.ridx - q.segFirst)) % 2 ^ 64
/-- The index that a halt at the next slot records; for slot 63 that of the segment's last packet. -/
def Queue.haltIndex (q : Queue) : Nat := (if q.atLink then q.primary.ridx + 2 ^ 32 - 1 else q.primary.ridx) % 2 ^ 32

/-- STATUS and REASON of a packet written (R369). -/
def State.setStatus (s : State) (ctx addr status reason : Nat) : State := s.vaPut ctx (addr + 2) 2 (status + 256 * (reason % 256))

/-- A QCB update begun after a packet: the next event of the queue ends it (R384). -/
def State.updQcb (s : State) (q : Nat) (x : Queue) (f : Qcb → Qcb) : State :=
  s.setQueue q ({ x with header := none, waiting := false, emptyAt := none, recov := false }.beginUpdate f)

/-- The next packet, with a flight or not, is behind the queue. -/
def State.pastPacket (s : State) (q : Nat) (x : Queue) (n : Nat) : State := s.updQcb q x fun p => { p with ridx := p.ridx + n }

/-- The queue halts at its next packet (R362). -/
def State.haltQueue (s : State) (q : Nat) (x : Queue) : State :=
  s.updQcb q x fun p => { p with state := 3, hidx := x.haltIndex, qslot := 0xFFFFFFFF }

/-- A malformed packet (R370): STATUS 5 with the offset of its first wrong field, and the queue halts. -/
def State.badPacket (s : State) (q : Nat) (x : Queue) (offset : Nat) : State :=
  (s.setStatus x.primary.ctx x.slotAddr 5 offset).haltQueue q x

/-- The packets of a queue that are not final: its flights under way (R369). -/
def State.queueBusy (s : State) (q : Nat) : Bool := s.flights.any fun p => p.2.queue = q

/-- The headers of a segment empty (R367). -/
def State.emptySegment (s : State) (ctx seg : Nat) : State :=
  (List.range 64).foldl (fun (s : State) i => s.vaPut ctx (seg + 64 * i) 8 0xFF) s

/-- The segments before the one at RSEG whose packets are all final (R368). -/
def State.returnable (s : State) (q : Nat) (x : Queue) : List (Nat × Nat) :=
  (x.segments.takeWhile fun p => p.1 ≠ x.primary.rseg).filter fun p =>
    !s.flights.any fun f => f.2.queue = q && decide (p.1 ≤ f.2.packet) && decide (f.2.packet < p.1 + 4096)

/-- Passed segments whose packets are final return to the free list (R368). -/
def State.returnSegments (s : State) (q : Nat) : State :=
  let x := s.queue q
  (s.returnable q x).foldl (fun (s : State) p =>
    let s1 : State := { s.emptySegment x.primary.ctx p.1 with freeSegs := s.freeSegs ++ [p.1] }
    s1.setQueue q { s1.queue q with segments := (s1.queue q).segments.filter (· ≠ p) }) s

/-- A segment that a queue comes to, in its list; it stands there already where a QCB update that moved RSEG to it was undone (R385). -/
def Queue.withSegment (q : Queue) (next first : Nat) : Queue :=
  { q with segments := if q.segments.contains (next, first) then q.segments else q.segments ++ [(next, first)] }

/-- The queue passes a LINK: its status, RDONE, and RSEG (R368, R372). -/
def State.passLink (s : State) (q : Nat) (x : Queue) (next : Nat) : State :=
  let ctx := x.primary.ctx
  let s1 := (s.vaPut ctx (x.slotAddr + 2) 1 3).vaPut ctx (x.primary.qhdr + 8) 8 x.primary.ridx
  s1.updQcb q (x.withSegment next x.primary.ridx) fun p => { p with rseg := next }

/-! ### The queue mapper (R364) -/

/-- Whether an ACTIVE queue gives up its slot to a pending one: nothing to read, or waiting on a DEPEND. -/
def Queue.yields (q : Queue) : Bool :=
  q.primary.ahead = 0 || (q.waiting && match q.header with | some h => h % 256 = 3 | none => false)

/-- A queue leaves its slot. -/
def Queue.leave (q : Queue) (now : Nat) : Queue :=
  ({ q with header := none, waiting := false }.update fun p => { p with state := 1, qslot := 0xFFFFFFFF }).settle now

/-- The pending queue that is next. -/
def State.nextQueue (s : State) : Option Nat :=
  let l := s.queues.filterMap fun p => if p.2.primary.seq % 2 = 0 then p.2.pending.map fun m => (p.1, m) else none
  (minBy (fun p : Nat × Nat => p.2 * 1024 + p.1) l).map (·.1)

/-- QUEUE_SLOT_GRANT (R364): the queue that has been pending longest takes a slot that is free, or that another queue gives up. -/
def execQueueSlotGrant (queue slot : Nat) (s : State) : Out :=
  if s.frozen || 32 ≤ slot || s.nextQueue ≠ some queue then .next s
  else
    let holder := List.find? (fun p : Nat × Queue => p.2.primary.state = 2 && p.2.primary.qslot = slot) s.queues
    let take (s : State) : State := s.setQueue queue
      ({ s.queue queue with pending := none, slotSince := s.fwCycle, header := none, waiting := false, emptyAt := none }.update fun p =>
        { p with state := 2, qslot := slot })
    match holder with
    | none => .next (take s)
    | some p => if p.2.yields && p.2.primary.seq % 2 = 0 then .next (take (s.setQueue p.1 (p.2.leave s.fresh))) else .next s

/-- SLOT_TIME_LIMIT (R364): a queue that has held its slot for 2^16 firmware cycles gives it up after its packet, where another is
pending. -/
def execSlotTimeLimit (queue : Nat) (s : State) : Out :=
  match Tbl.find? s.queues queue with
  | none => .next s
  | some x =>
    if x.primary.state = 2 && x.primary.seq % 2 = 0 && x.header.isNone && decide (x.slotSince + 2 ^ 16 ≤ s.fwCycle)
        && s.queues.any (fun p => p.1 ≠ queue && p.2.pending.isSome) then .next (s.setQueue queue (x.leave s.fresh))
    else .next s

/-! ### Notifies from the host, the free list (R363, R367) -/

/-- NOTIFY_IDX and NOTIFY_RESUME: a host write of a notify register. -/
def execNotifyIdx (queue idx : Nat) (s : State) : Out := .next (s.notify queue (some idx) false)
def execNotifyResume (queue : Nat) (s : State) : Out := .next (s.notify queue none true)

/-- FLPOP: a delivered 8-byte load of the free list takes a segment, its headers empty, or reads zero (R367). -/
def execFlpop (msg : Nat) (s : State) : Out :=
  match s.msgs.find? fun m => m.id = msg with
  | none => .next s
  | some m => match m.body with
    | .read acc ia _ _ =>
      if !m.onList || !s.mayPerform m then .next s
      else
        let whole : Bool := match s.acc? acc with | some a => a.kind = .load && a.addr = windowBase + 0xF000 && a.size = 8 | none => false
        let ctx := match s.acc? acc with | some a => a.ctx | none => 0
        let q := if whole then s.freeSegs.headD 0 else 0
        let s1 : State := { s with msgs := s.msgs.filter (fun p => p.id ≠ msg), freeSegs := if whole then s.freeSegs.tail else s.freeSegs }
        let s2 := if q = 0 then s1 else s1.emptySegment ctx q
        .next (s2.send m.dst m.src m.lane (.resp acc ia ((List.range 64).map fun o => (o, BitVec.ofNat 8 (if o < 8 then q / 2 ^ (8 * o) else 0))) (s2.invsTo m.src)))
    | _ => .next s

/-- FLPUSH: a delivered store of a segment's address adds it to the free list (R367). -/
def execFlpush (msg : Nat) (s : State) : Out :=
  match s.msgs.find? fun m => m.id = msg with
  | none => .next s
  | some m => match m.body with
    | .write _ _ _ _ _ _ _ => if m.onList && s.mayPerform m then .next (s.performBody m) else .next s
    | _ => .next s

/-! ### Headers (R368, R385) -/

/-- A queue event: an update under way ends first (R384); otherwise it acts on an ACTIVE queue. -/
def State.frontEnd (s : State) (q : Nat) (f : Queue → State) : Out :=
  match Tbl.find? s.queues q with
  | none => .next s
  | some x =>
    if x.primary.seq % 2 = 1 then .next (s.setQueue q (x.finishUpdate.settle s.fresh))
    else if x.primary.state ≠ 2 || s.frozen then .next s
    else .next (f x)

/-- HEADER_READ (R368): segments passed and final are returned first; then the next slot's header, slot 63's also where no later packet has been
notified. An empty one stops the reading, a TYPE that does not belong there halts the queue (R370), and in recovery a packet that has been acted on is
passed over (R385). -/
def execHeaderRead (queue : Nat) (s : State) : Out :=
  s.frontEnd queue fun x =>
    let ctx := x.primary.ctx
    if !(s.returnable queue x).isEmpty then s.returnSegments queue
    else if x.header.isSome || x.emptyAt.isSome || (x.primary.ahead = 0 && !x.atLink) then s
    else match s.firstUnmapped ctx x.slotAddr needX false 64 with
      | some ia => s.pageRequest ia ctx 0
      | none =>
        let h := (s.vaRead ctx x.slotAddr 8 needX).getD 0xFF
        let type := h % 256
        let status := bits h 23 16
        if type = 0xFF then s.setQueue queue { x with emptyAt := some s.fwCycle }
        else if x.recov && 1 ≤ status && status ≤ 7 then
          let s1 := if x.atLink then s.passLink queue x ((s.vaRead ctx (x.slotAddr + 8) 8 needX).getD 0) else s.pastPacket queue x 1
          s1.setQueue queue { s1.queue queue with recov := true }
        else if 6 ≤ type || (type = 5) ≠ x.atLink then s.badPacket queue x 0
        else s.setQueue queue { x with header := some h, recov := false }

/-- EMPTY_SLOT_RETRY (R368): 4,096 firmware cycles after an empty slot the front end reads again. -/
def execEmptySlotRetry (queue : Nat) (s : State) : Out :=
  s.frontEnd queue fun x => match x.emptyAt with
    | some c => if c + 4096 ≤ s.fwCycle then s.setQueue queue { x with emptyAt := none } else s
    | none => s

/-! ### Packet forms (R370, R371, R373) -/

/-- Byte i, and bytes [hi:lo], of a packet. -/
def pbyte (p i : Nat) : Nat := bits p (8 * i + 7) (8 * i)
def pfield (p hi lo : Nat) : Nat := bits p (8 * hi + 7) (8 * lo)

/-- The lowest offset among those found wrong. -/
def firstBad (l : List (Nat × Bool)) : Option Nat := minBy id ((l.filter (·.2)).map (·.1))

/-- The bytes of a list that are not zero, as wrong offsets. -/
def mustZero (p lo n : Nat) : List (Nat × Bool) := (List.range n).map fun i => (lo + i, pbyte p (lo + i) ≠ 0)

/-- The offset of the first field of a packet found wrong (R370), beyond its TYPE. -/
def packetBad (p : Nat) : Option Nat :=
  let type := pbyte p 0
  let signals := type = 1 || type = 2 || type = 3 || type = 4
  let head : List (Nat × Bool) := [(1, bits p 15 13 ≠ 0 || (signals && decide (bits p 12 10 < 4)))]
  let mis (lo a : Nat) : Nat × Bool := (lo, pfield p (lo + 7) lo % a ≠ 0)
  firstBad (head ++ match type with
    | 0 => mustZero p 8 56
    | 5 => mis 8 4096 :: mustZero p 16 48
    | 4 => mis 8 8 :: (24, decide (2 ≤ pbyte p 24)) :: mustZero p 25 39
    | 3 =>
      let n := pbyte p 56
      [(8, decide (1 ≤ n) && (mis 8 8).2), (24, decide (2 ≤ n) && (mis 24 8).2), (40, decide (3 ≤ n) && (mis 40 8).2), (56, n = 0 || decide (3 < n)),
       (57, decide (2 ≤ pbyte p 57))] ++ mustZero p 58 6
    | 2 => (8, pbyte p 8 = 0 || pfield p 15 9 ≠ 0) :: mustZero p 16 48
    | _ => [mis 8 64, (26, bits (pbyte p 26) 7 6 ≠ 0), mis 32 4, mis 40 8, (48, bitOf (pfield p 55 48) 63), mis 56 64])

/-- The fields of a LAUNCH packet (R369, R373). -/
structure Launch where
  roi : Nat
  kidx : Nat
  bandw : Nat
  teamb : Nat
  teams : Nat
  regs : Nat
  wsw : Bool
  epri : Nat
  part : Nat
  tlots : Nat
  scratch : Nat
  kinit : Nat
  sigaddr : Nat
  sigval : Nat
  xrec : Nat
  scope : Nat
  intr : Bool
  deriving DecidableEq, Repr

/-- The fields of a packet's 64 bytes. -/
def launchOf (p : Nat) : Launch :=
  { roi := pfield p 15 8, kidx := pfield p 17 16, bandw := pbyte p 18, teamb := pbyte p 19, teams := pfield p 23 20, regs := pfield p 25 24,
    wsw := bitOf (pbyte p 26) 0, epri := bits (pbyte p 26) 2 1, part := bits (pbyte p 26) 5 3, tlots := pbyte p 27, scratch := pfield p 31 28,
    kinit := pfield p 39 32, sigaddr := pfield p 47 40, sigval := pfield p 55 48, xrec := pfield p 63 56, scope := bits p 12 10, intr := bitOf p 9 }

/-- The 64 bytes of a packet slot. -/
def State.packetAt (s : State) (ctx addr : Nat) : Nat := (s.vaRead ctx addr 64 needX).getD 0

/-- A packet event: the header of its type is at hand; a malformed packet halts the queue (R370), and BAR waits for every earlier packet
of the queue (R369). -/
def State.atPacket (s : State) (q type : Nat) (f : Queue → Nat → State) : Out :=
  s.frontEnd q fun x => match x.header with
    | none => s
    | some h =>
      if h % 256 ≠ type then s
      else
        let p := s.packetAt x.primary.ctx x.slotAddr
        match packetBad p with
        | some o => s.badPacket q x o
        | none => f x p

/-- A packet of a queue is done: STATUS 3, and the queue moves on. -/
def State.donePacket (s : State) (q : Nat) (x : Queue) : State := (s.vaPut x.primary.ctx (x.slotAddr + 2) 1 3).pastPacket q x 1

/-- PACKET_NOP (R372). -/
def execPacketNop (queue : Nat) (s : State) : Out :=
  s.atPacket queue 0 fun x p => if bitOf p 8 && s.queueBusy queue then s else s.donePacket queue x

/-- PACKET_LINK (R372); BAR holds it as any packet (R369). -/
def execPacketLink (queue : Nat) (s : State) : Out :=
  s.atPacket queue 5 fun x p => if bitOf p 8 && s.queueBusy queue then s else match s.firstUnmapped x.primary.ctx (x.primary.qhdr + 8) needW true 8 with
    | some ia => s.pageRequest ia x.primary.ctx 1
    | none => s.passLink queue x (pfield p 15 8)

/-- An 8-byte value added at a virtual address by `atom.add.s64` (R372): at the slice, or as an AtomicOp of the host port (R463); the registers of the
notify window take no atomic. -/
def State.signalAdd (s : State) (ctx a v : Nat) : State :=
  match translate (s.ctxRanges ctx) needXWA a with
  | none => s
  | some ia =>
    if inWindow ia then s
    else if isHost ia then { s with nextId := s.nextId + 1 }.emit [8, s.nextId, ia, 8, 0, v, 0]
    else (s.vaWrite ctx a 8 (((s.vaRead ctx a 8 needXWA).getD 0 + v) % 2 ^ 64) needXWA).getD s

/-- PACKET_SIGNAL (R372): once every earlier packet is final, the value is written, or added, at the slice; an address outside every range
is skipped. -/
def execPacketSignal (queue : Nat) (s : State) : Out :=
  s.atPacket queue 4 fun x p =>
    let ctx := x.primary.ctx
    let a := pfield p 15 8
    let v := pfield p 23 16
    let add := pbyte p 24 = 1
    let need := if add then needXWA else needW
    if s.queueBusy queue then s
    else match s.firstUnmapped ctx a need true 8 with
      | some ia => s.pageRequest ia ctx 1
      | none =>
        let s1 := if add then s.signalAdd ctx a v else (s.vaWrite ctx a 8 v needW).getD s
        let s2 := s1.donePacket queue x
        if bitOf p 9 then s2.msix x.primary.vec else s2

/-- PACKET_DEPEND (R372): each word, read at the slice, meets the condition; a negative one fails the packet and halts the queue. A word
outside every range is undefined (R8). -/
def execPacketDepend (queue : Nat) (s : State) : Out :=
  s.atPacket queue 3 fun x p =>
    let ctx := x.primary.ctx
    if bitOf p 8 && s.queueBusy queue then s
    else
      let ws := (List.range (pbyte p 56)).map fun i => (pfield p (15 + 16 * i) (8 + 16 * i), pfield p (23 + 16 * i) (16 + 16 * i))
      match ws.findSome? fun w => s.firstUnmapped ctx w.1 needX false 8 with
      | some ia => s.pageRequest ia ctx 0
      | none =>
        let vs := ws.zipIdx.map fun w => ((s.vaRead ctx w.1.1 8 needX).getD (Config.freeNat s.fresh w.2 % 2 ^ 64), w.1.2)
        let meets (v : Nat × Nat) : Bool := if pbyte p 57 = 0 then decide (signed v.2 64 ≤ signed v.1 64) else v.1 = v.2
        if vs.any fun v => bitOf v.1 63 then (s.setStatus ctx x.slotAddr 7 0).haltQueue queue x
        else if vs.all meets then s.donePacket queue x
        else (s.vaPut ctx (x.slotAddr + 2) 1 8).setQueue queue { x with waiting := true }

/-! ### Launches (R374 to R378) -/

/-- Whether some core or core pair of a partition that works can seat a team (R374, code 9). -/
def State.fits (s : State) (l : Launch) : Bool :=
  let lanes := 64 * min 4 (poolSize l.bandw / max l.regs 1)
  (partClusters s.npart l.part).any fun cl => (clusterSites cl).any fun site =>
    (siteCores site).all s.coreWorks && decide (l.teamb ≤ (siteCores site).length * lanes)

/-- The limits of R374 in the order of their codes: the first that fails, or the kernel. -/
def State.checkLaunch (s : State) (ctx : Nat) (l : Launch) : Except Nat Kern :=
  match s.kernel ctx l.roi l.kidx with
  | none => .error 1
  | some k =>
    if l.regs < k.regs || quotaOf l.bandw < l.regs then .error 2
    else if (l.bandw ≠ 16 && l.bandw ≠ 32 && l.bandw ≠ 64) || l.bandw ≠ k.bandw then .error 3
    else if l.teamb = 0 || 32 < l.teamb then .error 4
    else if l.scratch < k.scratch || 2 ^ 22 < l.scratch || l.scratch % 64 ≠ 0 then .error 5
    else if l.teams = 0 then .error 6
    else if 32 < l.tlots then .error 7
    else if 2 ^ s.npart ≤ l.part then .error 8
    else if !s.fits l then .error 9
    else .ok k

/-- The extension record's 64 bytes (R373); undefined where it lies in no range. -/
def State.xrecOf (s : State) (ctx : Nat) (l : Launch) : Nat := (s.vaRead ctx l.xrec 64 needX).getD (Config.freeNat s.fresh 64 % 2 ^ 512)
/-- RLIM of a launch. -/
def State.rlimOf (s : State) (ctx : Nat) (l : Launch) : Nat := pfield (s.xrecOf ctx l) 13 12

/-- The first page that the parse of a launch waits for (R427). -/
def State.launchWaits (s : State) (ctx : Nat) (l : Launch) : Option Nat :=
  match s.imageWaits ctx l.roi with
  | some ia => some ia
  | none => match s.firstUnmapped ctx l.xrec needX false 64 with
    | some ia => some ia
    | none => match s.kernel ctx l.roi l.kidx with
      | some k => if l.kinit = 0 then none else s.firstUnmapped ctx l.kinit needX false (4 * k.kregs)
      | none => none

/-- The k registers that a launch's bands start with (R378). -/
def State.kinitOf (s : State) (ctx : Nat) (l : Launch) (k : Kern) : List Word :=
  let word (i : Nat) : Word :=
    if i < k.kregs && l.kinit ≠ 0 then BitVec.ofNat 32 ((s.vaRead ctx ((l.kinit + 4 * i) % 2 ^ 64) 4 needX).getD (Config.freeWord s.fresh 0 i).toNat) else 0
  let db := pfield (s.xrecOf ctx l) 23 16
  let ws := (List.range 64).map word
  if k.datak = 0xFF then ws else (ws.set k.datak (BitVec.ofNat 32 db)).set (k.datak + 1) (BitVec.ofNat 32 (db / 2 ^ 32))

/-- The flight of an accepted launch: its teams are absent and not yet started (R376). -/
def State.flightOf (s : State) (q : Nat) (x : Queue) (l : Launch) (k : Kern) (addr idx : Nat) : Flight :=
  let ctx := x.primary.ctx
  let r := s.xrecOf ctx l
  let te := pfield r 11 8
  let f : Flight :=
    { ctx := ctx, queue := q, packet := addr, qidx := idx % 2 ^ 32, part := l.part, teams := l.teams, teamb := l.teamb, bandw := l.bandw, regs := l.regs,
      scratch := l.scratch, tlots := l.tlots, epri := l.epri, wsw := l.wsw, roi := l.roi, kidx := l.kidx, entryOv := k.entov, entryOff := k.entwd,
      nsafe := k.nsafe, vmasks := k.vmasks, kinit := s.kinitOf ctx l k, codes := k.codes.take (min k.novl 4), csbase := pfield r 7 0,
      trapEntry := if te = 0xFFFFFFFF then none else some (te / 65536, te % 65536), rlim := pfield r 13 12, sigaddr := l.sigaddr, sigval := l.sigval,
      scope := l.scope, intr := l.intr, members := (List.range l.teams).map fun t => (t, { teamb := l.teamb, runsince := some s.fresh }) }
  { f with clockStart := (s.die (s.homeDie f)).cycle }

/-- A signal written by the front end (R375, R379): a write-through store, skipped where the address is misaligned or in no range. -/
def State.signal (s : State) (ctx a v : Nat) : State := if a % 8 = 0 then (s.vaWrite ctx a 8 (v % 2 ^ 64) needW).getD s else s

/-- The interrupt of a packet with INTR, after its signal (R369, R463). -/
def State.raise (s : State) (intr : Bool) (vec : Nat) : State := if intr then s.msix vec else s

/-- FID and STATUS 1 written into a packet (R376). -/
def State.markAccepted (s : State) (ctx addr flight : Nat) : State := (s.vaPut ctx (addr + 4) 4 flight).vaPut ctx (addr + 2) 1 1

/-- PACKET_LAUNCH (R374 to R376): parsed, then accepted after BAR with the next FLIGHTID, or rejected with −REASON as its signal. -/
def execPacketLaunch (queue : Nat) (s : State) : Out :=
  s.atPacket queue 1 fun x p =>
    let ctx := x.primary.ctx
    let l := launchOf p
    match s.launchWaits ctx l with
    | some ia => s.pageRequest ia ctx 0
    | none => match s.checkLaunch ctx l with
      | .error code => match s.firstUnmapped ctx l.sigaddr needW true 8 with
        | some ia => s.pageRequest ia ctx 1
        | none => (((s.setStatus ctx x.slotAddr 4 code).signal ctx l.sigaddr (2 ^ 64 - code)).raise l.intr x.primary.vec).haltQueue queue x
      | .ok k =>
        if bitOf p 8 && s.queueBusy queue then s
        else
          let f := s.flightOf queue x l k x.slotAddr x.primary.ridx
          let n := s.nextFlight
          let s1 : State := { s with flights := Tbl.put s.flights n f, nextFlight := (n + 1) % 2 ^ 32 }
          (s1.markAccepted ctx x.slotAddr n).pastPacket queue x 1

/-! ### Completion (R379) -/

/-- Whether nothing of a flight is left to run or retire (R379). -/
def State.flightOver (s : State) (n : Nat) (f : Flight) : Bool :=
  f.members.all (fun p => p.2.place = .ended) && !s.bands.any (fun p => p.2.flight = n)
    && s.clusters.all (fun p => !p.2.spawns.any (·.flight = n) && !p.2.pool.any (·.flight = n) && !p.2.lots.any (·.flight = n)
        && !p.2.engine.table.any (fun q => q.2.flight = n) && !p.2.engine.removed.any (fun q => q.2.flight = n))
    && !s.copies.any (fun p => p.2.flight = n) && !s.posts.any (fun p => p.2.flight = n && p.2.kind ≠ 1)
    && s.cores.all (fun p => !p.2.sidelog.any (·.flight = n)) && !s.iq.any (fun a => a.flight = n && a.kind ≠ .pref) && !s.wb.any (fun a => a.flight = n)

/-- The working cores of a flight's dies. -/
def State.flightCores (s : State) (f : Flight) : List Nat := (Tbl.keys s.cores).filter fun c => (s.flightDies f).contains (coreDie c)

/-- The end of a flight: its signal, STATUS and interrupt, for a killed one a KILLED record; nothing of it remains (R379, R477). -/
def State.endFlight (s : State) (n : Nat) (f : Flight) : State :=
  let v := if f.killed then 2 ^ 64 - 256 else f.sigval
  let st := if f.killed then 6 else 3
  let s1 := if s.fatal then s else (s.signal f.ctx f.sigaddr v).vaPut f.ctx (f.packet + 2) 1 st
  let s2 := if f.intr && !s.fatal then s1.msix (s1.queue f.queue).primary.vec else s1
  let s3 := if f.killed then s2.asyncFault (unposted n f.ctx) 40 f.sigaddr st 0 false else s2
  ({ s3 with flights := Tbl.del s3.flights n, posts := List.filter (fun p : Nat × Post => p.2.flight ≠ n) s3.posts,
             ecalls := List.filter (fun p : Nat × Ecall => p.2.flight ≠ n) s3.ecalls } : State).returnSegments f.queue

/-- FLIGHT_COMPLETE (R379): once nothing of a flight is left, its dies make a release at its scope, and then it is signalled. -/
def execFlightComplete (flight : Nat) (s : State) : Out :=
  match s.flight? flight with
  | none => .next s
  | some f =>
    if !s.flightOver flight f then .next s
    else
      let cores := s.flightCores f
      match f.ending with
      | none =>
        let s1 := cores.foldl (fun (s : State) c => s.flushNarrow c f.scope) s
        .next (s1.modFlight flight fun f => { f with ending := some (cores.flatMap s1.writesOf) })
      | some wait =>
        if wait.any fun i => s.msgs.any fun m => m.id = i then .next s
        else match (if f.sigaddr % 8 = 0 then s.firstUnmapped f.ctx f.sigaddr needW true 8 else none) with
          | some ia => .next (s.pageRequest ia f.ctx 1)
          | none => .next (s.endFlight flight f)

end Sys2Proof.Machine
end

