-- ==== Sys2Proof/Machine/Gang.lean ====
section
/-!
DEFINITION. Sys2Proof/Machine/Gang.lean: gangs (R380, R381) and the recovery of the firmware (R382, R385).
-/
namespace Sys2Proof.Machine

/-! ### The parts of a gang (R380) -/

/-- The address of the packet i places after a queue's next one: none where the LINK on the way is not written. -/
def State.packetAfter (s : State) (x : Queue) (i : Nat) : Option Nat :=
  let o := x.primary.ridx - x.segFirst + i
  if o < 63 then some ((x.primary.rseg + 64 * o) % 2 ^ 64)
  else
    let p := s.packetAt x.primary.ctx ((x.primary.rseg + 64 * 63) % 2 ^ 64)
    if pbyte p 0 = 5 then some ((pfield p 15 8 + 64 * (o - 63)) % 2 ^ 64) else none

/-- The addresses of a gang's parts, once all are written. -/
def State.partsOf (s : State) (x : Queue) (pmask : Nat) : Option (List Nat) :=
  let l := (List.range (members pmask 8).length).map fun i => s.packetAfter x (1 + i)
  let as := l.filterMap id
  if l.any Option.isNone || as.any fun a => pbyte (s.packetAt x.primary.ctx a) 0 = 0xFF then none else some as

/-- The offset at which a part makes its gang malformed (R380). -/
def State.partBad (s : State) (ctx p part : Nat) : Option Nat :=
  if pbyte p 0 ≠ 1 then some 0
  else match packetBad p with
    | some o => some o
    | none =>
      let l := launchOf p
      let rlim := s.rlimOf ctx l
      if rlim ≠ 0 && decide (rlim < l.teams) then some 20 else if l.part ≠ part then some 26 else none

/-! ### Reservation and commit (R380) -/

/-- A team of a gang placed at the first site of its partition that admits it. -/
def State.placeSomewhere (s : State) (f : Flight) (n team : Nat) : Option State :=
  ((s.flightClusters f).flatMap clusterSites).findSome? fun site => (s.placeTeam n team site).bind fun s1 =>
    match s1.placeOfTeam n team with | .resident _ _ _ => some s1 | _ => none

/-- Every team of a part placed. -/
def State.placePart (s : State) (n : Nat) (f : Flight) : Option State :=
  (List.range f.teams).foldl (fun (o : Option State) t => o.bind fun s => s.placeSomewhere f n t) (some s)

/-- Whether a part may run beside the other parts and the flights of the device (R378). -/
def State.partMay (s : State) (f : Flight) (others : List Flight) : Bool :=
  !(others.any fun g => s.shareDie f g && (f.wsw || g.wsw))
    && !s.flights.any fun p => s.shareDie f p.2 && ((f.wsw && p.2.anyResident) || (p.2.wsw && p.2.started))

/-- The teams of a gang's flights held at their first instruction until GO. -/
def State.holdGang (s : State) (ids : List Nat) : State :=
  (Tbl.keys s.bands).foldl (fun (s : State) k => match s.band? k with
    | some b => if ids.contains b.flight then s.requestStop k 1 else s
    | none => s) s

/-- Steps 1 and 2 for parts that pass their checks: every team placed, or none. -/
def State.commitGang (s : State) (q : Nat) (x : Queue) (parts : List (Nat × Launch × Kern)) : State :=
  let gid := s.nextId
  let fs := parts.zipIdx.map fun p =>
    let f := s.flightOf q x p.1.2.1 p.1.2.2 p.1.1 (x.primary.ridx + 1 + p.2)
    (s.nextFlight + p.2, ({ f with gang := some gid, started := true } : Flight))
  let may := fs.all fun p => s.partMay p.2 ((fs.filter fun r => r.1 ≠ p.1).map (·.2))
  let s1 : State := fs.foldl (fun (s : State) p => { s with flights := Tbl.put s.flights p.1 p.2 })
    { s with nextId := gid + 1, nextFlight := (s.nextFlight + fs.length) % 2 ^ 32 }
  match (if may then fs.foldl (fun (o : Option State) p => o.bind fun s => s.placePart p.1 p.2) (some s1) else none) with
  | some s2 =>
    let g : Gang := { queue := q, idx := x.primary.ridx, flights := fs.map (·.1), dies := (fs.flatMap fun p => s.flightDies p.2).eraseDups }
    ({ s2 with gangs := Tbl.put s2.gangs gid g }.holdGang g.flights).setQueue q { x with waiting := true }
  | none => (s.vaPut x.primary.ctx (x.slotAddr + 2) 1 8).setQueue q { x with waiting := true }

/-- The evaluation of a GANG (R380). -/
def State.evalGang (s : State) (q : Nat) (x : Queue) (p : Nat) : State :=
  let ctx := x.primary.ctx
  if s.gangs.any fun g => g.2.queue = q then s
  else match s.partsOf x (pbyte p 8) with
    | none => s
    | some as =>
      let ps := as.map fun a => (a, s.packetAt ctx a)
      let named := members (pbyte p 8) 8
      match ps.findSome? fun r => if pbyte r.2 0 = 1 && (packetBad r.2).isNone then s.firstUnmapped ctx (launchOf r.2).xrec needX false 64 else none with
      | some ia => s.pageRequest ia ctx 0
      | none => match (ps.zip named).findSome? fun r => s.partBad ctx r.1.2 r.2 with
      | some o => s.badPacket q x o
      | none => match ps.findSome? fun r => s.launchWaits ctx (launchOf r.2) with
        | some ia => s.pageRequest ia ctx 0
        | none =>
          let ks := ps.map fun r => (r.1, launchOf r.2, s.checkLaunch ctx (launchOf r.2))
          match ks.findSome? fun r => match r.2.2 with | .error c => some c | .ok _ => none with
          | some code => match ks.findSome? fun r => s.firstUnmapped ctx r.2.1.sigaddr needW true 8 with
            | some ia => s.pageRequest ia ctx 1
            | none =>
              (ks.foldl (fun (s : State) r => ((s.setStatus ctx r.1 4 code).signal ctx r.2.1.sigaddr (2 ^ 64 - code)).raise r.2.1.intr x.primary.vec)
                (s.setStatus ctx x.slotAddr 4 code)).haltQueue q x
          | none =>
            let parts := ks.filterMap fun r => match r.2.2 with | .ok k => some (r.1, r.2.1, k) | .error _ => none
            match parts.findSome? fun r => (r.2.2.codes.take 4).findSome? fun c => s.firstUnmapped ctx c.2.1 needX false (4 * c.2.2) with
            | some ia => s.pageRequest ia ctx 0
            | none => if s.queueBusy q then s else s.commitGang q x parts

/-- PACKET_GANG (R380). -/
def execPacketGang (queue : Nat) (s : State) : Out := s.atPacket queue 2 fun x p => if x.waiting then s else s.evalGang queue x p
/-- GANG_RETRY (R380): a blocked gang is tried again. -/
def execGangRetry (queue : Nat) (s : State) : Out := s.atPacket queue 2 fun x p => if x.waiting then s.evalGang queue x p else s

/-! ### GO (R380, R381) -/

/-- The first GO: each part's FID and STATUS, the gang's STATUS, and the queue past its packets. -/
def State.gangStarts (s : State) (g : Gang) : State :=
  let x := s.queue g.queue
  let ctx := x.primary.ctx
  let s1 := g.flights.foldl (fun (s : State) n => match s.flight? n with | some f => s.markAccepted ctx f.packet n | none => s) s
  let s2 := s1.vaPut ctx (x.slotAddr + 2) 1 3
  let n := 1 + g.flights.length
  let link := (x.primary.rseg + 64 * 63) % 2 ^ 64
  if x.primary.ridx + n ≤ x.segFirst + 63 then s2.pastPacket g.queue x n
  else
    let next := pfield (s.packetAt ctx link) 15 8
    let first := x.segFirst + 63
    let s3 := (s2.vaPut ctx (link + 2) 1 3).vaPut ctx (x.primary.qhdr + 8) 8 first
    s3.updQcb g.queue (x.withSegment next first) fun p => { p with ridx := p.ridx + n, rseg := next }

/-- A die starts its teams of a gang. -/
def State.dieStarts (s : State) (g : Gang) (die : Nat) : State :=
  let mine (p : Nat × Band) : Bool := g.flights.contains p.2.flight && coreDie (keyCore p.1) = die
  let run := (s.bands.filter mine).map fun p => p.2.flight
  let s1 : State := { s with bands := s.bands.map fun p => if mine p then (p.1, { p.2 with stop := none }) else p }
  run.eraseDups.foldl (fun (s : State) n => match s.flight? n with | some f => s.vaPut f.ctx (f.packet + 2) 1 2 | none => s) s1

/-- GANG_GO (R380, R381): GO is sent to a die, and then the die starts its teams and acknowledges, all within 4,000 firmware cycles of the first
GO. -/
def execGangGo (gang die : Nat) (s : State) : Out :=
  match Tbl.find? s.gangs gang with
  | none => .next s
  | some g =>
    if !g.dies.contains die || g.acked.contains die || s.fatal || (!g.goDies.isEmpty && decide (g.goAt + 4000 < s.fwCycle)) then .next s
    else if !g.goDies.contains die then
      let s1 := if g.goDies.isEmpty then s.gangStarts g else s
      let at' := if g.goDies.isEmpty then s.fwCycle else g.goAt
      .next { s1 with gangs := Tbl.put s1.gangs gang { g with goDies := g.goDies ++ [die], goAt := at' } }
    else
      let s1 := s.dieStarts g die
      let acked := g.acked ++ [die]
      .next { s1 with gangs := if g.dies.all acked.contains then Tbl.del s1.gangs gang else Tbl.put s1.gangs gang { g with acked := acked } }

/-- GANG_ACK_TIMEOUT (R381): a die that has not acknowledged within 4,000 firmware cycles of the first GO has every part killed. -/
def execGangAckTimeout (gang die : Nat) (s : State) : Out :=
  match Tbl.find? s.gangs gang with
  | none => .next s
  | some g =>
    if !g.dies.contains die || g.goDies.isEmpty || g.acked.contains die || s.fwCycle ≤ g.goAt + 4000 then .next s
    else .next (g.flights.foldl (fun (s : State) n => s.markKill n) { s with gangs := Tbl.del s.gangs gang })

/-! ### Recovery (R382, R385) -/

/-- Whether a queue stands in one of a worker's four active slots; one whose update is under way, by its shadow (R382, R385). -/
def Queue.ofWorker (q : Queue) (worker : Nat) : Bool :=
  let p := if q.primary.seq % 2 = 1 then q.shadow else q.primary
  decide (p.state = 2) && decide (p.qslot / 4 = worker)

/-- A queue as recovery leaves it: an update under way is undone, and packets that have been acted on are to be passed over. -/
def Queue.recover (q : Queue) : Queue :=
  let p := if q.primary.seq % 2 = 1 then { q.shadow with seq := (q.shadow.seq + 2) % 2 ^ 32 } else q.primary
  { q with primary := p, header := none, waiting := false, emptyAt := none, recov := true }

/-- A committed gang to which no GO was sent is rolled back. -/
def State.rollBack (s : State) (n : Nat) (g : Gang) : State :=
  let gone (f : Nat) : Bool := g.flights.contains f
  { s with
    gangs := Tbl.del s.gangs n
    bands := s.bands.filter fun p => !gone p.2.flight
    flights := s.flights.filter fun p => !gone p.1
    clusters := s.clusters.map fun p => (p.1, { p.2 with allocs := p.2.allocs.filter fun a => !gone a.2.2.1 }) }

/-- The gangs at a restart of the Ember pair: GO goes to every die, and the bound on the start no longer holds; or a roll-back. -/
def State.recoverGangs (s : State) : State :=
  s.gangs.foldl (fun (s : State) p =>
    if p.2.goDies.isEmpty then s.rollBack p.1 p.2
    else { s with gangs := Tbl.put s.gangs p.1 { p.2 with goDies := p.2.dies, goAt := s.fwCycle + 2 ^ 64 } }) s

/-- The device enters FATAL (R485): every flight is killed, every queue halts, and the host port reports an internal error. -/
def State.enterFatal (s : State) : State :=
  let s1 := (s.flights.map (·.1)).foldl (fun (s : State) n => s.markKill n) s
  let stop (q : Queue) : Queue :=
    if q.primary.state = 0 then q else { q.update (fun c => { c with state := 3, qslot := 0xFFFFFFFF }) with pending := none }
  let s2 : State := { s1 with fatal := true, queues := s1.queues.map fun p => (p.1, stop p.2) }
  s2.emit [12]

/-- EMBER_RESTART (R382, R385, R485): the Ember pair restarts and recovers the QCBs and the gangs; a third restart within 2^32 firmware
cycles is FATAL. -/
def execEmberRestart (s : State) : Out :=
  if s.fatal then .next s
  else
    let stamps := (s.emberStamps.filter fun c => s.fwCycle < c + 2 ^ 32) ++ [s.fwCycle]
    let s1 : State := { s with emberStamps := stamps, queues := s.queues.map fun p => (p.1, p.2.recover) }
    let s2 := s1.recoverGangs.deviceFault 39 0 0 0
    .next (if 3 ≤ stamps.length then s2.enterFatal else s2)

/-- WORKER_HEARTBEAT_TIMEOUT (R382, R385): a worker is reset, and the queues of its four active slots are recovered. -/
def execWorkerHeartbeatTimeout (worker : Nat) (s : State) : Out :=
  if 8 ≤ worker || s.fatal then .next s
  else
    .next (({ s with queues := s.queues.map fun p =>
      (p.1, if p.2.ofWorker worker then p.2.recover else p.2) } : State).deviceFault 39 0 (worker + 1) 0)

end Sys2Proof.Machine
end

