-- ==== Sys2Proof/Machine/Reduce.lean ====
section
/-!
DEFINITION. Sys2Proof/Machine/Reduce.lean: reduction buffers and the reduction unit of the I/O die (R439 to R442, R444).
-/
namespace Sys2Proof.Machine

/-- The header of a reduction buffer (R439). -/
structure RedHead where
  rlo : Nat
  rhi : Nat
  ncont : Nat
  rop : Nat
  arm : Bool
  failed : Bool
  esz : Nat
  dsize : Nat
  stage : Nat
  donei : Nat
  deriving DecidableEq, Repr

/-- The fields of a header's 64 bytes. -/
def redHead (x : Nat) : RedHead :=
  { rlo := recBytes x 3 0, rhi := recBytes x 7 4, ncont := recBytes x 11 8, rop := recBytes x 12 12, arm := bitOf (recBytes x 13 13) 0,
    failed := bitOf (recBytes x 13 13) 1, esz := recBytes x 14 14, dsize := recBytes x 23 16, stage := recBytes x 31 24, donei := recBytes x 35 32 }

/-- Bytes of an element. -/
def RedHead.z (h : RedHead) : Nat := 2 ^ h.esz
/-- The format of an element (R217, R440). -/
def RedHead.fmt (h : RedHead) : Fmt := if h.esz = 2 then .f32 else .bf16
/-- The address of the wide element of data element i in half `half` of the staging region. -/
def RedHead.wideAt (h : RedHead) (half i : Nat) : Nat := (h.stage + 12 * (half * (h.dsize / h.z) + i)) % 2 ^ 64

/-- The instance of a contribution (R440): none where it is refused. -/
def RedHead.instOf (h : RedHead) (d : Delivery) : Option Nat :=
  let next (i : Nat) : Nat := (h.donei + i) % 2 ^ 32
  if d.arg 3 = 1 then (if d.arg 4 = next 1 || d.arg 4 = next 2 then some (d.arg 4) else none) else some (next 1)

/-- Whether the target refuses a contribution (R439). -/
def RedHead.refuses (h : RedHead) (hdr : Nat) (d : Delivery) : Bool :=
  !h.arm || h.failed || h.rop ≠ d.arg 1 || h.z ≠ d.arg 2 || decide (d.src < h.rlo) || decide (h.rhi < d.src) || (h.instOf d).isNone
    || d.els.any fun e => decide (e.1 < hdr + 64) || decide (hdr + 64 + h.dsize < e.1 + h.z) || (e.1 - (hdr + 64)) % h.z ≠ 0

/-! ### The unit's buffers -/

/-- An instance of a buffer, as the unit starts it. -/
def RedHead.newInst (h : RedHead) (i : Nat) : RedInst := { inst := i, nextr := h.rlo }

/-- The unit's record of a buffer: its live instances only. -/
def State.redBuf (s : State) (ctx hdr : Nat) (h : RedHead) : RedBuf :=
  let live (i : Nat) : Bool := i = (h.donei + 1) % 2 ^ 32 || i = (h.donei + 2) % 2 ^ 32
  match s.redBufs.find? fun b => b.ctx = ctx && b.hdr = hdr with
  | some b => { b with insts := b.insts.filter (fun x => live x.inst), held := b.held.filter fun x => live x.inst }
  | none => { ctx := ctx, hdr := hdr }

/-- The record of a buffer set; one without an instance is forgotten. -/
def State.setRedBuf (s : State) (b : RedBuf) : State :=
  let rest := s.redBufs.filter fun c => !(c.ctx = b.ctx && c.hdr = b.hdr)
  { s with redBufs := if b.insts.isEmpty && b.held.isEmpty then rest else rest ++ [b] }

/-- Bytes of the early store in use (R440). -/
def State.earlyBytes (s : State) : Nat := (s.redBufs.map fun b => (b.held.map fun p => p.els.length * 4).sum).sum

/-! ### Addition (R440) -/

/-- One element added to its wide element. -/
def State.addElement (s : State) (ctx hdr : Nat) (h : RedHead) (x : RedInst) (e : Nat × Nat) : State × RedInst :=
  let i := (e.1 - (hdr + 64)) / h.z
  let a := h.wideAt (x.inst % 2) i
  let first := !x.touched.contains i
  let w : El := if first then {} else elOfWide ((s.vaRead ctx a 12 needX).getD 0)
  let f := h.fmt
  let new : El :=
    if h.rop ≤ 2 then (w.accumulate (f.decode e.2)).propagate
    else if first then reExpand f e.2
    else reExpand f (fminmaxEl (h.rop = 3) f 0 { seed := 0, tid := 0, ctr := 0 } (w.resolve f 0 { seed := 0, tid := 0, ctr := 0 }).1 e.2 0).1
  (s.vaPut ctx a 12 new.wideImage, if first then { x with touched := x.touched ++ [i] } else x)

/-- A contribution added, in the order of its elements. -/
def State.addPart (s : State) (ctx hdr : Nat) (h : RedHead) (x : RedInst) (els : List (Nat × Nat)) : State × RedInst :=
  els.foldl (fun (q : State × RedInst) e => q.1.addElement ctx hdr h q.2 e) (s, x)

/-- NEXTR moves past the ranks that have delivered, and the held contributions of each next rank are added, in order of arrival. -/
def State.advanceInst (s : State) (ctx hdr : Nat) (h : RedHead) (held : List HeldPart) : Nat → RedInst → State × RedInst × List HeldPart
  | 0, x => (s, x, held)
  | n + 1, x =>
    if x.count < h.ncont || h.rhi < x.nextr then (s, x, held)
    else
      let r := x.nextr + 1
      let mine := held.filter fun p => p.inst = x.inst && p.rank = r
      let q := mine.foldl (fun (q : State × RedInst) p => q.1.addPart ctx hdr h q.2 p.els) (s, { x with nextr := r, count := mine.length })
      q.1.advanceInst ctx hdr h (held.filter fun p => !(p.inst = x.inst && p.rank = r)) n q.2

/-! ### The end of an instance (R441, R442) -/

/-- An instance's end reported to every contributing rank. -/
def State.reportInst (s : State) (hdr : Nat) (h : RedHead) (inst : Nat) (failed : Bool) : State :=
  (List.range (h.rhi + 1 - h.rlo)).foldl (fun (s : State) i =>
    s.sendBack { cargo := .finished, src := s.rank, dst := h.rlo + i, args := [hdr + 64, inst, if failed then 1 else 0] }) s

/-- The finish of an instance: each touched element resolved into the data region, DONEI, a PEER trigger, and the report. -/
def State.finishRed (s : State) (ctx hdr : Nat) (h : RedHead) (x : RedInst) : State :=
  let f := if h.rop = 1 then Fmt.f32 else if h.rop = 2 then .bf16 else h.fmt
  let put (s : State) (i : Nat) : State :=
    let w := elOfWide ((s.vaRead ctx (h.wideAt (x.inst % 2) i) 12 needX).getD 0)
    s.vaPut ctx (hdr + 64 + i * h.z) h.z (w.resolve f 0 { seed := 0, tid := 0, ctr := 0 }).1
  let s1 := (x.touched.foldl put s).vaPut ctx (hdr + 32) 4 x.inst
  (s1.trigger ctx 4 0 0xFFFFFFFF hdr).reportInst hdr h x.inst false

/-- A buffer fails for a rank (R442): FAILED and FRANK, and every unfinished instance ends failed. -/
def State.failRed (s : State) (ctx hdr rank : Nat) (h : RedHead) : State :=
  let b := s.redBuf ctx hdr h
  let s1 := ((s.vaPut ctx (hdr + 13) 1 ((if h.arm then 1 else 0) + 2)).vaPut ctx (hdr + 36) 4 rank).setRedBuf { b with insts := [], held := [] }
  (((b.insts.map (·.inst)) ++ b.held.map (·.inst)).eraseDups).foldl (fun (s : State) i => s.reportInst hdr h i true) s1

/-- The header of a buffer as it stands. -/
def State.redHeadAt (s : State) (ctx hdr : Nat) : Option RedHead := (s.vaRead ctx hdr 64 needX).map redHead

/-- A rank has become FAILED in the grid map (R442): the armed buffers that wait on it fail. -/
def State.failReductions (s : State) (rank : Nat) : State :=
  s.redBufs.foldl (fun (s : State) b => match s.redHeadAt b.ctx b.hdr with
    | some h => if h.arm && decide (h.rlo ≤ rank) && decide (rank ≤ h.rhi) then s.failRed b.ctx b.hdr rank h else s
    | none => s) s

/-! ### Arrival (R436, R439, R440) -/

/-- A contribution refused (R439): a record for its sender, whose count completes; a persistent instance ends there failed. -/
def State.refuseRed (s : State) (msg : Nat) (d : Delivery) (reason : Nat) : State :=
  let s1 := (s.dropDelivery msg).report d (d.cargo ≠ .block) reason (d.arg 0) s.rank 0
  if d.cargo = .contribution && d.arg 3 = 1 then
    s1.sendBack { cargo := .finished, src := s.rank, dst := d.src, args := [d.arg 0 + 64, d.arg 4, 1] }
  else s1

/-- The regions that a contribution touches: its header, its data elements and their wide elements. -/
def RedHead.touches (h : RedHead) (hdr inst : Nat) (els : List (Nat × Nat)) : List (Nat × Nat) :=
  (hdr, 64) :: els.flatMap fun e => [(e.1, h.z), (h.wideAt (inst % 2) ((e.1 - (hdr + 64)) / h.z), 12)]

/-- A contribution taken by the unit: held, or added with what it lets in, and the finish. It queues a PEER trigger (R408), as the finish does (R441). -/
def State.takeRed (s : State) (msg ctx : Nat) (d : Delivery) (h : RedHead) (inst : Nat) : State :=
  let hdr := d.arg 0
  let b := s.redBuf ctx hdr h
  let x := (b.insts.find? fun x => x.inst = inst).getD (h.newInst inst)
  let others := b.insts.filter fun y => y.inst ≠ inst
  let accept (s : State) : State := let s1 := s.dropDelivery msg; if d.cargo = .block then s1 else s1.report d true 0 0 0 0
  let came (s : State) : State := accept (s.trigger ctx 4 0 0xFFFFFFFF hdr)
  if x.nextr < d.src then
    if 2 ^ 24 < s.earlyBytes + d.els.length * 4 then s
    else came (s.setRedBuf { b with insts := others ++ [x], held := b.held ++ [{ inst := inst, rank := d.src, els := d.els }] })
  else
    let q := s.addPart ctx hdr h x d.els
    let r := q.1.advanceInst ctx hdr h b.held (h.rhi + 2 - h.rlo) { q.2 with count := if d.src = q.2.nextr then q.2.count + 1 else q.2.count }
    if h.rhi < r.2.1.nextr then
      accept ((r.1.setRedBuf { b with insts := others, held := r.2.2.filter fun p => p.inst ≠ inst }).finishRed ctx hdr h r.2.1)
    else came (r.1.setRedBuf { b with insts := others ++ [r.2.1], held := r.2.2 })

/-- CONTRIBUTION_ARRIVAL (R439, R440): a contribution, or a block of KIND 2, of the context that holds its grid key meets its buffer; a
page that is not mapped is requested and waited for. -/
def execContributionArrival (msg : Nat) (s : State) : Out :=
  match Tbl.find? s.inbox msg with
  | none => .next s
  | some d =>
    if d.cargo ≠ .contribution && d.cargo ≠ .block then .next s
    else match s.ctxOfKey d.gkey with
      | none => .next s
      | some ctx =>
        let hdr := d.arg 0
        if hdr % 64 ≠ 0 then .next (s.refuseRed msg d 27)
        else if (firstFail (s.ctxRanges ctx) needXWA hdr 64).isSome then .next (s.refuseRed msg d 26)
        else match s.firstUnmapped ctx hdr needXWA true 64 with
          | some ia => .next (s.pageRequest ia ctx 1)
          | none => match s.redHeadAt ctx hdr with
            | none => .next s
            | some h =>
              match (if h.arm && !h.failed then (List.range (h.rhi + 1 - h.rlo)).find? fun i => bitOf (Tbl.get s.gridMap (h.rlo + i) 0) 1 else none) with
              | some i => .next ((s.failRed ctx hdr (h.rlo + i) h).refuseRed msg d 27)
              | none =>
                if h.refuses hdr d then .next (s.refuseRed msg d 27)
                else
                  let inst := (h.instOf d).getD 0
                  let ts := h.touches hdr inst d.els
                  if ts.any fun t => (firstFail (s.ctxRanges ctx) needXWA t.1 t.2).isSome then .next (s.refuseRed msg d 26)
                  else match ts.findSome? fun t => s.firstUnmapped ctx t.1 needXWA true t.2 with
                    | some ia => .next (s.pageRequest ia ctx 1)
                    | none => .next (s.takeRed msg ctx d h inst)

end Sys2Proof.Machine
end

