-- ==== Sys2Proof/Machine/Nodes.lean ====
section
/-!
DEFINITION. Sys2Proof/Machine/Nodes.lean: parameter nodes: their commands (R447 to R450, R453), gradient blocks (R451, R452), the update
(R454), subscriptions (R455, R456), failure and restart (R457, R484).
-/
namespace Sys2Proof.Machine

/-! ### Records (R447, R448) -/

/-- Fields of a command record: TENS, REM, and the rank it names. -/
def pnTens (r : Nat) : Nat := recBytes r 1 0
def pnRem (r : Nat) : Bool := bitOf (recBytes r 3 2) 15
def pnRank (r : Nat) : Nat := recBytes r 3 2 % 4096

/-- Whether bytes [hi:lo] of a record are zero. -/
def zeros (r hi lo : Nat) : Bool := recBytes r hi lo = 0

/-- Whether a record is malformed for its command (R447, R448). -/
def pnBad (sub r : Nat) : Bool :=
  pnTens r = 0 || bits (recBytes r 3 2) 14 12 ≠ 0 || (!pnRem r && pnRank r ≠ 0) || !(match sub with
    | 0 =>
      let nb := recBytes r 7 4
      let nr := recBytes r 11 8
      decide (1 ≤ nb) && decide (nb ≤ 600000) && decide (1 ≤ nr) && decide (nr ≤ 4096) && decide (recBytes r 12 12 ≤ 1) && decide (recBytes r 13 13 ≤ 1)
        && zeros r 15 14 && zeros r 63 36
    | 1 => decide (recBytes r 5 5 ≤ 1) && zeros r 7 6 && zeros r 63 32
    | 2 => zeros r 63 8
    | 3 => recBytes r 15 8 % 8 = 0 && zeros r 63 16
    | 4 => recBytes r 15 8 % 64 = 0 && zeros r 63 16
    | 5 => decide (recBytes r 4 4 ≤ 3) && decide (recBytes r 5 5 ≤ 63) && zeros r 7 6 && zeros r 63 16
    | _ => zeros r 63 4)

/-- The regions that a `.reg` record reads (R448): address and bytes. -/
def regRegions (r : Nat) : List (Nat × Nat) :=
  let nb := recBytes r 7 4
  (recBytes r 23 16, 4096 * nb) :: if bitOf (recBytes r 13 13) 0 then [] else [(recBytes r 31 24, 8192 * nb)]

/-- The words of regions. -/
def State.regionWords (s : State) (ctx : Nat) (l : List (Nat × Nat)) : List Nat :=
  l.flatMap fun q => (List.range (q.2 / 4)).map fun i => (s.vaRead ctx ((q.1 + 4 * i) % 2 ^ 64) 4 needX).getD 0

/-! ### Tensors -/

/-- A tensor of a node changed. -/
def State.modTensor (s : State) (die tens : Nat) (f : Tensor → Tensor) : State :=
  s.modNode die fun n => match Tbl.find? n.tensors tens with
    | some t => { n with tensors := Tbl.put n.tensors tens (f t) }
    | none => n

/-- A frame of a tensor changed. -/
def Tensor.modFrame (t : Tensor) (b : Nat) (f : Frame → Frame) : Tensor := { t with frames := modAt t.frames b f }
/-- The frame of a block. -/
def Tensor.frame (t : Tensor) (b : Nat) : Frame := t.frames.getD b { word := { applied := 0 } }
/-- The current copy of a block, and its staged sum. -/
def Frame.copy (f : Frame) : PnCopy := if f.word.sel then f.copy1 else f.copy0
def Frame.stage (f : Frame) : List El := if f.word.ssel then f.stage1 else f.stage0

/-- The early contributions of a node. -/
def Node.earlyCount (n : Node) : Nat := (n.tensors.map fun p => p.2.early.length).sum

/-- A contribution added to a block (R452): into the other stage, then the block word. -/
def Frame.add (f : Frame) (els : List Nat) : Frame :=
  let base : List El := if f.word.nextr = 0 then List.replicate 1024 {} else f.stage
  let sum := (base.zip els).map fun p => (p.1.accumulate (Fmt.f32.decode p.2)).propagate
  let f1 : Frame := if f.word.ssel then { f with stage0 := sum } else { f with stage1 := sum }
  { f1 with word := { f.word with ssel := !f.word.ssel, nextr := f.word.nextr + 1 } }

/-- The held contributions of the open step whose rank has come, added in ascending rank (R452). -/
def Tensor.drain (t : Tensor) (b : Nat) : Nat → Tensor
  | 0 => t
  | n + 1 =>
    match t.early.find? fun e => e.blk = b && e.step = t.open' && e.rank = (t.frame b).word.nextr with
    | none => t
    | some e => ({ t with early := t.early.filter fun x => !(x.blk = b && x.step = e.step && x.rank = e.rank) }.modFrame b fun f => f.add e.els).drain b n

/-! ### Gradient blocks (R451) -/

/-- What the node makes of a block (R451): the tensor after it, whether it was refused; none while it waits at the link unit. -/
def Tensor.take (t : Tensor) (early blk step rank : Nat) (els : List Nat) : Option (Tensor × Bool) :=
  let w := (t.frame blk).word
  let dup : Tensor := { t with dups := (t.dups + 1) % 2 ^ 32 }
  let refuse : Tensor := { t with refd := (t.refd + 1) % 2 ^ 32 }
  if t.frames.length ≤ blk || t.nrank ≤ rank then some (refuse, true)
  else if step ≤ w.applied then some (dup, false)
  else if step = t.open' && (decide (rank < w.nextr) || t.early.any fun e => e.blk = blk && e.step = step && e.rank = rank) then some (dup, false)
  else if step = t.open' && rank = w.nextr && t.tstate = 0 then some ((t.modFrame blk fun f => f.add els).drain blk t.nrank, false)
  else if step = t.open' || step = t.open' + 1 then
    if t.early.any fun e => e.blk = blk && e.step = step && e.rank = rank then some (dup, false)
    else if 1024 ≤ early then none
    else some ({ t with early := t.early ++ [{ blk := blk, step := step, rank := rank, els := els }] }, false)
  else some (refuse, true)

/-- GRADIENT_BLOCK (R436, R451): an arrived block is added, held, discarded or refused by its node. -/
def execGradientBlock (die msg : Nat) (s : State) : Out :=
  match Tbl.find? s.inbox msg with
  | none => .next s
  | some d =>
    if d.cargo ≠ .gradient || d.arg 0 ≠ die then .next s
    else
      let n := s.node die
      let away (s : State) (reason v0 v1 v2 : Nat) : State := (s.dropDelivery msg).report d true reason v0 v1 v2
      let tens := d.arg 1
      let refused (s : State) : State := away s 28 0 tens (d.arg 2 * 2 ^ 32 + d.arg 3)
      if d.src ≠ s.rank && (s.ctxOfKey d.gkey).isNone then .next (away s 25 0 s.rank 0)
      else if n.disabled then .next (refused s)
      else if n.failed then .next s
      else match Tbl.find? n.tensors tens with
        | none => .next (refused s)
        | some t =>
          if t.lost then .next (refused s)
          else match t.take n.earlyCount (d.arg 2) (d.arg 3) d.src (d.els.map (·.2)) with
            | none => .next s
            | some (t1, bad) =>
              let s1 := s.modNode die fun n => { n with tensors := Tbl.put n.tensors tens t1 }
              .next (if bad then refused s1 else away s1 0 0 0 0)

/-! ### The update (R454) -/

def pnSr : Sr := { seed := 0, tid := 0, ctr := 0 }
def pnMul (a b : Nat) : Nat := (fmulEl .f32 0 pnSr a b 0).1
def pnFma (a b c : Nat) : Nat := (ffmaEl .f32 0 pnSr a b c).1
def pnNeg (a : Nat) : Nat := if bitOf a 31 then a - 2 ^ 31 else a + 2 ^ 31

/-- An exact integer power. -/
def Fv.pow (x : Fv) (t : Nat) : Fv :=
  if t = 0 then .fin false 1 0
  else match x with
    | .nan => .nan
    | .inf n => .inf (n && t % 2 = 1)
    | .zero n => .zero (n && t % 2 = 1)
    | .fin n m e => .fin (n && t % 2 = 1) (m ^ t) (e * t)

/-- Round(1 − b^t), one rounding of the exact value. -/
def pnOneMinus (b t : Nat) : Nat := (addTerms .f32 [.fin false 1 0, ((Fmt.f32.decode b).pow t).neg] 0 pnSr).1

/-- One element's update under a rule: W', m', v' (R454). -/
def pnUpdate (rule : List Nat) (t w m v g0 : Nat) : Nat × Nat × Nat :=
  let q (i : Nat) : Nat := rule.getD i 0
  let lr := q 2
  let g := pnMul (q 7) g0
  if q 0 = 0 then
    let g1 := pnFma (q 6) w g
    let m1 := pnFma (q 3) m g1
    (pnFma (pnNeg lr) m1 w, m1, v)
  else
    let m1 := pnFma (q 3) m (pnMul (pnOneMinus (q 3) 1) g)
    let v1 := pnFma (q 4) v (pnMul (pnOneMinus (q 4) 1) (pnMul g g))
    let bc := bitOf (q 1) 0
    let mh := if bc then (fdivEl .f32 0 pnSr m1 (pnOneMinus (q 3) t) 0).1 else m1
    let vh := if bc then (fdivEl .f32 0 pnSr v1 (pnOneMinus (q 4) t) 0).1 else v1
    let u := (fdivEl .f32 0 pnSr mh (faddEl .f32 0 pnSr (fsqrtEl .f32 0 pnSr vh 0 0).1 (q 5) 0).1 0).1
    (pnFma (pnNeg lr) (pnFma (q 6) w u) w, m1, v1)

/-- A block applied for step t (R453): the new copy, then the block word. -/
def Frame.apply (f : Frame) (rule : List Nat) (t : Nat) : Frame :=
  let c := f.copy
  let out := (List.range 1024).map fun i =>
    pnUpdate rule t (c.w.getD i 0) (c.m.getD i 0) (c.v.getD i 0) (((f.stage.getD i {}).resolve .f32 0 pnSr).1)
  let c1 : PnCopy := { w := out.map (·.1), m := out.map (·.2.1), v := out.map (·.2.2) }
  let f1 : Frame := if f.word.sel then { f with copy0 := c1 } else { f with copy1 := c1 }
  { f1 with word := { f.word with applied := t, sel := !f.word.sel, nextr := 0 } }

/-- The largest magnitude of a row as SCALEX takes it (R455). -/
def rowMax (l : List Nat) : Fv :=
  let vs := l.map fun x => Fmt.f32.decode (x % 2 ^ 31)
  if vs.any Fv.isNan then .nan else vs.foldl (fun a b => if a.below b then b else a) (.zero false)

/-- A fresh block's image: its bytes and their number (R455). -/
def freshImage (outf : Nat) (w : List Nat) : Nat × Nat :=
  if outf = 0 then (2048, packed 2 (w.map fun x => (convF .bf16 (Fmt.f32.decode x) 0 false pnSr).1))
  else
    let row (r : Nat) : List Nat := (w.drop (32 * r)).take 32
    let scales := (List.range 32).map fun r => scaleByte 5 (rowMax (row r))
    let code (p : Nat × Nat) : Nat :=
      let sc := scales.getD (p.2 / 32) 0
      let x := Fmt.f32.decode p.1
      if sc = 255 || x.isNan then Fmt.e4m3.nan else (convF .e4m3 (x.scale (127 - (sc : Int))) 0 true pnSr).1
    (1056, packed 1 (w.zipIdx.map code ++ scales))

/-! ### Replies -/

/-- A node's reply to a command: bytes written on the issuing device, z at each address, and the status (R447). -/
def State.pnReply (s : State) (c : PnCmd) (status z : Nat) (els : List (Nat × Nat)) : State :=
  if c.rank = s.rank then (els.foldl (fun (s : State) p => s.vaPut c.ctx p.1 z p.2) s).settle c.token s.rank status
  else s.sendBack { cargo := .outcome, src := s.rank, dst := c.rank, flight := c.flight, team := c.team, token := c.token, poster := [c.ctx],
                    args := [1, 0, 0, 0, 0, status, z], els := els }

/-! ### Commits (R453) -/

/-- The fresh block b of a step queued for every subscription of a tensor. -/
def Node.queueFresh (n : Node) (tens outf step b : Nat) (w : List Nat) : Node :=
  let img := freshImage outf w
  let put (u : Sub) : Sub :=
    if u.tens = tens then { u with fresh := u.fresh ++ [(step, u.dst + b * (if outf = 0 then 2048 else 1088), img.1, img.2)] } else u
  { n with subs := n.subs.map fun p => (p.1, put p.2) }

/-- The tag of a step due for every subscription of a tensor but those into a weight store, which take none (R456). -/
def Node.queueTags (n : Node) (tens step : Nat) : Node :=
  { n with subs := n.subs.map fun p => (p.1, if p.2.tens = tens && !p.2.wst then { p.2 with tagDue := p.2.tagDue ++ [step] } else p.2) }

/-- The next block of a commit in progress; after the last the open step moves on, held contributions of it are added, and the command
is answered. -/
def State.commitStep (s : State) (die tens : Nat) (t : Tensor) (c : PnCmd) (b : Nat) : State :=
  let step := t.open'
  if b < t.frames.length then
    let f := t.frame b
    let f1 := if f.word.applied = step then f else f.apply (t.rule.getD []) step
    s.modNode die fun n =>
      { n.queueFresh tens t.outf step b f1.copy.w with tensors := Tbl.put n.tensors tens { t.modFrame b (fun _ => f1) with commit := some (c, b + 1) } }
  else
    let t1 : Tensor := { t with open' := step + 1, tstate := 0, commit := none }
    let t2 := (List.range t1.frames.length).foldl (fun (t : Tensor) b => t.drain b t.nrank) t1
    (s.modNode die fun n => { n.queueTags tens step with tensors := Tbl.put n.tensors tens t2 }).pnReply c 0 0 []

/-! ### Commands (R449, R450) -/

/-- The query record (R450). -/
def Tensor.query (t : Tensor) (nsub blk : Nat) : Nat :=
  let w := (t.frame blk).word
  let low := (t.frames.map fun f => f.word.applied).foldl min ((t.frame 0).word.applied)
  let nbuf := (t.early.filter fun e => e.blk = blk && e.step = t.open').length
  low + t.open' * 2 ^ 32 + t.tstate * 2 ^ 64 + t.outf * 2 ^ 72 + t.nrank * 2 ^ 96 + t.frames.length * 2 ^ 128 + t.dups * 2 ^ 160 + t.refd * 2 ^ 192
    + t.early.length * 2 ^ 224 + w.applied * 2 ^ 256 + w.nextr * 2 ^ 288 + min nbuf 255 * 2 ^ 304
    + ((if w.sel then 1 else 0) + (if w.ssel then 2 else 0)) * 2 ^ 312 + nsub * 2 ^ 320

/-- The bitmap of the blocks that a commit finds missing, eight bits a byte. -/
def Tensor.missing (t : Tensor) : List Nat := (List.range t.frames.length).filter fun b => (t.frame b).word.nextr < t.nrank

/-- A command's own outcome at a node (R449, step 5): the state, and the reply unless it comes later. -/
def State.pnRun (s : State) (die : Nat) (c : PnCmd) : State :=
  let r := c.record
  let tens := pnTens r
  let n := s.node die
  let done (s : State) : State := s.pnReply c 0 0 []
  let refuse : State := s.pnReply c 2 0 []
  match c.sub, Tbl.find? n.tensors tens with
  | 0, old =>
    let nb := recBytes r 7 4
    let used := (n.tensors.map fun p => p.2.frames.length).sum
    if old.isSome || 4096 ≤ n.tensors.length || 2 ^ 35 < (used + nb) * 53248 then refuse
    else
      let mzero := bitOf (recBytes r 13 13) 0
      let word (i : Nat) : Nat := c.regions.getD i 0
      let blk (b : Nat) : Frame :=
        let get (base : Nat) : List Nat := (List.range 1024).map fun i => word (base + i)
        let m := 1024 * nb + 2048 * b
        { word := { applied := recBytes r 35 32 }
          copy0 := { w := get (1024 * b), m := if mzero then List.replicate 1024 0 else get m, v := if mzero then List.replicate 1024 0 else get (m + 1024) } }
      let t : Tensor := { outf := recBytes r 12 12, nrank := recBytes r 11 8, open' := (recBytes r 35 32 + 1) % 2 ^ 32, frames := (List.range nb).map blk }
      done (s.modNode die fun n => { n with tensors := Tbl.put n.tensors tens t })
  | _, none => s.pnReply c 4 0 []
  | 1, some _ =>
    if 2 ≤ recBytes r 4 4 then refuse
    else
      let w (i : Nat) : Nat := recBytes r (4 * i + 3) (4 * i)
      done (s.modTensor die tens fun t => { t with rule := some [recBytes r 4 4, recBytes r 5 5, w 2, w 3, w 4, w 5, w 6, w 7] })
  | 2, some _ =>
    let nr := recBytes r 7 4
    if 4096 < nr then refuse
    else done (s.modTensor die tens fun t =>
      let gone := t.early.filter fun e => e.step = t.open' || e.step = t.open' + 1
      let staged := (t.frames.map fun f => f.word.nextr).sum
      { t with dups := (t.dups + staged + gone.length) % 2 ^ 32, early := t.early.filter (!gone.contains ·), nrank := if nr = 0 then t.nrank else nr
               frames := t.frames.map fun f => { f with word := { f.word with nextr := 0 } } })
  | 3, some t =>
    if recBytes r 7 4 ≠ t.open' || t.rule.isNone then refuse
    else if t.missing.isEmpty then s.modTensor die tens fun t => { t with tstate := 1, commit := some (c, 0) }
    else
      let a := recBytes r 15 8
      let map := (List.range ((t.frames.length + 7) / 8)).map fun i => (a + i, maskOf ((t.missing.filter fun b => b / 8 = i).map (· % 8)))
      s.pnReply c 1 1 (if a = 0 then [] else map)
  | 4, some t =>
    if t.frames.length ≤ recBytes r 7 4 then refuse
    else
      let nsub := (List.filter (fun p : Nat × Sub => p.2.tens = tens) n.subs).length
      s.pnReply c 0 64 [(recBytes r 15 8, t.query nsub (recBytes r 7 4))]
  | 5, some _ =>
    let sfl := recBytes r 4 4
    let mine := List.filter (fun p : Nat × Sub => p.2.tens = tens) n.subs
    let own (u : Sub) : Bool := u.tens = tens && u.rank = c.rank && u.ctx = c.ctx && u.flight = c.flight && u.team = c.team
    if bitOf sfl 1 then done (s.modNode die fun n => { n with subs := n.subs.filter fun p => !own p.2 })
    else if 64 ≤ mine.length || (bitOf sfl 0 && pnRem r) then refuse
    else
      let u : Sub := { tens := tens, rank := c.rank, ctx := c.ctx, gkey := c.gkey, flight := c.flight, team := c.team, tag := recBytes r 5 5,
                       dst := recBytes r 15 8, wst := bitOf sfl 0 }
      let s1 := s.modNode die fun n => { n with subs := Tbl.put n.subs s.nextId u }
      done ({ s1 with nextId := s1.nextId + 1 } : State)
  | _, some _ =>
    done (s.modNode die fun n => { n with tensors := Tbl.del n.tensors tens, subs := n.subs.filter fun p => p.2.tens ≠ tens })

/-- A command at a node, by the order of R449: the node's state, the record, the tensor, a commit under way, and its own outcome; `bad`
tells whether a region fails its range check. -/
def State.pnDo (s : State) (die : Nat) (c : PnCmd) (bad : Bool) : State :=
  let n := s.node die
  let reply (x : Nat) : State := s.pnReply c x 0 []
  if n.failed || n.disabled then reply 0xFFFFFFFF
  else if pnBad c.sub c.record || bad then reply 2
  else match c.sub, Tbl.find? n.tensors (pnTens c.record) with
    | 0, _ => s.pnRun die c
    | _, none => reply 4
    | k, some t =>
      if t.lost && k ≠ 4 && k ≠ 6 then reply 2
      else if t.tstate ≠ 0 && k ≠ 4 then reply 3 else s.pnRun die c

/-- The regions that a command reads or writes on the issuing device: address, bytes, and whether it writes. -/
def State.pnRegions (s : State) (die sub r : Nat) : List (Nat × Nat × Bool) :=
  match sub with
  | 0 => (regRegions r).map fun q => (q.1, q.2, false)
  | 3 =>
    let nb := match Tbl.find? (s.node die).tensors (pnTens r) with | some t => t.frames.length | none => 0
    let a := recBytes r 15 8
    if a = 0 then [] else [(a, (nb + 7) / 8, true)]
  | 4 => [(recBytes r 15 8, 64, true)]
  | _ => []

/-- A command of this device: its record is read (R447), and it goes to its node here or over the links. -/
def State.localCmd (s : State) (id : Nat) (p : Post) : State :=
  let ctx := p.ctx
  let rs := s.ctxRanges ctx
  let reply (s : State) (x : Nat) : State := s.settle (tokCmd id) s.rank x
  let gkey := match s.ctx? ctx with | some c => c.gkey | none => 0
  if (firstFail rs needX p.addr 64).isSome then
    if (s.node p.target).failed || (s.node p.target).disabled then reply s 0xFFFFFFFF else reply s 2
  else match s.firstUnmapped ctx p.addr needX false 64 with
    | some ia => s.pageRequest ia ctx 0
    | none =>
      let r := (s.vaRead ctx p.addr 64 needX).getD 0
      let regs := if pnBad p.sub r then [] else s.pnRegions p.target p.sub r
      let bad := regs.any fun q => (firstFail rs (if q.2.2 then needW else needX) q.1 q.2.1).isSome
      let far := pnRem r && pnRank r ≠ s.rank
      let c : PnCmd := { sub := p.sub, rank := s.rank, ctx := ctx, gkey := gkey, flight := p.flight, team := p.team, record := r, token := tokCmd id }
      if far && !s.alive (pnRank r) then
        reply (s.asyncFault (postedBy p.flight ctx p.uid p.pc p.thread p.core) 24 p.addr (pnRank r) 0 false) 0xFFFFFFFF
      else match (if bad then none else regs.findSome? fun q => s.firstUnmapped ctx q.1 (if q.2.2 then needW else needX) q.2.2 q.2.1) with
        | some ia => s.pageRequest ia ctx 1
        | none =>
          let words := if bad || p.sub ≠ 0 || pnBad p.sub r then [] else s.regionWords ctx (regRegions r)
          let s1 := if p.sub = 5 && !bitOf (recBytes r 4 4) 1 && !bitOf (recBytes r 4 4) 0 then s.useTags p.flight p.team (2 ^ (recBytes r 5 5 % 64)) else s
          if far then
            ({ s1 with posts := Tbl.put s1.posts id { p with sent := true } } : State).ship
              { cargo := .command, src := s.rank, dst := pnRank r, lane := p.core / 4 % 4, flight := p.flight, team := p.team, gkey := gkey, token := tokCmd id,
                poster := [ctx, p.uid, p.pc, p.thread, p.core], args := [p.target, p.sub, ctx, r, if bad then 1 else 0], els := words.map fun w => (0, w) }
          else s1.pnDo p.target { c with regions := words } bad

/-- A command from another device (R436, R447). -/
def State.remoteCmd (s : State) (msg die : Nat) (d : Delivery) : State :=
  let s1 := s.dropDelivery msg
  match s.ctxOfKey d.gkey with
  | none => s1.report d true 25 (d.arg 3 / 2 ^ 64 % 2 ^ 64) s.rank 0 2
  | some _ =>
    s1.pnDo die
      { sub := d.arg 1, rank := d.src, ctx := d.arg 2, gkey := d.gkey, flight := d.flight, team := d.team, record := d.arg 3,
        regions := d.els.map (·.2), token := d.token } (d.arg 4 = 1)

/-- The next command of a kind for a node: a post of this device, or a delivery. -/
def State.pnCmd (s : State) (die sub : Nat) : State :=
  match List.find? (fun p : Nat × Post => p.2.kind = 1 && p.2.target = die && p.2.sub = sub && !p.2.sent && p.2.reply.isNone) s.posts with
  | some p => s.localCmd p.1 p.2
  | none => match List.find? (fun p : Nat × Delivery => p.2.cargo = .command && p.2.arg 0 = die && p.2.arg 1 = sub) s.inbox with
    | some p => s.remoteCmd p.1 die p.2
    | none => s

/-- PNCMD_REG, PNCMD_RULE, PNCMD_OPEN, PNCMD_QUERY, PNCMD_SUB and PNCMD_UNREG (R449): a node takes its next command of the kind. -/
def execPncmdReg (die : Nat) (s : State) : Out := .next (s.pnCmd die 0)
def execPncmdRule (die : Nat) (s : State) : Out := .next (s.pnCmd die 1)
def execPncmdOpen (die : Nat) (s : State) : Out := .next (s.pnCmd die 2)
def execPncmdQuery (die : Nat) (s : State) : Out := .next (s.pnCmd die 4)
def execPncmdSub (die : Nat) (s : State) : Out := .next (s.pnCmd die 5)
def execPncmdUnreg (die : Nat) (s : State) : Out := .next (s.pnCmd die 6)

/-- PNCMD_COMMIT (R453): the next block of a commit in progress, or the next commit command. -/
def execPncmdCommit (die : Nat) (s : State) : Out :=
  let n := s.node die
  match (if n.failed || n.disabled then none
         else List.findSome? (fun p : Nat × Tensor => p.2.commit.map fun q => (p.1, p.2, q)) n.tensors) with
  | some (tens, t, c, b) => .next (s.commitStep die tens t c b)
  | none => .next (s.pnCmd die 3)

/-! ### Subscriptions (R455, R456) -/

/-- A subscription changed. -/
def State.modSub (s : State) (die sub : Nat) (f : Sub → Sub) : State :=
  s.modNode die fun n => match Tbl.find? n.subs sub with
    | some u => { n with subs := Tbl.put n.subs sub (f u) }
    | none => n

/-- The next fresh block of a subscription on its way: performed here, or sent to the subscriber's device. -/
def State.deliverFresh (s : State) (die sub : Nat) (u : Sub) : State :=
  match u.fresh with
  | [] => s
  | (step, a, z, x) :: r =>
    let s1 := s.modSub die sub fun u => { u with fresh := r }
    if u.rank ≠ s.rank then
      (s1.modSub die sub fun u => { u with flying := u.flying + 1 }).ship
        { cargo := .fresh, src := s.rank, dst := u.rank, lane := die, flight := u.flight, team := u.team, gkey := u.gkey, token := tokSub die sub,
          poster := [u.ctx], args := [die, sub, u.ctx, z, a, x, step, u.tens, u.dst] }
    else match firstFail (s.ctxRanges u.ctx) needW a z with
      | some _ => s1.asyncFault (unposted u.flight u.ctx) 29 u.dst u.tens step false
      | none => match s.firstUnmapped u.ctx a needW true z with
        | some ia => s.pageRequest ia u.ctx 1
        | none => (s1.vaPut u.ctx a z x).trigger u.ctx 4 0 u.team u.dst

/-- SUBSCRIPTION_DELIVERY (R455): the next fresh block of a subscription written on the subscriber's device, or the tag of a step whose
every block has been performed. -/
def execSubscriptionDelivery (die sub : Nat) (s : State) : Out :=
  match Tbl.find? (s.node die).subs sub with
  | none => .next s
  | some u =>
    if u.wst || (s.node die).failed then .next s
    else match u.tagDue with
      | t :: r =>
        if u.fresh.any (fun x => x.1 = t) || u.flying ≠ 0 then .next (s.deliverFresh die sub u)
        else
          let s1 := s.modSub die sub fun u => { u with tagDue := r }
          .next (if u.rank = s.rank then s1.setTag u.flight u.team u.ctx u.tag u.dst
                 else s1.ship { cargo := .tag, src := s.rank, dst := u.rank, flight := u.flight, team := u.team, args := [die, sub, u.ctx, u.tag, u.dst] })
      | [] => .next (s.deliverFresh die sub u)

/-- WEIGHT_STORE_SUBSCRIPTION (R456): a fresh block written into the weight store of a die of the node's device, while no flight is
resident there. -/
def execWeightStoreSubscription (die sub : Nat) (s : State) : Out :=
  match Tbl.find? (s.node die).subs sub with
  | none => .next s
  | some u =>
    let tgt := bits u.dst 33 32
    match u.fresh with
    | (_, a, z, x) :: r =>
      if !u.wst || s.dieBusy tgt || (s.node die).failed then .next s
      else
        let s1 := s.modSub die sub fun u => { u with fresh := r }
        .next { s1 with mem := Memory.write s1.mem (placeWst tgt (a % 2 ^ 30)) z x }
    | [] => .next s

/-! ### Failure and restart (R457, R484) -/

/-- A node fails: a commit in progress is answered, and a third failure within 2^32 firmware cycles disables the node. -/
def State.nodeFails (s : State) (die : Nat) : State :=
  let n := s.node die
  if n.failed || n.disabled then s
  else
    let stamps := (n.stamps.filter fun c => s.fwCycle < c + 2 ^ 32) ++ [s.fwCycle]
    let off := 3 ≤ stamps.length
    let cmds := n.tensors.filterMap fun p => p.2.commit.map (·.1)
    let idle (t : Tensor) : Tensor := { t with commit := t.commit.map fun q => ({ q.1 with rank := s.rank, token := 2 }, q.2) }
    let s1 := s.modNode die fun n => { n with failed := true, disabled := off, stamps := stamps, tensors := n.tensors.map fun p => (p.1, idle p.2) }
    let s2 := cmds.foldl (fun (s : State) c => s.pnReply c 0xFFFFFFFF 0 []) s1
    if off then s2.deviceFault 37 0 die 0 else s2

/-- NODE_HEARTBEAT_TIMEOUT (R484): a node gives no heartbeat, and has failed. -/
def execNodeHeartbeatTimeout (die : Nat) (s : State) : Out := .next (s.nodeFails die)

/-- NODE_RESTART (R457): the node works again; a commit that was in progress is completed, and every subscription receives every block of
its step again. -/
def execNodeRestart (die : Nat) (s : State) : Out :=
  let n := s.node die
  if !n.failed || n.disabled then .next s
  else
    let again (p : Nat × Tensor) : Nat × Tensor := (p.1, match p.2.commit with | some q => { p.2 with tstate := 2, commit := some (q.1, 0) } | none => p.2)
    let step (tens : Nat) : Option Nat := (Tbl.find? n.tensors tens).bind fun t => t.commit.map fun _ => t.open'
    let clear (u : Sub) : Sub := match step u.tens with | some x => { u with fresh := u.fresh.filter fun e => e.1 ≠ x } | none => u
    .next (s.modNode die fun n => { n with failed := false, tensors := n.tensors.map again, subs := n.subs.map fun p => (p.1, clear p.2) })

end Sys2Proof.Machine
end

