-- ==== Sys2Proof/Machine/Retire.lean ====
section
/-!
DEFINITION. Sys2Proof/Machine/Retire.lean: the choice of a band's next run (R268), breakpoints and watchpoints (R414), and
what follows a run that has retired: back-edge rotation (R271), the loop watch unit (R326 to R332), the lane's rotation
and the counters (R48, R182, R360).
-/
namespace Sys2Proof.Machine

/-! ### The next run (R267, R268) -/

/-- The threads of a band that a run may take: ready, and not stopped at a SAFE (R269, R397); of a band stopped at a boundary only
those inside a REP unit (R84, R396). -/
def Band.readyThreads (b : Band) : List Nat :=
  (if b.stopHolds then b.midUnit else b.inState .ready).filter fun t => match (b.thread t).park with | .safe _ => false | _ => true

/-- The first key of some threads. -/
def Band.firstKey (b : Band) (ts : List Nat) : Option Nat := (minBy (fun t => keyNum (b.thread t)) ts).map fun t => keyNum (b.thread t)

/-- A run that a band offers: its threads, and whether it is a rotation run or a single step. -/
structure Offer where
  threads : List Nat
  rot : Bool := false
  single : Bool := false
  deriving DecidableEq, Repr

/-- The threads at a key; of threads inside one REP unit, those at its lowest iteration (R85). -/
def Band.atKey (b : Band) (ts : List Nat) (key : Nat) : List Nat :=
  let here := ts.filter fun t => keyNum (b.thread t) = key
  let low := ((minBy (fun t => (b.thread t).rep) here).map fun t => (b.thread t).rep).getD 0
  here.filter fun t => (b.thread t).rep = low

/-- The run that a band offers (R268, R173, R416). -/
def Band.nextRun (b : Band) : Option Offer :=
  match b.stepping with
  | some t => if b.halted && decide ((b.thread t).state = .halted) then some { threads := [t], single := true } else none
  | none =>
    let rd := b.readyThreads
    match b.firstKey rd with
    | none => none
    | some h =>
      let o := rd.filter fun t => keyNum (b.thread t) ≠ h
      match (if b.bec = 16 || b.yieldNext then b.firstKey o else none) with
      | some k => some { threads := b.atKey o k, rot := true }
      | none => some { threads := b.atKey rd h }

/-- Whether a band may issue at all: no fault or stop holds it (but a REP unit ends), no page fault on a load holds it (R201,
R396, R475), and its core works, or is being left (R482). -/
def State.mayIssue (s : State) (k : Nat) (b : Band) : Bool :=
  b.fault.isNone && !(b.stopHolds && b.midUnit.isEmpty) && (s.coreWorks (keyCore k) || b.stop.isSome)
    && !(s.iq.any fun a => a.faulted && decide (a.band = k) && decide (a.uid = b.uid))
    && (match b.pageWait with | some p => s.mapped p.1 false | none => true)

/-! ### Breakpoints and watchpoints (R412 to R414) -/

/-- Whether a thread meets the condition of a breakpoint (R412). -/
def Ibp.meets (p : Ibp) (b : Band) (t : Nat) : Bool :=
  match p.cond with
  | 0 => true
  | 1 => decide (t = p.tval)
  | 2 => decide ((b.thread t).tidx = p.tval)
  | _ => decide (b.team = p.tval)

/-- The first breakpoint that matches a run about to issue, with the lowest thread that met its condition (R414). -/
def State.breakpoint (s : State) (b : Band) (core pc : Nat) (ts : List Nat) : Option (Nat × Nat) :=
  if ts.any fun t => (b.thread t).past.contains pc then none
  else match s.ctx? (s.bandCtx b) with
    | none => none
    | some c =>
      ((c.ibps.zipIdx.filterMap fun q =>
        if q.1.en && (((s.core core).overlays.getD (pc / 16384) {}).ovid = some q.1.ovid) && q.1.woff = pc % 16384 then
          (ts.find? fun t => q.1.meets b t).map fun t => (q.2, t)
        else none)).head?

/-- An access that a watchpoint may match: thread, space, address as the thread formed it, bytes, read, written. -/
structure Touch where
  thread : Nat
  space : Nat
  addr : Nat
  size : Nat
  reads : Bool
  writes : Bool
  deriving DecidableEq, Repr

/-- The instructions whose accesses a watchpoint may match: LD, ST, LDK, ATOM, ATOM2, RED, WATCH, CSAVE, CREST, pushes and
pops; a REP unit stands for its target (R414). -/
def watchable (op : Nat) : Bool :=
  [0x80, 0x81, 0x82, 0x84, 0x85, 0x86, 0x88, 0xD4, 0xD5, 0x64, 0x65, 0x66, 0xD3, 0x7F].contains op

/-- The touches of the accesses that a run has issued. -/
def State.touches (s0 s1 : State) (base : Nat) : List Touch :=
  (s1.iq.filter fun a => decide (s0.nextId ≤ a.id) && decide (a.space < 2) && decide (a.kind ≠ .pref)).map fun a =>
    { thread := a.thread, space := a.space, addr := if a.space = 0 then a.va else a.addr - base, size := a.size,
      reads := !decide (a.kind = .store), writes := !decide (a.kind = .load) }

/-- The first byte of a touch that a watchpoint covers, where it matches (R413). -/
def Dwp.hit (w : Dwp) (t : Touch) : Option Nat :=
  let lo := max t.addr w.base
  let hi := min (t.addr + t.size) (w.base + w.len)
  if w.en && decide (t.space = w.space) && ((t.reads && bitOf w.rw 0) || (t.writes && bitOf w.rw 1)) && decide (lo < hi) then some lo
  else none

/-- The first watchpoint that some touch matches: its number, the thread and the byte. -/
def Ctx.watchHit (c : Ctx) (ts : List Touch) : Option (Nat × Nat × Nat) :=
  (c.dwps.zipIdx.filterMap fun q => (ts.filterMap fun t => (q.1.hit t).map fun a => (q.2, t.thread, a)).head?).head?

/-! ### The loop watch unit (R326 to R332) -/

/-- H0 of R328. -/
def hash0 : Nat := 0xCBF29CE484222325
/-- The fold of R328. -/
def hashFold (h x : Nat) : Nat := (h ^^^ x) * 0x100000001B3 % 2 ^ 64

/-- Whether an instruction is admissible in a tracked iteration, with the line names its loads gave (R327). -/
def admissible (i : Instr) (loads : List (Nat × Nat × Nat)) : Bool :=
  match i.form? with
  | none => false
  | some (op, form) =>
    let device := loads.all fun q => decide (2 ^ 63 ≤ q.2.2) || !isHost q.2.2
    let weights := match form with | .x f => decide (f.c.toNat % 4 = 2) | _ => false
    match i with
    | .ld _ => device
    | .ldX _ => device && !weights
    | .ldk _ => device && !weights
    | .bra _ => true
    | .nop _ => true
    | _ => (decide (1 ≤ op) && decide (op ≤ 0x1D) && decide (op ≠ 0x1C)) || (decide (0x20 ≤ op) && decide (op ≤ 0x32))
             || (decide (0x40 ≤ op) && decide (op ≤ 0x43))

/-- The tracker after a run in its inactive state (R328). -/
def trackIdle (i : Instr) (r : Run) : Tracker :=
  match i with
  | .bra f =>
    if r.threads.all r.back.contains && !r.threads.isEmpty then
      { active := true, tpc := formBTarget r.pc f, bpc := r.pc, tmask := maskOf r.threads, h := hash0 }
    else {}
  | _ => {}

/-- The hash and the lines after the loads and writes of a run, in ascending thread order (R328). -/
def Tracker.fold (x : Tracker) (r : Run) : Tracker :=
  let h1 := hashFold x.h r.pc
  r.threads.foldl (fun x t =>
    let ls := r.loads.filter fun q => q.1 = t
    let h2 := ls.foldl (fun h q => if 2 ^ 64 ≤ q.2.1 then h else hashFold (hashFold h (q.2.1 % 2 ^ 32)) (q.2.1 / 2 ^ 32)) x.h
    let h3 := (r.writes.filter fun q => q.1 = t).foldl (fun h q => hashFold h q.2) h2
    { x with h := h3, clines := ls.foldl (fun l q => if l.contains q.2.2 then l else l ++ [q.2.2]) x.clines }) { x with h := h1 }

/-- The lines of a tracker armed: each takes a watch-table entry if one is free (R329). -/
def State.armLines (s : State) (k : Nat) (lines : List Nat) : State :=
  lines.foldl (fun s n =>
    let free := s.tableHas k n
    s.modBand k fun b => { b with tracker := { b.tracker with
      alines := b.tracker.alines ++ [n], untabled := if free then b.tracker.untabled else b.tracker.untabled ++ [n] } })
    (s.modBand k fun b => { b with tracker := { b.tracker with alines := [], untabled := [] } })

/-- The tracked branch taken again by every thread (R328, R330). -/
def State.trackEnd (s : State) (k : Nat) (x : Tracker) : State :=
  let again := decide (1 ≤ x.count) && !x.ev && decide (x.h = x.prevh)
  let n := if again then x.count + 1 else 1
  let y : Tracker := { x with count := n, ev := if again then x.ev else false, armed := true }
  let s1 := s.modBand k fun b => { b with tracker := y }
  let s2 := if again then s1 else s1.armLines k x.clines
  if n = 4 then
    (s2.modBand k fun b => b.modThreads (members x.tmask b.width) fun _ th => { th with state := .onWatch, park := .loop (s.cycleAt (keyCore k)) }).count
      (keyCore k) 6 1
  else s2.modBand k fun b => { b with tracker := { b.tracker with prevh := x.h, h := hash0, nins := 0, clines := [] } }

/-- What the tracker of a slot does after a run has retired (R328). -/
def State.track (s : State) (k : Nat) (i : Instr) (r : Run) : State :=
  match s.band? k with
  | none => s
  | some b =>
    let x := b.tracker
    let set (y : Tracker) : State := s.setBand k { b with tracker := y }
    if !x.active then set (trackIdle i r)
    else if !(r.threads.any fun t => bitOf x.tmask t) then s
    else if decide (maskOf r.threads ≠ x.tmask) || decide (r.pc < x.tpc) || decide (x.bpc < r.pc) || !admissible i r.loads then set (trackIdle i r)
    else if 16 < x.nins + 1 then set {}
    else
      let y := { x with nins := x.nins + 1 }.fold r
      if 4 < y.clines.length then set {}
      else match i with
        | .bra _ =>
          if r.pc ≠ x.bpc then set y
          else if !(r.threads.all r.back.contains) then set {}
          else if y.clines.isEmpty then set (trackIdle i r)
          else s.trackEnd k y
        | _ => set y

/-- LOOP_WATCH_TIMEOUT: a band's parked loop wakes after its bounded time, a wake of each of its threads (R182, R331). -/
def execLoopWatchTimeout (band : Nat) (s : State) : Out :=
  match s.band? band with
  | none => .next s
  | some b =>
    let limit := if b.tracker.untabled.isEmpty then 65536 else 2048
    let due := b.threads.any fun th => match th.state, th.park with
      | .onWatch, .loop since => decide (since + limit ≤ s.cycleAt (keyCore band))
      | _, _ => false
    let n := (b.threads.filter fun th => match th.state, th.park with | .onWatch, .loop _ => true | _, _ => false).length
    .next (if due then (s.setBand band b.wakeLoop).count (keyCore band) 5 n else s)

/-! ### After a run (R271, R414, R416) -/

/-- BEC after a run retired (R271), over every thread in STATE 0. -/
def Band.afterRun (b : Band) (r : Run) : Band :=
  if r.rot then { b with bec := 0 }
  else match b.firstKey (b.inState .ready) with
    | none => { b with bec := 0 }
    | some h =>
      let at' (t : Nat) : Bool := (b.inState .ready).contains t && decide (keyNum (b.thread t) = h)
      if !r.threads.any at' then { b with bec := 0 }
      else if r.back.any at' then { b with bec := min (b.bec + 1) 16 }
      else b

/-- The end of a single step (R415, R416): its report, and the thread's wait if it parked. -/
def Band.stepDone (b : Band) (r : Run) : Band :=
  let t := r.threads.headD 0
  let st := (b.thread t).state
  let why := if st = .onBarrier || st = .onWatch || st = .atOp then 7 else 5
  let b1 := if bitOf b.tracker.tmask t then b.resetTracker else b
  { b1 with stepping := none, halt := { why := why, idx := t, pc := r.pc, tid := t } }

/-- The debugger's step is over: the mailbox of its context answers (R416, R418). -/
def State.answerStep (s : State) (ctx mst : Nat) : State :=
  s.modCtx ctx fun c => if c.mailbox.begun then { c with mailbox := { c.mailbox with mst := mst, begun := false } } else c

/-- The watchpoint hits of a run are noted, and halt the band once the run has retired (R414). -/
def State.afterWatch (s0 s1 : State) (k op : Nat) : State :=
  match s1.band? k with
  | none => s1
  | some b =>
    let r := s1.issue
    let near := (r.loads.filter fun q => decide (op = 0x88) && decide (q.2.1 < 2 ^ 64)).map fun q =>
      ({ thread := q.1, space := if q.2.2 < 2 ^ 63 then 0 else 1, addr := q.2.1, size := 1, reads := true, writes := false } : Touch)
    let hit := b.wpHit.or (if watchable op || r.ended then (s1.ctx? (s1.bandCtx b)).bind fun c => c.watchHit (s0.touches s1 (s1.alloc b).1 ++ near) else none)
    match hit with
    | none => s1
    | some (n, t, a) =>
      if r.held then s1.setBand k { b with wpHit := hit }
      else s1.setBand k ({ b with wpHit := none }.haltWith { why := 3, idx := n, pc := r.pc, tid := t, addr := a })

/-- Whether a run's instruction is YIELD, whose request for the band's next run that very run leaves standing; every other run that
issues by its key has taken the choice (R173; log entry 111). -/
def isYield (i : Option Instr) : Bool := match i with | some (.yield _) => true | _ => false

/-- What follows a run that was not held: rotation, tracker, counters, watchpoints and the step's end. -/
def State.afterRun (s0 s1 : State) (k : Nat) (i : Option Instr) : State :=
  let r := s1.issue
  let n := r.threads.length
  let op := match i.bind Instr.form? with | some p => p.1 | none => 0
  let phase := match s0.band? k with | some b => b.phase | none => 0
  let lk := r.core * 64 + r.lane
  let s2 := ((s1.count r.core 0 1).count r.core 1 n).count r.core 7 (if r.rot then 1 else 0)
  let s3 := s2.modCore r.core fun c =>
    let sel := 0x1000 + 256 * phase + r.lane
    { c with phases := Tbl.put c.phases sel (Tbl.get c.phases sel 0 + n) }
  let s3' := match s0.band? k with | some b => if r.single then s3.answerStep (s0.bandCtx b) 0 else s3 | none => s3
  let s4 := s3'.setLane lk { s3'.lane lk with last := r.slot, lastPhase := phase, owed := (s3'.lane lk).owed + n }
  let same := match s0.band? k, s4.band? k with | some a, some b => decide (a.uid = b.uid) | _, _ => false
  if !same then s4
  else
    let s5 := if r.ended then s4.modBand k fun b => if r.rot then { b with bec := 0 } else b
      else if r.single then s4
      else match i with
        | some i => (s4.modBand k fun b => b.afterRun r).track k i r
        | none => s4
    let s6 := s5.modBand k fun b => { b with yieldNext := b.yieldNext && (r.single || isYield i), pageWait := none, pastEnd := false }
    let s7 := if r.single then s6.modBand k fun b => b.stepDone r else s6
    (s0.afterWatch s7 k op).checkDivergence k

/-- COMPLETING_ISSUE: the first completed instance of a band issues (R149, R152, R268). -/
def execCompletingIssue (band : Nat) (s : State) : Out :=
  match s.band? band with
  | none => .next s
  | some b =>
    if !s.mayIssue band b || b.stopHolds then .next s
    else match b.firstDone with
      | none => .next s
      | some d => match s.completing band d with
        | .next s1 =>
          let i := match Decode.decodeAt d.pc (s.wordsFrom (keyCore band) d.pc) with | .ok p => some p.1 | .error _ => none
          .next (if s1.issue.held then s1 else s.afterRun s1 band i)
        | o => o

/-- SAFE_POINT_TIMEOUT: a band that has not stopped 2^20 cycles after a safe-point request stops at its next boundary
(R397). -/
def execSafePointTimeout (band : Nat) (s : State) : Out :=
  match s.band? band with
  | none => .next s
  | some b => match b.stop with
    | some (2, since) => .next (if since + 2 ^ 20 ≤ s.cycleAt (keyCore band) then s.setBand band { b with stop := some (1, s.cycleAt (keyCore band)) } else s)
    | _ => .next s

end Sys2Proof.Machine
end

