-- ==== Sys2Proof/Machine/Shoot.lean ====
section
/-!
DEFINITION. Sys2Proof/Machine/Shoot.lean: range sets and page tables as the driver changes them (R422 to R427), the answers of the
host (R427, R464), and shoot-downs (R430 to R434).
-/
namespace Sys2Proof.Machine

/-! ### Range sets (R422, R424) -/

/-- A range register from its 256 bits: none where R422 does not allow them. -/
def rangeReg (x : Nat) : Option (Option RangeReg) :=
  let base := bits x 255 192
  let limit := bits x 191 128
  let ia := bits x 115 64
  let h := bitOf x 6
  let ok := base % 4096 = 0 && limit % 4096 = 4095 && ia % 4096 = 0
    && (if h then decide (base < 2 ^ 63) && decide (limit < 2 ^ 51) && ia = 2 ^ 51 + base % 2 ^ 51 else bitOf base 63 && bitOf limit 63 && !bitOf ia 51)
  if bits x 127 116 ≠ 0 || bits x 63 8 ≠ 0 || bits x 5 3 ≠ 0 then none
  else if !bitOf x 7 then some none
  else if ok then some (some { base := base, limit := limit, iabase := ia, h := h, a := bitOf x 2, w := bitOf x 1, x := bitOf x 0 }) else none

/-- SET_RANGE_TABLE (R422): the driver's service writes a context's range table of 16 registers, or refuses it whole. -/
def execSetRangeTable (ctx : Nat) (table : List Nat) (s : State) : Out :=
  s.service 2 fun s =>
    let rs := table.map rangeReg
    if table.length ≠ 16 || rs.any Option.isNone || (s.ctx? ctx).isNone then s.answer 2 1
    else (s.modCtx ctx fun c => { c with ranges := rs.filterMap fun r => r.join }).answer 2 0

/-- RANGE_SET_LOAD (R424): a unit's range cache takes the set of a context, in 8 sets; which one gives way is the device's choice. A
core takes the set of the context whose image it holds. -/
def execRangeSetLoad (unit ctx : Nat) (s : State) : Out :=
  let rs := s.ctxRanges ctx
  if unit < 384 then
    if (s.core unit).image.any fun i => i.1 / 2 ^ 64 = ctx then .next (s.modCore unit fun c => { c with ranges := some (ctx, rs) }) else .next s
  else
    let mine := (Tbl.keys s.rcaches).filter fun k => k / 4096 = unit
    let key := unit * 4096 + ctx
    let t := if 8 ≤ mine.length && !mine.contains key then Tbl.del s.rcaches (mine.getD (Config.pick s.fresh 0 % mine.length) 0) else s.rcaches
    .next { s with rcaches := Tbl.put t key rs }

/-! ### Walks, mapped pages, the host's answers (R425 to R427, R464) -/

/-- The cores of a die whose ports wait for a translation of a page. -/
def State.walkers (s : State) (die page : Nat) : List Nat :=
  ((s.iq.filter fun a => a.space = 0 && !a.sent && pageOf a.addr = page && coreDie a.core = die).map (·.core)).eraseDups

/-- TABLE_WALK (R425, R426): a die's walker finds a page of the device half for the ports that wait for it; an entry of a wrong form is
reported. -/
def execTableWalk (die page : Nat) (s : State) : Out :=
  let ia := page * 65536
  if isHost ia || s.shoots.any fun p => p.2.begun.contains die && p.2.kind ≠ 2 && decide (p.2.lo ≤ ia + 65535) && decide (ia ≤ p.2.hi) then .next s
  else match s.walk ia with
    | .frame f => .next ((s.walkers die page).foldl (fun (s : State) c => s.cachePage c page f) s)
    | .unmapped => .next s
    | .bad level => .next (s.deviceFault 32 ia level 0)

/-- The accesses that wait for pages retranslate, and those pages may be asked for again (R427). -/
def State.retranslate (s : State) (lo hi : Nat) : State :=
  let inside (ask : Nat) : Bool := ask < 2 ^ 60 && decide (lo ≤ ask * 65536 + 65535) && decide (ask * 65536 ≤ hi)
  { s with
    pageAsks := s.pageAsks.filter fun a => !inside a
    iq := s.iq.map fun a => if a.faulted && decide (lo ≤ a.addr) && decide (a.addr ≤ hi) then { a with faulted := false } else a }

/-- MAPDONE (R427): the driver has mapped the pages of a range. -/
def execMapdone (lo hi : Nat) (s : State) : Out := s.service 6 fun s => (s.retranslate lo hi).answer 6 0

/-- ATS_TRANSLATION_COMPLETION (R427): the host answers a translation request: its permission bits, 1 read and 2 write, none where it
returns no translation. -/
def execAtsTranslationCompletion (page : Nat) (rec' : List Nat) (s : State) : Out :=
  match Tbl.find? s.atc page with
  | some 4 =>
    let s1 : State := { s with atc := Tbl.put s.atc page (rec'.headD 0 % 4) }
    .next { s1 with iq := s1.iq.map fun a => if a.faulted && a.addr / 4096 = page then { a with faulted := false } else a }
  | _ => .next s

/-- The owner that a record of an access names: its band's instruction (R495). -/
def State.accOwner (s : State) (a : Acc) : FaultNote := postedBy a.flight a.ctx a.uid (s.accPc a) a.thread a.core

/-- HOST_COMPLETION (R463, R464): the host completes a read, with its 64 bytes, or an AtomicOp, with the old value; an error of an
AtomicOp returns all ones and is reported, and one of a read returns undefined bytes. -/
def execHostCompletion (req : Nat) (rec' : List Nat) (s : State) : Out :=
  match s.msgs.find? fun m => m.id = req with
  | none => .next s
  | some m => match m.body with
    | .host acc ia atomic =>
      let s0 : State := { s with msgs := s.msgs.filter fun q => q.id ≠ req }
      let bad := rec'.headD 0 ≠ 0
      if atomic then
        match s.acc? acc with
        | none => .next s0
        | some a =>
          let old := if bad then 2 ^ (8 * a.size) - 1 else rec'.getD 1 0 % 2 ^ (8 * a.size)
          let s1 := if bad then s0.asyncFault (s0.accOwner a) 30 a.va 0 0 false else s0
          .next (s1.send m.dst m.src m.lane (.aresp acc old (s1.invsTo m.src)))
      else
        let byte (o : Nat) : Byte := BitVec.ofNat 8 (if bad then Config.freeNat s.fresh o else rec'.getD (o + 1) 0)
        .next (s0.send m.dst m.src m.lane (.resp acc ia ((List.range 64).map fun o => (o, byte o)) (s0.invsTo m.src)))
    | _ => .next s

/-! ### Starting a shoot-down (R430, R432) -/

/-- The devices below this one in the firmware's grid tree: every rank that is alive (log entry 20). -/
def State.childRanks (s : State) : List Nat := (s.gridMap.filter fun p => p.2 = 1 && p.1 ≠ s.rank).map (·.1)

/-- A shoot-down starts: the nodes that will acknowledge it, and the requests to child devices. -/
def State.startShoot (s : State) (n : Nat) : State :=
  match Tbl.find? s.shoots n with
  | none => s
  | some p =>
    let ranks := if p.grid && p.parent.isNone then s.childRanks else []
    let dies := (List.range 4).filter fun d => !(s.die d).disabled
    let key := match s.ctx? p.ctx with | some c => c.gkey | none => 0
    let s1 : State := { s with shoots := Tbl.put s.shoots n { p with started := true, due := dies ++ 4 :: ranks.map (16 + ·), since := s.fwCycle } }
    ranks.foldl (fun (s : State) r => s.ship { cargo := .shoot, src := s.rank, dst := r, args := [p.kind, key, p.lo, p.hi] }) s1

/-- The device's own shoot-downs are handled one at a time, in order (R430). -/
def State.nextShoot (s : State) : State :=
  if s.shoots.any fun p => p.2.parent.isNone && p.2.started then s
  else match List.find? (fun p : Nat × Shoot => p.2.parent.isNone) s.shoots with
    | some p => s.startShoot p.1
    | none => s

/-- A shoot-down requested. -/
def State.requestShoot (s : State) (p : Shoot) : State :=
  let s1 : State := { s with shoots := Tbl.put s.shoots s.nextId p, nextId := s.nextId + 1 }
  if p.parent.isSome then s1.startShoot s.nextId else s1.nextShoot

/-- A shoot-down by address or context for a requester: scope 0 device, 1 grid, 2 the host's ATS Invalidate Request, which needs no
service. -/
def State.askShoot (s : State) (kind ctx lo hi scope : Nat) : Out :=
  let p : Shoot := { kind := kind, ctx := ctx, lo := lo, hi := hi, grid := scope = 1, origin := if scope = 2 then 1 else 0 }
  if scope = 2 then .next (s.requestShoot p) else s.service (3 + kind) fun s => s.requestShoot p

/-- REMAP, UNMAP and RANGE (R430, R431): the three kinds of shoot-down. -/
def execRemap (lo hi scope : Nat) (s : State) : Out := s.askShoot 0 0 lo hi scope
def execUnmap (lo hi scope : Nat) (s : State) : Out := s.askShoot 1 0 lo hi scope
def execRange (ctx scope : Nat) (s : State) : Out := s.askShoot 2 ctx 0 0 (scope % 2)

/-- PRI_RESPONSE (R427): Success makes the device ask for the translation again; another answer unmaps the page. -/
def execPriResponse (page : Nat) (ok : Bool) (s : State) : Out :=
  if !s.pageAsks.contains (2 ^ 60 + page) then .next s
  else
    let s1 : State := { s with pageAsks := s.pageAsks.filter fun a => a ≠ 2 ^ 60 + page }
    if ok then .next (s1.askHost (page * 4096) 1)
    else .next (s1.requestShoot { kind := 1, ctx := 0, lo := page * 4096, hi := page * 4096 + 4095, grid := false, origin := 2 })

/-! ### The steps of a node (R431) -/

/-- Whether a range shoot-down covers an intermediate address. -/
def Shoot.covers (p : Shoot) (ia : Nat) : Bool := p.kind ≠ 2 && decide (p.lo ≤ ia) && decide (ia ≤ p.hi)

/-- Steps 1 and 2: the node's ports hold new accesses and drop their translations, or the range sets of the context; its cores reload
theirs. -/
def State.beginNode (s : State) (n node : Nat) (p : Shoot) : State :=
  let s1 : State := { s with shoots := Tbl.put s.shoots n { p with begun := p.begun ++ [node] } }
  if p.kind = 2 then
    { s1 with
      rcaches := s1.rcaches.filter fun q => !(q.1 % 4096 = p.ctx && unitNode (q.1 / 4096) = node)
      cores := s1.cores.map fun q =>
        if coreDie q.1 = node && q.2.ranges.any (fun r => r.1 = p.ctx) then (q.1, { q.2 with ranges := some (p.ctx, s1.ctxRanges p.ctx) }) else q }
  else
    let hit (size page : Nat) : Bool := decide (p.lo ≤ page * size + (size - 1)) && decide (page * size ≤ p.hi)
    { s1 with
      tlbs := s1.tlbs.map fun q => if unitNode q.1 = node then (q.1, q.2.filter fun e => !hit 65536 e.1) else q
      atc := s1.atc.filter fun e => !hit 4096 e.1 }

/-- Step 3: the L1s of a die write back their dirty sectors of the range and drop its lines; reads in flight serve their own load only. -/
def State.flushNode (s : State) (n node : Nat) (p : Shoot) : State :=
  let cs := (Tbl.keys s.cores).filter fun c => coreDie c = node
  let s1 := cs.foldl (fun (s : State) c => (Tbl.keys (s.core c).l1).foldl (fun (s : State) ia => if p.covers ia then s.dropLine c ia else s) s) s
  { s1 with
    iq := s1.iq.map fun a => if a.sent && coreDie a.core = node && p.covers a.addr then { a with stale := true } else a
    shoots := Tbl.put s1.shoots n { p with flushed := p.flushed ++ [node] } }

/-- The intermediate address of a request that its home has not performed. -/
def Msg.requests (m : Msg) : Option Nat :=
  match m.body with
  | .read _ ia _ _ => some ia
  | .write ia _ _ _ _ _ _ => some ia
  | .red ia _ _ _ _ _ _ _ _ => some ia
  | .atomic _ ia _ _ _ => some ia
  | .host _ ia _ => some ia
  | _ => none

/-- Whether a request of the node's cores and units to the range is still on its way (step 4). -/
def State.nodeBusy (s : State) (node : Nat) (p : Shoot) : Bool :=
  s.msgs.any fun m => (if m.src < 384 then coreDie m.src = node else unitNode m.src = node) && m.requests.any p.covers

/-- A band stops at a load of a page that is gone (R431, LOADFAULT). -/
def State.loadFault (s : State) (k pc btid va : Nat) : State := s.stopBand k { code := 7, pc := pc, btid := btid, addr := va }

/-- Step 5 for the side logs and the held loads of a die. -/
def State.unmapCores (s : State) (node : Nat) (p : Shoot) : State :=
  let cs := (Tbl.keys s.cores).filter fun c => coreDie c = node
  let s1 := cs.foldl (fun (s : State) c =>
    let gone := (s.core c).sidelog.filter fun e => p.covers e.ia
    let s1 := s.modCore c fun x => { x with sidelog := x.sidelog.filter fun e => !p.covers e.ia }
    gone.foldl (fun (s : State) e => s.asyncFault (e.owner c) 16 e.va (e.bmask + if e.red then 256 else 0) 0 true) s1) s
  let held (a : Acc) : Bool := a.faulted && a.space = 0 && coreDie a.core = node && p.covers a.addr
  let s3 := (s1.iq.filter held).foldl (fun (s : State) a => s.abandonAcc a 7 0) s1
  (Tbl.keys s3.bands).foldl (fun (s : State) k => match s.band? k with
    | some b => match b.pageWait with
      | some (ia, va) =>
        if coreDie (keyCore k) = node && p.covers ia then
          let q := (b.nextRun.map fun o => (o.threads.headD 0)).getD 0
          (s.modBand k fun b => { b with pageWait := none }).loadFault k (b.thread q).pc q va
        else s
      | none => s
    | none => s) s3

/-- Whether an element of a unit lies in the range. -/
def State.unitNeeds (s : State) (u ctx va n : Nat) (p : Shoot) : Bool :=
  [va, (va + n - 1) % 2 ^ 64].any fun a => (translate (s.unitRanges u ctx) {} a).any p.covers

/-- Whether a copy still needs the range. -/
def State.copyNeeds (s : State) (c : Copy) (p : Shoot) : Bool :=
  let u := agentCopy c.cluster
  let left := (List.range (c.total - c.next)).map (c.next + ·)
  !c.stopped && match c.ovl with
    | some (_, _, _, src) => left.any fun i => s.unitNeeds u c.ctx (src + 4 * i) 4 p
    | none =>
      let x := tileOf c.record
      left.any fun i => (x.sspc = 0 && s.unitNeeds u c.ctx (x.srcAt i) x.z p) || (!c.grid && x.dspc = 0 && s.unitNeeds u c.ctx (x.dstAt i) x.z p)

/-- Whether a block of an epilogue still needs the range. -/
def State.blockNeeds (s : State) (cl : Nat) (e : Entry) (b : Block) (p : Shoot) : Bool :=
  match e.op with
  | .mma pb =>
    let x := mmaOf pb
    let route := Tbl.get (s.eng cl).routes (8 * e.ctx + x.rreg) 0
    let left := (List.range (1024 - b.done)).map (b.done + ·)
    (x.dest = 2 || (x.dest = 3 && route % 4 = 1))
      && left.any fun i => s.unitNeeds (agentEngine cl) e.ctx (x.elementAt (if x.dest = 2 then 0 else route / 2 ^ 64) b i) x.z p
  | _ => false

/-- Step 5 for the copies and the epilogues of a die. -/
def State.unmapUnits (s : State) (node : Nat) (p : Shoot) : State :=
  let s1 := (List.filter (fun q : Nat × Copy => clusterDie q.2.cluster = node && s.copyNeeds q.2 p) s.copies).foldl
    (fun (s : State) q => s.copyStop q.1 q.2) s
  ((Tbl.keys s1.clusters).filter fun c => clusterDie c = node).foldl (fun (s : State) cl =>
    ((s.eng cl).epilogue).foldl (fun (s : State) q =>
      if (s.eng cl).epilogue.any fun r => r.1 = q.1 then
        match Tbl.find? (s.eng cl).table q.2.entry with
        | some e => match e.op with
          | .mma pb => if !q.2.leftSend && s.blockNeeds cl e q.2 p then s.epiStop cl q.2.entry e (mmaOf pb) else s
          | _ => s
        | none => s
      else s) s) s1

/-! ### Completion (R432, R433) -/

/-- The slices hold no line of the range: holders cleared, and watch marks dropped with their events (step 4, R213). -/
def State.clearSlices (s : State) (p : Shoot) : State :=
  let s1 : State := { s with holders := (s.holders.map fun q => (q.1, q.2.filter fun h => !p.covers h.2)).filter fun q => !q.2.isEmpty }
  let names := (s1.bands.flatMap fun q => q.2.watches.map (·.name) ++ q.2.tracker.alines).eraseDups
  (names.filter fun n => n < 2 ^ 63 && p.covers n).foldl (fun (s : State) n => s.dropMark fun _ => some n) s1

/-- A shoot-down is complete: the service's status, the completion for the host, or the acknowledgement to the parent device. -/
def State.endShoot (s : State) (n : Nat) (p : Shoot) : State :=
  let s1 : State := { s with shoots := Tbl.del s.shoots n }
  let s2 := if p.kind = 2 then s1 else s1.clearSlices p
  match p.parent with
  | some r => s2.ship { cargo := .shootAck, src := s2.rank, dst := r, args := [p.kind, 0, p.lo, p.hi] }
  | none =>
    let s3 := match p.origin with
      | 0 => s2.answer (3 + p.kind) 0
      | 1 => s2.emit [11, p.lo, p.hi]
      | _ => s2
    s3.nextShoot

/-- A node acknowledges, and the shoot-down ends with the last one (R432). -/
def State.ackShoot (s : State) (n node : Nat) : State :=
  match Tbl.find? s.shoots n with
  | none => s
  | some p =>
    let due := p.due.filter (· ≠ node)
    let p1 : Shoot := { p with due := due }
    if due.isEmpty then s.endShoot n p1 else { s with shoots := Tbl.put s.shoots n p1 }

/-- The oldest shoot-down that waits for a node. -/
def State.shootOf (s : State) (node : Nat) : Option (Nat × Shoot) := List.find? (fun p : Nat × Shoot => p.2.started && p.2.due.contains node) s.shoots

/-- SHOOTDOWN_ACK (R431, R432): the next step of a node, a die or the I/O die: its hold, its write-backs, and once its requests are
performed its acknowledgement. -/
def execShootdownAck (node : Nat) (s : State) : Out :=
  if 5 ≤ node then .next s
  else match s.shootOf node with
    | none => .next s
    | some (n, p) =>
      if !p.begun.contains node then .next (s.beginNode n node p)
      else if p.kind = 2 then .next (s.ackShoot n node)
      else if !p.flushed.contains node then
        .next (if s.wb.any fun a => coreDie a.core = node && p.covers a.addr then s else s.flushNode n node p)
      else if s.nodeBusy node p then .next s
      else .next ((if p.kind = 1 then (s.unmapCores node p).unmapUnits node p else s).ackShoot n node)

/-- A child device's acknowledgement. -/
def State.childAck (s : State) (rank : Nat) (args : List Nat) : State :=
  match List.find? (fun p : Nat × Shoot => p.2.started && p.2.due.contains (16 + rank) && decide (p.2.kind = args.getD 0 0)
      && decide (p.2.lo = args.getD 2 0) && decide (p.2.hi = args.getD 3 0)) s.shoots with
  | some p => s.ackShoot p.1 (16 + rank)
  | none => s

/-- A parent device's request; a RANGE names the context that holds the grid key (log entry 20). -/
def State.parentShoot (s : State) (d : Delivery) : State :=
  match (if d.arg 0 = 2 then s.ctxOfKey (d.arg 1) else some 0) with
  | none => s.ship { cargo := .shootAck, src := s.rank, dst := d.src, args := d.args }
  | some ctx => s.requestShoot { kind := d.arg 0, ctx := ctx, lo := d.arg 2, hi := d.arg 3, grid := false, parent := some d.src }

end Sys2Proof.Machine
end

