-- ==== Sys2Proof/Machine/Links.lean ====
section
/-!
DEFINITION. Sys2Proof/Machine/Links.lean: Kiln links (R466 to R470): their state, flits, resends and routes, and the fencing of a rank
(R432, R435).
-/
namespace Sys2Proof.Machine

/-! ### Routes (R468) -/

/-- Coordinate k of a rank: x, y or z (R435). -/
def coordOf (rank k : Nat) : Nat := rank / 16 ^ k % 16

/-- Whether a peer is on the way from a rank to another in dimension order: it differs only in the first coordinate in which they
differ, and lies nearer (log entry 22). -/
def onWay (self peer tgt : Nat) : Bool :=
  match (List.range 3).find? fun k => coordOf self k ≠ coordOf tgt k with
  | none => false
  | some k =>
    let far (a : Nat) : Nat := (coordOf a k - coordOf tgt k) + (coordOf tgt k - coordOf a k)
    (List.range 3).all (fun j => j = k || coordOf peer j = coordOf self j) && decide (far peer < far self)

/-- The route table entry that the links give a rank. -/
def State.routeOf (s : State) (rank : Nat) : Nat := maskOf ((List.range 16).filter fun n => (s.link n).up && onWay s.rank (s.link n).peer rank)

/-- Whether a link that carries flits still has an unacknowledged one for a rank. -/
def State.undrained (s : State) (rank : Nat) : Bool :=
  (List.range 16).any fun n => (s.link n).up && (s.link n).sent.any fun p => p.2.dst = rank

/-- The entry of one rank brought up to date: while the old links still hold flits for it, new deliveries to it wait; and since when no
link serves it. -/
def State.rerouteOne (s : State) (rank : Nat) : State :=
  let new := s.routeOf rank
  let old := Tbl.get s.routes rank 0
  let entry := if new = old then old else if s.undrained rank then 0 else new
  { s with
    routes := if entry = 0 then Tbl.del s.routes rank else Tbl.put s.routes rank entry
    unserved := if new ≠ 0 then Tbl.del s.unserved rank
                else if (Tbl.find? s.unserved rank).isSome then s.unserved else Tbl.put s.unserved rank s.fwCycle }

/-- Every entry of the ranks of the grid map brought up to date, and waiting deliveries sent. -/
def State.reroute (s : State) : State :=
  (((Tbl.keys s.gridMap).filter (· ≠ s.rank)).foldl (fun (s : State) r => s.rerouteOne r) s).pump

/-! ### Deliveries that a link drops (R432, R435, R470) -/

/-- A delivery dropped on its way to a dead rank: its sender, this device or another, hears of it. -/
def State.lostOn (s : State) (d : Delivery) : State :=
  if d.src = s.rank then s.dead d
  else match d.cargo with
    | .outcome | .finished | .tag | .shoot | .shootAck => s
    | _ => s.report d true 24 d.target d.dst 0 0xFFFFFFFF

/-- Unacknowledged flits leave a link for another: their deliveries wait again, before the later ones, and the link's numbers start
afresh (log entry 21). -/
def State.takeBack (s : State) (n : Nat) : State :=
  let l := s.link n
  { s.setLink n { l with sent := [], txSeq := 0, rxSeq := 65535, tries := 0 } with outq := l.sent.map (·.2) ++ s.outq }

/-- A rank fenced off (R432, R470): its links are FENCED and their flits dropped; it is FAILED in the grid map; deliveries to it complete
for their senders; and the reductions that wait on it fail (R442). -/
def State.fenceRank (s : State) (rank : Nat) : State :=
  let ns := (List.range 16).filter fun n => (s.link n).met && (s.link n).peer = rank
  let lost := ns.flatMap fun n => (s.link n).sent.map (·.2)
  let s1 := ns.foldl (fun (s : State) n =>
    s.setLink n { s.link n with state := 4, lanes := 0, sent := [], txSeq := 0, rxSeq := 65535, tries := 0 }) s
  let due := s1.flying.filter fun d => d.dst = rank
  let s2 : State := { s1 with gridMap := Tbl.put s1.gridMap rank 3, outq := s1.outq.filter fun d => d.dst ≠ rank, flying := s1.flying.filter fun d => d.dst ≠ rank }
  let far := lost.filter fun d => d.src ≠ s.rank || d.dst ≠ rank
  let s3 := (due ++ far).foldl (fun (s : State) d => s.lostOn d) s2
  ({ s3.failReductions rank with unserved := Tbl.del s3.unserved rank } : State).reroute

/-! ### Flits (R466, R467) -/

/-- How far a sequence number lies behind another. -/
def seqBehind (a b : Nat) : Nat := (b + 65536 - a) % 65536

/-- The far end's ACK taken: the flits up to it are acknowledged. An acknowledgement alone that brings nothing new asks for the flits
again (log entry 21). -/
def State.takeAck (s : State) (n ack kind : Nat) : State :=
  let l := s.link n
  let left := l.sent.filter fun p => decide (32768 ≤ seqBehind p.1 ack)
  if left.length < l.sent.length then (s.setLink n { l with sent := left, tries := 0 }).reroute
  else if kind = 2 && !left.isEmpty then
    let s1 := s.setLink n { l with tries := l.tries + 1, resend := (l.resend + left.length) % 2 ^ 64 }
    left.foldl (fun (s : State) p => s.sendFlit n p.1 p.2) s1
  else s

/-- A delivery that has come over a link: for this device, or to be passed on. -/
def State.takeDelivery (s : State) (d : Delivery) : State :=
  if d.dst ≠ s.rank then (if s.alive d.dst then s.enqueue d else s.lostOn d)
  else match d.cargo with
    | .shoot => s.parentShoot d
    | .shootAck => s.childAck d.src d.args
    | _ => s.deliver d

/-- FLIT_RECEIVE (R467): a flit that the code cannot correct is discarded; a data flit is taken only in order of SEQ; the rest of a good
flit is its acknowledgement. -/
def execFlitReceive (link : Nat) (flit : Flit) (s : State) : Out :=
  let l := s.link link
  if 16 ≤ link || !l.up then .next s
  else if 2 ≤ flit.check then .next ((s.setLink link { l with crcerr := (l.crcerr + 1) % 2 ^ 64 }).sendAck link)
  else
    let s1 := if flit.check = 1 then s.setLink link { l with feccor := (l.feccor + 1) % 2 ^ 64 } else s
    let s2 := s1.takeAck link (flit.ack % 65536) flit.kind
    if flit.kind ≠ 1 then .next s2
    else
      let m := s2.link link
      if flit.seq ≠ (m.rxSeq + 1) % 65536 then .next (s2.sendAck link)
      else
        let s3 := s2.setLink link { m with rxSeq := flit.seq, flitrx := (m.flitrx + 1) % 2 ^ 64 }
        let s4 := match Delivery.of flit.body with
          | some d => s3.takeDelivery d
          | none => s3
        .next (s4.sendAck link)

/-! ### The states of a link (R469, R470) -/

/-- The lanes that a link may train. -/
def Link.goodLanes (l : Link) : Nat := 8 - (members l.badLanes 8).length

/-- A link starts to train; it keeps its unacknowledged flits. -/
def State.startTraining (s : State) (n : Nat) (again : Bool) : State :=
  let l := s.link n
  (s.setLink n { l with state := 1, lanes := 0, tries := 0, fails := 0, retrain := if again then (l.retrain + 1) % 2 ^ 64 else l.retrain }).reroute

/-- A link's rank stands in the grid map: one not seen before, or one re-admitted (R486). -/
def State.greet (s : State) (rank : Nat) : State := { s with gridMap := Tbl.put s.gridMap rank 1 }

/-- LINK_TRAINING_DONE (R470): an attempt to train ends with 8, 4 or 2 lanes and the rank at the far end (`ok` is the lanes plus 16
times that rank), and the unacknowledged flits leave first; or it fails, and after the third the link is DOWN. -/
def execLinkTrainingDone (link ok : Nat) (s : State) : Out :=
  let l := s.link link
  if 16 ≤ link || l.state ≠ 1 then .next s
  else
    match [8, 4, 2].find? fun n => decide (n ≤ min (ok % 16) l.goodLanes) with
    | some n =>
      let peer := ok / 16 % 4096
      let s1 := s.setLink link { l with state := if n = 8 then 2 else 3, lanes := n, met := true, peer := peer, fails := 0, tries := 0,
                                        resend := (l.resend + l.sent.length) % 2 ^ 64 }
      let s2 := l.sent.foldl (fun (s : State) p => s.sendFlit link p.1 p.2) s1
      .next (s2.greet peer).reroute
    | none =>
      if l.fails + 1 < 3 then .next (s.setLink link { l with fails := l.fails + 1 })
      else .next ((s.setLink link { l with state := 0, lanes := 0, fails := 0 }).takeBack link).reroute

/-- LINK_DISABLE (R469, R470): a write of 1 to DIS; the unacknowledged flits move to another link. -/
def execLinkDisable (link : Nat) (s : State) : Out :=
  let l := s.link link
  if 16 ≤ link then .next s
  else if l.state = 4 then .next (s.setLink link { l with dis := true })
  else .next ((s.setLink link { l with dis := true, state := 5, lanes := 0 }).takeBack link).reroute

/-- LINK_ENABLE (R469, R470): a write of 0 to DIS. -/
def execLinkEnable (link : Nat) (s : State) : Out :=
  let l := s.link link
  if 16 ≤ link then .next s else .next (s.setLink link { l with dis := false, state := if l.state = 5 then 0 else l.state })

/-- ROUTE_UNSERVED_TIMEOUT (R468): a rank that no link has served for SDTO firmware cycles is FAILED. -/
def execRouteUnservedTimeout (rank : Nat) (s : State) : Out :=
  match Tbl.find? s.unserved rank with
  | some since => if s.alive rank && decide (since + s.sdto ≤ s.fwCycle) then .next (s.fenceRank rank) else .next s
  | none => .next s

/-- PEER_READMIT (R470, R486): the driver has a reset peer re-admitted: its fenced links go DOWN, and the grid map follows when one of them
has trained; a rank without a link of its own stands again once a route serves it. -/
def execPeerReadmit (rank : Nat) (s : State) : Out :=
  s.service 14 fun s =>
    let mine := (List.range 16).filter fun n => (s.link n).state = 4 && (s.link n).peer = rank
    if 4096 ≤ rank || rank = s.rank then s.answer 14 1
    else
      let s1 := mine.foldl (fun (s : State) n => s.setLink n { s.link n with state := 0 }) s
      let s2 := if mine.isEmpty && s.routeOf rank ≠ 0 then (s1.greet rank).reroute else s1
      s2.answer 14 0

end Sys2Proof.Machine
end

