-- ==== Sys2Proof/Machine/Tasks.lean ====
section
/-!
DEFINITION. Sys2Proof/Machine/Tasks.lean: task pools (R348 to R352), the dispatcher (R353 to R355, R496) and the end of a task
(R357, R358).
-/
namespace Sys2Proof.Machine

/-! ### Task records (R348, R351, R352) -/

/-- Fields of a task record: entry overlay and offset, FLAGS, ARG, KEY, COORD, SCNT, SREC, KV0, KV1 and STATUS. -/
def taskEntov (r : Nat) : Nat := recBytes r 1 0
def taskEntwd (r : Nat) : Nat := recBytes r 3 2
def taskFlags (r : Nat) : Nat := recBytes r 7 4
def taskArg (r : Nat) : Nat := recBytes r 15 8
def taskKey (r : Nat) : Nat := recBytes r 23 16
def taskCoord (r : Nat) : Nat := recBytes r 31 24
def taskScnt (r : Nat) : Nat := recBytes r 39 32
def taskSrec (r : Nat) : Nat := recBytes r 47 40
def taskSucc (r : Nat) : Bool := bitOf (taskFlags r) 0

/-- The bin of a key (R352). -/
def binOf (key : Nat) : Nat := (List.range 8).foldl (fun x i => x ^^^ (key / 2 ^ (16 + 4 * i) % 16)) 0

/-- The owner of a dispatcher's action in records (R495). -/
def State.taskFault (s : State) (flight ctx addr which : Nat) : State := s.asyncFault (unposted flight ctx) 41 addr which 0 false

/-- A write of the dispatcher into a task record (R496): a write that fails its range check is reported and not made. -/
def State.taskWrite (s : State) (flight ctx va n x : Nat) : State :=
  match firstFail (s.ctxRanges ctx) needW va n with
  | some _ => s.taskFault flight ctx va 1
  | none => s.vaPut ctx va n x

/-! ### Acceptance (R350) -/

/-- The lot that a flight's task held becomes free. -/
def State.freeLot (s : State) (cl flight lot : Nat) : State :=
  s.modCluster cl fun c => { c with lots := c.lots.filter fun l => !(l.flight = flight && l.lot = lot) }

/-- An entry queued at the tail of its bin, in a free one of the pool's 4,096 entries (R349; log entry 123). -/
def Cluster.enqueue (c : Cluster) (e : PoolEntry) : Cluster :=
  { c with pool := c.pool ++ [{ e with idx := ((List.range 4096).find? fun i => !c.pool.any (·.idx = i)).getD 0 }] }

/-- The 128 bytes of a pool's storage that hold an entry, with the index of the next one of its bin (R349). -/
def PoolEntry.image (e : PoolEntry) (next : Nat) : Nat :=
  e.record % 2 ^ 448 + e.addr % 2 ^ 64 * 2 ^ 448 + e.flight % 2 ^ 32 * 2 ^ 512 + e.seq % 2 ^ 32 * 2 ^ 544 + e.ctx % 2 ^ 16 * 2 ^ 576 + e.bin * 2 ^ 592
    + 2 ^ 600 + next * 2 ^ 608

/-- The storage of a pool as the reserved DRAM holds it, entry by entry: a free entry is not valid, and the rest of it is open (R349; log entry
123). -/
def Cluster.poolBytes (c : Cluster) (fresh i : Nat) : Nat :=
  match c.pool.findIdx? (·.idx = i) with
  | some j => let e := c.pool.getD j { record := 0, addr := 0, flight := 0, seq := 0, ctx := 0, bin := 0 }
    e.image ((((c.pool.drop (j + 1)).find? fun x => x.bin = e.bin).map (·.idx)).getD 0xFFFFFFFF)
  | none => let x := Config.freeNat fresh i
    x % 2 ^ 600 + bits x 1023 608 * 2 ^ 608

/-- A record accepted by a pool: steps 4 and 5 of R350. -/
def State.acceptTask (s : State) (cl : Nat) (p : Post) (r : Nat) : State :=
  let seq := (s.cluster cl).taskSeq
  let e : PoolEntry := { record := r, addr := p.addr, flight := p.flight, seq := seq, ctx := p.ctx, bin := binOf (taskKey r) }
  let s1 := s.modCluster cl fun c => { c.enqueue e with taskSeq := (seq + 1) % 2 ^ 32 }
  s1.taskWrite p.flight p.ctx (p.addr + 56) 8 (1 + seq * 2 ^ 32)

/-- A post is over (R350, R357): a TASKP's count completes; a successor post frees its lot. -/
def State.endPost (s : State) (id : Nat) (p : Post) : State :=
  let s1 : State := { s with posts := Tbl.del s.posts id }
  if p.kind = 2 then s1.freeLot (coreCluster p.core) p.flight p.lot
  else match s.keyOfUid p.uid with
    | some k => s1.unitDone k p.gid [p.thread] 0 0 0
    | none => s1

/-- The record of a TASKP as its pool reads it: each 8-byte field as it stands now, or as the issue read it, and every field so where it
would fail the check that the run has passed (R263; log entry 17). -/
def State.postRecord (s : State) (p : Post) (now tlots : Nat) : Nat :=
  let field (i : Nat) : Nat := (if Config.pick s.fresh (3100 + i) % 2 = 0 then p.record else now) / 2 ^ (64 * i) % 2 ^ 64
  let r := packed 8 ((List.range 8).map field)
  if taskBad r tlots then p.record else r

/-- TASK_POST_ACCEPT (R350): a pool with room reads the record of a post, queues it and marks it, or refuses that of a successor; a page
that is not mapped is requested and waited for (R496). -/
def execTaskPostAccept (post : Nat) (s : State) : Out :=
  match Tbl.find? s.posts post with
  | none => .next s
  | some p =>
    let cl := p.target
    if (p.kind ≠ 0 && p.kind ≠ 2) || p.reply.isSome || decide (4096 ≤ (s.cluster cl).pool.length) then .next s
    else match s.firstUnmapped p.ctx p.addr needX false 64, s.firstUnmapped p.ctx (p.addr + 56) needW true 8 with
      | some ia, _ => .next (s.pageRequest ia p.ctx 0)
      | none, some ia => .next (s.pageRequest ia p.ctx 1)
      | none, none =>
        let tlots := match s.flight? p.flight with | some f => f.tlots | none => 0
        match s.vaRead p.ctx p.addr 64 needX with
        | none => .next (if p.kind = 2 then (s.taskFault p.flight p.ctx p.addr 3).endPost post p else (s.acceptTask cl p p.record).endPost post p)
        | some r =>
          if p.kind = 0 then .next ((s.acceptTask cl p (s.postRecord p r tlots)).endPost post p)
          else if taskBad r tlots then .next ((s.asyncFault (unposted p.flight p.ctx) 21 p.addr 0 0 false).endPost post p)
          else .next ((s.acceptTask cl p r).endPost post p)

/-! ### Dispatch (R353 to R355) -/

/-- What a task band wants of a core of a cluster (R353). -/
def taskWant (f : Flight) (e : PoolEntry) (cl : Nat) : Want :=
  { width := f.bandw, quotas := [f.regs], scratch := f.scratch, image := f.image, overlays := .held (taskEntov e.record), clusters := [cl], single := true }

/-- The cores of a cluster that a task band of an entry may start on. -/
def State.taskCores (s : State) (f : Flight) (e : PoolEntry) (cl : Nat) : List Nat :=
  (clusterCores cl).filter fun c => (s.roomAt (taskWant f e cl) c).isSome

/-- The free lots of a flight on a cluster. -/
def State.freeLots (s : State) (cl flight : Nat) (f : Flight) : List Nat :=
  (List.range f.tlots).filter fun l => !(s.cluster cl).lots.any fun x => x.flight = flight && x.lot = l

/-- Whether a pool entry is dispatchable (R353). -/
def State.dispatchable (s : State) (cl : Nat) (e : PoolEntry) : Bool :=
  match s.flight? e.flight with
  | none => false
  | some f =>
    !f.killed && (match s.ctx? f.ctx with | some c => !c.switchedOut && c.cstate ≠ 3 | none => false)
      && (s.flightClusters f).contains cl && !(s.freeLots cl e.flight f).isEmpty && !(s.taskCores f e cl).isEmpty

/-- The bin of the next dispatch, and whether it starts a new turn (R353). -/
def State.dispatchBin (s : State) (cl : Nat) : Option (Nat × Bool) :=
  let c := s.cluster cl
  let has (b : Nat) : Bool := c.pool.any fun e => e.bin = b && s.dispatchable cl e
  if has c.bin && decide (c.turn < 1024) then some (c.bin, false)
  else (((List.range 16).map fun i => (c.bin + 1 + i) % 16).find? has).map fun b => (b, true)

/-- The band of a task (R355). -/
def State.taskBand (f : Flight) (e : PoolEntry) (cl lot pc team : Nat) : Band :=
  let r := e.record
  let w (x : Nat) : Word := BitVec.ofNat 32 x
  let put2 (l : List Word) (i x : Nat) : List Word := (l.set i (w x)).set (i + 1) (w (x / 2 ^ 32))
  let k := put2 (put2 (put2 (put2 ((f.kinit.set 0 (w (recBytes r 51 48))).set 1 (w (recBytes r 55 52))) 56 (taskArg r)) 58 (taskKey r)) 60 (taskCoord r)) 62 e.addr
  let base := f.teams * f.teamb * f.bandw + (cl * f.tlots + lot) * f.bandw
  { flight := e.flight, team := team, bandid := 0, width := f.bandw, kregs := k, quota := f.regs, phase := bits (taskFlags r) 7 4, task := some (cl, lot)
    pastEnd := decide (16384 ≤ taskEntwd r)
    threads := (List.range f.bandw).map fun t => { pc := pc, tidx := (base + t) % 2 ^ 32 } }

/-- An entry dispatched (R355): its lot, core, slot and scratchpad region are the dispatcher's choice (log entry 7). -/
def State.dispatchTask (s : State) (cl : Nat) (e : PoolEntry) : State :=
  match s.flight? e.flight with
  | none => s
  | some f =>
    let lots := s.freeLots cl e.flight f
    let cores := s.taskCores f e cl
    let lot := lots.getD (Config.pick s.fresh 2000 % max lots.length 1) 0
    let core := cores.getD (Config.pick s.fresh 2001 % max cores.length 1) 0
    match s.firstUnmapped e.ctx (e.addr + 56) needW true 4, s.roomAt (taskWant f e cl) core with
    | some ia, _ => s.pageRequest ia e.ctx 1
    | none, some (k :: _, base) =>
      let team := 0x80000000 + cl * f.tlots + lot
      let b := State.taskBand f e cl lot (s.entryPc core (taskEntov e.record) (taskEntwd e.record)) team
      let s1 := s.modFlight e.flight fun g =>
        { g with members := Tbl.put g.members team { teamb := 1, kind := 2, cluster := some cl, tidxs := b.threads.map (·.tidx) } }
      let s2 := ((s1.setBand k b).seatTeam e.flight team core base).scrambleScratch cl base f.scratch
      let s3 := s2.modCluster cl fun c =>
        { c with pool := c.pool.filter fun x => x.seq ≠ e.seq || x.addr ≠ e.addr
                 lots := c.lots ++ [{ flight := e.flight, lot := lot, record := e.record, addr := e.addr, ctx := e.ctx }] }
      let s4 := s3.taskWrite e.flight e.ctx (e.addr + 56) 4 2
      s4.acquire k (List.range f.bandw) 5 (s4.invsTo core)
    | none, _ => s

/-- A cluster of a flight that works, other than one; which is the firmware's choice (log entry 7). -/
def State.otherCluster (s : State) (f : Flight) (cl : Nat) : Option Nat :=
  let l := (s.flightClusters f).filter fun c => c ≠ cl && (clusterCores c).any s.coreWorks
  l[Config.pick s.fresh 3000 % max l.length 1]?

/-- Task and imago teams that are bound to a cluster, its queued tasks and its spawn records move to another cluster of the partition, as far as
its pool and spawn memory have room (R274, R349, R482; log entry 7). -/
def State.moveFlight (s : State) (cl n : Nat) (f : Flight) : State :=
  match s.otherCluster f cl with
  | none => s
  | some tgt =>
    let s1 := s.modFlight n fun f => { f with members := f.members.map fun q => (q.1, if q.2.cluster = some cl then { q.2 with cluster := some tgt } else q.2) }
    let c := s1.cluster cl
    let d := s1.cluster tgt
    let es := (c.pool.filter fun e => e.flight = n).take (4096 - d.pool.length)
    let rs := (c.spawns.filter fun r => r.flight = n).take (65536 - d.spawns.length)
    let s2 := s1.modCluster tgt fun d => { es.foldl Cluster.enqueue d with spawns := d.spawns ++ rs }
    let s3 := s2.modCluster cl fun d => { d with pool := d.pool.filter (!es.contains ·), spawns := d.spawns.filter (!rs.contains ·) }
    { s3 with posts := s3.posts.map fun p => (p.1, if p.2.flight = n && p.2.kind ≠ 1 && p.2.target = cl then { p.2 with target := tgt } else p.2) }

/-- The work that is bound to a cluster without a working core moves. -/
def State.moveOff (s : State) (cl : Nat) : State :=
  if (clusterCores cl).any s.coreWorks then s else s.flights.foldl (fun (s : State) p => s.moveFlight cl p.1 p.2) s

/-- TASK_DISPATCH (R353, R354): the dispatcher's next dispatch, of the bin whose turn it is, at most once in 16 cycles. A cluster that has lost its
last core has none (R482). -/
def execTaskDispatch (cluster bin : Nat) (s : State) : Out :=
  let now := (s.die (clusterDie cluster)).cycle
  if !(clusterCores cluster).any s.coreWorks then .next (s.moveOff cluster)
  else if (s.cluster cluster).disabled || decide (now < (s.cluster cluster).lastDispatch + 16) then .next s
  else match s.dispatchBin cluster with
    | none => .next s
    | some (b, fresh) =>
      if b ≠ bin then .next s
      else match (s.cluster cluster).pool.find? fun e => e.bin = b && s.dispatchable cluster e with
        | none => .next s
        | some e =>
          let s1 := s.modCluster cluster fun c => { c with bin := b, turn := (if fresh then 0 else c.turn) + 1, lastDispatch := now }
          let s2 := s1.dispatchTask cluster e
          .next (if (s2.cluster cluster).pool.length < (s.cluster cluster).pool.length then s2 else s.dispatchTask cluster e)

/-! ### The end of a task (R357, R358) -/

/-- The lot of a task band. -/
def State.lotOf (s : State) (cl flight lot : Nat) : Option Lot := (s.cluster cl).lots.find? fun l => l.flight = flight && l.lot = lot

/-- The release that an ended task band makes (R357): true once it is complete. -/
def State.endRelease (s : State) (k : Nat) (b : Band) : State × Bool :=
  let own (p : RelProg) : Bool := p.depth = 256
  let p := (b.rels.find? own).getD { depth := 256, pc := 0, wait := (b.groups.filter Group.open).map fun g => g.gid }
  let q := s.releaseStep k b.uid 5 p.phase p.wait
  let next : List RelProg := if q.2.2.2 then [] else [{ depth := 256, pc := 0, phase := q.2.1, wait := q.2.2.1 }]
  (q.1.modBand k fun b => { b with rels := next }, q.2.2.2)

/-- A lot changed. -/
def State.modLot (s : State) (cl : Nat) (l : Lot) (g : Lot → Lot) : State :=
  s.modCluster cl fun c => { c with lots := c.lots.map fun x => if x.flight = l.flight && x.lot = l.lot then g x else x }

/-- A write of STATUS that ends a task, once its page is mapped (R357, R358, R496). -/
def State.lotStatus (s : State) (l : Lot) (status : Nat) : State × Bool :=
  match s.firstUnmapped l.ctx (l.addr + 56) needW true 4 with
  | some ia => (s.pageRequest ia l.ctx 1, false)
  | none => (s.taskWrite l.flight l.ctx (l.addr + 56) 4 status, true)

/-- Step 3 of R357: the counter of the successor drops, and its record is posted where it was 1. -/
def State.lotCounter (s : State) (cl : Nat) (l : Lot) : State :=
  let scnt := taskScnt l.record
  let done (s : State) : State := s.freeLot cl l.flight l.lot
  match firstFail (s.ctxRanges l.ctx) needXWA scnt 4 with
  | some _ => done (s.taskFault l.flight l.ctx scnt 2)
  | none => match s.firstUnmapped l.ctx scnt needXWA true 4 with
    | some ia => s.pageRequest ia l.ctx 1
    | none =>
      let old := (s.vaRead l.ctx scnt 4 needXWA).getD 0
      let s1 := s.vaPut l.ctx scnt 4 ((old + 2 ^ 32 - 1) % 2 ^ 32)
      let v := signed old 32
      if v = 1 && (match s.flight? l.flight with | some f => !f.killed | none => false) then
        { s1.modLot cl l fun x => { x with due := 0 } with
          nextId := s1.nextId + 1
          posts := Tbl.put s1.posts s1.nextId
            { kind := 2, uid := 0, gid := 0, core := 4 * cl, ctx := l.ctx, flight := l.flight, team := 0x80000000 + l.lot, addr := taskSrec l.record,
              target := l.home, lot := l.lot } }
      else if 1 ≤ v then done s1
      else done (s1.asyncFault (unposted l.flight l.ctx) 20 scnt (wrap v 64) 0 false)

/-- What the dispatcher has still to do for a task that has ended (steps 2 to 4 of R357, R358): a page that is not mapped is requested and
waited for. -/
def State.lotStep (s : State) (cl : Nat) (l : Lot) : State :=
  match l.due with
  | 1 =>
    let q := s.lotStatus l 3
    if !q.2 then q.1
    else if taskSucc l.record then (q.1.modLot cl l fun x => { x with due := 2 }).lotCounter cl l
    else q.1.freeLot cl l.flight l.lot
  | 2 => s.lotCounter cl l
  | 3 =>
    let q := s.lotStatus l 4
    if q.2 then q.1.freeLot cl l.flight l.lot else q.1
  | _ => s

/-- What a task that has ended still needs is begun: its lot notes it. -/
def State.endLot (s : State) (cl : Nat) (l : Lot) (due home : Nat) : State :=
  (s.modLot cl l fun x => { x with due := due, home := home }).lotStep cl { l with due := due, home := home }

/-- TASK_END (R357): a task band whose every thread has ended makes its release and leaves its slot; then its record is marked, and the
counter of its successor drops. A number from 2^20 up names lot n mod 4,096 of cluster n / 4,096 whose task has ended, for what is left
to do. -/
def execTaskEnd (band : Nat) (s : State) : Out :=
  if 2 ^ 20 ≤ band then
    let cl := (band - 2 ^ 20) / 4096
    match (s.cluster cl).lots[(band - 2 ^ 20) % 4096]? with
    | some l => .next (s.lotStep cl l)
    | none => .next s
  else match s.band? band with
    | none => .next s
    | some b => match b.task with
      | none => .next s
      | some (cl, lot) =>
        if !b.allExited || b.succ.isSome || b.fault.isSome then .next s
        else match s.lotOf cl b.flight lot with
          | none => .next (s.leaveSlot band b)
          | some l =>
            let q := s.endRelease band b
            if !q.2 then .next q.1 else .next ((q.1.leaveSlot band b).endLot cl l 1 (coreCluster (keyCore band)))

/-- A task band that a fault stopped or a kill ended (R358): STATUS 4, and its lot frees. -/
def State.failTask (s : State) (b : Band) : State :=
  match b.task with
  | none => s
  | some (cl, lot) => match s.lotOf cl b.flight lot with
    | none => s
    | some l => s.endLot cl l 3 cl

/-- The lot of a task team that ends away from its core fails likewise. -/
def State.failLot (s : State) (n : Nat) (f : Flight) (team : Nat) : State :=
  let cl := (team - 0x80000000) / max f.tlots 1
  let lot := (team - 0x80000000) % max f.tlots 1
  if !isTask team then s
  else match s.lotOf cl n lot with
    | some l => s.endLot cl l 3 cl
    | none => s

end Sys2Proof.Machine
end

