-- ==== Sys2Proof/Machine/Recover.lean ====
section
/-!
DEFINITION. Sys2Proof/Machine/Recover.lean: band stops and snapshots (R475, R476, R478), kills of flights (R477), corrected and
uncorrected errors with their repairs (R479 to R483), and units and dies that are lost (R432, R482, R486).
-/
namespace Sys2Proof.Machine

/-! ### Band stops and snapshots (R475, R476) -/

/-- The record of a class-1 fault of the band at a slot (R473). -/
def State.stopNote (s : State) (k : Nat) (b : Band) (f : BandFault) (flags : Nat) : FaultNote :=
  { cls := 1, reason := f.code, flags := flags + if f.inRep then 8 else 0, repi := if f.inRep then f.rep else 0, flight := some b.flight,
    ctx := some (s.bandCtx b), team := some b.team, band := some b.bandid, btid := some f.btid, pc := f.pc, core := some (keyCore k), addr := f.addr,
    aux1 := f.aux0, aux2 := f.aux1 }

/-- Firmware has acted on a band's fault. -/
def State.noteBand (s : State) (k : Nat) : State :=
  s.modBand k fun b => { b with fault := b.fault.map fun f => { f with noted := true } }

/-- Steps 3 and 4 of R475 for a band that a class-1 fault has stopped. -/
def State.bandStop (s : State) (k : Nat) (b : Band) (f : BandFault) : State :=
  let attached := match s.ctx? (s.bandCtx b) with | some c => c.attached | none => false
  if (s.flight? b.flight).any fun x => x.killAt.isSome then s.noteBand k
  else if attached then
    let h : Halt := match b.stepping with
      | some t => { why := 5, idx := t, pc := f.pc }
      | none => { why := 1, pc := f.pc }
    ((s.setBand k ({ b with fault := none, stepping := none }.haltWith h)).noteFault (s.stopNote k b f 4)).answerStep (s.bandCtx b) 0
  else
    let s1 := s.noteBand k
    let s2 := if s.fatal || !s.coreWorks (keyCore k) then s1 else s1.beginSave b.flight b.team none (some 1)
    if s2.isSaving b.flight b.team && !s.fatal && s.coreWorks (keyCore k) then
      s2.modTeam b.flight b.team fun t => { t with stops := t.stops ++ [(b.bandid, f)] }
    else (s1.noteFault (s.stopNote k b f 2)).markKill b.flight

/-- BAND_STOP (R475): a band's class-1 fault halts it for an attached debugger, or its team is saved for a snapshot and the flight
killed. -/
def execBandStop (band : Nat) (s : State) : Out :=
  match s.band? band with
  | none => .next s
  | some b => match b.fault with
    | none => .next s
    | some f => .next (if f.noted then s else s.bandStop band b f)

/-- The records of a team's stopped bands, with SNAP and KILL. -/
def State.snapNotes (s : State) (flight team : Nat) (t : Team) : List FaultNote :=
  t.stops.filterMap fun p => (s.findBand flight team p.1).bind fun k => (s.band? k).map fun b => s.stopNote k b p.2 3

/-- The record of a class-1 fault of a band of an absent team. -/
def State.awayNote (s : State) (flight team band : Nat) (f : BandFault) (flags : Nat) : FaultNote :=
  { cls := 1, reason := f.code, flags := flags, flight := some flight, ctx := (s.flight? flight).map (·.ctx), team := some team, band := some band,
    btid := some f.btid, pc := f.pc, addr := f.addr, aux1 := f.aux0, aux2 := f.aux1 }

/-- A team saved for a snapshot (R476): the snapshot is kept, the records are written, and the flight is to be killed. -/
def State.snapshot (s : State) (flight team a : Nat) (notes : List FaultNote) : State :=
  let ctx := match s.flight? flight with | some f => f.ctx | none => 0
  let s1 : State := { s with snaps := Tbl.put s.snaps s.nextId (ctx, a), nextId := s.nextId + 1 }
  (((notes.foldl (fun (s : State) n => s.noteFault n) s1).modTeam flight team fun t => { t with stops := [] })).markKill flight

/-- Class-1 faults found while their team is absent (R233, R475): their bands halt on their records for an attached debugger; else the record is
the snapshot, and the flight is to be killed. -/
def State.stopAway (s : State) (flight team a : Nat) (t : Team) : State :=
  let ctx := match s.flight? flight with | some f => f.ctx | none => 0
  if (s.ctx? ctx).any fun c => c.attached then
    (t.stops.foldl (fun (s : State) p => (s.haltAway flight team a p.1).noteFault (s.awayNote flight team p.1 p.2 4)) s).modTeam flight team fun t =>
      { t with stops := [] }
  else s.snapshot flight team a (t.stops.map fun p => s.awayNote flight team p.1 p.2 3)

/-- TEAM_SAVE (R338): the next step of the save of a team, or what class-1 faults of an absent one ask for; one on a disabled core begins (R482), and one for a snapshot ends with its
records (R476). -/
def execTeamSave (flight team : Nat) (s : State) : Out :=
  match (s.flight? flight).bind fun f => Tbl.find? f.members team with
  | none => .next s
  | some t => match t.place with
    | .resident core _ _ =>
      if t.saving = 0 && !s.coreWorks core && !(s.die (coreDie core)).disabled && !((s.flight? flight).any fun f => f.killed) then .next (s.beginSave flight team none none)
      else
        let notes := s.snapNotes flight team t
        let s1 := s.saveStep flight team
        match s1.placeOfTeam flight team with
        | .absent a => .next (if t.stops.isEmpty then s1 else s1.snapshot flight team a notes)
        | _ => .next s1
    | .absent a => .next (if t.stops.isEmpty then s else s.stopAway flight team a t)
    | _ => .next s

/-- SNAPSHOT_RELEASE (R476): the driver releases a snapshot; its record leaves the save area unless its team still stands on it. -/
def execSnapshotRelease (snap : Nat) (s : State) : Out :=
  s.service 15 fun s => match Tbl.find? s.snaps snap with
    | none => s.answer 15 1
    | some (ctx, a) =>
      let s1 : State := { s with snaps := Tbl.del s.snaps snap }
      let used := s.flights.any fun p => p.2.members.any fun q => q.2.place = .absent a
      (if used then s1 else s1.freeRecord ctx a).answer 15 0

/-! ### Kills of flights (R477) -/

/-- The slot keys of a flight's resident bands. -/
def State.flightKeys (s : State) (flight : Nat) : List Nat := (s.bands.filter fun p => p.2.flight = flight).map (·.1)

/-- Whether class-1 faults of a flight still wait for their records, which come before its kill (R475). -/
def State.stopsDue (s : State) (n : Nat) (f : Flight) : Bool :=
  !s.fatal && (f.members.any (fun p => !p.2.stops.isEmpty)
    || s.bands.any fun p => p.2.flight = n && p.2.fault.any fun x => !x.noted)

/-- Step 1: nothing of the flight starts again, and its resident teams are stopped at an instruction boundary. -/
def State.startKill (s : State) (n : Nat) : State :=
  (s.flightKeys n).foldl (fun (s : State) k => s.requestStop k 1) (s.modFlight n fun f => { f with killed := true, killAt := some s.fwCycle })

/-- Whether a save of a team can still be completed. -/
def State.saveGoes (s : State) (f : Flight) (n team : Nat) (t : Team) : Bool :=
  match t.place with
  | .resident core _ _ =>
    t.saving ≠ 0 && !s.fatal && !(s.die (coreDie core)).disabled
      && (s.recordRoom f.ctx (recordBytes (s.bandsForSave f n team t.teamb) f.scratch)).isSome
  | _ => false

/-- Whether every resident band of a flight has stopped, and the saves under way are complete (R340). -/
def State.killReady (s : State) (n : Nat) (f : Flight) : Bool :=
  (s.bands.all fun p => p.2.flight ≠ n || p.2.stopped || !s.coreWorks (keyCore p.1)) && !f.members.any fun p => s.saveGoes f n p.1 p.2

/-- A resident band killed: every thread ends, and a task band's record and lot with it (R358). -/
def State.killBand (s : State) (k : Nat) : State :=
  match s.band? k with
  | none => s
  | some b => (((s.failTask b).modBand k fun b => { b with succ := none, task := none }).endThreads k (List.range b.threads.length) fun _ => false)

/-- A team of a killed flight that is not resident: discarded. -/
def State.killTeam (s : State) (n : Nat) (f : Flight) (team : Nat) (t : Team) : State :=
  match t.place with
  | .absent a => (s.killAbsent n team (fun _ _ => true) (s.snaps.any fun p => p.2.2 = a)).failLot n f team
  | .notStarted => s.modTeam n team fun t => { t with place := .ended, runsince := none }
  | _ => s

/-- The tasks of a flight whose bands were lost fail too (R358): their lots are taken, and no successor post keeps them. -/
def State.failLots (s : State) (n : Nat) : State :=
  (Tbl.keys s.clusters).foldl (fun (s : State) cl => ((s.cluster cl).lots.filter fun l =>
    l.flight = n && l.due = 0 && !s.posts.any fun p => p.2.kind = 2 && p.2.flight = n && p.2.lot = l.lot && coreCluster p.2.core = cl).foldl
      (fun (s : State) l => s.endLot cl l 3 cl) s) s

/-- Step 2: every thread withdraws, and what of the flight has not started is discarded. Loads have no one to return to; so has an atomic
that a page fault holds. -/
def State.withdrawFlight (s : State) (n : Nat) (f : Flight) : State :=
  let s1 := (s.flightKeys n).foldl (fun (s : State) k => s.killBand k) s
  let s1' := f.members.foldl (fun (s : State) p => s.killTeam n f p.1 p.2) s1
  let s2 := s1'.failLots n
  { s2 with
    iq := s2.iq.filter fun a => !(a.flight = n && (a.kind = .load || (a.kind.atomic && a.faulted)))
    posts := List.filter (fun p : Nat × Post => !(p.2.flight = n && p.2.kind ≠ 1)) s2.posts
    clusters := s2.clusters.map fun p => (p.1, { p.2 with
      spawns := p.2.spawns.filter fun r => r.flight ≠ n, pool := p.2.pool.filter fun e => e.flight ≠ n
      lots := p.2.lots.filter fun l => !(l.flight = n && l.due = 0) }) }

/-- FLIGHT_KILL (R477): the kill of a flight, by a fault, by the debugger or by a driver service: marked, then steps 1 and 2; FLIGHT_COMPLETE
makes step 5. -/
def execFlightKill (flight : Nat) (s : State) : Out :=
  match s.flight? flight with
  | none => .next s
  | some f => match f.killAt with
    | none => .next (if s.stopsDue flight f then s.markKill flight else s.startKill flight)
    | some _ => .next (if s.killReady flight f then s.withdrawFlight flight f else s)

/-- KILL_SIDE_LOG_TIMEOUT (R477): side-log entries of a killed flight that still wait 2^24 firmware cycles after step 1 are discarded. -/
def execKillSideLogTimeout (flight : Nat) (s : State) : Out :=
  match (s.flight? flight).bind (·.killAt) with
  | none => .next s
  | some c =>
    if s.fwCycle < c + 2 ^ 24 then .next s
    else
      let late (e : SideEntry) : Bool := e.flight = flight && !e.replaying
      .next ((Tbl.keys s.cores).foldl (fun (s : State) c =>
        let gone := (s.core c).sidelog.filter late
        let s1 := s.modCore c fun x => { x with sidelog := x.sidelog.filter fun e => !late e }
        gone.foldl (fun (s : State) e => s.asyncFault (e.owner c) 16 e.va (e.bmask + if e.red then 256 else 0) 0 true) s1) s)

/-! ### Units disabled (R482) -/

/-- The core of a resident team's site, or either of its pair. -/
def Team.standsOn (t : Team) (c : Nat) : Bool :=
  match t.place with
  | .resident core pair _ => core = c || (pair && core + 1 = c)
  | _ => false

/-- Saves begun of the teams that stand on a core. -/
def State.saveOff (s : State) (c : Nat) : State :=
  let ts := s.flights.flatMap fun p => (p.2.members.filter fun q => q.2.standsOn c).map fun q => (p.1, q.1)
  ts.foldl (fun (s : State) q => s.beginSave q.1 q.2 none none) s

/-- The flights that no working core of their partition can seat any more are to be killed, with a NOFIT record. -/
def State.checkFits (s : State) : State :=
  s.flights.foldl (fun (s : State) p =>
    let absent (t : Team) : Bool := match t.place with | .absent _ => true | .notStarted => true | _ => false
    let seats := (s.flightClusters p.2).any fun cl => (clusterCores cl).any s.coreWorks
    match List.find? (fun q : Nat × Team => absent q.2) p.2.members with
    | some q => if seats || p.2.killed then s else s.asyncFault (unposted p.1 p.2.ctx) 31 0 q.1 0 true
    | none => s) s

/-- A core disabled. -/
def State.disableCore (s : State) (c : Nat) (save : Bool) : State :=
  let s1 := s.modCore c fun x => { x with disabled := true }
  ((if save then s1.saveOff c else s1).moveOff (coreCluster c)).checkFits

/-- The stop of every operation on an engine, whose slots ENGINE_STOP_REQUEST then spills. -/
def State.stopAll (s : State) (cl : Nat) : State :=
  let g := s.eng cl
  let cs := ((g.slots.filterMap fun p => p.2.owner) ++ (g.live.map fun p => p.2.ctx)).eraseDups
  cs.foldl (fun (s : State) c => (s.stopEngine cl c).1) s

/-- A cluster disabled, with its engine, copy unit and spawn memory. -/
def State.disableCluster (s : State) (cl : Nat) (save : Bool) : State :=
  let s1 := s.modCluster cl fun x => { x with disabled := true }
  let s2 := if save then (clusterCores cl).foldl (fun (s : State) c => s.saveOff c) (s1.stopAll cl) else s1
  (s2.moveOff cl).checkFits

/-- What a core had on its way is lost with it. -/
def State.dropCore (s : State) (c : Nat) : State :=
  let s1 : State := { s with
    iq := s.iq.filter fun a => a.core ≠ c
    wb := s.wb.filter fun a => a.core ≠ c
    msgs := s.msgs.filter fun m => m.src ≠ c && m.dst ≠ c }
  s1.modCore c fun x => { x with sidelog := [] }

/-- What a cluster's units had in hand is lost with them. -/
def State.dropUnits (s : State) (cl : Nat) : State :=
  let s1 : State := { s with copies := List.filter (fun p : Nat × Copy => p.2.cluster ≠ cl) s.copies }
  (s1.modCluster cl fun c => { c with engine := {}, spawns := [], pool := [], pkeys := [] })

/-! ### Dies (R432, R486) -/

/-- Whether a flight has a team, a task or a tile operation on a die. -/
def State.usesDie (s : State) (d n : Nat) (f : Flight) : Bool :=
  (f.members.any fun q => match q.2.place with | .resident core _ _ => coreDie core = d | _ => q.2.cluster.any fun c => clusterDie c = d)
    || s.clusters.any fun c => clusterDie c.1 = d
      && (c.2.engine.table.any (fun e => e.2.flight = n) || c.2.engine.removed.any (fun e => e.2.flight = n) || c.2.pool.any fun e => e.flight = n)

/-- Queues of partitions that have no working die left halt. -/
def State.haltLost (s : State) : State :=
  { s with queues := s.queues.map fun p =>
      let q := p.2
      let dead := ((partClusters s.npart q.primary.part).map clusterDie).all fun d => (s.die d).disabled
      if dead && (q.primary.state = 1 || q.primary.state = 2) then
        (p.1, { q.update (fun c => { c with state := 3, hidx := q.haltIndex, qslot := 0xFFFFFFFF }) with pending := none, header := none, waiting := false })
      else p }

/-- Class-1 faults of the teams on cores that are lost are recorded without a snapshot. -/
def State.dropStops (s : State) (cs : List Nat) : State :=
  let drop (s : State) (n team : Nat) (t : Team) : State :=
    if !cs.any t.standsOn then s
    else
      let notes := (s.snapNotes n team t).map fun x => { x with flags := x.flags - 1 }
      (notes.foldl (fun (s : State) x => s.noteFault x) s).modTeam n team fun t => { t with stops := [], saving := 0, saveWait := [], savingFor := none }
  s.flights.foldl (fun (s : State) p => p.2.members.foldl (fun (s : State) q => drop s p.1 q.1 q.2) s) s

/-- A compute die is disabled (R486). -/
def State.dieFails (s : State) (d : Nat) : State :=
  if 4 ≤ d || (s.die d).disabled then s
  else
    let s1 := s.setDie d { s.die d with disabled := true }
    let ns := (s.flights.filter fun p => s.usesDie d p.1 p.2).map (·.1)
    let s2 := ns.foldl (fun (s : State) n => s.markKill n) s1
    let s3 := s2.dropStops ((List.range 96).map (96 * d + ·))
    let s4 := (List.range 96).foldl (fun (s : State) i => if (Tbl.find? s.cores (96 * d + i)).isSome then s.dropCore (96 * d + i) else s) s3
    let s5 := (List.range 24).foldl (fun (s : State) i => if (Tbl.find? s.clusters (24 * d + i)).isSome then s.dropUnits (24 * d + i) else s) s4
    let home (f : Flight) : Flight := if s.homeDie f = s5.homeDie f then f else { f with clockStart := (s5.die (s5.homeDie f)).cycle }
    let s6 : State := { s5 with flights := s5.flights.map fun p => (p.1, home p.2) }
    let s7 := (s6.deviceFault 38 0 d 0).haltLost
    ((Tbl.keys s7.shoots).foldl (fun (s : State) n => match Tbl.find? s.shoots n with
      | some p => if p.due.contains d then s.ackShoot n d else s
      | none => s) s7).checkFits

/-- DIE_DISABLE (R486): a die whose links to the others have all failed. -/
def execDieDisable (die : Nat) (s : State) : Out := .next (s.dieFails die)

/-- SHOOTDOWN_TIMEOUT (R432): a child device, 16 plus its rank, that has not acknowledged within SDTO firmware cycles is fenced off, and a
compute die disabled; each then counts as acknowledged. -/
def execShootdownTimeout (node : Nat) (s : State) : Out :=
  match s.shootOf node with
  | none => .next s
  | some (n, p) =>
    if s.fwCycle < p.since + s.sdto then .next s
    else if 16 ≤ node then .next ((s.fenceRank (node - 16)).ackShoot n node)
    else .next (s.dieFails node)

/-! ### Corrected errors and repairs (R479 to R481) -/

/-- The coordinates of a location code (R474). -/
def locKind (c : Nat) : Nat := bits c 63 56
def locDie (c : Nat) : Nat := bits c 49 48
def locUnit (c : Nat) : Nat := bits c 47 32

/-- The spares that a row draws on: their key, and how many there are (R481). -/
def spareOf (c : Nat) : Option (Nat × Nat) :=
  match locKind c with
  | 1 => some (2 ^ 20 + locDie c * 256 + bits c 47 40, 32)
  | 2 => some (2 ^ 21 + locDie c * 64 + bits c 45 40, 16)
  | _ => none

/-- Whether a lasting fault can be repaired. -/
def State.canRepair (s : State) (c : Nat) : Bool :=
  match spareOf c with
  | some (key, n) => decide (Tbl.get s.spares key 0 < n)
  | none => decide (3 ≤ locKind c) && decide (locKind c ≤ 7)

/-- The repair of a location (R481). -/
def State.repair (s : State) (c : Nat) : State :=
  let s1 : State := { s with repairs := s.repairs + 1 }
  match locKind c, spareOf c with
  | 3, _ => { s1 with badWays := if s.badWays.contains c then s.badWays else s.badWays ++ [c] }
  | 4, _ => s1.disableCore (locUnit c) true
  | 5, _ => s1.disableCluster (locUnit c) true
  | 6, _ =>
    let n := bits c 47 40
    let l := s1.link n
    let s2 := s1.setLink n { l with badLanes := if bitOf l.badLanes (c % 16) then l.badLanes else l.badLanes + 2 ^ (c % 16) }
    if l.up then s2.startTraining n true else s2
  | 7, _ => s1.nodeFails (locDie c)
  | _, some (key, _) =>
    { s1 with spares := Tbl.put s1.spares key (Tbl.get s1.spares key 0 + 1), rowHolds := if s.rowHolds.contains c then s.rowHolds else s.rowHolds ++ [c] }
  | _, none => s1

/-- A corrected error at a location (R480): its record; the third within 2^32 firmware cycles of the first kept is a lasting fault. -/
def State.corrected (s : State) (c : Nat) : State :=
  let l := Tbl.get s.stamps c [] ++ [s.fwCycle]
  let now (i : Nat) : Bool := decide (s.fwCycle < i + 2 ^ 32)
  let s1 := s.deviceFault 34 0 c (l.filter now).length
  if 3 ≤ l.length && l.all now then
    let ok := s.canRepair c
    let s2 := s1.deviceFault 35 0 c (if ok then locKind c else 0)
    let s3 := if ok then s2.repair c else s2
    { s3 with stamps := Tbl.del s3.stamps c }
  else { s1 with stamps := Tbl.put s1.stamps c (l.drop (l.length - 2)) }

/-- CORRECTED_ERROR (R479, R480). -/
def execCorrectedError (code : Nat) (s : State) : Out :=
  if locKind code = 0 || 8 < locKind code then .next s else .next (s.corrected code)

/-- SPARE_ROW_COPY_DONE (R481): a DRAM row has been copied to its spare. -/
def execSpareRowCopyDone (code : Nat) (s : State) : Out :=
  if locKind code = 1 then .next { s with rowHolds := s.rowHolds.filter (· ≠ code) } else .next s

/-- WST_ROW_REPAIR (R481, R283): a weight store row is copied to its spare while no flight is resident on the die. -/
def execWstRowRepair (code : Nat) (s : State) : Out :=
  if locKind code = 2 && !s.dieBusy (locDie code) then .next { s with rowHolds := s.rowHolds.filter (· ≠ code) } else .next s

/-- LINK_RETRAIN (R467, R470, R480): 64 resends without progress, which counts as a corrected error of the lane that failed, or for a
DOWN link a retrain request. -/
def execLinkRetrain (link : Nat) (s : State) : Out :=
  let l := s.link link
  if 16 ≤ link then .next s
  else if l.state = 0 && !l.dis then .next (s.startTraining link false)
  else if l.up && decide (64 ≤ l.tries) then
    .next ((s.startTraining link true).corrected (6 * 2 ^ 56 + link * 2 ^ 40 + Config.pick s.fresh 3001 % 8))
  else .next s

/-! ### Uncorrected errors (R483, R484) -/

/-- Every flight with a band on a core of a list is to be killed. -/
def State.killOn (s : State) (cs : List Nat) : State :=
  (((s.bands.filter fun p => cs.contains (keyCore p.1)).map fun p => p.2.flight).eraseDups).foldl (fun (s : State) n => s.markKill n) s

/-- A tensor of a node is lost (R484). -/
def State.tensorLost (s : State) (die tens : Nat) : State := (s.modTensor die tens fun t => { t with lost := true }).deviceFault 37 0 die tens

/-- UNCORRECTED_ERROR (R483): its record, and what it poisons or fails: the sector of a device-memory address or a weight store index, the
array of a core or a cluster, or a node, of which `target` names the tensor whose frame is struck, 0 the node itself. -/
def execUncorrectedError (code target : Nat) (s : State) : Out :=
  let s1 := s.deviceFault 36 0 code 0
  match locKind code with
  | 1 | 3 => .next { s1 with poison := Tbl.put s1.poison (sectorOf target) code }
  | 2 => .next { s1 with poison := Tbl.put s1.poison (sectorWst (locDie code) target) code }
  | 4 => .next ((((s1.killOn [locUnit code]).dropStops [locUnit code]).dropCore (locUnit code)).disableCore (locUnit code) false)
  | 5 =>
    let cs := clusterCores (locUnit code)
    .next (((cs.foldl (fun (s : State) c => s.dropCore c) ((s1.killOn cs).dropStops cs)).dropUnits (locUnit code)).disableCluster (locUnit code) false)
  | 7 => .next (if target = 0 then s1.nodeFails (locDie code) else s1.tensorLost (locDie code) target)
  | _ => .next s1

end Sys2Proof.Machine
end

