-- ==== Sys2Proof/Machine/Contexts.lean ====
section
/-!
DEFINITION. Sys2Proof/Machine/Contexts.lean: contexts and queues as the driver makes them (R362, R386, R387, R407, R436, R465), context
switches (R388, R400, R406, R409) and the services of ECALL (R183, R420).
-/
namespace Sys2Proof.Machine

/-! ### Contexts (R386, R387, R407) -/

/-- CREATE_CONTEXT (R386, R387): the record is CPRI, QUANT, CSABASE, CSASIZE, SPBASE, SPSIZE and CLMASK; one that breaks R387, or a CTXID
in use, is refused. -/
def execCreateContext (ctx : Nat) (rec' : List Nat) (s : State) : Out :=
  s.service 7 fun s =>
    let f (i : Nat) : Nat := rec'.getD i 0
    if 4096 ≤ ctx || (s.ctx? ctx).isSome || rec'.length ≠ 7 || 3 < f 0 || 2 ^ 32 ≤ f 1 || f 2 % 4096 ≠ 0 || f 3 < 2304 * 96 || f 4 % 4096 ≠ 0
        || f 5 % 12288 ≠ 0 || 2 ^ 96 ≤ f 6 then s.answer 7 1
    else
      let c : Ctx := { cpri := f 0, quant := f 1, csabase := f 2, csasize := f 3, spbase := f 4, spsize := f 5, clmask := f 6, sliceStart := s.fwCycle }
      { s with ctxs := Tbl.put s.ctxs ctx c }.answer 7 0

/-- The slots of an engine that a context owns become EMPTY and unowned, and its registers there are gone (R407). -/
def Engine.forget (g : Engine) (ctx : Nat) : Engine :=
  { g with
    slots := g.slots.filter fun p => p.2.owner ≠ some ctx
    routes := g.routes.filter fun p => p.1 / 8 ≠ ctx
    ring := if g.ring.owner = some ctx then {} else g.ring
    removed := g.removed.filter fun p => p.1 ≠ ctx
    stopping := g.stopping.filter (· ≠ ctx) }

/-- DESTROY_CONTEXT (R386, R407, R476): refused while a flight or a queue of the context stands; its slots, images and snapshots go. -/
def execDestroyContext (ctx : Nat) (s : State) : Out :=
  s.service 8 fun s =>
    if (s.ctx? ctx).isNone || s.flights.any (fun p => p.2.ctx = ctx) || s.queues.any (fun p => decide (p.2.primary.state ≠ 0) && p.2.primary.ctx = ctx) then s.answer 8 1
    else
      let s1 : State := { s with
        ctxs := Tbl.del s.ctxs ctx
        clusters := s.clusters.map fun p => (p.1, { p.2 with engine := p.2.engine.forget ctx })
        snaps := List.filter (fun p : Nat × Nat × Nat => p.2.1 ≠ ctx) s.snaps
        rcaches := List.filter (fun p : Nat × List RangeReg => p.1 % 4096 ≠ ctx) s.rcaches
        redBufs := s.redBufs.filter fun b => b.ctx ≠ ctx }
      s1.answer 8 0

/-- SET_GKEY (R436): the driver sets a context's grid key of 16 bits. -/
def execSetGkey (ctx key : Nat) (s : State) : Out :=
  s.service 13 fun s =>
    if (s.ctx? ctx).isNone || 65536 ≤ key then s.answer 13 1 else (s.modCtx ctx fun c => { c with gkey := key }).answer 13 0

/-! ### Queues (R362, R365, R465) -/

/-- CREATE_QUEUE (R362): a queue and its QCB, DISABLED. -/
def execCreateQueue (queue : Nat) (_rec : List Nat) (s : State) : Out :=
  s.service 9 fun s =>
    if 1024 ≤ queue || (Tbl.find? s.queues queue).isSome then s.answer 9 1 else (s.setQueue queue {}).answer 9 0

/-- BIND_QUEUE (R362, R365): a DISABLED queue takes a context, a partition, its first segment and its producer header, and is IDLE at
packet 0. -/
def execBindQueue (queue : Nat) (rec' : List Nat) (s : State) : Out :=
  s.service 10 fun s =>
    let f (i : Nat) : Nat := rec'.getD i 0
    match Tbl.find? s.queues queue with
    | none => s.answer 10 1
    | some x =>
      if x.primary.state ≠ 0 || rec'.length ≠ 4 || (s.ctx? (f 0)).isNone || 2 ^ s.npart ≤ f 1 || f 2 % 4096 ≠ 0 || f 3 % 64 ≠ 0 then s.answer 10 1
      else
        let y := x.update fun q =>
          { q with state := 1, ctx := f 0, part := f 1, rseg := f 2 % 2 ^ 64, qhdr := f 3 % 2 ^ 64, ridx := 0, nidx := 0, hidx := 0, qslot := 0xFFFFFFFF }
        (s.setQueue queue { y with header := none, pending := none, waiting := false, emptyAt := none, recov := false, segments := [(f 2 % 2 ^ 64, 0)] }).answer 10 0

/-- DISABLE_QUEUE (R362): a queue enters DISABLED and leaves its slot; its flights go on. -/
def execDisableQueue (queue : Nat) (s : State) : Out :=
  s.service 11 fun s => match Tbl.find? s.queues queue with
    | none => s.answer 11 1
    | some x => (s.setQueue queue
        { x.update (fun q => { q with state := 0, qslot := 0xFFFFFFFF }) with header := none, pending := none, waiting := false, emptyAt := none }).answer 11 0

/-- SET_VEC (R465): the MSI-X vector of a queue, 2 to 2,047. -/
def execSetVec (queue vec : Nat) (s : State) : Out :=
  s.service 12 fun s => match Tbl.find? s.queues queue with
    | none => s.answer 12 1
    | some x => if vec < 2 || 2047 < vec then s.answer 12 1 else (s.setQueue queue (x.update fun q => { q with vec := vec })).answer 12 0

/-! ### Context switches (R388, R400, R406, R409) -/

/-- The resident teams of a context. -/
def State.ctxResidents (s : State) (ctx : Nat) : List (Nat × Nat × Nat × Team) :=
  s.residentTeams.filter fun q => (s.flight? q.1).any fun f => f.ctx = ctx

/-- Whether a context has runnable work: a runnable absent team, or a trigger for one. -/
def State.ctxRunnable (s : State) (ctx : Nat) : Bool :=
  s.flights.any (fun p => p.2.ctx = ctx && !p.2.killed && p.2.anyRunnable)
    || match s.ctx? ctx with | some c => c.switchedOut && (!c.triggers.isEmpty || c.triglost) | none => false

/-- Whether an engine has operations or the ring of a context. -/
def Engine.serves (g : Engine) (ctx : Nat) : Bool := g.live.any (fun p => p.2.ctx = ctx) || g.ring.owner = some ctx

/-- A step of a context's leaving: its teams are being saved and its operations stopped; true once none is left. -/
def State.leaveStep (s : State) (ctx : Nat) : State × Bool :=
  let s1 := s.modCtx ctx fun c => { c with cstate := 3 }
  let s2 := (s1.ctxResidents ctx).foldl (fun (s : State) q => s.beginSave q.1 q.2.1 none none) s1
  let q := (Tbl.keys s2.clusters).foldl (fun (q : State × Bool) cl =>
    if (q.1.eng cl).serves ctx then let r := q.1.stopEngine cl ctx; (r.1, q.2 && r.2) else q) (s2, true)
  (q.1, q.2 && (q.1.ctxResidents ctx).isEmpty)

/-- The ring state of an engine section, 64 bytes (R406); `prog` is PROG of the command in progress. -/
def Ring.image (r : Ring) (prog : Nat) : Nat :=
  r.base % 2 ^ 32 + r.entries % 2 ^ 32 * 2 ^ 32 + r.head % 2 ^ 32 * 2 ^ 64 + r.tail % 2 ^ 32 * 2 ^ 96
    + ((if r.owner.isSome then 1 else 0) + (if r.faulted then 2 else 0) + (if r.haltedByCmd then 4 else 0)) * 2 ^ 128
    + prog % 65536 * 2 ^ 144 + r.team % 2 ^ 32 * 2 ^ 160

/-- An engine's registers of a context saved in its section (R318, R400, R406): routing registers and ring; the slots stay. -/
def State.saveEngine (s : State) (cl ctx : Nat) : State :=
  match s.ctx? ctx with
  | none => s
  | some c =>
    let g := s.eng cl
    let s1 := (List.range 8).foldl (fun (s : State) n => s.fwWrite (c.section cl + 16 * n) 16 (Tbl.get g.routes (8 * ctx + n) 0)) s
    let prog := match g.removed.find? fun p => p.1 = ctx && p.2.ring with
      | some p => if p.2.waits then 0 else match p.2.op with | .mma _ => p.2.prog | _ => 0
      | none => 0
    if g.ring.owner ≠ some ctx then
      s1.fwWrite (c.section cl + 128) 64 (match Tbl.find? c.rings cl with | some r => r.image prog | none => 0)
    else
      ((s1.fwWrite (c.section cl + 128) 64 (g.ring.image prog)).modCtx ctx fun c => { c with rings := Tbl.put c.rings cl g.ring }).modEng cl fun g =>
        { g with ring := {} }

/-- A context's ring returns to its engine, unless another context's stands there (R318). -/
def State.loadRing (s : State) (cl ctx : Nat) : State :=
  match (s.ctx? ctx).bind fun c => Tbl.find? c.rings cl with
  | none => s
  | some r =>
    if (s.eng cl).ring.owner.isSome then s
    else (s.modEng cl fun g => { g with ring := r }).modCtx ctx fun c => { c with rings := Tbl.del c.rings cl }

/-- The ring of a context that is not switched out returns to an engine where none stands any more. -/
def State.loadWaiting (s : State) (cl : Nat) : State :=
  match List.find? (fun p : Nat × Ctx => !p.2.switchedOut && (Tbl.find? p.2.rings cl).isSome) s.ctxs with
  | some p => (s.loadRing cl p.1).repostAll cl
  | none => s

/-- A context whose teams are all away is switched out. -/
def State.switchOut (s : State) (ctx : Nat) : State :=
  let s1 := ((Tbl.keys s.clusters).foldl (fun (s : State) cl => s.saveEngine cl ctx) s).modCtx ctx fun c => { c with cstate := 1, switchedOut := true }
  (Tbl.keys s1.clusters).foldl State.loadWaiting s1

/-- A pending trigger makes its team runnable where it is; one that names no team, and a lost one, every absent team of the context (R409; log entry
71). -/
def State.applyTriggers (s : State) (ctx : Nat) (c : Ctx) : State :=
  let named (team : Nat) : Bool := c.triglost || c.triggers.any fun t => t.2.2.1 = team || t.2.2.1 = 0xFFFFFFFF
  s.flights.foldl (fun (s : State) p => if p.2.ctx ≠ ctx then s else p.2.members.foldl (fun (s : State) q => match q.2.place with
    | .absent _ => if named q.1 then s.modTeam p.1 q.1 fun t => { t with runsince := some (t.runsince.getD s.fresh) } else s
    | _ => s) s) s

/-- A context resumes: its triggers are applied in order and its list empties, its rings and its removed operations return, and its slice
begins. -/
def State.switchIn (s : State) (ctx : Nat) : State :=
  match s.ctx? ctx with
  | none => s
  | some c =>
    let s1 := if c.switchedOut then s.applyTriggers ctx c else s
    let s2 := s1.modCtx ctx fun c => { c with cstate := 1, switchedOut := false, triggers := [], triglost := false, sliceStart := s.fwCycle }
    let s3 := (Tbl.keys s2.clusters).foldl (fun (s : State) cl => s.loadRing cl ctx) s2
    (Tbl.keys s3.clusters).foldl (fun (s : State) cl =>
      if (s.eng cl).stopping.contains ctx || (s.eng cl).removed.any (fun p => p.1 = ctx) then s.repost cl ctx true else s) s3

/-- Whether one context may give way to another (R388): to one of higher priority with runnable work; after its slice, to one of its own
or a higher priority, or to none; or because it has nothing to run. -/
def State.maySwitch (s : State) (old new : Nat) : Bool :=
  match s.ctx? old, s.ctx? new with
  | some a, some b =>
    if old = new then a.cstate = 3
    else if a.cstate = 3 then decide (a.cpri ≤ b.cpri) && s.ctxRunnable new
    else (decide (a.cpri < b.cpri) && s.ctxRunnable new) || (b.switchedOut && (a.switchedOut || ((s.ctxResidents old).isEmpty && !s.ctxRunnable old)))
  | _, _ => false

/-- CONTEXT_SWITCH (R388): the next step of a switch from one context to another. -/
def execContextSwitch (old new : Nat) (s : State) : Out :=
  if !s.maySwitch old new then .next s
  else
    let q := if (s.ctx? old).any fun c => c.switchedOut then (s, false) else s.leaveStep old
    if q.2 then .next ((q.1.switchOut old).switchIn new)
    else if (s.ctx? old).any fun c => c.switchedOut then .next (s.switchIn new)
    else .next q.1

/-- QUANTUM_EXPIRY (R388): a context has held its cores for its time slice while another of its priority has runnable work. -/
def execQuantumExpiry (ctx : Nat) (s : State) : Out :=
  match s.ctx? ctx with
  | none => .next s
  | some c =>
    let quant := if c.quant = 0 then 2 ^ 20 else c.quant
    let other := s.ctxs.any fun p => p.1 ≠ ctx && p.2.cpri = c.cpri && s.ctxRunnable p.1
    if c.switchedOut || c.cstate = 3 || s.fwCycle < c.sliceStart + quant || !other || (s.ctxResidents ctx).isEmpty then .next s
    else .next (s.leaveStep ctx).1

/-! ### Services of ECALL (R183, R420) -/

/-- The key of the resident band that a service is for. -/
def State.ecallBand (s : State) (e : Ecall) : Option Nat := s.findBand e.flight e.team e.bandid

/-- The context that a service acts for. -/
def State.ecallCtx (s : State) (e : Ecall) : Nat := match s.flight? e.flight with | some f => f.ctx | none => 0

/-- A service has its status, which ECALL_SERVICE_COMPLETE delivers. -/
def State.ecallDone (s : State) (req : Nat) (e : Ecall) (status : Nat) : State :=
  { s with ecalls := Tbl.put s.ecalls req { e with status := some status } }

/-- A service event: the request is of its number and has no status yet. -/
def State.ecallOf (s : State) (req number : Nat) (f : Ecall → State) : Out :=
  match Tbl.find? s.ecalls req with
  | none => .next s
  | some e => .next (if e.service = number && e.status.isNone then f e else s)

/-- ECALL_NOP. -/
def execEcallNop (req : Nat) (s : State) : Out := s.ecallOf req 0 fun e => s.ecallDone req e 0

/-- ECALL_HALT: the band halts for the debugger, with HWHY 6, on its record where its team is absent; status 1 where none is attached. -/
def execEcallHalt (req : Nat) (s : State) : Out :=
  s.ecallOf req 1 fun e =>
    if (s.ctx? (s.ecallCtx e)).any fun c => c.attached then
      match s.ecallBand e, s.placeOfTeam e.flight e.team with
      | some k, _ => match s.band? k with
        | some b =>
          if b.midUnit.isEmpty then (s.setBand k (b.haltWith { why := 6, pc := e.pc, tid := e.threads.headD 0 })).ecallDone req e 0
          else s
        | none => s
      | none, .absent a => (s.haltAway e.flight e.team a e.bandid).ecallDone req e 0
      | none, _ => s
    else s.ecallDone req e 1

/-- The status word of a reservation-table entry (R301); entry words of an absent entry are zero. -/
def State.entryWord (s : State) (cl n : Nat) (e : Entry) : Nat :=
  let r := (s.eng cl).ring
  let opk := if e.ring then 12 else match e.op with
    | .mma _ => 0
    | .rslv _ _ _ _ => 1
    | .acld _ _ _ _ _ => 2
    | .acst _ _ _ _ _ _ => 3
    | .acmp _ _ _ _ _ _ _ _ => 4
    | .acz _ _ => 5
    | .acmov _ _ _ => 6
    | .mptbl _ _ => 7
    | .mcbtbl _ _ => 8
    | .mroute _ _ => 9
    | .mxqPush _ => 10
    | .mxqInit _ _ => 11
    | .idle => 12
  let age := min ((s.die (clusterDie cl)).cycle - e.posted) 65535
  let waiting := e.ring && e.waits && r.entry = some n && !r.waited
  age + (match e.op with | .mma _ => e.prog % 65536 | _ => 0) * 2 ^ 16 + e.ctx % 4096 * 2 ^ 32 + e.slot % 4 * 2 ^ 44 + e.lane % 64 * 2 ^ 46
    + e.core % 4 * 2 ^ 52 + (if waiting then 2 ^ 54 else 0) + (if e.started then 2 ^ 55 else 0) + (if e.prom then 2 ^ 56 else 0) + e.prio % 4 * 2 ^ 57
    + opk * 2 ^ 59 + 2 ^ 63

/-- The 1,280 bytes of READENG and ENGSTAT (R418): 32 entry status words, 128 metadata words and 128 AOWN registers. -/
def State.engineImage (s : State) (cl : Nat) : Nat :=
  let g := s.eng cl
  let words := (g.live.map fun p => s.entryWord cl p.1 p.2).take 32
  let slots := (List.range 128).map g.slot
  let owner (a : ASlot) : Nat := match a.owner with | some c => 2 ^ 31 + c % 4096 | none => 0
  packed 8 (words ++ List.replicate (32 - words.length) 0) + packed 4 (slots.map ASlot.metaWord ++ slots.map owner) * 2 ^ 2048

/-- The record of a tracker, 96 bytes (R326). -/
def Tracker.image (x : Tracker) : Nat :=
  let b (c : Bool) (n : Nat) : Nat := if c then n else 0
  let four (l : List Nat) : Nat := packed 8 ((List.range 4).map fun i => l.getD i 0)
  x.tpc % 65536 + x.bpc % 65536 * 2 ^ 16 + (b x.active 1 + b x.armed 2 + b x.ev 4) * 2 ^ 32 + x.count % 256 * 2 ^ 40 + x.nins % 256 * 2 ^ 48
    + (x.clines.length % 16 + x.alines.length % 16 * 16) * 2 ^ 56 + x.tmask * 2 ^ 64 + x.h * 2 ^ 128 + x.prevh * 2 ^ 192 + four x.clines * 2 ^ 256
    + four x.alines * 2 ^ 512

/-- A service that writes n bytes at v0:v1: status 2 where the address is misaligned or out of range; a page that is not mapped is requested
and waited for. -/
def State.ecallWrite (s : State) (req : Nat) (e : Ecall) (n x : Nat) : State :=
  let ctx := s.ecallCtx e
  let a := e.args.getD 0 0 + e.args.getD 1 0 * 2 ^ 32
  if a % 64 ≠ 0 || (firstFail (s.ctxRanges ctx) needW a n).isSome then s.ecallDone req e 2
  else match s.firstUnmapped ctx a needW true n with
    | some ia => s.pageRequest ia ctx 1
    | none => ((s.vaWrite ctx a n x needW).getD s).ecallDone req e 0

/-- ENGSTAT: the image of the band's engine. -/
def execEngstat (req : Nat) (s : State) : Out := s.ecallOf req 16 fun e => s.ecallWrite req e 1280 (s.engineImage (coreCluster e.core))
/-- TRACKER: the band's loop tracker as the run's arrival captured it. -/
def execTracker (req : Nat) (s : State) : Out := s.ecallOf req 17 fun e => s.ecallWrite req e 96 e.tracker.image

/-- RELEASE: owned slots become EMPTY and unowned once no unretired operation of the context names them. -/
def execRelease (req : Nat) (s : State) : Out :=
  s.ecallOf req 18 fun e =>
    let cl := coreCluster e.core
    let ctx := s.ecallCtx e
    let v := e.args.getD 0 0
    let lo := bits v 6 0
    let n := bits v 14 8
    let slots := slotRange lo n
    let g := s.eng cl
    if 127 < lo + n || slots.any fun i => (g.slot i).owner ≠ some ctx then s.ecallDone req e 2
    else if g.live.any (fun p => p.2.ctx = ctx && p.2.op.slots.any slots.contains) || g.removed.any (fun p => p.1 = ctx && p.2.op.slots.any slots.contains) then s
    else (slots.foldl (fun (s : State) i => s.modSlot cl i fun _ => {}) s).ecallDone req e 0

/-- The status of a service for threads of an absent team: in their park details, with a trigger, and the team becomes runnable (R394,
R334, R408). -/
def State.ecallAway (s : State) (e : Ecall) (a status : Nat) : State :=
  let o := s.recBand a e.bandid
  let put (s : State) (t : Nat) : State :=
    let at' := o + 0x400 + 16 * t
    ((s.fwWrite (at' + 8) 4 status).fwWrite (at' + 15) 1 1)
  let s1 := (e.threads.foldl put s).makeRunnable e.flight e.team
  let t := e.threads.headD 0
  let tidx := match (s.flight? e.flight).bind fun f => (Tbl.find? f.members e.team).map fun m => (f, m) with
    | some (f, m) => if m.tidxs.isEmpty then tidxOf e.team f.teamb e.bandid f.bandw t else m.tidxs.getD t 0
    | none => 0
  s1.trigger (s.ecallCtx e) 5 0 e.team tidx

/-- ECALL_SERVICE_COMPLETE (R183): the status of a service reaches its threads, which advance; a number without a service has the status
0xFFFFFFFF. -/
def execEcallServiceComplete (req : Nat) (s : State) : Out :=
  match Tbl.find? s.ecalls req with
  | none => .next s
  | some e =>
    let known := [0, 1, 16, 17, 18].contains e.service
    let st := if known then e.status else some 0xFFFFFFFF
    match st with
    | none => .next s
    | some x =>
      if e.threads.isEmpty then .next { s with ecalls := Tbl.del s.ecalls req }
      else
        let s1 := s.ecallDone req e x
        match s.ecallBand e, s.placeOfTeam e.flight e.team with
        | some k, _ => .next ((s1.landEcalls k).modBand k Band.evalInstances)
        | none, .absent a => if bitOf (s.fwRead (s.recBand a e.bandid + 0x40F + 16 * e.threads.headD 0) 1) 0 then .next s
                             else .next (s1.ecallAway e a x)
        | none, _ => .next s

end Sys2Proof.Machine
end

