-- ==== Sys2Proof/Machine/Debug.lean ====
section
/-!
DEFINITION. Sys2Proof/Machine/Debug.lean: the debugger's commands through the mailbox of a context (R411 to R419).
-/
namespace Sys2Proof.Machine

/-! ### The mailbox (R418) -/

/-- The mailbox of a context answers with a status. -/
def State.answerBox (s : State) (ctx mst : Nat) : State :=
  s.modCtx ctx fun c => { c with mailbox := { c.mailbox with mst := mst, begun := false } }

/-- The mailbox of a context answers OK with a value. -/
def State.answerVal (s : State) (ctx x : Nat) : State :=
  s.modCtx ctx fun c => { c with mailbox := { c.mailbox with mst := 0, begun := false, val := x } }

/-- A command event: the mailbox holds that command and is busy. Every command but ATTACH needs an attached debugger; without one its
status is BADARG. -/
def State.command (s : State) (ctx code : Nat) (f : Ctx → Mailbox → State) : Out :=
  match s.ctx? ctx with
  | none => .next s
  | some c =>
    if c.mailbox.mst ≠ 0xFF || c.mailbox.cmd ≠ code then .next s
    else if !c.attached && code ≠ 1 then .next (s.answerBox ctx 3)
    else .next (f c c.mailbox)

/-- Whether the mailbox names a team, and a band of one. -/
def Mailbox.namesTeam (m : Mailbox) (team : Nat) : Bool := m.team = 0xFFFFFFFF || m.team = team
def Mailbox.namesBand (m : Mailbox) (band : Nat) : Bool := m.band = 0xFF || m.band = band

/-- The resident bands of a context that the mailbox names, by slot key. -/
def State.boxKeys (s : State) (ctx : Nat) (m : Mailbox) : List Nat :=
  (List.filter (fun p : Nat × Band => s.bandCtx p.2 = ctx && m.namesTeam p.2.team && m.namesBand p.2.bandid) s.bands).map (·.1)

/-- The bands of absent teams of a context that the mailbox names: flight, team, team record, band. -/
def State.boxAway (s : State) (ctx : Nat) (m : Mailbox) : List (Nat × Nat × Nat × Nat) :=
  s.flights.flatMap fun p => if p.2.ctx ≠ ctx then [] else
    p.2.members.flatMap fun q => match q.2.place with
      | .absent a => if m.namesTeam q.1 then ((List.range (s.recTeamb a)).filter m.namesBand).map fun b => (p.1, q.1, a, b) else []
      | _ => []

/-! ### Halts and resumes (R270, R396, R411, R418) -/

/-- DHALT as the debugger reads it (R415), 16 bytes: a field to which the reason gives no meaning reads as a free value, and so does all but HWHY of a
running band's (log entry 121). -/
def Halt.image (h : Halt) (fresh : Nat) : Nat :=
  let field (l : List Nat) (i v : Nat) : Nat := if l.contains h.why then v else Config.freeNat fresh i
  h.why % 256 + field [2, 3, 5, 7] 1 h.idx % 256 * 2 ^ 8 + field [1, 2, 3, 4, 5, 6, 7] 2 h.pc % 65536 * 2 ^ 16 + field [2, 3] 3 h.tid % 256 * 2 ^ 32
    + field [3] 4 h.addr % 2 ^ 64 * 2 ^ 64

/-- The halt record of a band of a context: a resident one's, or what the record of an absent one tells, that it is halted or not (R393, R415; log
entry 121). -/
def State.dhalt (s : State) (flight team band : Nat) : Nat :=
  match (s.findBand flight team band).bind s.band? with
  | some b => b.halt.image s.fresh
  | none => match s.placeOfTeam flight team with
    | .absent a => if bitOf (s.fwRead (s.recBand a band + 38) 1) 1 then (Halt.free s.fresh band).image s.fresh else Halt.image {} s.fresh
    | _ => Halt.image {} s.fresh

/-- A resident band halts by command; one inside a REP unit is stopped at the unit's end first (R84, R396). A command concerns no instruction, so HPC
is a free value (log entry 121). -/
def State.haltBand (s : State) (k : Nat) : State :=
  match s.band? k with
  | none => s
  | some b =>
    if b.halted || b.allExited then s
    else if !b.midUnit.isEmpty then s.requestStop k 1
    else
      let keep := s.isSaving b.flight b.team || (s.flight? b.flight).any fun f => f.killed
      s.setBand k { b.haltWith { why := 1, pc := Config.freeNat s.fresh k % 65536 } with stop := if keep then b.stop else none }

/-- Each thread of a saved band changed: from its position-table entry and its park detail, to new ones. -/
def State.modRecord (s : State) (o : Nat) (g : Nat → Nat → Nat × Nat) : State :=
  (List.range 64).foldl (fun (s : State) t =>
    let x := g (s.fwRead (o + 0x280 + 4 * t) 4) (s.fwRead (o + 0x400 + 16 * t) 16)
    (s.fwWrite (o + 0x280 + 4 * t) 4 x.1).fwWrite (o + 0x400 + 16 * t) 16 x.2) s

/-- A halted band resumes: its STATE 4 threads are ready, one halted by its own BRK past it (R177), and no breakpoint matches them where
they stand (R414). -/
def Band.resumed (b : Band) : Band :=
  { b with
    halted := false
    halt := {}
    stepping := none
    threads := b.threads.map fun th =>
      if th.state ≠ .halted then th
      else match th.park with
        | .brk => { th with state := .ready, pc := (th.pc + 1) % 65536, park := .none, past := [(th.pc + 1) % 65536] }
        | _ => { th with state := .ready, park := .none, past := [th.pc] } }

/-- A saved halted band resumes, on its record; no breakpoint matches its threads where they stand (R414). -/
def State.resumeAway (s : State) (flight team a b : Nat) : State :=
  let o := s.recBand a b
  let fl := s.fwRead (o + 38) 1
  if !bitOf fl 1 then s
  else
    let s1 := (s.fwWrite (o + 38) 1 (fl - 2)).modRecord o fun pos d =>
      if bits pos 26 24 ≠ 4 then (pos, d)
      else
        let p := pos % 2 ^ 24
        if bits d 103 96 = 0 && bitOf d 72 then (p / 65536 * 65536 + (p + 1) % 65536, 0) else (p, d)
    let was := (List.range (s.fwRead (o + 1) 1)).filter fun t => bits (s.fwRead (o + 0x280 + 4 * t) 4) 26 24 = 4
    (s1.modTeam flight team fun t => { t with
      passed := was.foldl (fun l i => Tbl.put l (256 * b + i) [s1.fwRead (o + 0x280 + 4 * i) 4 % 65536]) t.passed }).settleRunnable flight team

/-- Every band of a list of a context resumes. -/
def State.resumeAll (s : State) (ctx : Nat) (m : Mailbox) : State :=
  let s1 := (s.boxKeys ctx m).foldl (fun (s : State) k => s.modBand k fun b => if b.halted then b.resumed else b) s
  (s1.boxAway ctx m).foldl (fun (s : State) q => s.resumeAway q.1 q.2.1 q.2.2.1 q.2.2.2) s1

/-- ATTACH (R411). -/
def execAttach (ctx : Nat) (s : State) : Out :=
  s.command ctx 1 fun _ _ => (s.modCtx ctx fun c => { c with attached := true }).answerBox ctx 0

/-- DETACH (R411): every halted band resumes, and the breakpoints and watchpoints are cleared. -/
def execDetach (ctx : Nat) (s : State) : Out :=
  s.command ctx 2 fun _ m =>
    let s1 := s.resumeAll ctx { m with team := 0xFFFFFFFF, band := 0xFF }
    (s1.modCtx ctx fun c => { c with attached := false, ibps := [{}, {}, {}, {}], dwps := [{}, {}, {}, {}] }).answerBox ctx 0

/-- HALT (R396, R416, R418): the named bands halt once none of them is inside a REP unit. A step that waits is cancelled. -/
def execHalt (ctx : Nat) (s : State) : Out :=
  s.command ctx 3 fun _ m =>
    let ks := s.boxKeys ctx m
    let waits := ks.any fun k => (s.band? k).any fun b => b.stepping.isSome && b.midUnit.isEmpty
    let s1 := ks.foldl (fun (s : State) k => (s.modBand k fun b => { b with stepping := none }).haltBand k) s
    let s2 := (s1.boxAway ctx m).foldl (fun (s : State) q => s.haltAway q.1 q.2.1 q.2.2.1 q.2.2.2) s1
    let done := ks.all fun k => match s2.band? k with | some b => b.halted || b.allExited | none => true
    if waits then s2.answerBox ctx 5 else if done then s2.answerBox ctx 0 else s2

/-- RESUME (R418). -/
def execResume (ctx : Nat) (s : State) : Out :=
  s.command ctx 4 fun _ m => (s.resumeAll ctx m).answerBox ctx 0

/-! ### The single step (R416) -/

/-- STEP: a thread in STATE 4 of one halted band is issued alone at its lane's turn; the mailbox answers when the step has ended. -/
def execStep (ctx : Nat) (s : State) : Out :=
  s.command ctx 5 fun _ m =>
    match s.boxKeys ctx m with
    | [k] => match s.band? k with
      | none => s
      | some b =>
        if m.begun then (if b.stepping.isSome then s else s.answerBox ctx 5)
        else if !b.halted then s.answerBox ctx 2
        else if b.width ≤ m.btid || (b.thread m.btid).state ≠ .halted then s.answerBox ctx 3
        else (s.setBand k { b with stepping := some m.btid }).modCtx ctx fun c => { c with mailbox := { c.mailbox with begun := true } }
    | _ => s.answerBox ctx (if m.begun then 5 else 3)

/-! ### Reads and writes of a thread's state (R417) -/

/-- What a command reads or writes: a thread of a resident band, or of a band record, with the record's team. -/
inductive Subject where
  | here (key : Nat) (b : Band)
  | away (flight team rec' o : Nat) (b : Band)
  /-- a status that refuses it -/
  | no (mst : Nat)
  deriving DecidableEq, Repr

/-- The band that the mailbox names: one, halted or absent, with the named thread. -/
def State.subject (s : State) (ctx : Nat) (m : Mailbox) : Subject :=
  match s.boxKeys ctx m, s.boxAway ctx m with
  | [k], [] => match s.band? k with
    | none => .no 3
    | some b => if !b.halted then .no 2 else if b.width ≤ m.btid then .no 3 else .here k b
  | [], [(n, team, a, i)] => match s.flight? n with
    | none => .no 3
    | some f =>
      let tidxs := match Tbl.find? f.members team with | some t => t.tidxs | none => []
      if f.bandw ≤ m.btid then .no 3 else .away n team a (s.recBand a i) (s.recBandAt f 0 (s.recBand a i) n team i tidxs)
  | _, _ => .no 3

/-- A register of a band as the debugger reads it: its value, or the status that stands for one. -/
def Band.peek (b : Band) (rcls ridx t : Nat) (sreg : Option Nat) : Nat × Nat :=
  match rcls with
  | 0 => if 256 ≤ ridx then (3, 0) else match b.vreg? ridx t with | some w => (0, w.toNat) | none => (1, 0)
  | 1 => match b.kregs[ridx]? with | some w => (0, w.toNat) | none => (3, 0)
  | 2 => if 7 ≤ ridx then (3, 0) else (0, if bitOf (b.thread t).preds ridx then 1 else 0)
  | 3 => match sreg with | some x => (0, x) | none => (3, 0)
  | _ => (3, 0)

/-- The special registers of a resident thread as SREG would read them. -/
def State.sregHere (s : State) (k : Nat) (b : Band) (n t : Nat) : Option Nat :=
  let s1 : State := { s with issue := { core := keyCore k, lane := keyLane k, slot := keySlot k, pc := (b.thread t).pc } }
  s1.sreg b n t

/-- The special registers of a thread of an absent team: those of a place have none, and TAGS is TIMG (R390). -/
def State.sregAway (s : State) (a : Nat) (b : Band) (n t : Nat) : Option Nat :=
  if [0x07, 0x08, 0x09, 0x11, 0x13, 0x17].contains n then none
  else if n = 0x12 then some (s.fwRead (a + 32) 8)
  else
    let s1 : State := { s with issue := { pc := (b.thread t).pc } }
    s1.sreg b n t

/-- READREG (R417). -/
def execReadreg (ctx : Nat) (s : State) : Out :=
  s.command ctx 6 fun _ m =>
    let say (p : Nat × Nat) : State := (s.answerVal ctx p.2).answerBox ctx p.1
    match s.subject ctx m with
    | .no mst => s.answerBox ctx mst
    | .here k b => say (b.peek m.rcls m.ridx m.btid (s.sregHere k b m.ridx m.btid))
    | .away _ _ a _ b => say (b.peek m.rcls m.ridx m.btid (s.sregAway a b m.ridx m.btid))

/-- A register of a band set by the debugger, other than an unmapped v register: its new band, or none where the argument is bad. -/
def Band.poke (b : Band) (rcls ridx t x : Nat) : Option Band :=
  match rcls with
  | 0 => if ridx < 256 then some (b.writeV ridx t (BitVec.ofNat 32 x)) else none
  | 1 => if ridx < 64 then some (b.writeK ridx (BitVec.ofNat 32 x)) else none
  | 2 => if ridx < 7 then some (b.writeP t ridx (bitOf x 0)) else none
  | 3 => match ridx with
    | 0x0C => if bstatBad (x % 2 ^ 32) then none else some { b with mx := b.mx && !bitOf x 9, qov := b.qov && !bitOf x 8 }
    | 0x0D => some { b with rndseed := x % 2 ^ 32 }
    | 0x0E => some (b.modThread t fun th => { th with rndctr := x % 2 ^ 32 })
    | 0x14 => some b
    | _ => none
  | _ => none

/-- STARVE, which a write of the debugger to that register sets (R62). -/
def State.pokeStarve (s : State) (flight : Nat) (m : Mailbox) : State :=
  if m.rcls = 3 && m.ridx = 0x14 then s.modFlight flight fun fl => { fl with starve := min (max (m.val % 2 ^ 32) 4096) (2 ^ 22) } else s

/-- A debugged band's register sections written to its record: predicates, random state, k registers, status, map and image. -/
def State.putRecord (s : State) (o : Nat) (b : Band) : State :=
  ((b.chunks s.fresh 15).drop 1 ++ [(6, 2, b.mapped), (8, 4, bstat b.mx b.qov b.bec), (12, 4, b.rndseed)]).foldl
    (fun (s : State) (c : Chunk) => s.fwWrite (o + c.1) c.2.1 c.2.2) s

/-- A team record moved to a new address with a wider stride; none where its save area has no room (R389, R390). -/
def State.moveRecord (s : State) (f : Flight) (flight team a stride : Nat) : Option (State × Nat) :=
  let n := s.recTeamb a
  let old := s.recStride a
  let size := 256 + n * stride + f.scratch
  (s.recordRoom f.ctx size).map fun a2 =>
    let s1 := (s.fwWrite a2 256 (s.fwRead a 256)).fwWrite (a2 + 20) 4 stride
    let s2 := (List.range n).foldl (fun (s : State) i => s.fwWrite (a2 + 256 + i * stride) stride (s.fwRead (a + 256 + i * old) old)) s1
    let s3 := s2.fwWrite (a2 + 256 + n * stride) f.scratch (s2.fwRead (a + 256 + n * old) f.scratch)
    let s4 := (s3.freeRecord f.ctx a).modCtx f.ctx fun c => { c with records := c.records ++ [(a2, size)] }
    (s4.modTeam flight team fun t => { t with place := .absent a2 }, a2)

/-- WRITEREG (R417): the entry and its live bit; an unmapped name is allocated within QUOTA, and a record that has no room for it grows. -/
def execWritereg (ctx : Nat) (s : State) : Out :=
  s.command ctx 7 fun _ m =>
    match s.subject ctx m with
    | .no mst => s.answerBox ctx mst
    | .here k b =>
      match (if m.rcls = 0 && m.ridx < 256 then s.allocate k b [m.ridx] else .ok b) with
      | .error _ => s.answerBox ctx 4
      | .ok b1 => match b1.poke m.rcls m.ridx m.btid m.val with
        | none => s.answerBox ctx 3
        | some b2 => ((s.setBand k b2).pokeStarve b.flight m).answerBox ctx 0
    | .away n team a o b =>
      match (if m.rcls = 0 && m.ridx < 256 then s.allocate 0 b [m.ridx] else .ok b) with
      | .error _ => s.answerBox ctx 4
      | .ok b1 => match b1.poke m.rcls m.ridx m.btid m.val, s.flight? n with
        | some b2, some f =>
          if b2.recordSize ≤ s.recStride a then ((s.putRecord o b2).pokeStarve n m).answerBox ctx 0
          else match s.moveRecord f n team a b2.recordSize with
            | some (s1, a2) => ((s1.putRecord (s1.recBand a2 b.bandid) b2).pokeStarve n m).answerBox ctx 0
            | none => s.answerBox ctx 4
        | _, _ => s.answerBox ctx 3

/-- n bytes written at the mailbox's buffer address, and then the answer: BADARG outside the context's ranges; a page that is not mapped is
requested and waited for. -/
def State.boxWrite (s : State) (ctx addr n x : Nat) (val : Option Nat) : State :=
  if (firstFail (s.ctxRanges ctx) needW addr n).isSome then s.answerBox ctx 3
  else match s.firstUnmapped ctx addr needW true n with
    | some ia => s.pageRequest ia ctx 1
    | none =>
      let s1 := (s.vaWrite ctx addr n x needW).getD s
      match val with
      | some v => s1.answerVal ctx v
      | none => s1.answerBox ctx 0

/-- READPOS (R418): the position-table entry with the in-trap bit, and the park detail at the buffer. -/
def execReadpos (ctx : Nat) (s : State) : Out :=
  s.command ctx 8 fun _ m =>
    match s.subject ctx m with
    | .no mst => s.answerBox ctx mst
    | .here _ b =>
      let th := b.thread m.btid
      s.boxWrite ctx m.addr 16 (th.parkDetail (b.heldAsParked m.btid)) (some (th.pos + if th.inTrap then 2 ^ 32 else 0))
    | .away _ _ _ o _ =>
      let trap := if bitOf (s.fwRead (o + 24) 8) m.btid then 2 ^ 32 else 0
      s.boxWrite ctx m.addr 16 (s.fwRead (o + 0x400 + 16 * m.btid) 16) (some (s.fwRead (o + 0x280 + 4 * m.btid) 4 + trap))

/-! ### Breakpoints, the engine, kills (R412, R413, R418) -/

/-- SETBP (R412): a write that sets a must-be-zero bit is refused. -/
def execSetbp (ctx : Nat) (s : State) : Out :=
  s.command ctx 9 fun _ m =>
    if 3 < m.ridx || bits m.val 62 32 ≠ 0 || bits m.addr 31 2 ≠ 0 then s.answerBox ctx 3
    else
      let p : Ibp := { tval := bits m.addr 63 32, cond := m.addr % 4, en := bitOf m.val 63, ovid := bits m.val 31 16, woff := m.val % 65536 }
      (s.modCtx ctx fun c => { c with ibps := c.ibps.set m.ridx p }).answerBox ctx 0

/-- SETWP (R413): an enabled watchpoint covers at least one byte. -/
def execSetwp (ctx : Nat) (s : State) : Out :=
  s.command ctx 10 fun _ m =>
    let len := bits m.val 63 32
    if 3 < m.ridx || bits m.val 27 0 ≠ 0 || (bitOf m.val 31 && len = 0) then s.answerBox ctx 3
    else
      let space := if bitOf m.val 28 then 1 else 0
      let p : Dwp := { base := if space = 1 then m.addr % 2 ^ 32 else m.addr, len := len, en := bitOf m.val 31, rw := bits m.val 30 29, space := space }
      (s.modCtx ctx fun c => { c with dwps := c.dwps.set m.ridx p }).answerBox ctx 0

/-- READENG (R418): the state of the named band's engine at the buffer. -/
def execReadeng (ctx : Nat) (s : State) : Out :=
  s.command ctx 11 fun _ m =>
    match s.boxKeys ctx m with
    | [k] => if (s.band? k).any fun b => b.halted then s.boxWrite ctx m.addr 1280 (s.engineImage (coreCluster (keyCore k))) none else s.answerBox ctx 2
    | _ => s.answerBox ctx 3

/-- Threads of an absent team killed; the lot of a task team that this ends fails (R347, R358). -/
def State.killAway (s : State) (flight team a : Nat) (who : Nat → Nat → Bool) : State :=
  let s1 := s.killAbsent flight team who (s.snaps.any fun p => p.2.2 = a)
  match s1.placeOfTeam flight team, s1.flight? flight with
  | .ended, some f => s1.failLot flight f team
  | _, _ => s1

/-- Whether a band's team is stopped for a save that completes first (R340). -/
def State.saveComes (s : State) (b : Band) : Bool :=
  ((s.teamKeys b.flight b.team).all fun k => (s.band? k).all Band.stopped) && match s.flight? b.flight, s.team? b.flight b.team with
    | some f, some t => s.saveGoes f b.flight b.team t
    | _, _ => false

/-- KILL (R346, R347, R418): the named thread, band or team; every team of every flight of the context kills its flights (R477). A thread inside
a REP unit ends the unit first, and a team that is stopped for a save is saved first (R340). -/
def execKill (ctx : Nat) (s : State) : Out :=
  s.command ctx 12 fun _ m =>
    if m.team = 0xFFFFFFFF && m.band = 0xFF && m.btid = 0xFF then
      ((s.flights.foldl (fun (s : State) p => if p.2.ctx = ctx then s.markKill p.1 else s) s)).answerBox ctx 0
    else
      let ks := s.boxKeys ctx m
      let away := s.boxAway ctx m
      let whole := m.btid = 0xFF
      let fresh := s.flights.flatMap fun p => if p.2.ctx ≠ ctx || m.band ≠ 0xFF || !whole then [] else
        (List.filter (fun q : Nat × Team => m.namesTeam q.1 && q.2.place = .notStarted) p.2.members).map fun q => (p.1, p.2, q.1, q.2)
      if ks.isEmpty && away.isEmpty && fresh.isEmpty then s.answerBox ctx 3
      else if ks.any fun k => (s.band? k).any fun b => s.saveComes b || b.midUnit.any fun t => whole || t = m.btid then s
      else
        let s1 := ks.foldl (fun (s : State) k => if whole then s.killBand k else s.endThreads k [m.btid] fun _ => false) s
        let s2 := away.foldl (fun (s : State) q => s.killAway q.1 q.2.1 q.2.2.1 fun b t => b = q.2.2.2 && (whole || t = m.btid)) s1
        (fresh.foldl (fun (s : State) q => s.killTeam q.1 q.2.1 q.2.2.1 q.2.2.2) s2).answerBox ctx 0

end Sys2Proof.Machine
end

