-- ==== Sys2Proof/Machine/Power.lean ====
section
/-!
DEFINITION. Sys2Proof/Machine/Power.lean: identification registers (R488), resets and bring-up (R489, R490), partitions (R491), the rails and
the power controller (R492, R493), and the Luna port (R494).
-/
namespace Sys2Proof.Machine

/-! ### Identification (R488, R490) -/

/-- DEVID: stepping and firmware version are the implementation's (log entry 8). -/
def devid : Nat := 0x0840 * 2 ^ 32 + Config.report 0 3100 % 2 ^ 32

/-- The number of a list's members that meet a condition. -/
def countOf (l : List Nat) (p : Nat → Bool) : Nat := (l.filter p).length

/-- The mask of the dies that meet a condition. -/
def dieMask (p : Nat → Bool) : Nat := maskOf ((List.range 4).filter p)

/-- UNITS. -/
def State.units (s : State) : Nat :=
  countOf (List.range 384) s.coreWorks + min s.repairs 65535 * 2 ^ 16 + countOf (List.range 96) s.clusterWorks * 2 ^ 40
    + dieMask (fun d => !(s.die d).disabled) * 2 ^ 48
    + dieMask (fun d => !(s.die d).disabled && !(Tbl.get s.nodes d {}).disabled) * 2 ^ 52

/-- CMAP, 48 bytes. -/
def State.cmap (s : State) : Nat := maskOf ((List.range 384).filter s.coreWorks)

/-- STATUS. -/
def State.statusReg (s : State) : Nat := (if s.ready then 1 else 0) + (if s.fatal then 2 else 0) + (if s.therm then 4 else 0)

/-- THROT: the clocks of the dies in units of 10 MHz, and WHY (R493). -/
def State.throt (s : State) : Nat := packed 1 ((List.range 4).map fun d => (s.die d).clock / 10) + s.throtWhy * 2 ^ 32

/-! ### Resets (R488 to R490, R492) -/

/-- What the fuses keep: units that do not work, repairs with their spares, and lanes and ways left out (R481, R488). -/
def State.fuses (s : State) : State :=
  { State.reset with
    agenda := s.agenda
    fresh := s.fresh
    nextId := s.nextId
    outbox := s.outbox
    cores := List.map (fun p : Nat × Core => (p.1, { ({} : Core) with disabled := p.2.disabled })) s.cores
    clusters := List.map (fun p : Nat × Cluster => (p.1, { ({} : Cluster) with disabled := p.2.disabled })) s.clusters
    dies := List.map (fun p : Nat × Die => (p.1, { ({} : Die) with disabled := p.2.disabled })) s.dies
    nodes := List.map (fun p : Nat × Node => (p.1, { ({} : Node) with disabled := p.2.disabled })) s.nodes
    links := List.map (fun p : Nat × Link => (p.1, { ({} : Link) with badLanes := p.2.badLanes })) s.links
    repairs := s.repairs
    spares := s.spares
    badWays := s.badWays }

/-- The Luna port's own settings, which its rail keeps through a reset. -/
def State.keepLuna (s old : State) : State := { s with eid := old.eid, nextRank := old.nextRank, lunaCap := old.lunaCap }

/-- Steps 2 to 6 of the bring-up (R489): the page table's base is written, the grid coordinates are taken, the links train, and the device is
READY. -/
def State.bringUp (s : State) : State :=
  { s with
    powered := true
    dptbase := Config.pick s.fresh 3200 % 2 ^ 30 * 4096
    rank := s.nextRank
    gridMap := [(s.nextRank, 1)]
    links := (List.range 16).map fun n => (n, { s.link n with state := 1 })
    npart := 0
    pwrlim := 3000
    ready := true }

/-- A cold reset (R489): only the fuses and the Luna port's settings are kept. -/
def State.coldReset (s : State) : State := (s.fuses.keepLuna s).bringUp

/-- A warm reset begins (R490): no service is ready and nothing new starts; every flight is killed, in FATAL without signals. -/
def State.startWarm (s : State) : State :=
  if s.warm || !s.powered then s
  else
    let s1 : State := { s with warm := true, ready := false }
    if s.fatal then s1 else (s1.flights.map (·.1)).foldl (fun (s : State) n => s.markKill n) s1

/-- The bytes that a warm reset keeps: device memory and the weight stores, not the scratchpads. -/
def keptByWarm (a : Nat) : Bool := decide (a < 2 ^ 54) || decide (2 ^ 55 ≤ a)

/-- A warm reset ends once its kills are done (R490): memory and the weight stores keep their contents. -/
def State.endWarm (s : State) : State :=
  let s1 := (s.fuses.keepLuna s).bringUp
  { s1 with
    mem := s.mem.filter fun c => keptByWarm c.1
    poison := s.poison
    dies := List.map (fun p : Nat × Die => (p.1, { p.2 with clock := (s.die p.1).clock })) s1.dies
    quiet := s.quiet
    throtWhy := s.throtWhy
    therm := s.therm
    fwCycle := s.fwCycle
    dptbase := s.dptbase }

/-- COLD_RESET (R489): power-on, or a Fundamental Reset of the host port. -/
def execColdReset (s : State) : Out := .next s.coldReset

/-- WARM_RESET (R490): a warm reset begins, or one under way ends when no flight is left to kill. -/
def execWarmReset (s : State) : Out :=
  let s1 := s.startWarm
  .next (if s1.warm && (s1.fatal || s1.flights.isEmpty) then s1.endWarm else s1)

/-- The rails removed (R492, R493): every state but the fuses is lost. -/
def State.railsDown (s : State) : State := { s.fuses with powered := false }

/-- RAILS_DOWN (R492). -/
def execRailsDown (s : State) : Out := .next s.railsDown

/-! ### Partitions and power (R491, R493) -/

/-- Whether a flight is resident, or a packet of a queue is ACCEPTED or RUNNING (R491): a flight lives from its acceptance to its completion. -/
def State.partBusy (s : State) : Bool := !s.flights.isEmpty || !s.gangs.isEmpty

/-- A write of PARTCFG; one with a must-be-zero bit set, or while work is under way, is ignored. -/
def State.setPartcfg (s : State) (val : Nat) : State := if 4 ≤ val || s.partBusy then s else { s with npart := val }

/-- PARTCFG (R491). -/
def execPartcfg (val : Nat) (s : State) : Out := .next (s.setPartcfg val)

/-- A write of PWRLIM, clamped; one with a must-be-zero bit set is ignored. -/
def State.setPwrlim (s : State) (val : Nat) : State := if 4096 ≤ val then s else { s with pwrlim := min (max val 500) 3000 }

/-- PWRLIM (R493). -/
def execPwrlim (val : Nat) (s : State) : Out := .next (s.setPwrlim val)

/-- A quantity that the device measures: 0 to 3 the temperatures of the dies, 4 to 8 the currents of the rails VAUX, VIO, VMEM, VSRAM and VCORE,
9 the package power (log entry 8). -/
def State.measure (s : State) (n : Nat) : Nat := Config.report s.fresh (3400 + n)

/-- What the power controller does to one die (R493): 20 MHz down, or up once nothing has asked for less for 16 intervals. -/
def State.stepClock (s : State) (d : Nat) (hot : Bool) : State :=
  let x := s.die d
  let q := Tbl.get s.quiet d 0 + 1
  if hot then { s.setDie d { x with clock := max 400 (x.clock - 20) } with quiet := Tbl.put s.quiet d 0 }
  else if q < 16 then { s with quiet := Tbl.put s.quiet d q }
  else { s.setDie d { x with clock := min 940 (x.clock + 20) } with quiet := Tbl.put s.quiet d 0 }

/-- POWER_CONTROL_TICK (R493): once per microsecond; at 120 °C the rails are removed. -/
def execPowerControlTick (s : State) : Out :=
  if !s.powered then .next s
  else if (List.range 4).any fun d => decide (120 ≤ s.measure d) then .next s.railsDown
  else
    let above := decide (min s.pwrlim s.lunaCap < s.measure 9)
    let amps := decide (5700 < s.measure 8)
    let hot (d : Nat) : Bool := decide (105 ≤ s.measure d)
    let anyHot := (List.range 4).any hot
    let why := (if above && s.pwrlim < s.measure 9 then 1 else 0) + (if amps then 2 else 0) + (if anyHot then 4 else 0)
      + (if above && s.lunaCap < s.measure 9 then 8 else 0)
    let s1 := (List.range 4).foldl (fun (s : State) d => s.stepClock d (above || amps || hot d)) s
    .next { s1 with throtWhy := why, therm := s.therm || anyHot }

/-! ### The Luna port (R494) -/

/-- A completion of the Luna port: the message, its status (0 done, 1 refused, 2 not ready), and its data. -/
def State.luna (s : State) (message status : Nat) (data : List Nat) : State := s.emit (14 :: message :: status :: data)

/-- A message that needs the I/O die. -/
def State.lunaPowered (s : State) (message : Nat) (f : State → State) : Out := .next (if s.powered then f s else s.luna message 2 [])

/-- SET_ENDPOINT_ID: the bus owner assigns the endpoint ID. -/
def execSetEndpointId (id : Nat) (s : State) : Out := .next (if 256 ≤ id then s.luna 1 1 [] else ({ s with eid := id } : State).luna 1 0 [id])
/-- GET_ENDPOINT_ID. -/
def execGetEndpointId (s : State) : Out := .next (s.luna 2 0 [s.eid])
/-- GET_MCTP_VERSION_SUPPORT: the versions are the implementation's (log entry 8). -/
def execGetMctpVersionSupport (s : State) : Out := .next (s.luna 4 0 [Config.report 0 3101])
/-- GET_MESSAGE_TYPE_SUPPORT: MCTP control, PLDM and the vendor-defined messages. -/
def execGetMessageTypeSupport (s : State) : Out := .next (s.luna 5 0 [0x00, 0x01, 0x7E])

/-- SENSOR_READ: while the I/O die is unpowered only the current of VAUX is read. -/
def execSensorRead (sensor : Nat) (s : State) : Out :=
  .next (if 10 ≤ sensor then s.luna 16 1 [] else if s.powered || sensor = 4 then s.luna 16 0 [s.measure sensor] else s.luna 16 2 [])

/-- SET_LUNA_CAP: a cap of 500 to 3,000 W. -/
def execSetLunaCap (val : Nat) (s : State) : Out :=
  s.lunaPowered 17 fun s => if val < 500 || 3000 < val then s.luna 17 1 [] else ({ s with lunaCap := val } : State).luna 17 0 []

/-- READ_IDENTIFICATION: DEVID, UNITS, CMAP and STATUS. -/
def execReadIdentification (s : State) : Out := s.lunaPowered 32 fun s => s.luna 32 0 [devid, s.units, s.cmap, s.statusReg]

/-- READ_FAULT_RECORDS: the last 16 records. -/
def execReadFaultRecords (s : State) : Out := s.lunaPowered 33 fun s => s.luna 33 0 (s.faultLog.drop (s.faultLog.length - 16))

/-- SET_GRID_COORDINATES: x + 16y + 256z for the next bring-up (R435). -/
def execSetGridCoordinates (val : Nat) (s : State) : Out :=
  s.lunaPowered 34 fun s => if 4096 ≤ val then s.luna 34 1 [] else ({ s with nextRank := val } : State).luna 34 0 []

/-- REQUEST_WARM_RESET (R490): one that meets a warm reset under way joins it. -/
def execRequestWarmReset (s : State) : Out := s.lunaPowered 35 fun s => s.startWarm.luna 35 0 []

/-- COLD_POWER_UP_REQUEST: served while the I/O die is unpowered. -/
def execColdPowerUpRequest (s : State) : Out := .next (if s.powered then s.luna 36 1 [] else s.coldReset.luna 36 0 [])

end Sys2Proof.Machine
end

