-- ==== Sys2Proof/Machine/HostPort.lean ====
section
/-!
DEFINITION. Sys2Proof/Machine/HostPort.lean: the host's side of the host port (R460 to R465): the BAR2 window, the BAR0 registers, and the
unmasking of an MSI-X vector.
-/
namespace Sys2Proof.Machine

/-! ### The BAR2 window (R462) -/

/-- Listed bytes written by the host at the homes of the lines that they touch, at an intermediate address. -/
def State.hostStore (s : State) (ia pa : Nat) (bytes : List Byte) : State :=
  let n := bytes.length
  (List.range ((ia % 64 + n + 63) / 64)).foldl (fun (s : State) j =>
    let lo := 64 * j - ia % 64
    let hi := min n (64 * (j + 1) - ia % 64)
    let bs := ((List.range (hi - lo)).map fun i => (i, bytes.getD (lo + i) 0))
    s.sliceWrite (ia + lo) (pa + lo) bs none) s

/-- The completion of a host's read: its status, 0 with the value, 1 Unsupported Request, 2 without a value for poisoned data (R483). -/
def State.hostAnswer (s : State) (status : Nat) (data : List Nat) : State := s.emit (13 :: status :: data)

/-- Where a host access of n bytes at an offset of BAR2 falls: its intermediate and physical address; none while the window is closed or
the page is not mapped (R462). -/
def State.window (s : State) (o n : Nat) : Option (Nat × Nat) :=
  let ia := s.wbase * 2 ^ 36 + o
  if s.wen && (ia / 65536 = (ia + n - 1) / 65536 || n = 0) then
    match s.walk ia with
    | .frame f => some (ia, f + ia % 65536)
    | _ => none
  else none

/-- The record of an access that the window refuses (R462). -/
def State.windowFault (s : State) (o : Nat) : State := s.deviceFault 33 (s.wbase * 2 ^ 36 + o) 0 0

/-- A read of BAR2. -/
def State.windowRead (s : State) (o n : Nat) : State :=
  match s.window o n with
  | none => (s.windowFault o).hostAnswer 1 []
  | some (ia, pa) => if (s.poisonAt pa n).isSome then s.hostAnswer 2 [] else s.hostAnswer 0 [s.agentRead ia pa n]

/-- An AtomicOp to BAR2 (R207, R460): 0 FetchAdd, 1 Swap, 2 CAS, of 4 or 8 bytes. -/
def State.windowAtomic (s : State) (op o n : Nat) (val cmp : BitVec 64) : State :=
  if 2 < op || !(n = 4 || n = 8) || o % n ≠ 0 then s.hostAnswer 1 []
  else match s.window o n with
    | none => (s.windowFault o).hostAnswer 1 []
    | some (ia, pa) =>
      if (s.poisonAt pa n).isSome then s.hostAnswer 2 []
      else
        let old := s.agentRead ia pa n
        let v := val.toNat % 2 ^ (8 * n)
        let new := match op with
          | 0 => (old + v) % 2 ^ (8 * n)
          | 1 => v
          | _ => if old = cmp.toNat % 2 ^ (8 * n) then v else old
        (s.hostStore ia pa (bytesOf new n)).hostAnswer 0 [old]

/-! ### The registers of BAR0 (R461) -/

/-- The 64 bytes of a copy of a queue control block (R362). -/
def Qcb.image (q : Qcb) : Nat :=
  q.seq % 2 ^ 32 + q.state * 2 ^ 32 + q.part * 2 ^ 40 + q.vec % 65536 * 2 ^ 48 + q.ridx % 2 ^ 32 * 2 ^ 64 + q.nidx % 2 ^ 32 * 2 ^ 96
    + q.rseg % 2 ^ 64 * 2 ^ 128 + q.qhdr % 2 ^ 64 * 2 ^ 192 + q.ctx % 2 ^ 32 * 2 ^ 256 + q.qslot % 2 ^ 32 * 2 ^ 288 + q.hidx % 2 ^ 32 * 2 ^ 320
    + q.ridx / 2 ^ 32 % 2 ^ 32 * 2 ^ 352

/-- The 64 bytes of a mailbox (R418). -/
def Mailbox.image (m : Mailbox) : Nat :=
  m.cmd + m.mst * 2 ^ 8 + m.team * 2 ^ 32 + m.band * 2 ^ 64 + m.btid * 2 ^ 72 + m.rcls * 2 ^ 80 + m.ridx * 2 ^ 88 + m.val * 2 ^ 128 + m.addr * 2 ^ 192

/-- The 16 bytes of a breakpoint and a watchpoint register (R412, R413). -/
def Ibp.image (p : Ibp) : Nat := p.woff + p.ovid * 2 ^ 16 + (if p.en then 2 ^ 63 else 0) + p.cond * 2 ^ 64 + p.tval * 2 ^ 96
def Dwp.image (p : Dwp) : Nat := p.space * 2 ^ 28 + p.rw * 2 ^ 29 + (if p.en then 2 ^ 31 else 0) + p.len * 2 ^ 32 + p.base * 2 ^ 64

/-- CSTATE as the driver reads it: READY, RUNNING while a team is resident, or what stands (R386, R387). -/
def State.cstate (s : State) (ctx : Nat) (c : Ctx) : Nat :=
  if c.cstate ≠ 1 then c.cstate else if (s.ctxResidents ctx).isEmpty then 1 else 2

/-- The 576 bytes of a context root record (R387). -/
def State.rootImage (s : State) (ctx : Nat) (c : Ctx) : Nat :=
  let tr (q : Nat × Nat × Nat × Nat) : Nat := q.1 + q.2.1 * 2 ^ 16 + q.2.2.1 % 2 ^ 32 * 2 ^ 32 + q.2.2.2 % 2 ^ 64 * 2 ^ 64
  ctx + s.cstate ctx c * 2 ^ 16 + c.cpri * 2 ^ 24 + c.quant * 2 ^ 32 + c.csabase % 2 ^ 64 * 2 ^ 64 + c.csasize % 2 ^ 64 * 2 ^ 128
    + c.spbase % 2 ^ 64 * 2 ^ 192 + c.spsize % 2 ^ 64 * 2 ^ 256 + c.clmask * 2 ^ 320
    + ((if c.triglost then 1 else 0) + c.triggers.length * 2) * 2 ^ 416 + (if c.attached then 2 ^ 424 else 0)
    + packed 16 (c.ibps.map Ibp.image) * 2 ^ 512 + packed 16 (c.dwps.map Dwp.image) * 2 ^ 1024 + packed 16 (c.triggers.map tr) * 2 ^ 2560

/-- Register `r` of a Kiln link, 8 bytes each (R469). -/
def Link.reg (l : Link) (r : Nat) : Nat :=
  match r with
  | 0 => (if l.dis then 1 else 0) + l.state * 2 ^ 32 + l.lanes * 2 ^ 36 + l.peer % 4096 * 2 ^ 48
  | 1 => l.crcerr
  | 2 => l.feccor
  | 3 => l.resend
  | 4 => l.retrain
  | 5 => l.flittx
  | 6 => l.flitrx
  | _ => 0

/-- Word i of 8 bytes of an image. -/
def wordAt8 (image i : Nat) : Nat := image / 2 ^ (64 * i) % 2 ^ 64

/-- The 8 bytes of BAR0 at an aligned offset; a reserved offset reads zero (R461). -/
def State.bar0 (s : State) (o : Nat) : Nat :=
  if o < 0x10000 then
    match o with
    | 0x00 => devid
    | 0x08 => s.units
    | 0x10 => windowOffset
    | 0x18 => s.statusReg
    | 0x20 => s.npart
    | 0x28 => s.pwrlim
    | 0x30 => s.throt
    | _ => if 0x100 ≤ o && o < 0x130 then wordAt8 s.cmap ((o - 0x100) / 8) else 0
  else if o = 0x10000 then s.wbase * 2 ^ 36 + if s.wen then 1 else 0
  else if 0x200000 ≤ o && o < 0x220000 then
    let q := s.queue ((o - 0x200000) / 128)
    let i := o % 128 / 8
    if (Tbl.find? s.queues ((o - 0x200000) / 128)).isNone then 0
    else if i < 8 then wordAt8 q.primary.image i else wordAt8 q.shadow.image (i - 8)
  else if 0x300000 ≤ o && o < 0x340000 then
    match s.ctx? ((o - 0x300000) / 64) with
    | some c => wordAt8 c.mailbox.image (o % 64 / 8)
    | none => 0
  else if 0x400000 ≤ o && o < 0x401000 then packed 1 ((List.range 8).map fun i => Tbl.get s.gridMap (o - 0x400000 + i) 0)
  else if 0x410000 ≤ o && o < 0x411000 then (s.link ((o - 0x410000) / 256)).reg (o % 256 / 8)
  else if 0x420000 ≤ o && o < 0x422000 then packed 2 ((List.range 4).map fun i => Tbl.get s.routes ((o - 0x420000) / 2 + i) 0)
  else if 0x500000 ≤ o && o < 0x508000 then
    let e := Tbl.get s.msixTab ((o - 0x500000) / 16) (0, 0, 1)
    if o % 16 = 0 then e.1 else e.2.1 + e.2.2 * 2 ^ 32
  else if 0x508000 ≤ o && o < 0x508100 then maskOf ((List.range 64).filter fun i => s.msixPend.contains ((o - 0x508000) * 8 + i))
  else if 0x800000 ≤ o && o < 0xC00000 then
    match s.ctx? ((o - 0x800000) / 1024) with
    | some c => if o % 1024 < 576 then wordAt8 (s.rootImage ((o - 0x800000) / 1024) c) (o % 1024 / 8) else 0
    | none => 0
  else 0

/-- Whether an access to BAR0 is a naturally aligned one of 4 or 8 bytes (R461). -/
def bar0Aligned (o n : Nat) : Bool := (n = 4 || n = 8) && o % n = 0 && decide (o + n ≤ 2 ^ 26)

/-- A read of BAR0. -/
def State.bar0Read (s : State) (o n : Nat) : State :=
  if !bar0Aligned o n then s.hostAnswer 1 []
  else s.hostAnswer 0 [if n = 8 then s.bar0 o else s.bar0 (o / 8 * 8) / 2 ^ (8 * (o % 8)) % 2 ^ 32]

/-! ### Writes of BAR0 -/

/-- A write of BWIN; one with a must-be-zero bit set is ignored (R462). -/
def State.writeBwin (s : State) (v : Nat) : State :=
  if bits v 63 51 ≠ 0 || bits v 35 1 ≠ 0 then s else { s with wbase := bits v 50 36, wen := bitOf v 0 }

/-- The masked vector is unmasked: its pending message is sent (R465). -/
def State.sendPending (s : State) (vec : Nat) : State :=
  if s.msixPend.contains vec then ({ s with msixPend := s.msixPend.filter (· ≠ vec) } : State).msix vec else s

/-- A write of half of an entry of the MSI-X table: the message address, or the data and the vector control, whose other bits are
reserved (R465). -/
def State.writeMsix (s : State) (vec : Nat) (upper : Bool) (v : Nat) : State :=
  let e := Tbl.get s.msixTab vec (0, 0, 1)
  if !upper then { s with msixTab := Tbl.put s.msixTab vec (v, e.2.1, e.2.2) }
  else
    let s1 : State := { s with msixTab := Tbl.put s.msixTab vec (e.1, v % 2 ^ 32, bits v 32 32) }
    if bitOf v 32 then s1 else s1.sendPending vec

/-- The fields of a mailbox after a write of its image's 8-byte word i (R418). -/
def Mailbox.withWord (m : Mailbox) (i v : Nat) : Mailbox :=
  match i with
  | 0 => { m with team := bits v 63 32 }
  | 1 => { m with band := bits v 7 0, btid := bits v 15 8, rcls := bits v 23 16, ridx := bits v 31 24 }
  | 2 => { m with val := v % 2 ^ 64 }
  | 3 => { m with addr := v % 2 ^ 64 }
  | _ => m

/-- A write of a mailbox (R418): a command byte starts the command; while one is under way only HALT is taken. A command that does not
exist answers BADARG. -/
def Mailbox.write (m : Mailbox) (i v : Nat) (cmd : Bool) : Mailbox :=
  let code := v % 256
  if m.mst = 0xFF && !(cmd && code = 3) then m
  else
    let m1 := m.withWord i v
    if cmd then { m1 with cmd := code, mst := if 1 ≤ code && code ≤ 12 then 0xFF else 3, begun := false } else m1

/-- A write of 8 bytes of BAR0, of which the low or the high half may not be written: its value with the unwritten half as it reads. Read-only
and reserved offsets ignore it (R461). -/
def State.bar0Write (s : State) (o v : Nat) (low high : Bool) : State :=
  if o = 0x18 then (if low && v % 2 ^ 32 / 8 = 0 && (!high || bits v 63 32 = 0) then { s with therm := s.therm && !bitOf v 2 } else s)
  else if o = 0x20 then s.setPartcfg v
  else if o = 0x28 then s.setPwrlim v
  else if o = 0x38 then (if low && v % 2 ^ 32 = 1 && (!high || bits v 63 32 = 0) then s.startWarm else s)
  else if o = 0x10000 then s.writeBwin v
  else if 0x100000 ≤ o && o < 0x102000 then
    s.notifyWrite ((o - 0x100000) / 8) low high ((if low then v % 2 ^ 32 else 0) + if high then v / 2 ^ 32 * 2 ^ 32 else 0)
  else if 0x300000 ≤ o && o < 0x340000 then
    s.modCtx ((o - 0x300000) / 64) fun c => { c with mailbox := c.mailbox.write (o % 64 / 8) v (low && o % 64 = 0) }
  else if 0x410000 ≤ o && o < 0x411000 && o % 256 = 0 && low && bits v 31 1 = 0 then
    match (if bitOf v 0 then execLinkDisable ((o - 0x410000) / 256) s else execLinkEnable ((o - 0x410000) / 256) s) with
    | .next s1 => s1
    | _ => s
  else if 0x500000 ≤ o && o < 0x508000 then s.writeMsix ((o - 0x500000) / 16) (o % 16 = 8) v
  else s

/-- REGISTER_WRITE (R461): a write of the host to BAR0: `reg` is the offset for an 8-byte write, the offset plus 2^26 for a 4-byte
write; one that is not aligned has no effect. -/
def execRegisterWrite (reg val : Nat) (s : State) : Out :=
  if reg < 2 ^ 26 then .next (if bar0Aligned reg 8 then s.bar0Write reg (val % 2 ^ 64) true true else s)
  else
    let o := reg - 2 ^ 26
    let cur := s.bar0 (o / 8 * 8)
    if !bar0Aligned o 4 then .next s
    else if o % 8 = 0 then .next (s.bar0Write o (val % 2 ^ 32 + cur / 2 ^ 32 * 2 ^ 32) true false)
    else .next (s.bar0Write (o - 4) (cur % 2 ^ 32 + val % 2 ^ 32 * 2 ^ 32) false true)

/-- MSIX_UNMASK (R465): a vector's mask bit is cleared, and its pending message is sent. -/
def execMsixUnmask (vec : Nat) (s : State) : Out :=
  if 2048 ≤ vec then .next s
  else
    let e := Tbl.get s.msixTab vec (0, 0, 1)
    .next (({ s with msixTab := Tbl.put s.msixTab vec (e.1, e.2.1, 0) } : State).sendPending vec)

/-- HOST_WINDOW_ACCESS (R461 to R463): a host read, write or AtomicOp of BAR2 is performed at the home slice; an address from 2^36 up is
a read of BAR0. -/
def execHostWindowAccess (acc : HostAcc) (s : State) : Out :=
  match acc with
  | .read a n => .next (if 2 ^ 36 ≤ a then s.bar0Read (a - 2 ^ 36) n else s.windowRead a n)
  | .write a bytes =>
    if 2 ^ 36 ≤ a then .next s
    else match s.window a bytes.length with
      | none => .next (s.windowFault a)
      | some (ia, pa) => .next (s.hostStore ia pa bytes)
  | .atomic op a n val cmp => .next (if 2 ^ 36 ≤ a then s.hostAnswer 1 [] else s.windowAtomic op a n val cmp)

end Sys2Proof.Machine
end

