-- ==== Sys2Proof/Machine/Dispatch.lean ====
section
/-!
DEFINITION. Sys2Proof/Machine/Dispatch.lean: exec, one arm per constructor of Instr.
-/
namespace Sys2Proof.Machine

/-- The meaning of an instruction or step. -/
def exec (i : Instr) (s : State) : Host.Outcome State Fault Refusal :=
  match i with
  | .iadd f => Sys2Proof.Machine.execIadd f s
  | .iaddX f => Sys2Proof.Machine.execIaddX f s
  | .isub f => Sys2Proof.Machine.execIsub f s
  | .isubX f => Sys2Proof.Machine.execIsubX f s
  | .iaddc f => Sys2Proof.Machine.execIaddc f s
  | .iaddcX f => Sys2Proof.Machine.execIaddcX f s
  | .imul f => Sys2Proof.Machine.execImul f s
  | .imulX f => Sys2Proof.Machine.execImulX f s
  | .imulh f => Sys2Proof.Machine.execImulh f s
  | .imulhX f => Sys2Proof.Machine.execImulhX f s
  | .imad f => Sys2Proof.Machine.execImad f s
  | .idiv f => Sys2Proof.Machine.execIdiv f s
  | .idivX f => Sys2Proof.Machine.execIdivX f s
  | .irem f => Sys2Proof.Machine.execIrem f s
  | .iremX f => Sys2Proof.Machine.execIremX f s
  | .imin f => Sys2Proof.Machine.execImin f s
  | .iminX f => Sys2Proof.Machine.execIminX f s
  | .imax f => Sys2Proof.Machine.execImax f s
  | .imaxX f => Sys2Proof.Machine.execImaxX f s
  | .and f => Sys2Proof.Machine.execAnd f s
  | .andX f => Sys2Proof.Machine.execAndX f s
  | .or f => Sys2Proof.Machine.execOr f s
  | .orX f => Sys2Proof.Machine.execOrX f s
  | .xor f => Sys2Proof.Machine.execXor f s
  | .xorX f => Sys2Proof.Machine.execXorX f s
  | .andn f => Sys2Proof.Machine.execAndn f s
  | .andnX f => Sys2Proof.Machine.execAndnX f s
  | .not f => Sys2Proof.Machine.execNot f s
  | .notX f => Sys2Proof.Machine.execNotX f s
  | .iabs f => Sys2Proof.Machine.execIabs f s
  | .iabsX f => Sys2Proof.Machine.execIabsX f s
  | .ineg f => Sys2Proof.Machine.execIneg f s
  | .inegX f => Sys2Proof.Machine.execInegX f s
  | .popc f => Sys2Proof.Machine.execPopc f s
  | .popcX f => Sys2Proof.Machine.execPopcX f s
  | .clz f => Sys2Proof.Machine.execClz f s
  | .clzX f => Sys2Proof.Machine.execClzX f s
  | .ctz f => Sys2Proof.Machine.execCtz f s
  | .ctzX f => Sys2Proof.Machine.execCtzX f s
  | .brev f => Sys2Proof.Machine.execBrev f s
  | .brevX f => Sys2Proof.Machine.execBrevX f s
  | .shl f => Sys2Proof.Machine.execShl f s
  | .shlX f => Sys2Proof.Machine.execShlX f s
  | .shr f => Sys2Proof.Machine.execShr f s
  | .shrX f => Sys2Proof.Machine.execShrX f s
  | .sha f => Sys2Proof.Machine.execSha f s
  | .shaX f => Sys2Proof.Machine.execShaX f s
  | .rotl f => Sys2Proof.Machine.execRotl f s
  | .rotlX f => Sys2Proof.Machine.execRotlX f s
  | .bfx f => Sys2Proof.Machine.execBfx f s
  | .bfi f => Sys2Proof.Machine.execBfi f s
  | .bperm f => Sys2Proof.Machine.execBperm f s
  | .sel f => Sys2Proof.Machine.execSel f s
  | .icmp f => Sys2Proof.Machine.execIcmp f s
  | .icmpX f => Sys2Proof.Machine.execIcmpX f s
  | .plop f => Sys2Proof.Machine.execPlop f s
  | .plopX f => Sys2Proof.Machine.execPlopX f s
  | .lea f => Sys2Proof.Machine.execLea f s
  | .mov f => Sys2Proof.Machine.execMov f s
  | .movX f => Sys2Proof.Machine.execMovX f s
  | .movk f => Sys2Proof.Machine.execMovk f s
  | .movkX f => Sys2Proof.Machine.execMovkX f s
  | .ldi f => Sys2Proof.Machine.execLdi f s
  | .ldiLiteral f lit => Sys2Proof.Machine.execLdiLiteral f lit s
  | .fadd f => Sys2Proof.Machine.execFadd f s
  | .faddX f => Sys2Proof.Machine.execFaddX f s
  | .fsub f => Sys2Proof.Machine.execFsub f s
  | .fsubX f => Sys2Proof.Machine.execFsubX f s
  | .fmul f => Sys2Proof.Machine.execFmul f s
  | .fmulX f => Sys2Proof.Machine.execFmulX f s
  | .ffma f => Sys2Proof.Machine.execFfma f s
  | .fmin f => Sys2Proof.Machine.execFmin f s
  | .fminX f => Sys2Proof.Machine.execFminX f s
  | .fmax f => Sys2Proof.Machine.execFmax f s
  | .fmaxX f => Sys2Proof.Machine.execFmaxX f s
  | .fcmp f => Sys2Proof.Machine.execFcmp f s
  | .fcmpX f => Sys2Proof.Machine.execFcmpX f s
  | .fclass f => Sys2Proof.Machine.execFclass f s
  | .fclassX f => Sys2Proof.Machine.execFclassX f s
  | .frcp f => Sys2Proof.Machine.execFrcp f s
  | .frcpX f => Sys2Proof.Machine.execFrcpX f s
  | .frsq f => Sys2Proof.Machine.execFrsq f s
  | .frsqX f => Sys2Proof.Machine.execFrsqX f s
  | .fsqrt f => Sys2Proof.Machine.execFsqrt f s
  | .fsqrtX f => Sys2Proof.Machine.execFsqrtX f s
  | .fdiv f => Sys2Proof.Machine.execFdiv f s
  | .fdivX f => Sys2Proof.Machine.execFdivX f s
  | .fexp2 f => Sys2Proof.Machine.execFexp2 f s
  | .fexp2X f => Sys2Proof.Machine.execFexp2X f s
  | .flog2 f => Sys2Proof.Machine.execFlog2 f s
  | .flog2X f => Sys2Proof.Machine.execFlog2X f s
  | .fsin f => Sys2Proof.Machine.execFsin f s
  | .fsinX f => Sys2Proof.Machine.execFsinX f s
  | .fcos f => Sys2Proof.Machine.execFcos f s
  | .fcosX f => Sys2Proof.Machine.execFcosX f s
  | .ftanh f => Sys2Proof.Machine.execFtanh f s
  | .ftanhX f => Sys2Proof.Machine.execFtanhX f s
  | .fscale f => Sys2Proof.Machine.execFscale f s
  | .fscaleX f => Sys2Proof.Machine.execFscaleX f s
  | .frnd f => Sys2Proof.Machine.execFrnd f s
  | .frndX f => Sys2Proof.Machine.execFrndX f s
  | .cvt f => Sys2Proof.Machine.execCvt f s
  | .scalex f => Sys2Proof.Machine.execScalex f s
  | .qpack f => Sys2Proof.Machine.execQpack f s
  | .qunpk f => Sys2Proof.Machine.execQunpk f s
  | .cbenc f => Sys2Proof.Machine.execCbenc f s
  | .cbdec f => Sys2Proof.Machine.execCbdec f s
  | .vote f => Sys2Proof.Machine.execVote f s
  | .shfl f => Sys2Proof.Machine.execShfl f s
  | .bred f => Sys2Proof.Machine.execBred f s
  | .bscan f => Sys2Proof.Machine.execBscan f s
  | .matchOp f => Sys2Proof.Machine.execMatchOp f s
  | .elect f => Sys2Proof.Machine.execElect f s
  | .barb f => Sys2Proof.Machine.execBarb f s
  | .actv f => Sys2Proof.Machine.execActv f s
  | .actvX f => Sys2Proof.Machine.execActvX f s
  | .completingIssue band => Sys2Proof.Machine.execCompletingIssue band s
  | .bra f => Sys2Proof.Machine.execBra f s
  | .brs f => Sys2Proof.Machine.execBrs f s
  | .brx f => Sys2Proof.Machine.execBrx f s
  | .pad f => Sys2Proof.Machine.execPad f s
  | .call f => Sys2Proof.Machine.execCall f s
  | .callx f => Sys2Proof.Machine.execCallx f s
  | .ret f => Sys2Proof.Machine.execRet f s
  | .exit f => Sys2Proof.Machine.execExit f s
  | .exitSucc f => Sys2Proof.Machine.execExitSucc f s
  | .trap f => Sys2Proof.Machine.execTrap f s
  | .brk f => Sys2Proof.Machine.execBrk f s
  | .nop f => Sys2Proof.Machine.execNop f s
  | .safe f => Sys2Proof.Machine.execSafe f s
  | .yield f => Sys2Proof.Machine.execYield f s
  | .rep f => Sys2Proof.Machine.execRep f s
  | .takeTrap t => Sys2Proof.Machine.execTakeTrap t s
  | .tret f => Sys2Proof.Machine.execTret f s
  | .sreg f => Sys2Proof.Machine.execSreg f s
  | .sregX f => Sys2Proof.Machine.execSregX f s
  | .sregw f => Sys2Proof.Machine.execSregw f s
  | .ecall f => Sys2Proof.Machine.execEcall f s
  | .ecallServiceComplete req => Sys2Proof.Machine.execEcallServiceComplete req s
  | .ecallNop req => Sys2Proof.Machine.execEcallNop req s
  | .ecallHalt req => Sys2Proof.Machine.execEcallHalt req s
  | .engstat req => Sys2Proof.Machine.execEngstat req s
  | .tracker req => Sys2Proof.Machine.execTracker req s
  | .release req => Sys2Proof.Machine.execRelease req s
  | .csave f => Sys2Proof.Machine.execCsave f s
  | .crest f => Sys2Proof.Machine.execCrest f s
  | .cycle f => Sys2Proof.Machine.execCycle f s
  | .perfr f => Sys2Proof.Machine.execPerfr f s
  | .ld f => Sys2Proof.Machine.execLd f s
  | .ldX f => Sys2Proof.Machine.execLdX f s
  | .st f => Sys2Proof.Machine.execSt f s
  | .stX f => Sys2Proof.Machine.execStX f s
  | .ldk f => Sys2Proof.Machine.execLdk f s
  | .ldw f => Sys2Proof.Machine.execLdw f s
  | .ldwX f => Sys2Proof.Machine.execLdwX f s
  | .atom f => Sys2Proof.Machine.execAtom f s
  | .atom2 f => Sys2Proof.Machine.execAtom2 f s
  | .red f => Sys2Proof.Machine.execRed f s
  | .fence f => Sys2Proof.Machine.execFence f s
  | .watch f => Sys2Proof.Machine.execWatch f s
  | .watchX f => Sys2Proof.Machine.execWatchX f s
  | .waitw f => Sys2Proof.Machine.execWaitw f s
  | .waitwX f => Sys2Proof.Machine.execWaitwX f s
  | .unwatch f => Sys2Proof.Machine.execUnwatch f s
  | .unwatchX f => Sys2Proof.Machine.execUnwatchX f s
  | .pref f => Sys2Proof.Machine.execPref f s
  | .prefX f => Sys2Proof.Machine.execPrefX f s
  | .waitwTimeout band thread => Sys2Proof.Machine.execWaitwTimeout band thread s
  | .tcpy f => Sys2Proof.Machine.execTcpy f s
  | .tcpyGrid f => Sys2Proof.Machine.execTcpyGrid f s
  | .tileCopyComplete copy => Sys2Proof.Machine.execTileCopyComplete copy s
  | .ovl f => Sys2Proof.Machine.execOvl f s
  | .ovlComplete copy => Sys2Proof.Machine.execOvlComplete copy s
  | .twany f => Sys2Proof.Machine.execTwany f s
  | .twanyX f => Sys2Proof.Machine.execTwanyX f s
  | .twall f => Sys2Proof.Machine.execTwall f s
  | .twallX f => Sys2Proof.Machine.execTwallX f s
  | .tffr f => Sys2Proof.Machine.execTffr f s
  | .tffrX f => Sys2Proof.Machine.execTffrX f s
  | .tclr f => Sys2Proof.Machine.execTclr f s
  | .tclrX f => Sys2Proof.Machine.execTclrX f s
  | .waitc f => Sys2Proof.Machine.execWaitc f s
  | .mma f => Sys2Proof.Machine.execMma f s
  | .mfence f => Sys2Proof.Machine.execMfence f s
  | .rslv f => Sys2Proof.Machine.execRslv f s
  | .acld f => Sys2Proof.Machine.execAcld f s
  | .acst f => Sys2Proof.Machine.execAcst f s
  | .acmp f => Sys2Proof.Machine.execAcmp f s
  | .acz f => Sys2Proof.Machine.execAcz f s
  | .aczX f => Sys2Proof.Machine.execAczX f s
  | .acmov f => Sys2Proof.Machine.execAcmov f s
  | .mxqPush f => Sys2Proof.Machine.execMxqPush f s
  | .mxqInit f => Sys2Proof.Machine.execMxqInit f s
  | .mptbl f => Sys2Proof.Machine.execMptbl f s
  | .mcbtbl f => Sys2Proof.Machine.execMcbtbl f s
  | .mroute f => Sys2Proof.Machine.execMroute f s
  | .bari f => Sys2Proof.Machine.execBari f s
  | .barj f => Sys2Proof.Machine.execBarj f s
  | .bara f => Sys2Proof.Machine.execBara f s
  | .barw f => Sys2Proof.Machine.execBarw f s
  | .taskp f => Sys2Proof.Machine.execTaskp f s
  | .grow f => Sys2Proof.Machine.execGrow f s
  | .shrink f => Sys2Proof.Machine.execShrink f s
  | .phase f => Sys2Proof.Machine.execPhase f s
  | .pncmd f => Sys2Proof.Machine.execPncmd f s
  | .localLoad acc => Sys2Proof.Machine.execLocalLoad acc s
  | .missRequest acc => Sys2Proof.Machine.execMissRequest acc s
  | .bufferAStore acc => Sys2Proof.Machine.execBufferAStore acc s
  | .drainIntoL1 acc => Sys2Proof.Machine.execDrainIntoL1 acc s
  | .writeThrough acc => Sys2Proof.Machine.execWriteThrough acc s
  | .writeBack core line sector => Sys2Proof.Machine.execWriteBack core line sector s
  | .drop core line sector => Sys2Proof.Machine.execDrop core line sector s
  | .deliver src dst lane => Sys2Proof.Machine.execDeliver src dst lane s
  | .performAtTheSlice act => Sys2Proof.Machine.execPerformAtTheSlice act s
  | .fill msg => Sys2Proof.Machine.execFill msg s
  | .invalidate msg => Sys2Proof.Machine.execInvalidate msg s
  | .replay core entry => Sys2Proof.Machine.execReplay core entry s
  | .performAtABank act => Sys2Proof.Machine.execPerformAtABank act s
  | .sectorAgeExpiry core line sector => Sys2Proof.Machine.execSectorAgeExpiry core line sector s
  | .refreshPeriodStart die => Sys2Proof.Machine.execRefreshPeriodStart die s
  | .enginePassGrant cluster entry => Sys2Proof.Machine.execEnginePassGrant cluster entry s
  | .passEnd cluster entry => Sys2Proof.Machine.execPassEnd cluster entry s
  | .promotion cluster entry => Sys2Proof.Machine.execPromotion cluster entry s
  | .epilogueResolve cluster => Sys2Proof.Machine.execEpilogueResolve cluster s
  | .epilogueSend cluster block => Sys2Proof.Machine.execEpilogueSend cluster block s
  | .blockAccepted cluster block => Sys2Proof.Machine.execBlockAccepted cluster block s
  | .tlRelease cluster entry => Sys2Proof.Machine.execTlRelease cluster entry s
  | .engineStopRequest cluster ctx => Sys2Proof.Machine.execEngineStopRequest cluster ctx s
  | .firstUseTrap band => Sys2Proof.Machine.execFirstUseTrap band s
  | .ringNop cluster => Sys2Proof.Machine.execRingNop cluster s
  | .ringMma cluster => Sys2Proof.Machine.execRingMma cluster s
  | .ringRslv cluster => Sys2Proof.Machine.execRingRslv cluster s
  | .ringAcst cluster => Sys2Proof.Machine.execRingAcst cluster s
  | .ringAcz cluster => Sys2Proof.Machine.execRingAcz cluster s
  | .ringHalt cluster => Sys2Proof.Machine.execRingHalt cluster s
  | .ringWaitHolds cluster => Sys2Proof.Machine.execRingWaitHolds cluster s
  | .freeArrival cluster entry => Sys2Proof.Machine.execFreeArrival cluster entry s
  | .doneArrival cluster entry => Sys2Proof.Machine.execDoneArrival cluster entry s
  | .spawnRecordTimeout cluster group => Sys2Proof.Machine.execSpawnRecordTimeout cluster group s
  | .loopWatchTimeout band => Sys2Proof.Machine.execLoopWatchTimeout band s
  | .rotationSchedule die => Sys2Proof.Machine.execRotationSchedule die s
  | .homeSchedulerRequest die flight => Sys2Proof.Machine.execHomeSchedulerRequest die flight s
  | .teamSave flight team => Sys2Proof.Machine.execTeamSave flight team s
  | .teamRestore flight team core => Sys2Proof.Machine.execTeamRestore flight team core s
  | .starvationCheck die => Sys2Proof.Machine.execStarvationCheck die s
  | .taskPostAccept post => Sys2Proof.Machine.execTaskPostAccept post s
  | .taskDispatch cluster bin => Sys2Proof.Machine.execTaskDispatch cluster bin s
  | .taskEnd band => Sys2Proof.Machine.execTaskEnd band s
  | .notifyIdx queue idx => Sys2Proof.Machine.execNotifyIdx queue idx s
  | .notifyResume queue => Sys2Proof.Machine.execNotifyResume queue s
  | .flpop msg => Sys2Proof.Machine.execFlpop msg s
  | .flpush msg => Sys2Proof.Machine.execFlpush msg s
  | .queueSlotGrant queue slot => Sys2Proof.Machine.execQueueSlotGrant queue slot s
  | .slotTimeLimit queue => Sys2Proof.Machine.execSlotTimeLimit queue s
  | .headerRead queue => Sys2Proof.Machine.execHeaderRead queue s
  | .emptySlotRetry queue => Sys2Proof.Machine.execEmptySlotRetry queue s
  | .packetNop queue => Sys2Proof.Machine.execPacketNop queue s
  | .packetLink queue => Sys2Proof.Machine.execPacketLink queue s
  | .packetSignal queue => Sys2Proof.Machine.execPacketSignal queue s
  | .packetDepend queue => Sys2Proof.Machine.execPacketDepend queue s
  | .packetLaunch queue => Sys2Proof.Machine.execPacketLaunch queue s
  | .packetGang queue => Sys2Proof.Machine.execPacketGang queue s
  | .gangRetry queue => Sys2Proof.Machine.execGangRetry queue s
  | .gangGo gang die => Sys2Proof.Machine.execGangGo gang die s
  | .gangAckTimeout gang die => Sys2Proof.Machine.execGangAckTimeout gang die s
  | .flightComplete flight => Sys2Proof.Machine.execFlightComplete flight s
  | .emberRestart => Sys2Proof.Machine.execEmberRestart s
  | .workerHeartbeatTimeout worker => Sys2Proof.Machine.execWorkerHeartbeatTimeout worker s
  | .contextSwitch old new => Sys2Proof.Machine.execContextSwitch old new s
  | .quantumExpiry ctx => Sys2Proof.Machine.execQuantumExpiry ctx s
  | .safePointTimeout band => Sys2Proof.Machine.execSafePointTimeout band s
  | .attach ctx => Sys2Proof.Machine.execAttach ctx s
  | .detach ctx => Sys2Proof.Machine.execDetach ctx s
  | .halt ctx => Sys2Proof.Machine.execHalt ctx s
  | .resume ctx => Sys2Proof.Machine.execResume ctx s
  | .step ctx => Sys2Proof.Machine.execStep ctx s
  | .readreg ctx => Sys2Proof.Machine.execReadreg ctx s
  | .writereg ctx => Sys2Proof.Machine.execWritereg ctx s
  | .readpos ctx => Sys2Proof.Machine.execReadpos ctx s
  | .setbp ctx => Sys2Proof.Machine.execSetbp ctx s
  | .setwp ctx => Sys2Proof.Machine.execSetwp ctx s
  | .readeng ctx => Sys2Proof.Machine.execReadeng ctx s
  | .kill ctx => Sys2Proof.Machine.execKill ctx s
  | .rangeSetLoad unit ctx => Sys2Proof.Machine.execRangeSetLoad unit ctx s
  | .tableWalk die page => Sys2Proof.Machine.execTableWalk die page s
  | .mapdone lo hi => Sys2Proof.Machine.execMapdone lo hi s
  | .priResponse page ok => Sys2Proof.Machine.execPriResponse page ok s
  | .setRangeTable ctx table => Sys2Proof.Machine.execSetRangeTable ctx table s
  | .remap lo hi scope => Sys2Proof.Machine.execRemap lo hi scope s
  | .unmap lo hi scope => Sys2Proof.Machine.execUnmap lo hi scope s
  | .range ctx scope => Sys2Proof.Machine.execRange ctx scope s
  | .shootdownAck node => Sys2Proof.Machine.execShootdownAck node s
  | .shootdownTimeout node => Sys2Proof.Machine.execShootdownTimeout node s
  | .gridDelivery msg => Sys2Proof.Machine.execGridDelivery msg s
  | .contributionArrival msg => Sys2Proof.Machine.execContributionArrival msg s
  | .pncmdReg die => Sys2Proof.Machine.execPncmdReg die s
  | .pncmdRule die => Sys2Proof.Machine.execPncmdRule die s
  | .pncmdOpen die => Sys2Proof.Machine.execPncmdOpen die s
  | .pncmdCommit die => Sys2Proof.Machine.execPncmdCommit die s
  | .pncmdQuery die => Sys2Proof.Machine.execPncmdQuery die s
  | .pncmdSub die => Sys2Proof.Machine.execPncmdSub die s
  | .pncmdUnreg die => Sys2Proof.Machine.execPncmdUnreg die s
  | .gradientBlock die msg => Sys2Proof.Machine.execGradientBlock die msg s
  | .subscriptionDelivery die sub => Sys2Proof.Machine.execSubscriptionDelivery die sub s
  | .weightStoreSubscription die sub => Sys2Proof.Machine.execWeightStoreSubscription die sub s
  | .nodeRestart die => Sys2Proof.Machine.execNodeRestart die s
  | .nodeHeartbeatTimeout die => Sys2Proof.Machine.execNodeHeartbeatTimeout die s
  | .hostWindowAccess acc => Sys2Proof.Machine.execHostWindowAccess acc s
  | .registerWrite reg val => Sys2Proof.Machine.execRegisterWrite reg val s
  | .msixUnmask vec => Sys2Proof.Machine.execMsixUnmask vec s
  | .flitReceive link flit => Sys2Proof.Machine.execFlitReceive link flit s
  | .linkRetrain link => Sys2Proof.Machine.execLinkRetrain link s
  | .linkTrainingDone link ok => Sys2Proof.Machine.execLinkTrainingDone link ok s
  | .linkDisable link => Sys2Proof.Machine.execLinkDisable link s
  | .linkEnable link => Sys2Proof.Machine.execLinkEnable link s
  | .routeUnservedTimeout rank => Sys2Proof.Machine.execRouteUnservedTimeout rank s
  | .bandStop band => Sys2Proof.Machine.execBandStop band s
  | .setFaultRing base log2 => Sys2Proof.Machine.execSetFaultRing base log2 s
  | .snapshotRelease snap => Sys2Proof.Machine.execSnapshotRelease snap s
  | .flightKill flight => Sys2Proof.Machine.execFlightKill flight s
  | .killSideLogTimeout flight => Sys2Proof.Machine.execKillSideLogTimeout flight s
  | .correctedError code => Sys2Proof.Machine.execCorrectedError code s
  | .uncorrectedError code target => Sys2Proof.Machine.execUncorrectedError code target s
  | .dieDisable die => Sys2Proof.Machine.execDieDisable die s
  | .peerReadmit rank => Sys2Proof.Machine.execPeerReadmit rank s
  | .coldReset => Sys2Proof.Machine.execColdReset s
  | .warmReset => Sys2Proof.Machine.execWarmReset s
  | .partcfg val => Sys2Proof.Machine.execPartcfg val s
  | .pwrlim val => Sys2Proof.Machine.execPwrlim val s
  | .powerControlTick => Sys2Proof.Machine.execPowerControlTick s
  | .setEndpointId id => Sys2Proof.Machine.execSetEndpointId id s
  | .getEndpointId => Sys2Proof.Machine.execGetEndpointId s
  | .getMctpVersionSupport => Sys2Proof.Machine.execGetMctpVersionSupport s
  | .getMessageTypeSupport => Sys2Proof.Machine.execGetMessageTypeSupport s
  | .sensorRead sensor => Sys2Proof.Machine.execSensorRead sensor s
  | .setLunaCap val => Sys2Proof.Machine.execSetLunaCap val s
  | .readIdentification => Sys2Proof.Machine.execReadIdentification s
  | .readFaultRecords => Sys2Proof.Machine.execReadFaultRecords s
  | .setGridCoordinates val => Sys2Proof.Machine.execSetGridCoordinates val s
  | .requestWarmReset => Sys2Proof.Machine.execRequestWarmReset s
  | .coldPowerUpRequest => Sys2Proof.Machine.execColdPowerUpRequest s
  | .refreshWindowClose die bank => Sys2Proof.Machine.execRefreshWindowClose die bank s
  | .refreshParameterChange die period wlen stagger => Sys2Proof.Machine.execRefreshParameterChange die period wlen stagger s
  | .createContext ctx rec => Sys2Proof.Machine.execCreateContext ctx rec s
  | .destroyContext ctx => Sys2Proof.Machine.execDestroyContext ctx s
  | .createQueue queue rec => Sys2Proof.Machine.execCreateQueue queue rec s
  | .bindQueue queue rec => Sys2Proof.Machine.execBindQueue queue rec s
  | .disableQueue queue => Sys2Proof.Machine.execDisableQueue queue s
  | .setVec queue vec => Sys2Proof.Machine.execSetVec queue vec s
  | .setGkey ctx key => Sys2Proof.Machine.execSetGkey ctx key s
  | .atsTranslationCompletion page rec => Sys2Proof.Machine.execAtsTranslationCompletion page rec s
  | .hostCompletion req rec => Sys2Proof.Machine.execHostCompletion req rec s
  | .spareRowCopyDone code => Sys2Proof.Machine.execSpareRowCopyDone code s
  | .wstRowRepair code => Sys2Proof.Machine.execWstRowRepair code s
  | .railsDown => Sys2Proof.Machine.execRailsDown s

end Sys2Proof.Machine
end

