-- ==== Sys2Proof/Machine/Turn.lean ====
section
/-!
DEFINITION. Sys2Proof/Machine/Turn.lean: one step of the schedule: a lane's turn, in which the first slot of the rotation with
an issuable run issues it (R48, R268), or one step of a unit; and where step fetches an instruction from.
-/
namespace Sys2Proof.Machine

/-- The issue register for an offered run, as its instruction's fetch found it. -/
def issueOf (k pc depth : Nat) (o : Offer) (rep len : Nat) (word : Word) : Run :=
  { core := keyCore k, lane := keyLane k, slot := keySlot k, threads := o.threads, pc := pc, depth := depth, word := word, len := len,
    rot := o.rot, single := o.single, rep := rep, inRep := decide (0 < rep) }

/-- What a refused encoding raises: the reason and word that its trap records (R83, R86, R87). -/
def State.refusal (s : State) (core pc reason : Nat) : Nat × Word :=
  match s.wordAt core pc with
  | none => (reason, 0)
  | some w => if Decode.opOf w = 0x7F then s.repRefusal core pc w else (reason, w)

/-- The run of an offer issued at its PC: its instruction executes, or the illegal-instruction trap is taken (R86). -/
def State.issueOffer (s : State) (k : Nat) (b : Band) (o : Offer) : Out :=
  let th := b.thread (o.threads.headD 0)
  let core := keyCore k
  let w := (s.wordAt core th.pc).getD 0
  match (if b.pastEnd then .error 1 else Decode.decodeAt th.pc (s.wordsFrom core th.pc)) with
  | .error r =>
    let q := if b.pastEnd then (r, 0) else s.refusal core th.pc r
    let s1 : State := { s with issue := { issueOf k th.pc th.depth o 0 1 q.2 with inRep := false } }
    let s2 := s1.stopRun (illInsn q.1 q.2)
    .next (if s2.issue.held then s.afterWatch s2 k 0 else s.afterRun s2 k none)
  | .ok (i, len) =>
    match exec i { s with issue := issueOf k th.pc th.depth o th.rep len w } with
    | .next s2 =>
      let op := match i.form? with | some p => p.1 | none => 0
      .next (if s2.issue.held then s.afterWatch s2 k op else s.afterRun s2 k (some i))
    | out => out

/-- One slot's chance in a turn: the state after it, and whether the datapath has issued a run or the turn is over. -/
def State.trySlot (s : State) (k : Nat) : Out × Bool :=
  match s.band? k with
  | none => (.next s, false)
  | some b =>
    if !s.mayIssue k b then (.next s, false)
    else match (if b.stepping.isNone && !b.stopHolds then b.firstDone else none) with
      | some _ =>
        match execCompletingIssue k s with
        | .next s1 => (.next s1, !s1.issue.held)
        | o => (o, true)
      | none =>
        match b.nextRun with
        | none => (.next s, false)
        | some o =>
          let pc := (b.thread (o.threads.headD 0)).pc
          match (if o.single then none else s.breakpoint b (keyCore k) pc o.threads) with
          | some (n, t) => (.next (s.setBand k (b.haltWith { why := 2, idx := n, pc := pc, tid := t })), false)
          | none =>
            match s.issueOffer k b o with
            | .next s1 => (.next s1, !s1.issue.held)
            | out => (out, true)

/-- The slots of a list tried in order until one issues. -/
def State.trySlots (s : State) (core lane : Nat) : List Nat → Out
  | [] => .next s
  | i :: r =>
    match s.trySlot (slotKey core lane i) with
    | (.next s1, false) => s1.trySlots core lane r
    | (out, _) => out

/-- The slots of a lane in rotation order, after the slot that issued last; a slot that a YIELD passes over comes last
(R48, R173). -/
def Lane.order (l : Lane) : List Nat :=
  let rot := (List.range 4).map fun i => (l.last + 1 + i) % 4
  match l.skip with
  | some x => rot.filter (· ≠ x) ++ [x]
  | none => rot

/-- A lane's turn. -/
def State.turn (s : State) (core lane : Nat) : Out :=
  let lk := core * 64 + lane
  let l := s.lane lk
  (s.setLane lk { l with skip := none }).trySlots core lane l.order

/-- The step's choice: the next of the agenda, or the schedule's. -/
def State.choice (s : State) : Option Choice × List Choice :=
  match s.agenda with
  | c :: r => (some c, r)
  | [] => (Config.schedule s.fresh, [])

/-- Time passes and the step's number advances (log entries 1, 3 and 5). -/
def State.tick (s : State) : State :=
  { s with
    fresh := s.fresh + 1
    dies := (List.range 4).map fun d => (d, { s.die d with cycle := ((s.die d).cycle + Config.dieGap s.fresh d) % 2 ^ 64 })
    fwCycle := s.fwCycle + Config.fwGap s.fresh }

/-- Whether an instruction is a step of a unit: no word encodes it. -/
def isEvent (i : Instr) : Bool := i.form?.isNone

/-- The steps that need no rail but VAUX: a power-on, and the Luna port's messages (R492, R494). -/
def onVaux (i : Instr) : Bool :=
  match i with
  | .coldReset | .setEndpointId _ | .getEndpointId | .getMctpVersionSupport | .getMessageTypeSupport | .sensorRead _ | .setLunaCap _
  | .readIdentification | .readFaultRecords | .setGridCoordinates _ | .requestWarmReset | .coldPowerUpRequest => true
  | _ => false

/-- The band whose run waits in a lane (R360): the lowest slot's that offers one. -/
def State.waiting (s : State) (core lane : Nat) : Option Band :=
  (List.range 4).findSome? fun i => (s.band? (slotKey core lane i)).bind fun b => if b.nextRun.isSome || b.firstDone.isSome then some b else none

/-- A lane's cycles that a step let pass, counted (R360): first those in which the runs issued pass through the datapath, which are counted busy as
they issue; the others as stall cycles if a run waited, and else as idle ones. -/
def State.countLane (s0 s : State) (lk : Nat) : State :=
  let core := lk / 64
  let l := s.lane lk
  let n := s.cycleAt core - l.counted
  let sel := match s0.waiting core (lk % 64) with
    | some b => 0x1080 + 256 * b.phase + lk % 64
    | none => 0x1040 + 256 * l.lastPhase + lk % 64
  let s1 := (s.setLane lk { l with owed := l.owed - n, counted := l.counted + n }).count core 2 (n - l.owed)
  s1.modCore core fun c => { c with phases := Tbl.put c.phases sel (Tbl.get c.phases sel 0 + (n - l.owed)) }

/-- The cycles of the lanes that hold a band before or after a step. -/
def State.countLanes (s0 s : State) : State :=
  ((Tbl.keys s0.bands ++ Tbl.keys s.bands).map (· / 4)).eraseDups.foldl s0.countLane s

/-- What follows a step at once: races of bands with the engines (R231), and the schedulers' candidates and clocks (R333, R341, R342), and the lanes' counters (R360);
`ran` tells whether the step issued a run. -/
def State.aftermath (s0 s1 : State) (ran : Bool) : State :=
  let raced := (Tbl.keys s1.bands).foldl (fun (s : State) k => s0.raceRegs s k ran) s1
  s0.countLanes (raced.settleTeams fun d => (raced.die d).cycle - (s0.die d).cycle)

/-- A step's choice carried out. -/
def State.act (s : State) (c : Choice) : Out :=
  match c with
  | .turn core lane => s.turn core lane
  | .event i => if isEvent i && (s.powered || onVaux i) then exec i s else .next s

/-- Whether a step's choice is one that may issue a run. -/
def Choice.runs : Choice → Bool
  | .turn _ _ => true
  | .event (.completingIssue _) => true
  | .event _ => false

/-- One step: a lane's turn, one step of a unit, or nothing. -/
def State.choose (s : State) : Out :=
  let q := s.choice
  let s1 : State := { s with agenda := q.2 }.tick
  match q.1 with
  | none => .next (s.aftermath s1 false)
  | some c => match s1.act c with
    | .next s2 => .next (s.aftermath s2 c.runs)
    | out => out

/-! ### Where a step fetches (host interface) -/

/-- A band of 16 threads ready at instruction index 0, of a flight with that one band. -/
def probeBand : Band := { flight := 0, team := 0, bandid := 0, width := 16, threads := List.replicate 16 {} }

/-- The flight of the probe band. -/
def probeFlight : Flight :=
  { ctx := 0, queue := 0, packet := 0, part := 0, teams := 1, teamb := 1, bandw := 16, regs := 256, scratch := 65536, roi := 0, kidx := 0,
    entryOv := 0, entryOff := 0, csbase := 0, started := true,
    members := [(0, { place := .resident 0 false 0, teamb := 1 })] }

/-- A state with a program's words loaded in overlay slot 0 of core 0, one band resident at its first word, and the lane's
turn next: it stands for a launch and the load of a kernel's overlay (log entry 10). -/
def State.withProgram (s : State) (ws : List Word) : State :=
  { s with
    agenda := [.turn 0 0]
    cores := Tbl.put s.cores 0 { s.core 0 with overlays := [{ ovid := some 0, words := ws }, {}, {}, {}] }
    bands := [(0, probeBand)]
    flights := Tbl.put s.flights 0 probeFlight }

end Sys2Proof.Machine
end

