-- ==== Sys2Proof/Machine/Step.lean ====
section
/-!
DEFINITION. Sys2Proof/Machine/Step.lean: one step of the machine, and the state that fetches a given instruction next.
-/
namespace Sys2Proof.Machine

/-- One step of the machine. -/
def step (s : State) : Host.Outcome State Fault Refusal := s.choose

/-- The state with an instruction stored where the next step fetches: its bits, and zero words up to the longest
instruction and one word more. -/
def State.withFetchWord (s : State) (nbits w : Nat) : State := s.withProgram (tableWords nbits w ++ [0])

end Sys2Proof.Machine
end

