-- ==== Sys2Proof/Safety.lean ====
section
/-!
DEFINITION. Sys2Proof/Safety.lean: the vocabulary in which claims about the machine are stated: what a thread-by-thread instruction needs
in order to run, what it leaves, what an instruction word may touch, and the invariants of memory and of the schedulers.
-/
namespace Sys2Proof.Machine

/-! ### Thread-by-thread instructions (R49 to R56, R64, R73, R109) -/

/-- Word i of a value of several registers, little-endian (R20). -/
def wordOf (x i : Nat) : Word := BitVec.ofNat 32 (x / 2 ^ (32 * i))

/-- The v registers whose live bits the last-read bits of an instruction clear (R55, R74). -/
def Fld.lastReadNames (f : Fld) (wa wb wc : Nat) : List Nat :=
  let one (o : Opnd) (l : Bool) (w : Nat) : List Nat :=
    match o, l with
    | .v n, true => (List.range (wordsFor w)).map (n + ·)
    | _, _ => []
  one f.a f.la wa ++ one f.b f.lb wb ++ one f.c f.lc wc

/-- The v names that a run with n results allocates. -/
def Fld.results (f : Fld) (tg : Target) (n : Nat) : List Nat := if n = 0 then [] else f.destNames tg

/-- What a thread-by-thread instruction needs to take its effect: its band is there, the run's threads are threads of it, the guard, the
destination and every source of every guarded thread can be read, and the destination's names fit the quota (R48, R49, R56, R73). `ts` are
the guarded threads and `ins` their operands. -/
structure Ready (s : State) (b : Band) (f : Fld) (wa wb wc : Nat) (tg : Target) (ts : List Nat) (ins : List In) : Prop where
  band : s.band? s.issue.key = some b
  distinct : s.issue.threads.Nodup
  inBand : ∀ t ∈ s.issue.threads, t < b.threads.length
  guard : b.guarded f s.issue.threads = .ok ts
  dest : b.destPending f tg ts = false
  operands : mapRd (s.readIn b f wa wb wc) ts = .ok ins
  kfits : ∀ n, tg = .regs n → f.dk = true → f.d + n ≤ b.kregs.length
  room : ((b.lastReads f wa wb wc s.issue.threads).prune (f.results tg ts.length)).mapped
      + (((b.lastReads f wa wb wc s.issue.threads).prune (f.results tg ts.length)).unmapped (f.results tg ts.length)).length ≤ b.quota

/-- A result stands in its destination: in a v register group of each guarded thread, in a k group from the lowest guarded thread (R50), or in
a predicate of each guarded thread, where p7 discards it (R51). -/
def Landed (b' : Band) (f : Fld) (tg : Target) (ins : List In) (value : In → Nat) : Prop :=
  match tg with
  | .regs n =>
    if f.dk then ∀ x ∈ ins.head?, ∀ i < n, b'.kregs.getD (f.d + i) 0 = wordOf (value x) i
    else ∀ x ∈ ins, ∀ i < n, b'.vreg? (f.d + i) x.t = some (wordOf (value x) i)
  | .pred => ∀ x ∈ ins, f.d % 8 ≠ 7 → bitOf (b'.thread x.t).preds (f.d % 8) = decide (value x % 2 = 1)
  | .none => True

/-- Everything else that a thread-by-thread instruction leaves as it was (R50 to R55, R64): the rest of the machine, every other register,
predicate and thread, and all of the band but its threads and registers. -/
structure Kept (s t : State) (b b' : Band) (f : Fld) (wa wb wc : Nat) (tg : Target) (ts : List Nat) : Prop where
  machine : t = { s with bands := Tbl.put s.bands s.issue.key b', issue := { s.issue with writes := t.issue.writes, regs := t.issue.regs } }
  band : b' = { b with threads := b'.threads, regs := b'.regs, kregs := b'.kregs }
  vregs : ∀ n j, (n ∉ f.destNames tg ∨ j ∉ ts) →
    b'.vreg? n j = if n ∈ f.lastReadNames wa wb wc ∧ j ∈ s.issue.threads then none else b.vreg? n j
  kregs : ∀ n, (f.dk = false ∨ ts = [] ∨ ∀ w, tg = .regs w → n < f.d ∨ f.d + w ≤ n) → b'.kregs.getD n 0 = b.kregs.getD n 0
  threads : ∀ j, b'.thread j = if j ∈ s.issue.threads then
      { b.thread j with
        pc := if s.issue.inRep then (b.thread j).pc else ((b.thread j).pc + s.issue.len) % 65536
        rep := if s.issue.inRep then (b.thread j).rep else 0
        preds := (b'.thread j).preds
        rndctr := (b'.thread j).rndctr }
    else b.thread j
  preds : ∀ j p, (tg ≠ .pred ∨ j ∉ ts ∨ p ≠ f.d % 8 ∨ p = 7) → bitOf (b'.thread j).preds p = bitOf (b.thread j).preds p
  rndctr : ∀ j, j ∉ ts → (b'.thread j).rndctr = (b.thread j).rndctr

/-- What a thread-by-thread instruction is to do: its fields, the widths of its operands, its destination, when its computation has a
value, and that value with its draws from RNDCTR. -/
structure Sem where
  f : Fld
  wa : Nat
  wb : Nat
  wc : Nat
  tg : Target
  ok : State → In → Prop := fun _ _ => True
  value : State → In → Nat × Nat

/-- An instruction that works thread by thread completes: wherever it is ready it answers a next state, in which each guarded thread's result
stands in its destination and RNDCTR has advanced by its draws (R33), and everything else is kept. -/
def Completes (i : Instr) (m : Sem) : Prop :=
  ∀ s b ts ins, Ready s b m.f m.wa m.wb m.wc m.tg ts ins → (∀ x ∈ ins, m.ok s x) →
    ∃ t b', exec i s = .next t ∧ Kept s t b b' m.f m.wa m.wb m.wc m.tg ts ∧ Landed b' m.f m.tg ins (fun x => (m.value s x).1) ∧
      ∀ x ∈ ins, (b'.thread x.t).rndctr = ((b.thread x.t).rndctr + (m.value s x).2) % 2 ^ 32

/-! ### Runs -/

/-- The run of the issue register works on a band: the band is resident in the slot, and the run's threads are distinct threads of it (R46, R47). -/
structure Runs (s : State) (b : Band) : Prop where
  lane : s.issue.lane < 64
  slot : s.issue.slot < 4
  band : s.band? s.issue.key = some b
  distinct : s.issue.threads.Nodup
  inBand : ∀ t ∈ s.issue.threads, t < b.threads.length

/-- A thread of a run that retires: it advances by the instruction's length, and its REP iteration clears; inside a REP unit it stays at the
REP (R64, R82). -/
def Thread.retired (r : Run) (th : Thread) : Thread := if r.inRep then th else { th with pc := (th.pc + r.len) % 65536, rep := 0 }

/-- A band that differs from another in its threads alone, each as a function says. -/
def ThreadsOnly (b b' : Band) (f : Nat → Thread) : Prop := b' = { b with threads := b'.threads } ∧ ∀ j, b'.thread j = f j

/-- The live bits that a run's last-read bits leave (R55). -/
def LastReadsOnly (b b' : Band) (f : Fld) (wa wb wc : Nat) (ts : List Nat) : Prop :=
  ∀ n j, b'.vreg? n j = if n ∈ f.lastReadNames wa wb wc ∧ j ∈ ts then none else b.vreg? n j

/-- The threads that a list of threads' guard lets act: p[g] XOR gn (R73). -/
def Guarded (b : Band) (g : Nat) (gn : Bool) (ts gs : List Nat) : Prop :=
  (∀ t ∈ ts, g = 7 ∨ b.pendingP t g = false) ∧ gs = ts.filter fun t => (if g = 7 then true else bitOf (b.thread t).preds g) != gn

/-! ### The schedulers' marks (R333, R336, R343) -/

/-- The marks that follow every step: a resident team is noted as an eviction candidate exactly while it is one (R333, R336), and a flight
counts as pre-empted only while it has a runnable absent team (R343). -/
def State.Settled (s : State) : Prop :=
  ∀ p ∈ s.flights, (∀ q ∈ p.2.members, ∀ core pair base, q.2.place = .resident core pair base →
      (q.2.candidate.isSome = true ↔ s.isCandidate p.2 p.1 q.1 q.2 = true)) ∧ (p.2.preempted = true → p.2.anyRunnable = true)

/-! ### The integer instructions (R111, R115 to R128) -/

/-- Two operands and a result of one TI type, with SAT (R111, R116). -/
def intSem (f : Fld) (op : Int → Int → Int) : Sem :=
  { f := f, wa := tiBits f.sub, wb := tiBits f.sub, wc := 0, tg := .regs (wordsFor (tiBits f.sub)),
    value := fun _ x => (putTI f.sub f.sat (op (srcTI f.sub x.a) (srcTI f.sub x.b)), 0) }

/-- The carry out of R117. -/
def carrySem (f : Fld) : Sem :=
  { f := f, wa := tiBits f.sub, wb := tiBits f.sub, wc := if f.isX then tiBits f.sub else 0, tg := .regs (wordsFor (tiBits f.sub)),
    value := fun _ x => (if 2 ^ tiBits f.sub ≤ x.a % 2 ^ tiBits f.sub + x.b % 2 ^ tiBits f.sub + x.c % 2 then 1 else 0, 0) }

/-- IDIV's quotient towards zero under a TI code; a division by zero gives all ones at the type's width, which SAT leaves (R116; log entry 110). -/
def quotSpec (ti : Nat) (a b : Int) : Int :=
  if b ≠ 0 then Int.tdiv a b else if ti = 0 ∨ ti = 2 ∨ ti = 4 ∨ ti = 6 then -1 else 2 ^ tiBits ti - 1

/-- The arithmetic of R116 and R117. -/
def integerSem : Instr → Option Sem
  | .iadd f => some (intSem (viewS f) fun a b => a + b)
  | .iaddX f => some (intSem (viewXL f) fun a b => a + b)
  | .isub f => some (intSem (viewS f) fun a b => a - b)
  | .isubX f => some (intSem (viewXL f) fun a b => a - b)
  | .iaddc f => some (carrySem (viewS f))
  | .iaddcX f => some (carrySem (viewXL f))
  | .imul f => some (intSem (viewS f) fun a b => a * b)
  | .imulX f => some (intSem (viewXL f) fun a b => a * b)
  | .imulh f => some (intSem (viewS f) fun a b => Int.fdiv (a * b) (2 ^ tiBits (viewS f).sub))
  | .imulhX f => some (intSem (viewXL f) fun a b => Int.fdiv (a * b) (2 ^ tiBits (viewXL f).sub))
  | .imad f => some { f := viewXL f, wa := tiBits (viewXL f).sub, wb := tiBits (viewXL f).sub, wc := tiBits (viewXL f).sub,
                      tg := .regs (wordsFor (tiBits (viewXL f).sub)),
                      value := fun _ x => (putTI (viewXL f).sub (viewXL f).sat
                        (srcTI (viewXL f).sub x.a * srcTI (viewXL f).sub x.b + srcTI (viewXL f).sub x.c), 0) }
  | .idiv f => some (intSem (viewS f) (quotSpec (viewS f).sub))
  | .idivX f => some (intSem (viewXL f) (quotSpec (viewXL f).sub))
  | .irem f => some (intSem (viewS f) fun a b => if b = 0 then a else a - b * Int.tdiv a b)
  | .iremX f => some (intSem (viewXL f) fun a b => if b = 0 then a else a - b * Int.tdiv a b)
  | .imin f => some (intSem (viewS f) fun a b => if a ≤ b then a else b)
  | .iminX f => some (intSem (viewXL f) fun a b => if a ≤ b then a else b)
  | .imax f => some (intSem (viewS f) fun a b => if a ≤ b then b else a)
  | .imaxX f => some (intSem (viewXL f) fun a b => if a ≤ b then b else a)
  | _ => none

/-- The number below 2^n whose bit j is f j. -/
def fromBits (f : Nat → Bool) : Nat → Nat
  | 0 => 0
  | n + 1 => fromBits f n + (if f n then 2 ^ n else 0)

/-- A logic operation on the n-bit patterns, written by Put without saturation (R118). -/
def logicSem (f : Fld) (op : Bool → Bool → Bool) : Sem :=
  { f := f, wa := tiBits f.sub, wb := tiBits f.sub, wc := 0, tg := .regs (wordsFor (tiBits f.sub)),
    value := fun _ x => (putTI f.sub false (fromBits (fun j => op (bitOf x.a j) (bitOf x.b j)) (tiBits f.sub) : Nat), 0) }

/-- A shift of A by the unsigned amount B [31:0], written by Put (R119). -/
def shiftSem (f : Fld) (op : Nat → Nat → Nat → Int) : Sem :=
  { f := f, wa := tiBits f.sub, wb := 32, wc := 0, tg := .regs (wordsFor (tiBits f.sub)),
    value := fun _ x => (putTI f.sub false (op (tiBits f.sub) x.a x.b), 0) }

/-- SHL, SHR, SHA and ROTL of an n-bit pattern u by s (R119). -/
def shlSpec (n u s : Nat) : Int := if n ≤ s then 0 else ((u * 2 ^ s : Nat) : Int)
def shrSpec (n u s : Nat) : Int := if n ≤ s then 0 else ((u / 2 ^ s : Nat) : Int)
def shaSpec (n u s : Nat) : Int := Int.fdiv (signed u n) (2 ^ (if s ≤ n - 1 then s else n - 1))
def rotlSpec (n u s : Nat) : Int := (((u * 2 ^ (s % n) + u / 2 ^ (n - s % n)) % 2 ^ n : Nat) : Int)

/-- The logic and shift instructions (R118, R119). -/
def logicShiftSem : Instr → Option Sem
  | .and f => some (logicSem (viewS f) fun p q => p && q)
  | .andX f => some (logicSem (viewXL f) fun p q => p && q)
  | .or f => some (logicSem (viewS f) fun p q => p || q)
  | .orX f => some (logicSem (viewXL f) fun p q => p || q)
  | .xor f => some (logicSem (viewS f) fun p q => p != q)
  | .xorX f => some (logicSem (viewXL f) fun p q => p != q)
  | .andn f => some (logicSem (viewS f) fun p q => p && !q)
  | .andnX f => some (logicSem (viewXL f) fun p q => p && !q)
  | .shl f => some (shiftSem (viewS f) shlSpec)
  | .shlX f => some (shiftSem (viewXL f) shlSpec)
  | .shr f => some (shiftSem (viewS f) shrSpec)
  | .shrX f => some (shiftSem (viewXL f) shrSpec)
  | .sha f => some (shiftSem (viewS f) shaSpec)
  | .shaX f => some (shiftSem (viewXL f) shaSpec)
  | .rotl f => some (shiftSem (viewS f) rotlSpec)
  | .rotlX f => some (shiftSem (viewXL f) rotlSpec)
  | _ => none

/-- A unary operation of width w that writes w bits (R120). -/
def unarySem (f : Fld) (op : Nat → Nat → Int) : Sem :=
  { f := f, wa := f.wide, wb := 0, wc := 0, tg := .regs (wordsFor f.wide), value := fun _ x => (wrap (op f.wide x.a) f.wide, 0) }

/-- A count that writes one 32-bit register (R120). -/
def countSem (f : Fld) (op : Nat → Nat → Nat) : Sem :=
  { f := f, wa := f.wide, wb := 0, wc := 0, tg := .regs 1, value := fun _ x => (op f.wide x.a, 0) }

/-- A magnitude or a negation at width w: 2^(w-1) wraps to itself, or is 2^(w-1) - 1 under SAT (R120). -/
def satSpec (sat : Bool) (x : Int) (w : Nat) : Int := if sat && decide (x = 2 ^ (w - 1)) then 2 ^ (w - 1) - 1 else x

/-- The unary operations (R120). -/
def unaryInstrSem : Instr → Option Sem
  | .not f => some (unarySem (viewS f) fun w a => (fromBits (fun j => !bitOf a j) w : Nat))
  | .notX f => some (unarySem (viewX f) fun w a => (fromBits (fun j => !bitOf a j) w : Nat))
  | .iabs f => some (unarySem (viewS f) fun w a => if signed a w < 0 then -signed a w else signed a w)
  | .iabsX f => some (unarySem (viewX f) fun w a => satSpec (viewX f).sat (if signed a w < 0 then -signed a w else signed a w) w)
  | .ineg f => some (unarySem (viewS f) fun w a => -signed a w)
  | .inegX f => some (unarySem (viewX f) fun w a => satSpec (viewX f).sat (-signed a w) w)
  | .popc f => some (countSem (viewS f) fun w a => ((List.range w).map fun i => a / 2 ^ i % 2).sum)
  | .popcX f => some (countSem (viewX f) fun w a => ((List.range w).map fun i => a / 2 ^ i % 2).sum)
  | .clz f => some (countSem (viewS f) fun w a => if a = 0 then w else w - 1 - Nat.log2 a)
  | .clzX f => some (countSem (viewX f) fun w a => if a = 0 then w else w - 1 - Nat.log2 a)
  | .ctz f => some (countSem (viewS f) fun w a => ((List.range w).find? fun i => a / 2 ^ i % 2 = 1).getD w)
  | .ctzX f => some (countSem (viewX f) fun w a => ((List.range w).find? fun i => a / 2 ^ i % 2 = 1).getD w)
  | .brev f => some (unarySem (viewS f) fun w a => (fromBits (fun j => bitOf a (w - 1 - j)) w : Nat))
  | .brevX f => some (unarySem (viewX f) fun w a => (fromBits (fun j => bitOf a (w - 1 - j)) w : Nat))
  | _ => none

/-- BFX's field of u under a control word (R121). -/
def bfxSpec (ti u ctl : Nat) : Int :=
  let l := min (ctl / 256 % 256) (tiBits ti)
  let f := u / 2 ^ (ctl % 256) % 2 ^ l
  if tiSigned ti && decide (0 < l) && decide (2 ^ (l - 1) ≤ f) then (f : Int) - 2 ^ l else (f : Int)

/-- BFI's insertion into u of b under a control word: bit j of the result comes from the field where it lies in it (R121). -/
def bfiSpec (n u b ctl : Nat) : Nat :=
  let p := ctl % 256
  let l := ctl / 256 % 256
  fromBits (fun j => if p ≤ j ∧ j < p + l then bitOf b (j - p) else bitOf u j) n

/-- BPERM's result byte for a selector nibble (R122). -/
def bpermByte (a b nib : Nat) : Nat :=
  let byte := (if nib % 8 < 4 then a / 2 ^ (8 * (nib % 8)) else b / 2 ^ (8 * (nib % 8 - 4))) % 256
  if 8 ≤ nib then (if 128 ≤ byte then 0xFF else 0) else byte

/-- A condition on two w-bit patterns by its code (R77, R124). -/
def condSpec (code w a b : Nat) : Bool :=
  match code with
  | 0 => decide (a = b)
  | 1 => decide (a ≠ b)
  | 2 => decide (signed a w < signed b w)
  | 3 => decide (signed a w ≤ signed b w)
  | 4 => decide (signed a w > signed b w)
  | 5 => decide (signed a w ≥ signed b w)
  | 6 => decide (a < b)
  | 7 => decide (a ≤ b)
  | 8 => decide (a > b)
  | _ => decide (a ≥ b)

/-- Bit fields, permutation, selection, comparison and moves (R121 to R128). -/
def moveSem : Instr → Option Sem
  | .bfx f => some { f := viewXL f, wa := tiBits (viewXL f).sub, wb := 32, wc := 0, tg := .regs (wordsFor (tiBits (viewXL f).sub)),
                     value := fun _ x => (putTI (viewXL f).sub false (bfxSpec (viewXL f).sub x.a x.b), 0) }
  | .bfi f => some { f := viewXL f, wa := tiBits (viewXL f).sub, wb := tiBits (viewXL f).sub, wc := 32,
                     tg := .regs (wordsFor (tiBits (viewXL f).sub)), value := fun _ x => (bfiSpec (tiBits (viewXL f).sub) x.a x.b x.c, 0) }
  | .bperm f => some { f := viewXL f, wa := 32, wb := 32, wc := 32, tg := .regs 1,
                       value := fun _ x => (bpermByte x.a x.b (x.c % 16) + bpermByte x.a x.b (x.c / 2 ^ 4 % 16) * 2 ^ 8
                         + bpermByte x.a x.b (x.c / 2 ^ 8 % 16) * 2 ^ 16 + bpermByte x.a x.b (x.c / 2 ^ 12 % 16) * 2 ^ 24, 0) }
  | .sel f => some { f := viewXL f, wa := tiBits (viewXL f).sub, wb := tiBits (viewXL f).sub, wc := 32,
                     tg := .regs (wordsFor (tiBits (viewXL f).sub)),
                     value := fun _ x => (putTI (viewXL f).sub false (if x.c = 0 then srcTI (viewXL f).sub x.b else srcTI (viewXL f).sub x.a), 0) }
  | .icmp f => some { f := viewS f, wa := 32, wb := 32, wc := 0, tg := .pred, value := fun _ x => (if condSpec (viewS f).sub 32 x.a x.b then 1 else 0, 0) }
  | .icmpX f => some { f := viewXL f, wa := (viewXL f).wide, wb := (viewXL f).wide, wc := 0, tg := .pred,
                       value := fun _ x => (if condSpec (viewXL f).sub (viewXL f).wide x.a x.b then 1 else 0, 0) }
  | .plop f => some { f := { viewS f with a := .p (f.a.toNat % 8), b := .p (f.b.toNat % 8) }, wa := 32, wb := 32, wc := 0, tg := .pred,
                      value := fun _ x => (f.m.toNat / 2 ^ (2 * (x.a % 2) + x.b % 2) % 2, 0) }
  | .plopX f => some { f := viewX f, wa := 32, wb := 32, wc := 0, tg := .pred,
                       value := fun _ x => (f.sub.toNat / 2 ^ (2 * (x.a % 2) + x.b % 2) % 2, 0) }
  | .lea f => some { f := viewXL f, wa := 64, wb := 32, wc := 0, tg := .regs 2,
                     value := fun _ x => (wrap ((x.a : Int) + (if bitOf (viewXL f).w2 12 then signed x.b 32 else (x.b : Int))
                       * 2 ^ ((viewXL f).w2 / 2 ^ 9 % 8)) 64, 0) }
  | .mov f => some { f := viewS f, wa := 0, wb := tiBits (viewS f).sub, wc := 0, tg := .regs (wordsFor (tiBits (viewS f).sub)),
                     value := fun _ x => (putTI (viewS f).sub false (srcTI (viewS f).sub x.b), 0) }
  | .movX f => some { f := viewXL f, wa := 0, wb := tiBits (viewXL f).sub, wc := 0, tg := .regs (wordsFor (tiBits (viewXL f).sub)),
                      value := fun _ x => (putTI (viewXL f).sub false (srcTI (viewXL f).sub x.b), 0) }
  | .movk f => some { f := viewS f, wa := 0, wb := 32, wc := 0, tg := .regs 1,
                      ok := fun _ x => x.b < x.band.width ∧ ∃ v, x.band.readOpnd x.fresh x.b (viewS f).a 32 (4 + x.t) = .ok v,
                      value := fun _ x => ((x.band.readOpnd x.fresh x.b (viewS f).a 32 (4 + x.t)).toOption.getD 0, 0) }
  | .movkX f => some { f := viewX f, wa := 0, wb := 32, wc := 0, tg := .regs 1,
                       ok := fun _ x => x.b < x.band.width ∧ ∃ v, x.band.readOpnd x.fresh x.b (viewX f).a 32 (4 + x.t) = .ok v,
                       value := fun _ x => ((x.band.readOpnd x.fresh x.b (viewX f).a 32 (4 + x.t)).toOption.getD 0, 0) }
  | .ldi f => some { f := viewI f, wa := 0, wb := 0, wc := 0, tg := .regs 1,
                     value := fun _ _ => (if f.imm.toNat < 2 ^ 15 then f.imm.toNat else 2 ^ 32 - 2 ^ 16 + f.imm.toNat, 0) }
  | .ldiLiteral f lit => some { f := viewI f, wa := 0, wb := 0, wc := 0, tg := .regs 1, value := fun _ _ => (lit.toNat % 2 ^ 32, 0) }
  | _ => none

/-! ### The float instructions (R129 to R136) -/

/-- A float instruction with n operands of a TF type (R129, R130). -/
def floatSem (f : Fld) (n : Nat) (op : ElOp) : Sem :=
  { f := f, wa := 32, wb := if 2 ≤ n then 32 else 0, wc := if 3 ≤ n then 32 else 0, tg := .regs 1,
    value := fun _ x => floatThread f.sub f.rnd false op x }

/-- The arithmetic of R131 with its special cases and signs (R132, R133), FMIN and FMAX (R134). -/
def floatInstrSem : Instr → Option Sem
  | .fadd f => some (floatSem (viewS f) 2 faddEl)
  | .faddX f => some (floatSem (viewXL f) 2 faddEl)
  | .fsub f => some (floatSem (viewS f) 2 fsubEl)
  | .fsubX f => some (floatSem (viewXL f) 2 fsubEl)
  | .fmul f => some (floatSem (viewS f) 2 fmulEl)
  | .fmulX f => some (floatSem (viewXL f) 2 fmulEl)
  | .ffma f => some (floatSem (viewXL f) 3 ffmaEl)
  | .fmin f => some (floatSem (viewS f) 2 (fminmaxEl false))
  | .fminX f => some (floatSem (viewXL f) 2 (fminmaxEl false))
  | .fmax f => some (floatSem (viewS f) 2 (fminmaxEl true))
  | .fmaxX f => some (floatSem (viewXL f) 2 (fminmaxEl true))
  | .frcp f => some (floatSem (viewS f) 1 frcpEl)
  | .frcpX f => some (floatSem (viewX f) 1 frcpEl)
  | .frsq f => some (floatSem (viewS f) 1 frsqEl)
  | .frsqX f => some (floatSem (viewX f) 1 frsqEl)
  | .fsqrt f => some (floatSem (viewS f) 1 fsqrtEl)
  | .fsqrtX f => some (floatSem (viewX f) 1 fsqrtEl)
  | .fdiv f => some (floatSem (viewS f) 2 fdivEl)
  | .fdivX f => some (floatSem (viewXL f) 2 fdivEl)
  | .fexp2 f => some (floatSem (viewS f) 1 fexp2El)
  | .fexp2X f => some (floatSem (viewX f) 1 fexp2El)
  | .flog2 f => some (floatSem (viewS f) 1 flog2El)
  | .flog2X f => some (floatSem (viewX f) 1 flog2El)
  | .fsin f => some (floatSem (viewS f) 1 fsinEl)
  | .fsinX f => some (floatSem (viewX f) 1 fsinEl)
  | .fcos f => some (floatSem (viewS f) 1 fcosEl)
  | .fcosX f => some (floatSem (viewX f) 1 fcosEl)
  | .ftanh f => some (floatSem (viewS f) 1 ftanhEl)
  | .ftanhX f => some (floatSem (viewX f) 1 ftanhEl)
  | .frnd f => some (floatSem (viewS f) 1 frndEl)
  | .frndX f => some (floatSem (viewX f) 1 frndEl)
  | .fscale f => some { floatSem (viewS f) 2 fscaleEl with value := fun _ x => floatThread (viewS f).sub (viewS f).rnd true fscaleEl x }
  | .fscaleX f => some { floatSem (viewXL f) 2 fscaleEl with value := fun _ x => floatThread (viewXL f).sub (viewXL f).rnd true fscaleEl x }
  | _ => none

/-- A condition on two values by its code; NaNs are unordered (R135). -/
def fcondSpec (code : Nat) (x y : Fv) : Bool :=
  let nan := decide (x = .nan ∨ y = .nan)
  match code with
  | 0 => !nan && decide (Fv.cmp x y = .eq)
  | 1 => nan || decide (Fv.cmp x y ≠ .eq)
  | 2 => !nan && decide (Fv.cmp x y = .lt)
  | 3 => !nan && decide (Fv.cmp x y = .lt ∨ Fv.cmp x y = .eq)
  | 4 => !nan && decide (Fv.cmp x y = .gt)
  | 5 => !nan && decide (Fv.cmp x y = .gt ∨ Fv.cmp x y = .eq)
  | 6 => nan
  | _ => !nan

/-- FCMP and FCLASS (R135, R136). -/
def floatTestSem : Instr → Option Sem
  | .fcmp f => some { f := viewS f, wa := 32, wb := 32, wc := 0, tg := .pred,
                      value := fun _ x => (if fcondSpec (viewS f).sub (Fmt.f32.decode x.a) (Fmt.f32.decode x.b) then 1 else 0, 0) }
  | .fcmpX f => some { f := viewXL f, wa := 32, wb := 32, wc := 0, tg := .pred,
                       value := fun _ x => (if fcondSpec (viewXL f).sub ((tfFmt (viewXL f).mf).1.decode x.a) ((tfFmt (viewXL f).mf).1.decode x.b) then 1 else 0, 0) }
  | .fclass f => some { f := viewS f, wa := 32, wb := 0, wc := 0, tg := .regs 1, value := fun _ x => (classMask (tfFmt (viewS f).sub).1 x.a, 0) }
  | .fclassX f => some { f := viewX f, wa := 32, wb := 0, wc := 0, tg := .regs 1, value := fun _ x => (classMask (tfFmt (viewX f).sub).1 x.a, 0) }
  | _ => none

/-! ### Conversion and narrow formats (R137 to R146) -/

/-- CVT's value by its forms: a pair packed from two FP32 values, or one element converted (R138, R139). -/
def cvtValue (f : Fld) (x : In) : Nat × Nat :=
  if !bitOf f.w2 10 && (f.mf = 3 || f.mf = 4) then
    let fm := (tfFmt f.mf).1
    let r0 := convF fm (Fmt.f32.decode x.a) f.rnd f.sat x.sr
    let r1 := convF fm (Fmt.f32.decode x.b) f.rnd f.sat (if r0.2 = 1 then x.sr.next else x.sr)
    (r0.1 + 2 ^ 16 * r1.1, r0.2 + r1.2)
  else
    let src := if !bitOf f.w2 9 && (f.sub = 3 || f.sub = 4) then (tfFmt f.sub).1.decode (if bitOf f.w2 11 then x.a / 2 ^ 16 else x.a)
      else cvtSource (bitOf f.w2 9) f.sub x.a
    cvtElement (bitOf f.w2 10) f.mf src f.rnd f.sat x.sr

/-- The conversions (R138 to R145). -/
def convertSem : Instr → Option Sem
  | .cvt f =>
    let v := viewXL f
    let two := !bitOf v.w2 10 && (v.mf = 3 || v.mf = 4)
    some { f := v, wa := if two then 32 else if bitOf v.w2 9 then tiBits v.sub else 32, wb := if two then 32 else 0, wc := 0,
           tg := .regs (if two then 1 else if bitOf v.w2 10 then wordsFor (tiBits v.mf) else 1), value := fun _ x => cvtValue v x }
  | .scalex f => some { f := viewXL f, wa := 32, wb := 0, wc := 0, tg := .regs 1, ok := fun _ x => ∃ v, x.old (viewXL f) = .ok v,
                        value := fun _ x => (setBits ((x.old (viewXL f)).toOption.getD 0) (8 * (viewXL f).bsel) 8
                          (scaleByte (viewXL f).sub (Fmt.f32.decode x.a)), 0) }
  | .qpack f =>
    let v := viewXL f
    let n := if v.sub = 7 then 8 else 4
    some { f := v, wa := 32 * n, wb := 32, wc := 0, tg := .regs 1,
           value := fun _ x => convList (32 / n) (fun y sr => if v.scaleOf x.b = 255 || y.isNan then ((fmtOf v.sub).nan, 0)
             else convF (fmtOf v.sub) (y.scale (127 - (v.scaleOf x.b : Int))) v.rnd v.sat sr) (groupVals x.a n) x.sr }
  | .qunpk f =>
    let v := viewXL f
    let n := if v.sub = 7 then 8 else 4
    some { f := v, wa := 32, wb := 32, wc := 0, tg := .regs n,
           value := fun _ x => convList 32 (fun y sr => if v.scaleOf x.b = 255 then (Fmt.f32.nan, 0)
             else roundFv .f32 (y.scale ((v.scaleOf x.b : Int) - 127)) v.rnd sr)
             ((List.range n).map fun j => (fmtOf v.sub).decode (x.a / 2 ^ (32 / n * j))) x.sr }
  | .cbenc f =>
    let v := viewXL f
    some { f := v, wa := 256, wb := 32, wc := 0, tg := .regs 1, ok := fun _ x => ∃ y, x.old v = .ok y,
           value := fun s x => (setBits ((x.old v).toOption.getD 0) (16 * bits v.w2 9 9) 16 (if v.scaleOf x.b = 255 then 0
             else vq2Nearest (s.codebook (coreCluster x.core) x.t (bits v.w2 10 10)) ((groupVals x.a 8).map fun y => vq2Clamp y (v.scaleOf x.b)) 65536), 0) }
  | .cbdec f =>
    let v := viewXL f
    some { f := v, wa := 32, wb := 32, wc := 0, tg := .regs 8,
           value := fun s x =>
             let q := x.a / 2 ^ (16 * bits v.w2 9 9) % 2 ^ 16
             convList 32 (fun y sr => if v.scaleOf x.b = 255 then (Fmt.f32.nan, 0) else roundFv .f32 y v.rnd sr)
               ((vq2Halves (s.codebook (coreCluster x.core) x.t (bits v.w2 10 10) (q / 256)) q).map fun h => (fvOfInt h).scale ((v.scaleOf x.b : Int) - 128)) x.sr }
  | _ => none

/-- A step of a unit acts: it answers a next state, of which something holds. -/
def Acts (e : Instr) (s : State) (p : State → Prop) : Prop := ∃ t, exec e s = .next t ∧ p t

/-! ### Counted accesses (R186 to R209) -/

/-- The accesses of a counted run stand in their threads' queues (R193, M1 of R285): the parts posted, the group counted on the band, the
destination's names mapped within the quota, the last-read bits applied and the run advanced. No byte of memory has changed, and nothing
else of the machine but the number of the next access and the addresses noted for the loop watch unit. -/
structure Issued (s t : State) (b b' : Band) (f : Fld) (wa wb wc : Nat) (tg : Target) (cls : Cls) (dest : Dest) (sh : Shape)
    (parts : List Part) : Prop where
  machine : t = { (s.post s.issue.key b cls dest sh parts).1 with
                    bands := Tbl.put s.bands s.issue.key b', issue := { s.issue with loads := t.issue.loads } }
  memory : t.mem = s.mem
  band : b' = { b with threads := b'.threads, regs := b'.regs, groups := (s.post s.issue.key b cls dest sh parts).2.groups }
  vregs : ∀ n j, b'.vreg? n j = if n ∈ f.lastReadNames wa wb wc ∧ j ∈ s.issue.threads then none else b.vreg? n j
  mapped : parts ≠ [] → ∀ n ∈ f.destNames tg, (b'.reg? n).isSome = true
  threads : ∀ j, b'.thread j = if j ∈ s.issue.threads then (b.thread j).retired s.issue else b.thread j

/-- The destination's names fit the band's quota once the last-read bits have acted (R55, R56). -/
def Fits (s : State) (b : Band) (f : Fld) (wa wb wc : Nat) (names : List Nat) : Prop :=
  ((b.lastReads f wa wb wc s.issue.threads).prune names).mapped
    + (((b.lastReads f wa wb wc s.issue.threads).prune names).unmapped names).length ≤ b.quota

/-- The address of a thread's access of operands x and y: 64 bits for global memory, 32 for a scratchpad or the weight store (R186, R188). -/
def addrSpec (f : Fld) (space x y : Nat) : Nat :=
  (((x : Int) + y + (if f.isX then signed f.w2 32 else 0)) % (2 : Int) ^ (if space = 0 then 64 else 32)).toNat

/-- The loads and stores of threads: fields, space, and whether it stores (R196, R197, R200). -/
def accessOf : Instr → Option (Fld × Nat × Bool)
  | .ld f => some (viewS f, 0, false)
  | .ldX f => some (viewX f, (viewX f).space, false)
  | .ldw f => some (viewS f, 2, false)
  | .ldwX f => some (viewX f, 2, false)
  | .st f => some (viewS f, 0, true)
  | .stX f => some (viewX f, (viewX f).space, true)
  | _ => none

/-- ATOM and RED: fields, and whether the old value returns (R207, R209). -/
def atomicOf : Instr → Option (Fld × Bool)
  | .atom f => some (viewXL f, true)
  | .red f => some (viewXL f, false)
  | _ => none

/-! ### Band operations (R147 to R160) -/

/-- The band operations: fields, the widths of A and C, and the destination. -/
def bandOp : Instr → Option (Fld × Nat × Nat × Target)
  | .vote f => some (viewXL f, 32, 0, .pred)
  | .shfl f => some (viewXL f, 32, 32, .regs 1)
  | .bred f => some (viewXL f, (viewXL f).redBits, 0, .regs (wordsFor (viewXL f).redBits))
  | .bscan f => some (viewXL f, (viewXL f).redBits, 0, .regs (wordsFor (viewXL f).redBits))
  | .matchOp f => some (viewXL f, (viewXL f).wide, 0, .regs 2)
  | .elect f => some (viewXL f, 0, 0, .pred)
  | .barb f => some (viewXL f, 0, 0, .none)
  | _ => none

/-- What a completing issue of a band operation computes (R153 to R159). -/
def bandResults (i : Instr) (x : Issue) : Rd (List Res) :=
  match i with
  | .vote _ => x.vote
  | .shfl _ => x.shfl
  | .bred _ => x.bred
  | .bscan _ => x.bscan
  | .matchOp _ => x.matchOf
  | .elect _ => .ok x.elect
  | _ => .ok []

/-- A thread is parked at a band operation's instance with a member mask (R149, R85). -/
def Band.ParkedAt (b : Band) (depth pc rep mask j : Nat) : Prop :=
  (b.thread j).state = .atOp ∧ (b.thread j).park = .op mask ∧ (b.thread j).depth = depth ∧ (b.thread j).pc = pc ∧ (b.thread j).rep = rep

/-- The run of the issue register has parked at its instance under a mask: its threads and nothing else of the band but MX, the completed
instances, and a member-divergence fault with what it resets (R149, R150, R332). The instance is complete exactly if no named thread is missing. -/
structure Parked (s t : State) (b b' : Band) (mask : Nat) : Prop where
  machine : t = { s with bands := Tbl.put s.bands s.issue.key b' }
  band : b' = { b with threads := b'.threads, done := b'.done, mx := b'.mx, qov := b'.qov, fault := b'.fault, tracker := b'.tracker }
  threads : ∀ j, b'.thread j = if j ∈ s.issue.threads then
      { b.thread j with state := .atOp, park := .op mask, rep := if s.issue.inRep then s.issue.rep else 0 } else b.thread j
  fault : ∀ x, b.fault = some x → b'.fault = some x
  done : ∀ d ∈ b.done, d ∈ b'.done
  complete : (∀ j ∈ members mask b.width, (b'.thread j).state = .exited ∨
      b'.ParkedAt s.issue.depth s.issue.pc (if s.issue.inRep then s.issue.rep else 0) mask j) →
    ∃ d ∈ b'.done, d.depth = s.issue.depth ∧ d.pc = s.issue.pc ∧ d.rep = if s.issue.inRep then s.issue.rep else 0
  missing : (∃ j ∈ members mask b.width, (b'.thread j).state ≠ .exited ∧
      ¬ b'.ParkedAt s.issue.depth s.issue.pc (if s.issue.inRep then s.issue.rep else 0) mask j) →
    ∀ d ∈ b'.done, (d.depth = s.issue.depth ∧ d.pc = s.issue.pc ∧ d.rep = if s.issue.inRep then s.issue.rep else 0) → d ∈ b.done

/-- The trap frame's fields, by their bytes: RPC, FPC, WORD, CAUSE, REASON, REPI, INREP, CODE, DEPTH and ADDR, with zeros between (R174). -/
def FrameFields : Prop :=
  ∀ (c : Core) (r : Run) (th : Thread) (t : TrapInfo) (addr : Nat), (∀ o ∈ c.overlays, ∀ n, o.ovid = some n → n < 65536) → r.pc < 65536 →
    t.cause < 256 → t.reason < 256 → r.rep < 64 → t.code < 65536 → th.depth < 256 → addr < 2 ^ 64 →
    let x := frameOf c r th t addr
    let ov := fun pc => ((c.overlays.getD (pc / 16384) {}).ovid).getD 0
    let rpc := (r.pc + t.skip) % 65536
    bits x 31 0 = ov rpc * 65536 + rpc ∧ bits x 63 32 = ov r.pc * 65536 + r.pc ∧ bits x 95 64 = t.word.toNat ∧ bits x 103 96 = t.cause ∧
    bits x 111 104 = t.reason ∧ bits x 119 112 = (if r.inRep then r.rep else 0) ∧ bits x 127 120 = (if r.inRep then 1 else 0) ∧
    bits x 143 128 = t.code ∧ bits x 151 144 = th.depth ∧ bits x 191 152 = 0 ∧ bits x 255 192 = addr ∧ x < 2 ^ 256

/-- The results of a completing issue stand in its band (R149, R151): each in its thread's destination; the present threads go on past the
operation, ready or halted with their band; the instance is over; no other register, predicate or thread has changed. -/
structure Finished (b b' : Band) (d : Done) (len : Nat) (f : Fld) (tg : Target) (recv : List Nat) (rs : List Res) : Prop where
  band : b' = { b with threads := b'.threads, regs := b'.regs, done := b'.done }
  done : ∀ e, e ∈ b'.done ↔ e ∈ b.done ∧ ¬ (e.depth = d.depth ∧ e.pc = d.pc ∧ e.rep = d.rep)
  threads : ∀ j, b'.thread j = if j ∈ d.present then
      { b.thread j with state := if b.halted then .halted else .ready, park := .none, pc := ((b.thread j).pc + len) % 65536, rep := 0,
                        preds := (b'.thread j).preds, rndctr := (b'.thread j).rndctr }
    else b.thread j
  results : ∀ r ∈ rs, match tg with
    | .regs n => ∀ w < n, b'.vreg? (f.d + w) r.thread = some (wordOf r.val w)
    | .pred => f.d % 8 ≠ 7 → bitOf (b'.thread r.thread).preds (f.d % 8) = decide (r.val % 2 = 1)
    | .none => True
  vregs : ∀ n j, n ∉ f.destNames tg ∨ j ∉ recv → b'.vreg? n j = b.vreg? n j
  preds : ∀ j p, tg ≠ .pred ∨ j ∉ recv ∨ p ≠ f.d % 8 ∨ p = 7 → bitOf (b'.thread j).preds p = bitOf (b.thread j).preds p

/-- The instance that a run completes which holds every thread that its mask names (R149). -/
def State.wholeDone (s : State) (mask : Nat) : Done :=
  { depth := s.issue.depth, pc := s.issue.pc, rep := 0, mask := mask, present := s.issue.threads, exited := [] }

/-- A band whose run has parked at an instance that is complete with it (R149). -/
def State.allParked (s : State) (b : Band) (mask : Nat) : Band :=
  { b.modThreads s.issue.threads (fun _ th => { th with state := .atOp, park := .op mask, rep := 0 }) with done := [s.wholeDone mask] }

/-- A run that holds every thread its mask names, at an operation of a band that may issue and at which no thread is parked (R148, R149,
R268). -/
structure Whole (s : State) (b : Band) (i : Instr) (mask : Nat) : Prop where
  runs : Runs s b
  named : s.issue.threads = members mask b.width
  some' : s.issue.threads ≠ []
  fits : mask < 2 ^ b.width
  single : s.issue.inRep = false
  at' : ∀ t ∈ s.issue.threads, (b.thread t).depth = s.issue.depth ∧ (b.thread t).pc = s.issue.pc ∧ (b.thread t).state = .ready
  alone : ∀ th ∈ b.threads, th.state ≠ .atOp
  idle : b.done = []
  may : s.mayIssue s.issue.key b = true
  holds : b.stopHolds = false
  word : Decode.decodeAt s.issue.pc (s.wordsFrom s.issue.core s.issue.pc) = .ok (i, s.issue.len)

/-! ### Gangs (R380) -/

/-- The flights that a gang's parts would become, by their numbers. -/
def State.gangFlights (s : State) (q : Nat) (x : Queue) (as : List Nat) (ks : List Kern) : List (Nat × Flight) :=
  (as.zip ks).zipIdx.map fun p =>
    (s.nextFlight + p.2, { s.flightOf q x (launchOf (s.packetAt x.primary.ctx p.1.1)) p.1.2 p.1.1 (x.primary.ridx + 1 + p.2) with
      gang := some s.nextId, started := true })

/-- Whether every team of a gang's flights finds room at once: the parts may run beside each other and the flights of the device (R378), and
their teams are placed one after the other. -/
def State.gangRoom (s : State) (fs : List (Nat × Flight)) : Bool :=
  let s1 : State := { s with flights := fs.foldl (fun t p => Tbl.put t p.1 p.2) s.flights, nextId := s.nextId + 1,
                             nextFlight := (s.nextFlight + fs.length) % 2 ^ 32 }
  (fs.all fun p => s.partMay p.2 ((fs.filter fun r => r.1 ≠ p.1).map (·.2)))
    && (fs.foldl (fun (o : Option State) p => o.bind fun s => s.placePart p.1 p.2) (some s1)).isSome

/-! ### Reads of the machine (R160, R179, R182) -/

/-- SREG's register n (R60). -/
def sregSem (f : Fld) : Option Sem :=
  let n := f.w2 % 256
  if n ≤ 0x18 then some { f := f, wa := 0, wb := 0, wc := 0, tg := .regs (if n = 0x12 ∨ n = 0x13 then 2 else 1),
                          value := fun s x => ((s.sreg x.band n x.t).getD 0, 0) }
  else none

/-- ACTV's mask: one bit for each guarded thread of the run (R160). -/
def actvSem (f : Fld) : Sem :=
  { f := f, wa := 0, wb := 0, wc := 0, tg := .regs 2,
    value := fun s x => (fromBits (fun j => decide (j ∈ s.issue.threads) &&
      ((if f.g = 7 then true else bitOf (x.band.thread j).preds f.g) != f.gn)) 64, 0) }

/-- SREG, ACTV and PERFR, for the numbers and selectors that name something (R60, R182). -/
def machineReadSem : Instr → Option Sem
  | .sreg f => sregSem (viewI f)
  | .sregX f => sregSem (viewX f)
  | .actv f => some (actvSem (viewS f))
  | .actvX f => some (actvSem (viewX f))
  | .perfr f =>
    let sel := (viewX f).w2 % 65536
    if sel ≤ 9 ∨ (0x1000 ≤ sel ∧ sel ≤ 0x1FFF ∧ sel / 64 % 4 ≠ 3) then
      some { f := viewX f, wa := 0, wb := 0, wc := 0, tg := .regs 2, value := fun s x => ((s.perfCounter x.core sel).getD 0, 0) }
    else none
  | _ => none

/-! ### Tile operations (R228, R229) -/

/-- The engine of the issue register's cluster. -/
def State.engine (s : State) : Engine := s.eng (coreCluster s.issue.core)

/-- The tile operations: fields, and the widths of A and B. -/
def tileInstr : Instr → Option (Fld × Nat × Nat)
  | .mma f => some (viewX f, 64, 0)
  | .rslv f => some (viewX f, 0, 0)
  | .acld f => some (viewX f, if (viewX f).sub % 2 = 0 then 64 else 32, 0)
  | .acst f => some (viewX f, if (viewX f).sub % 2 = 0 then 64 else 32, 0)
  | .acmp f => some (viewX f, 0, 0)
  | .acz f => some (viewS f, 0, 0)
  | .aczX f => some (viewX f, 0, 0)
  | .acmov f => some (viewX f, 0, 0)
  | .mptbl f => some (viewX f, if bits (viewX f).sub 1 1 = 0 then 64 else 32, 0)
  | .mcbtbl f => some (viewX f, if bits (viewX f).sub 1 1 = 0 then 64 else 32, 0)
  | .mroute f => some (viewX f, 0, 0)
  | .mxqPush f => some (viewX f, 32, 32)
  | .mxqInit f => some (viewX f, 32, 32)
  | _ => none

/-- What a tile operation needs at its issue beside its own checks: its slots are not another context's (R402), the table has a free
entry, and the band's tl counter has room (R229). -/
def CanPost (s : State) (b : Band) (op : TileOp) : Prop :=
  (∀ n ∈ op.slots, (s.engine.slot n).owner = none ∨ (s.engine.slot n).owner = some (s.bandCtx b)) ∧ s.engine.live.length < 32 ∧ b.roomFor .tl = true

/-- A tile operation stands in the reservation table (R228, R229, R300, R402): one new entry, posted for thread `th`, behind every other but those
that cores of higher cluster position posted in the same cycle; one count of class tl more, its unowned slots claimed, and the run retired. Nothing else of the machine changes; `b` is the band at the post. -/
structure Posted (s t : State) (b b' : Band) (f : Fld) (wa wb : Nat) (op : TileOp) (th : Nat) (dest : Dest) (ts : List Nat) : Prop where
  machine : t = { s with nextId := s.nextId + 1, bands := Tbl.put s.bands s.issue.key b', clusters := t.clusters }
  band : b' = { b with threads := b'.threads, regs := b'.regs, groups := b'.groups }
  group : ∃ g : Group, b'.groups = b.groups ++ [g] ∧ g.gid = s.nextId ∧ g.cls = .tl ∧ g.dest = dest ∧
    ∀ j, Tbl.get g.left j 0 = if j ∈ ts then 1 else 0
  entry : ∃ e : Entry, t.engine.table = (s.engine.enter e).table ∧ e.op = op ∧ e.gid = s.nextId ∧ e.thread = th ∧ e.uid = b.uid ∧
    e.ctx = s.bandCtx b ∧ e.core = s.issue.core ∧ e.posted = s.cycleAt s.issue.core ∧ e.retired = false ∧ e.started = false ∧
    e.passing = false ∧ e.passesDone = false ∧ e.ring = false ∧ e.pc = s.issue.pc ∧
    ((∀ p ∈ s.engine.table, p.2.posted = e.posted → p.2.core ≤ e.core) → Tbl.find? t.engine.table s.engine.nextEntry = some e ∧
      ∀ n, n ≠ s.engine.nextEntry → Tbl.find? t.engine.table n = Tbl.find? s.engine.table n)
  clusters : ∀ c, c ≠ coreCluster s.issue.core → t.cluster c = s.cluster c
  slots : ∀ n, t.engine.slot n = if n ∈ op.slots ∧ (s.engine.slot n).owner = none then { s.engine.slot n with owner := some (s.bandCtx b) }
    else s.engine.slot n
  vregs : LastReadsOnly b b' f wa wb 0 s.issue.threads
  threads : ∀ j, b'.thread j = if j ∈ s.issue.threads then (b.thread j).retired s.issue else b.thread j

end Sys2Proof.Machine
end

