-- ==== Sys2Proof/Certificates/Slice0/Obligations.lean ====
section
/-!
DEFINITION. Sys2Proof/Certificates/Slice0/Obligations.lean: the statements for the provers, most of them from the numbered rules of the spec.
-/
open Sys2Proof Sys2Proof.Machine


/-! ### Encoding, decoding and the step (R64 to R87, R47, R48, R86, R268) -/

/-- R64, R67, R70, R79, R81: decode of encode. At every word index where its target check passes, and with any words after it, the words
of every well-formed instruction decode to that instruction, every operand and literal at every value the encoding admits. -/
def Obligations.RoundTrip : Prop :=
  ∀ (i : Instr) (op : Nat) (f : Form) (pc : Nat) (rest : List Word), i.wellFormed = true → i.form? = some (op, f) →
    Decode.branchReason pc f = none → Decode.decodeAt pc (encode i ++ rest) = .ok (i, (encode i).length)

/-- R64, R66, R79: whatever decodes is a well-formed instruction of the first kind, and its words are again the words that were read: no bit
of a word is dropped, and no two words stand for one instruction. -/
def Obligations.DecodedReencodes : Prop :=
  ∀ (pc : Nat) (ws : List Word) (i : Instr) (n : Nat), Decode.decodeAt pc ws = .ok (i, n) →
    i.wellFormed = true ∧ isEvent i = false ∧ encode i = ws.take n ∧ n = (encode i).length ∧ n ≤ ws.length

/-- R64, R67, R70, R80, R81: words written out from the encoding tables decode to the instructions they stand for. -/
def Obligations.DecodedWords : Prop :=
  decode [0b0000_000010_000001_000011_00000001_00#32] = some (.iadd { m := 0, b := 2, a := 1, d := 3 }, 1) ∧
  decode [0b1111111111111110_000101_00011101_00#32] = some (.ldi { imm := 0xFFFE, d := 5 }, 1) ∧
  decode [0b000000000000000011_1_010_01100000_00#32] = some (.bra { off := 3, gn := 1, g := 2 }, 1) ∧
  decode [0b111_11_00000111_1_00001000_00000001_01#32, 0b0000_0000_0_0_1_1_00_00000000_00_01000000#32, 0#32] = none ∧
  decode [0b101_00_00000111_0_01001000_00010000_01#32, 0b0000_0000_0_0_1_1_00_00000000_00_01000000#32, 0#32]
    = some (.shlX (.x { g := 5, ac := 0, a := 7, dc := 0, d := 72, mf := 0, sub := 0, lc := 0, lb := 0, la := 1, gn := 1, cc := 0, c := 0,
                        bc := 0, b := 64, w2 := 0 }), 3) ∧
  decode [0b0000_000000_000001_000011_00000001_10#32, 0x89ABCDEF#32, 0#32]
    = some (.iaddX (.sLit { m := 0, b := 0, a := 1, d := 3 } 0x89ABCDEF), 3)

/-- R64, R65, R79, R80, R87: the first checks of decoding by their reason codes: words missing to the end of the slot's loaded length,
an unassigned opcode, a LEN that the opcode does not accept, and a Form B target outside the slot. -/
def Obligations.RefusedEncodings : Prop :=
  (∀ pc, Decode.decodeAt pc [] = .error 1) ∧
  (∀ pc (w : Word) r, Decode.opOf w ≠ 0x7F → r.length + 1 < Decode.wordsOf (Decode.lenOf w) → Decode.decodeAt pc (w :: r) = .error 1) ∧
  (∀ pc (w : Word) r, Decode.opOf w ≠ 0x7F → Decode.wordsOf (Decode.lenOf w) ≤ r.length + 1 → Legal.opInfo (Decode.opOf w) = none →
    Decode.decodeAt pc (w :: r) = .error 2) ∧
  (∀ pc (w : Word) r short lens, Decode.opOf w ≠ 0x7F → Decode.wordsOf (Decode.lenOf w) ≤ r.length + 1 →
    Legal.opInfo (Decode.opOf w) = some (short, lens) → Decode.lenOf w ∉ lens → Decode.decodeAt pc (w :: r) = .error 3) ∧
  (∀ pc r, Decode.decodeAt pc (0#32 :: r) = .error 2) ∧
  (∀ pc r, 4 ≤ r.length → Decode.decodeAt pc (0xFFFFFFFF#32 :: r) = .error 2) ∧
  (∀ (pc : Nat) (f : FormB) r, (pc : Int) + f.off.toInt < (pc / 16384 * 16384 : Nat) ∨ (pc / 16384 * 16384 + 16384 : Nat) ≤ (pc : Int) + f.off.toInt →
    pc < 65536 → Decode.decodeAt pc (encode (.bra f) ++ r) = .error 9 ∧ Decode.decodeAt pc (encode (.call f) ++ r) = .error 9)

/-- R48, R64, R86, R268: a lane's turn runs the decoded instruction. Where the lane's first slot in rotation holds a band that may issue and
offers a run, and the words at the run's PC decode, the step is the instruction's meaning on the issue register filled with the run, and
what follows a retired run; a run that is held leaves the turn to the next slot, of which here the others are empty. The words that do not decode take the illegal-instruction
trap. Around it, the step's number and the clocks advance, and the schedulers' marks follow. -/
def Obligations.StepRunsDecoded : Prop :=
  ∀ (s : State) (core lane slot : Nat) (rest : List Choice) (slots : List Nat) (b : Band) (o : Offer),
    s.agenda = .turn core lane :: rest → (s.lane (core * 64 + lane)).order = slot :: slots →
    let s1 := { s with agenda := rest }.tick
    let s2 := s1.setLane (core * 64 + lane) { s.lane (core * 64 + lane) with skip := none }
    let k := slotKey core lane slot
    let th := b.thread (o.threads.headD 0)
    lane < 64 → slot < 4 → s2.band? k = some b → s2.mayIssue k b = true → b.pastEnd = false →
    (b.stepping.isSome ∨ b.stopHolds = true ∨ b.firstDone = none) →
    b.nextRun = some o → (o.single = true ∨ s2.breakpoint b core th.pc o.threads = none) →
    (∀ i n t, Decode.decodeAt th.pc (s2.wordsFrom core th.pc) = .ok (i, n) →
      exec i { s2 with issue := { core := core, lane := lane, slot := slot, threads := o.threads, pc := th.pc, depth := th.depth,
                                  word := (s2.wordAt core th.pc).getD 0, len := n, rot := o.rot, single := o.single, rep := th.rep,
                                  inRep := decide (0 < th.rep) } } = .next t →
      (t.issue.held = false → step s = .next (s.aftermath (s2.afterRun t k (some i)) true)) ∧
      (t.issue.held = true → ∀ op f, i.form? = some (op, f) → let u := s2.afterWatch t k op
        (∀ x ∈ slots, u.band? (slotKey core lane x) = none) → step s = .next (s.aftermath u true))) ∧
    (∀ r, Decode.decodeAt th.pc (s2.wordsFrom core th.pc) = .error r →
      let q := s2.refusal core th.pc r
      let t := (State.stopRun { s2 with issue := { core := core, lane := lane, slot := slot, threads := o.threads, pc := th.pc, depth := th.depth,
                                                   word := q.2, rot := o.rot, single := o.single } }
        (.trap { cause := 1, reason := q.1, word := q.2 }))
      t.issue.held = false → step s = .next (s.aftermath (s2.afterRun t k none) true))

/-- R284, R492, R494: a step of a unit that the schedule chooses is the event's meaning, where the rails are up or the event needs VAUX alone;
with the rails down it changes nothing but the clocks. No word decodes to an event, so no turn runs one. -/
def Obligations.StepRunsEvent : Prop :=
  ∀ (s : State) (e : Instr) (rest : List Choice), s.agenda = .event e :: rest →
    let s1 := { s with agenda := rest }.tick
    (isEvent e = true → (s.powered = true ∨ onVaux e = true) → ∀ t, exec e s1 = .next t → step s = .next (s.aftermath t (Choice.runs (.event e)))) ∧
    ((isEvent e = false ∨ (s.powered = false ∧ onVaux e = false)) → step s = .next (s.aftermath s1 (Choice.runs (.event e)))) ∧
    (isEvent e = true → ∀ pc ws n, Decode.decodeAt pc ws ≠ .ok (e, n))

/-- R267, R268, R173, R271: the run that a band offers. Its threads are ready and stand at one key; without BEC 16 and without a YIELD no ready
thread's key precedes it, and with them the first key is passed over, as a rotation run, where another key is ready. All of the threads at
the key run, save that a REP unit's threads of a higher iteration wait. -/
def Obligations.NextRunIsFirstKey : Prop :=
  ∀ (b : Band) (o : Offer), b.stepping = none → b.nextRun = some o →
    o.threads ≠ [] ∧ o.single = false ∧
    (∀ t ∈ o.threads, t ∈ b.readyThreads ∧ ∀ u ∈ o.threads, keyNum (b.thread t) = keyNum (b.thread u) ∧ (b.thread t).rep = (b.thread u).rep) ∧
    (∀ t ∈ o.threads, ∀ u ∈ b.readyThreads, keyNum (b.thread u) = keyNum (b.thread t) → (b.thread t).rep ≤ (b.thread u).rep ∧
      ((b.thread u).rep = (b.thread t).rep → u ∈ o.threads)) ∧
    (o.rot = false → ∀ t ∈ o.threads, ∀ u ∈ b.readyThreads, keyNum (b.thread t) ≤ keyNum (b.thread u)) ∧
    (o.rot = true → (b.bec = 16 ∨ b.yieldNext = true) ∧ ∀ t ∈ o.threads, ∃ h ∈ b.readyThreads, keyNum (b.thread h) < keyNum (b.thread t) ∧
      ∀ u ∈ b.readyThreads, keyNum (b.thread u) = keyNum (b.thread h) ∨ keyNum (b.thread t) ≤ keyNum (b.thread u))

/-! ### Reset, invariants, memory (R32, R51 to R62, R181, R223, R281, R391, R432, R490) -/

/-- What the rules give at reset: each die's cycle count, refresh parameters and clock; TAGS, PEND and the event counters of each core, its
overlay slots empty so that no word can issue; each engine's table empty and its slots EMPTY; the task sequence counter and bin; SDTO, and
the counts of fault records; and no band resident. That memory reads as 0 where nothing has written is the model's choice (log entry 2), as
is a reset state that stands before firmware's bring-up, with READY clear (log entry 10). -/
def Obligations.ResetValues : Prop :=
  (∀ d, State.reset.die d = { cycle := 0, refBase := 0, period := 0x0F00, wlen := 0x20, stagger := 0x3C, clock := 940 }) ∧
  (∀ c, (State.reset.core c).tags = 0 ∧ (∀ i, Tbl.get (State.reset.core c).pend i 0 = 0 ∧ Tbl.get (State.reset.core c).perf i 0 = 0) ∧
    (∀ sl < 4, ((State.reset.core c).overlays.getD sl {}).ovid = none ∧ ((State.reset.core c).overlays.getD sl {}).words = []) ∧
    ∀ pc, State.reset.wordAt c pc = none) ∧
  (∀ c, (State.reset.cluster c).engine.table = [] ∧ (∀ n, (Tbl.get (State.reset.cluster c).engine.slots n {}).val = .empty) ∧
    (State.reset.cluster c).taskSeq = 0 ∧ (State.reset.cluster c).bin = 0) ∧
  (∀ a, State.reset.mem.byte a = 0) ∧ (∀ k, State.reset.band? k = none) ∧ State.reset.sdto = 2 ^ 26 ∧ State.reset.faultLost = 0 ∧
  State.reset.faultSeq = 0 ∧ State.reset.ready = false ∧ State.reset.fatal = false

/-- R333, R336, R343: in every state that a step answers, the marks of the schedulers agree with the machine: a resident team is noted as an
eviction candidate exactly while every thread of it that has not ended is parked and none is halted, and a flight counts as pre-empted only
while it has a runnable absent team. It holds at reset too, so it is an invariant of every run. -/
def Obligations.StepSettles : Prop := ∀ s t : State, step s = .next t → State.Settled t

/-- The invariant at reset. -/
def Obligations.ResetSettled : Prop := State.Settled State.reset

/-- R2, R279: the operations over memory agree: after a little-endian write of n bytes each byte reads as its part of the value and every byte
outside as before, reading them back gives the value, two writes to places that do not meet can change places, and writing back what was read
changes nothing at all, so that memories which read alike are one memory. -/
def Obligations.MemoryReadsBack : Prop :=
  ∀ (m : Memory) (a n x : Nat), m.wf = true →
    (m.write a n x).read a n = x % 256 ^ n ∧ m.write a n (m.read a n) = m ∧
    (∀ b k y, a + n ≤ b ∨ b + k ≤ a → (m.write a n x).write b k y = (m.write b k y).write a n x ∧ (m.write a n x).read b k = m.read b k) ∧
    (∀ y, (m.write a n x).write a n y = m.write a n y) ∧
    ∀ m' : Memory, m'.wf = true → (∀ b, m.byte b = m'.byte b) → m = m'


/-! ### Control flow (R161 to R177) -/

/-- R80, R162 to R164: BRA moves each guarded thread to PC + OFF18 and lets the others of the run advance; a BRS whose guard holds in every thread of the run, or in
none, is an ordinary branch to the target in the slot that holds it. The threads that went at or below their own PC are noted as taken backward. Nothing else changes. -/
def Obligations.BranchesMoveGuardedThreads : Prop :=
  (∀ (f : FormB) (s : State) (b : Band) (ts : List Nat), Runs s b → Guarded b f.g.toNat (f.gn = 1) s.issue.threads ts →
     let tgt := (((s.issue.pc : Int) + f.off.toInt) % 65536).toNat
     ∃ b', exec (.bra f) s = .next { s with bands := Tbl.put s.bands s.issue.key b',
                                            issue := { s.issue with back := if tgt ≤ s.issue.pc then ts else [] } } ∧
       ThreadsOnly b b' fun j => if j ∈ ts then { b.thread j with pc := tgt, rep := 0 }
         else if j ∈ s.issue.threads then (b.thread j).retired s.issue else b.thread j) ∧
  (∀ (f : FormX) (s : State) (b : Band) (ts : List Nat), Runs s b → Guarded b (viewX f).g (viewX f).gn s.issue.threads ts →
     (ts = [] ∨ ts = s.issue.threads) → f.la = 0 → f.lb = 0 → f.lc = 0 →
     let tgt := s.issue.pc / 16384 * 16384 + f.w2.toNat % 16384
     ∃ b', exec (.brs f) s = .next { s with bands := Tbl.put s.bands s.issue.key b',
                                            issue := { s.issue with back := if tgt ≤ s.issue.pc then ts else [] } } ∧
       b' = { b with threads := b'.threads, regs := b'.regs } ∧ (∀ n j, b'.vreg? n j = b.vreg? n j) ∧
       ∀ j, b'.thread j = if j ∈ ts then { b.thread j with pc := tgt, rep := 0 }
         else if j ∈ s.issue.threads then (b.thread j).retired s.issue else b.thread j)

/-- R165, R172, R173, R397: NOP and PAD let every thread of the run advance and change nothing else; so does SAFE where no safe-point stop is
pending for its band, and with one each thread of the run stops past it. YIELD advances the run, clears BEC but in a single step, asks for the rotation choice of the next
run and lets the lane's slot rotation pass over the slot once; no register, predicate or byte of memory changes. -/
def Obligations.AdvanceOnly : Prop :=
  ∀ (f : FormI) (s : State) (b : Band), Runs s b →
    (∀ i : Instr, (i = .nop f ∨ i = .pad f ∨ (i = .safe f ∧ ∀ c, b.stop ≠ some (2, c))) →
      ∃ b', exec i s = .next { s with bands := Tbl.put s.bands s.issue.key b' } ∧
        ThreadsOnly b b' fun j => if j ∈ s.issue.threads then (b.thread j).retired s.issue else b.thread j) ∧
    (∀ c, b.stop = some (2, c) → ∃ b', exec (.safe f) s = .next { s with bands := Tbl.put s.bands s.issue.key b' } ∧
      ThreadsOnly b b' fun j => if j ∈ s.issue.threads then { (b.thread j).retired s.issue with park := .safe f.imm.toNat } else b.thread j) ∧
    ∃ b' l, exec (.yield f) s = .next { s with bands := Tbl.put s.bands s.issue.key b',
                                               lanes := Tbl.put s.lanes (s.issue.core * 64 + s.issue.lane) l } ∧
      l = { s.lane (s.issue.core * 64 + s.issue.lane) with skip := some s.issue.slot } ∧
      b' = { b with threads := b'.threads, bec := if s.issue.single then b.bec else 0, yieldNext := true } ∧
      ∀ j, b'.thread j = if j ∈ s.issue.threads then (b.thread j).retired s.issue else b.thread j

/-- R166, R162: BRX reads operand B of each guarded thread as overlay id and word offset; where a slot holds the overlay, the offset is
within its loaded length and the word there is a PAD with the instruction's tag, the thread branches to it. Each thread goes to its own
target; the others of the run advance. The last-read bit of B acts for the whole run. Where some guarded
thread's target lies in no slot or beyond its slot's loaded length, BRX and CALLX take the trap of cause OVLABSENT, and where every target is there but
one is no PAD with the tag, the trap of cause PAD; no thread transfers. -/
def Obligations.BrxBranchesToPads : Prop :=
  (∀ (f : XL) (s : State) (b : Band) (ts : List Nat) (x : Nat → Nat), Runs s b →
      Guarded b (viewXL f).g (viewXL f).gn s.issue.threads ts → (∀ t ∈ ts, (b.thread t).depth ≠ 255) →
      (∀ t ∈ ts, b.readOpnd s.fresh t (viewXL f).b 32 2 = .ok (x t)) →
      let at' := fun t => ((s.core s.issue.core).slotOf? (x t / 65536)).bind fun sl =>
        if x t % 65536 < ((s.core s.issue.core).overlays.getD sl {}).words.length then some (sl * 16384 + x t % 65536) else none
      ((∃ t ∈ ts, at' t = none) →
        exec (.brx f) s = exec (.takeTrap { cause := 6 }) s ∧ exec (.callx f) s = exec (.takeTrap { cause := 6 }) s) ∧
      ((∀ t ∈ ts, at' t ≠ none) → (∃ t ∈ ts, ∃ a, at' t = some a ∧
          s.wordAt s.issue.core a ≠ some (BitVec.ofNat 32 ((viewXL f).w2 % 65536 * 65536 + 0x18C))) →
        exec (.brx f) s = exec (.takeTrap { cause := 7 }) s ∧ exec (.callx f) s = exec (.takeTrap { cause := 7 }) s)) ∧
  ∀ (f : XL) (s : State) (b : Band) (ts : List Nat) (x sl : Nat → Nat), Runs s b →
    Guarded b (viewXL f).g (viewXL f).gn s.issue.threads ts →
    (∀ t ∈ ts, b.readOpnd s.fresh t (viewXL f).b 32 2 = .ok (x t)) →
    (∀ t ∈ ts, (s.core s.issue.core).slotOf? (x t / 65536) = some (sl t) ∧
      x t % 65536 < ((s.core s.issue.core).overlays.getD (sl t) {}).words.length ∧
      s.wordAt s.issue.core (sl t * 16384 + x t % 65536) = some (BitVec.ofNat 32 ((viewXL f).w2 % 65536 * 65536 + 0x18C))) →
    ∃ b' back, exec (.brx f) s = .next { s with bands := Tbl.put s.bands s.issue.key b', issue := { s.issue with back := back } } ∧
      (∀ t, t ∈ back ↔ t ∈ ts ∧ sl t * 16384 + x t % 65536 ≤ s.issue.pc) ∧
      b' = { b with threads := b'.threads, regs := b'.regs } ∧ LastReadsOnly b b' (viewXL f) 0 32 0 s.issue.threads ∧
      ∀ j, b'.thread j = if j ∈ ts then { b.thread j with pc := sl j * 16384 + x j % 65536, rep := 0 }
        else if j ∈ s.issue.threads then (b.thread j).retired s.issue else b.thread j


/-! ### Thread-by-thread instructions (R49 to R56, R73, R109 to R146) -/

/-- R109, R111, R116 to R119: each integer arithmetic, logic and shift instruction, in every form, completes on every state that it is ready in, and
leaves the exact result, put into its type, in its destination for every guarded thread; division by zero, the carry and every shift amount follow the
rules. Its frame: the rest of the machine, memory, every other register, predicate and thread, and RNDCTR. -/
def Obligations.IntegerCompletes : Prop := ∀ i m, integerSem i = some m ∨ logicShiftSem i = some m → Completes i m

/-- R120 to R128: the unary operations in both widths, bit fields, BPERM, SEL, compares into predicates, PLOP, LEA, the moves and LDI, with their
frame; MOVK where every guarded thread's source thread is within the band. -/
def Obligations.UnaryAndMovesComplete : Prop := ∀ i m, unaryInstrSem i = some m ∨ moveSem i = some m → Completes i m

/-- R129 to R136: the float instructions on every operand, with the draws of stochastic rounding and their frame; FCMP, where a NaN makes the operands
unordered, and FCLASS. -/
def Obligations.FloatCompletes : Prop := ∀ i m, floatInstrSem i = some m ∨ floatTestSem i = some m → Completes i m

/-- R138 to R145: the conversions, scale bytes, group packing and codebook formats. -/
def Obligations.ConvertCompletes : Prop := ∀ i m, convertSem i = some m → Completes i m

/-- R60, R160, R179, R181, R182: SREG reads every register that R60 numbers, ACTV the mask of the run's guarded threads, PERFR every counter that has a selector; each leaves
it in its destination and nothing else changes. CYCLE writes the die's cycle count of each thread's own datapath cycle into its pair, and the run's cycles pass on the die. -/
def Obligations.MachineReadsComplete : Prop :=
 (∀ i m, machineReadSem i = some m → Completes i m) ∧
  (∀ (f : FormS) (s : State) (b : Band) (ins : List In), Ready s b (viewS f) 0 0 0 (.regs 2) s.issue.threads ins →
     let d := s.die (coreDie s.issue.core)
     ∃ t b', exec (.cycle f) s = .next (t.setDie (coreDie s.issue.core) { d with cycle := d.cycle + s.issue.threads.length }) ∧
       Kept s t b b' (viewS f) 0 0 0 (.regs 2) s.issue.threads ∧
       ∀ n th, s.issue.threads[n]? = some th → ∀ i < 2, b'.vreg? ((viewS f).d + i) th = some (wordOf ((d.cycle + n) % 2 ^ 64) i))

/-- R59, R60, R62, R63, R178, R179, R180: SREG or SREGW of a number without a register, and PERFR of a selector without a counter, take the illegal-operand trap. SREGW writes
the one register that its number names: BSTAT's MX and QOV clear where the operand has a one, RNDSEED takes the lowest guarded thread's operand, RNDCTR each guarded
thread's own, STARVE the operand between 4,096 and 2^22. A write of ones to BSTAT's other fields than BEC takes the illegal-operand trap. The run advances; no other register,
predicate or byte of memory changes. -/
def Obligations.SpecialRegisterWrites : Prop :=
  (∀ (s : State) (b : Band) (f : FormX) (ts : List Nat), s.band? s.issue.key = some b → Guarded b (viewX f).g (viewX f).gn s.issue.threads ts →
     (0x18 < f.w2.toNat % 256 → exec (.sregX f) s = exec (.takeTrap { cause := 2 }) s) ∧
     (10 ≤ f.w2.toNat % 65536 → (f.w2.toNat % 65536 < 0x1000 ∨ 0x2000 ≤ f.w2.toNat % 65536 ∨ f.w2.toNat % 65536 / 64 % 4 = 3) →
       exec (.perfr f) s = exec (.takeTrap { cause := 2 }) s) ∧
     (f.w2.toNat % 256 ∉ [0x0C, 0x0D, 0x0E, 0x14] → exec (.sregw f) s = exec (.takeTrap { cause := 2 }) s)) ∧
  (∀ (f : FormX) (s : State) (b : Band) (ts : List Nat) (x : Nat → Nat), Runs s b → Guarded b (viewX f).g (viewX f).gn s.issue.threads ts →
     ts ≠ [] → (∀ t ∈ ts, b.readOpnd s.fresh t (viewX f).a 32 1 = .ok (x t)) →
     let n := f.w2.toNat % 256
     let x0 := x (ts.headD 0)
     (n = 0x0C → (2 ^ 10 ≤ x0 ∨ bits x0 7 5 ≠ 0) → exec (.sregw f) s = exec (.takeTrap { cause := 2 }) s) ∧
     ∃ b1, b1 = { b with threads := b1.threads, regs := b1.regs } ∧ LastReadsOnly b b1 (viewX f) 32 0 0 s.issue.threads ∧
       (∀ j, b1.thread j = if j ∈ s.issue.threads then (b.thread j).retired s.issue else b.thread j) ∧
       (n = 0x0C → x0 < 2 ^ 10 → bits x0 7 5 = 0 →
         exec (.sregw f) s = .next (s.putBand { b1 with mx := b1.mx && !bitOf x0 9, qov := b1.qov && !bitOf x0 8 })) ∧
       (n = 0x0D → exec (.sregw f) s = .next (s.putBand { b1 with rndseed := x0 })) ∧
       (n = 0x0E → ∃ b2, exec (.sregw f) s = .next (s.putBand b2) ∧
         ThreadsOnly b1 b2 fun j => if j ∈ ts then { b1.thread j with rndctr := x j } else b1.thread j) ∧
       (n = 0x14 → ∀ fl, s.flight? b.flight = some fl → ∃ v, 4096 ≤ v ∧ v ≤ 2 ^ 22 ∧ (4096 ≤ x0 → x0 ≤ 2 ^ 22 → v = x0) ∧
         exec (.sregw f) s = .next { s.putBand b1 with flights := Tbl.put s.flights b.flight { fl with starve := v } }))

/-- R8, R20, R48, R49, R51, R54, R71, R111: what an operand reads and what a result writes. A v group is its registers little-endian; a k operand is the same for every
thread; p0 to p7 are 0 or 1, with p7 always 1; zero is 0 and a literal its low bits; narrower operands take the low bits. A v register whose live bit is clear gives a value
that nothing fixes, and a register whose data has not returned holds the run. A value put into a type (Put) and read back (Src) is the value modulo 2^n within the type's
range, or the value clamped to the range under SAT; types narrower than 32 bits are sign- or zero-extended into the register. -/
def Obligations.OperandForms : Prop :=
  ((∀ (b : Band) (fresh t n pos : Nat),
     (b.pendingV t n = false → b.vreg? n t = none → ∃ w : Word, b.readOpnd fresh t (.v n) 32 pos = .ok w.toNat) ∧
     (b.pendingV t n = true → b.readOpnd fresh t (.v n) 32 pos = .error .hold) ∧
     (b.pendingK n = true → b.readOpnd fresh t (.k n) 32 pos = .error .hold) ∧
     (n ≠ 7 → b.pendingP t n = true → b.readOpnd fresh t (.p n) 32 pos = .error .hold)) ∧
   ∀ (b : Band) (fresh t n pos x : Nat), (∀ r, b.pendingV t r = false) → (∀ r, b.pendingK r = false) → (∀ p, b.pendingP t p = false) →
     (∀ w, b.vreg? n t = some w → b.readOpnd fresh t (.v n) 32 pos = .ok w.toNat ∧ b.readOpnd fresh t (.v n) 16 pos = .ok (w.toNat % 2 ^ 16) ∧
       b.readOpnd fresh t (.v n) 8 pos = .ok (w.toNat % 2 ^ 8)) ∧
     (∀ l h, b.vreg? n t = some l → b.vreg? (n + 1) t = some h → b.readOpnd fresh t (.v n) 64 pos = .ok (l.toNat + 2 ^ 32 * h.toNat)) ∧
     b.readOpnd fresh t (.k n) 32 pos = .ok (b.kregs.getD n 0).toNat ∧
     (∀ t', b.readOpnd fresh t' (.k n) 64 pos = .ok ((b.kregs.getD n 0).toNat + 2 ^ 32 * (b.kregs.getD (n + 1) 0).toNat)) ∧
     b.readOpnd fresh t (.p 7) 32 pos = .ok 1 ∧
     (n ≠ 7 → b.readOpnd fresh t (.p n) 32 pos = .ok (if bitOf (b.thread t).preds n then 1 else 0)) ∧
     b.readOpnd fresh t .zero 32 pos = .ok 0 ∧ b.readOpnd fresh t (.lit x) 32 pos = .ok (x % 2 ^ 32) ∧ b.readOpnd fresh t (.lit x) 64 pos = .ok (x % 2 ^ 64)) ∧
  (∀ (ti : Nat) (x : Int), ti ≤ 12 →
     let n := tiBits ti
     let sg : Bool := ti = 0 || ti = 2 || ti = 4 || ti = 6
     let lo : Int := if sg then -(2 : Int) ^ (n - 1) else 0
     let hi : Int := if sg then (2 : Int) ^ (n - 1) - 1 else (2 : Int) ^ n - 1
     lo ≤ srcTI ti (putTI ti false x) ∧ srcTI ti (putTI ti false x) ≤ hi ∧ (srcTI ti (putTI ti false x) - x) % (2 : Int) ^ n = 0 ∧
     srcTI ti (putTI ti true x) = min (max x lo) hi ∧
     (n < 32 → sg = true → signed (putTI ti false x) 32 = srcTI ti (putTI ti false x)) ∧
     (n < 32 → sg = false → putTI ti false x < 2 ^ n))

/-- R21, R29, R33: rounding a value that a format holds gives its own code in every mode, and two operands may change places in FADD and FMUL;
FSUB is FADD of the operand with its sign turned. -/
def Obligations.RoundingKeepsCodes : Prop :=
  ∀ (fm : Fmt) (mode a b c : Nat) (r : Sr), a < 2 ^ fm.width → b < 2 ^ fm.width →
    (∀ n m e, fm.decode a = .fin n m e → roundFv fm (fm.decode a) mode r = (a, if mode = 5 then 1 else 0)) ∧
    faddEl fm mode r a b c = faddEl fm mode r b a c ∧ fmulEl fm mode r a b c = fmulEl fm mode r b a c ∧
    (fm ≠ .e2m1 → fm ≠ .e4m3 → fsubEl fm mode r a b c = faddEl fm mode r a (b ^^^ 2 ^ (fm.width - 1)) c)

/-- R132, R133: the special cases of the float instructions, for the formats with infinities: their results are the ones of the tables, and no
draw is made for them. -/
def Obligations.FloatSpecialCases : Prop :=
  ∀ (fm : Fmt) (mode a b c : Nat) (r : Sr), fm.hasInf = true →
    let x := fm.decode a
    let y := fm.decode b
    (x = .nan ∨ y = .nan → faddEl fm mode r a b c = (fm.nan, 0) ∧ fsubEl fm mode r a b c = (fm.nan, 0) ∧ fmulEl fm mode r a b c = (fm.nan, 0) ∧
      fdivEl fm mode r a b c = (fm.nan, 0) ∧ ffmaEl fm mode r a b c = (fm.nan, 0) ∧ ffmaEl fm mode r c a b = (fm.nan, 0)) ∧
    (x = .nan → frcpEl fm mode r a b c = (fm.nan, 0) ∧ fsqrtEl fm mode r a b c = (fm.nan, 0) ∧ frsqEl fm mode r a b c = (fm.nan, 0) ∧
      fexp2El fm mode r a b c = (fm.nan, 0) ∧ flog2El fm mode r a b c = (fm.nan, 0) ∧ fsinEl fm mode r a b c = (fm.nan, 0) ∧
      fcosEl fm mode r a b c = (fm.nan, 0) ∧ ftanhEl fm mode r a b c = (fm.nan, 0)) ∧
    (∀ n, x = .inf n → y = .inf (!n) → faddEl fm mode r a b c = (fm.nan, 0) ∧ fsubEl fm mode r a a c = (fm.nan, 0) ∧
      fdivEl fm mode r a b c = (fm.nan, 0)) ∧
    (∀ n m, x = .zero n → y = .inf m → fmulEl fm mode r a b c = (fm.nan, 0) ∧ ffmaEl fm mode r a b c = (fm.nan, 0) ∧
      fdivEl fm mode r a b c = (fm.zero (n != m), 0) ∧ fdivEl fm mode r b a c = (fm.inf (m != n), 0)) ∧
    (∀ n m, x = .zero n → y = .zero m → fdivEl fm mode r a b c = (fm.nan, 0) ∧
      faddEl fm mode r a b c = (fm.zero (if n = m then n else decide (mode = 2)), 0) ∧ fmulEl fm mode r a b c = (fm.zero (n != m), 0)) ∧
    (∀ n m k e, x = .fin n k e → y = .zero m → fdivEl fm mode r a b c = (fm.inf (n != m), 0)) ∧
    (∀ n k e, x = .fin n k e → fsubEl fm mode r a a c = (fm.zero (decide (mode = 2)), 0)) ∧
    (∀ n, x = .zero n → frcpEl fm mode r a b c = (fm.inf n, 0) ∧ fsqrtEl fm mode r a b c = (fm.zero n, 0) ∧ frsqEl fm mode r a b c = (fm.inf n, 0) ∧
      flog2El fm mode r a b c = (fm.inf true, 0) ∧ fsinEl fm mode r a b c = (fm.zero n, 0) ∧ ftanhEl fm mode r a b c = (fm.zero n, 0)) ∧
    (∀ k e, x = .fin true k e → fsqrtEl fm mode r a b c = (fm.nan, 0) ∧ frsqEl fm mode r a b c = (fm.nan, 0) ∧ flog2El fm mode r a b c = (fm.nan, 0)) ∧
    (∀ n, x = .inf n → frcpEl fm mode r a b c = (fm.zero n, 0) ∧ fsinEl fm mode r a b c = (fm.nan, 0) ∧ fcosEl fm mode r a b c = (fm.nan, 0) ∧
      fexp2El fm mode r a b c = (if n then fm.zero false else fm.inf false, 0) ∧
      fsqrtEl fm mode r a b c = (if n then fm.nan else fm.inf false, 0) ∧ frsqEl fm mode r a b c = (if n then fm.nan else fm.zero false, 0))

/-! ### Calls, ends of threads, traps (R167 to R177) -/

/-- R80, R166, R167, R168: CALL and CALLX push each guarded thread's return point as one counted run of 4-byte stores at its own stack entry, and move
it to its target with DEPTH one more. The entry is the overlay id of the return point's slot and its word index; the others of the run
advance. With some guarded thread at DEPTH 255 the run takes the trap of cause CALLDEPTH instead, and no thread pushes or moves. -/
def Obligations.CallsPushAndMove : Prop :=
  ∀ (s : State) (b : Band) (ts : List Nat), Runs s b →
    let ret := (s.issue.pc + s.issue.len) % 65536
    let va := fun t => (s.csbase b + 1088 * (b.thread t).tidx + 4 * ((b.thread t).depth + 1)) % 2 ^ 64
    let parts := ts.map fun t => ({ thread := t, va := va t, addr := (translate (s.coreRanges s.issue.core) {} (va t)).getD 0, size := 4,
                                    data := (((s.core s.issue.core).overlays.getD (ret / 16384) {}).ovid.getD 0) * 2 ^ 16 + ret } : Part)
    (∀ f : FormB, Guarded b f.g.toNat (f.gn = 1) s.issue.threads ts →
      ((∃ t ∈ ts, (b.thread t).depth = 255) → exec (.call f) s = exec (.takeTrap { cause := 5 }) s) ∧
      ((∀ t ∈ ts, (b.thread t).depth ≠ 255) → (∀ t ∈ ts, firstFail (s.coreRanges s.issue.core) needW (va t) 4 = none) →
        b.roomFor .st = true → let p := s.post s.issue.key b .st .none { kind := .store } parts
        ∃ b', exec (.call f) s = .next { p.1 with bands := Tbl.put p.1.bands s.issue.key b' } ∧ b' = { p.2 with threads := b'.threads } ∧
          ∀ j, b'.thread j = if j ∈ ts then { b.thread j with depth := (b.thread j).depth + 1, rep := 0,
                                                              pc := (((s.issue.pc : Int) + f.off.toInt) % 65536).toNat }
            else if j ∈ s.issue.threads then (b.thread j).retired s.issue else b.thread j)) ∧
    (∀ (f : XL) (x sl : Nat → Nat), Guarded b (viewXL f).g (viewXL f).gn s.issue.threads ts → (viewXL f).lb = false →
      (viewXL f).la = false → (viewXL f).lc = false → (∀ r ∈ b.regs, r.vals ≠ []) →
      (∀ t ∈ ts, b.readOpnd s.fresh t (viewXL f).b 32 2 = .ok (x t)) →
      (∀ t ∈ ts, (s.core s.issue.core).slotOf? (x t / 65536) = some (sl t) ∧
        x t % 65536 < ((s.core s.issue.core).overlays.getD (sl t) {}).words.length ∧
        s.wordAt s.issue.core (sl t * 16384 + x t % 65536) = some (BitVec.ofNat 32 ((viewXL f).w2 % 65536 * 65536 + 0x18C))) →
      ((∃ t ∈ ts, (b.thread t).depth = 255) → exec (.callx f) s = exec (.takeTrap { cause := 5 }) s) ∧
      ((∀ t ∈ ts, (b.thread t).depth ≠ 255) → (∀ t ∈ ts, firstFail (s.coreRanges s.issue.core) needW (va t) 4 = none) →
        b.roomFor .st = true → let p := s.post s.issue.key b .st .none { kind := .store } parts
        ∃ b', exec (.callx f) s = .next { p.1 with bands := Tbl.put p.1.bands s.issue.key b' } ∧ b' = { p.2 with threads := b'.threads } ∧
          ∀ j, b'.thread j = if j ∈ ts then { b.thread j with depth := (b.thread j).depth + 1, rep := 0, pc := sl j * 16384 + x j % 65536 }
            else if j ∈ s.issue.threads then (b.thread j).retired s.issue else b.thread j))

/-- R169, R176: RET and TRET ask for each thread's entry or frame as one counted run of loads, and once it is there RET pops: DEPTH one less and
the PC of the entry, if the entry's slot holds the entry's overlay still, else the trap of cause OVLABSENT; TRET takes RPC, DEPTH, and the
iteration of an interrupted REP unit from the frame and clears the in-trap bit. A run with a thread at DEPTH 0 takes the trap of cause CALLDEPTH
for RET, and one with a thread outside a trap the illegal-operand trap for TRET. -/
def Obligations.ReturnsPop : Prop :=
  ∀ (f : FormI) (s : State) (b : Band) (vals : Tbl Nat), Runs s b →
    let part := fun (va : Nat → Nat) (n t : Nat) =>
      ({ thread := t, va := va t, addr := (translate (s.coreRanges s.issue.core) {} (va t)).getD 0, size := n } : Part)
    let entry := fun t => (s.csbase b + 1088 * (b.thread t).tidx + 4 * (b.thread t).depth) % 2 ^ 64
    let frame := fun t => (s.csbase b + 1088 * (b.thread t).tidx + 1024) % 2 ^ 64
    let there := fun x => ((s.core s.issue.core).overlays.getD (x % 65536 / 16384) {}).ovid = some (x / 65536)
    ((∃ t ∈ s.issue.threads, (b.thread t).depth = 0) → exec (.ret f) s = exec (.takeTrap { cause := 5 }) s) ∧
    ((∀ t ∈ s.issue.threads, (b.thread t).depth ≠ 0) →
      (∀ s1, s.blockRead b 0 s.issue.threads (s.issue.threads.map (part entry 4)) (fun _ => none) = .ok (.wait s1) → exec (.ret f) s = .next s1.hold) ∧
      (s.blockRead b 0 s.issue.threads (s.issue.threads.map (part entry 4)) (fun _ => none) = .ok (.got vals) →
        ((∃ p ∈ vals, ¬ there p.2) → exec (.ret f) s = exec (.takeTrap { cause := 6 }) s) ∧
        ((∀ p ∈ vals, there p.2) → ∃ b', exec (.ret f) s = .next { s with bands := Tbl.put s.bands s.issue.key b' } ∧
          b' = { b with threads := b'.threads, groups := (b.consume s.issue).groups } ∧
          ∀ j, b'.thread j = if j ∈ s.issue.threads then { b.thread j with depth := (b.thread j).depth - 1, rep := 0, pc := Tbl.get vals j 0 % 65536 }
            else b.thread j))) ∧
    ((∃ t ∈ s.issue.threads, (b.thread t).inTrap = false) → exec (.tret f) s = exec (.takeTrap { cause := 2 }) s) ∧
    ((∀ t ∈ s.issue.threads, (b.thread t).inTrap = true) →
      (∀ s1, s.blockRead b 0 s.issue.threads (s.issue.threads.map (part frame 64)) (fun _ => none) = .ok (.wait s1) → exec (.tret f) s = .next s1.hold) ∧
      (s.blockRead b 0 s.issue.threads (s.issue.threads.map (part frame 64)) (fun _ => none) = .ok (.got vals) →
        (∀ p ∈ vals, there (p.2 % 2 ^ 32)) → ∃ b', exec (.tret f) s = .next { s with bands := Tbl.put s.bands s.issue.key b' } ∧
          b' = { b with threads := b'.threads, groups := (b.consume s.issue).groups } ∧
          ∀ j, b'.thread j = if j ∈ s.issue.threads then
              let x := Tbl.get vals j 0
              { b.thread j with depth := bits x 151 144, inTrap := false, pc := bits x 15 0,
                                rep := if bitOf x 120 && decide (bits x 31 0 = bits x 63 32) then bits x 119 112 else 0 }
            else b.thread j))

/-- R86, R174, R175, R177: the trap frame's fields, and taking a trap. Where no thread of the run is in a trap, the flight's trap entry is in a slot, each thread's frame address is
writable and the st counter has room, each thread's 64-byte frame is issued as one counted run of stores at its control area plus 1,024, its in-trap
bit is set and its PC is the entry; DEPTH, registers, predicates and memory are as they were. TRAP and, without a debugger, BRK take it with the next
instruction as RPC. A thread already in a trap, or a flight without an entry in a slot, stops the band instead; a REP unit keeps the iteration that trapped. -/
def Obligations.TrapsEnterTheHandler : Prop :=
  FrameFields ∧ ∀ (i : Instr) (s : State) (b : Band) (t : TrapInfo) (fl : Flight), Runs s b → s.flight? b.flight = some fl → b.rels = [] → b.consume s.issue = b →
    (i = .takeTrap t ∨ (∃ f : FormI, i = .trap f ∧ t = { cause := 3, code := f.imm.toNat, skip := s.issue.len }) ∨
      ∃ f : FormI, i = .brk f ∧ (∀ c, s.ctx? fl.ctx = some c → c.attached = false) ∧
        t = { cause := 4, code := f.imm.toNat, skip := s.issue.len }) →
    let s' : State := { s with issue := { s.issue with ended := true } }
    let area := fun j => (fl.csbase + 1088 * (b.thread j).tidx + 1024) % 2 ^ 64
    let w := if t.cause = 1 then t.word else s.issue.word
    let stopped := fun (b' : Band) (code aux : Nat) => b'.regs = b.regs ∧ b'.groups = b.groups ∧
      (∀ j, b'.thread j = if s.issue.inRep ∧ j ∈ s.issue.threads then { b.thread j with rep := s.issue.rep } else b.thread j) ∧
      (b.fault = none → ∃ x, b'.fault = some x ∧ x.code = code ∧ x.aux0 = aux ∧ x.pc = s.issue.pc)
    let parts := s.issue.threads.map fun j =>
      ({ thread := j, va := area j, addr := (translate (s.coreRanges s.issue.core) needW (area j)).getD 0, size := 64,
         data := frameOf (s.core s.issue.core) s'.issue (b.thread j) { t with word := w } (Tbl.get t.addrs j 0) } : Part)
    (∀ e sl, (∀ j ∈ s.issue.threads, (b.thread j).inTrap = false ∧ (b.thread j).state ≠ .atOp) → fl.trapEntry = some e → (s.core s.issue.core).slotOf? e.1 = some sl →
      (∀ j ∈ s.issue.threads, firstFail (s.coreRanges s.issue.core) needW (area j) 64 = none) → b.roomFor .st = true →
      let p := s'.post s.issue.key b .st .none { kind := .store } parts
      ∃ b', exec i s = .next (State.count { p.1 with bands := Tbl.put p.1.bands s.issue.key b' } s.issue.core 8 1) ∧
        b' = { p.2 with threads := b'.threads, tracker := b'.tracker } ∧
        ∀ j, b'.thread j = if j ∈ s.issue.threads then { b.thread j with inTrap := true, pc := sl * 16384 + e.2, rep := 0 } else b.thread j) ∧
    ((∃ j ∈ s.issue.threads, (b.thread j).inTrap = true) → ∃ b', exec i s = .next { s' with bands := Tbl.put s.bands s.issue.key b' } ∧ stopped b' 4 t.cause) ∧
    ((∀ j ∈ s.issue.threads, (b.thread j).inTrap = false) → (∀ e, fl.trapEntry = some e → (s.core s.issue.core).slotOf? e.1 = none) →
      ∃ b', exec i s = .next { s' with bands := Tbl.put s.bands s.issue.key b' } ∧ stopped b' 5 (s.trapPoint b))

/-- R177, R270: with a debugger attached to the context, BRK halts every ready thread of the band in STATE 4, each of the run's with its PC at the BRK
and marked so that a resume goes on at the next instruction; the halt record names the BRK. No register or byte of memory changes. -/
def Obligations.BrkHaltsWhenAttached : Prop :=
  ∀ (f : FormI) (s : State) (b : Band) (fl : Flight) (c : Ctx), Runs s b → s.flight? b.flight = some fl → s.ctx? fl.ctx = some c → c.attached = true →
    (∀ t ∈ s.issue.threads, (b.thread t).state = .ready) →
    (∀ t ∈ s.issue.threads, ∀ id, (b.thread t).park ≠ .safe id) →
    ∃ b', exec (.brk f) s = .next { s with bands := Tbl.put s.bands s.issue.key b' } ∧
      b' = { b with threads := b'.threads, tracker := {}, halted := true, halt := { why := 4, pc := s.issue.pc, tid := s.issue.threads.headD 0 } } ∧
      (∀ t ∈ s.issue.threads, b'.thread t = { b.thread t with state := .halted, past := [], park := .brk }) ∧
      ∀ j, j ∉ s.issue.threads → b'.thread j = b.thread j ∨ ((b.thread j).state = .ready ∧ b'.thread j = { b.thread j with state := .halted, past := [] })

/-- R55, R170, R171: EXIT ends every thread of the run, or under a guard the guarded ones while the others advance: STATE 5, live bits cleared but for the
names that EXIT.succ keeps, no other thread and no byte of memory changed. Stated for a flight without barrier records on its roster and a band with no
instance waiting and no service pending; while threads of the band live the band stays, with the successor recorded, and when its last thread ends
it leaves its slot, or restarts every thread at a recorded successor. -/
def Obligations.ExitsEndThreads : Prop :=
  ∀ (s : State) (b : Band) (fl : Flight) (ts : List Nat), Runs s b → s.flight? b.flight = some fl → fl.roster = [] → s.ecalls = [] →
    (∀ th ∈ b.threads, th.state ≠ .atOp) → b.done = [] → (∀ t ∈ s.issue.threads, (b.thread t).state ≠ .exited) → b.team < 0x80000000 → b.task = none →
    let ends := fun (t : State) (b' : Band) (gone : List Nat) (keep : Nat → Prop) =>
      t = { s with bands := Tbl.put s.bands s.issue.key b', flights := Tbl.put s.flights b.flight { fl with exited := fl.exited + gone.length } } ∧
      b' = { b with threads := b'.threads, regs := b'.regs, tracker := b'.tracker, succ := b'.succ } ∧
      (∀ j, b'.thread j = if j ∈ gone then { b.thread j with state := .exited, park := .none, acqs := [] }
        else if j ∈ s.issue.threads then (b.thread j).retired s.issue else b.thread j) ∧
      ∀ n j, (j ∈ gone → ¬ keep n → b'.vreg? n j = none) ∧ ((j ∉ gone ∨ keep n) → b'.vreg? n j = b.vreg? n j)
    ((∃ j < b.threads.length, j ∉ s.issue.threads ∧ (b.thread j).state ≠ .exited) → ∀ f : FormI,
      ∃ t b', exec (.exit f) s = .next t ∧ ends t b' s.issue.threads (fun _ => False) ∧ b'.succ = b.succ) ∧
    ((∀ j < b.threads.length, j ∉ s.issue.threads → (b.thread j).state = .exited) → b.threads ≠ [] → ∀ f : FormI,
      (b.succ = none → ∃ t, exec (.exit f) s = .next t ∧ t.band? s.issue.key = none ∧ (∀ k, k ≠ s.issue.key → t.band? k = s.band? k) ∧ t.mem = s.mem) ∧
      (∀ su sl, b.succ = some su → (s.core s.issue.core).slotOf? su.ovid = some sl → ∃ t b', exec (.exit f) s = .next t ∧ t.band? s.issue.key = some b' ∧
        b'.succ = none ∧ b'.kregs = b.kregs ∧ b'.quota = b.quota ∧ b'.rndseed = b.rndseed ∧ t.mem = s.mem ∧ b'.threads.length = b.threads.length ∧
        ∀ j < b.threads.length, (b'.thread j).state = .ready ∧ (b'.thread j).depth = 0 ∧ (b'.thread j).pc = sl * 16384 + su.off ∧
          (b'.thread j).preds = 0 ∧ (b'.thread j).rndctr = 0 ∧ (b'.thread j).tidx = (b.thread j).tidx)) ∧
    (∀ f : FormX, Guarded b (viewX f).g (viewX f).gn s.issue.threads ts → (viewX f).la = false → (viewX f).lb = false → (viewX f).lc = false →
      ts ≠ [] → (∃ j < b.threads.length, j ∉ ts ∧ (b.thread j).state ≠ .exited) →
      (f.mf.toNat % 2 = 0 → ∃ t b', exec (.exitSucc f) s = .next t ∧ ends t b' ts (fun _ => False) ∧ b'.succ = b.succ) ∧
      (f.mf.toNat % 2 = 1 → ∀ a sl, (viewX f).a = .v a → (s.core s.issue.core).slotOf? (f.w2.toNat / 65536) = some sl →
        f.w2.toNat % 65536 < ((s.core s.issue.core).overlays.getD sl {}).words.length → b.succ = none → (∀ t r, b.pendingV t r = false) →
        ∃ t b', exec (.exitSucc f) s = .next t ∧ ends t b' ts (fun n => a ≤ n ∧ n < a + f.d.toNat) ∧
          b'.succ = some { ovid := f.w2.toNat / 65536, off := f.w2.toNat % 65536, a := a, n := f.d.toNat }))

/-! ### REP units and band operations (R81 to R85, R147 to R160) -/

/-- R81 to R84, R116, R117: REP runs its target for the iterations in order, each on the state that the one before left, and then moves every thread of the run past
REP and target; a run that resumes a unit begins at its own iteration. An iteration that is held keeps the run at it, with the earlier ones retired. A
unit that fails a check takes the illegal-instruction trap before any iteration. A unit of an integer instruction in a band with no access
open and room in its quota completes: each iteration's results land, and the threads move on. The target of iteration i has D, A and B plus i times their steps. -/
def Obligations.RepRunsIterations : Prop :=
  (∀ (op : Nat) (f : FormX) (d a c : Int) (i : Nat) (t : Instr), iteration op (.x f) (d, a, c) i = some t →
    ∃ g : FormX, t.form? = some (op, .x g) ∧ g = { f with d := g.d, a := g.a, b := g.b } ∧
      (g.d.toNat : Int) = f.d.toNat + d * i ∧ (g.a.toNat : Int) = f.a.toNat + a * i ∧ (g.b.toNat : Int) = f.b.toNat + c * i) ∧
  (∀ (op : Nat) (f : FormS) (d a c : Int) (i : Nat) (t : Instr), iteration op (.s f) (d, a, c) i = some t →
    ∃ g : FormS, t.form? = some (op, .s g) ∧ g = { f with d := g.d, a := g.a, b := g.b } ∧
      (g.d.toNat : Int) = f.d.toNat + d * i ∧ (g.a.toNat : Int) = f.a.toNat + a * i ∧ (g.b.toNat : Int) = f.b.toNat + c * i) ∧
  (∀ (f : FormR) (s : State) (b : Band) (r : Nat) (w : Word), Runs s b → s.repUnit s.issue.core s.issue.pc f s.issue.word = .error (r, w) →
    exec (.rep f) s = exec (.takeTrap { cause := 1, reason := r, word := w }) s) ∧
  ∀ (f : FormR) (s : State) (b : Band) (op : Nat) (form : Form) (len : Nat) (S : Nat → State), Runs s b →
    s.repUnit s.issue.core s.issue.pc f s.issue.word = .ok (op, form, len) → waitsForBand op = false → S s.issue.rep = s →
    let n := if f.count = 0 then 64 else f.count.toNat
    let runs := fun i => ∃ t, iteration op form (f.dstep.toInt, f.astep.toInt, f.bstep.toInt) i = some t ∧
      exec t { S i with issue := { (S i).issue with rep := i, inRep := true }, fresh := (S i).fresh + 1 } = .next (S (i + 1))
    (s.issue.rep ≤ n → (∀ i, s.issue.rep ≤ i → i < n → runs i ∧ (S (i + 1)).issue.held = false ∧ (S (i + 1)).issue.ended = false) →
      exec (.rep f) s = .next ((S n).endUnit len)) ∧
    (∀ k, s.issue.rep ≤ k → k < n → (∀ i, s.issue.rep ≤ i → i < k → runs i ∧ (S (i + 1)).issue.held = false ∧ (S (i + 1)).issue.ended = false) →
      runs k → (S (k + 1)).issue.held = true → exec (.rep f) s = .next ((S (k + 1)).atIteration k)) ∧
    (∀ (T : Nat → Instr) (M : Nat → Sem), b.groups = [] → s.issue.rep ≤ n → s.issue.held = false → s.issue.ended = false →
      (∀ i, s.issue.rep ≤ i → i < n → iteration op form (f.dstep.toInt, f.astep.toInt, f.bstep.toInt) i = some (T i) ∧
        integerSem (T i) = some (M i) ∧ (M i).f.dk = false) → b.mapped + 2 * (n - s.issue.rep) ≤ b.quota →
      ∃ (U : Nat → State) (B : Nat → Band), U s.issue.rep = s ∧ B s.issue.rep = b ∧ exec (.rep f) s = .next ((U n).endUnit len) ∧
        ∀ i, s.issue.rep ≤ i → i < n → ∃ (ts : List Nat) (ins : List In),
          let s' : State := { U i with issue := { (U i).issue with rep := i, inRep := true }, fresh := (U i).fresh + 1 }
          let m := M i
          Ready s' (B i) m.f m.wa m.wb m.wc m.tg ts ins ∧ Kept s' (U (i + 1)) (B i) (B (i + 1)) m.f m.wa m.wb m.wc m.tg ts ∧
            Landed (B (i + 1)) m.f m.tg ins (fun x => (m.value s' x).1))

/-- R148, R149, R150, R184: a run that arrives at a band operation parks at the instance of its key under the member mask, as CSAVE and CREST do under the
mask of the whole band; the instance is complete exactly if no named thread is missing, and a named thread found past it stops the band. A mask that
names a thread beyond the band, omits a thread of the run or differs from the one parked at the key takes the illegal-operand trap, as does an
address of CSAVE or CREST that is not 64-byte aligned. -/
def Obligations.BandOperationsPark : Prop :=
  ∀ (i : Instr) (f : Fld) (wa wc : Nat) (tg : Target) (s : State) (b : Band) (mask a : Nat) (ts : List Nat), Runs s b → s.issue.threads ≠ [] →
    (∀ t ∈ s.issue.threads, (b.thread t).depth = s.issue.depth ∧ (b.thread t).pc = s.issue.pc ∧ (b.thread t).state = .ready) →
    let rep := if s.issue.inRep then s.issue.rep else 0
    let bad := fun m => 2 ^ b.width ≤ m ∨ (∃ t ∈ s.issue.threads, bitOf m t = false) ∨
      ∃ j m', b.ParkedAt s.issue.depth s.issue.pc rep m' j ∧ m' ≠ m
    (bandOp i = some (f, wa, wc, tg) → Guarded b f.g f.gn s.issue.threads ts → b.readOpnd s.fresh (s.issue.threads.headD 0) f.b 64 2 = .ok mask →
      (∀ t ∈ s.issue.threads, (wa ≠ 0 → ∃ x, b.readOpnd s.fresh t f.a wa 1 = .ok x) ∧ (wc ≠ 0 → ∃ x, b.readOpnd s.fresh t f.c wc 3 = .ok x)) →
      b.destPending f tg ts = false →
      (bad mask → exec i s = exec (.takeTrap { cause := 2 }) s) ∧ (¬ bad mask → ∃ t b', exec i s = .next t ∧ Parked s t b b' mask)) ∧
    (∀ g : FormX, (i = .csave g ∨ i = .crest g) → b.readOpnd s.fresh (s.issue.threads.headD 0) (viewX g).a 64 1 = .ok a →
      (a % 64 ≠ 0 ∨ bad (2 ^ b.width - 1) → exec i s = exec (.takeTrap { cause := 2 }) s) ∧
      (a % 64 = 0 → ¬ bad (2 ^ b.width - 1) → ∃ t b', exec i s = .next t ∧ Parked s t b b' (2 ^ b.width - 1)))

/-- R149, R151, R152, R268: the completing issue of the first completed instance of a band: the guarded present threads' results stand in their
destinations, every present thread is ready again past the operation, or halted with its band, and the instance is over. Registers that are no
destination keep their values, but for the last-read bits, and memory is untouched. -/
def Obligations.CompletingIssueRuns : Prop :=
  ∀ (s : State) (k : Nat) (b : Band) (d : Done) (i : Instr) (len : Nat) (f : Fld) (wa wc : Nat) (tg : Target) (recv : List Nat) (rs : List Res),
    s.band? k = some b → s.mayIssue k b = true → b.stopHolds = false → b.firstDone = some d → d.present.Nodup →
    (∀ t ∈ d.present, t < b.threads.length) → Decode.decodeAt d.pc (s.wordsFrom (keyCore k) d.pc) = .ok (i, len) →
    bandOp i = some (f, wa, wc, tg) → b.guarded f d.present = .ok recv → bandResults i { band := b, inst := d, fresh := s.fresh, recv := recv, f := f } = .ok rs →
    rs.map Res.thread = (if tg = .none then [] else recv) → (∀ n, tg = .regs n → f.dk = false) → f.la = false → f.lb = false → f.lc = false →
    (∀ v ∈ b.regs, v.vals ≠ []) → b.mapped + (b.unmapped (f.destNames tg)).length ≤ b.quota →
    ∃ b' : Band, exec (.completingIssue k) s = .next (s.afterRun
        { s.issueDone k d ((s.wordAt (keyCore k) d.pc).getD 0) len false with
          bands := Tbl.put s.bands k b', issue := { (s.issueDone k d ((s.wordAt (keyCore k) d.pc).getD 0) len false).issue with
            regs := writtenRegs f tg rs } } k (some i)) ∧ Finished b b' d len f tg recv rs

/-- R148, R149, R151 to R159, R184: a band operation whose run holds every thread that its mask names parks the run and completes its instance at
once, and its completing issue follows with the results. CSAVE's stores every selected chunk of the band as one counted run at its address, and
CREST's, once the header and the sections have been read, gives the band what they hold; both send every thread on. -/
def Obligations.WholeRunsComplete : Prop :=
  (∀ (i : Instr) (s : State) (b : Band) (f : Fld) (wa wc mask : Nat) (tg : Target) (recv : List Nat) (rs : List Res), Whole s b i mask →
    bandOp i = some (f, wa, wc, tg) → b.guarded f s.issue.threads = .ok recv → b.readOpnd s.fresh (s.issue.threads.headD 0) f.b 64 2 = .ok mask →
    (∀ t ∈ s.issue.threads, (wa ≠ 0 → ∃ x, b.readOpnd s.fresh t f.a wa 1 = .ok x) ∧ (wc ≠ 0 → ∃ x, b.readOpnd s.fresh t f.c wc 3 = .ok x)) →
    b.destPending f tg recv = false → rs.map Res.thread = (if tg = .none then [] else recv) → (∀ n, tg = .regs n → f.dk = false) →
    bandResults i { band := b, inst := s.wholeDone mask, fresh := s.fresh, recv := recv, f := f } = .ok rs →
    f.la = false → f.lb = false → f.lc = false → (∀ v ∈ b.regs, v.vals ≠ []) → b.mapped + (b.unmapped (f.destNames tg)).length ≤ b.quota →
    let t : State := { s with bands := Tbl.put s.bands s.issue.key (s.allParked b mask) }
    let u := t.issueDone s.issue.key (s.wholeDone mask) ((s.wordAt s.issue.core s.issue.pc).getD 0) s.issue.len false
    exec i s = .next t ∧ ∃ b' : Band, Finished (s.allParked b mask) b' (s.wholeDone mask) s.issue.len f tg recv rs ∧
      exec (.completingIssue s.issue.key) t = .next (t.afterRun
        { u with bands := Tbl.put t.bands s.issue.key b', issue := { u.issue with regs := writtenRegs f tg rs } } s.issue.key (some i))) ∧
  ∀ (i : Instr) (g : FormX) (s : State) (b : Band) (a : Nat), let mask := 2 ^ b.width - 1
    Whole s b i mask → b.groups = [] → b.readOpnd s.fresh 0 (viewX g).a 64 1 = .ok a → a % 64 = 0 → (viewX g).la = false →
    let w := s.allParked b mask
    let t : State := { s with bands := Tbl.put s.bands s.issue.key w }
    let d := s.wholeDone mask
    let u := t.issueDone s.issue.key d ((s.wordAt s.issue.core s.issue.pc).getD 0) s.issue.len false
    let goneOn := fun (x : Band) (j : Nat) => if j ∈ d.present then
        { x.thread j with state := if x.halted then .halted else .ready, park := .none, pc := ((x.thread j).pc + s.issue.len) % 65536, rep := 0 }
      else x.thread j
    let rs := s.coreRanges s.issue.core
    let part := fun (o n x : Nat) => ({ thread := 0, va := (a + o) % 2 ^ 64, addr := (translate rs {} ((a + o) % 2 ^ 64)).getD 0, size := n,
                                         data := x } : Part)
    (i = .csave g → exec i s = .next t ∧ (w.roomFor .st = true →
      let cs := (u.unsettled (coreCluster s.issue.core) w).chunks s.fresh ((viewX g).w2 % 16)
      (∀ c ∈ cs, firstFail rs needW ((a + c.1) % 2 ^ 64) c.2.1 = none) →
      let p := u.post s.issue.key w .st .none { kind := .store } (cs.map fun c => part c.1 c.2.1 c.2.2)
      ∃ b' : Band, b' = { p.2 with threads := b'.threads, done := [] } ∧ (∀ j, b'.thread j = goneOn w j) ∧
        exec (.completingIssue s.issue.key) t = .next (t.afterRun { p.1 with bands := Tbl.put p.1.bands s.issue.key b' } s.issue.key (some i)))) ∧
    (i = .crest g → exec i s = .next t ∧ ∀ (gs : List Group) (v0 v1 : Tbl Nat),
      let w' : Band := { w with groups := gs }
      let t' : State := { t with bands := Tbl.put t.bands s.issue.key w' }
      let u' : State := { u with bands := t'.bands }
      let parts := (viewX g).w2 % 16
      let h := recHead (Tbl.get v0 0 0)
      (∀ x ∈ gs, x.open = false ∧ (x.isBlock s.issue 0 = true ∨ x.isBlock s.issue 1 = true)) →
      u'.blockRead w' 0 [0] [part 0 64 0] (fun _ => none) = .ok (.got v0) → h.width = b.width → (bitOf parts 0 = true → h.mapped ≤ b.quota) →
      (crestParts parts b.width h.mapped ≠ [] → u'.blockRead w' 1 [0] ((crestParts parts b.width h.mapped).map fun c =>
        { part c.1 c.2 0 with base := c.1 }) (fun _ => none) = .ok (.got v1)) → (crestParts parts b.width h.mapped = [] → v1 = [(0, 0)]) →
      let whole := Tbl.get v1 0 0 + Tbl.get v0 0 0
      let x := w'.withRecord (fun o n => whole / 2 ^ (8 * o) % 2 ^ (8 * n)) parts fun _ => 0
      ∃ (b' : Band) (z : State), b' = { x with threads := b'.threads, regs := b'.regs, groups := [], done := [] } ∧
        (∀ j, b'.thread j = goneOn x j) ∧ (∀ n j, b'.vreg? n j = x.vreg? n j) ∧
        z = { u' with bands := Tbl.put t'.bands s.issue.key b', issue := { u'.issue with regs := z.issue.regs } } ∧
        exec (.completingIssue s.issue.key) t' = .next (t'.afterRun z s.issue.key (some i)))

/-- R151, R153, R154, R155, R157, R158: what VOTE, SHFL and ELECT give each receiving thread in every form, exited named threads contributing 0
or false; MATCH at 32 bits; and the sum of BRED.add.s32 without SAT where no named thread has exited. -/
def Obligations.BandOperationValues : Prop :=
  ∀ (q : Issue) (x c : Nat → Nat), q.recv.Nodup → q.inst.exited.Nodup → (∀ t ∈ q.recv, t ∉ q.inst.exited) →
    (∀ t ∈ q.recv, q.band.readOpnd q.fresh t q.f.a 32 1 = .ok (x t)) →
    let result := fun (v : Nat → Nat) => (Except.ok (q.recv.map fun t => ({ thread := t, val := v t } : Res)) : Rd (List Res))
    (q.f.sub = 0 → ((∃ t ∈ q.recv, x t % 2 = 1) → q.vote = result fun _ => 1) ∧ ((∀ t ∈ q.recv, x t % 2 = 0) → q.vote = result fun _ => 0)) ∧
    (q.f.sub = 1 → ((∀ t ∈ q.recv, x t % 2 = 1) → q.inst.exited = [] → q.vote = result fun _ => 1) ∧
      ((∃ t ∈ q.recv, x t % 2 = 0) ∨ q.inst.exited ≠ [] → q.vote = result fun _ => 0)) ∧
    (q.f.sub = 2 → ((∀ t ∈ q.recv, ∀ u ∈ q.recv, x t = x u) → (q.inst.exited = [] ∨ ∀ t ∈ q.recv, x t = 0) → q.vote = result fun _ => 1) ∧
      ((∃ t ∈ q.recv, ∃ u ∈ q.recv, x t ≠ x u) ∨ (q.inst.exited ≠ [] ∧ ∃ t ∈ q.recv, x t ≠ 0) → q.vote = result fun _ => 0)) ∧
    (q.f.wide = 32 → ∃ m : Nat → Nat, q.matchOf = result m ∧ ∀ t ∈ q.recv, ∀ j, bitOf (m t) j = decide (j ∈ q.recv ∧ x j = x t)) ∧
    (∃ e : Nat → Nat, q.elect = q.recv.map (fun t => ({ thread := t, val := e t } : Res)) ∧ ∀ t ∈ q.recv, e t = if q.recv.head? = some t then 1 else 0) ∧
    ((∀ t ∈ q.recv, q.band.readOpnd q.fresh t q.f.c 32 3 = .ok (c t)) →
      (∀ j, bitOf q.inst.mask j = true → j ∉ q.inst.exited → q.band.readOpnd q.fresh j q.f.a 32 1 = .ok (x j)) →
      ∃ v : Nat → Nat, q.shfl = result v ∧ ∀ t ∈ q.recv,
        let j : Int := if q.f.sub = 0 then c t else if q.f.sub = 1 then t - c t else if q.f.sub = 2 then t + c t else (t ^^^ c t : Nat)
        v t = if j < 0 ∨ (q.band.width : Int) ≤ j ∨ bitOf q.inst.mask j.toNat = false then x t
          else if j.toNat ∈ q.inst.exited then 0 else x j.toNat) ∧
    (q.f.sub = 0 → q.f.mf = 0 → q.f.sat = false → q.inst.exited = [] →
      q.bred = result fun _ => wrap ((q.recv.map fun t => signed (x t) 32).sum) 32)

/-! ### Memory accesses (R186 to R216, R223 to R225, R279 to R299) -/

/-- R191, R193, M1 of R285: one counted run posts its accesses as units: the units of each part cover every byte of it, each byte with its place and its data,
a naturally aligned access of 8 bytes or less is one unit, and they stand behind every earlier access with numbers of their own. The band counts one
group more of the class, and nothing else of the machine or of the band changes. -/
def Obligations.PostedRunsCoverTheirBytes : Prop :=
  ∀ (s : State) (k : Nat) (b : Band) (cls : Cls) (dest : Dest) (sh : Shape) (parts : List Part),
    let p := s.post k b cls dest sh parts
    ∃ us : List Acc, p.1 = { s with iq := s.iq ++ us, nextId := s.nextId + 1 + us.length } ∧ (us.map Acc.id).Nodup ∧
      (∀ u ∈ us, s.nextId < u.id ∧ u.id < p.1.nextId ∧ u.gid = s.nextId ∧ u.kind = sh.kind ∧ u.space = sh.space ∧ u.scope = sh.scope ∧
        u.acq = sh.acq ∧ u.rel = sh.rel ∧ u.band = k ∧ u.uid = b.uid ∧ u.sent = false ∧ u.faulted = false) ∧
      (∀ q ∈ parts, ∀ i < q.size, ∃ u ∈ us, u.thread = q.thread ∧ q.base ≤ u.off ∧ u.off ≤ q.base + i ∧ q.base + i < u.off + u.size ∧
        u.data / 2 ^ (8 * (q.base + i - u.off)) % 256 = q.data / 2 ^ (8 * i) % 256 ∧ (sh.space ≠ 0 → u.addr + q.base = q.addr + u.off) ∧
        (sh.space = 0 → u.va = (q.va + (u.off - q.base)) % 2 ^ 64)) ∧
      (∀ q ∈ parts, 0 < q.size → q.size ≤ 8 → q.addr % q.size = 0 → ∃ u ∈ us, u.thread = q.thread ∧ u.off = q.base ∧ u.size = q.size) ∧
      (parts = [] → us = [] ∧ p.2 = b) ∧
      (parts ≠ [] → ∃ g : Group, p.2 = { b with groups := b.groups ++ [g] } ∧ g.gid = s.nextId ∧ g.cls = cls ∧ g.dest = dest ∧ g.buf = [])

/-- R186 to R190, R193, R195 to R200: LD, LDW and ST in every form, and LDK, issue one counted access for each guarded thread, for LDK one for the run, at the
address formed from the thread's own operands, with the type's width and the instruction's scope and order. A store's data is read at issue. The
destination is written when the data returns; nothing else changes, and memory is untouched. -/
def Obligations.LoadsAndStoresIssue : Prop :=
  ∀ (i : Instr) (f : Fld) (space : Nat) (st : Bool) (s : State) (b : Band) (ts : List Nat) (x y z : Nat → Nat), Runs s b →
    Guarded b f.g f.gn s.issue.threads ts →
    (∀ t ∈ ts, b.readOpnd s.fresh t f.a (if space = 0 then 64 else 32) 1 = .ok (x t) ∧ b.readOpnd s.fresh t f.b 32 2 = .ok (y t)) →
    let n := tiBits f.sub / 8
    let w := if space = 0 then 64 else 32
    let a := fun t => addrSpec f space (x t) (y t)
    let part := fun t => ({ thread := t, va := a t, addr := s.target b space (a t), size := n } : Part)
    let tg : Target := .regs (wordsFor (tiBits f.sub))
    let paged := fun (l : List Nat) => s.issue.inRep = true → space = 0 → ∀ t ∈ l, ∀ i < n, s.mapped (s.target b 0 ((a t + i) % 2 ^ 64)) false = true
    (f.ord = true → ∀ t ∈ ts, a t % n = 0) →
    (accessOf i = some (f, space, st) → (∀ t ∈ ts, s.checkAddr b space (if st then needW else needX) (a t) n = none) →
      (st = false → paged ts → b.destPending f tg ts = false → (space = 2 → ts ≠ [] → ∀ fl, s.flight? b.flight = some fl → fl.wsw = false) →
        Fits s b f w 32 0 (if ts = [] then [] else f.destNames tg) → (ts ≠ [] → b.roomFor .ld = true) →
        ∃ t b', exec i s = .next t ∧ Issued s t b b' f w 32 0 tg .ld (if f.dk then .k f.d f.sub else .v f.d f.sub)
          { kind := .load, space := space, scope := s.scopeOf b f.scope, acq := f.ord } (ts.map part)) ∧
      (st = true → (∀ t ∈ ts, b.readOpnd s.fresh t (if f.dk then .k f.d else .v f.d) (tiBits f.sub) 3 = .ok (z t)) →
        Fits s b f w 32 0 [] → (ts ≠ [] → b.roomFor .st = true) →
        ∃ t b', exec i s = .next t ∧ Issued s t b b' f w 32 0 .none .st .none
          { kind := .store, space := space, scope := s.scopeOf b f.scope, rel := f.ord } (ts.map fun t => { part t with data := z t }))) ∧
    (∀ g : FormX, i = .ldk g → f = viewX g → space = f.space → paged (ts.take 1) → b.destPending f tg ts = false →
      (∀ t ∈ ts.take 1, s.checkAddr b space needX (a t) n = none) → Fits s b f w 32 0 (if ts = [] then [] else f.destNames tg) →
      (ts ≠ [] → b.roomFor .ld = true) →
      ∃ t b', exec i s = .next t ∧ Issued s t b b' f w 32 0 tg .ld (.k f.d f.sub)
        { kind := .load, space := space, scope := s.scopeOf b f.scope, acq := f.ord } ((ts.take 1).map part))

/-- R205 to R209, R464: ATOM and RED issue one atomic access for each guarded thread, ATOM of class ld with the old value's destination, RED of class st; ATOM2
merges the guarded threads' contributions to each word and issues one access for the word, whose old elements every one of those threads receives.
Memory is untouched until the slice performs them. -/
def Obligations.AtomicsIssue : Prop :=
  ∀ (i : Instr) (f : Fld) (ret : Bool) (s : State) (b : Band) (ts : List Nat) (x y c : Nat → Nat), Runs s b →
    Guarded b f.g f.gn s.issue.threads ts → (∀ t ∈ ts, b.readOpnd s.fresh t f.a 64 1 = .ok (x t)) →
    let a := fun t => (((x t : Int) + signed f.w2 20) % 2 ^ 64).toNat
    let paged := fun (n : Nat) => s.issue.inRep = true → ∀ t ∈ ts, ∀ j < n, s.mapped (s.target b 0 ((a t + j) % 2 ^ 64)) true = true
    (atomicOf i = some (f, ret) →
      let ty := f.w2 / 2 ^ 28 % 16
      let n := if ty = 2 ∨ ty = 3 ∨ ty = 5 then 8 else 4
      let cas := f.sub = 7 ∧ ret = true
      let tg : Target := if ret then .regs (n / 4) else .none
      (∀ t ∈ ts, b.readOpnd s.fresh t f.b (8 * n) 2 = .ok (y t) ∧ (cas → b.readOpnd s.fresh t f.c (8 * n) 3 = .ok (c t)) ∧ (¬ cas → c t = 0)) →
      (∀ t ∈ ts, a t % n = 0 ∧ s.checkAddr b 0 needXWA (a t) n = none) → (ret = true → paged n) → b.destPending f tg ts = false →
      ((∀ t ∈ ts, isHost (s.target b 0 (a t)) = false) ∨ (ret = true ∧ (f.sub = 0 ∨ f.sub = 6 ∨ f.sub = 7) ∧ ty ≠ 6)) →
      Fits s b f 64 (8 * n) (if cas then 8 * n else 0) (if ts = [] then [] else f.destNames tg) →
      (ts ≠ [] → b.roomFor (if ret then .ld else .st) = true) →
      ∃ t b', exec i s = .next t ∧ Issued s t b b' f 64 (8 * n) (if cas then 8 * n else 0) tg (if ret then .ld else .st)
        (if ret then (if f.dk then .k f.d (if n = 8 then 9 else 8) else .v f.d (if n = 8 then 9 else 8)) else .none)
        { kind := if ret then .atom else .red, scope := s.scopeOf b (f.w2 / 2 ^ 25 % 8), acq := ret && bitOf f.mf 2, rel := bitOf f.mf 3, op := f.sub, ty := ty }
        (ts.map fun t => { thread := t, va := a t, addr := s.target b 0 (a t), size := n, data := y t, cmp := c t })) ∧
    (∀ g : XL, i = .atom2 g → f = viewXL g → (∀ t ∈ ts, b.readOpnd s.fresh t f.b 32 2 = .ok (y t)) →
      (∀ t ∈ ts, a t % 4 = 0 ∧ s.checkAddr b 0 needXWA (a t) 4 = none ∧ isHost (s.target b 0 (a t)) = false) → paged 4 → b.destPending f (.regs 1) ts = false →
      Fits s b f 64 32 0 (if ts = [] then [] else f.destNames (.regs 1)) → (ts ≠ [] → b.roomFor .ld = true) →
      ∃ (t : State) (b' : Band) (ws : List Nat), exec i s = .next t ∧ ws.Nodup ∧ (∀ v, v ∈ ws ↔ ∃ j ∈ ts, a j = v) ∧
        Issued s t b b' f 64 32 0 (.regs 1) .ld (if f.dk then .k f.d 8 else .v f.d 8)
          { kind := .atom2, scope := s.scopeOf b (f.w2 / 2 ^ 25 % 8), acq := bitOf f.mf 2, rel := bitOf f.mf 3, op := f.sub }
          (ws.map fun v =>
            let g := ts.filter fun j => a j = v
            { thread := g.headD 0, va := v, addr := s.target b 0 v, size := 4, data := atom2Merge f.sub (g.map fun j => y j % 65536),
              cmp := atom2Merge f.sub (g.map fun j => y j / 65536), fan := g }))

/-- R190, R191, R200, R205, R464: where memory instructions trap, with no access made and no register changed but by the trap: an address that its range, allocation or
store does not admit takes the trap of cause RANGE with each failing thread's first failing byte; a misaligned ordered access or atomic, a weight-store load in
a flight that may write it, and a host-half atomic that the host cannot perform take the illegal-operand trap. -/
def Obligations.MemoryInstructionsTrap : Prop :=
  ∀ (i : Instr) (f : Fld) (s : State) (b : Band) (ts : List Nat) (x y z : Nat → Nat), Runs s b → Guarded b f.g f.gn s.issue.threads ts →
    (∀ space st, accessOf i = some (f, space, st) →
      (∀ t ∈ ts, b.readOpnd s.fresh t f.a (if space = 0 then 64 else 32) 1 = .ok (x t) ∧ b.readOpnd s.fresh t f.b 32 2 = .ok (y t)) →
      (st = true → ∀ t ∈ ts, b.readOpnd s.fresh t (if f.dk then .k f.d else .v f.d) (tiBits f.sub) 3 = .ok (z t)) →
      (st = false → b.destPending f (.regs (wordsFor (tiBits f.sub))) ts = false) →
      let n := tiBits f.sub / 8
      let a := fun t => addrSpec f space (x t) (y t)
      let bad := fun t => s.checkAddr b space (if st then needW else needX) (a t) n
      (space = 2 → st = false → ts ≠ [] → (∃ fl, s.flight? b.flight = some fl ∧ fl.wsw = true) → exec i s = exec (.takeTrap { cause := 2 }) s) ∧
      ((space = 2 → st = false → ∀ fl, s.flight? b.flight = some fl → fl.wsw = false) →
        ((f.ord = true ∧ ∃ t ∈ ts, a t % n ≠ 0) → exec i s = exec (.takeTrap { cause := 2 }) s) ∧
        ((f.ord = true → ∀ t ∈ ts, a t % n = 0) → (∃ t ∈ ts, (bad t).isSome = true) →
          exec i s = exec (.takeTrap { cause := 8, addrs := ts.filterMap fun t => (bad t).map fun v => (t, v) }) s))) ∧
    (∀ ret, atomicOf i = some (f, ret) → (∀ t ∈ ts, b.readOpnd s.fresh t f.a 64 1 = .ok (x t)) →
      let ty := f.w2 / 2 ^ 28 % 16
      let n := if ty = 2 ∨ ty = 3 ∨ ty = 5 then 8 else 4
      let a := fun t => (((x t : Int) + signed f.w2 20) % 2 ^ 64).toNat
      (∀ t ∈ ts, b.readOpnd s.fresh t f.b (8 * n) 2 = .ok (y t) ∧ (f.sub = 7 → ret = true → b.readOpnd s.fresh t f.c (8 * n) 3 = .ok (z t))) →
      b.destPending f (if ret then .regs (n / 4) else .none) ts = false →
      ((∃ t ∈ ts, a t % n ≠ 0) → exec i s = exec (.takeTrap { cause := 2 }) s) ∧
      ((∀ t ∈ ts, a t % n = 0) → (∀ t ∈ ts, s.checkAddr b 0 needXWA (a t) n = none) → (∃ t ∈ ts, isHost (s.target b 0 (a t)) = true) →
        (ret = false ∨ ty = 6 ∨ (f.sub ≠ 0 ∧ f.sub ≠ 6 ∧ f.sub ≠ 7)) → exec i s = exec (.takeTrap { cause := 2 }) s))

/-- R194, R203, R204, R216, R223, R225: the instructions that wait for accesses or for tags. WAITC and the tag waits advance the run once their condition holds in every
guarded thread and hold it till then; TFFR writes the lowest set tag of each mask, or 64; TCLR clears the masks' tags and no other. An acquiring FENCE
advances, and leaves no clean sector of a line tagged narrower than its scope in the core's L1; a releasing one advances at once where nothing is
outstanding, dirty or logged, and is held while an access of the band is outstanding. PREF asks for a line or does nothing. Memory is unchanged. -/
def Obligations.WaitsOnAccesses : Prop :=
  ∀ (s : State) (b : Band) (ts : List Nat) (m : Nat → Nat), Runs s b →
    let tags := (s.core s.issue.core).tags
    let moved := fun (t : State) (b' : Band) => t.band? s.issue.key = some b' ∧ t.mem = s.mem ∧ b'.kregs = b.kregs ∧ b'.groups = b.groups ∧
      ∀ j, b'.thread j = { (if j ∈ s.issue.threads then (b.thread j).retired s.issue else b.thread j) with acqs := (b'.thread j).acqs }
    (∀ f : FormX, Guarded b (viewX f).g (viewX f).gn s.issue.threads ts → (viewX f).la = false → (viewX f).lb = false → (viewX f).lc = false →
      let lim := fun (c : Cls) (lo : Nat) => b.outstanding c ≤ f.w2.toNat / 2 ^ lo % 256
      let ok := lim .ld 0 ∧ lim .st 8 ∧ lim .cp 16 ∧ lim .tl 24
      (ts = [] ∨ ok → Acts (.waitc f) s fun t => ∃ b', moved t b' ∧ (∀ n j, b'.vreg? n j = b.vreg? n j) ∧ t.cores = s.cores) ∧
      (ts ≠ [] → ¬ ok → exec (.waitc f) s = .next s.hold)) ∧
    (∀ (i : Instr) (f : Fld), Guarded b f.g f.gn s.issue.threads ts → (∀ t ∈ ts, b.readOpnd s.fresh t f.b 64 2 = .ok (m t)) →
      ((∃ g, i = .twany g ∧ f = viewS g) ∨ (∃ g, i = .twanyX g ∧ f = viewXL g) →
        ((∀ t ∈ ts, tags &&& m t ≠ 0) → Acts i s fun t => ∃ b', moved t b' ∧ (t.core s.issue.core).tags = tags) ∧
        ((∃ t ∈ ts, tags &&& m t = 0) → exec i s = .next s.hold)) ∧
      ((∃ g, i = .twall g ∧ f = viewS g) ∨ (∃ g, i = .twallX g ∧ f = viewXL g) →
        ((∀ t ∈ ts, tags &&& m t = m t) → Acts i s fun t => ∃ b', moved t b' ∧ (t.core s.issue.core).tags = tags) ∧
        ((∃ t ∈ ts, tags &&& m t ≠ m t) → exec i s = .next s.hold)) ∧
      ((∃ g, i = .tclr g ∧ f = viewS g) ∨ (∃ g, i = .tclrX g ∧ f = viewXL g) → Acts i s fun t => ∃ b', moved t b' ∧
        (∀ c, c ≠ s.issue.core → t.core c = s.core c) ∧
        ∀ n, bitOf (t.core s.issue.core).tags n = (bitOf tags n && decide (∀ j ∈ ts, bitOf (m j) n = false))) ∧
      ((∃ g, i = .tffr g ∧ f = viewS g) ∨ (∃ g, i = .tffrX g ∧ f = viewXL g) → f.dk = false → b.destPending f (.regs 1) ts = false →
        Fits s b f 0 64 0 (if ts = [] then [] else f.destNames (.regs 1)) → Acts i s fun t => ∃ b', t.band? s.issue.key = some b' ∧ t.mem = s.mem ∧
          ∀ j ∈ ts, ∃ v : Word, b'.vreg? f.d j = some v ∧
            ((v = 64#32 ∧ ∀ n < 64, ¬ (bitOf tags n = true ∧ bitOf (m j) n = true)) ∨
             (v.toNat < 64 ∧ bitOf tags v.toNat = true ∧ bitOf (m j) v.toNat = true ∧
              ∀ n < v.toNat, ¬ (bitOf tags n = true ∧ bitOf (m j) n = true))))) ∧
    (∀ f : FormS, f.m = 1 → Acts (.fence f) s fun t => ∃ b', moved t b' ∧
      ∀ p ∈ (t.core s.issue.core).l1, p.2.tag < s.scopeOf b (f.d.toNat % 8) → ∀ q ∈ p.2.bytes, q.1 < 64 → p.2.dirtySector (q.1 / 16) = true) ∧
    (∀ f : FormS, (f.m = 2 ∨ f.m = 3) → b.rels = [] →
      ((∀ g ∈ b.groups, g.open = false) → s.cores = [] → s.msgs = [] → Acts (.fence f) s fun t => ∃ b', moved t b' ∧ t.msgs = []) ∧
      ((∃ g ∈ b.groups, g.open = true ∧ g.cls ≠ .cp) → Acts (.fence f) s fun t => t.issue.held = true ∧ t.mem = s.mem ∧ ∀ b', t.band? s.issue.key = some b' →
        b'.threads = b.threads ∧ b'.regs = b.regs)) ∧
    (∀ (i : Instr) (f : Fld) (x y : Nat → Nat), ((∃ g, i = .pref g ∧ f = viewS g) ∨ (∃ g, i = .prefX g ∧ f = viewX g)) →
      Guarded b f.g f.gn s.issue.threads ts → (∀ t ∈ ts, b.readOpnd s.fresh t f.a 64 1 = .ok (x t) ∧ b.readOpnd s.fresh t f.b 32 2 = .ok (y t)) →
      Acts i s fun t => ∃ b' us, moved t b' ∧ t.iq = s.iq ++ us ∧ ∀ u ∈ us, f.sub ≠ 1 ∧ u.kind = .pref ∧ u.gid = 0 ∧ ∃ j ∈ ts, u.thread = j ∧
        u.va = addrSpec f 0 (x j) (y j) ∧ s.checkAddr b 0 needX u.va 1 = none)

/-- R211 to R215: WATCH adds each distinct line that a guarded thread names to the band's set of at most four, with clear event bits, and takes the illegal-operand
trap where the set would exceed four; UNWATCH removes the named lines, or all. WAITW lets a guarded thread with an event, or of a band with an empty
set, advance with its events cleared, and parks the others. A parked thread of a band with an untabled line wakes after 2,048 cycles. -/
def Obligations.WatchesAndWaits : Prop :=
  ∀ (i : Instr) (f : Fld) (s : State) (b : Band) (ts : List Nat) (x y : Nat → Nat), Runs s b → Guarded b f.g f.gn s.issue.threads ts →
    let space := f.space
    let a := fun t => addrSpec f space (x t) (y t)
    let name := fun t => if space = 0 then s.target b 0 (a t) / 64 * 64 else 2 ^ 63 + a t / 64 * 64
    let held := fun n => ∃ w ∈ b.watches, w.name = n
    let reads := ∀ t ∈ ts, b.readOpnd s.fresh t f.a (if space = 0 then 64 else 32) 1 = .ok (x t) ∧ b.readOpnd s.fresh t f.b 32 2 = .ok (y t) ∧
      s.checkAddr b space needX (a t) 1 = none
    ((∃ g, i = .watch g ∧ f = viewS g) ∨ (∃ g, i = .watchX g ∧ f = viewX g) → (space = 0 ∨ space = 1) → reads → ∀ new : List Nat, new.Nodup →
      (∀ n, n ∈ new ↔ ¬ held n ∧ ∃ t ∈ ts, name t = n) →
      (4 < b.watches.length + new.length → exec i s = exec (.takeTrap { cause := 2 }) s) ∧
      (b.watches.length + new.length ≤ 4 → (space = 0 → ∀ t ∈ ts, s.mapped (s.target b 0 (a t)) false = true) →
        Acts i s fun t => ∃ b' ws, t.band? s.issue.key = some b' ∧ t.mem = s.mem ∧ b'.watches = b.watches ++ ws ∧ ws.length = new.length ∧
          (∀ w ∈ ws, w.name ∈ new ∧ w.events = 0 ∧ w.marked = true) ∧ (∀ n ∈ new, ∃ w ∈ ws, w.name = n) ∧
          ∀ j, b'.thread j = if j ∈ s.issue.threads then (b.thread j).retired s.issue else b.thread j)) ∧
    ((∃ g, i = .unwatch g ∧ f = viewS g) ∨ (∃ g, i = .unwatchX g ∧ f = viewX g) →
      (f.sub = 1 → Acts i s fun t => ∃ b', t.band? s.issue.key = some b' ∧ t.mem = s.mem ∧ b'.watches = (if ts = [] then b.watches else []) ∧
        ∀ j, b'.thread j = if j ∈ s.issue.threads then (b.thread j).retired s.issue else b.thread j) ∧
      (f.sub ≠ 1 → (space = 0 ∨ space = 1) → reads → Acts i s fun t => ∃ b', t.band? s.issue.key = some b' ∧ t.mem = s.mem ∧
        (∀ w, w ∈ b'.watches ↔ w ∈ b.watches ∧ ∀ j ∈ ts, name j ≠ w.name) ∧
        ∀ j, b'.thread j = if j ∈ s.issue.threads then (b.thread j).retired s.issue else b.thread j)) ∧
    ((∃ g, i = .waitw g ∧ f = viewS g) ∨ (∃ g, i = .waitwX g ∧ f = viewX g) →
      let parks := fun j => j ∈ ts ∧ b.watches ≠ [] ∧ b.hasEvent j = false
      ∃ b', exec i s = .next { s with bands := Tbl.put s.bands s.issue.key b' } ∧ b' = { b with threads := b'.threads, watches := b'.watches } ∧
        b'.watches.length = b.watches.length ∧ (∀ j ∈ ts, b'.hasEvent j = false) ∧ (∀ j, j ∉ ts → b'.hasEvent j = b.hasEvent j) ∧
        (∀ j, parks j → b'.thread j = { b.thread j with state := .onWatch, park := .waitw (s.cycleAt s.issue.core) s.issue.len }) ∧
        ∀ j, ¬ parks j → b'.thread j = if j ∈ s.issue.threads then (b.thread j).retired s.issue else b.thread j) ∧
    (∀ k b0 t since len, s.band? k = some b0 → t < b0.threads.length → (b0.thread t).state = .onWatch → (b0.thread t).park = .waitw since len →
      (∃ w ∈ b0.watches, w.tabled = false) → since + 2048 ≤ s.cycleAt (keyCore k) →
      Acts (.waitwTimeout k t) s fun t' => ∃ b', t'.band? k = some b' ∧ t'.mem = s.mem ∧ b'.thread t = { b0.thread t with
        state := if b0.halted then .halted else .ready, pc := ((b0.thread t).pc + len) % 65536, park := .none } ∧ ∀ j, j ≠ t → b'.thread j = b0.thread j)

/-- R198, R200, R207, R209, R281, R282, R285, R344: the steps of the visibility machine. Each acts where its condition holds and makes its own effect: a load is served by
its core, or goes out as a request; a store enters the write buffer, its L1 or the fabric; a sector leaves as one write or becomes invalid; the oldest
message of a queue arrives; the home performs a delivered write, read or atomic; a response fills its line and completes its load; an invalidation drops
clean sectors; the side log replays; a bank performs an access; ages and refresh windows act. Only the home and the banks change memory, and exactly
the bytes of the write or atomic that they perform. -/
def Obligations.VisibilitySteps : Prop :=
  ∀ (s : State) (a : Acc) (n : Nat), s.acc? n = some a →
    let line := (s.core a.core).line a.addr
    let free := a.space = 0 ∧ a.sent = false ∧ s.inOrder a = true ∧ a.rel = false ∧ s.logsPage a.core a.addr = false ∧ s.portHeld a = false
    let home := fun pa => if isHost a.addr then agentIO else agentSlice (lineOf pa)
    (a.kind = .load → free → a.mustMiss = false → s.redPending a = false → a.acq = false → ∀ l, s.localBytes a line a.size = some l →
      Acts (.localLoad n) s fun t => t.acc? n = none ∧ t.mem = s.mem ∧ t.msgs = s.msgs ∧ (t.core a.core).l1 = (s.core a.core).l1 ∧
        ∀ b, s.band? a.band = some b → t.band? a.band = some (a.threads.foldl (fun b j => b.unitDone a.gid j a.off a.size (ofBytes l)) b)) ∧
    (a.kind = .load → free → s.redPending a = false → s.siblingDirty a.core a.addr = false → (a.mustMiss = true ∨ s.localBytes a line a.size = none) →
      s.mayRequest a.core = true → ∀ pa, s.cached a.core a.addr false = some pa → Acts (.missRequest n) s fun t => t.mem = s.mem ∧ t.acc? n = some { a with sent := true, faulted := false, pa := pa } ∧
        t.msgs = s.msgs ++ [{ id := s.nextId, src := a.core, dst := home pa, lane := laneOf a.addr, body := .read a.id (lineOf a.addr) (lineOf pa) a.scope }]) ∧
    (a.kind = .store → free → ∀ pa, s.cached a.core a.addr true = some pa → Acts (.bufferAStore n) s fun t =>
      t.wb = s.wb ++ [{ a with pa := pa }] ∧ t.acc? n = none ∧ t.mem = s.mem ∧ t.msgs = s.msgs) ∧
    (a.kind = .store → free → isHost a.addr = false → s.cached a.core a.addr true = none → s.mapped a.addr true = false → (s.core a.core).sidelog = [] →
      Acts (.bufferAStore n) s fun t => t.acc? n = none ∧ t.mem = s.mem ∧ ∃ e, (t.core a.core).sidelog = [e] ∧ e.ia = a.addr / 8 * 8 ∧ e.scope = a.scope ∧
        e.ctx = a.ctx ∧ e.flight = a.flight ∧ e.btid = a.thread) ∧
    (a.space = 1 → a.rel = false → a.acq = false → s.inOrder a = true → s.clusters = [] →
      (∀ c ∈ s.iq, c.id < a.id → c.core = a.core → c.space = a.space → bankOf c.addr ≠ bankOf a.addr) →
      (a.kind = .store → (∀ p ∈ s.flights, p.2.bars = []) → Acts (.performAtABank (.access n)) s fun t => t.acc? n = none ∧
        t.mem = s.mem.write (placeScratch (coreCluster a.core) a.addr) a.size a.data) ∧
      (a.kind = .load → Acts (.performAtABank (.access n)) s fun t => t.acc? n = none ∧ t.mem = s.mem ∧ ∀ b, s.band? a.band = some b → t.band? a.band =
        some (a.threads.foldl (fun b j => b.unitDone a.gid j a.off a.size (s.mem.read (placeScratch (coreCluster a.core) a.addr) a.size)) b))) ∧
    (∀ d bank, s.iq = [a] → a.space = 2 → a.acq = false → a.rel = false → coreDie a.core = d → bankOf a.addr = bank → (s.die d).inWindow bank = false → s.poison = [] →
      s.inOrder a = true → Acts (.refreshWindowClose d bank) s fun t => t.iq = [] ∧ t.mem = s.mem ∧ ∀ b, s.band? a.band = some b → t.band? a.band =
        some (a.threads.foldl (fun b j => b.unitDone a.gid j a.off a.size (s.mem.read (placeWst d a.addr) a.size)) b))

/-- R198, R285, R286, R344: what the write buffers, the L1s and the clocks do on their own. -/
def Obligations.CacheSteps : Prop :=
  ∀ s : State,
    (∀ n a, (s.wb.find? fun a => decide (a.id = n)) = some a → s.wbFirst a = true → a.kind = .store → isHost a.addr = false → 0 < a.size → a.addr % 64 + a.size ≤ 64 →
      (a.scope < 3 → (s.core a.core).hasWay a.addr = true → Acts (.drainIntoL1 n) s fun t => t.mem = s.mem ∧ t.msgs = s.msgs ∧ (∀ c ∈ t.wb, c.id ≠ n) ∧
        ∀ i < a.size, Tbl.find? ((t.core a.core).line a.addr).bytes (a.addr % 64 + i) = some (BitVec.ofNat 8 (a.data / 256 ^ i)) ∧
          a.addr % 64 + i ∈ ((t.core a.core).line a.addr).dirty) ∧
      (4 ≤ a.scope → s.mayRequest a.core = true → Acts (.writeThrough n) s fun t => t.mem = s.mem ∧ (∀ c ∈ t.wb, c.id ≠ n) ∧ ∃ m ∈ t.msgs, m.src = a.core ∧ m.dst = agentSlice (lineOf a.pa) ∧
        m.delivered = false ∧ m.body = .write (lineOf a.addr) (lineOf a.pa) ((List.range a.size).map fun i => (a.addr % 64 + i, BitVec.ofNat 8 (a.data / 256 ^ i))) 8
          a.band a.gid a.thread)) ∧
    (∀ core ia sector, sector < 4 → let l := (s.core core).line ia
      (l.dirtySector sector = true → isHost ia = false → Acts (.writeBack core ia sector) s fun t => t.mem = s.mem ∧
        ((t.core core).line ia).dirtySector sector = false ∧ ∃ m ∈ t.msgs, m.src = core ∧ m.dst = agentSlice (lineOf l.pa) ∧
          m.body = .write (lineOf ia) (lineOf l.pa) (l.dirtyBytes sector) l.tag 0 0 0) ∧
      (l.dirtySector sector = false → Acts (.drop core ia sector) s fun t => t.mem = s.mem ∧ t.msgs = s.msgs ∧
        (∀ o, o / 16 = sector → Tbl.find? ((t.core core).line ia).bytes o = none) ∧
        ∀ o, o / 16 ≠ sector → Tbl.find? ((t.core core).line ia).bytes o = Tbl.find? l.bytes o) ∧
      (∀ c, l.dirtySector sector = false → Tbl.find? l.filled sector = some c → c + 2 ^ 20 ≤ s.cycleAt core → Acts (.sectorAgeExpiry core ia sector) s fun t =>
        t.mem = s.mem ∧ ∀ o, o / 16 = sector → Tbl.find? ((t.core core).line ia).bytes o = none) ∧
      (∀ c, l.dirtySector sector = true → Tbl.find? l.dirtied sector = some c → c + 2 ^ 20 ≤ s.cycleAt core → Acts (.sectorAgeExpiry core ia sector) s fun t =>
        t.mem = s.mem ∧ ((t.core core).line ia).dirtySector sector = false)) ∧
    (∀ pre m post, s.msgs = pre ++ m :: post → m.delivered = false → (∀ q ∈ pre, q.src = m.src → q.dst = m.dst → q.lane = m.lane → q.delivered = true) →
      ((∀ k g t, m.body ≠ .ack k g t) → Acts (.deliver m.src m.dst m.lane) s fun t =>
        t = { s with msgs := pre ++ post ++ [{ m with delivered := true }] }) ∧
      (∀ k g j, m.body = .ack k g j → Acts (.deliver m.src m.dst m.lane) s fun t => t.msgs = pre ++ post ∧ t.mem = s.mem ∧
        ∀ b, s.band? k = some b → t.band? k = some (b.unitDone g j 0 0 0))) ∧
    (∀ m, (s.msgs.find? fun q => q.id = m.id && q.delivered) = some m → m.delivered = true →
      (∀ ia, m.body = .inv ia → Acts (.invalidate m.id) s fun t => t.mem = s.mem ∧ (∀ q ∈ t.msgs, q.id ≠ m.id) ∧
        (∀ p ∈ t.bands, keyCore p.1 = m.dst → ∀ th ∈ p.2.threads, m.id ∉ th.acqs) ∧
        ∀ q ∈ ((t.core m.dst).line ia).bytes, q.1 < 64 → ((t.core m.dst).line ia).dirtySector (q.1 / 16) = true) ∧
      (∀ n a ia bs invs, m.body = .resp n ia bs invs → s.acc? n = some a → a.acq = false → (s.core a.core).hasWay ia = true →
        let l := (s.core a.core).line ia
        Acts (.fill m.id) s fun t => t.mem = s.mem ∧ t.acc? n = none ∧ (∀ q ∈ t.msgs, q.id ≠ m.id) ∧
          (listLine ia = true → (t.core a.core).line ia = l) ∧
          (listLine ia = false → a.stale = true → ∀ q ∈ ((t.core a.core).line ia).bytes, q.1 < 64 → l.dirtySector (q.1 / 16) = true) ∧
          (listLine ia = false → a.stale = false → a.newer = [] → ∀ o < 64, Tbl.find? ((t.core a.core).line ia).bytes o =
            if l.dirty.contains o ∨ Tbl.find? bs o = none then Tbl.find? l.bytes o else Tbl.find? bs o) ∧
          (l.dirty = [] → s.wb = [] → a.newer = [] → a.addr % 64 + a.size ≤ 64 → ∀ v : Nat → Byte,
            (∀ i < a.size, Tbl.find? bs (a.addr % 64 + i) = some (v i)) → ∀ b, s.band? a.band = some b → t.band? a.band =
              some (a.threads.foldl (fun b j => b.unitDone a.gid j a.off a.size (ofBytes ((List.range a.size).map v))) b))) ∧
      (∀ n a old invs, m.body = .aresp n old invs → s.acc? n = some a → a.acq = false → Acts (.fill m.id) s fun t => t.mem = s.mem ∧ t.acc? n = none ∧
        ∀ b, s.band? a.band = some b → t.band? a.band = some (a.threads.foldl (fun b j => b.unitDone a.gid j a.off a.size old) b))) ∧
    (∀ core e pa, (s.core core).sidelog = [e] → e.replaying = false → e.red = false → isHost e.ia = false → s.portPA core e.ia true = some pa →
      s.shootHolds (coreDie core) e.ia e.ctx = false → Acts (.replay core e.seq) s fun t => t.mem = s.mem ∧
        (t.core core).sidelog = [{ e with replaying := true }] ∧ ∃ m ∈ t.msgs, m.src = core ∧ m.dst = agentSlice (lineOf pa) ∧
          m.body = .write (lineOf e.ia) (lineOf pa) ((members e.bmask 8).map fun i => (e.ia % 64 + i, BitVec.ofNat 8 (e.data / 256 ^ i))) 9 core 0 e.seq) ∧
    (∀ d, Acts (.refreshPeriodStart d) s fun t => t.mem = s.mem ∧ (t.die d) = { s.die d with refBase := (s.die d).periodStart } ∧ ∀ e, e ≠ d → t.die e = s.die e) ∧
    (∀ d p w g, (∀ q ∈ s.bands, coreDie (keyCore q.1) ≠ d) → p < 65536 → w < 256 → g < 256 → 64 * g * 63 + 8 * w ≤ 64 * p →
      Acts (.refreshParameterChange d p w g) s fun t => t.mem = s.mem ∧
        t.die d = { s.die d with refBase := (s.die d).cycle, period := p, wlen := w, stagger := g })

/-- R206, R207, R285, R295: the home slice performs a delivered request as one step. A write changes exactly its bytes; a read answers with the line's bytes and
changes none; an ATOM writes the operation's result over the old value that it sends back, so that no other access falls between. Stated for device
memory without poison and without live barrier records, whose counts a program's write loses (R257). -/
def Obligations.SliceStepsAreIndivisible : Prop :=
  ∀ (s : State) (m : Msg), (s.msgs.find? fun q => decide (q.id = m.id)) = some m → s.mayPerform m = true → s.poison = [] → s.mem.wf = true →
    (∀ p ∈ s.flights, p.2.bars = []) →
    (∀ ia pa bs tag band gid th, m.body = .write ia pa bs tag band gid th → isHost ia = false → inWindow ia = false → tag ≠ 9 →
      Acts (.performAtTheSlice (.request m.id)) s fun t => t.mem = s.mem.writeAt pa bs ∧ (∀ q ∈ t.msgs, q.id ≠ m.id ∨ s.nextId ≤ q.id) ∧
        ∀ x, (∀ p ∈ bs, x ≠ pa + p.1) → t.mem.byte x = s.mem.byte x) ∧
    (∀ n ia pa scope, m.body = .read n ia pa scope → isHost ia = false → inWindow ia = false → Acts (.performAtTheSlice (.request m.id)) s fun t => t.mem = s.mem ∧
      ∃ q ∈ t.msgs, q.src = m.dst ∧ q.dst = m.src ∧ q.lane = m.lane ∧ ∃ invs, q.body = .resp n ia ((List.range 64).map fun o => (o, s.mem.byte (pa + o))) invs) ∧
    (∀ n a ia pa old, m.body = .atomic n ia pa 0 old → s.acc? n = some a → a.kind = .atom → isHost ia = false → inWindow ia = false →
      let o := s.mem.read pa a.size
      Acts (.performAtTheSlice (.request m.id)) s fun t => (∀ x, x < pa ∨ pa + a.size ≤ x → t.mem.byte x = s.mem.byte x) ∧
        t.mem.read pa a.size = atomNew a.op a.ty o a.data a.cmp % 256 ^ a.size ∧ ∃ q ∈ t.msgs, q.dst = m.src ∧ ∃ invs, q.body = .aresp n o invs) ∧
    (∀ ty x y c, ty = 0 ∨ ty = 1 ∨ ty = 4 → x < 2 ^ 32 → y < 2 ^ 32 → atomNew 0 ty x y c = (x + y) % 2 ^ 32 ∧ atomNew 6 ty x y c = y ∧
      atomNew 7 ty x y c = (if x = c then y else x) ∧ (ty = 0 → signed (atomNew 1 ty x y c) 32 = min (signed x 32) (signed y 32)) ∧
      (ty = 1 → atomNew 2 ty x y c = max x y) ∧ ∀ i, bitOf (atomNew 3 ty x y c) i = (bitOf x i && bitOf y i) ∧ bitOf (atomNew 4 ty x y c) i = (bitOf x i || bitOf y i) ∧
        bitOf (atomNew 5 ty x y c) i = (bitOf x i != bitOf y i))

/-! ### Tile copies and overlays (R217 to R227) -/

/-- R219 to R222, R226, R227, R443: TCPY reads and checks each guarded thread's record, then clears the tag, raises its pending count by one for each copy,
counts the run under cp and hands the records over; a grid copy's predicate is false, and true where its persistent instance is busy, with no tag
touched. A completed copy lowers the pending count and sets the tag where it reaches zero. OVL empties its slot on its core or pair and starts the load; its
completion gives the slot its overlay id, words and source. -/
def Obligations.CopiesAndOverlays : Prop :=
  ∀ (s : State) (b : Band) (f : FormX) (ts : List Nat) (x r : Nat → Nat) (grid : Bool), Runs s b →
    Guarded b (viewX f).g (viewX f).gn s.issue.threads ts →
    let v := viewX f
    let co := s.issue.core
    let i : Instr := if grid then .tcpyGrid f else .tcpy f
    let tag := v.w2 % 64
    let tg : Target := if grid then .pred else .none
    let wsw := match s.flight? b.flight with | some fl => fl.wsw | none => false
    let moved := fun (b' : Band) => LastReadsOnly b b' v 64 0 0 s.issue.threads ∧ b'.kregs = b.kregs ∧ ∀ j, b'.thread j =
      { (if j ∈ s.issue.threads then (b.thread j).retired s.issue else b.thread j) with preds := (b'.thread j).preds, rndctr := (b'.thread j).rndctr }
    (ts = [] → Acts i s fun t => ∃ b', t = { s with bands := Tbl.put s.bands s.issue.key b' } ∧ b'.groups = b.groups ∧ moved b') ∧
    (ts ≠ [] → (∀ j ∈ ts, b.readOpnd s.fresh j v.a 64 1 = .ok (x j)) → b.destPending v tg ts = false →
      s.sliceRecords b needX 64 (ts.map fun j => (j, x j)) = .ok (.ok (ts.map fun j => (j, r j))) →
      (∀ j ∈ ts, (tileOf (r j)).bad (r j) grid wsw = false ∧ s.tileBeyond b (tileOf (r j)) grid = false) →
      ((∀ j ∈ ts, (tileOf (r j)).pers = false) → b.roomFor .cp = true → Acts i s fun t => t.mem = s.mem ∧
        (∃ b' g, t.band? s.issue.key = some b' ∧ moved b' ∧ b'.groups = b.groups ++ [g] ∧ g.gid = s.nextId ∧ g.cls = .cp ∧ g.dest = .none ∧
          (∀ j, Tbl.get g.left j 0 = if j ∈ ts then 1 else 0) ∧
          ∀ j p, bitOf (b'.thread j).preds p = if grid = true ∧ j ∈ ts ∧ p = v.d % 8 ∧ p ≠ 7 then false else bitOf (b.thread j).preds p) ∧
        (∀ n, bitOf (t.core co).tags n = (bitOf (s.core co).tags n && decide (n ≠ tag)) ∧
          Tbl.get (t.core co).pend n 0 = Tbl.get (s.core co).pend n 0 + if n = tag then ts.length else 0) ∧
        (∀ c, c ≠ co → t.core c = s.core c) ∧
        (∀ n < ts.length, ∃ c, Tbl.find? t.copies (s.nextId + 1 + n) = some c ∧ c.thread = ts.getD n 0 ∧ c.record = r (ts.getD n 0) ∧ c.recAddr = x (ts.getD n 0) ∧
          c.tag = some tag ∧ c.grid = grid ∧ c.gid = s.nextId ∧ c.next = 0 ∧ c.total = (tileOf (r (ts.getD n 0))).total ∧ c.stopped = false ∧ c.sent = false ∧
          c.core = co ∧ c.ovl = none) ∧
        ∀ id, (id ≤ s.nextId ∨ s.nextId + ts.length < id) → Tbl.find? t.copies id = Tbl.find? s.copies id) ∧
      (grid = true → (∀ j ∈ ts, (tileOf (r j)).pers = true ∧ startInstance (s.cluster (coreCluster co)).pkeys (tileOf (r j)) = .ok none) →
        Acts i s fun t => t.mem = s.mem ∧ t.cores = Tbl.put s.cores co (s.core co) ∧ t.copies = s.copies ∧ ∃ b', t.band? s.issue.key = some b' ∧ moved b' ∧
          b'.groups = b.groups ∧ ∀ j p, bitOf (b'.thread j).preds p = if j ∈ ts ∧ p = v.d % 8 ∧ p ≠ 7 then true else bitOf (b.thread j).preds p)) ∧
    (∀ id c k bk co' pr sb tag, Tbl.find? s.copies id = some c → c.ovl = none → c.total ≤ c.next ∨ c.stopped = true → c.waits = [] → c.tag = some tag →
      s.unitFlying (agentCopy c.cluster) id = false →
      (c.grid = false ∨ c.sent = true ∨ c.stopped = true) → s.placeOfTeam c.flight c.team = .resident co' pr sb →
      s.keyOfUid (uidOf c.flight c.team c.bandid) = some k → s.band? k = some bk →
      let n := Tbl.get (s.core (keyCore k)).pend tag 0 - 1
      Acts (.tileCopyComplete id) s fun t => t.mem = s.mem ∧ t.band? k = some (bk.unitDone c.gid c.thread 0 1 0) ∧
        (∀ m, Tbl.find? t.copies m = if m = id then none else Tbl.find? s.copies m) ∧
        ∀ m, bitOf (t.core (keyCore k)).tags m = (bitOf (s.core (keyCore k)).tags m || decide (m = tag ∧ n = 0)) ∧
          Tbl.get (t.core (keyCore k)).pend m 0 = if m = tag then n else Tbl.get (s.core (keyCore k)).pend m 0) ∧
    (∀ id c, Tbl.find? s.copies id = some c → c.ovl = none → c.total ≤ c.next → c.grid = true → c.sent = false → c.stopped = false →
      s.unitFlying (agentCopy c.cluster) id = false →
      (∀ q ∈ (tileOf c.record).ranks, q = s.rank ∨ s.alive q = true) →
      Acts (.tileCopyComplete id) s fun t => t.mem = s.mem ∧ ∃ c', Tbl.find? t.copies id = some c' ∧ c' = { c with sent := true, waits := (tileOf c.record).ranks, payload := [] }) ∧
    (∀ id c cl base, Tbl.find? s.copies id = some c → c.ovl = none → c.grid = false → c.stopped = false → c.next < c.total →
      s.scratchAt c.flight c.team c.cluster c.sbase = .here cl base → (∀ p ∈ s.flights, p.2.bars = []) →
      let y := tileOf c.record
      y.sspc = 1 → y.dspc = 1 → y.rop = 0 → Acts (.performAtABank (.copyElement id)) s fun t =>
        t.mem = s.mem.write (placeScratch cl (base + y.dstAt c.next)) y.z (s.mem.read (placeScratch cl (base + y.srcAt c.next)) y.z) ∧
        Tbl.find? t.copies id = some { c with next := c.next + 1 }) ∧
    (∀ t0 src n, ts = [t0] → b.readOpnd s.fresh t0 v.a 64 1 = .ok src → b.readOpnd s.fresh t0 v.b 32 2 = .ok n →
      let slot := bits v.w2 17 16
      let cores := s.ovlCores co
      ((src % 64 ≠ 0 ∨ n = 0 ∨ 16384 < n ∨ b.stands slot = true) → exec (.ovl f) s = exec (.takeTrap { cause := 2 }) s) ∧
      (src % 64 = 0 → 0 < n → n ≤ 16384 → b.stands slot = false → firstFail (s.coreRanges co) needX src (4 * n) = none →
        (∀ p ∈ s.bands, keyCore p.1 ∈ cores → p.2.stands slot = false) → b.roomFor .cp = true → Acts (.ovl f) s fun t => t.mem = s.mem ∧
          (∃ b' g, t.band? s.issue.key = some b' ∧ b'.groups = b.groups ++ [g] ∧ g.cls = .cp ∧ g.gid = s.nextId ∧
            ∀ j, b'.thread j = if j ∈ s.issue.threads then (b.thread j).retired s.issue else b.thread j) ∧
          (∀ c ∈ cores, ∀ m, (t.core c).overlays.getD m {} = if m = slot then {} else (s.core c).overlays.getD m {}) ∧
          (∀ c, c ∉ cores → t.core c = s.core c) ∧ ∃ c, Tbl.find? t.copies (s.nextId + 1) = some c ∧ c.ovl = some (slot, v.w2 % 65536, n, src) ∧ c.total = n ∧
            c.next = 0 ∧ c.payload = [] ∧ c.waits = cores)) ∧
    (∀ id c slot ovid n src, Tbl.find? s.copies id = some c → c.ovl = some (slot, ovid, n, src) → c.total ≤ c.next → c.stopped = false →
      s.keyOfUid (uidOf c.flight c.team c.bandid) ≠ none → Acts (.ovlComplete id) s fun t => t.mem = s.mem ∧ Tbl.find? t.copies id = none ∧ (∀ c', c' ∉ c.waits → t.core c' = s.core c') ∧
        ∀ k ∈ c.waits, slot < (s.core k).overlays.length → ∀ m, (t.core k).overlays.getD m {} =
          if m = slot then { ovid := some ovid, words := c.payload.map fun p => BitVec.ofNat 32 p.2, src := src } else (s.core k).overlays.getD m {})

/-! ### The matrix engine (R228 to R256, R300 to R318) -/

/-- R228, R229, R237 to R256, R402: a tile operation whose run passes its checks posts one entry, adds one to the band's tl counter and retires; it acts for the lowest
guarded thread, and does nothing but retire where no thread is guarded. A parameter block that breaks the layout takes the illegal-operand trap. MFENCE
advances once no register write and no scratchpad store of the band is outstanding. -/
def Obligations.EngineInstructionsPost : Prop :=
  ∀ (s : State) (b : Band) (i : Instr) (f : Fld) (wa wb : Nat) (ts : List Nat), Runs s b →
    (tileInstr i = some (f, wa, wb) → Guarded b f.g f.gn s.issue.threads ts →
      let t0 := ts.headD 0
      let ctx := s.bandCtx b
      let posts := fun (b0 : Band) (wa' : Nat) (op : TileOp) (dest : Dest) (tl : List Nat) =>
        CanPost s b0 op → ∃ t b', exec i s = .next t ∧ Posted s t b0 b' f wa' wb op t0 dest tl
      let addr := fun (a : Nat) => b.readOpnd s.fresh t0 f.a wa 1 = .ok a
      let block := fun (space n x : Nat) => ∃ a, addr a ∧ a % 64 = 0 ∧
        if space = 1 then firstBeyond a n (s.alloc b).2 = none ∧ ∃ g gs, (b.groups.filter (·.isBlock s.issue 1)) = g :: gs ∧ g.open = false ∧ Tbl.get g.buf t0 0 = x
        else s.blockRead b 1 [t0] [{ thread := t0, va := a, addr := s.target b 0 a, size := n }] (fun _ => none) = .ok (.got [(t0, x)])
      let good := fun (pb : Nat) => pbBad pb (s.engine.routeOf ctx (mmaOf pb).rreg)
          (match s.flight? b.flight with | some fl => (Tbl.get fl.members b.team { teamb := fl.teamb }).teamb | none => 1) b.width = false
      let inside := fun (pb : Nat) => pbBeyond pb (s.alloc b).2 (s.coreRanges s.issue.core) = false
      (ts = [] → Acts i s fun t => ∃ b', t = { s with bands := Tbl.put s.bands s.issue.key b' } ∧ b'.groups = b.groups ∧
        LastReadsOnly b b' f wa wb 0 s.issue.threads ∧ ∀ j, b'.thread j = if j ∈ s.issue.threads then (b.thread j).retired s.issue else b.thread j) ∧
      (ts ≠ [] →
        (∀ g, i = .rslv g → posts b wa (.rslv f.slot f.nm1 (decide (f.mf % 2 = 1)) f.rnd) .none [t0]) ∧
        (∀ g : FormS, i = .acz g → posts b wa (.acz (g.d.toNat + 64 * (g.a.toNat % 2)) 0) .none [t0]) ∧
        (∀ g, i = .aczX g → posts b wa (.acz f.slot f.nm1) .none [t0]) ∧
        (∀ g, i = .acmov g → posts b wa (.acmov f.slot f.nm1 f.slotb) .none [t0]) ∧
        (∀ g, i = .acmp g → b.destPending f .pred ts = false →
          posts b wa (.acmp f.slot f.nm1 f.slotb f.sub (decide (f.mf % 2 = 1)) (bitOf f.mf 1) (f.d % 8) ts) (.pred (f.d % 8)) ts) ∧
        (∀ g a, i = .acld g → addr a → a % 64 = 0 →
          s.checkAddr b (f.sub % 2) needX a ((f.nm1 + 1) * 1024 * (if f.mf % 8 = 0 then 12 else formBytes (f.mf % 8))) = none →
          posts b wa (.acld f.slot f.nm1 (f.mf % 8) (f.sub % 2) a) .none [t0]) ∧
        (∀ g a, i = .acst g → addr a → a % 64 = 0 →
          s.checkAddr b (f.sub % 2) needW a ((f.nm1 + 1) * 1024 * (if f.mf % 8 = 0 then 12 else formBytes (f.mf % 8))) = none →
          posts b wa (.acst f.slot f.nm1 (f.mf % 8) (f.sub % 2) a f.rnd) .none [t0]) ∧
        (∀ g n pb, i = .mma g → f.sub = 0 → f.a = .k n → b.readKGroup n 16 = .ok pb →
          (good pb → inside pb → posts b 0 (.mma pb) .none [t0]) ∧ (¬ good pb → exec i s = exec (.takeTrap { cause := 2 }) s) ∧
          (good pb → ¬ inside pb → exec i s = exec (.takeTrap { cause := 8 }) s)) ∧
        (∀ g pb, i = .mma g → f.sub ≠ 0 → block 0 64 pb → good pb → inside pb → posts (b.consume s.issue) wa (.mma pb) .none [t0]) ∧
        (∀ g x, i = .mptbl g → block (bits f.sub 1 1) 256 x →
          let l := (List.range 256).map fun i => x / 2 ^ (8 * i) % 256
          (l.Nodup → posts (b.consume s.issue) wa (.mptbl (f.sub % 2) l) .none [t0]) ∧ (¬ l.Nodup → exec i s = exec (.takeTrap { cause := 2 }) s)) ∧
        (∀ g x, i = .mcbtbl g → block (bits f.sub 1 1) 768 x →
          posts (b.consume s.issue) wa (.mcbtbl (f.sub % 2) ((List.range 256).map fun e => x / 2 ^ (24 * e) % 2 ^ 24)) .none [t0]) ∧
        (∀ g n x, i = .mroute g → f.a = .k n → b.readKGroup n 4 = .ok x → bits x 35 34 = 0 → bits x 3 2 = 0 → posts b wa (.mroute (f.sub % 8) x) .none [t0]) ∧
        (∀ g a, i = .mxqPush g → addr a → a % 128 = 0 → s.engine.ringAhead.faulted = false → s.engine.ringAhead.owner = some ctx →
          firstBeyond a 128 (s.alloc b).2 = none → s.engine.ringAhead.tail - s.engine.ringAhead.head + s.engine.pushes < s.engine.ringAhead.entries →
          posts b wa (.mxqPush a) .none [t0]) ∧
        (∀ g a k, i = .mxqInit g → addr a → a % 128 = 0 → b.readOpnd s.fresh t0 f.b 32 2 = .ok (2 ^ (k + 1)) → k < 8 →
          s.engine.ringAhead.tail ≤ s.engine.ringAhead.head → s.engine.pushes = 0 → firstBeyond a (128 * 2 ^ (k + 1)) (s.alloc b).2 = none →
          posts b wa (.mxqInit a (2 ^ (k + 1))) .none [t0]))) ∧
    (∀ g, i = .mfence g → (∀ q ∈ b.groups, q.open = true → ∀ n ti, q.dest ≠ .v n ti) →
      (∀ a ∈ s.iq ++ s.wb, a.uid = b.uid → a.space = 1 → a.kind ≠ .store) →
      Acts i s fun t => ∃ b', t = { s with bands := Tbl.put s.bands s.issue.key b' } ∧ b'.groups = b.groups ∧
        LastReadsOnly b b' (viewS g) 0 0 0 s.issue.threads ∧ ∀ j, b'.thread j = if j ∈ s.issue.threads then (b.thread j).retired s.issue else b.thread j)

/-- R303, R304, R245, R307 to R309: the arbiter. It chooses, of the entries that may be granted, one of the greatest rank, and among those the earliest posted; an
entry is promoted when its age reaches 4,096 cycles. A grant starts the entry's pass; an MMA's first grant makes its output slots RAW, from reset or with
their elements, and resumes slots that a stop left. Each pass ends with its effect on one slot, one K step, or a table, and advances the entry, which
retires with its last one; a fused epilogue queues the blocks in order instead. -/
def Obligations.EngineGrantsAndPasses : Prop :=
  ∀ (s : State) (cl n : Nat) (e : Entry), Tbl.find? (s.eng cl).table n = some e → e.retired = false →
    let g := s.eng cl
    let entry := fun (t : State) (p : Entry → Prop) => ∃ e', Tbl.find? (t.eng cl).table n = some e' ∧ p e'
    let ends := fun (t : State) => entry t fun e' => e'.op = e.op ∧ e'.prog = e.prog + 1 ∧ e'.passing = false ∧
      e'.retired = decide (e.op.passes ≤ e.prog + 1)
    let onlySlots := fun (t : State) (p : Nat → Prop) => ∀ m, ¬ p m → (t.eng cl).slot m = g.slot m
    (∀ a m, (∀ p ∈ g.table, p.1 < 2 ^ 40 ∧ p.2.prio ≤ 3) → s.chosen cl a = some m → ∃ c, (m, c) ∈ g.live ∧ c.op.onArray = a ∧ s.eligible cl m c = true ∧
      ∀ p ∈ g.live, p.2.op.onArray = a → s.eligible cl p.1 p.2 = true → p.2.rank ≤ c.rank ∧ (p.2.rank = c.rank → m ≤ p.1)) ∧
    (∀ m c, s.eligible cl m c = true → c.posted + 4 ≤ (s.die (clusterDie cl)).cycle ∧ ∀ p ∈ g.live, ∀ ring,
      p.2.order p.1 ring < c.order m ring → p.2.conflicts c ring = false) ∧
    Acts (.promotion cl n) s (fun t => t.mem = s.mem ∧ entry t fun e' => e' = { e with prom := e.prom || decide (e.posted + 4096 ≤ (s.die (clusterDie cl)).cycle) }) ∧
    (s.chosen cl e.op.onArray = some n →
      ((∀ pb, e.op ≠ .mma pb) → (∀ slot nm1 sp a rnd, e.op = .acst slot nm1 0 sp a rnd → e.started = true ∨ ∀ i ≤ nm1, (g.slot (slot + i)).val.formOf ≠ none) →
        Acts (.enginePassGrant cl n) s fun t => t.mem = s.mem ∧ (entry t fun e' => e' = { e with started := true, passing := true }) ∧ onlySlots t fun _ => False) ∧
      (∀ pb, e.op = .mma pb → e.started = false → let x := mmaOf pb
        Acts (.enginePassGrant cl n) s fun t => t.mem = s.mem ∧
          (entry t fun e' => e' = { e with started := true, passing := true, prog := if (g.slot x.aslot).stop ∧ e.begun then (g.slot x.aslot).prog else e.prog }) ∧
          (∀ m < x.blocks, (t.eng cl).slot (x.aslot + m) = if (g.slot (x.aslot + m)).stop ∧ e.begun then { g.slot (x.aslot + m) with stop := false }
            else { g.slot (x.aslot + m) with stop := false, val := .raw (if x.zi then List.replicate 1024 {} else (g.slot (x.aslot + m)).val.enter), prog := x.prog }) ∧
          onlySlots t fun k => x.aslot ≤ k ∧ k < x.aslot + x.blocks) ∧
      (∀ slot nm1 sp a rnd i k b, e.op = .acst slot nm1 0 sp a rnd → e.started = false → e.ring = false → i ≤ nm1 → (g.slot (slot + i)).val.formOf = none →
        (∀ j < i, (g.slot (slot + j)).val.formOf ≠ none) → s.keyOfUid e.uid = some k → s.band? k = some b → b.fault = none →
        Acts (.enginePassGrant cl n) s fun t => t.mem = s.mem ∧ (entry t fun e' => e'.retired = true) ∧ (onlySlots t fun _ => False) ∧
          ∃ b' fl, t.band? k = some b' ∧ b'.fault = some fl ∧ fl.code = 3 ∧ fl.pc = e.pc ∧ fl.aux0 = slot + i ∧ fl.aux1 = 1)) ∧
    (e.passing = true → s.unitFlying (agentEngine cl) n = false →
      (∀ slot nm1, e.op = .acz slot nm1 → Acts (.passEnd cl n) s fun t => t.mem = s.mem ∧ ends t ∧ (onlySlots t fun k => k = slot + e.prog) ∧
        (t.eng cl).slot (slot + e.prog) = { owner := (g.slot (slot + e.prog)).owner }) ∧
      (∀ slot nm1 bf rnd, e.op = .rslv slot nm1 bf rnd → s.entryRecord e = none → Acts (.passEnd cl n) s fun t => t.mem = s.mem ∧ ends t ∧ (onlySlots t fun k => k = slot + e.prog) ∧
        (t.eng cl).slot (slot + e.prog) = { g.slot (slot + e.prog) with
          val := .resolved bf ((g.slot (slot + e.prog)).val.codes bf rnd (s.entrySr e)).1, stop := false, prog := 0 }) ∧
      (∀ slot nm1 sb c base, e.op = .acmov slot nm1 sb → s.entryAt cl e = .here c base → Acts (.passEnd cl n) s fun t => t.mem = s.mem ∧ ends t ∧
        (e.prog < nm1 → onlySlots t fun _ => False) ∧ (nm1 ≤ e.prog → (onlySlots t fun k => slot ≤ k ∧ k ≤ slot + nm1) ∧
          ∀ j ≤ nm1, (t.eng cl).slot (slot + j) = { g.slot (sb + j) with owner := (g.slot (slot + j)).owner })) ∧
      (∀ slot nm1 form a c base, e.op = .acld slot nm1 form 1 a → e.racedC = [] → s.entryAt cl e = .here c base → Acts (.passEnd cl n) s fun t => t.mem = s.mem ∧ ends t ∧
        (onlySlots t fun k => k = slot + e.prog) ∧ (t.eng cl).slot (slot + e.prog) = { g.slot (slot + e.prog) with
          val := slotOfImage form ((List.range 1024).map fun i => s.mem.read (placeScratch c (base + (a + e.prog * 1024 * formBytes form + i * formBytes form))) (formBytes form)),
          stop := false, prog := 0 }) ∧
      (∀ slot nm1 form a rnd c base, e.op = .acst slot nm1 form 1 a rnd → 1 ≤ form → form ≤ 4 → s.entryAt cl e = .here c base →
        (∀ p ∈ s.flights, p.2.bars = []) →
        let z := formBytes form
        let at0 := placeScratch c (base + (a + e.prog * 1024 * z))
        let v := (g.slot (slot + e.prog)).val
        (v.image form rnd (s.entrySr e)).1.length ≤ 1024 → Acts (.passEnd cl n) s fun t => ends t ∧ (onlySlots t fun k => form = 2 ∧ k = slot + e.prog) ∧
          (∀ x, x < at0 ∨ at0 + 1024 * z ≤ x → t.mem.byte x = s.mem.byte x) ∧
          (∀ i < (v.image form rnd (s.entrySr e)).1.length, t.mem.read (at0 + i * z) z = (v.image form rnd (s.entrySr e)).1.getD i 0 % 256 ^ z) ∧
          (form = 2 → ((t.eng cl).slot (slot + e.prog)).val = match v with | .raw l => .wide (l.map El.propagate) | w => w)) ∧
      (∀ slot nm1 sb cond any comp p tl, e.op = .acmp slot nm1 sb cond any comp p tl →
        let ys := if comp then (g.slot (sb + e.prog)).val.values else List.replicate 1024 (some (0, 0, 0, false))
        let hs := ((g.slot (slot + e.prog)).val.values.zip ys).map fun q => cmpHolds cond q.1 q.2
        Acts (.passEnd cl n) s fun t => t.mem = s.mem ∧ ends t ∧ (onlySlots t fun _ => False) ∧ entry t fun e' => (e'.decided = true ↔
          e.decided = true ∨ if any then true ∈ hs else false ∈ hs)) ∧
      (∀ k l, e.op = .mptbl k l → Acts (.passEnd cl n) s fun t => t.mem = s.mem ∧ ends t ∧ ∀ j, Tbl.find? (t.eng cl).ptbl j = if j = k then some l else Tbl.find? g.ptbl j) ∧
      (∀ k l, e.op = .mcbtbl k l → Acts (.passEnd cl n) s fun t => t.mem = s.mem ∧ ends t ∧ ∀ j, Tbl.find? (t.eng cl).cbtbl j = if j = k then some l else Tbl.find? g.cbtbl j) ∧
      (∀ r v, e.op = .mroute r v → Acts (.passEnd cl n) s fun t => t.mem = s.mem ∧ ends t ∧
        ∀ j, Tbl.find? (t.eng cl).routes j = if j = 8 * e.ctx + r then some v else Tbl.find? g.routes j) ∧
      (∀ a c base c' base', e.op = .mxqPush a → e.racedC = [] → e.ring = false → s.entryAt cl e = .here c base → s.ringAt cl = .here c' base' →
        (∀ p ∈ s.flights, p.2.bars = []) →
        let slot := placeScratch c' (base' + (g.ring.base + g.ring.tail % max g.ring.entries 1 * 128))
        Acts (.passEnd cl n) s fun t => ends t ∧ (t.eng cl).ring = { g.ring with tail := g.ring.tail + 1 } ∧
          t.mem.read slot 128 = s.mem.read (placeScratch c (base + a)) 128 ∧ ∀ x, x < slot ∨ slot + 128 ≤ x → t.mem.byte x = s.mem.byte x) ∧
      (∀ base k, e.op = .mxqInit base k → e.ring = false → Acts (.passEnd cl n) s fun t => t.mem = s.mem ∧ ends t ∧ (t.eng cl).ring =
        { base := base, entries := k, owner := some e.ctx, team := e.team, flight := e.flight, sbase := e.sbase, ssize := e.ssize, epri := e.prio,
          frees := g.ring.frees, dones := g.ring.dones }) ∧
      (∀ pb, e.op = .mma pb → let x := mmaOf pb
        (e.racedA = [] → e.racedB = [] → ∀ m i, i < (g.slot (x.aslot + m)).val.enter.length → (s.stepBlock cl e x e.prog m).getD i {} =
          s.stepElement cl e x e.prog (32 * (m / x.nb) + i / 32) (32 * (m % x.nb) + i % 32) ((g.slot (x.aslot + m)).val.enter.getD i {})) ∧
        Acts (.passEnd cl n) s fun t => t.mem = s.mem ∧
          (∀ m < x.blocks, (t.eng cl).slot (x.aslot + m) = { g.slot (x.aslot + m) with val := .raw (s.stepBlock cl e x e.prog m), prog := e.prog + 1 }) ∧
          (onlySlots t fun k => x.aslot ≤ k ∧ k < x.aslot + x.blocks) ∧
          (entry t fun e' => e'.prog = e.prog + 1 ∧ e'.passing = false ∧ e'.retired = decide (x.steps ≤ e.prog + 1 ∧ x.en = false) ∧
            (x.steps ≤ e.prog + 1 → e'.passesDone = true ∧ e'.blocksLeft = if x.en then x.blocks else 0)) ∧
          (t.eng cl).epilogue = g.epilogue ++ if x.steps ≤ e.prog + 1 ∧ x.en = true then
              (List.range x.blocks).map fun m => (g.nextBlock + m, ({ entry := n, mt := m / x.nb, nt := m % x.nb, slot := x.aslot + m } : Block))
            else []))

/-- R247, R311, R312, R229, R251, R309, R403: the epilogue takes its blocks through the resolve stage and then the send stage in order, element by element to their
destination; a block that is accepted leaves its slot RESOLVED, EMPTY or as it was, and the operation retires with the last. Four cycles after its
retirement the count drops, and ACMP's predicate lands. A stop removes a context's operations at rest, noting STOP and PROG in the output slots of each
MMA; the first-use trap hands the named slots to the new context. -/
def Obligations.EpilogueAndRelease : Prop :=
  ∀ (s : State) (cl : Nat),
    let g := s.eng cl
    let onlyBlock := fun (t : State) (n : Nat) (h : Block → Block) => (t.eng cl).epilogue = g.epilogue.map fun q => if q.1 = n then (n, h q.2) else q
    (∀ n b e pb, (g.epilogue.find? fun q => q.2.codes.isNone) = some (n, b) → Tbl.find? g.table b.entry = some e → e.op = .mma pb →
      s.entryRecord e = none → Acts (.epilogueResolve cl) s fun t => t.mem = s.mem ∧ onlyBlock t n fun c => { c with codes := some (s.epiBlock cl e (mmaOf pb) b).1 }) ∧
    (∀ n b e pb, (g.epilogue.find? fun q => q.1 = n) = some (n, b) → Tbl.find? g.table b.entry = some e → e.op = .mma pb → let x := mmaOf pb
      (b.codes ≠ none → b.sent = false → (∀ q ∈ g.epilogue, q.1 < n → q.2.leftSend = true) → x.dest ≠ 3 → Acts (.epilogueSend cl n) s fun t => t.mem = s.mem ∧
        (∀ m, (t.eng cl).slot m = g.slot m) ∧ onlyBlock t n fun c => { c with sent := true, done := if x.dest = 0 then 1024 else c.done }) ∧
      (∀ c base, b.sent = true → b.done < 1024 → x.dest = 1 → s.entryAt cl e = .here c base → (∀ p ∈ s.flights, p.2.bars = []) →
        let a := placeScratch c (base + x.elementAt 0 b b.done % 2 ^ 32)
        Acts (.performAtABank (.engineBlock cl n)) s fun t => t.mem = s.mem.write a x.z ((b.codes.getD []).getD b.done 0) ∧
          onlyBlock t n fun c => { c with done := c.done + 1 }) ∧
      (b.sent = true → 1024 ≤ b.done → s.unitFlying (agentEngine cl) b.entry = false → Acts (.blockAccepted cl n) s fun t => t.mem = s.mem ∧ (t.eng cl).epilogue = g.epilogue.filter (fun q => q.1 ≠ n) ∧
        (∀ m, (t.eng cl).slot m = if m ≠ b.slot then g.slot m else if x.dest = 0 then { g.slot m with val := .resolved (decide (x.outf = 2)) (b.codes.getD []) }
          else if x.clr then { g.slot m with val := .empty } else g.slot m) ∧
        ∃ e', Tbl.find? (t.eng cl).table b.entry = some e' ∧ e'.blocksLeft = e.blocksLeft - 1 ∧ e'.retired = (e.retired || decide (e.blocksLeft ≤ 1)))) ∧
    (∀ n e k b, Tbl.find? g.table n = some e → e.retired = true → e.posted + 4 ≤ (s.die (clusterDie cl)).cycle → g.removed = [] → e.ring = false →
      (∀ w ∈ g.ring.frees ++ g.ring.dones, w.entry ≠ n) →
      s.keyOfUid e.uid = some k → s.band? k = some b →
      let frees := fun (tl : List Nat) (v : Nat) => Acts (.tlRelease cl n) s fun t => t.mem = s.mem ∧ Tbl.find? (t.eng cl).table n = none ∧
        (∀ m, m ≠ n → Tbl.find? (t.eng cl).table m = Tbl.find? g.table m) ∧ t.band? k = some (tl.foldl (fun b j => b.unitDone e.gid j 0 1 v) b)
      ((∀ a c d x y z p tl, e.op ≠ .acmp a c d x y z p tl) → frees [e.thread] 0) ∧
      (∀ a c d x any z p tl, e.op = .acmp a c d x any z p tl → frees tl (if e.decided = any then 1 else 0))) ∧
    (∀ ctx, (s.cluster cl).disabled = false → Acts (.engineStopRequest cl ctx) s fun t => t.mem = s.mem ∧ ctx ∈ (t.eng cl).stopping ∧
      (g.atRest ctx = false → (t.eng cl).table = g.table ∧ (t.eng cl).removed = g.removed) ∧
      (g.atRest ctx = true → (∀ p ∈ (t.eng cl).live, p.2.ctx ≠ ctx) ∧
        (t.eng cl).removed = g.removed ++ (g.live.filter fun p => p.2.ctx = ctx).map (fun p => (ctx, { p.2 with started := false, begun := p.2.begun || p.2.started })) ∧
        ∀ p ∈ g.live, p.2.ctx = ctx → p.2.waits = false → ∀ pb, p.2.op = .mma pb → ∀ m < (mmaOf pb).blocks, ((t.eng cl).slot ((mmaOf pb).slotOf m)).stop = true)) ∧
    (∀ k b pc th slots, s.band? k = some b → coreCluster (keyCore k) = cl → b.firstUse = some (pc, th, slots) → g.table = [] → g.epilogue = [] → g.removed = [] →
      (∀ n ∈ slots, n < 128 ∧ (g.slot n).val = .empty ∧ (g.slot n).owner ≠ none) → (∀ c, s.ctx? (s.bandCtx b) = some c → c.spills = []) → Acts (.firstUseTrap k) s fun t => t.mem = s.mem ∧
        t.band? k = some { b with firstUse := none } ∧ ∀ n ∈ slots, ((t.eng cl).slot n).owner = some (s.bandCtx b) ∧ ((t.eng cl).slot n).val = .empty)

/-- R37, R38, R41 to R43: an accumulator element adds each exact product to S + C, at the anchor that holds both, noting in STK what falls below it; infinities and NaN
follow their table; propagation keeps the value; and a resolved element that is expanded again resolves to its own code in every rounding mode. -/
def Obligations.AccumulatorsAddProducts : Prop :=
  ∀ (el : El) (p e : Int), el.s < 2 ^ 72 → el.c < 2 ^ 72 → p ≠ 0 →
    (let h := el.rise p e
     el.anc + h ≤ 1023 → let r := el.addFinite p e
      let k := e - ((el.anc + h : Nat) - 599 : Int)
      let q : Int := if 0 ≤ k then p * 2 ^ k.toNat else Int.tdiv p (2 ^ (-k).toNat)
      r.s < 2 ^ 72 ∧ r.c < 2 ^ 72 ∧ r.anc = el.anc + h ∧ r.nan = el.nan ∧ r.pinf = el.pinf ∧ r.ninf = el.ninf ∧
      ((r.s + r.c : Nat) : Int) % 2 ^ 72 = (Int.fdiv (signed el.s 72) (2 ^ h) + Int.fdiv (signed el.c 72) (2 ^ h) + q) % 2 ^ 72 ∧
      (r.stk = true ↔ el.stk = true ∨ el.s % 2 ^ min h 72 ≠ 0 ∨ el.c % 2 ^ min h 72 ≠ 0 ∨ (k < 0 ∧ p % 2 ^ (-k).toNat ≠ 0))) ∧
    (el.nan = true → ∀ v, el.accumulate v = el) ∧
    (el.nan = false → el.accumulate .nan = { el with nan := true } ∧ (∀ n, el.accumulate (.zero n) = el) ∧
      el.accumulate (.inf false) = (if el.ninf then { el with nan := true } else { el with pinf := true }) ∧
      el.accumulate (.inf true) = (if el.pinf then { el with nan := true } else { el with ninf := true }) ∧
      ∀ n m x, el.accumulate (.fin n m x) = if el.pinf || el.ninf then el else el.addFinite (if n then -(m : Int) else m) x) ∧
    (el.propagate.c = 0 ∧ el.propagate.s < 2 ^ 72 ∧ el.propagate.v * 2 ^ el.propagate.anc = el.v * 2 ^ el.anc) ∧
    (∀ (bf : Bool) (code mode : Nat) (sr : Sr), code < 2 ^ (if bf then 16 else 32) → mode ≤ 5 → (rfFmt bf).decode code ≠ .nan → (rfFmt bf).decode code ≠ .zero true →
      ((reExpand (rfFmt bf) code).resolve (rfFmt bf) mode sr).1 = code)

/-- R314 to R317: the ring reader fetches and checks the command at the head and consumes it: it stands in the table as the ring entry, waiting. Once the wait holds the
command's operation is posted at the end of the table, and claims its unowned slots; NOP ends with the arrivals that it owes, and HALT stops the reader until the
next MXQ.init. A command that fails its check faults the ring: those after it are discarded. FREE and DONE are one arrival each. -/
def Obligations.CommandRingRuns : Prop :=
  ∀ (s : State) (cl : Nat),
    let g := s.eng cl
    let r := g.ring
    let others := fun (t : State) (l : List Nat) => ∀ m, m ∉ l → Tbl.find? (t.eng cl).table m = Tbl.find? g.table m
    (∀ i kind base, (i, kind) ∈ [(Instr.ringNop cl, 0), (.ringMma cl, 1), (.ringRslv cl, 2), (.ringAcst cl, 3), (.ringAcz cl, 4), (.ringHalt cl, 5)] →
      s.ringBase cl = some base → r.owner ≠ none → r.faulted = false → r.haltedByCmd = false → r.stopped = false →
      let c := s.scratchRead cl (base + r.base + r.head % max r.entries 1 * 128) 128
      (r.cmd = none → r.head < r.tail → g.live.length < 32 → cmdKind c = kind →
        (s.cmdFault cl base c = none → Acts i s fun t => t.mem = s.mem ∧ others t [g.nextEntry] ∧ (t.eng cl).nextEntry = g.nextEntry + 1 ∧
          (t.eng cl).ring = { r with index := r.index + 1, head := r.head + 1, cmd := some c, waited := decide (cmdWkind c = 0), entry := some g.nextEntry } ∧
          ∃ e, Tbl.find? (t.eng cl).table g.nextEntry = some e ∧ e.waits = true ∧ e.ring = true ∧ (∀ op, cmdOp c = some op → e.op = op) ∧ e.flight = r.flight ∧
            e.team = r.team ∧ e.prio = r.epri ∧ e.sig = cmdSig c ∧ e.retired = false ∧ e.started = false) ∧
        (∀ reason, s.cmdFault cl base c = some reason → Acts i s fun t => (t.eng cl).table = g.table ∧
          (t.eng cl).ring = { r with index := r.index + 1, faulted := true, head := r.tail, cmd := none, waited := false, entry := none })) ∧
      (∀ d n e, r.cmd = some d → r.entry = some n → n < g.nextEntry → Tbl.find? g.table n = some e → e.waits = true → cmdKind d = kind → r.waited = true →
        (∀ op, cmdOp d = some op → s.foreignSlots cl e = [] → Acts i s fun t => t.mem = s.mem ∧ (t.eng cl).ring = { r with entry := some g.nextEntry } ∧
          others t [n, g.nextEntry] ∧ Tbl.find? (t.eng cl).table n = none ∧
          Tbl.find? (t.eng cl).table g.nextEntry = some { e with waits := false, posted := (s.die (clusterDie cl)).cycle } ∧
          ∀ j, (t.eng cl).slot j = if j ∈ e.op.slots ∧ (g.slot j).owner = none then { g.slot j with owner := some e.ctx } else g.slot j) ∧
        (cmdOp d = none →
          let owed := fun (a : Nat) => ({ entry := n, flight := r.flight, team := r.team, addr := a } : Owed)
          let frees := r.frees ++ (if cmdSig d % 2 = 1 then [owed (pbBytes d 79 76)] else [])
          let dones := r.dones ++ (if cmdSig d / 2 % 2 = 1 then [owed (pbBytes d 83 80)] else [])
          Acts i s fun t => t.mem = s.mem ∧ others t [n] ∧ Tbl.find? (t.eng cl).table n = none ∧ (t.eng cl).ring =
            { r with cmd := none, waited := false, entry := none, frees := frees, dones := dones, haltedByCmd := decide (kind = 5) }))) ∧
    (∀ d, (cmdOp d = none ↔ cmdKind d = 0 ∨ 5 ≤ cmdKind d) ∧ (cmdKind d = 1 → cmdOp d = some (.mma (d % 2 ^ 512))) ∧
      (cmdKind d = 4 → cmdOp d = some (.acz (cmdSop d % 128) (cmdSop d / 256 % 64)))) ∧
    (∀ d, r.cmd = some d → r.stopped = false → r.waited = false → s.waitHolds r d = true → Acts (.ringWaitHolds cl) s fun t => t.mem = s.mem ∧
      (t.eng cl).ring = { r with waited := true }) ∧
    (∀ d c o, s.barAt r.flight (r.ref (cmdWaddr d)) = some (.scratch c o) →
      (cmdWkind d = 1 → (s.waitHolds r d = true ↔ 1 ≤ (((s.barGet (.scratch c o)).phase : Int) - cmdWval d) % 2 ^ 32 ∧
        (((s.barGet (.scratch c o)).phase : Int) - cmdWval d) % 2 ^ 32 < 2 ^ 31)) ∧
      (cmdWkind d = 2 → (s.waitHolds r d = true ↔ cmdWval d ≤ s.mem.read (placeScratch c o) 4))) ∧
    (∀ n w c o, s.barAt w.flight { space := 1, team := w.team, addr := w.addr } = some (.scratch c o) → let bar := s.barGet (.scratch c o)
      let hit := fun (t : State) => (bar.arrived + 1 < bar.expect → t.barGet (.scratch c o) = { bar with arrived := (bar.arrived + 1) % 2 ^ 32 }) ∧
        (bar.expect ≤ bar.arrived + 1 → (∀ f, s.flight? w.flight = some f → f.absent = []) →
          t.barGet (.scratch c o) = { bar with arrived := 0, phase := (bar.phase + 1) % 2 ^ 32 })
      ((r.frees.find? fun p => p.entry = n) = some w → Acts (.freeArrival cl n) s fun t => (t.eng cl).ring = { r with frees := r.frees.filter fun p => p.entry ≠ n } ∧ hit t) ∧
      ((r.dones.find? fun p => p.entry = n) = some w → (∀ e, Tbl.find? g.table n = some e → e.retired = true) → Acts (.doneArrival cl n) s fun t =>
        (t.eng cl).ring = { r with dones := r.dones.filter fun p => p.entry ≠ n } ∧ hit t))

/-! ### Barriers, quotas, tasks and node commands at the issue (R257 to R266) -/

/-- R183, R258 to R260, R262 to R266: BARI writes its record and enters it into the roster, or takes it out. BARJ, BARA and BARW check every record that the run names, then
release, and then act thread by thread: an arrival raises ARRIVED by one, and the one that reaches EXPECT ends the phase, clears ARRIVED and wakes the
waiters; BARA's threads go on with the phase that they arrived in, and those of BARJ and BARW wait till theirs is reached. GROW is granted once the pool
has room and no earlier GROW of the lane waits; SHRINK and PHASE act at once. ECALL parks its run and files its request (R183). TASKP posts a record that passes its check and
retires, held while the pool is full; PNCMD is held until it is answered, and then retires. -/
def Obligations.BarriersQuotasAndPosts : Prop :=
  ∀ (s : State) (b : Band) (i : Instr) (v : Fld) (ts : List Nat), Runs s b → Guarded b v.g v.gn s.issue.threads ts →
    (∀ j ∈ s.issue.threads, (b.thread j).state = .ready) →
    let r := s.issue
    let wa := if v.barSpace = 0 then 64 else 32
    let trap := exec i s = exec (.takeTrap { cause := 2 }) s
    let retires := fun (t : State) (b' : Band) (wa wb : Nat) => t.band? r.key = some b' ∧ t.mem = s.mem ∧ LastReadsOnly b b' v wa wb 0 r.threads ∧
      ∀ j, b'.thread j = if j ∈ r.threads then (b.thread j).retired r else b.thread j
    let plain := fun (u : BarUse) => ∀ ia pa, u.site = .global ia pa → isHost ia = false ∧ inWindow ia = false
    let alone := ∀ fl, s.flight? b.flight = some fl → fl.absent = []
    let hit := fun (t : State) (u : BarUse) => let bar := s.barGet u.site
      (bar.arrived + 1 < bar.expect → t.barGet u.site = { bar with arrived := (bar.arrived + 1) % 2 ^ 32 }) ∧
      (bar.expect ≤ bar.arrived + 1 → t.barGet u.site = { bar with arrived := 0, phase := (bar.phase + 1) % 2 ^ 32 })
    (∀ f u n fl, i = .bari f → v = viewXL f → ts ≠ [] → s.barUses b v (ts.take 1) = .ok (.ok [u]) → s.flight? b.flight = some fl → plain u →
      (v.sub = 0 → b.readOpnd s.fresh (ts.headD 0) v.b 32 2 = .ok n) →
      let old := s.barGet u.site
      let roster := fl.roster.filter (· ≠ u.ref)
      let refused := old.teams ≠ 0 ∨ old.absent ≠ 0 ∨ old.rest ≠ 0 ∨ s.barWaited b.flight u.ref = true ∨ (v.sub ≠ 0 ∧ 32 ≤ roster.length) ∨ (v.sub = 1 ∧ v.barSpace ≠ 1) ∨
        (v.sub = 2 ∧ v.barSpace ≠ 0) ∨ (v.sub = 0 ∧ n = 0)
      (refused → trap) ∧
      (¬ refused → Acts i s fun t => (∃ b', t.band? r.key = some b' ∧ b'.kregs = b.kregs ∧ ∀ j ∈ r.threads, (b'.thread j).pc = ((b.thread j).retired r).pc) ∧
        t.barGet u.site = { expect := (if v.sub = 0 then n else if v.sub = 1 then s.teamThreads b.flight b.team else fl.liveThreads) % 2 ^ 32, arrived := 0, phase := 0,
                            mode := v.sub % 256, init := true, absent := 0, teams := 0, flight := b.flight % 2 ^ 32 } ∧
        ∃ fl', t.flight? b.flight = some fl' ∧ fl'.roster = if v.sub = 0 then roster else roster ++ [u.ref])) ∧
    (∀ kind, (kind = 0 ∧ ∃ f, i = .barj f ∧ v = viewX f) ∨ (kind = 1 ∧ ∃ f, i = .bara f ∧ v = viewX f) ∨ (kind = 2 ∧ ∃ f, i = .barw f ∧ v = viewXL f) →
      let tg : Target := if kind = 1 then .regs 1 else .none
      let scope := s.scopeOf b v.barScope
      let q := if 2 ≤ v.barOrd then s.releaseRun scope else (s, true)
      (ts = [] → Acts i s fun t => ∃ b', retires t b' wa (if kind = 2 then 32 else 0) ∧ b'.groups = b.groups) ∧
      (∀ us (x : Nat → Nat), ts ≠ [] → b.destPending v tg ts = false → s.barUses b v ts = .ok (.ok us) →
        (kind = 2 → ∀ j ∈ ts, b.readOpnd s.fresh j v.b 32 2 = .ok (x j)) →
        (s.barCheck b us (decide (kind ≠ 2)) = false → trap) ∧
        (s.barCheck b us (decide (kind ≠ 2)) = true → q.2 = false → exec i s = .next q.1.hold) ∧
        (s.barCheck b us (decide (kind ≠ 2)) = true → q.2 = true → b.halted = false → r.inRep = false →
          (kind = 1 → Fits s b v wa 0 0 (v.destNames tg)) →
          (Acts i s fun t => ∃ b', t.band? r.key = some b' ∧ ∀ j ∈ ts, (b'.thread j).depth = (b.thread j).depth ∧
            ((kind ≠ 1 ∧ (b'.thread j).state = .onBarrier ∧ (b'.thread j).pc = (b.thread j).pc) ∨
             ((b'.thread j).state = .ready ∧ (b'.thread j).pc = ((b.thread j).pc + r.len) % 65536))) ∧
          (∀ u j, ts = [j] → us = [u] → plain u → alone → let bar := s.barGet u.site
            Acts i s fun t => ∃ b', t.band? r.key = some b' ∧ (kind ≠ 2 → hit t u) ∧ (kind = 2 → t.mem = s.mem) ∧
              (kind = 1 → v.dk = false → b'.vreg? v.d j = some (BitVec.ofNat 32 bar.phase)) ∧
              (kind ≠ 1 → let ph := if kind = 0 then bar.phase else x j
                let passes := if kind = 0 then bar.expect ≤ bar.arrived + 1
                  else 1 ≤ ((bar.phase : Int) - ph) % 2 ^ 32 ∧ ((bar.phase : Int) - ph) % 2 ^ 32 < 2 ^ 31
                (passes → (b'.thread j).state = .ready ∧ (b'.thread j).pc = ((b.thread j).pc + r.len) % 65536) ∧
                (¬ passes → (b'.thread j).state = .onBarrier ∧ (b'.thread j).park = .barrier u.ref u.va ph v.barOrd scope r.len ∧
                  (b'.thread j).pc = (b.thread j).pc)))))) ∧
    (∀ f : FormI, i = .grow f → let n := f.imm.toNat
      (n = 0 → Acts i s fun t => ∃ b', t = { s with bands := Tbl.put s.bands r.key b' } ∧ ThreadsOnly b b' fun j =>
        if j ∈ r.threads then (b.thread j).retired r else b.thread j) ∧
      (n ≠ 0 → maxQuota b.width < b.quota + n → trap) ∧
      (n ≠ 0 → b.quota + n ≤ maxQuota b.width →
        let free := n ≤ s.poolFree r.core r.lane ∧ s.growBefore r.key (b.growTicket.getD (s.lane (r.core * 64 + r.lane)).tickets) = false
        (free → Acts i s fun t => ∃ b', t = { s with bands := Tbl.put s.bands r.key b' } ∧
          ThreadsOnly { b with quota := b.quota + n, growTicket := none, heldPark := none } b' fun j => if j ∈ r.threads then (b.thread j).retired r else b.thread j) ∧
        (¬ free → Acts i s fun t => t.issue.held = true ∧ t.mem = s.mem ∧ ∃ b', t.band? r.key = some b' ∧ b'.quota = b.quota ∧ b'.threads = b.threads ∧ b'.growTicket ≠ none))) ∧
    (∀ f : FormI, i = .shrink f → Acts i s fun t => ∃ b', t = { s with bands := Tbl.put s.bands r.key b' } ∧
      ThreadsOnly { b with quota := if b.mapped ≤ b.quota - f.imm.toNat then b.quota - f.imm.toNat else b.mapped } b' fun j =>
        if j ∈ r.threads then (b.thread j).retired r else b.thread j) ∧
    (∀ f : FormI, i = .phase f → Acts i s fun t => ∃ b', t = { s with bands := Tbl.put s.bands r.key b' } ∧
      ThreadsOnly { b with phase := f.imm.toNat % 16 } b' fun j => if j ∈ r.threads then (b.thread j).retired r else b.thread j) ∧
    (∀ f : FormI, i = .ecall f → (∀ j ∈ r.threads, b.pendingV j f.d.toNat = false) → (∀ n < 4, b.pendingV (r.threads.headD 0) n = false) →
      Acts i s fun t => t.mem = s.mem ∧ (∃ b', t.band? r.key = some b' ∧
        ThreadsOnly b b' fun j => if j ∈ r.threads then { b.thread j with state := .atOp, park := .ecall f.imm.toNat 0 false } else b.thread j) ∧
        ∃ e, Tbl.find? t.ecalls s.nextId = some e ∧ e.service = f.imm.toNat ∧ e.dreg = f.d.toNat ∧ e.threads = r.threads ∧ e.pc = r.pc ∧ e.status = none ∧
          e.flight = b.flight ∧ e.team = b.team ∧ e.bandid = b.bandid) ∧
    (∀ f, i = .taskp f → v = viewX f →
      (ts = [] → Acts i s fun t => ∃ b', retires t b' 64 32 ∧ b'.groups = b.groups) ∧
      (∀ a c, ts ≠ [] → b.readOpnd s.fresh (ts.headD 0) v.a 64 1 = .ok a →
        (if v.w2 % 2 = 1 then b.readOpnd s.fresh (ts.headD 0) v.b 32 2 = .ok c else c = coreCluster r.core) →
        (a % 64 ≠ 0 ∨ 95 < c → trap) ∧
        (a % 64 = 0 → c ≤ 95 → firstFail (s.coreRanges r.core) { x := true, w := true } a 64 = none → 
          (4096 ≤ s.poolTaken c → exec i s = .next s.hold) ∧
          (∀ rec', s.poolTaken c < 4096 → b.roomFor .st = true → s.firstUnmapped (s.bandCtx b) a needX false 64 = none → s.vaRead (s.bandCtx b) a 64 needX = some rec' →
            let bad := taskBad rec' (match s.flight? b.flight with | some f => f.tlots | none => 0)
            (bad = true → trap) ∧
            (bad = false → Acts i s fun t => (∃ b', retires t b' 64 32 ∧ b'.outstanding .st = b.outstanding .st + 1) ∧
              ∃ p, Tbl.find? t.posts (s.nextId + 1) = some p ∧ p.kind = 0 ∧ p.addr = a ∧ p.target = c ∧ p.flight = b.flight ∧ p.record = rec' ∧ p.reply = none))))) ∧
    (∀ f, i = .pncmd f → v = viewX f →
      (ts = [] → Acts i s fun t => ∃ b', retires t b' 64 0 ∧ b'.groups = b.groups) ∧
      (∀ a, ts ≠ [] → s.pending b 1 = none → b.readOpnd s.fresh (ts.headD 0) v.a 64 1 = .ok a →
        (a % 64 ≠ 0 → trap) ∧
        (a % 64 = 0 → b.destPending v (.regs 1) ts = false → b.roomFor .ld = true →
          Acts i s fun t => t.issue.held = true ∧ t.mem = s.mem ∧ (∃ b', t.band? r.key = some b' ∧ b'.threads = b.threads ∧ b'.outstanding .ld = b.outstanding .ld + 1) ∧
            ∃ p, Tbl.find? t.posts (s.nextId + 1) = some p ∧ p.kind = 1 ∧ p.addr = a ∧ p.target = v.w2 % 4 ∧ p.sub = v.sub ∧ p.reply = none)) ∧
      (∀ id p x, ts ≠ [] → s.pending b 1 = some (id, p) → p.reply = some x → Fits s b v 64 0 0 (v.destNames (.regs 1)) →
        (∀ n, v.dk = true → v.d = n → n < b.kregs.length) → (∀ g ∈ b.groups, g.gid = p.gid → g.dest = .none) →
        Acts i s fun t => t.mem = s.mem ∧ Tbl.find? t.posts id = none ∧ ∃ b', t.band? r.key = some b' ∧ (∀ g ∈ b'.groups, g.gid ≠ p.gid) ∧
          (v.dk = false → ∀ j ∈ ts, b'.vreg? v.d j = some (BitVec.ofNat 32 x)) ∧ (v.dk = true → b'.kregs.getD v.d 0 = BitVec.ofNat 32 x) ∧
          ∀ j, (b'.thread j).pc = if j ∈ r.threads then ((b.thread j).retired r).pc else (b.thread j).pc))

/-! ### Tasks, teams and rotation (R275 to R278, R326 to R343, R348 to R357) -/

/-- R276, R331, R334 to R343, R350 to R357: a pool queues a good record with the next number in its bin, and refuses a bad one; the dispatcher starts the first
dispatchable entry of the bin whose turn it is, with the registers that its record gives; an ended task band frees its lot, or posts its successor where the
counter reaches zero. Old spawn records form an imago team; loop waits wake at their limit. The scheduler takes the team of the highest priority and then the
longest standing, seats it, or saves a candidate for it; a save ends with the team's bands gone and its record made; a starved flight has a team
pre-empted. -/
def Obligations.TasksTeamsAndRotation : Prop :=
  ∀ (s : State) (cl die : Nat),
    let c := s.cluster cl
    let now := (s.die (clusterDie cl)).cycle
    (∀ id p rec', Tbl.find? s.posts id = some p → p.kind = 0 → p.reply = none → p.target = cl → c.pool.length < 4096 →
      s.firstUnmapped p.ctx p.addr needX false 64 = none → s.firstUnmapped p.ctx (p.addr + 56) needW true 8 = none → s.vaRead p.ctx p.addr 64 needX = some rec' →
      Acts (.taskPostAccept id) s fun t => Tbl.find? t.posts id = none ∧ (t.cluster cl).taskSeq = (c.taskSeq + 1) % 2 ^ 32 ∧ ∃ r,
        (∀ j < 8, r / 2 ^ (64 * j) % 2 ^ 64 = p.record / 2 ^ (64 * j) % 2 ^ 64 ∨ r / 2 ^ (64 * j) % 2 ^ 64 = rec' / 2 ^ (64 * j) % 2 ^ 64) ∧
        (t.cluster cl).pool = (c.enqueue { record := r, addr := p.addr, flight := p.flight, seq := c.taskSeq, ctx := p.ctx, bin := binOf (taskKey r) }).pool) ∧
    (∀ id p rec', Tbl.find? s.posts id = some p → p.kind = 2 → p.reply = none → p.target = cl → c.pool.length < 4096 →
      s.firstUnmapped p.ctx p.addr needX false 64 = none → s.firstUnmapped p.ctx (p.addr + 56) needW true 8 = none → s.vaRead p.ctx p.addr 64 needX = some rec' →
      let bad := taskBad rec' (match s.flight? p.flight with | some f => f.tlots | none => 0)
      Acts (.taskPostAccept id) s fun t => Tbl.find? t.posts id = none ∧ (∀ x ∈ (t.cluster (coreCluster p.core)).lots, ¬ (x.flight = p.flight ∧ x.lot = p.lot)) ∧
        (bad = true → (t.cluster cl).pool = c.pool) ∧
        (bad = false → (t.cluster cl).pool =
          (c.enqueue { record := rec', addr := p.addr, flight := p.flight, seq := c.taskSeq, ctx := p.ctx, bin := binOf (taskKey rec') }).pool)) ∧
    (∀ bin fresh, s.dispatchBin cl = some (bin, fresh) → (∃ e ∈ c.pool, e.bin = bin ∧ s.dispatchable cl e = true) ∧
      (fresh = false → bin = c.bin ∧ c.turn < 1024) ∧ (fresh = true → 1024 ≤ c.turn ∨ ∀ e ∈ c.pool, e.bin = c.bin → s.dispatchable cl e = false)) ∧
    (∀ bin fresh e f, c.disabled = false → (clusterCores cl).any s.coreWorks = true → c.lastDispatch + 16 ≤ now → s.dispatchBin cl = some (bin, fresh) →
      (c.pool.find? fun e => decide (e.bin = bin) && s.dispatchable cl e) = some e → s.flight? e.flight = some f → s.firstUnmapped e.ctx (e.addr + 56) needW true 4 = none →
      f.kinit.length = 64 → Acts (.taskDispatch cl bin) s fun t => (t.cluster cl).pool = c.pool.filter (fun x => x.seq ≠ e.seq || x.addr ≠ e.addr) ∧
        (t.cluster cl).lastDispatch = now ∧ (t.cluster cl).bin = bin ∧ (t.cluster cl).turn = (if fresh then 0 else c.turn) + 1 ∧
        ∃ lot k b, lot < f.tlots ∧ (∃ l ∈ (t.cluster cl).lots, l.flight = e.flight ∧ l.lot = lot) ∧ t.band? k = some b ∧ coreCluster (keyCore k) = cl ∧
          b.flight = e.flight ∧ b.team = 0x80000000 + cl * f.tlots + lot ∧ b.task = some (cl, lot) ∧ b.threads.length = f.bandw ∧ b.quota = f.regs ∧ b.regs = [] ∧
          b.phase = taskFlags e.record / 16 % 16 ∧ b.kregs.getD 0 0 = BitVec.ofNat 32 (recBytes e.record 51 48) ∧ b.kregs.getD 1 0 = BitVec.ofNat 32 (recBytes e.record 55 52) ∧
          (∀ i < 2, b.kregs.getD (56 + i) 0 = wordOf (taskArg e.record) i ∧ b.kregs.getD (58 + i) 0 = wordOf (taskKey e.record) i ∧
            b.kregs.getD (60 + i) 0 = wordOf (taskCoord e.record) i ∧ b.kregs.getD (62 + i) 0 = wordOf e.addr i) ∧
          ∀ j < f.bandw, (b.thread j).state = .ready ∧ (b.thread j).depth = 0 ∧ (b.thread j).preds = 0 ∧
            (b.thread j).tidx = (f.teams * f.teamb * f.bandw + (cl * f.tlots + lot) * f.bandw + j) % 2 ^ 32) ∧
    (∀ k b lot l, s.band? k = some b → k < 2 ^ 20 → b.task = some (cl, lot) → b.allExited = true → b.succ = none → b.fault = none → s.lotOf cl b.flight lot = some l →
      (s.endRelease k b).2 = true →
      let s0 := (s.endRelease k b).1.leaveSlot k b
      s0.firstUnmapped l.ctx (l.addr + 56) needW true 4 = none →
      let lotFree := fun (t : State) => ∀ x ∈ (t.cluster cl).lots, ¬ (x.flight = b.flight ∧ x.lot = l.lot)
      (taskSucc l.record = false → Acts (.taskEnd k) s fun t => t.band? k = none ∧ lotFree t) ∧
      (taskSucc l.record = true →
        let s1 := s0.taskWrite b.flight l.ctx (l.addr + 56) 4 3
        let old := signed ((s1.vaRead l.ctx (taskScnt l.record) 4 needXWA).getD 0) 32
        firstFail (s1.ctxRanges l.ctx) needXWA (taskScnt l.record) 4 = none → s1.firstUnmapped l.ctx (taskScnt l.record) needXWA true 4 = none →
        Acts (.taskEnd k) s fun t => t.band? k = none ∧ (2 ≤ old → lotFree t) ∧ (old = 1 → (∃ fl, s1.flight? b.flight = some fl ∧ fl.killed = false) →
          ∃ id p, Tbl.find? t.posts id = some p ∧ p.kind = 2 ∧ p.addr = taskSrec l.record ∧
            p.target = coreCluster (keyCore k) ∧ p.lot = l.lot ∧ p.flight = b.flight ∧ p.reply = none))) ∧
    (∀ n r f, c.spawns[n]? = some r → s.flight? r.flight = some f →
      let recs := c.spawns.filter fun q => q.group = r.group
      ((∃ q ∈ recs, q.since + 8192 ≤ now) ∨ ∀ p ∈ s.bands, coreCluster (keyCore p.1) = cl → p.2.flight = r.flight → ∀ th ∈ p.2.threads, th.state ≠ .ready) →
      Acts (.spawnRecordTimeout cl n) s fun t => t.mem = s.mem ∧ (∀ q ∈ (t.cluster cl).spawns, q ∉ recs.take f.bandw) ∧ ∃ f' tm, t.flight? r.flight = some f' ∧
        f'.imagos = f.imagos + 1 ∧ Tbl.find? f'.members (f.teams + f.imagos) = some tm ∧ tm.imago = recs.take f.bandw ∧ tm.place = .notStarted ∧ tm.runsince ≠ none ∧
        tm.cluster = some cl) ∧
    (∀ k b j since, s.band? k = some b → j < b.threads.length → (b.thread j).state = .onWatch → (b.thread j).park = .loop since →
      since + (if b.tracker.untabled = [] then 65536 else 2048) ≤ s.cycleAt (keyCore k) → Acts (.loopWatchTimeout k) s fun t => t.mem = s.mem ∧ ∃ b', t.band? k = some b' ∧
        b'.tracker = {} ∧ b'.regs = b.regs ∧ (b'.thread j).state = (if b.halted then .halted else .ready) ∧ (b'.thread j).pc = (b.thread j).pc % 65536 ∧
        ∀ i, (∀ c, (b.thread i).park ≠ .loop c) → b'.thread i = b.thread i) ∧
    (∀ x, s.nextTeam die = some x → ∀ p ∈ s.flights, s.considers die p.1 p.2 = true → ∀ y ∈ s.runners die p.1 p.2, y.cpri < x.cpri ∨ (y.cpri = x.cpri ∧
      (x.since < y.since ∨ (x.since = y.since ∧ (x.flight < y.flight ∨ (x.flight = y.flight ∧ x.team ≤ y.team)))))) ∧
    (∀ x f tm, s.nextTeam die = some x → s.runnerTeam x = some (f, tm) → s.holdsTeam die f tm = true → s.savingFor x = false →
      (f.belowLimit = false ∨ ∀ site ∈ dieSites die, s.roomAt (s.wantOf f tm) site = none) →
      let e := s.evictee die x (s.wantOf f tm) (!f.belowLimit)
      (e = none → Acts (.rotationSchedule die) s fun t => t.mem = s.mem ∧ t.bands = s.bands ∧ ∃ f' tm', t.flight? x.flight = some f' ∧
        Tbl.find? f'.members x.team = some tm' ∧ tm' = { tm with granted := none }) ∧
      (∀ ef et fl et', e = some (ef, et) → s.flight? ef = some fl → Tbl.find? fl.members et = some et' → et'.saving = 0 → (∃ c p b, et'.place = .resident c p b) →
        (∃ k ∈ s.teamKeys ef et, ∃ b, s.band? k = some b ∧ b.allExited = false) →
        s.recordRoom fl.ctx (recordBytes (s.bandsForSave fl ef et et'.teamb) fl.scratch) ≠ none → Acts (.rotationSchedule die) s fun t => t.mem = s.mem ∧
          (∃ f' tm', t.flight? ef = some f' ∧ Tbl.find? f'.members et = some tm' ∧ tm'.saving = 1 ∧ tm'.savingFor = some (x.flight, x.team) ∧ tm'.place = et'.place) ∧
          ∀ k ∈ s.teamKeys ef et, ∀ b, t.band? k = some b → b.stop ≠ none)) ∧
    (∀ fn f x tm, s.flight? fn = some f → s.considers die fn f = true → s.homeDie f ≠ die → (∀ p ∈ f.members, p.2.granted ≠ some die ∨ p.2.runnable = false) →
      Runner.first ((s.runners die fn f).filter fun r => (Tbl.find? f.members r.team).any fun t => t.granted.isNone) = some x → Tbl.find? f.members x.team = some tm →
      Acts (.homeSchedulerRequest die fn) s fun t => t.mem = s.mem ∧ ∃ f', t.flight? fn = some f' ∧ Tbl.find? f'.members x.team = some { tm with granted := some die }) ∧
    (∀ fn n f tm core pair base a, s.flight? fn = some f → Tbl.find? f.members n = some tm → tm.place = .resident core pair base → tm.saving = 2 → tm.stops = [] →
      Tbl.wf s.bands = true →
      (∀ k ∈ s.teamKeys fn n, ∀ b, s.band? k = some b → b.stopped = true ∧ ∀ m, b.stop ≠ some (2, m)) →
      (∀ i ∈ tm.saveWait, ∀ m ∈ s.msgs, m.id ≠ i) → (∀ q ∈ s.cores, q.2.sidelog = []) →
      s.recordRoom f.ctx (recordBytes (s.bandsForSave f fn n tm.teamb) f.scratch) = some a →
      Acts (.teamSave fn n) s fun t => t.placeOfTeam fn n = .absent a ∧ ∀ q ∈ t.bands, ¬ (q.2.flight = fn ∧ q.2.team = n)) ∧
    (∀ x fn n f tm site ks base s1, s.nextTeam (clusterDie (siteCluster site)) = some x → x.flight = fn → x.team = n →
      s.flight? fn = some f → Tbl.find? f.members n = some tm →
      s.holdsTeam (clusterDie (siteCluster site)) f tm = true → f.belowLimit = true → tm.place = .notStarted → tm.imago = [] → s.roomAt (s.wantOf f tm) site = some (ks, base) →
      s.loadWaits f (s.wantOf f tm) (siteCores site) = none → s.enterCores f (s.wantOf f tm) (siteCores site) = some s1 → ks.Nodup →
      let core := (siteCores site).headD 0
      Acts (.teamRestore fn n site) s fun t => t.placeOfTeam fn n = .resident core (decide (384 ≤ site)) base ∧
        ∀ i < ks.length, ∃ k b, t.band? k = some b ∧ b = launchBand f fn n i (s1.entryPc core f.entryOv f.entryOff)) ∧
    (∀ d, d = s.die die → d.lastCheck + 1024 ≤ d.cycle → Acts (.starvationCheck die) s fun t => t.mem = s.mem ∧ (t.die die).lastCheck = d.cycle ∧
      ∀ fn f n core tm, s.flights = [(fn, f)] → s.homeDie f = die → f.killed = false → f.gang = none → f.preempted = false → f.anyRunnable = true →
        f.clockStart + f.starve ≤ d.cycle → s.residentTeams = [(fn, n, core, tm)] → Tbl.find? f.members n = some tm → tm.saving = 0 →
        (∃ k ∈ s.teamKeys fn n, ∃ b, s.band? k = some b ∧ b.allExited = false) → s.recordRoom f.ctx (recordBytes (s.bandsForSave f fn n tm.teamb) f.scratch) ≠ none → ∃ f' tm', t.flight? fn = some f' ∧ f'.preempted = true ∧
          Tbl.find? f'.members n = some tm' ∧ tm'.saving = 1)

/-! ### Queues, launches and gangs (R362 to R385) -/

/-- R362 to R385: a notify moves NIDX forward alone, and RESUME takes a halted queue past its packet; the longest pending queue takes a free slot, or one that a
queue with nothing to do gives up. The front end reads a header, and stops at an empty one; a QCB update in progress is ended first. A NOP, a LINK, a SIGNAL, a
DEPEND and a LAUNCH of a good form act as R372 to R376 say and the queue moves on, or it halts with its status; a malformed packet halts it. A gang whose parts
pass their checks is committed whole or blocked; GO starts it die by die. A flight of which nothing is left makes its release, and then its signal and STATUS.
A restart ends a half-made update by its shadow. -/
def Obligations.QueuesAndLaunches : Prop :=
  ∀ (s : State) (q : Nat) (x : Queue), Tbl.find? s.queues q = some x →
    let p := x.primary
    let ctx := p.ctx
    let tgt := fun (t : State) (g : Queue → Prop) => ∃ y, Tbl.find? t.queues q = some y ∧ g y
    let at' := fun (need : Need) (c a pa : Nat) => ∃ ia, translate (s.ctxRanges c) need a = some ia ∧ isHost ia = false ∧ s.cached agentIO ia true = some pa
    let slot := x.slotAddr
    let pkt := s.packetAt ctx slot
    let active := p.state = 2 ∧ s.frozen = false ∧ p.seq % 2 = 0
    let halted := fun (y : Queue) => y.primary = { p with state := 3, hidx := x.haltIndex, qslot := 0xFFFFFFFF, seq := (p.seq + 1) % 2 ^ 32 }
    let moved := fun (y : Queue) => y.primary = { p with ridx := p.ridx + 1, seq := (p.seq + 1) % 2 ^ 32 } ∧ y.shadow = p ∧ y.header = none ∧ y.waiting = false
    let due := fun (type : Nat) => active ∧ packetBad pkt = none ∧ ∃ h, x.header = some h ∧ h % 256 = type
    let barred := bitOf pkt 8 = true ∧ s.queueBusy q = true
    let sigaddr := (launchOf pkt).sigaddr
    -- notifies
    (p.state ≠ 0 → ∀ i, let d := (i % 2 ^ 32 + 2 ^ 32 - p.nidx) % 2 ^ 32
      Acts (.notifyIdx q i) s fun t => t.mem = s.mem ∧ tgt t fun y => y.primary.nidx = (if 1 ≤ d ∧ d < 2 ^ 31 then i % 2 ^ 32 else p.nidx) ∧ y.primary.state = p.state ∧
        y.primary.ridx = p.ridx ∧ y.emptyAt = none) ∧
    (p.state = 0 → (∀ i, exec (.notifyIdx q i) s = .next s) ∧ exec (.notifyResume q) s = .next s) ∧
    (p.state = 3 → ∀ n, n ≤ p.ridx → n < 2 ^ 31 → p.hidx = (p.ridx - n) % 2 ^ 32 → Acts (.notifyResume q) s fun t => tgt t fun y =>
      y.primary.state = 1 ∧ y.primary.ridx = p.ridx - n + 1 ∧ y.primary.nidx = p.nidx ∧ y.header = none) ∧
    -- slots
    (∀ n m, n < 32 → s.frozen = false → Tbl.wf s.queues = true → (∀ r ∈ s.queues, r.1 < 1024) → p.seq % 2 = 0 → p.state = 1 → x.pending = some m →
      (∀ r ∈ s.queues, r.1 ≠ q → r.2.primary.seq % 2 = 0 → ∀ m', r.2.pending = some m' → m < m' ∨ (m = m' ∧ q < r.1)) →
      let taken := fun (y : Queue) => y.primary.state = 2 ∧ y.primary.qslot = n ∧ y.pending = none ∧ y.slotSince = s.fwCycle ∧ y.primary.ridx = p.ridx
      ((∀ r ∈ s.queues, ¬ (r.2.primary.state = 2 ∧ r.2.primary.qslot = n)) → Acts (.queueSlotGrant q n) s fun t => tgt t taken ∧ ∀ r, r ≠ q → Tbl.find? t.queues r = Tbl.find? s.queues r) ∧
      (∀ h y, Tbl.find? s.queues h = some y → y.primary.state = 2 → y.primary.qslot = n → (∀ r ∈ s.queues, r.2.primary.state = 2 → r.2.primary.qslot = n → r.1 = h) →
        y.primary.seq % 2 = 0 → (y.primary.ahead = 0 ∨ (y.waiting = true ∧ ∃ w, y.header = some w ∧ w % 256 = 3)) →
        Acts (.queueSlotGrant q n) s fun t => tgt t taken ∧ ∃ y', Tbl.find? t.queues h = some y' ∧ y'.primary.state = 1 ∧ y'.primary.qslot = 0xFFFFFFFF)) ∧
    (p.state = 2 → p.seq % 2 = 0 → x.header = none → x.slotSince + 2 ^ 16 ≤ s.fwCycle → (∃ r ∈ s.queues, r.1 ≠ q ∧ r.2.pending ≠ none) →
      Acts (.slotTimeLimit q) s fun t => tgt t fun y => y.primary.state = 1 ∧ y.primary.qslot = 0xFFFFFFFF ∧ y.primary.ridx = p.ridx) ∧
    -- the free list
    (∀ id m acc ia pa scope a, s.msgs.find? (fun m => m.id = id) = some m → m.body = .read acc ia pa scope → m.onList = true → s.mayPerform m = true → s.acc? acc = some a →
      a.kind = .load → a.addr = windowBase + 0xF000 → a.size = 8 → Acts (.flpop id) s fun t => t.freeSegs = s.freeSegs.tail ∧
        ∃ r ∈ t.msgs, r.src = m.dst ∧ r.dst = m.src ∧ r.lane = m.lane ∧
          r.body = .resp acc ia ((List.range 64).map fun o => (o, BitVec.ofNat 8 (if o < 8 then s.freeSegs.headD 0 / 2 ^ (8 * o) else 0))) (s.invsTo m.src)) ∧
    (∀ id m ia pa bs tag band gid thread v, s.msgs.find? (fun m => m.id = id) = some m → m.body = .write ia pa bs tag band gid thread → m.onList = true →
      s.mayPerform m = true → v < 2 ^ 64 → (∀ i < 8, Tbl.find? bs (8 + i) = some (BitVec.ofNat 8 (v / 2 ^ (8 * i)))) →
      Acts (.flpush id) s fun t => t.freeSegs = s.freeSegs ++ [v]) ∧
    -- headers
    (p.state = 2 → s.frozen = false → p.seq % 2 = 1 → ∀ e ∈ [Instr.headerRead q, .emptySlotRetry q, .packetNop q, .packetLink q, .packetSignal q, .packetDepend q,
      .packetLaunch q, .packetGang q], Acts e s fun t => t.mem = s.mem ∧ tgt t fun y => y.primary = { p with seq := (p.seq + 1) % 2 ^ 32 } ∧ y.shadow = x.shadow) ∧
    (∀ h, active → s.returnable q x = [] → x.header = none → x.emptyAt = none → (p.ahead ≠ 0 ∨ x.atLink = true) → s.firstUnmapped ctx slot needX false 64 = none → s.vaRead ctx slot 8 needX = some h →
      let acted := x.recov = true ∧ 1 ≤ bits h 23 16 ∧ bits h 23 16 ≤ 7
      (h % 256 = 0xFF → Acts (.headerRead q) s fun t => t.mem = s.mem ∧ tgt t fun y => y = { x with emptyAt := some s.fwCycle }) ∧
      (acted → h % 256 ≠ 0xFF → x.atLink = false → Acts (.headerRead q) s fun t => t.mem = s.mem ∧ t.flights = s.flights ∧ tgt t fun y =>
        y.primary = { p with ridx := p.ridx + 1, seq := (p.seq + 1) % 2 ^ 32 } ∧ y.recov = true) ∧
      (¬ acted → h % 256 ≠ 0xFF → ((6 ≤ h % 256 ∨ ¬ (h % 256 = 5 ↔ x.atLink = true)) → Acts (.headerRead q) s fun t => tgt t halted) ∧
        (h % 256 < 6 → (h % 256 = 5 ↔ x.atLink = true) → Acts (.headerRead q) s fun t => t.mem = s.mem ∧ tgt t fun y => y = { x with header := some h, recov := false }))) ∧
    (∀ c, active → x.emptyAt = some c → (c + 4096 ≤ s.fwCycle → Acts (.emptySlotRetry q) s fun t => t.mem = s.mem ∧ tgt t fun y => y = { x with emptyAt := none }) ∧
      (s.fwCycle < c + 4096 → exec (.emptySlotRetry q) s = .next s)) ∧
    -- packets
    (∀ o h e, active → x.header = some h → packetBad pkt = some o → (h % 256, e) ∈ [(0, Instr.packetNop q), (1, .packetLaunch q), (2, .packetGang q), (3, .packetDepend q),
      (4, .packetSignal q), (5, .packetLink q)] → Acts e s fun t => t.flights = s.flights ∧ tgt t halted ∧
        ∀ pa, at' needW ctx (slot + 2) pa → at' needW ctx (slot + 3) (pa + 1) → t.mem = (s.mem.write pa 1 5).write (pa + 1) 1 o) ∧
    (due 0 → (barred → exec (.packetNop q) s = .next s) ∧ (¬ barred → Acts (.packetNop q) s fun t => tgt t moved ∧
      ∀ pa, at' needW ctx (slot + 2) pa → t.mem = s.mem.write pa 1 3)) ∧
    (∀ l, active → x.header = none → s.returnable q x = l → l ≠ [] →
      (∀ e ∈ l, ∀ n < 64, ∀ j < 8, ∃ pa, at' needW ctx ((e.1 + 64 * n) % 2 ^ 64 + j) pa) → Acts (.headerRead q) s fun t => t.freeSegs = s.freeSegs ++ l.map (·.1) ∧
      tgt t fun y => y = { x with segments := x.segments.filter fun e => e ∉ l }) ∧
    (due 5 → (barred → exec (.packetLink q) s = .next s) ∧ (¬ barred → s.firstUnmapped ctx (p.qhdr + 8) needW true 8 = none → Acts (.packetLink q) s fun t =>
      (tgt t fun y => y.primary = { p with rseg := pfield pkt 15 8, seq := (p.seq + 1) % 2 ^ 32 } ∧ (pfield pkt 15 8, p.ridx) ∈ y.segments) ∧
      ∀ pa pb, at' needW ctx (slot + 2) pa → (∀ i < 8, at' needW ctx (p.qhdr + 8 + i) (pb + i)) → t.mem = (s.mem.write pa 1 3).write pb 8 p.ridx)) ∧
    (due 4 → s.queueBusy q = false → let add : Bool := pbyte pkt 24 = 1
      let need := if add then needXWA else needW
      let a := pfield pkt 15 8
      s.firstUnmapped ctx a need true 8 = none → Acts (.packetSignal q) s fun t => tgt t moved ∧ ∀ pa ps, (∀ i < 8, at' need ctx (a + i) (pa + i)) → at' needW ctx (slot + 2) ps →
        t.mem = (s.mem.write pa 8 (if add then s.mem.read pa 8 + pfield pkt 23 16 else pfield pkt 23 16)).write ps 1 3) ∧
    (∀ v : Nat → Nat, due 3 → ¬ barred → let n := pbyte pkt 56
      let word := fun (i : Nat) => pfield pkt (15 + 16 * i) (8 + 16 * i)
      let want := fun (i : Nat) => pfield pkt (23 + 16 * i) (16 + 16 * i)
      let meets := fun (i : Nat) => if pbyte pkt 57 = 0 then signed (want i) 64 ≤ signed (v i) 64 else v i = want i
      (∀ i < n, s.firstUnmapped ctx (word i) needX false 8 = none ∧ s.vaRead ctx (word i) 8 needX = some (v i)) →
      ((∃ i < n, bitOf (v i) 63 = true) → Acts (.packetDepend q) s fun t => tgt t halted) ∧
      ((∀ i < n, bitOf (v i) 63 = false ∧ meets i) → Acts (.packetDepend q) s fun t => tgt t moved) ∧
      ((∀ i < n, bitOf (v i) 63 = false) → (∃ i < n, ¬ meets i) → Acts (.packetDepend q) s fun t => (tgt t fun y => y.primary = p ∧ y.waiting = true) ∧
        ∀ pa, at' needW ctx (slot + 2) pa → t.mem = s.mem.write pa 1 8)) ∧
    -- launches
    (∀ k, let l := launchOf pkt
      s.kernel ctx l.roi l.kidx = some k → (s.checkLaunch ctx l = .ok k ↔ k.regs ≤ l.regs ∧ l.regs ≤ quotaOf l.bandw ∧ (l.bandw = 16 ∨ l.bandw = 32 ∨ l.bandw = 64) ∧
        l.bandw = k.bandw ∧ 1 ≤ l.teamb ∧ l.teamb ≤ 32 ∧ k.scratch ≤ l.scratch ∧ l.scratch ≤ 2 ^ 22 ∧ l.scratch % 64 = 0 ∧ l.teams ≠ 0 ∧ l.tlots ≤ 32 ∧
        l.part < 2 ^ s.npart ∧ s.fits l = true)) ∧
    (∀ code, due 1 → s.launchWaits ctx (launchOf pkt) = none → s.checkLaunch ctx (launchOf pkt) = .error code → s.firstUnmapped ctx sigaddr needW true 8 = none →
      Acts (.packetLaunch q) s fun t => t.flights = s.flights ∧ t.nextFlight = s.nextFlight ∧ tgt t halted ∧ ∀ ps pa, at' needW ctx (slot + 2) ps →
        at' needW ctx (slot + 3) (ps + 1) → (∀ i < 8, at' needW ctx (sigaddr + i) (pa + i)) → t.mem = ((s.mem.write ps 1 4).write (ps + 1) 1 code).write pa 8 (2 ^ 64 - code)) ∧
    (∀ k, due 1 → s.launchWaits ctx (launchOf pkt) = none → s.checkLaunch ctx (launchOf pkt) = .ok k → ¬ barred → let l := launchOf pkt
      Acts (.packetLaunch q) s fun t => tgt t moved ∧ t.nextFlight = (s.nextFlight + 1) % 2 ^ 32 ∧ (∀ n, n ≠ s.nextFlight → t.flight? n = s.flight? n) ∧
        (∀ pf ps, (∀ i < 4, at' needW ctx (slot + 4 + i) (pf + i)) → at' needW ctx (slot + 2) ps → t.mem = (s.mem.write pf 4 s.nextFlight).write ps 1 1) ∧
        ∃ f, t.flight? s.nextFlight = some f ∧ f.ctx = ctx ∧ f.queue = q ∧ f.packet = slot ∧ f.part = l.part ∧ f.teams = l.teams ∧ f.teamb = l.teamb ∧ f.bandw = l.bandw ∧
          f.regs = l.regs ∧ f.scratch = l.scratch ∧ f.tlots = l.tlots ∧ f.epri = l.epri ∧ f.wsw = l.wsw ∧ f.roi = l.roi ∧ f.kidx = l.kidx ∧ f.entryOv = k.entov ∧
          f.entryOff = k.entwd ∧ f.sigaddr = l.sigaddr ∧ f.sigval = l.sigval ∧ f.scope = bits pkt 12 10 ∧ f.intr = bitOf pkt 9 ∧ f.starve = 2 ^ 22 ∧ f.started = false ∧
          f.killed = false ∧ ∀ m, Tbl.find? f.members m = if m < l.teams then some { teamb := l.teamb, runsince := some s.fresh } else none) ∧
    -- gangs
    (∀ as e, due 2 → (e, x.waiting) ∈ [(Instr.packetGang q, false), (.gangRetry q, true)] → (∀ g ∈ s.gangs, g.2.queue ≠ q) → s.partsOf x (pbyte pkt 8) = some as →
      (∀ r ∈ as.zip (members (pbyte pkt 8) 8), s.partBad ctx (s.packetAt ctx r.1) r.2 = none) → let ls := as.map fun a => launchOf (s.packetAt ctx a)
      (∀ l ∈ ls, s.launchWaits ctx l = none) →
      ((∃ l ∈ ls, ∃ c, s.checkLaunch ctx l = .error c) → (∀ l ∈ ls, s.firstUnmapped ctx l.sigaddr needW true 8 = none) →
        Acts e s fun t => t.flights = s.flights ∧ t.gangs = s.gangs ∧ t.nextFlight = s.nextFlight ∧ tgt t halted) ∧
      (∀ ks : List Kern, ks.length = as.length → (∀ i < as.length, ∀ l k, ls[i]? = some l → ks[i]? = some k → s.checkLaunch ctx l = .ok k ∧
          ∀ c ∈ k.codes.take 4, s.firstUnmapped ctx c.2.1 needX false (4 * c.2.2) = none) → s.queueBusy q = false →
        let fs := s.gangFlights q x as ks
        (s.gangRoom fs = true → Acts e s fun t => (tgt t fun y => y = { x with waiting := true }) ∧ t.nextFlight = (s.nextFlight + as.length) % 2 ^ 32 ∧
          ∃ g, Tbl.find? t.gangs s.nextId = some g ∧ g.queue = q ∧ g.flights = (List.range as.length).map (s.nextFlight + ·) ∧ g.goDies = [] ∧ g.acked = [] ∧
            (∀ k b, t.band? k = some b → b.flight ∈ g.flights → b.stop ≠ none) ∧
            ∀ n < as.length, ∃ f, t.flight? (s.nextFlight + n) = some f ∧ f.gang = some s.nextId ∧ ∀ m < f.teams, ∃ c pr sb, t.placeOfTeam (s.nextFlight + n) m = .resident c pr sb) ∧
        (s.gangRoom fs = false → Acts e s fun t => (tgt t fun y => y = { x with waiting := true }) ∧ t.flights = s.flights ∧ t.gangs = s.gangs ∧
          t.nextFlight = s.nextFlight ∧ t.bands = s.bands))) ∧
    (∀ id g die, Tbl.find? s.gangs id = some g → g.queue = q → die ∈ g.dies → die ∉ g.acked →
      (s.fatal = false → g.goDies = [] → p.ridx + 1 + g.flights.length ≤ x.segFirst + 63 → p.seq % 2 = 0 → Acts (.gangGo id die) s fun t =>
        Tbl.find? t.gangs id = some { g with goDies := [die], goAt := s.fwCycle } ∧
        tgt t fun y => y.primary = { p with ridx := p.ridx + (1 + g.flights.length), seq := (p.seq + 1) % 2 ^ 32 }) ∧
      (s.fatal = false → die ∈ g.goDies → s.fwCycle ≤ g.goAt + 4000 → Acts (.gangGo id die) s fun t =>
        (∀ k b, t.band? k = some b → b.flight ∈ g.flights → coreDie (keyCore k) = die → b.stop = none) ∧
        Tbl.find? t.gangs id = if (∀ d ∈ g.dies, d ∈ g.acked ∨ d = die) then none else some { g with acked := g.acked ++ [die] }) ∧
      (s.fatal = false → g.goDies ≠ [] → g.goAt + 4000 < s.fwCycle → exec (.gangGo id die) s = .next s) ∧
      (g.goDies ≠ [] → g.goAt + 4000 < s.fwCycle → Acts (.gangAckTimeout id die) s fun t => Tbl.find? t.gangs id = none ∧ t.mem = s.mem ∧
        ∀ n ∈ g.flights, ∀ f, s.flight? n = some f → t.flight? n = some { f with killed := true })) ∧
    -- completion
    (∀ n f, s.flight? n = some f → s.flightOver n f = true → (f.ending = none → Acts (.flightComplete n) s fun t => ∃ l, t.flight? n = some { f with ending := some l }) ∧
      (∀ w, f.ending = some w → (∀ i ∈ w, ∀ m ∈ s.msgs, m.id ≠ i) → (f.sigaddr % 8 = 0 → s.firstUnmapped f.ctx f.sigaddr needW true 8 = none) →
        Acts (.flightComplete n) s fun t => t.flight? n = none ∧ (s.fatal = false → f.killed = false → f.sigaddr % 8 = 0 → (∀ g, Tbl.find? s.queues f.queue = some g → g.segments.head?.all (fun e => e.1 = g.primary.rseg) = true) →
          ∀ pa ps, (∀ i < 8, at' needW f.ctx (f.sigaddr + i) (pa + i)) → at' needW f.ctx (f.packet + 2) ps → t.mem = (s.mem.write pa 8 f.sigval).write ps 1 3))) ∧
    -- recovery
    (let back := fun (y : Queue) => y.header = none ∧ y.recov = true ∧
        y.primary = if p.seq % 2 = 1 then { x.shadow with seq := (x.shadow.seq + 2) % 2 ^ 32 } else p;
      s.fatal = false → s.faultRing = none →
      ((s.emberStamps.filter fun c => s.fwCycle < c + 2 ^ 32).length < 2 → Acts .emberRestart s fun t => t.fatal = false ∧ tgt t back) ∧
      (2 ≤ (s.emberStamps.filter fun c => s.fwCycle < c + 2 ^ 32).length → Acts .emberRestart s fun t => t.fatal = true ∧ (∀ n f, t.flight? n = some f → f.killed = true) ∧
        tgt t fun y => y.primary.state = 3 ∨ y.primary.state = 0) ∧
      (∀ w, w < 8 → Acts (.workerHeartbeatTimeout w) s fun t => t.fatal = false ∧ (x.ofWorker w = true → tgt t back) ∧ (x.ofWorker w = false → tgt t fun y => y = x)))

/-! ### Faults, errors, resets and power (R472 to R494) -/

/-- R472 to R483, R486: a fault record has the layout of R473; it goes to the ring that the driver named, with FQPROD and vector 0, or counts in FQLOST. A band's
class-1 fault halts it for a debugger, or its team is saved for a snapshot. A kill marks the flight and stops its bands, and then discards what has not started.
The third corrected error of a location within 2^32 firmware cycles is a lasting fault, repaired while a spare is left. An uncorrected error poisons its sector,
or kills what stands on its array and disables it; a failed die is disabled and its flights are killed. -/
def Obligations.FaultsAndKills : Prop :=
  ∀ (s : State),
    let img := fun (r a1 a2 : Nat) => s.faultImage { cls := 3, reason := r, addr := 0, aux1 := a1, aux2 := a2 }
    let killed := fun (t : State) (n : Nat) => ∃ f, t.flight? n = some f ∧ f.killed = true
    let serves := s.ready = true ∧ s.fatal = false
    let dev := fun (a pa : Nat) => isHost a = false ∧ s.cached agentIO a true = some pa
    -- records
    (∀ n : FaultNote, n.cls < 256 → n.reason < 256 → n.flags < 256 → n.pc < 65536 → let x := s.faultImage n
      let q := fun (i : Nat) => match n.flight.bind s.flight? with | some f => if i = 0 then f.queue % 65536 else f.qidx % 2 ^ 32 | none => 0
      bits x 7 0 = n.cls ∧ bits x 15 8 = n.reason ∧ bits x 23 16 = n.flags ∧ bits x 31 24 = n.repi % 256 ∧ bits x 63 32 = n.flight.getD 0xFFFFFFFF % 2 ^ 32 ∧
      bits x 95 64 = n.ctx.getD 0xFFFFFFFF % 2 ^ 32 ∧ bits x 127 96 = n.team.getD 0xFFFFFFFF % 2 ^ 32 ∧ bits x 135 128 = n.band.getD 0xFF % 256 ∧
      bits x 143 136 = n.btid.getD 0xFF % 256 ∧ bits x 159 144 = n.pc ∧ bits x 175 160 = n.core.getD 0xFFFF % 65536 ∧ bits x 191 176 = q 0 ∧ bits x 223 192 = q 1 ∧
      bits x 255 224 = s.faultSeq % 2 ^ 32 ∧ bits x 319 256 = n.addr % 2 ^ 64 ∧ bits x 383 320 = n.aux1 % 2 ^ 64 ∧ bits x 447 384 = n.aux2 % 2 ^ 64 ∧
      bits x 511 448 = s.fwCycle % 2 ^ 64) ∧
    (∀ base n, serves → (4 ≤ n ∧ n ≤ 16 ∧ base % 4096 = 0 → Acts (.setFaultRing base n) s fun t => t = { s with faultRing := some (base, n), outbox := s.outbox ++ [[4, 1, 0]] }) ∧
      (¬ (4 ≤ n ∧ n ≤ 16 ∧ base % 4096 = 0) → Acts (.setFaultRing base n) s fun t => t = { s with outbox := s.outbox ++ [[4, 1, 1]] })) ∧
    (∀ base n, s.ready = false → s.fatal = false → Acts (.setFaultRing base n) s fun t => t = { s with outbox := s.outbox ++ [[4, 1, 0xFFFFFFFE]] }) ∧
    (∀ code base k prod cons pw pc, 1 ≤ locKind code → locKind code ≤ 8 → Tbl.get s.stamps code [] = [] → s.faultRing = some (base, k) →
      dev (base + 64 * 2 ^ k) pw → dev (base + 64 * 2 ^ k + 4) pc → s.mem.read pw 4 = prod → s.mem.read pc 4 = cons →
      let full := 2 ^ k ≤ (prod + 2 ^ 32 - cons) % 2 ^ 32
      (¬ full → ∀ pr, dev (base + 64 * (prod % 2 ^ k)) pr → Acts (.correctedError code) s fun t => t.mem = (s.mem.write pr 64 (img 34 code 1)).write pw 4 (prod + 1) ∧
        t.faultLost = s.faultLost ∧ t.faultLog = s.faultLog ++ [img 34 code 1] ∧ t.faultSeq = s.faultSeq + 1 ∧
        ∀ a d c, Tbl.get s.msixTab 0 (0, 0, 1) = (a, d, c) → if c % 2 = 0 then t.outbox = s.outbox ++ [[3, 0, a, d]] else t.outbox = s.outbox ∧ 0 ∈ t.msixPend) ∧
      (full → ∀ pl, dev (base + 64 * 2 ^ k + 8) pl → Acts (.correctedError code) s fun t => t.mem = s.mem.write pl 8 (s.faultLost + 1) ∧
        t.faultLost = (s.faultLost + 1) % 2 ^ 64 ∧ t.outbox = s.outbox)) ∧
    (∀ n c a, serves → Tbl.find? s.snaps n = some (c, a) → Acts (.snapshotRelease n) s fun t => Tbl.find? t.snaps n = none ∧ t.mem = s.mem ∧
      ((∀ p ∈ s.flights, ∀ q ∈ p.2.members, q.2.place ≠ .absent a) → ∀ x y, s.ctx? c = some x → t.ctx? c = some y → ∀ r, r ∈ y.records ↔ r ∈ x.records ∧ r.1 ≠ a)) ∧
    -- band stops
    (∀ k b f, s.band? k = some b → b.fault = some f → f.noted = false → s.faultRing = none → (∀ x, s.flight? b.flight = some x → x.killAt = none) →
      let attached := ∃ c, s.ctx? (s.bandCtx b) = some c ∧ c.attached = true
      (attached → b.stepping = none → Acts (.bandStop k) s fun t => t.faultLost = (s.faultLost + 1) % 2 ^ 64 ∧ t.flights = s.flights ∧ ∃ b', t.band? k = some b' ∧
        b'.fault = none ∧ b'.halted = true ∧ b'.halt = { why := 1, pc := f.pc } ∧ b'.regs = b.regs ∧ ∀ j < b.threads.length, (b.thread j).state = .ready →
          (b'.thread j).state = .halted ∨ ∃ i, (b.thread j).park = .safe i) ∧
      (∀ fl tm core pr sb, ¬ attached → s.fatal = false → s.coreWorks (keyCore k) = true → s.flight? b.flight = some fl → Tbl.find? fl.members b.team = some tm →
        tm.place = .resident core pr sb → tm.saving = 0 →
        (∃ j ∈ s.teamKeys b.flight b.team, ∃ x, s.band? j = some x ∧ x.allExited = false) → let s1 := s.noteBand k
        let room := s1.recordRoom fl.ctx (recordBytes (s1.bandsForSave fl b.flight b.team tm.teamb) fl.scratch)
        (room ≠ none → Acts (.bandStop k) s fun t => t.mem = s.mem ∧ t.faultLog = s.faultLog ∧ (∃ fl' tm', t.flight? b.flight = some fl' ∧ Tbl.find? fl'.members b.team = some tm' ∧
          tm'.saving = 1 ∧ tm'.stops = tm.stops ++ [(b.bandid, f)] ∧ fl'.killed = fl.killed) ∧ ∀ j ∈ s.teamKeys b.flight b.team, ∀ x, t.band? j = some x → x.stop ≠ none) ∧
        (room = none → f.code < 256 → Acts (.bandStop k) s fun t => killed t b.flight ∧ ∃ r, t.faultLog = s.faultLog ++ [r] ∧ bits r 7 0 = 1 ∧ bits r 16 16 = 0 ∧ bits r 17 17 = 1))) ∧
    -- kills
    (∀ n f, s.flight? n = some f → (f.killAt = none → s.stopsDue n f = false → Acts (.flightKill n) s fun t => t.mem = s.mem ∧
        t.flight? n = some { f with killed := true, killAt := some s.fwCycle } ∧
        ∀ k b, s.band? k = some b → b.flight = n → ∃ b', t.band? k = some b' ∧ b'.stop ≠ none ∧ b'.threads = b.threads ∧ b'.regs = b.regs) ∧
      (∀ c, f.killAt = some c → s.killReady n f = true → Acts (.flightKill n) s fun t =>
        (∀ p ∈ t.clusters, (∀ r ∈ p.2.spawns, r.flight ≠ n) ∧ (∀ e ∈ p.2.pool, e.flight ≠ n) ∧ ∀ l ∈ p.2.lots, l.flight = n → l.due ≠ 0) ∧
        (∀ p ∈ t.posts, p.2.kind ≠ 1 → p.2.flight ≠ n) ∧ ∀ a ∈ t.iq, a.flight = n → a.kind ≠ .load) ∧
      (∀ c, f.killAt = some c → c + 2 ^ 24 ≤ s.fwCycle → Acts (.killSideLogTimeout n) s fun t => ∀ k, ∀ e ∈ (t.core k).sidelog, e.flight = n → e.replaying = true)) ∧
    -- corrected errors
    (∀ code, 1 ≤ locKind code → locKind code ≤ 8 → s.faultRing = none → let l := Tbl.get s.stamps code [] ++ [s.fwCycle]
      let kept := l.drop (l.length - 2)
      let third := 3 ≤ l.length ∧ ∀ i ∈ l, s.fwCycle < i + 2 ^ 32
      let kind := locKind code
      let now := fun (t : State) => t.repairs = s.repairs + 1 ∧ Tbl.get t.stamps code [] = []
      let two := fun (t : State) (fix : Nat) => ∃ r, t.faultLog = s.faultLog ++ [img 34 code l.length, r] ∧ bits r 15 8 = 35 ∧ bits r 383 320 = code % 2 ^ 64 ∧ bits r 447 384 = fix
      (¬ third → Acts (.correctedError code) s fun t => t.mem = s.mem ∧ Tbl.get t.stamps code [] = kept ∧ t.repairs = s.repairs ∧
        t.faultLog = s.faultLog ++ [img 34 code (l.filter fun i => decide (s.fwCycle < i + 2 ^ 32)).length]) ∧
      (third → (∀ key n, spareOf code = some (key, n) → Tbl.get s.spares key 0 < n → Acts (.correctedError code) s fun t => now t ∧ two t kind ∧ code ∈ t.rowHolds ∧
          Tbl.get t.spares key 0 = Tbl.get s.spares key 0 + 1) ∧
        (∀ key n, spareOf code = some (key, n) → n ≤ Tbl.get s.spares key 0 → Acts (.correctedError code) s fun t => t.repairs = s.repairs ∧ two t 0 ∧ t.spares = s.spares) ∧
        (kind = 3 → Acts (.correctedError code) s fun t => now t ∧ two t 3 ∧ code ∈ t.badWays) ∧
        (kind = 4 → Acts (.correctedError code) s fun t => now t ∧ t.coreWorks (locUnit code) = false) ∧
        (kind = 5 → Acts (.correctedError code) s fun t => now t ∧ t.clusterWorks (locUnit code) = false) ∧
        (kind = 8 → Acts (.correctedError code) s fun t => t.repairs = s.repairs ∧ two t 0))) ∧
    (∀ code, (locKind code = 1 → Acts (.spareRowCopyDone code) s fun t => t = { s with rowHolds := s.rowHolds.filter (· ≠ code) }) ∧
      (locKind code = 2 → (∀ p ∈ s.bands, coreDie (keyCore p.1) ≠ locDie code) → Acts (.wstRowRepair code) s fun t => t = { s with rowHolds := s.rowHolds.filter (· ≠ code) })) ∧
    -- uncorrected errors and lost dies
    (∀ code target, s.faultRing = none → let unit := locUnit code
      let logged := fun (t : State) => ∃ l, t.faultLog = s.faultLog ++ img 36 code 0 :: l
      (locKind code = 1 ∨ locKind code = 3 → Acts (.uncorrectedError code target) s fun t => t.mem = s.mem ∧ logged t ∧ t.poison = Tbl.put s.poison (target / 16) code) ∧
      (locKind code = 2 → Acts (.uncorrectedError code target) s fun t => t.mem = s.mem ∧ logged t ∧ t.poison = Tbl.put s.poison (sectorWst (locDie code) target) code) ∧
      (locKind code = 4 → Acts (.uncorrectedError code target) s fun t => logged t ∧ t.coreWorks unit = false ∧ (t.core unit).sidelog = [] ∧ (∀ a ∈ t.iq, a.core ≠ unit) ∧
        ∀ k b f, s.band? k = some b → keyCore k = unit → s.flight? b.flight = some f → killed t b.flight) ∧
      (locKind code = 5 → Acts (.uncorrectedError code target) s fun t => logged t ∧ t.clusterWorks unit = false ∧
        ∀ k b f, s.band? k = some b → coreCluster (keyCore k) = unit → s.flight? b.flight = some f → killed t b.flight) ∧
      (locKind code = 6 ∨ locKind code = 8 → Acts (.uncorrectedError code target) s fun t => logged t ∧ t.mem = s.mem ∧ t.flights = s.flights)) ∧
    (∀ d, d < 4 → (s.die d).disabled = false → s.faultRing = none → Acts (.dieDisable d) s fun t => (t.die d).disabled = true ∧
      (∃ l1 r l2, t.faultLog = s.faultLog ++ l1 ++ r :: l2 ∧ bits r 15 8 = 38 ∧ bits r 383 320 = d) ∧ ∀ n f, s.flight? n = some f → s.usesDie d n f = true → killed t n) ∧
    (∀ rank, serves → rank < 4096 → rank ≠ s.rank → Acts (.peerReadmit rank) s fun t => t.mem = s.mem ∧
      ∀ n, (s.link n).state = 4 → (s.link n).peer = rank → n < 16 → (t.link n).state = 0)

/-! ### Resets, partitions, power and the Luna port (R488 to R494) -/

/-- R489 to R494: a cold reset keeps the fuses alone and leaves the device READY; a warm reset first has every flight killed, and keeps device memory and the weight
stores. PARTCFG takes effect only while no flight lives, and PWRLIM is clamped. Each interval the power controller lowers a die's clock by 20 MHz, or raises it after 16
quiet ones, and at 120 °C everything but the fuses is lost. The Luna port answers each of its messages, and without the rails only those of R494. -/
def Obligations.ResetsAndPower : Prop :=
  ∀ (s : State),
    let fused := fun (t : State) => (∀ c, (t.core c).disabled = (s.core c).disabled) ∧ (∀ c, (t.cluster c).disabled = (s.cluster c).disabled) ∧
      (∀ d, (t.die d).disabled = (s.die d).disabled) ∧ t.repairs = s.repairs ∧ t.spares = s.spares ∧ t.badWays = s.badWays
    let empty := fun (t : State) => t.flights = [] ∧ t.bands = [] ∧ t.queues = [] ∧ t.ctxs = [] ∧ t.msgs = [] ∧ t.iq = [] ∧ t.faultRing = none ∧ t.fatal = false ∧ t.warm = false
    let up := fun (t : State) => t.ready = true ∧ t.powered = true ∧ t.npart = 0 ∧ t.pwrlim = 3000 ∧ t.rank = s.nextRank ∧ ∀ n < 16, (t.link n).state = 1
    let luna := fun (m st : Nat) (l : List Nat) => { s with outbox := s.outbox ++ [14 :: m :: st :: l] }
    (Acts .coldReset s fun t => fused t ∧ empty t ∧ up t ∧ t.mem = []) ∧
    (Acts .railsDown s fun t => fused t ∧ empty t ∧ t.powered = false ∧ t.ready = false ∧ t.mem = []) ∧
    (s.powered = true → (s.fatal = true ∨ s.flights = []) → Acts .warmReset s fun t => fused t ∧ empty t ∧ up t ∧ t.dptbase = s.dptbase ∧
      ∀ a, t.mem.byte a = if a < 2 ^ 54 ∨ 2 ^ 55 ≤ a then s.mem.byte a else 0) ∧
    (s.powered = true → s.fatal = false → s.flights ≠ [] → Acts .warmReset s fun t => t.warm = true ∧ t.mem = s.mem ∧ (s.warm = false → t.ready = false ∧
      ∀ n f, s.flight? n = some f → t.flight? n = some { f with killed := true })) ∧
    (∀ v, (v < 4 → s.flights = [] → s.gangs = [] → Acts (.partcfg v) s fun t => t = { s with npart := v }) ∧
      ((4 ≤ v ∨ s.flights ≠ [] ∨ s.gangs ≠ []) → exec (.partcfg v) s = .next s)) ∧
    (∀ v, (v < 4096 → Acts (.pwrlim v) s fun t => t = { s with pwrlim := if v < 500 then 500 else if 3000 < v then 3000 else v }) ∧ (4096 ≤ v → exec (.pwrlim v) s = .next s)) ∧
    (s.powered = true → (∀ d < 4, s.measure d < 120) →
      let low := fun (d : Nat) => s.pwrlim < s.measure 9 ∨ s.lunaCap < s.measure 9 ∨ 5700 < s.measure 8 ∨ 105 ≤ s.measure d
      Acts .powerControlTick s fun t => t.mem = s.mem ∧ (t.therm = true ↔ s.therm = true ∨ ∃ d < 4, 105 ≤ s.measure d) ∧ ∀ d < 4,
        (low d → (t.die d).clock = max 400 ((s.die d).clock - 20) ∧ Tbl.get t.quiet d 0 = 0) ∧
        (¬ low d → Tbl.get s.quiet d 0 < 15 → (t.die d).clock = (s.die d).clock ∧ Tbl.get t.quiet d 0 = Tbl.get s.quiet d 0 + 1) ∧
        (¬ low d → 15 ≤ Tbl.get s.quiet d 0 → (t.die d).clock = min 940 ((s.die d).clock + 20) ∧ Tbl.get t.quiet d 0 = 0)) ∧
    (s.powered = true → (∃ d < 4, 120 ≤ s.measure d) → Acts .powerControlTick s fun t => fused t ∧ empty t ∧ t.powered = false ∧ t.mem = []) ∧
    (∀ n, n < 256 → Acts (.setEndpointId n) s fun t => t = { luna 1 0 [n] with eid := n }) ∧
    (Acts .getEndpointId s fun t => t = luna 2 0 [s.eid]) ∧ (Acts .getMctpVersionSupport s fun t => ∃ v, t = luna 4 0 [v]) ∧
    (Acts .getMessageTypeSupport s fun t => ∃ l, t = luna 5 0 l) ∧
    (∀ n, n < 10 → (s.powered = true ∨ n = 4 → Acts (.sensorRead n) s fun t => t = luna 16 0 [s.measure n]) ∧
      (s.powered = false → n ≠ 4 → Acts (.sensorRead n) s fun t => t = luna 16 2 [])) ∧
    (s.powered = true → (∀ v, 500 ≤ v → v ≤ 3000 → Acts (.setLunaCap v) s fun t => t = { luna 17 0 [] with lunaCap := v }) ∧
      (Acts .readIdentification s fun t => ∃ id units cmap, t = luna 32 0 [id, units, cmap, (if s.ready then 1 else 0) + (if s.fatal then 2 else 0) + (if s.therm then 4 else 0)] ∧
        bits id 47 32 = 0x0840 ∧ bits units 31 16 = (if s.repairs < 65535 then s.repairs else 65535) ∧ ∀ c < 384, bitOf cmap c = s.coreWorks c) ∧
      (Acts .readFaultRecords s fun t => ∃ l, t = luna 33 0 l ∧ l <:+ s.faultLog ∧ l.length = min 16 s.faultLog.length) ∧
      (∀ v, v < 4096 → Acts (.setGridCoordinates v) s fun t => t = { luna 34 0 [] with nextRank := v }) ∧
      (s.warm = false → s.fatal = false → Acts .requestWarmReset s fun t => t.warm = true ∧ t.ready = false ∧ ∀ n f, s.flight? n = some f → t.flight? n = some { f with killed := true })) ∧
    (s.powered = false → (∀ e m, (e, m) ∈ [(Instr.setLunaCap 500, 17), (.readIdentification, 32), (.readFaultRecords, 33), (.setGridCoordinates 0, 34), (.requestWarmReset, 35)] →
        Acts e s fun t => t = luna m 2 []) ∧ (Acts .coldPowerUpRequest s fun t => fused t ∧ empty t ∧ up t))

/-! ### Contexts, services and the debugger (R362, R386 to R388, R400 to R420) -/

/-- R183, R362, R386 to R388, R397, R400, R407, R409, R420, R436, R465: the driver's services make and destroy contexts and queues, and refuse what breaks the
layouts; a context that gives way has its teams saved and its operations stopped, and stands switched out once none is left; one that resumes has its triggers
applied and its list emptied. An ECALL's service has its effect and its status, which then reaches every thread of the run. -/
def Obligations.ServicesAndContexts : Prop :=
  ∀ (s : State) (ctx : Nat),
    let serves := s.ready = true ∧ s.fatal = false
    let said := fun (n st : Nat) => s.outbox ++ [[4, n, st]]
    let at' := fun (c a pa : Nat) => ∃ ia, translate (s.ctxRanges c) needW a = some ia ∧ isHost ia = false ∧ s.cached agentIO ia true = some pa
    let queue := fun (t : State) (q : Nat) (g : Queue → Prop) => ∃ y, Tbl.find? t.queues q = some y ∧ g y
    -- contexts
    (∀ cpri quant csa csn sp spn cl, serves → ctx < 4096 → cpri < 4 → quant < 2 ^ 32 → csa % 4096 = 0 → 2304 * 96 ≤ csn → sp % 4096 = 0 → spn % 12288 = 0 → cl < 2 ^ 96 →
      (s.ctx? ctx = none → Acts (.createContext ctx [cpri, quant, csa, csn, sp, spn, cl]) s fun t => t.outbox = said 7 0 ∧
        t.ctxs = Tbl.put s.ctxs ctx { cpri := cpri, quant := quant, csabase := csa, csasize := csn, spbase := sp, spsize := spn, clmask := cl, sliceStart := s.fwCycle }) ∧
      (s.ctx? ctx ≠ none → Acts (.createContext ctx [cpri, quant, csa, csn, sp, spn, cl]) s fun t => t = { s with outbox := said 7 1 })) ∧
    (∀ c, serves → s.ctx? ctx = some c →
      ((∀ p ∈ s.flights, p.2.ctx ≠ ctx) → (∀ p ∈ s.queues, p.2.primary.state ≠ 0 → p.2.primary.ctx ≠ ctx) → Acts (.destroyContext ctx) s fun t => t.outbox = said 8 0 ∧
        t.ctx? ctx = none ∧ (∀ d, d ≠ ctx → t.ctx? d = s.ctx? d) ∧ ∀ cl n, ((s.cluster cl).engine.slot n).owner = some ctx →
          Tbl.wf (s.cluster cl).engine.slots = true → (t.cluster cl).engine.slot n = {}) ∧
      ((∃ p ∈ s.flights, p.2.ctx = ctx) → Acts (.destroyContext ctx) s fun t => t = { s with outbox := said 8 1 })) ∧
    (∀ c key, serves → s.ctx? ctx = some c → key < 65536 → Acts (.setGkey ctx key) s fun t => t.outbox = said 13 0 ∧ t.ctxs = Tbl.put s.ctxs ctx { c with gkey := key }) ∧
    -- queues
    (∀ q l, serves → q < 1024 → Tbl.find? s.queues q = none → Acts (.createQueue q l) s fun t => t = { s with queues := Tbl.put s.queues q {}, outbox := said 9 0 }) ∧
    (∀ q x, serves → Tbl.find? s.queues q = some x →
      (∀ c part seg hdr, x.primary.state = 0 → s.ctx? ctx = some c → part < 2 ^ s.npart → seg % 4096 = 0 → seg < 2 ^ 64 → hdr % 64 = 0 → hdr < 2 ^ 64 →
        Acts (.bindQueue q [ctx, part, seg, hdr]) s fun t => t.outbox = said 10 0 ∧ queue t q fun y => y.primary.state = 1 ∧ y.primary.ctx = ctx ∧ y.primary.part = part ∧
          y.primary.rseg = seg ∧ y.primary.qhdr = hdr ∧ y.primary.ridx = 0 ∧ y.primary.nidx = 0 ∧ y.primary.qslot = 0xFFFFFFFF ∧ y.slotAddr = seg) ∧
      (x.primary.state ≠ 0 → ∀ l, Acts (.bindQueue q l) s fun t => t = { s with outbox := said 10 1 }) ∧
      (Acts (.disableQueue q) s fun t => t.outbox = said 11 0 ∧ t.flights = s.flights ∧ queue t q fun y => y.primary.state = 0 ∧ y.primary.qslot = 0xFFFFFFFF ∧ y.pending = none) ∧
      (∀ v, 2 ≤ v → v ≤ 2047 → Acts (.setVec q v) s fun t => t.outbox = said 12 0 ∧ queue t q fun y => y.primary.vec = v ∧ y.primary.state = x.primary.state)) ∧
    -- switches
    (∀ new a b, s.ctx? ctx = some a → s.ctx? new = some b → new ≠ ctx → a.cstate ≠ 3 → a.switchedOut = false →
      (a.cpri < b.cpri ∧ s.ctxRunnable new = true ∨ b.switchedOut = true ∧ s.ctxResidents ctx = [] ∧ s.ctxRunnable ctx = false) →
      ((∀ cl, ((s.cluster cl).engine).serves ctx = false) → s.ctxResidents ctx = [] → Acts (.contextSwitch ctx new) s fun t =>
        (∃ c, t.ctx? ctx = some c ∧ c.switchedOut = true ∧ c.cstate = 1 ∧ c.cpri = a.cpri) ∧
        ∃ d, t.ctx? new = some d ∧ d.switchedOut = false ∧ d.cstate = 1 ∧ d.triggers = [] ∧ d.triglost = false ∧ d.sliceStart = s.fwCycle) ∧
      ((∃ q ∈ s.ctxResidents ctx, q.2.2.2.saving = 0) → Acts (.contextSwitch ctx new) s fun t => ∃ c, t.ctx? ctx = some c ∧ c.cstate = 3 ∧ c.switchedOut = false ∧ t.mem = s.mem)) ∧
    (∀ c, s.ctx? ctx = some c → c.switchedOut = false → c.cstate ≠ 3 → c.sliceStart + (if c.quant = 0 then 2 ^ 20 else c.quant) ≤ s.fwCycle →
      (∃ p ∈ s.ctxs, p.1 ≠ ctx ∧ p.2.cpri = c.cpri ∧ s.ctxRunnable p.1 = true) → s.ctxResidents ctx ≠ [] → Acts (.quantumExpiry ctx) s fun t => t.mem = s.mem ∧
        (∃ d, t.ctx? ctx = some d ∧ d.cstate = 3) ∧ ∀ n team core tm f, (n, team, core, tm) ∈ s.ctxResidents ctx → s.flight? n = some f → Tbl.find? f.members team = some tm →
          tm.saving = 0 → (∃ k ∈ s.teamKeys n team, ∃ b, s.band? k = some b ∧ b.allExited = false) → s.recordRoom f.ctx (recordBytes (s.bandsForSave f n team tm.teamb) f.scratch) ≠ none → ∃ f' tm', t.flight? n = some f' ∧
            Tbl.find? f'.members team = some tm' ∧ tm'.saving = 1) ∧
    (∀ k b since, s.band? k = some b → b.stop = some (2, since) → since + 2 ^ 20 ≤ s.cycleAt (keyCore k) → Acts (.safePointTimeout k) s fun t =>
      t = { s with bands := Tbl.put s.bands k { b with stop := some (1, s.cycleAt (keyCore k)) } }) ∧
    -- services of ECALL
    (∀ req e, Tbl.find? s.ecalls req = some e → e.status = none →
      let done := fun (t : State) (st : Nat) => t.ecalls = Tbl.put s.ecalls req { e with status := some st }
      let ectx := s.ecallCtx e
      let a := e.args.getD 0 0 + e.args.getD 1 0 * 2 ^ 32
      (e.service = 0 → Acts (.ecallNop req) s fun t => t = { s with ecalls := Tbl.put s.ecalls req { e with status := some 0 } }) ∧
      (e.service = 1 → (∀ c, s.ctx? ectx = some c → c.attached = false) → Acts (.ecallHalt req) s fun t => done t 1 ∧ t.bands = s.bands) ∧
      (∀ c k b, e.service = 1 → s.ctx? ectx = some c → c.attached = true → s.ecallBand e = some k → s.band? k = some b → b.midUnit = [] → Acts (.ecallHalt req) s fun t =>
        done t 0 ∧ ∃ b', t.band? k = some b' ∧ b'.halted = true ∧ b'.halt = { why := 6, pc := e.pc, tid := e.threads.headD 0 } ∧ b'.regs = b.regs) ∧
      (∀ i n x, (e.service, i, n, x) ∈ [(16, Instr.engstat req, 1280, s.engineImage (coreCluster e.core)), (17, .tracker req, 96, e.tracker.image)] →
        (a % 64 ≠ 0 ∨ firstFail (s.ctxRanges ectx) needW a n ≠ none → Acts i s fun t => done t 2 ∧ t.mem = s.mem) ∧
        (∀ pa, a % 64 = 0 → firstFail (s.ctxRanges ectx) needW a n = none → s.firstUnmapped ectx a needW true n = none → (∀ j < n, at' ectx (a + j) (pa + j)) →
          Acts i s fun t => done t 0 ∧ t.mem = s.mem.write pa n x)) ∧
      (e.service = 18 → let lo := bits (e.args.getD 0 0) 6 0
        let n := bits (e.args.getD 0 0) 14 8
        let g := (s.cluster (coreCluster e.core)).engine
        let named := fun (i : Nat) => lo ≤ i ∧ i ≤ lo + n
        ((127 < lo + n ∨ ∃ i, named i ∧ (g.slot i).owner ≠ some ectx) → Acts (.release req) s fun t => done t 2 ∧ t.clusters = s.clusters) ∧
        (lo + n ≤ 127 → (∀ i, named i → (g.slot i).owner = some ectx) → (∀ p ∈ g.live, p.2.ctx = ectx → ∀ i, named i → i ∉ p.2.op.slots) →
          (∀ p ∈ g.removed, p.1 = ectx → ∀ i, named i → i ∉ p.2.op.slots) → Acts (.release req) s fun t => done t 0 ∧ t.mem = s.mem ∧
            ∀ i, (t.cluster (coreCluster e.core)).engine.slot i = if lo ≤ i ∧ i ≤ lo + n then {} else g.slot i))) ∧
    (∀ req e k b st, s.ecalls = [(req, e)] → (e.status = some st ∧ e.service ∈ [0, 1, 16, 17, 18] ∨ st = 0xFFFFFFFF ∧ e.service ∉ [0, 1, 16, 17, 18]) → e.threads ≠ [] →
      e.threads.Nodup → s.ecallBand e = some k → s.band? k = some b → b.uid = uidOf e.flight e.team e.bandid → (∀ j ∈ e.threads, (b.thread j).state = .atOp ∧
        ∃ x y z, (b.thread j).park = .ecall x y z) → (∀ j ∈ e.threads, j < b.threads.length) → b.mapped + (b.unmapped [e.dreg]).length ≤ b.quota →
      Acts (.ecallServiceComplete req) s fun t => t.ecalls = [] ∧ t.mem = s.mem ∧ ∃ b', t.band? k = some b' ∧ b'.kregs = b.kregs ∧
        (∀ j, j ∉ e.threads → b'.vreg? e.dreg j = b.vreg? e.dreg j) ∧ ∀ j ∈ e.threads, b'.vreg? e.dreg j = some (BitVec.ofNat 32 st) ∧
          (b'.thread j).state = (if b.halted then .halted else .ready) ∧ (b'.thread j).pc = ((b.thread j).pc + 1) % 65536)

/-- R396, R411 to R418: a busy mailbox's command acts for its context and answers: an attachment; halts and resumes of the named bands; a step begun for one halted
thread; reads and writes of a halted band's registers, NOTLIVE for an entry that is not live and QUOTA for a name that does not fit; its position with the
park detail; breakpoints and watchpoints; the engine's state; and kills. Without an attached debugger every command but ATTACH answers BADARG. -/
def Obligations.DebuggerCommands : Prop :=
  ∀ (s : State) (ctx : Nat) (c : Ctx), s.ctx? ctx = some c → c.mailbox.mst = 0xFF →
    let m := c.mailbox
    let box := fun (t : State) (g : Ctx → Prop) => ∃ d, t.ctx? ctx = some d ∧ d.mailbox.begun = false ∧ g d
    let answers := fun (t : State) (st : Nat) => box t fun d => d.mailbox.mst = st
    let named := fun (k : Nat) (b : Band) => s.band? k = some b ∧ s.bandCtx b = ctx ∧ (m.team = 0xFFFFFFFF ∨ m.team = b.team) ∧ (m.band = 0xFF ∨ m.band = b.bandid)
    let one := fun (k : Nat) (b : Band) => s.boxKeys ctx m = [k] ∧ s.boxAway ctx m = [] ∧ s.band? k = some b ∧ b.halted = true ∧ m.btid < b.width
    let at' := fun (a pa : Nat) => ∃ ia, translate (s.ctxRanges ctx) needW a = some ia ∧ isHost ia = false ∧ s.cached agentIO ia true = some pa
    let resumed := fun (b b' : Band) => b'.halted = false ∧ b'.regs = b.regs ∧ b'.kregs = b.kregs ∧ ∀ j, (b.thread j).state = .halted → (b'.thread j).state = .ready ∧
      (b'.thread j).pc = if (b.thread j).park = .brk then ((b.thread j).pc + 1) % 65536 else (b.thread j).pc
    (m.cmd = 1 → Acts (.attach ctx) s fun t => t.mem = s.mem ∧ t.bands = s.bands ∧ box t fun d => d = { c with attached := true, mailbox := { m with mst := 0, begun := false } }) ∧
    (c.attached = false → ∀ e n, (e, n) ∈ [(Instr.detach ctx, 2), (.halt ctx, 3), (.resume ctx, 4), (.step ctx, 5), (.readreg ctx, 6), (.writereg ctx, 7), (.readpos ctx, 8),
      (.setbp ctx, 9), (.setwp ctx, 10), (.readeng ctx, 11), (.kill ctx, 12)] → m.cmd = n → Acts e s fun t => t.mem = s.mem ∧ t.bands = s.bands ∧ answers t 3) ∧
    (c.attached = true →
      (m.cmd = 2 → Acts (.detach ctx) s fun t => (box t fun d => d.attached = false ∧ d.ibps = [{}, {}, {}, {}] ∧ d.dwps = [{}, {}, {}, {}] ∧ d.mailbox.mst = 0) ∧
        ∀ k b, s.band? k = some b → s.bandCtx b = ctx → b.halted = true → ∃ b', t.band? k = some b' ∧ resumed b b') ∧
      (m.cmd = 3 → (∀ k ∈ s.boxKeys ctx m, ∀ b, s.band? k = some b → b.midUnit = [] ∧ b.stepping = none) → Acts (.halt ctx) s fun t => answers t 0 ∧
        ∀ k b, named k b → ∃ b', t.band? k = some b' ∧ b'.regs = b.regs ∧ (b.allExited = false → b'.halted = true) ∧ (b.halted = false → b.allExited = false →
          b'.halt.why = 1 ∧ ∀ j < b.threads.length, (b.thread j).state = .ready → (b.thread j).park = .none → b'.thread j = { b.thread j with state := .halted, past := [] })) ∧
      (m.cmd = 4 → Acts (.resume ctx) s fun t => answers t 0 ∧ ∀ k b, named k b → b.halted = true → ∃ b', t.band? k = some b' ∧ resumed b b') ∧
      (∀ k b, m.cmd = 5 → s.boxKeys ctx m = [k] → s.band? k = some b → m.begun = false →
        (b.halted = true → m.btid < b.width → (b.thread m.btid).state = .halted → Acts (.step ctx) s fun t => t.band? k = some { b with stepping := some m.btid } ∧
          t.ctx? ctx = some { c with mailbox := { m with begun := true } }) ∧ (b.halted = false → Acts (.step ctx) s fun t => answers t 2 ∧ t.bands = s.bands)) ∧
      (∀ k b, m.cmd = 6 → one k b →
        (m.rcls = 0 → m.ridx < 256 → (∀ w, b.vreg? m.ridx m.btid = some w → Acts (.readreg ctx) s fun t => box t fun d => d.mailbox.mst = 0 ∧ d.mailbox.val = w.toNat) ∧
          (b.vreg? m.ridx m.btid = none → Acts (.readreg ctx) s fun t => box t fun d => d.mailbox.mst = 1 ∧ d.mailbox.val = 0)) ∧
        (m.rcls = 1 → m.ridx < b.kregs.length → Acts (.readreg ctx) s fun t => box t fun d => d.mailbox.mst = 0 ∧ d.mailbox.val = (b.kregs.getD m.ridx 0).toNat) ∧
        (m.rcls = 2 → m.ridx < 7 → Acts (.readreg ctx) s fun t => box t fun d => d.mailbox.mst = 0 ∧ d.mailbox.val = if bitOf (b.thread m.btid).preds m.ridx then 1 else 0)) ∧
      (∀ k b, s.boxKeys ctx m = [k] → s.boxAway ctx m = [] → s.band? k = some b → b.halted = false → ∀ e n, (e, n) ∈ [(Instr.readreg ctx, 6), (.writereg ctx, 7), (.readpos ctx, 8)] →
        m.cmd = n → Acts e s fun t => answers t 2 ∧ t.bands = s.bands ∧ t.mem = s.mem) ∧
      (∀ k b, m.cmd = 7 → one k b → let w := BitVec.ofNat 32 m.val
        (m.rcls = 0 → m.ridx < 256 → (b.mapped + (b.unmapped [m.ridx]).length ≤ b.quota → Acts (.writereg ctx) s fun t => answers t 0 ∧ t.mem = s.mem ∧ ∃ b', t.band? k = some b' ∧
            b'.vreg? m.ridx m.btid = some w ∧ (∀ n j, (n ≠ m.ridx ∨ j ≠ m.btid) → b'.vreg? n j = b.vreg? n j) ∧ b'.threads = b.threads ∧ b'.kregs = b.kregs) ∧
          (b.quota < b.mapped + (b.unmapped [m.ridx]).length → Acts (.writereg ctx) s fun t => answers t 4 ∧ t.bands = s.bands)) ∧
        (m.rcls = 1 → m.ridx < 64 → Acts (.writereg ctx) s fun t => answers t 0 ∧ t.band? k = some { b with kregs := b.kregs.set m.ridx w }) ∧
        (m.rcls = 2 → m.ridx < 7 → m.btid < b.threads.length → (b.thread m.btid).preds < 2 ^ 7 → Acts (.writereg ctx) s fun t => answers t 0 ∧ ∃ b', t.band? k = some b' ∧ b'.regs = b.regs ∧
          ∀ j p, bitOf (b'.thread j).preds p = if j = m.btid ∧ p = m.ridx then bitOf m.val 0 else bitOf (b.thread j).preds p)) ∧
      (∀ k b pa, m.cmd = 8 → one k b → firstFail (s.ctxRanges ctx) needW m.addr 16 = none → s.firstUnmapped ctx m.addr needW true 16 = none → (∀ i < 16, at' (m.addr + i) (pa + i)) →
        let th := b.thread m.btid
        Acts (.readpos ctx) s fun t => t.mem = s.mem.write pa 16 (th.parkDetail (b.heldAsParked m.btid)) ∧
          box t fun d => d.mailbox.mst = 0 ∧ d.mailbox.val = th.pos + if th.inTrap then 2 ^ 32 else 0) ∧
      (m.cmd = 9 → m.ridx < 4 → c.ibps.length = 4 → bits m.val 62 32 = 0 → bits m.addr 31 2 = 0 → Acts (.setbp ctx) s fun t => t.mem = s.mem ∧ box t fun d => d.mailbox.mst = 0 ∧
        let bp : Ibp := { tval := bits m.addr 63 32, cond := bits m.addr 1 0, en := bitOf m.val 63, ovid := bits m.val 31 16, woff := bits m.val 15 0 }
        ∀ n, d.ibps.getD n {} = if n = m.ridx then bp else c.ibps.getD n {}) ∧
      (m.cmd = 10 → m.ridx < 4 → c.dwps.length = 4 → bits m.val 27 0 = 0 → bits m.val 63 32 ≠ 0 → Acts (.setwp ctx) s fun t => t.mem = s.mem ∧ box t fun d => d.mailbox.mst = 0 ∧
        let base := if bitOf m.val 28 then bits m.addr 31 0 else m.addr
        let wp : Dwp := { base := base, len := bits m.val 63 32, en := bitOf m.val 31, rw := bits m.val 30 29, space := if bitOf m.val 28 then 1 else 0 }
        ∀ n, d.dwps.getD n {} = if n = m.ridx then wp else c.dwps.getD n {}) ∧
      (∀ e, (e, m.cmd) ∈ [(Instr.setbp ctx, 9), (.setwp ctx, 10)] → 4 ≤ m.ridx → Acts e s fun t => answers t 3 ∧ t.bands = s.bands) ∧
      (∀ k b pa, m.cmd = 11 → s.boxKeys ctx m = [k] → s.band? k = some b → b.halted = true → firstFail (s.ctxRanges ctx) needW m.addr 1280 = none →
        s.firstUnmapped ctx m.addr needW true 1280 = none → (∀ i < 1280, at' (m.addr + i) (pa + i)) → Acts (.readeng ctx) s fun t => answers t 0 ∧
          t.mem = s.mem.write pa 1280 (s.engineImage (coreCluster (keyCore k)))) ∧
      (m.cmd = 12 → Tbl.wf s.flights = true → m.team = 0xFFFFFFFF → m.band = 0xFF → m.btid = 0xFF → Acts (.kill ctx) s fun t => answers t 0 ∧ t.mem = s.mem ∧ ∀ n f, s.flight? n = some f →
        t.flight? n = some (if f.ctx = ctx then { f with killed := true } else f)) ∧
      (∀ k b, m.cmd = 12 → one k b → b.midUnit = [] → s.saveComes b = false → m.btid < b.threads.length → Acts (.kill ctx) s fun t => answers t 0 ∧
        ∀ b', t.band? k = some b' → (b'.thread m.btid).state = .exited))

/-! ### Translation and shoot-downs (R421 to R434) -/

/-- R422 to R427: the lowest-numbered range that holds a byte gives its intermediate address, if it permits the access; a table that breaks R422 is refused whole. A
walk goes through four levels of entries to a frame of 64 KiB or 2 MiB; what it finds enters the ports that wait, and an entry of a wrong form is reported. A unit's
range cache takes its context's set. MAPDONE, and the answers of ATS and PRI, make what waits for pages go on. -/
def Obligations.TranslationWorks : Prop :=
  ∀ (s : State),
    let serves := s.ready = true ∧ s.fatal = false
    (∀ (rs : List RangeReg) (need : Need) (va : Nat),
      (∀ (i : Nat) (r : RangeReg), rs[i]? = some r → r.base ≤ va → va ≤ r.limit → (∀ j < i, ∀ q : RangeReg, rs[j]? = some q → ¬ (q.base ≤ va ∧ va ≤ q.limit)) →
        translate rs need va = if (need.x = true → r.x = true) ∧ (need.w = true → r.w = true) ∧ (need.a = true → r.a = true) then some (r.iabase + (va - r.base)) else none) ∧
      ((∀ r ∈ rs, ¬ (r.base ≤ va ∧ va ≤ r.limit)) → translate rs need va = none)) ∧
    (∀ ctx table c, serves → s.ctx? ctx = some c → (table.length = 16 → ∀ rs : List (Option RangeReg), table.map rangeReg = rs.map some → Acts (.setRangeTable ctx table) s fun t =>
        t.outbox = s.outbox ++ [[4, 2, 0]] ∧ t.ctxs = Tbl.put s.ctxs ctx { c with ranges := rs.filterMap id }) ∧
      ((table.length ≠ 16 ∨ ∃ x ∈ table, rangeReg x = none) → Acts (.setRangeTable ctx table) s fun t => t = { s with outbox := s.outbox ++ [[4, 2, 1]] })) ∧
    (∀ x, rangeReg x = none ↔ bits x 127 116 ≠ 0 ∨ bits x 63 8 ≠ 0 ∨ bits x 5 3 ≠ 0 ∨ (bitOf x 7 = true ∧
      (bits x 203 192 ≠ 0 ∨ bits x 139 128 ≠ 4095 ∨ bits x 75 64 ≠ 0 ∨
        if bitOf x 6 then bitOf x 255 = true ∨ bits x 191 179 ≠ 0 ∨ bits x 115 64 ≠ 2 ^ 51 + bits x 242 192 else bitOf x 255 = false ∨ bitOf x 191 = false ∨ bitOf x 115 = true))) ∧
    (∀ ia e0 e1 e2 e3, ia < 2 ^ 51 → let at' := fun (tbl idx : Nat) => s.mem.read (tbl + 8 * idx) 8
      let tbl := fun (e : Nat) => bits e 41 12 * 4096
      let form := fun (e kind : Nat) => bitOf e 63 = true ∧ bits e 62 61 = kind ∧ bits e 60 42 = 0 ∧ bits e 11 0 = 0 ∧ bits e 39 30 ≤ 95
      at' s.dptbase (bits ia 50 39) = e0 → form e0 0 → at' (tbl e0) (bits ia 38 30) = e1 → form e1 0 → at' (tbl e1) (bits ia 29 21) = e2 →
      (form e2 1 → tbl e2 % 2 ^ 21 = 0 → s.portPA agentIO ia false = (s.cached agentIO ia false).or (some (tbl e2 + bits ia 20 0))) ∧
      (bitOf e2 63 = false → s.walk ia = .unmapped) ∧
      (form e2 0 → at' (tbl e2) (bits ia 20 16) = e3 → (form e3 2 → tbl e3 % 2 ^ 16 = 0 → s.walk ia = .frame (tbl e3)) ∧ (bitOf e3 63 = false → s.walk ia = .unmapped) ∧
        (bitOf e3 63 = true → bits e3 62 61 ≠ 2 → s.walk ia = .bad 3))) ∧
    (∀ die page, (∀ q ∈ s.shoots, q.2.begun.contains die = false) → isHost (page * 65536) = false →
      (∀ f, s.walk (page * 65536) = .frame f → Acts (.tableWalk die page) s fun t => t.mem = s.mem ∧ ∀ a ∈ s.iq, a.space = 0 → a.sent = false → pageOf a.addr = page →
        coreDie a.core = die → Tbl.find? (Tbl.get t.tlbs a.core []) page = some f) ∧
      (∀ n, s.walk (page * 65536) = .bad n → s.faultRing = none → Acts (.tableWalk die page) s fun t => t.mem = s.mem ∧
        t.faultLog = s.faultLog ++ [s.faultImage { cls := 3, reason := 32, addr := page * 65536, aux1 := n, aux2 := 0 }]) ∧
      (s.walk (page * 65536) = .unmapped → exec (.tableWalk die page) s = .next s)) ∧
    (∀ unit ctx, (unit < 384 → (∃ i, (s.core unit).image = some i ∧ i.1 / 2 ^ 64 = ctx) → Acts (.rangeSetLoad unit ctx) s fun t => t.mem = s.mem ∧
        (t.core unit).ranges = some (ctx, s.ctxRanges ctx)) ∧
      (384 ≤ unit → Acts (.rangeSetLoad unit ctx) s fun t => t.mem = s.mem ∧ Tbl.find? t.rcaches (unit * 4096 + ctx) = some (s.ctxRanges ctx))) ∧
    (∀ lo hi, serves → Acts (.mapdone lo hi) s fun t => t.mem = s.mem ∧ t.outbox = s.outbox ++ [[4, 6, 0]] ∧ t.bands = s.bands ∧
      t.iq = s.iq.map (fun a => { a with faulted := a.faulted && !(decide (lo ≤ a.addr) && decide (a.addr ≤ hi)) }) ∧
      ∀ a ∈ t.pageAsks, a < 2 ^ 60 → a * 65536 + 65535 < lo ∨ hi < a * 65536) ∧
    (∀ page perm, Tbl.find? s.atc page = some 4 → perm < 4 → Acts (.atsTranslationCompletion page [perm]) s fun t => t.mem = s.mem ∧ Tbl.find? t.atc page = some perm ∧
      t.iq = s.iq.map fun a => { a with faulted := a.faulted && !decide (a.addr / 4096 = page) }) ∧
    (∀ page, s.pageAsks.contains (2 ^ 60 + page) = true → (Acts (.priResponse page true) s fun t => Tbl.find? t.atc page = some 4 ∧
        t.outbox = s.outbox ++ [[10, page, 1]] ∧ (2 ^ 60 + page) ∉ t.pageAsks) ∧
      (Acts (.priResponse page false) s fun t => (2 ^ 60 + page) ∉ t.pageAsks ∧ ∃ n p, Tbl.find? t.shoots n = some p ∧ p.kind = 1 ∧ p.lo = page * 4096 ∧
        p.hi = page * 4096 + 4095 ∧ p.grid = false)) ∧
    (∀ req (m : Msg) acc ia a l, s.msgs.find? (fun m => m.id = req) = some m →
      let invs := ({ s with msgs := s.msgs.filter fun q => q.id ≠ req } : State).invsTo m.src
      (m.body = .host acc ia false → Acts (.hostCompletion req (0 :: l)) s fun t => t.mem = s.mem ∧ ∃ r ∈ t.msgs, r.src = m.dst ∧ r.dst = m.src ∧
        r.body = .resp acc ia ((List.range 64).map fun o => (o, BitVec.ofNat 8 (l.getD o 0))) invs) ∧
      (m.body = .host acc ia true → s.acc? acc = some a → (∀ v, Acts (.hostCompletion req [0, v]) s fun t => t.mem = s.mem ∧ ∃ r ∈ t.msgs, r.src = m.dst ∧ r.dst = m.src ∧
          r.body = .aresp acc (v % 2 ^ (8 * a.size)) invs) ∧
        (s.faultRing = none → Acts (.hostCompletion req [1]) s fun t => t.mem = s.mem ∧ (∃ r ∈ t.msgs, r.dst = m.src ∧ r.body = .aresp acc (2 ^ (8 * a.size) - 1) invs) ∧
          ∃ x, t.faultLog = s.faultLog ++ [x] ∧ bits x 15 8 = 30 ∧ bits x 319 256 = a.va % 2 ^ 64)))

/-- R430 to R434: the device's own shoot-downs are handled one at a time. A node holds new accesses and drops its translations, or its range sets, then its L1s write
back and drop the lines of the range, and once its requests are performed it acknowledges; for UNMAP its side-log entries of the range are discarded. The last
acknowledgement completes the shoot-down; a node that does not answer is fenced off, or disabled. -/
def Obligations.ShootdownsComplete : Prop :=
  ∀ (s : State),
    let serves := s.ready = true ∧ s.fatal = false
    let dies := (List.range 4).filter fun d => !(s.die d).disabled
    (∀ e kind ctx lo hi, (e, kind, ctx, lo, hi) ∈ [(Instr.remap lo hi 0, 0, 0, lo, hi), (.unmap lo hi 0, 1, 0, lo, hi), (.range ctx 0, 2, ctx, 0, 0)] →
      (serves → s.shoots = [] → Acts e s fun t => t.mem = s.mem ∧ t.outbox = s.outbox ∧ ∃ p, t.shoots = [(s.nextId, p)] ∧ p.kind = kind ∧ p.ctx = ctx ∧ p.lo = lo ∧ p.hi = hi ∧
        p.started = true ∧ p.since = s.fwCycle ∧ p.due = dies ++ [4] ∧ p.begun = [] ∧ p.flushed = [] ∧ p.parent = none) ∧
      (serves → (∃ q ∈ s.shoots, q.2.parent = none ∧ q.2.started = true) → (∀ q ∈ s.shoots, q.1 ≠ s.nextId) → Acts e s fun t => t.mem = s.mem ∧
        ∃ p, t.shoots = Tbl.put s.shoots s.nextId p ∧ p.kind = kind ∧ p.started = false) ∧
      (s.ready = false → s.fatal = false → Acts e s fun t => t = { s with outbox := s.outbox ++ [[4, 3 + kind, 0xFFFFFFFE]] })) ∧
    (∀ node n p, node < 5 → s.shootOf node = some (n, p) → Tbl.find? s.shoots n = some p →
      (node ∉ p.begun → Acts (.shootdownAck node) s fun t => t.mem = s.mem ∧ Tbl.find? t.shoots n = some { p with begun := p.begun ++ [node] } ∧
        (∀ ia ctx, p.names ia ctx = true → t.shootHolds node ia ctx = true) ∧
        (p.kind ≠ 2 → ∀ u page, unitNode u = node → p.lo ≤ page * 65536 + 65535 → page * 65536 ≤ p.hi → Tbl.find? (Tbl.get t.tlbs u []) page = none) ∧
        (p.kind = 2 → (∀ u, unitNode u = node → p.ctx < 4096 → Tbl.find? t.rcaches (u * 4096 + p.ctx) = none) ∧
          ∀ c r, coreDie c = node → (s.core c).ranges = some (p.ctx, r) → (t.core c).ranges = some (p.ctx, s.ctxRanges p.ctx))) ∧
      (node ∈ p.begun → p.kind ≠ 2 → node ∉ p.flushed → (∀ a ∈ s.wb, ¬ (coreDie a.core = node ∧ p.lo ≤ a.addr ∧ a.addr ≤ p.hi)) → Acts (.shootdownAck node) s fun t =>
        Tbl.find? t.shoots n = some { p with flushed := p.flushed ++ [node] } ∧ t.mem = s.mem ∧
        ∀ c ia, coreDie c = node → ia % 64 = 0 → p.lo ≤ ia → ia ≤ p.hi → Tbl.find? (t.core c).l1 ia = none) ∧
      (node ∈ p.begun → (p.kind = 2 ∨ node ∈ p.flushed ∧ p.kind = 0 ∧ s.nodeBusy node p = false) →
        ((∃ d ∈ p.due, d ≠ node) → Acts (.shootdownAck node) s fun t => t = { s with shoots := Tbl.put s.shoots n { p with due := p.due.filter (· ≠ node) } }) ∧
        (p.due = [node] → p.parent = none → p.origin = 0 → s.shoots = [(n, p)] → Acts (.shootdownAck node) s fun t => t.shoots = [] ∧ t.mem = s.mem ∧
          t.outbox = s.outbox ++ [[4, 3 + p.kind, 0]])) ∧
      (node ∈ p.begun → p.kind = 1 → node ∈ p.flushed → s.nodeBusy node p = false → Acts (.shootdownAck node) s fun t =>
        (∀ c, coreDie c = node → ∀ e ∈ (t.core c).sidelog, ¬ (p.lo ≤ e.ia ∧ e.ia ≤ p.hi)) ∧ ∀ p', Tbl.find? t.shoots n = some p' → node ∉ p'.due)) ∧
    (∀ node n p, s.shootOf node = some (n, p) → Tbl.find? s.shoots n = some p → p.since + s.sdto ≤ s.fwCycle →
      (node < 4 → (s.die node).disabled = false → Acts (.shootdownTimeout node) s fun t => (t.die node).disabled = true ∧ ∀ p', Tbl.find? t.shoots n = some p' → node ∉ p'.due) ∧
      (16 ≤ node → node - 16 ≠ s.rank → Acts (.shootdownTimeout node) s fun t => Tbl.find? t.gridMap (node - 16) = some 3 ∧
        (∀ p', Tbl.find? t.shoots n = some p' → node ∉ p'.due) ∧
        ∀ l < 16, (s.link l).met = true → (s.link l).peer = node - 16 → (t.link l).state = 4)) ∧
    (∀ rank since, Tbl.find? s.unserved rank = some since → s.alive rank = true → rank ≠ s.rank → since + s.sdto ≤ s.fwCycle → Acts (.routeUnservedTimeout rank) s fun t =>
      Tbl.find? t.gridMap rank = some 3 ∧ t.alive rank = false)

/-! ### Grids and reductions (R435 to R442) -/

/-- R435 to R442: an arrived element of a plain copy is performed at its home, and the sender's count completes after the last; a delivery that no context holds the key of,
or that fails its range check, is dropped. A contribution whose header is misaligned, unarmed or of another form is refused; one of a later rank is held; one of the next
rank is added into the staging half, from the reset element at the first touch. -/
def Obligations.GridDeliveriesArrive : Prop :=
  ∀ (s : State) (msg : Nat) (d : Delivery), Tbl.find? s.inbox msg = some d →
    let at' := fun (c a pa : Nat) => ∃ ia, translate (s.ctxRanges c) needW a = some ia ∧ isHost ia = false ∧ s.cached agentIO ia true = some pa
    let gone := fun (t : State) => Tbl.find? t.inbox msg = none
    let a := d.arg
    let local' := d.src = s.rank
    let queued := fun (t : State) (ctx team id : Nat) => ∀ x, s.ctx? ctx = some x → x.switchedOut = true → x.triggers.length < 16 →
      t.ctx? ctx = some { x with triggers := x.triggers ++ [(4, 0, team, id)] }
    (∀ ctx, d.cargo = .copy → s.ctxOfKey d.gkey = some ctx →
      (∀ va x pa, d.els[d.next]? = some (va, x) → firstFail (s.ctxRanges ctx) needW va (a 0) = none → s.firstUnmapped ctx va needW true (a 0) = none →
        (∀ i < a 0, at' ctx (va + i) (pa + i)) → Acts (.gridDelivery msg) s fun t => t.mem = s.mem.write pa (a 0) x ∧ Tbl.find? t.inbox msg = some { d with next := d.next + 1 }) ∧
      (d.els.length ≤ d.next → s.faultRing = none → Acts (.gridDelivery msg) s fun t => gone t ∧ t.mem = s.mem ∧
        queued t ctx 0xFFFFFFFF (d.els.headD (0, 0)).1 ∧ ∀ c id, local' → d.token = tokCopy id → Tbl.find? s.copies id = some c →
        Tbl.find? t.copies id = some { c with waits := c.waits.filter (· ≠ s.rank) }) ∧
      (∀ va x, d.els[d.next]? = some (va, x) → firstFail (s.ctxRanges ctx) needW va (a 0) ≠ none → s.faultRing = none → Acts (.gridDelivery msg) s fun t => gone t ∧ t.mem = s.mem ∧
        (local' → ∃ r, t.faultLog = s.faultLog ++ [r] ∧ bits r 15 8 = 26 ∧ bits r 319 256 = va % 2 ^ 64))) ∧
    (d.cargo = .copy ∨ d.cargo = .contribution ∨ d.cargo = .block → s.ctxOfKey d.gkey = none → s.faultRing = none → Acts (.gridDelivery msg) s fun t => gone t ∧ t.mem = s.mem ∧
      (local' → ∃ r, t.faultLog = s.faultLog ++ [r] ∧ bits r 15 8 = 25)) ∧
    (∀ pa, d.cargo = .fresh → s.faultRing = none → firstFail (s.ctxRanges (a 2)) needW (a 4) (a 3) = none → s.firstUnmapped (a 2) (a 4) needW true (a 3) = none →
      (∀ i < a 3, at' (a 2) (a 4 + i) (pa + i)) → Acts (.gridDelivery msg) s fun t => gone t ∧ t.mem = s.mem.write pa (a 3) (a 5) ∧
        queued t (a 2) d.team (a 8)) ∧
    (∀ ctx, d.cargo = .contribution ∨ d.cargo = .block → s.ctxOfKey d.gkey = some ctx → let hdr := a 0
      let readable := hdr % 64 = 0 ∧ firstFail (s.ctxRanges ctx) needXWA hdr 64 = none ∧ s.firstUnmapped ctx hdr needXWA true 64 = none
      (hdr % 64 ≠ 0 → Acts (.contributionArrival msg) s fun t => gone t ∧ t.redBufs = s.redBufs) ∧
      (hdr % 64 = 0 → firstFail (s.ctxRanges ctx) needXWA hdr 64 ≠ none → Acts (.contributionArrival msg) s fun t => gone t ∧ t.redBufs = s.redBufs) ∧
      (∀ h, readable → s.redHeadAt ctx hdr = some h → (∀ r, h.rlo ≤ r → r ≤ h.rhi → bitOf (Tbl.get s.gridMap r 0) 1 = false) →
        ((h.arm = false ∨ h.failed = true ∨ h.rop ≠ a 1 ∨ h.z ≠ a 2 ∨ d.src < h.rlo ∨ h.rhi < d.src ∨
            (∃ e ∈ d.els, e.1 < hdr + 64 ∨ hdr + 64 + h.dsize < e.1 + h.z ∨ (e.1 - (hdr + 64)) % h.z ≠ 0)) →
          Acts (.contributionArrival msg) s fun t => gone t ∧ t.redBufs = s.redBufs) ∧
        (∀ inst v e, h.arm = true → h.failed = false → h.rop = a 1 → h.z = a 2 → h.rlo ≤ d.src → d.src ≤ h.rhi → d.els = [(e, v)] → hdr + 64 ≤ e →
          e + h.z ≤ hdr + 64 + h.dsize → (e - (hdr + 64)) % h.z = 0 → h.instOf d = some inst → s.redBufs = [] → s.faultRing = none → let i := (e - (hdr + 64)) / h.z
          (∀ q ∈ h.touches hdr inst d.els, firstFail (s.ctxRanges ctx) needXWA q.1 q.2 = none ∧ s.firstUnmapped ctx q.1 needXWA true q.2 = none) →
          (h.rlo < d.src → Acts (.contributionArrival msg) s fun t => gone t ∧ t.mem = s.mem ∧ t.redBufs =
            [{ ctx := ctx, hdr := hdr, insts := [{ inst := inst, nextr := h.rlo }], held := [{ inst := inst, rank := d.src, els := d.els }] }]) ∧
          (∀ pw, d.src = h.rlo → 2 ≤ h.ncont → h.rop ≤ 2 → (∀ j < 12, at' ctx (h.wideAt (inst % 2) i + j) (pw + j)) → Acts (.contributionArrival msg) s fun t => gone t ∧
            t.mem = s.mem.write pw 12 ((({} : El).accumulate (h.fmt.decode v)).propagate).wideImage ∧
            t.redBufs = [{ ctx := ctx, hdr := hdr, insts := [{ inst := inst, nextr := h.rlo, count := 1, touched := [i] }] }]))))

/-! ### Parameter nodes (R445 to R457, R484) -/

/-- R447 to R457, R484: a node answers a command by the first status of R449 that applies, and otherwise does what the command asks. A block is added, held, discarded or refused
by the first row of R451 that matches. A commit applies each block once and then opens the next step; its fresh blocks are written for each subscription, and then its tag is
set. A node that has failed answers nothing but 0xFFFF_FFFF until it has restarted; its third failure within 2^32 firmware cycles disables it. -/
def Obligations.ParameterNodesWork : Prop :=
  ∀ (s : State) (die : Nat),
    let n := s.node die
    let at' := fun (c a pa : Nat) => ∃ ia, translate (s.ctxRanges c) needW a = some ia ∧ isHost ia = false ∧ s.cached agentIO ia true = some pa
    (∀ e sub id p r tn, (e, sub) ∈ [(Instr.pncmdReg die, 0), (.pncmdRule die, 1), (.pncmdOpen die, 2), (.pncmdCommit die, 3), (.pncmdQuery die, 4), (.pncmdSub die, 5),
        (.pncmdUnreg die, 6)] → s.posts = [(id, p)] → p.kind = 1 → p.target = die → p.sub = sub → p.sent = false → p.reply = none →
      firstFail (s.ctxRanges p.ctx) needX p.addr 64 = none → s.firstUnmapped p.ctx p.addr needX false 64 = none → s.vaRead p.ctx p.addr 64 needX = some r →
      (pnRem r = false ∨ pnRank r = s.rank) → (∀ q ∈ s.pnRegions die sub r, let need := if q.2.2 then needW else needX
        firstFail (s.ctxRanges p.ctx) need q.1 q.2.1 = none ∧ s.firstUnmapped p.ctx q.1 need q.2.2 q.2.1 = none) →
      (sub = 3 → ∀ q ∈ n.tensors, q.2.commit = none) → tn = pnTens r →
      let replies := fun (t : State) (x : Nat) => t.posts = [(id, { p with reply := some x })]
      let b := fun (hi lo : Nat) => recBytes r hi lo
      let works := n.failed = false ∧ n.disabled = false ∧ pnBad sub r = false
      (n.failed = true ∨ n.disabled = true → Acts e s fun t => replies t 0xFFFFFFFF ∧ t.node die = n) ∧
      (n.failed = false → n.disabled = false → pnBad sub r = true → Acts e s fun t => replies t 2 ∧ t.node die = n) ∧
      (works → sub ≠ 0 → Tbl.find? n.tensors tn = none → Acts e s fun t => replies t 4 ∧ t.node die = n) ∧
      (works → sub = 0 → (Tbl.find? n.tensors tn ≠ none → Acts e s fun t => replies t 2 ∧ t.node die = n) ∧
        (Tbl.find? n.tensors tn = none → n.tensors.length < 4096 → ((n.tensors.map fun q => q.2.frames.length).sum + b 7 4) * 53248 ≤ 2 ^ 35 → Acts e s fun t => replies t 0 ∧
          t.mem = s.mem ∧ ∃ x, Tbl.find? (t.node die).tensors tn = some x ∧ x.nrank = b 11 8 ∧ x.outf = b 12 12 ∧ x.open' = (b 35 32 + 1) % 2 ^ 32 ∧ x.tstate = 0 ∧ x.rule = none ∧
            x.frames.length = b 7 4 ∧ ∀ k < b 7 4, (x.frame k).word.applied = b 35 32 ∧ (x.frame k).word.nextr = 0 ∧ (x.frame k).word.sel = false ∧ ∀ i < 1024,
              (x.frame k).copy0.w.getD i 0 = (s.vaRead p.ctx ((b 23 16 + 4 * (1024 * k + i)) % 2 ^ 64) 4 needX).getD 0 ∧
              (bitOf (b 13 13) 0 = true → (x.frame k).copy0.m.getD i 0 = 0 ∧ (x.frame k).copy0.v.getD i 0 = 0))) ∧
      (∀ x, works → sub ≠ 0 → Tbl.find? n.tensors tn = some x → x.lost = false →
        let changes := fun (t : State) (y : Tensor) => t.mem = s.mem ∧ (t.node die).tensors = Tbl.put n.tensors tn y
        (x.tstate ≠ 0 → sub ≠ 4 → Acts e s fun t => replies t 3 ∧ t.node die = n) ∧
        (x.tstate = 0 ∨ sub = 4 →
          (sub = 1 → b 4 4 ≤ 1 → Acts e s fun t => replies t 0 ∧ changes t { x with rule := some [b 4 4, b 5 5, b 11 8, b 15 12, b 19 16, b 23 20, b 27 24, b 31 28] }) ∧
          (sub = 2 → b 7 4 ≤ 4096 → Acts e s fun t => replies t 0 ∧ t.mem = s.mem ∧ ∃ y, Tbl.find? (t.node die).tensors tn = some y ∧
            y.nrank = (if b 7 4 = 0 then x.nrank else b 7 4) ∧ y.open' = x.open' ∧ y.frames.length = x.frames.length ∧ (∀ f ∈ y.frames, f.word.nextr = 0) ∧
            (∀ q, q ∈ y.early ↔ q ∈ x.early ∧ q.step ≠ x.open' ∧ q.step ≠ x.open' + 1)) ∧
          (sub = 3 → (b 7 4 ≠ x.open' ∨ x.rule = none → Acts e s fun t => replies t 2 ∧ t.node die = n) ∧
            (b 7 4 = x.open' → x.rule ≠ none → ((∀ k < x.frames.length, x.nrank ≤ (x.frame k).word.nextr) → Acts e s fun t => t.posts = s.posts ∧ t.mem = s.mem ∧
                ∃ c, Tbl.find? (t.node die).tensors tn = some { x with tstate := 1, commit := some (c, 0) } ∧ c.rank = s.rank ∧ c.token = tokCmd id) ∧
              (b 15 8 = 0 → (∃ k < x.frames.length, (x.frame k).word.nextr < x.nrank) → Acts e s fun t => replies t 1 ∧ t.mem = s.mem ∧ t.node die = n))) ∧
          (sub = 4 → b 7 4 < x.frames.length → ∀ pa, (∀ i < 64, at' p.ctx (b 15 8 + i) (pa + i)) → Acts e s fun t => replies t 0 ∧ t.node die = n ∧ t.mem = s.mem.write pa 64
            (x.query (List.filter (fun q : Nat × Sub => q.2.tens = tn) n.subs).length (b 7 4))) ∧
          (sub = 5 → bitOf (b 4 4) 1 = false → (List.filter (fun q : Nat × Sub => q.2.tens = tn) n.subs).length < 64 → (bitOf (b 4 4) 0 = false ∨ pnRem r = false) →
            Acts e s fun t => replies t 0 ∧ ∃ u, (t.node die).subs = Tbl.put n.subs s.nextId u ∧ u.tens = tn ∧ u.rank = s.rank ∧ u.ctx = p.ctx ∧ u.flight = p.flight ∧
              u.team = p.team ∧ u.tag = b 5 5 ∧ u.dst = b 15 8 ∧ u.wst = bitOf (b 4 4) 0 ∧ u.fresh = []) ∧
          (sub = 6 → Acts e s fun t => replies t 0 ∧ Tbl.find? (t.node die).tensors tn = none ∧ ∀ q ∈ (t.node die).subs, q.2.tens ≠ tn)))) ∧
    -- commits
    (∀ tn x c k, n.failed = false → n.disabled = false → n.tensors = [(tn, x)] → x.commit = some (c, k) →
      (k < x.frames.length → (x.frame k).word.applied + 1 = x.open' → Acts (.pncmdCommit die) s fun t => t.mem = s.mem ∧ ∃ y, Tbl.find? (t.node die).tensors tn = some y ∧
        y.commit = some (c, k + 1) ∧ (∀ j, j ≠ k → y.frame j = x.frame j) ∧ y.frame k = (x.frame k).apply (x.rule.getD []) x.open' ∧ (y.frame k).word.applied = x.open' ∧
        (y.frame k).word.sel = !(x.frame k).word.sel ∧ (y.frame k).word.ssel = (x.frame k).word.ssel ∧ (y.frame k).word.nextr = 0 ∧
        ∀ id u, Tbl.find? n.subs id = some u → u.tens = tn → ∃ u', Tbl.find? (t.node die).subs id = some u' ∧
          u'.fresh = u.fresh ++ [(x.open', u.dst + k * (if x.outf = 0 then 2048 else 1088), freshImage x.outf (y.frame k).copy.w)]) ∧
      (x.frames.length ≤ k → x.early = [] → Acts (.pncmdCommit die) s fun t => t.mem = s.mem ∧ (∃ y, Tbl.find? (t.node die).tensors tn = some y ∧ y.open' = x.open' + 1 ∧
          y.tstate = 0 ∧ y.commit = none ∧ y.frames = x.frames) ∧
        ∀ id p, c.rank = s.rank → c.token = tokCmd id → Tbl.find? s.posts id = some p → Tbl.find? t.posts id = some { p with reply := some 0 })) ∧
    -- gradient blocks
    (∀ msg d x, Tbl.find? s.inbox msg = some d → d.cargo = .gradient → d.arg 0 = die → (d.src = s.rank ∨ s.ctxOfKey d.gkey ≠ none) → n.failed = false → n.disabled = false →
      Tbl.find? n.tensors (d.arg 1) = some x → x.lost = false →
      let k := d.arg 2
      let step := d.arg 3
      let w := (x.frame k).word
      let held := ∃ e ∈ x.early, e.blk = k ∧ e.step = step ∧ e.rank = d.src
      let gone := fun (t : State) => Tbl.find? t.inbox msg = none
      let becomes := fun (t : State) (y : Tensor) => gone t ∧ Tbl.find? (t.node die).tensors (d.arg 1) = some y
      let known := k < x.frames.length ∧ d.src < x.nrank
      let dup := { x with dups := (x.dups + 1) % 2 ^ 32 }
      let later := step = x.open' ∧ w.nextr < d.src ∨ step = x.open' + 1
      (¬ known → Acts (.gradientBlock die msg) s fun t => becomes t { x with refd := (x.refd + 1) % 2 ^ 32 }) ∧
      (known → step ≤ w.applied → Acts (.gradientBlock die msg) s fun t => becomes t dup) ∧
      (known → w.applied < step → (step = x.open' ∧ (d.src < w.nextr ∨ held)) → Acts (.gradientBlock die msg) s fun t => becomes t dup) ∧
      (known → w.applied < step → step = x.open' → d.src = w.nextr → x.tstate = 0 → x.early = [] → Acts (.gradientBlock die msg) s fun t => gone t ∧ t.mem = s.mem ∧
        ∃ y, Tbl.find? (t.node die).tensors (d.arg 1) = some y ∧ (∀ j, j ≠ k → y.frame j = x.frame j) ∧ (y.frame k).word = { w with ssel := !w.ssel, nextr := w.nextr + 1 } ∧
          (y.frame k).copy0 = (x.frame k).copy0 ∧ (y.frame k).copy1 = (x.frame k).copy1 ∧ ∀ i < 1024, i < d.els.length → (w.nextr = 0 ∨ i < (x.frame k).stage.length) →
            (y.frame k).stage.getD i {} =
              (((if w.nextr = 0 then ({} : El) else (x.frame k).stage.getD i {}).accumulate (Fmt.f32.decode (d.els.getD i (0, 0)).2)).propagate)) ∧
      (known → w.applied < step → later → ¬ held → n.earlyCount < 1024 → Acts (.gradientBlock die msg) s fun t =>
        becomes t { x with early := x.early ++ [{ blk := k, step := step, rank := d.src, els := d.els.map (·.2) }] }) ∧
      (known → w.applied < step → step ≠ x.open' → step ≠ x.open' + 1 → Acts (.gradientBlock die msg) s fun t => becomes t { x with refd := (x.refd + 1) % 2 ^ 32 })) ∧
    -- subscriptions
    (∀ id u step a z v r, Tbl.find? n.subs id = some u → u.fresh = (step, a, z, v) :: r →
      (∀ pa, u.wst = false → n.failed = false → u.tagDue = [] → u.rank = s.rank → s.faultRing = none → firstFail (s.ctxRanges u.ctx) needW a z = none → s.firstUnmapped u.ctx a needW true z = none →
        (∀ i < z, at' u.ctx (a + i) (pa + i)) → Acts (.subscriptionDelivery die id) s fun t => t.mem = s.mem.write pa z v ∧ Tbl.find? (t.node die).subs id = some { u with fresh := r }) ∧
      (u.wst = true → n.failed = false → (∀ q ∈ s.bands, coreDie (keyCore q.1) ≠ bits u.dst 33 32) → Acts (.weightStoreSubscription die id) s fun t =>
        t.mem = s.mem.write (placeWst (bits u.dst 33 32) (a % 2 ^ 30)) z v ∧ Tbl.find? (t.node die).subs id = some { u with fresh := r })) ∧
    (∀ id u step r core sb, Tbl.find? n.subs id = some u → u.wst = false → n.failed = false → u.tagDue = step :: r → (∀ q ∈ u.fresh, q.1 ≠ step) → u.flying = 0 →
      u.rank = s.rank → s.placeOfTeam u.flight u.team = .resident core false sb → Acts (.subscriptionDelivery die id) s fun t => t.mem = s.mem ∧
        Tbl.find? (t.node die).subs id = some { u with tagDue := r } ∧ (∀ g, bitOf (t.core core).tags g = (bitOf (s.core core).tags g || decide (g = u.tag))) ∧
        (t.core core).pend = (s.core core).pend) ∧
    -- failures
    (n.failed = false → n.disabled = false → s.faultRing = none → Acts (.nodeHeartbeatTimeout die) s fun t => (t.node die).failed = true ∧
      (t.node die).disabled = decide (2 ≤ (n.stamps.filter fun c => s.fwCycle < c + 2 ^ 32).length)) ∧
    (n.failed = true → n.disabled = false → Acts (.nodeRestart die) s fun t => t.mem = s.mem ∧ (t.node die).failed = false ∧ ∀ tn x, Tbl.find? n.tensors tn = some x →
      Tbl.find? (t.node die).tensors tn = some (match x.commit with | some q => { x with tstate := 2, commit := some (q.1, 0) } | none => x))

/-! ### Kiln links and the host port (R460 to R470) -/

/-- R461 to R470: a flit is taken only when its check is good and only in order of SEQ, and its ACK releases the sent flits up to it. A link trains, fails three times, retrains
after 64 resends without progress, is disabled and enabled as R470 says. A host access of the window reads, writes or performs an AtomicOp at the home of its address, or is
refused with a HOSTWIN record; a register of BAR0 is read and written as its offset says; an unmasked vector sends its pending message. How a link speaks of the end of a
training and which acknowledgement follows a flit are the model's signals (log entry 21). -/
def Obligations.LinksAndHostPort : Prop :=
  ∀ (s : State),
    let sends := fun (t : State) (l : List Nat) => t.outbox = s.outbox ++ [l]
    -- flits
    (∀ n, n < 16 → let l := s.link n
      let ackOf := fun (x : Nat) => [9, n, 2, l.peer, 0, x]
      (∀ f : Flit, l.up = true → 2 ≤ f.check → Acts (.flitReceive n f) s fun t => sends t (ackOf l.rxSeq) ∧ t.link n = { l with crcerr := (l.crcerr + 1) % 2 ^ 64 } ∧
        t.inbox = s.inbox ∧ t.mem = s.mem) ∧
      (∀ f : Flit, l.up = false → Acts (.flitReceive n f) s fun t => t = s) ∧
      (∀ f : Flit, l.up = true → l.sent = [] → f.kind = 1 → f.check = 0 →
        (f.seq ≠ (l.rxSeq + 1) % 65536 → Acts (.flitReceive n f) s fun t => sends t (ackOf l.rxSeq) ∧ t.link n = l ∧ t.inbox = s.inbox) ∧
        (∀ d : Delivery, f.seq = (l.rxSeq + 1) % 65536 → Delivery.of f.body = some d → d.dst = s.rank → d.cargo = .copy → Acts (.flitReceive n f) s fun t =>
          sends t (ackOf f.seq) ∧ t.link n = { l with rxSeq := f.seq, flitrx := (l.flitrx + 1) % 2 ^ 64 } ∧ t.mem = s.mem ∧ Tbl.find? t.inbox s.nextId = some d)) ∧
      (∀ f : Flit, l.up = true → f.kind = 2 → f.check = 0 → s.outq = [] → (∃ p ∈ l.sent, seqBehind p.1 f.ack < 32768) → f.ack < 65536 → Acts (.flitReceive n f) s fun t =>
        t.outbox = s.outbox ∧ t.link n = { l with sent := l.sent.filter fun p => decide (32768 ≤ seqBehind p.1 f.ack), tries := 0 } ∧ t.inbox = s.inbox) ∧
    -- the states of a link
      (l.state = 0 → l.dis = false → s.outq = [] → Acts (.linkRetrain n) s fun t => (t.link n).state = 1 ∧ (t.link n).sent = l.sent ∧ (t.link n).retrain = l.retrain) ∧
      (l.up = true → 64 ≤ l.tries → s.outq = [] → s.faultRing = none → Acts (.linkRetrain n) s fun t => (t.link n).state = 1 ∧ (t.link n).lanes = 0 ∧ (t.link n).sent = l.sent ∧
        (t.link n).retrain = (l.retrain + 1) % 2 ^ 64) ∧
      (∀ ok m, l.state = 1 → [8, 4, 2].find? (fun k => decide (k ≤ min (ok % 16) l.goodLanes)) = some m → l.sent = [] → s.outq = [] → Acts (.linkTrainingDone n ok) s fun t =>
        (t.link n).state = (if m = 8 then 2 else 3) ∧ (t.link n).lanes = m ∧ (t.link n).peer = ok / 16 % 4096 ∧ Tbl.find? t.gridMap (ok / 16 % 4096) = some 1 ∧ t.outbox = s.outbox) ∧
      (∀ ok, l.state = 1 → min (ok % 16) l.goodLanes < 2 → s.outq = [] → Acts (.linkTrainingDone n ok) s fun t => t.gridMap = s.gridMap ∧
        if l.fails + 1 < 3 then t.link n = { l with fails := l.fails + 1 } else (t.link n).state = 0) ∧
      (l.sent = [] → s.outq = [] → Acts (.linkDisable n) s fun t => (t.link n).dis = true ∧ if l.state = 4 then (t.link n).state = 4 else
        ((t.link n).state = 5 ∧ (t.link n).lanes = 0 ∧ t.outbox = s.outbox)) ∧
      Acts (.linkEnable n) s (fun t => t.link n = { l with dis := false, state := if l.state = 5 then 0 else l.state } ∧ t.outbox = s.outbox ∧ t.mem = s.mem)) ∧
    -- the window
    (∀ o n, 0 < n → o + n ≤ 2 ^ 36 → s.wbase < 2 ^ 15 → let ia := s.wbase * 2 ^ 36 + o
      let record := fun (t : State) => ∃ r, t.faultLog = s.faultLog ++ [r] ∧ bits r 7 0 = 3 ∧ bits r 15 8 = 33 ∧ bits r 319 256 = ia
      let whole := ia / 65536 = (ia + n - 1) / 65536
      ((s.wen = false ∨ (whole ∧ s.walk ia = .unmapped)) → s.faultRing = none →
        Acts (.hostWindowAccess (.read o n)) s (fun t => record t ∧ t.mem = s.mem ∧ sends t [13, 1]) ∧
        (∀ bytes : List Byte, bytes.length = n → Acts (.hostWindowAccess (.write o bytes)) s fun t => record t ∧ t.mem = s.mem)) ∧
      (∀ f, s.wen = true → whole → s.walk ia = .frame f → let pa := f + ia % 65536
        (s.poisonAt pa n = none → Acts (.hostWindowAccess (.read o n)) s fun t => t = { s with outbox := s.outbox ++ [[13, 0, s.mem.read pa n]] }) ∧
        (∀ bytes : List Byte, bytes.length = n → Acts (.hostWindowAccess (.write o bytes)) s fun t => t.outbox = s.outbox ∧
          (∀ i < n, (t.mem.read (pa + i) 1) = (bytes.getD i 0).toNat) ∧ ∀ a, (a < pa ∨ pa + n ≤ a) → t.mem.read a 1 = s.mem.read a 1) ∧
        (∀ op (val cmp : BitVec 64), op ≤ 2 → n = 4 ∨ n = 8 → o % n = 0 → s.poisonAt pa n = none → Acts (.hostWindowAccess (.atomic op o n val cmp)) s fun t =>
          let old := s.mem.read pa n
          let v := val.toNat % 2 ^ (8 * n)
          t.mem = s.mem.write pa n (if op = 0 then (old + v) % 2 ^ (8 * n) else if op = 1 then v else if old = cmp.toNat % 2 ^ (8 * n) then v else old) ∧ sends t [13, 0, old]))) ∧
    -- the registers
    (∀ o, o % 8 = 0 → o + 8 ≤ 2 ^ 26 → Acts (.hostWindowAccess (.read (2 ^ 36 + o) 8)) s fun t => ∃ v, t = { s with outbox := s.outbox ++ [[13, 0, v]] } ∧
      (o = 0x18 → v = (if s.ready then 1 else 0) + (if s.fatal then 2 else 0) + (if s.therm then 4 else 0)) ∧ (o = 0x20 → v = s.npart) ∧ (o = 0x28 → v = s.pwrlim) ∧
      (o = 0 → v / 2 ^ 32 = 0x0840) ∧ (o = 0x10000 → v = s.wbase * 2 ^ 36 + if s.wen then 1 else 0) ∧ (0x600000 ≤ o → o < 0x800000 → v = 0)) ∧
    (∀ o n, ¬ ((n = 4 ∨ n = 8) ∧ o % n = 0) → Acts (.hostWindowAccess (.read (2 ^ 36 + o) n)) s fun t => t = { s with outbox := s.outbox ++ [[13, 1]] }) ∧
    (∀ o v, o < 2 ^ 26 → o % 8 ≠ 0 → Acts (.registerWrite o v) s fun t => t = s) ∧
    (∀ v, v < 2 ^ 64 → exec (.registerWrite 0x20 v) s = exec (.partcfg v) s ∧ exec (.registerWrite 0x28 v) s = exec (.pwrlim v) s) ∧
    (∀ o v, o ∈ [0, 8, 0x10, 0x100, 0x200000, 0x400000, 0x420000, 0x800000] → Acts (.registerWrite o v) s fun t => t = s) ∧
    (∀ v, v < 2 ^ 64 → (bits v 63 51 = 0 ∧ bits v 35 1 = 0 → Acts (.registerWrite 0x10000 v) s fun t => t = { s with wbase := bits v 50 36, wen := bitOf v 0 }) ∧
      (bits v 63 51 ≠ 0 → Acts (.registerWrite 0x10000 v) s fun t => t = s)) ∧
    (∀ q v, q < 1024 → v < 2 ^ 64 → exec (.registerWrite (0x100000 + 8 * q) v) s = .next (s.notifyWrite q true true v)) ∧
    (∀ c x v, c < 4096 → s.ctx? c = some x → v < 2 ^ 64 → 1 ≤ v % 256 → v % 256 ≤ 12 → x.mailbox.mst ≠ 0xFF → Acts (.registerWrite (0x300000 + 64 * c) v) s fun t => t.mem = s.mem ∧
      ∃ y, t.ctx? c = some y ∧ y.mailbox = { x.mailbox with cmd := v % 256, mst := 0xFF, team := bits v 63 32, begun := false }) ∧
    (∀ vec a d c, vec < 2048 → Tbl.get s.msixTab vec (0, 0, 1) = (a, d, c) → Acts (.msixUnmask vec) s fun t => Tbl.find? t.msixTab vec = some (a, d, 0) ∧ t.mem = s.mem ∧
      (vec ∈ s.msixPend → sends t [3, vec, a, d] ∧ t.msixPend = s.msixPend.filter (· ≠ vec)) ∧ (vec ∉ s.msixPend → t.outbox = s.outbox ∧ t.msixPend = s.msixPend))
end

