-- ==== Sys2Proof/Laws/Tables.lean ====
section
/-!
SUPPORT. Sys2Proof/Laws/Tables.lean: reading a table after it is changed, and its rising keys.
-/
namespace Sys2Proof.Machine

namespace Tbl

variable {α : Type}

@[simp] theorem find?_nil (k : Nat) : find? ([] : Tbl α) k = none := rfl

theorem find?_put_self (t : Tbl α) (k : Nat) (v : α) : find? (put t k v) k = some v := by
  induction t with
  | nil => simp [put, find?]
  | cons p r ih =>
    obtain ⟨j, w⟩ := p
    unfold put
    split
    · simp [find?]
    · split
      · simp [find?]
      · rename_i h1 h2
        have : ¬ j = k := fun h => h2 h.symm
        simp [find?, this, ih]

theorem find?_put_other (t : Tbl α) (k i : Nat) (v : α) (h : i ≠ k) : find? (put t k v) i = find? t i := by
  have hk : ¬ k = i := fun e => h e.symm
  induction t with
  | nil => simp [put, find?, hk]
  | cons p r ih =>
    obtain ⟨j, w⟩ := p
    unfold put
    split
    · simp [find?, hk]
    · split
      · rename_i _ e
        subst e
        simp [find?, hk]
      · simp only [find?]
        split
        · rfl
        · exact ih

@[simp] theorem find?_put (t : Tbl α) (k i : Nat) (v : α) : find? (put t k v) i = if i = k then some v else find? t i := by
  split
  · next h => subst h; exact find?_put_self t i v
  · next h => exact find?_put_other t k i v h

@[simp] theorem get_put (t : Tbl α) (k i : Nat) (v d : α) : get (put t k v) i d = if i = k then v else get t i d := by
  simp only [get, find?_put]
  split <;> rfl

theorem wf_cons (j : Nat) (v : α) (r : Tbl α) : wf ((j, v) :: r) = true ↔ (∀ p ∈ r, j < p.1) ∧ wf r = true := by
  induction r generalizing j v with
  | nil => simp [wf]
  | cons p r ih =>
    obtain ⟨k, w⟩ := p
    simp only [wf, Bool.and_eq_true, decide_eq_true_eq, List.mem_cons, forall_eq_or_imp]
    constructor
    · intro ⟨h1, h2⟩
      exact ⟨⟨h1, fun q hq => Nat.lt_trans h1 (((ih k w).1 h2).1 q hq)⟩, h2⟩
    · intro ⟨⟨h1, _⟩, h2⟩
      exact ⟨h1, h2⟩

theorem mem_put (t : Tbl α) (k : Nat) (v : α) (p : Nat × α) (h : p ∈ put t k v) : p = (k, v) ∨ p ∈ t := by
  induction t with
  | nil => simpa [put] using h
  | cons q r ih =>
    obtain ⟨j, w⟩ := q
    unfold put at h
    split at h
    · simpa using h
    · split at h
      · rename_i e
        rcases List.mem_cons.1 h with h | h
        · exact .inl h
        · exact .inr (List.mem_cons_of_mem _ h)
      · rcases List.mem_cons.1 h with h | h
        · exact .inr (by simp [h])
        · rcases ih h with h | h
          · exact .inl h
          · exact .inr (List.mem_cons_of_mem _ h)

/-- Setting an entry keeps the keys rising. -/
theorem wf_put (t : Tbl α) (k : Nat) (v : α) (h : wf t = true) : wf (put t k v) = true := by
  induction t with
  | nil => rfl
  | cons q r ih =>
    obtain ⟨j, w⟩ := q
    obtain ⟨hj, hr⟩ := (wf_cons j w r).1 h
    unfold put
    split
    · rename_i hk
      refine (wf_cons _ _ _).2 ⟨?_, h⟩
      intro p hp
      rcases List.mem_cons.1 hp with e | hp
      · subst e; exact hk
      · exact Nat.lt_trans hk (hj p hp)
    · split
      · rename_i e
        subst e
        exact (wf_cons _ _ _).2 ⟨hj, hr⟩
      · rename_i h1 h2
        refine (wf_cons _ _ _).2 ⟨?_, ih hr⟩
        intro p hp
        rcases mem_put r k v p hp with e | hp
        · subst e
          have h3 : ¬ k = j := h2
          have h4 : ¬ k < j := h1
          show j < k
          omega
        · exact hj p hp

end Tbl

@[simp] theorem length_modAt {α : Type} (l : List α) (i : Nat) (f : α → α) : (modAt l i f).length = l.length := by
  induction l generalizing i with
  | nil => rfl
  | cons a r ih => cases i <;> simp [modAt, ih]

theorem getD_modAt {α : Type} (l : List α) (i j : Nat) (f : α → α) (d : α) :
    (modAt l i f).getD j d = if i = j ∧ i < l.length then f (l.getD j d) else l.getD j d := by
  induction l generalizing i j with
  | nil => simp [modAt]
  | cons a r ih =>
    cases i with
    | zero => cases j <;> simp [modAt]
    | succ i =>
      cases j with
      | zero => simp [modAt]
      | succ j =>
        simp only [modAt, List.getD_cons_succ, List.length_cons, ih]
        simp

end Sys2Proof.Machine
end

