-- ==== Sys2Proof/Laws/Band.lean ====
section
/-!
SUPPORT. Sys2Proof/Laws/Band.lean: what each operation on a band's registers, predicates and threads leaves in every register, predicate and
thread, so that no later proof unfolds one.
-/
namespace Sys2Proof.Machine

theorem Tbl.find?_del {α : Type} (t : Tbl α) (k i : Nat) : Tbl.find? (Tbl.del t k) i = if i = k then none else Tbl.find? t i := by
  induction t with
  | nil => simp [Tbl.del]
  | cons p r ih =>
    obtain ⟨j, w⟩ := p
    unfold Tbl.del
    by_cases h : j = k
    · simp only [h, if_true, ih, Tbl.find?]
      by_cases hi : i = k
      · simp [hi]
      · simp [hi, Ne.symm hi]
    · simp only [h, if_false, Tbl.find?, ih]
      by_cases hj : j = i
      · subst hj; simp [h]
      · simp [hj]

/-! ### Threads -/

theorem Band.thread_modThread (b : Band) (i j : Nat) (f : Thread → Thread) :
    (b.modThread i f).thread j = if i = j ∧ i < b.threads.length then f (b.thread j) else b.thread j :=
  getD_modAt b.threads i j f {}

@[simp] theorem Band.length_modThread (b : Band) (i : Nat) (f : Thread → Thread) : (b.modThread i f).threads.length = b.threads.length :=
  length_modAt _ _ _

theorem Band.modThread_rest (b : Band) (i : Nat) (f : Thread → Thread) :
    (b.modThread i f) = { b with threads := (b.modThread i f).threads } := rfl

/-- A band that differs in its threads alone. -/
theorem Band.modThreads_rest (b : Band) (ts : List Nat) (f : Nat → Thread → Thread) :
    b.modThreads ts f = { b with threads := (b.modThreads ts f).threads } := by
  unfold Band.modThreads
  induction ts generalizing b with
  | nil => rfl
  | cons t r ih =>
    rw [List.foldl_cons, ih (b.modThread t (f t))]
    rfl

@[simp] theorem Band.length_modThreads (b : Band) (ts : List Nat) (f : Nat → Thread → Thread) :
    (b.modThreads ts f).threads.length = b.threads.length := by
  unfold Band.modThreads
  induction ts generalizing b with
  | nil => rfl
  | cons t r ih => rw [List.foldl_cons, ih]; simp

/-- Every thread of a list without repeats is changed once. -/
theorem Band.thread_modThreads (b : Band) (ts : List Nat) (f : Nat → Thread → Thread) (j : Nat) (hd : ts.Nodup) :
    (b.modThreads ts f).thread j = if j ∈ ts ∧ j < b.threads.length then f j (b.thread j) else b.thread j := by
  unfold Band.modThreads
  induction ts generalizing b with
  | nil => simp
  | cons t r ih =>
    obtain ⟨hnot, hr⟩ := List.nodup_cons.1 hd
    rw [List.foldl_cons, ih _ hr, Band.length_modThread, Band.thread_modThread]
    by_cases hj : t = j
    · subst hj
      simp [hnot]
    · simp [hj, Ne.symm hj]

/-! ### Registers -/

theorem findSome?_map {α β γ : Type} (l : List α) (g : α → β) (f : β → Option γ) : (l.map g).findSome? f = l.findSome? (f ∘ g) := by
  induction l with
  | nil => rfl
  | cons a r ih => simp only [List.map_cons, List.findSome?_cons, Function.comp_apply, ih]

/-- Changing every entry table of one name. -/
theorem findSome?_vals (l : List VReg) (n m t : Nat) (g : Tbl Word → Tbl Word) :
    (l.map fun r => if r.name = n then { r with vals := g r.vals } else r).findSome? (fun r => if r.name = m then Tbl.find? r.vals t else none) =
      l.findSome? fun r => if r.name = m then Tbl.find? (if m = n then g r.vals else r.vals) t else none := by
  rw [findSome?_map]
  congr 1
  funext r
  simp only [Function.comp_apply]
  by_cases h : r.name = n
  · by_cases hm : m = n
    · subst hm; simp [h]
    · have hm' : ¬ n = m := fun e => hm e.symm
      simp only [h, if_true, hm', if_false]
  · by_cases hm : m = n
    · subst hm; simp [h]
    · simp only [h, if_false, hm]

theorem Band.vreg?_clearLive (b : Band) (n t m j : Nat) :
    (b.clearLive n t).vreg? m j = if m = n ∧ j = t then none else b.vreg? m j := by
  unfold Band.vreg? Band.clearLive
  simp only
  rw [findSome?_vals b.regs n m j fun v => Tbl.del v t]
  by_cases h : m = n
  · subst h
    by_cases hj : j = t
    · subst hj
      simp only [if_true, and_self, Tbl.find?_del]
      induction b.regs with
      | nil => rfl
      | cons r l ih => simp only [List.findSome?_cons, ih]; split <;> simp_all
    · simp [hj, Tbl.find?_del]
  · simp [h]

theorem Band.vreg?_prune (b : Band) (keep : List Nat) (m j : Nat) : (b.prune keep).vreg? m j = b.vreg? m j := by
  unfold Band.vreg? Band.prune
  simp only
  induction b.regs with
  | nil => rfl
  | cons r l ih =>
    rw [List.filter_cons]
    split
    · simp only [List.findSome?_cons, ih]
    · rename_i h
      rw [ih, List.findSome?_cons]
      have hv : r.vals = [] := by
        cases hr : r.vals with
        | nil => rfl
        | cons a q => simp [hr] at h
      rw [hv]
      by_cases hn : r.name = m <;> simp [hn]

/-- A write to a mapped name. -/
theorem Band.vreg?_writeV (b : Band) (n t : Nat) (w : Word) (m j : Nat) (h : (b.reg? n).isSome = true) :
    (b.writeV n t w).vreg? m j = if m = n ∧ j = t then some w else b.vreg? m j := by
  unfold Band.vreg? Band.writeV
  simp only
  rw [findSome?_vals b.regs n m j fun v => Tbl.put v t w]
  by_cases hm : m = n
  · subst hm
    by_cases hj : j = t
    · subst hj
      unfold Band.reg? at h
      simp only [if_true, and_self, Tbl.find?_put]
      revert h
      induction b.regs with
      | nil => simp
      | cons r l ih =>
        intro h
        rw [List.findSome?_cons]
        by_cases hr : r.name = m
        · simp [hr]
        · simp only [hr, if_false]
          apply ih
          simpa [List.find?_cons, hr] using h
    · simp [hj]
  · simp [hm]

theorem find?_writeV (l : List VReg) (n m t : Nat) (w : Word) :
    ((l.map fun r => if r.name = n then { r with vals := Tbl.put r.vals t w } else r).find? fun r => r.name = m).isSome =
      (l.find? fun r => r.name = m).isSome := by
  induction l with
  | nil => rfl
  | cons r l ih =>
    rw [List.map_cons, List.find?_cons, List.find?_cons]
    by_cases h : r.name = n
    · by_cases hm : r.name = m
      · simp [h, ← hm]
      · have hm' : ¬ n = m := fun e => hm (h.trans e)
        simp [h, hm']
        simpa using ih
    · by_cases hm : r.name = m
      · rw [if_neg h]; simp [hm]
      · rw [if_neg h]
        simp only [hm, decide_false]
        exact ih

@[simp] theorem Band.reg?_writeV (b : Band) (n t m : Nat) (w : Word) : ((b.writeV n t w).reg? m).isSome = (b.reg? m).isSome :=
  find?_writeV b.regs n m t w

theorem findSome?_insertReg (v : VReg) (l : List VReg) (f : VReg → Option Word) (h : f v = none) :
    (insertReg v l).findSome? f = l.findSome? f := by
  induction l with
  | nil => simp [insertReg, h]
  | cons r l ih =>
    unfold insertReg
    split
    · simp [List.findSome?_cons, h]
    · simp only [List.findSome?_cons, ih]

theorem find?_insertReg (v : VReg) (l : List VReg) (n : Nat) :
    ((insertReg v l).find? fun r => r.name = n).isSome = (decide (v.name = n) || (l.find? fun r => r.name = n).isSome) := by
  induction l with
  | nil => by_cases h : v.name = n <;> simp [insertReg, h]
  | cons r l ih =>
    unfold insertReg
    split
    · by_cases h : v.name = n
      · simp [List.find?_cons, h]
      · simp [List.find?_cons, h]
    · by_cases hr : r.name = n
      · simp [hr]
      · rw [List.find?_cons, List.find?_cons]
        simp only [hr, decide_false]
        exact ih

theorem Band.vreg?_mapReg (b : Band) (n p m j : Nat) : (b.mapReg n p).vreg? m j = b.vreg? m j := by
  unfold Band.mapReg
  split
  · rfl
  · exact findSome?_insertReg _ _ _ (by by_cases h : n = m <;> simp [h])

theorem Band.reg?_mapReg (b : Band) (n p m : Nat) : ((b.mapReg n p).reg? m).isSome = (decide (n = m) || (b.reg? m).isSome) := by
  unfold Band.mapReg
  split
  · rename_i r h
    by_cases hm : n = m
    · subst hm; simp [h]
    · simp [hm]
  · exact find?_insertReg _ _ _

theorem Band.mapReg_rest (b : Band) (n p : Nat) : b.mapReg n p = { b with regs := (b.mapReg n p).regs } := by
  unfold Band.mapReg
  split <;> rfl

/-- Mapping names changes the list of registers alone, gives no entry, and maps every name of the list. -/
theorem State.mapAll_spec (s : State) (k : Nat) (names : List Nat) (b : Band) :
    (s.mapAll k b names = { b with regs := (s.mapAll k b names).regs }) ∧
      (∀ m j, (s.mapAll k b names).vreg? m j = b.vreg? m j) ∧
      (∀ m, ((s.mapAll k b names).reg? m).isSome = (decide (m ∈ names) || (b.reg? m).isSome)) := by
  induction names generalizing b with
  | nil => exact ⟨rfl, fun _ _ => rfl, fun _ => by simp [State.mapAll]⟩
  | cons n r ih =>
    unfold State.mapAll
    cases h : b.reg? n with
    | some v =>
      simp only
      obtain ⟨h1, h2, h3⟩ := ih b
      refine ⟨h1, h2, fun m => ?_⟩
      rw [h3]
      by_cases hm : m = n
      · subst hm; simp [h]
      · simp [hm]
    | none =>
      simp only
      obtain ⟨h1, h2, h3⟩ := ih (b.mapReg n ((s.setBand k b).freePreg (keyCore k) (keyLane k) b.width n))
      refine ⟨?_, ?_, ?_⟩
      · rw [h1, Band.mapReg_rest]
      · intro m j; rw [h2, Band.vreg?_mapReg]
      · intro m
        rw [h3, Band.reg?_mapReg]
        by_cases hm : m = n
        · subst hm; simp
        · simp [hm, Ne.symm hm]

/-- A name that was mapped before stays mapped by writes. -/
theorem Band.reg?_writeGroup (b : Band) (d t x n m : Nat) : ((b.writeGroup d t x n).reg? m).isSome = (b.reg? m).isSome := by
  induction n generalizing b d x with
  | zero => rfl
  | succ n ih => unfold Band.writeGroup; rw [ih]; simp

theorem Band.writeGroup_rest (b : Band) (d t x n : Nat) : b.writeGroup d t x n = { b with regs := (b.writeGroup d t x n).regs } := by
  induction n generalizing b d x with
  | zero => rfl
  | succ n ih => unfold Band.writeGroup; rw [ih]; rfl

theorem wordOf_zero (x : Nat) : wordOf x 0 = BitVec.ofNat 32 x := by simp [wordOf]

theorem wordOf_succ (x i : Nat) : wordOf x (i + 1) = wordOf (x / 2 ^ 32) i := by
  unfold wordOf
  rw [Nat.div_div_eq_div_mul, Nat.mul_add, Nat.pow_add, Nat.mul_comm]

/-- A group of mapped registers written with the words of a number. -/
theorem Band.vreg?_writeGroup (b : Band) (d t x n m j : Nat) (h : ∀ i < n, (b.reg? (d + i)).isSome = true) :
    (b.writeGroup d t x n).vreg? m j = if d ≤ m ∧ m < d + n ∧ j = t then some (wordOf x (m - d)) else b.vreg? m j := by
  induction n generalizing b d x with
  | zero =>
    have : ¬ (d ≤ m ∧ m < d + 0 ∧ j = t) := by omega
    rw [if_neg this]
    rfl
  | succ n ih =>
    unfold Band.writeGroup
    rw [ih]
    · rw [Band.vreg?_writeV _ _ _ _ _ _ (by simpa using h 0 (by omega))]
      by_cases hj : j = t
      · by_cases h1 : d + 1 ≤ m ∧ m < d + 1 + n
        · have h2 : d ≤ m ∧ m < d + (n + 1) := by omega
          simp only [h1, h2, hj, and_self, if_true]
          obtain ⟨i, hi⟩ : ∃ i, m - d = i + 1 := ⟨m - d - 1, by omega⟩
          rw [hi, wordOf_succ, show m - (d + 1) = i by omega]
        · by_cases hm : m = d
          · subst hm
            have h2 : m < m + (n + 1) := by omega
            have h3 : ¬ (m + 1 ≤ m ∧ m < m + 1 + n ∧ j = t) := by omega
            have h4 : m ≤ m ∧ m < m + (n + 1) ∧ j = t := ⟨Nat.le_refl _, h2, hj⟩
            rw [if_neg h3, if_pos h4, if_pos ⟨rfl, hj⟩, Nat.sub_self, wordOf_zero]
          · have h2 : ¬ (d ≤ m ∧ m < d + (n + 1) ∧ j = t) := by omega
            have h3 : ¬ (d + 1 ≤ m ∧ m < d + 1 + n ∧ j = t) := by omega
            simp only [if_neg h2, if_neg h3, hm, false_and, if_false]
      · simp [hj]
    · intro i hi
      have := h (i + 1) (by omega)
      rw [Band.reg?_writeV]
      simpa [Nat.add_assoc, Nat.add_comm 1 i] using this

theorem Band.writeKGroup_rest (b : Band) (d x n : Nat) : b.writeKGroup d x n = { b with kregs := (b.writeKGroup d x n).kregs } := by
  induction n generalizing b d x with
  | zero => rfl
  | succ n ih => unfold Band.writeKGroup; rw [ih]; rfl

theorem Band.length_writeKGroup (b : Band) (d x n : Nat) : (b.writeKGroup d x n).kregs.length = b.kregs.length := by
  induction n generalizing b d x with
  | zero => rfl
  | succ n ih => unfold Band.writeKGroup; rw [ih]; simp [Band.writeK]

/-- A group of k registers written with the words of a number. -/
theorem Band.kregs_writeKGroup (b : Band) (d x n m : Nat) (h : d + n ≤ b.kregs.length) :
    (b.writeKGroup d x n).kregs.getD m 0 = if d ≤ m ∧ m < d + n then wordOf x (m - d) else b.kregs.getD m 0 := by
  induction n generalizing b d x with
  | zero =>
    have : ¬ (d ≤ m ∧ m < d + 0) := by omega
    rw [if_neg this]
    rfl
  | succ n ih =>
    unfold Band.writeKGroup
    rw [ih _ _ _ (by simp [Band.writeK]; omega)]
    by_cases h1 : d + 1 ≤ m ∧ m < d + 1 + n
    · have h2 : d ≤ m ∧ m < d + (n + 1) := by omega
      rw [if_pos h1, if_pos h2]
      obtain ⟨i, hi⟩ : ∃ i, m - d = i + 1 := ⟨m - d - 1, by omega⟩
      rw [hi, wordOf_succ, show m - (d + 1) = i by omega]
    · rw [if_neg h1]
      by_cases hm : m = d
      · subst hm
        have h2 : m ≤ m ∧ m < m + (n + 1) := by omega
        have h3 : m < b.kregs.length := by omega
        rw [if_pos h2, Nat.sub_self, wordOf_zero]
        simp [Band.writeK, List.getD_eq_getElem?_getD, h3]
      · have h2 : ¬ (d ≤ m ∧ m < d + (n + 1)) := by omega
        rw [if_neg h2]
        simp [Band.writeK, List.getD_eq_getElem?_getD, Ne.symm hm]

/-! ### Predicates -/

theorem bitOf_eq_testBit (x i : Nat) : bitOf x i = x.testBit i := by
  unfold bitOf
  rw [Nat.testBit_eq_decide_div_mod_eq]

/-- Bit p replaced by v, every other bit kept (R51). -/
theorem bitOf_replace (x p q : Nat) (v : Bool) :
    bitOf (x - (if bitOf x p then 2 ^ p else 0) + (if v then 2 ^ p else 0)) q = if q = p then v else bitOf x q := by
  have hpos : 0 < 2 ^ p := Nat.two_pow_pos p
  have hx : x = 2 ^ p * (x / 2 ^ p) + x % 2 ^ p := (Nat.div_add_mod x (2 ^ p)).symm
  have hlt : x % 2 ^ p < 2 ^ p := Nat.mod_lt _ hpos
  -- the number with bit p cleared, then set as v says
  have key : x - (if bitOf x p then 2 ^ p else 0) + (if v then 2 ^ p else 0) =
      2 ^ p * (2 * (x / 2 ^ p / 2) + (if v then 1 else 0)) + x % 2 ^ p := by
    have hd : x / 2 ^ p = 2 * (x / 2 ^ p / 2) + x / 2 ^ p % 2 := (Nat.div_add_mod _ 2).symm
    have hb : bitOf x p = decide (x / 2 ^ p % 2 = 1) := rfl
    rw [hb]
    generalize x / 2 ^ p / 2 = c at *
    generalize x % 2 ^ p = r at *
    generalize 2 ^ p = y at *
    rcases Nat.mod_two_eq_zero_or_one (x / y) with h0 | h1
    · rw [h0] at hd
      rw [hd] at hx
      rw [h0]
      simp only [Nat.add_zero] at hx
      cases v
      · simp [← hx]
      · simp [Nat.mul_add]; omega
    · rw [h1] at hd
      rw [hd] at hx
      rw [h1]
      cases v
      · simp [Nat.mul_add] at hx ⊢; omega
      · simp [Nat.mul_add] at hx ⊢; omega
  rw [key]
  simp only [bitOf_eq_testBit]
  by_cases hq : q = p
  · subst hq
    rw [if_pos rfl, Nat.testBit_two_pow_mul_add _ hlt, if_neg (by omega), Nat.sub_self]
    rw [Nat.testBit_zero]
    cases v <;> simp <;> omega
  · rw [if_neg hq, Nat.testBit_two_pow_mul_add _ hlt]
    conv => rhs; rw [hx, Nat.testBit_two_pow_mul_add _ hlt]
    by_cases hlt' : q < p
    · simp [hlt']
    · simp only [hlt', if_false]
      obtain ⟨i, hi⟩ : ∃ i, q - p = i + 1 := ⟨q - p - 1, by omega⟩
      rw [hi, Nat.testBit_succ, Nat.testBit_succ]
      congr 1
      cases v <;> simp <;> omega

theorem Band.writeP_rest (b : Band) (t p : Nat) (v : Bool) : b.writeP t p v = { b with threads := (b.writeP t p v).threads } := by
  unfold Band.writeP
  split <;> rfl

@[simp] theorem Band.length_writeP (b : Band) (t p : Nat) (v : Bool) : (b.writeP t p v).threads.length = b.threads.length := by
  unfold Band.writeP
  split <;> simp

/-- A write of a predicate: p7 discards it (R51). -/
theorem Band.preds_writeP (b : Band) (t p : Nat) (v : Bool) (j q : Nat) (ht : t < b.threads.length) :
    bitOf ((b.writeP t p v).thread j).preds q = if p < 7 ∧ j = t ∧ q = p then v else bitOf (b.thread j).preds q := by
  unfold Band.writeP
  by_cases hp : 7 ≤ p
  · rw [if_pos hp, if_neg (by omega)]
  · rw [if_neg hp, Band.thread_modThread]
    have hp' : p < 7 := by omega
    by_cases hj : t = j
    · subst hj
      simp only [ht, and_self, if_true, hp', true_and]
      rw [bitOf_replace]
    · simp [hj, Ne.symm hj]

theorem Band.thread_writeP (b : Band) (t p : Nat) (v : Bool) (j : Nat) :
    (b.writeP t p v).thread j = { b.thread j with preds := ((b.writeP t p v).thread j).preds } := by
  unfold Band.writeP
  split
  · rfl
  · rw [Band.thread_modThread]
    split <;> rfl

/-! ### Last reads (R55, R74) -/

theorem Band.foldl_clearLive_rest (b : Band) (l : List Nat) (n t : Nat) :
    (l.foldl (fun b i => b.clearLive (n + i) t) b) = { b with regs := (l.foldl (fun b i => b.clearLive (n + i) t) b).regs } := by
  induction l generalizing b with
  | nil => rfl
  | cons i l ih => rw [List.foldl_cons, ih]; rfl

theorem Band.vreg?_foldl_clearLive (b : Band) (l : List Nat) (n t m j : Nat) :
    (l.foldl (fun b i => b.clearLive (n + i) t) b).vreg? m j = if m ∈ l.map (n + ·) ∧ j = t then none else b.vreg? m j := by
  induction l generalizing b with
  | nil => simp
  | cons i l ih =>
    rw [List.foldl_cons, ih, Band.vreg?_clearLive]
    by_cases hj : j = t
    · by_cases hm : m ∈ l.map (n + ·)
      · have : m ∈ (i :: l).map (n + ·) := List.mem_cons_of_mem _ hm
        simp only [hm, this, hj, and_self, if_true]
      · by_cases hi : m = n + i
        · simp [hi, hj]
        · have : ¬ m ∈ (i :: l).map (n + ·) := by
            intro h
            rcases List.mem_cons.1 h with h | h
            · exact hi h
            · exact hm h
          simp only [hm, this, hi, hj, false_and, if_false]
    · simp [hj]

/-- The names that one source's last-read bit clears. -/
def lastReadOf (o : Opnd) (l : Bool) (w : Nat) : List Nat :=
  match o, l with
  | .v n, true => (List.range (wordsFor w)).map (n + ·)
  | _, _ => []

theorem Fld.lastReadNames_eq (f : Fld) (wa wb wc : Nat) :
    f.lastReadNames wa wb wc = lastReadOf f.a f.la wa ++ lastReadOf f.b f.lb wb ++ lastReadOf f.c f.lc wc := rfl

theorem Band.vreg?_lastRead (b : Band) (o : Opnd) (l : Bool) (w t m j : Nat) :
    (b.lastRead o l w t).vreg? m j = if m ∈ lastReadOf o l w ∧ j = t then none else b.vreg? m j := by
  unfold Band.lastRead lastReadOf
  split
  · exact Band.vreg?_foldl_clearLive b _ _ t m j
  · simp

theorem Band.lastRead_rest (b : Band) (o : Opnd) (l : Bool) (w t : Nat) :
    b.lastRead o l w t = { b with regs := (b.lastRead o l w t).regs } := by
  unfold Band.lastRead
  split
  · exact Band.foldl_clearLive_rest b _ _ t
  · rfl

theorem Band.lastReads_rest (b : Band) (f : Fld) (wa wb wc : Nat) (ts : List Nat) :
    b.lastReads f wa wb wc ts = { b with regs := (b.lastReads f wa wb wc ts).regs } := by
  unfold Band.lastReads
  induction ts generalizing b with
  | nil => rfl
  | cons t r ih =>
    rw [List.foldl_cons, ih]
    rw [Band.lastRead_rest, Band.lastRead_rest _ f.b, Band.lastRead_rest _ f.a]

/-- The last-read bits clear the live bits of the named registers for the threads of the run, and nothing else. -/
theorem Band.vreg?_lastReads (b : Band) (f : Fld) (wa wb wc : Nat) (ts : List Nat) (m j : Nat) :
    (b.lastReads f wa wb wc ts).vreg? m j = if m ∈ f.lastReadNames wa wb wc ∧ j ∈ ts then none else b.vreg? m j := by
  unfold Band.lastReads
  induction ts generalizing b with
  | nil => simp
  | cons t r ih =>
    rw [List.foldl_cons, ih, Band.vreg?_lastRead, Band.vreg?_lastRead, Band.vreg?_lastRead, Fld.lastReadNames_eq]
    by_cases hj : j = t
    · by_cases h1 : m ∈ lastReadOf f.a f.la wa <;> by_cases h2 : m ∈ lastReadOf f.b f.lb wb <;>
        by_cases h3 : m ∈ lastReadOf f.c f.lc wc <;> simp [hj, h1, h2, h3]
    · simp [hj]

theorem Band.prune_rest (b : Band) (keep : List Nat) : b.prune keep = { b with regs := (b.prune keep).regs } := rfl

/-! ### Advancing (R64) -/

theorem Band.advance_rest (b : Band) (r : Run) (ts : List Nat) : b.advance r ts = { b with threads := (b.advance r ts).threads } := by
  unfold Band.advance
  split
  · rfl
  · exact Band.modThreads_rest _ _ _

theorem Band.thread_advance (b : Band) (r : Run) (ts : List Nat) (j : Nat) (hd : ts.Nodup) (hl : ∀ t ∈ ts, t < b.threads.length) :
    (b.advance r ts).thread j = if j ∈ ts then
      { b.thread j with pc := if r.inRep then (b.thread j).pc else ((b.thread j).pc + r.len) % 65536,
                        rep := if r.inRep then (b.thread j).rep else 0 } else b.thread j := by
  unfold Band.advance
  by_cases h : r.inRep = true
  · simp [h]
  · rw [if_neg h, Band.thread_modThreads _ _ _ _ hd]
    by_cases hj : j ∈ ts
    · simp [hj, hl j hj, h]
    · simp [hj]

end Sys2Proof.Machine
end

