-- ==== Sys2Proof/Laws/Bits.lean ====
section
/-!
SUPPORT. Sys2Proof/Laws/Bits.lean: numbers given by their bits, and fields of numbers.
-/
namespace Sys2Proof.Machine

theorem fromBits_lt (f : Nat → Bool) (n : Nat) : fromBits f n < 2 ^ n := by
  induction n with
  | zero => simp [fromBits]
  | succ n ih =>
    unfold fromBits
    rw [Nat.pow_succ]
    split <;> omega

/-- The bits of a number given by its bits. -/
theorem bitOf_fromBits (f : Nat → Bool) (n i : Nat) : bitOf (fromBits f n) i = (decide (i < n) && f i) := by
  rw [bitOf_eq_testBit]
  induction n with
  | zero => simp [fromBits]
  | succ n ih =>
    have hlt := fromBits_lt f n
    have heq : fromBits f (n + 1) = 2 ^ n * (if f n then 1 else 0) + fromBits f n := by
      show fromBits f n + _ = _
      cases f n <;> simp [Nat.add_comm]
    rw [heq, Nat.testBit_two_pow_mul_add _ hlt]
    by_cases hi : i < n
    · simp only [hi, if_true, ih]
      have : i < n + 1 := by omega
      simp [this]
    · by_cases he : i = n
      · subst he
        simp
        cases f i <;> simp
      · have h1 : ¬ i < n + 1 := by omega
        obtain ⟨k, hk⟩ : ∃ k, i - n = k + 1 := ⟨i - n - 1, by omega⟩
        simp only [hi, if_false, h1, decide_false, Bool.false_and, hk, Nat.testBit_succ]
        cases f n <;> simp

/-- Two numbers with the same bits are equal. -/
theorem eq_of_bits (x y : Nat) (h : ∀ i, bitOf x i = bitOf y i) : x = y :=
  Nat.eq_of_testBit_eq fun i => by rw [← bitOf_eq_testBit, ← bitOf_eq_testBit]; exact h i

/-- A number below 2^n has no bit at or above n. -/
theorem bitOf_of_lt (x n i : Nat) (h : x < 2 ^ n) (hi : n ≤ i) : bitOf x i = false := by
  rw [bitOf_eq_testBit]
  exact Nat.testBit_lt_two_pow (Nat.lt_of_lt_of_le h (Nat.pow_le_pow_right (by omega) hi))

end Sys2Proof.Machine
end

