-- ==== Sys2Proof/Laws/Fabric.lean ====
section
/-!
SUPPORT. Sys2Proof/Laws/Fabric.lean: an intermediate address of the device half lies outside the host half and the notify window, so that a
translation of it is its port's entry or the walk (R425, R426).
-/
namespace Sys2Proof.Machine

/-- An address of the device half is not of the host half. -/
theorem isHost_of_lt (ia : Nat) (h : ia < 2 ^ 51) : isHost ia = false := by
  unfold isHost bitOf
  rw [Nat.div_eq_of_lt h]; rfl

/-- The notify window lies in the host half (R363). -/
theorem inWindow_of_lt (ia : Nat) (h : ia < 2 ^ 51) : inWindow ia = false := by
  have : ¬ windowBase ≤ ia := by unfold windowBase; omega
  simp [inWindow, this]

/-- A port's translation of an address of the device half. -/
theorem State.cached_of_lt (s : State) (u ia : Nat) (w : Bool) (h : ia < 2 ^ 51) :
    s.cached u ia w = (Tbl.find? (Tbl.get s.tlbs u []) (pageOf ia)).map fun f => f + ia % 65536 := by
  simp [State.cached, inWindow_of_lt ia h, isHost_of_lt ia h]

/-- Whether an address of the device half is mapped is the walk's answer. -/
theorem State.mapped_of_lt (s : State) (ia : Nat) (w : Bool) (h : ia < 2 ^ 51) :
    s.mapped ia w = match s.walk ia with | .frame _ => true | _ => false := by
  unfold State.mapped
  rw [isHost_of_lt ia h]
  cases hw : s.walk ia <;> simp

/-- What a unit reaches of the device half: its port's translation, or a walk made for it. -/
theorem State.portPA_of_lt (s : State) (u ia : Nat) (w : Bool) (h : ia < 2 ^ 51) :
    s.portPA u ia w = match (Tbl.find? (Tbl.get s.tlbs u []) (pageOf ia)).map fun f => f + ia % 65536 with
      | some pa => some pa
      | none => match s.walk ia with | .frame f => some (f + ia % 65536) | _ => none := by
  unfold State.portPA
  rw [State.cached_of_lt s u ia w h, isHost_of_lt ia h]
  cases (Tbl.find? (Tbl.get s.tlbs u []) (pageOf ia)).map fun f => f + ia % 65536 with
  | some pa => rfl
  | none => cases hw : s.walk ia <;> simp

end Sys2Proof.Machine
end

