-- ==== Sys2Proof/Laws/Mem.lean ====
section
/-!
SUPPORT. Sys2Proof/Laws/Mem.lean: memory operations keep the canonical form, a read after a write gives what was written, and a write
leaves every other byte alone.
-/
namespace Sys2Proof.Machine.Memory

/-- The canonical form of a memory with a first entry. -/
theorem wf_cons (a : Nat) (v : Byte) (r : Memory) :
    wf ((a, v) :: r) = true ↔ (∀ c ∈ r, a < c.1) ∧ v ≠ Memory.fresh ∧ wf r = true := by
  induction r generalizing a v with
  | nil => simp [wf]
  | cons c r ih =>
    obtain ⟨b, w⟩ := c
    simp only [wf, Bool.and_eq_true, decide_eq_true_eq, List.mem_cons, forall_eq_or_imp]
    constructor
    · intro ⟨⟨h1, h2⟩, h3⟩
      exact ⟨⟨h1, fun c hc => Nat.lt_trans h1 (((ih b w).1 h3).1 c hc)⟩, h2, h3⟩
    · intro ⟨⟨h1, _⟩, h2, h3⟩
      exact ⟨⟨h1, h2⟩, h3⟩

theorem byte_of_lt (m : Memory) (a : Nat) (h : ∀ c ∈ m, a < c.1) : byte m a = Memory.fresh := by
  induction m with
  | nil => rfl
  | cons c r ih =>
    obtain ⟨b, w⟩ := c
    have hb : a < b := h (b, w) (by simp)
    have : ¬ b = a := by omega
    simp only [byte, this, if_false]
    exact ih fun c hc => h c (List.mem_cons_of_mem _ hc)

theorem mem_set (m : Memory) (a : Nat) (v : Byte) (c : Host.Cell) (h : c ∈ set m a v) : c = (a, v) ∨ c ∈ m := by
  induction m with
  | nil =>
    unfold set at h
    split at h <;> simp_all
  | cons q r ih =>
    obtain ⟨b, w⟩ := q
    unfold set at h
    split at h
    · split at h
      · exact .inr h
      · simpa using h
    · split at h
      · split at h
        · exact .inr (List.mem_cons_of_mem _ h)
        · rcases List.mem_cons.1 h with h | h
          · exact .inl h
          · exact .inr (List.mem_cons_of_mem _ h)
      · rcases List.mem_cons.1 h with h | h
        · exact .inr (by simp [h])
        · rcases ih h with h | h
          · exact .inl h
          · exact .inr (List.mem_cons_of_mem _ h)

/-- Writing a byte keeps the canonical form. -/
theorem wf_set (m : Memory) (a : Nat) (v : Byte) (h : wf m = true) : wf (set m a v) = true := by
  induction m with
  | nil =>
    unfold set
    split
    · rfl
    · simpa [wf]
  | cons q r ih =>
    obtain ⟨b, w⟩ := q
    obtain ⟨hb, hw, hr⟩ := (wf_cons b w r).1 h
    unfold set
    split
    · rename_i hab
      split
      · exact h
      · rename_i hv
        refine (wf_cons _ _ _).2 ⟨?_, hv, h⟩
        intro c hc
        rcases List.mem_cons.1 hc with e | hc
        · subst e; exact hab
        · exact Nat.lt_trans hab (hb c hc)
    · split
      · rename_i e
        subst e
        split
        · exact hr
        · rename_i hv
          exact (wf_cons _ _ _).2 ⟨hb, hv, hr⟩
      · rename_i h1 h2
        refine (wf_cons _ _ _).2 ⟨?_, hw, ih hr⟩
        intro c hc
        rcases mem_set r a v c hc with e | hc
        · subst e
          show b < a
          omega
        · exact hb c hc

/-- A byte after a write of one byte. -/
theorem byte_set (m : Memory) (a b : Nat) (v : Byte) (h : wf m = true) : byte (set m a v) b = if b = a then v else byte m b := by
  induction m with
  | nil =>
    unfold set
    by_cases hv : v = Memory.fresh
    · simp only [hv, if_true, byte]; split <;> rfl
    · simp only [hv, if_false, byte]
      by_cases e : a = b
      · simp [e]
      · have : ¬ b = a := fun x => e x.symm
        simp [e, this]
  | cons q r ih =>
    obtain ⟨c, w⟩ := q
    obtain ⟨hc, hw, hr⟩ := (wf_cons c w r).1 h
    unfold set
    split
    · rename_i hac
      by_cases hv : v = Memory.fresh
      · simp only [hv, if_true]
        split
        · rename_i e
          subst e
          exact byte_of_lt _ _ (by
            intro x hx
            rcases List.mem_cons.1 hx with e | hx
            · subst e; exact hac
            · exact Nat.lt_trans hac (hc x hx))
        · rfl
      · simp only [hv, if_false]
        by_cases e : a = b
        · subst e; simp [byte]
        · have e' : ¬ b = a := fun x => e x.symm
          simp only [byte, e, e', if_false]
    · split
      · rename_i e
        subst e
        by_cases hv : v = Memory.fresh
        · simp only [hv, if_true]
          split
          · rename_i e
            subst e
            exact byte_of_lt _ _ hc
          · rename_i e
            have e' : ¬ a = b := fun x => e x.symm
            simp only [byte, e', if_false]
        · simp only [hv, if_false, byte]
          by_cases e : a = b
          · subst e; simp
          · have e' : ¬ b = a := fun x => e x.symm
            simp only [e, e', if_false]
      · rename_i h1 h2
        by_cases e : c = b
        · subst e
          have : ¬ c = a := fun x => h2 x.symm
          simp [byte, this]
        · simp only [byte, e, if_false]
          exact ih hr

/-- Writing a number keeps the canonical form. -/
theorem wf_write (m : Memory) (a n x : Nat) (h : wf m = true) : wf (write m a n x) = true := by
  induction n generalizing m a x with
  | zero => exact h
  | succ n ih => exact ih _ _ _ (wf_set _ _ _ h)

theorem wf_writeBytes (m : Memory) (a : Nat) (l : List Byte) (h : wf m = true) : wf (writeBytes m a l) = true := by
  induction l generalizing m a with
  | nil => exact h
  | cons v r ih => exact ih _ _ (wf_set _ _ _ h)

theorem wf_writeAt (m : Memory) (a : Nat) (l : Tbl Byte) (h : wf m = true) : wf (writeAt m a l) = true := by
  induction l generalizing m with
  | nil => exact h
  | cons p r ih => exact ih _ (wf_set _ _ _ h)

/-- A write leaves every byte outside it alone. -/
theorem byte_write_other (m : Memory) (a n x b : Nat) (h : wf m = true) (hb : b < a ∨ a + n ≤ b) : byte (write m a n x) b = byte m b := by
  induction n generalizing m a x with
  | zero => rfl
  | succ n ih =>
    have h1 : ¬ b = a := by omega
    rw [write, ih _ _ _ (wf_set _ _ _ h) (by omega), byte_set _ _ _ _ h]
    simp [h1]

/-- A byte inside a write is that byte of the number written, little-endian (R2). -/
theorem byte_write_inside (m : Memory) (a n x i : Nat) (h : wf m = true) (hi : i < n) :
    byte (write m a n x) (a + i) = BitVec.ofNat 8 (x / 256 ^ i) := by
  induction n generalizing m a x i with
  | zero => omega
  | succ n ih =>
    rw [write]
    cases i with
    | zero =>
      rw [byte_write_other _ _ _ _ _ (wf_set _ _ _ h) (by omega), byte_set _ _ _ _ h]
      simp
    | succ i =>
      have e : a + (i + 1) = a + 1 + i := by omega
      rw [e, ih _ _ _ _ (wf_set _ _ _ h) (by omega), Nat.div_div_eq_div_mul, Nat.pow_succ, Nat.mul_comm]

/-- Reading what was written gives it back, modulo its size. -/
theorem read_write (m : Memory) (a n x : Nat) (h : wf m = true) : read (write m a n x) a n = x % 256 ^ n := by
  induction n generalizing m a x with
  | zero => simp [read, Nat.mod_one]
  | succ n ih =>
    rw [write, read, byte_write_other _ _ _ _ _ (wf_set _ _ _ h) (by omega), byte_set _ _ _ _ h, ih _ _ _ (wf_set _ _ _ h)]
    simp only [if_true, BitVec.toNat_ofNat]
    have e : (256 : Nat) ^ (n + 1) = 256 * 256 ^ n := by rw [Nat.pow_succ, Nat.mul_comm]
    rw [e, Nat.mod_mul]

end Sys2Proof.Machine.Memory
end

