-- ==== Sys2Proof/Laws/PerInstr.lean ====
section
/-!
SUPPORT. Sys2Proof/Laws/PerInstr.lean: for each instruction, how many words its encoding has and which opcode its base word carries (R64,
R67, R70); a step of a unit has no words.
-/
namespace Sys2Proof

/-- The number of words of a form (R64). -/
def Form.count : Form → Nat
  | .s _ | .i _ | .b _ | .r _ => 1
  | .x _ | .sLit _ _ | .iLit _ _ => 3
  | .xLit _ _ => 5

theorem Encode.length_words (op : Nat) (f : Form) : (Encode.words op f).length = f.count := by
  cases f <;> rfl

namespace Laws.WordLen

/-- The encoding has as many words as the form says, and none for a step of a unit. -/
def Statement (i : Instr) : Prop :=
  (encode i).length = match i.form? with | some p => p.2.count | none => 0

theorem of_form (i : Instr) : Statement i := by
  unfold Statement encode
  cases h : i.form? with
  | none => rfl
  | some p => exact Encode.length_words p.1 p.2

theorem iadd (f : FormS) : Statement (.iadd f) := of_form _
theorem iaddX (f : XL) : Statement (.iaddX f) := of_form _
theorem isub (f : FormS) : Statement (.isub f) := of_form _
theorem isubX (f : XL) : Statement (.isubX f) := of_form _
theorem iaddc (f : FormS) : Statement (.iaddc f) := of_form _
theorem iaddcX (f : XL) : Statement (.iaddcX f) := of_form _
theorem imul (f : FormS) : Statement (.imul f) := of_form _
theorem imulX (f : XL) : Statement (.imulX f) := of_form _
theorem imulh (f : FormS) : Statement (.imulh f) := of_form _
theorem imulhX (f : XL) : Statement (.imulhX f) := of_form _
theorem imad (f : XL) : Statement (.imad f) := of_form _
theorem idiv (f : FormS) : Statement (.idiv f) := of_form _
theorem idivX (f : XL) : Statement (.idivX f) := of_form _
theorem irem (f : FormS) : Statement (.irem f) := of_form _
theorem iremX (f : XL) : Statement (.iremX f) := of_form _
theorem imin (f : FormS) : Statement (.imin f) := of_form _
theorem iminX (f : XL) : Statement (.iminX f) := of_form _
theorem imax (f : FormS) : Statement (.imax f) := of_form _
theorem imaxX (f : XL) : Statement (.imaxX f) := of_form _
theorem and (f : FormS) : Statement (.and f) := of_form _
theorem andX (f : XL) : Statement (.andX f) := of_form _
theorem or (f : FormS) : Statement (.or f) := of_form _
theorem orX (f : XL) : Statement (.orX f) := of_form _
theorem xor (f : FormS) : Statement (.xor f) := of_form _
theorem xorX (f : XL) : Statement (.xorX f) := of_form _
theorem andn (f : FormS) : Statement (.andn f) := of_form _
theorem andnX (f : XL) : Statement (.andnX f) := of_form _
theorem not (f : FormS) : Statement (.not f) := of_form _
theorem notX (f : FormX) : Statement (.notX f) := of_form _
theorem iabs (f : FormS) : Statement (.iabs f) := of_form _
theorem iabsX (f : FormX) : Statement (.iabsX f) := of_form _
theorem ineg (f : FormS) : Statement (.ineg f) := of_form _
theorem inegX (f : FormX) : Statement (.inegX f) := of_form _
theorem popc (f : FormS) : Statement (.popc f) := of_form _
theorem popcX (f : FormX) : Statement (.popcX f) := of_form _
theorem clz (f : FormS) : Statement (.clz f) := of_form _
theorem clzX (f : FormX) : Statement (.clzX f) := of_form _
theorem ctz (f : FormS) : Statement (.ctz f) := of_form _
theorem ctzX (f : FormX) : Statement (.ctzX f) := of_form _
theorem brev (f : FormS) : Statement (.brev f) := of_form _
theorem brevX (f : FormX) : Statement (.brevX f) := of_form _
theorem shl (f : FormS) : Statement (.shl f) := of_form _
theorem shlX (f : XL) : Statement (.shlX f) := of_form _
theorem shr (f : FormS) : Statement (.shr f) := of_form _
theorem shrX (f : XL) : Statement (.shrX f) := of_form _
theorem sha (f : FormS) : Statement (.sha f) := of_form _
theorem shaX (f : XL) : Statement (.shaX f) := of_form _
theorem rotl (f : FormS) : Statement (.rotl f) := of_form _
theorem rotlX (f : XL) : Statement (.rotlX f) := of_form _
theorem bfx (f : XL) : Statement (.bfx f) := of_form _
theorem bfi (f : XL) : Statement (.bfi f) := of_form _
theorem bperm (f : XL) : Statement (.bperm f) := of_form _
theorem sel (f : XL) : Statement (.sel f) := of_form _
theorem icmp (f : FormS) : Statement (.icmp f) := of_form _
theorem icmpX (f : XL) : Statement (.icmpX f) := of_form _
theorem plop (f : FormS) : Statement (.plop f) := of_form _
theorem plopX (f : FormX) : Statement (.plopX f) := of_form _
theorem lea (f : XL) : Statement (.lea f) := of_form _
theorem mov (f : FormS) : Statement (.mov f) := of_form _
theorem movX (f : XL) : Statement (.movX f) := of_form _
theorem movk (f : FormS) : Statement (.movk f) := of_form _
theorem movkX (f : FormX) : Statement (.movkX f) := of_form _
theorem ldi (f : FormI) : Statement (.ldi f) := of_form _
theorem ldiLiteral (f : FormI) (lit : BitVec 64) : Statement (.ldiLiteral f lit) := of_form _
theorem fadd (f : FormS) : Statement (.fadd f) := of_form _
theorem faddX (f : XL) : Statement (.faddX f) := of_form _
theorem fsub (f : FormS) : Statement (.fsub f) := of_form _
theorem fsubX (f : XL) : Statement (.fsubX f) := of_form _
theorem fmul (f : FormS) : Statement (.fmul f) := of_form _
theorem fmulX (f : XL) : Statement (.fmulX f) := of_form _
theorem ffma (f : XL) : Statement (.ffma f) := of_form _
theorem fmin (f : FormS) : Statement (.fmin f) := of_form _
theorem fminX (f : XL) : Statement (.fminX f) := of_form _
theorem fmax (f : FormS) : Statement (.fmax f) := of_form _
theorem fmaxX (f : XL) : Statement (.fmaxX f) := of_form _
theorem fcmp (f : FormS) : Statement (.fcmp f) := of_form _
theorem fcmpX (f : XL) : Statement (.fcmpX f) := of_form _
theorem fclass (f : FormS) : Statement (.fclass f) := of_form _
theorem fclassX (f : FormX) : Statement (.fclassX f) := of_form _
theorem frcp (f : FormS) : Statement (.frcp f) := of_form _
theorem frcpX (f : FormX) : Statement (.frcpX f) := of_form _
theorem frsq (f : FormS) : Statement (.frsq f) := of_form _
theorem frsqX (f : FormX) : Statement (.frsqX f) := of_form _
theorem fsqrt (f : FormS) : Statement (.fsqrt f) := of_form _
theorem fsqrtX (f : FormX) : Statement (.fsqrtX f) := of_form _
theorem fdiv (f : FormS) : Statement (.fdiv f) := of_form _
theorem fdivX (f : XL) : Statement (.fdivX f) := of_form _
theorem fexp2 (f : FormS) : Statement (.fexp2 f) := of_form _
theorem fexp2X (f : FormX) : Statement (.fexp2X f) := of_form _
theorem flog2 (f : FormS) : Statement (.flog2 f) := of_form _
theorem flog2X (f : FormX) : Statement (.flog2X f) := of_form _
theorem fsin (f : FormS) : Statement (.fsin f) := of_form _
theorem fsinX (f : FormX) : Statement (.fsinX f) := of_form _
theorem fcos (f : FormS) : Statement (.fcos f) := of_form _
theorem fcosX (f : FormX) : Statement (.fcosX f) := of_form _
theorem ftanh (f : FormS) : Statement (.ftanh f) := of_form _
theorem ftanhX (f : FormX) : Statement (.ftanhX f) := of_form _
theorem fscale (f : FormS) : Statement (.fscale f) := of_form _
theorem fscaleX (f : XL) : Statement (.fscaleX f) := of_form _
theorem frnd (f : FormS) : Statement (.frnd f) := of_form _
theorem frndX (f : FormX) : Statement (.frndX f) := of_form _
theorem cvt (f : XL) : Statement (.cvt f) := of_form _
theorem scalex (f : XL) : Statement (.scalex f) := of_form _
theorem qpack (f : XL) : Statement (.qpack f) := of_form _
theorem qunpk (f : XL) : Statement (.qunpk f) := of_form _
theorem cbenc (f : XL) : Statement (.cbenc f) := of_form _
theorem cbdec (f : XL) : Statement (.cbdec f) := of_form _
theorem vote (f : XL) : Statement (.vote f) := of_form _
theorem shfl (f : XL) : Statement (.shfl f) := of_form _
theorem bred (f : XL) : Statement (.bred f) := of_form _
theorem bscan (f : XL) : Statement (.bscan f) := of_form _
theorem matchOp (f : XL) : Statement (.matchOp f) := of_form _
theorem elect (f : XL) : Statement (.elect f) := of_form _
theorem barb (f : XL) : Statement (.barb f) := of_form _
theorem actv (f : FormS) : Statement (.actv f) := of_form _
theorem actvX (f : FormX) : Statement (.actvX f) := of_form _
theorem completingIssue (band : Nat) : Statement (.completingIssue band) := of_form _
theorem bra (f : FormB) : Statement (.bra f) := of_form _
theorem brs (f : FormX) : Statement (.brs f) := of_form _
theorem brx (f : XL) : Statement (.brx f) := of_form _
theorem pad (f : FormI) : Statement (.pad f) := of_form _
theorem call (f : FormB) : Statement (.call f) := of_form _
theorem callx (f : XL) : Statement (.callx f) := of_form _
theorem ret (f : FormI) : Statement (.ret f) := of_form _
theorem exit (f : FormI) : Statement (.exit f) := of_form _
theorem exitSucc (f : FormX) : Statement (.exitSucc f) := of_form _
theorem trap (f : FormI) : Statement (.trap f) := of_form _
theorem brk (f : FormI) : Statement (.brk f) := of_form _
theorem nop (f : FormI) : Statement (.nop f) := of_form _
theorem safe (f : FormI) : Statement (.safe f) := of_form _
theorem yield (f : FormI) : Statement (.yield f) := of_form _
theorem rep (f : FormR) : Statement (.rep f) := of_form _
theorem takeTrap (t : TrapInfo) : Statement (.takeTrap t) := of_form _
theorem tret (f : FormI) : Statement (.tret f) := of_form _
theorem sreg (f : FormI) : Statement (.sreg f) := of_form _
theorem sregX (f : FormX) : Statement (.sregX f) := of_form _
theorem sregw (f : FormX) : Statement (.sregw f) := of_form _
theorem ecall (f : FormI) : Statement (.ecall f) := of_form _
theorem ecallServiceComplete (req : Nat) : Statement (.ecallServiceComplete req) := of_form _
theorem ecallNop (req : Nat) : Statement (.ecallNop req) := of_form _
theorem ecallHalt (req : Nat) : Statement (.ecallHalt req) := of_form _
theorem engstat (req : Nat) : Statement (.engstat req) := of_form _
theorem tracker (req : Nat) : Statement (.tracker req) := of_form _
theorem release (req : Nat) : Statement (.release req) := of_form _
theorem csave (f : FormX) : Statement (.csave f) := of_form _
theorem crest (f : FormX) : Statement (.crest f) := of_form _
theorem cycle (f : FormS) : Statement (.cycle f) := of_form _
theorem perfr (f : FormX) : Statement (.perfr f) := of_form _
theorem ld (f : FormS) : Statement (.ld f) := of_form _
theorem ldX (f : FormX) : Statement (.ldX f) := of_form _
theorem st (f : FormS) : Statement (.st f) := of_form _
theorem stX (f : FormX) : Statement (.stX f) := of_form _
theorem ldk (f : FormX) : Statement (.ldk f) := of_form _
theorem ldw (f : FormS) : Statement (.ldw f) := of_form _
theorem ldwX (f : FormX) : Statement (.ldwX f) := of_form _
theorem atom (f : XL) : Statement (.atom f) := of_form _
theorem atom2 (f : XL) : Statement (.atom2 f) := of_form _
theorem red (f : XL) : Statement (.red f) := of_form _
theorem fence (f : FormS) : Statement (.fence f) := of_form _
theorem watch (f : FormS) : Statement (.watch f) := of_form _
theorem watchX (f : FormX) : Statement (.watchX f) := of_form _
theorem waitw (f : FormS) : Statement (.waitw f) := of_form _
theorem waitwX (f : FormX) : Statement (.waitwX f) := of_form _
theorem unwatch (f : FormS) : Statement (.unwatch f) := of_form _
theorem unwatchX (f : FormX) : Statement (.unwatchX f) := of_form _
theorem pref (f : FormS) : Statement (.pref f) := of_form _
theorem prefX (f : FormX) : Statement (.prefX f) := of_form _
theorem waitwTimeout (band : Nat) (thread : Nat) : Statement (.waitwTimeout band thread) := of_form _
theorem tcpy (f : FormX) : Statement (.tcpy f) := of_form _
theorem tcpyGrid (f : FormX) : Statement (.tcpyGrid f) := of_form _
theorem tileCopyComplete (copy : Nat) : Statement (.tileCopyComplete copy) := of_form _
theorem ovl (f : FormX) : Statement (.ovl f) := of_form _
theorem ovlComplete (copy : Nat) : Statement (.ovlComplete copy) := of_form _
theorem twany (f : FormS) : Statement (.twany f) := of_form _
theorem twanyX (f : XL) : Statement (.twanyX f) := of_form _
theorem twall (f : FormS) : Statement (.twall f) := of_form _
theorem twallX (f : XL) : Statement (.twallX f) := of_form _
theorem tffr (f : FormS) : Statement (.tffr f) := of_form _
theorem tffrX (f : XL) : Statement (.tffrX f) := of_form _
theorem tclr (f : FormS) : Statement (.tclr f) := of_form _
theorem tclrX (f : XL) : Statement (.tclrX f) := of_form _
theorem waitc (f : FormX) : Statement (.waitc f) := of_form _
theorem mma (f : FormX) : Statement (.mma f) := of_form _
theorem mfence (f : FormS) : Statement (.mfence f) := of_form _
theorem rslv (f : FormX) : Statement (.rslv f) := of_form _
theorem acld (f : FormX) : Statement (.acld f) := of_form _
theorem acst (f : FormX) : Statement (.acst f) := of_form _
theorem acmp (f : FormX) : Statement (.acmp f) := of_form _
theorem acz (f : FormS) : Statement (.acz f) := of_form _
theorem aczX (f : FormX) : Statement (.aczX f) := of_form _
theorem acmov (f : FormX) : Statement (.acmov f) := of_form _
theorem mxqPush (f : FormX) : Statement (.mxqPush f) := of_form _
theorem mxqInit (f : FormX) : Statement (.mxqInit f) := of_form _
theorem mptbl (f : FormX) : Statement (.mptbl f) := of_form _
theorem mcbtbl (f : FormX) : Statement (.mcbtbl f) := of_form _
theorem mroute (f : FormX) : Statement (.mroute f) := of_form _
theorem bari (f : XL) : Statement (.bari f) := of_form _
theorem barj (f : FormX) : Statement (.barj f) := of_form _
theorem bara (f : FormX) : Statement (.bara f) := of_form _
theorem barw (f : XL) : Statement (.barw f) := of_form _
theorem taskp (f : FormX) : Statement (.taskp f) := of_form _
theorem grow (f : FormI) : Statement (.grow f) := of_form _
theorem shrink (f : FormI) : Statement (.shrink f) := of_form _
theorem phase (f : FormI) : Statement (.phase f) := of_form _
theorem pncmd (f : FormX) : Statement (.pncmd f) := of_form _
theorem localLoad (acc : Nat) : Statement (.localLoad acc) := of_form _
theorem missRequest (acc : Nat) : Statement (.missRequest acc) := of_form _
theorem bufferAStore (acc : Nat) : Statement (.bufferAStore acc) := of_form _
theorem drainIntoL1 (acc : Nat) : Statement (.drainIntoL1 acc) := of_form _
theorem writeThrough (acc : Nat) : Statement (.writeThrough acc) := of_form _
theorem writeBack (core : Nat) (line : Nat) (sector : Nat) : Statement (.writeBack core line sector) := of_form _
theorem drop (core : Nat) (line : Nat) (sector : Nat) : Statement (.drop core line sector) := of_form _
theorem deliver (src : Nat) (dst : Nat) (lane : Nat) : Statement (.deliver src dst lane) := of_form _
theorem performAtTheSlice (act : SliceAct) : Statement (.performAtTheSlice act) := of_form _
theorem fill (msg : Nat) : Statement (.fill msg) := of_form _
theorem invalidate (msg : Nat) : Statement (.invalidate msg) := of_form _
theorem replay (core : Nat) (entry : Nat) : Statement (.replay core entry) := of_form _
theorem performAtABank (act : BankAct) : Statement (.performAtABank act) := of_form _
theorem sectorAgeExpiry (core : Nat) (line : Nat) (sector : Nat) : Statement (.sectorAgeExpiry core line sector) := of_form _
theorem refreshPeriodStart (die : Nat) : Statement (.refreshPeriodStart die) := of_form _
theorem enginePassGrant (cluster : Nat) (entry : Nat) : Statement (.enginePassGrant cluster entry) := of_form _
theorem passEnd (cluster : Nat) (entry : Nat) : Statement (.passEnd cluster entry) := of_form _
theorem promotion (cluster : Nat) (entry : Nat) : Statement (.promotion cluster entry) := of_form _
theorem epilogueResolve (cluster : Nat) : Statement (.epilogueResolve cluster) := of_form _
theorem epilogueSend (cluster : Nat) (block : Nat) : Statement (.epilogueSend cluster block) := of_form _
theorem blockAccepted (cluster : Nat) (block : Nat) : Statement (.blockAccepted cluster block) := of_form _
theorem tlRelease (cluster : Nat) (entry : Nat) : Statement (.tlRelease cluster entry) := of_form _
theorem engineStopRequest (cluster : Nat) (ctx : Nat) : Statement (.engineStopRequest cluster ctx) := of_form _
theorem firstUseTrap (band : Nat) : Statement (.firstUseTrap band) := of_form _
theorem ringNop (cluster : Nat) : Statement (.ringNop cluster) := of_form _
theorem ringMma (cluster : Nat) : Statement (.ringMma cluster) := of_form _
theorem ringRslv (cluster : Nat) : Statement (.ringRslv cluster) := of_form _
theorem ringAcst (cluster : Nat) : Statement (.ringAcst cluster) := of_form _
theorem ringAcz (cluster : Nat) : Statement (.ringAcz cluster) := of_form _
theorem ringHalt (cluster : Nat) : Statement (.ringHalt cluster) := of_form _
theorem ringWaitHolds (cluster : Nat) : Statement (.ringWaitHolds cluster) := of_form _
theorem freeArrival (cluster : Nat) (entry : Nat) : Statement (.freeArrival cluster entry) := of_form _
theorem doneArrival (cluster : Nat) (entry : Nat) : Statement (.doneArrival cluster entry) := of_form _
theorem spawnRecordTimeout (cluster : Nat) (group : Nat) : Statement (.spawnRecordTimeout cluster group) := of_form _
theorem loopWatchTimeout (band : Nat) : Statement (.loopWatchTimeout band) := of_form _
theorem rotationSchedule (die : Nat) : Statement (.rotationSchedule die) := of_form _
theorem homeSchedulerRequest (die : Nat) (flight : Nat) : Statement (.homeSchedulerRequest die flight) := of_form _
theorem teamSave (flight : Nat) (team : Nat) : Statement (.teamSave flight team) := of_form _
theorem teamRestore (flight : Nat) (team : Nat) (core : Nat) : Statement (.teamRestore flight team core) := of_form _
theorem starvationCheck (die : Nat) : Statement (.starvationCheck die) := of_form _
theorem taskPostAccept (post : Nat) : Statement (.taskPostAccept post) := of_form _
theorem taskDispatch (cluster : Nat) (bin : Nat) : Statement (.taskDispatch cluster bin) := of_form _
theorem taskEnd (band : Nat) : Statement (.taskEnd band) := of_form _
theorem notifyIdx (queue : Nat) (idx : Nat) : Statement (.notifyIdx queue idx) := of_form _
theorem notifyResume (queue : Nat) : Statement (.notifyResume queue) := of_form _
theorem flpop (msg : Nat) : Statement (.flpop msg) := of_form _
theorem flpush (msg : Nat) : Statement (.flpush msg) := of_form _
theorem queueSlotGrant (queue : Nat) (slot : Nat) : Statement (.queueSlotGrant queue slot) := of_form _
theorem slotTimeLimit (queue : Nat) : Statement (.slotTimeLimit queue) := of_form _
theorem headerRead (queue : Nat) : Statement (.headerRead queue) := of_form _
theorem emptySlotRetry (queue : Nat) : Statement (.emptySlotRetry queue) := of_form _
theorem packetNop (queue : Nat) : Statement (.packetNop queue) := of_form _
theorem packetLink (queue : Nat) : Statement (.packetLink queue) := of_form _
theorem packetSignal (queue : Nat) : Statement (.packetSignal queue) := of_form _
theorem packetDepend (queue : Nat) : Statement (.packetDepend queue) := of_form _
theorem packetLaunch (queue : Nat) : Statement (.packetLaunch queue) := of_form _
theorem packetGang (queue : Nat) : Statement (.packetGang queue) := of_form _
theorem gangRetry (queue : Nat) : Statement (.gangRetry queue) := of_form _
theorem gangGo (gang : Nat) (die : Nat) : Statement (.gangGo gang die) := of_form _
theorem gangAckTimeout (gang : Nat) (die : Nat) : Statement (.gangAckTimeout gang die) := of_form _
theorem flightComplete (flight : Nat) : Statement (.flightComplete flight) := of_form _
theorem emberRestart : Statement (.emberRestart) := of_form _
theorem workerHeartbeatTimeout (worker : Nat) : Statement (.workerHeartbeatTimeout worker) := of_form _
theorem contextSwitch (old : Nat) (new : Nat) : Statement (.contextSwitch old new) := of_form _
theorem quantumExpiry (ctx : Nat) : Statement (.quantumExpiry ctx) := of_form _
theorem safePointTimeout (band : Nat) : Statement (.safePointTimeout band) := of_form _
theorem attach (ctx : Nat) : Statement (.attach ctx) := of_form _
theorem detach (ctx : Nat) : Statement (.detach ctx) := of_form _
theorem halt (ctx : Nat) : Statement (.halt ctx) := of_form _
theorem resume (ctx : Nat) : Statement (.resume ctx) := of_form _
theorem step (ctx : Nat) : Statement (.step ctx) := of_form _
theorem readreg (ctx : Nat) : Statement (.readreg ctx) := of_form _
theorem writereg (ctx : Nat) : Statement (.writereg ctx) := of_form _
theorem readpos (ctx : Nat) : Statement (.readpos ctx) := of_form _
theorem setbp (ctx : Nat) : Statement (.setbp ctx) := of_form _
theorem setwp (ctx : Nat) : Statement (.setwp ctx) := of_form _
theorem readeng (ctx : Nat) : Statement (.readeng ctx) := of_form _
theorem kill (ctx : Nat) : Statement (.kill ctx) := of_form _
theorem rangeSetLoad (unit : Nat) (ctx : Nat) : Statement (.rangeSetLoad unit ctx) := of_form _
theorem tableWalk (die : Nat) (page : Nat) : Statement (.tableWalk die page) := of_form _
theorem mapdone (lo : Nat) (hi : Nat) : Statement (.mapdone lo hi) := of_form _
theorem priResponse (page : Nat) (ok : Bool) : Statement (.priResponse page ok) := of_form _
theorem setRangeTable (ctx : Nat) (table : List Nat) : Statement (.setRangeTable ctx table) := of_form _
theorem remap (lo : Nat) (hi : Nat) (scope : Nat) : Statement (.remap lo hi scope) := of_form _
theorem unmap (lo : Nat) (hi : Nat) (scope : Nat) : Statement (.unmap lo hi scope) := of_form _
theorem range (ctx : Nat) (scope : Nat) : Statement (.range ctx scope) := of_form _
theorem shootdownAck (node : Nat) : Statement (.shootdownAck node) := of_form _
theorem shootdownTimeout (node : Nat) : Statement (.shootdownTimeout node) := of_form _
theorem gridDelivery (msg : Nat) : Statement (.gridDelivery msg) := of_form _
theorem contributionArrival (msg : Nat) : Statement (.contributionArrival msg) := of_form _
theorem pncmdReg (die : Nat) : Statement (.pncmdReg die) := of_form _
theorem pncmdRule (die : Nat) : Statement (.pncmdRule die) := of_form _
theorem pncmdOpen (die : Nat) : Statement (.pncmdOpen die) := of_form _
theorem pncmdCommit (die : Nat) : Statement (.pncmdCommit die) := of_form _
theorem pncmdQuery (die : Nat) : Statement (.pncmdQuery die) := of_form _
theorem pncmdSub (die : Nat) : Statement (.pncmdSub die) := of_form _
theorem pncmdUnreg (die : Nat) : Statement (.pncmdUnreg die) := of_form _
theorem gradientBlock (die : Nat) (msg : Nat) : Statement (.gradientBlock die msg) := of_form _
theorem subscriptionDelivery (die : Nat) (sub : Nat) : Statement (.subscriptionDelivery die sub) := of_form _
theorem weightStoreSubscription (die : Nat) (sub : Nat) : Statement (.weightStoreSubscription die sub) := of_form _
theorem nodeRestart (die : Nat) : Statement (.nodeRestart die) := of_form _
theorem nodeHeartbeatTimeout (die : Nat) : Statement (.nodeHeartbeatTimeout die) := of_form _
theorem hostWindowAccess (acc : HostAcc) : Statement (.hostWindowAccess acc) := of_form _
theorem registerWrite (reg : Nat) (val : Nat) : Statement (.registerWrite reg val) := of_form _
theorem msixUnmask (vec : Nat) : Statement (.msixUnmask vec) := of_form _
theorem flitReceive (link : Nat) (flit : Flit) : Statement (.flitReceive link flit) := of_form _
theorem linkRetrain (link : Nat) : Statement (.linkRetrain link) := of_form _
theorem linkTrainingDone (link : Nat) (ok : Nat) : Statement (.linkTrainingDone link ok) := of_form _
theorem linkDisable (link : Nat) : Statement (.linkDisable link) := of_form _
theorem linkEnable (link : Nat) : Statement (.linkEnable link) := of_form _
theorem routeUnservedTimeout (rank : Nat) : Statement (.routeUnservedTimeout rank) := of_form _
theorem bandStop (band : Nat) : Statement (.bandStop band) := of_form _
theorem setFaultRing (base : Nat) (log2 : Nat) : Statement (.setFaultRing base log2) := of_form _
theorem snapshotRelease (snap : Nat) : Statement (.snapshotRelease snap) := of_form _
theorem flightKill (flight : Nat) : Statement (.flightKill flight) := of_form _
theorem killSideLogTimeout (flight : Nat) : Statement (.killSideLogTimeout flight) := of_form _
theorem correctedError (code : Nat) : Statement (.correctedError code) := of_form _
theorem uncorrectedError (code : Nat) (target : Nat) : Statement (.uncorrectedError code target) := of_form _
theorem dieDisable (die : Nat) : Statement (.dieDisable die) := of_form _
theorem peerReadmit (rank : Nat) : Statement (.peerReadmit rank) := of_form _
theorem coldReset : Statement (.coldReset) := of_form _
theorem warmReset : Statement (.warmReset) := of_form _
theorem partcfg (val : Nat) : Statement (.partcfg val) := of_form _
theorem pwrlim (val : Nat) : Statement (.pwrlim val) := of_form _
theorem powerControlTick : Statement (.powerControlTick) := of_form _
theorem setEndpointId (id : Nat) : Statement (.setEndpointId id) := of_form _
theorem getEndpointId : Statement (.getEndpointId) := of_form _
theorem getMctpVersionSupport : Statement (.getMctpVersionSupport) := of_form _
theorem getMessageTypeSupport : Statement (.getMessageTypeSupport) := of_form _
theorem sensorRead (sensor : Nat) : Statement (.sensorRead sensor) := of_form _
theorem setLunaCap (val : Nat) : Statement (.setLunaCap val) := of_form _
theorem readIdentification : Statement (.readIdentification) := of_form _
theorem readFaultRecords : Statement (.readFaultRecords) := of_form _
theorem setGridCoordinates (val : Nat) : Statement (.setGridCoordinates val) := of_form _
theorem requestWarmReset : Statement (.requestWarmReset) := of_form _
theorem coldPowerUpRequest : Statement (.coldPowerUpRequest) := of_form _
theorem refreshWindowClose (die : Nat) (bank : Nat) : Statement (.refreshWindowClose die bank) := of_form _
theorem refreshParameterChange (die : Nat) (period : Nat) (wlen : Nat) (stagger : Nat) : Statement (.refreshParameterChange die period wlen stagger) := of_form _
theorem createContext (ctx : Nat) (rec : List Nat) : Statement (.createContext ctx rec) := of_form _
theorem destroyContext (ctx : Nat) : Statement (.destroyContext ctx) := of_form _
theorem createQueue (queue : Nat) (rec : List Nat) : Statement (.createQueue queue rec) := of_form _
theorem bindQueue (queue : Nat) (rec : List Nat) : Statement (.bindQueue queue rec) := of_form _
theorem disableQueue (queue : Nat) : Statement (.disableQueue queue) := of_form _
theorem setVec (queue : Nat) (vec : Nat) : Statement (.setVec queue vec) := of_form _
theorem setGkey (ctx : Nat) (key : Nat) : Statement (.setGkey ctx key) := of_form _
theorem atsTranslationCompletion (page : Nat) (rec : List Nat) : Statement (.atsTranslationCompletion page rec) := of_form _
theorem hostCompletion (req : Nat) (rec : List Nat) : Statement (.hostCompletion req rec) := of_form _
theorem spareRowCopyDone (code : Nat) : Statement (.spareRowCopyDone code) := of_form _
theorem wstRowRepair (code : Nat) : Statement (.wstRowRepair code) := of_form _
theorem railsDown : Statement (.railsDown) := of_form _

end Laws.WordLen

end Sys2Proof
end

