-- ==== Sys2Proof/Laws/State.lean ====
section
/-!
SUPPORT. Sys2Proof/Laws/State.lean: what each named update of the state leaves in every field, so that no later proof unfolds a record
update.
-/
namespace Sys2Proof.Machine

/-! ### setBand -/

@[simp] theorem State.setBand_agenda (s : State) (k : Nat) (b : Band) : (s.setBand k b).agenda = s.agenda := rfl
@[simp] theorem State.setBand_fresh (s : State) (k : Nat) (b : Band) : (s.setBand k b).fresh = s.fresh := rfl
@[simp] theorem State.setBand_nextId (s : State) (k : Nat) (b : Band) : (s.setBand k b).nextId = s.nextId := rfl
@[simp] theorem State.setBand_issue (s : State) (k : Nat) (b : Band) : (s.setBand k b).issue = s.issue := rfl
@[simp] theorem State.setBand_mem (s : State) (k : Nat) (b : Band) : (s.setBand k b).mem = s.mem := rfl
@[simp] theorem State.setBand_bands (s : State) (k : Nat) (b : Band) : (s.setBand k b).bands = Tbl.put s.bands k b := rfl
@[simp] theorem State.setBand_lanes (s : State) (k : Nat) (b : Band) : (s.setBand k b).lanes = s.lanes := rfl
@[simp] theorem State.setBand_cores (s : State) (k : Nat) (b : Band) : (s.setBand k b).cores = s.cores := rfl
@[simp] theorem State.setBand_clusters (s : State) (k : Nat) (b : Band) : (s.setBand k b).clusters = s.clusters := rfl
@[simp] theorem State.setBand_dies (s : State) (k : Nat) (b : Band) : (s.setBand k b).dies = s.dies := rfl
@[simp] theorem State.setBand_iq (s : State) (k : Nat) (b : Band) : (s.setBand k b).iq = s.iq := rfl
@[simp] theorem State.setBand_wb (s : State) (k : Nat) (b : Band) : (s.setBand k b).wb = s.wb := rfl
@[simp] theorem State.setBand_msgs (s : State) (k : Nat) (b : Band) : (s.setBand k b).msgs = s.msgs := rfl
@[simp] theorem State.setBand_holders (s : State) (k : Nat) (b : Band) : (s.setBand k b).holders = s.holders := rfl
@[simp] theorem State.setBand_tlbs (s : State) (k : Nat) (b : Band) : (s.setBand k b).tlbs = s.tlbs := rfl
@[simp] theorem State.setBand_atc (s : State) (k : Nat) (b : Band) : (s.setBand k b).atc = s.atc := rfl
@[simp] theorem State.setBand_pageAsks (s : State) (k : Nat) (b : Band) : (s.setBand k b).pageAsks = s.pageAsks := rfl
@[simp] theorem State.setBand_rcaches (s : State) (k : Nat) (b : Band) : (s.setBand k b).rcaches = s.rcaches := rfl
@[simp] theorem State.setBand_dptbase (s : State) (k : Nat) (b : Band) : (s.setBand k b).dptbase = s.dptbase := rfl
@[simp] theorem State.setBand_outbox (s : State) (k : Nat) (b : Band) : (s.setBand k b).outbox = s.outbox := rfl
@[simp] theorem State.setBand_copies (s : State) (k : Nat) (b : Band) : (s.setBand k b).copies = s.copies := rfl
@[simp] theorem State.setBand_posts (s : State) (k : Nat) (b : Band) : (s.setBand k b).posts = s.posts := rfl
@[simp] theorem State.setBand_ecalls (s : State) (k : Nat) (b : Band) : (s.setBand k b).ecalls = s.ecalls := rfl
@[simp] theorem State.setBand_flights (s : State) (k : Nat) (b : Band) : (s.setBand k b).flights = s.flights := rfl
@[simp] theorem State.setBand_ctxs (s : State) (k : Nat) (b : Band) : (s.setBand k b).ctxs = s.ctxs := rfl
@[simp] theorem State.setBand_queues (s : State) (k : Nat) (b : Band) : (s.setBand k b).queues = s.queues := rfl
@[simp] theorem State.setBand_gangs (s : State) (k : Nat) (b : Band) : (s.setBand k b).gangs = s.gangs := rfl
@[simp] theorem State.setBand_freeSegs (s : State) (k : Nat) (b : Band) : (s.setBand k b).freeSegs = s.freeSegs := rfl
@[simp] theorem State.setBand_snaps (s : State) (k : Nat) (b : Band) : (s.setBand k b).snaps = s.snaps := rfl
@[simp] theorem State.setBand_nextFlight (s : State) (k : Nat) (b : Band) : (s.setBand k b).nextFlight = s.nextFlight := rfl
@[simp] theorem State.setBand_faultRing (s : State) (k : Nat) (b : Band) : (s.setBand k b).faultRing = s.faultRing := rfl
@[simp] theorem State.setBand_faultSeq (s : State) (k : Nat) (b : Band) : (s.setBand k b).faultSeq = s.faultSeq := rfl
@[simp] theorem State.setBand_faultLost (s : State) (k : Nat) (b : Band) : (s.setBand k b).faultLost = s.faultLost := rfl
@[simp] theorem State.setBand_faultLog (s : State) (k : Nat) (b : Band) : (s.setBand k b).faultLog = s.faultLog := rfl
@[simp] theorem State.setBand_msixTab (s : State) (k : Nat) (b : Band) : (s.setBand k b).msixTab = s.msixTab := rfl
@[simp] theorem State.setBand_msixPend (s : State) (k : Nat) (b : Band) : (s.setBand k b).msixPend = s.msixPend := rfl
@[simp] theorem State.setBand_rank (s : State) (k : Nat) (b : Band) : (s.setBand k b).rank = s.rank := rfl
@[simp] theorem State.setBand_nextRank (s : State) (k : Nat) (b : Band) : (s.setBand k b).nextRank = s.nextRank := rfl
@[simp] theorem State.setBand_gridMap (s : State) (k : Nat) (b : Band) : (s.setBand k b).gridMap = s.gridMap := rfl
@[simp] theorem State.setBand_links (s : State) (k : Nat) (b : Band) : (s.setBand k b).links = s.links := rfl
@[simp] theorem State.setBand_routes (s : State) (k : Nat) (b : Band) : (s.setBand k b).routes = s.routes := rfl
@[simp] theorem State.setBand_outq (s : State) (k : Nat) (b : Band) : (s.setBand k b).outq = s.outq := rfl
@[simp] theorem State.setBand_inbox (s : State) (k : Nat) (b : Band) : (s.setBand k b).inbox = s.inbox := rfl
@[simp] theorem State.setBand_flying (s : State) (k : Nat) (b : Band) : (s.setBand k b).flying = s.flying := rfl
@[simp] theorem State.setBand_unserved (s : State) (k : Nat) (b : Band) : (s.setBand k b).unserved = s.unserved := rfl
@[simp] theorem State.setBand_redBufs (s : State) (k : Nat) (b : Band) : (s.setBand k b).redBufs = s.redBufs := rfl
@[simp] theorem State.setBand_nodes (s : State) (k : Nat) (b : Band) : (s.setBand k b).nodes = s.nodes := rfl
@[simp] theorem State.setBand_shoots (s : State) (k : Nat) (b : Band) : (s.setBand k b).shoots = s.shoots := rfl
@[simp] theorem State.setBand_sdto (s : State) (k : Nat) (b : Band) : (s.setBand k b).sdto = s.sdto := rfl
@[simp] theorem State.setBand_wbase (s : State) (k : Nat) (b : Band) : (s.setBand k b).wbase = s.wbase := rfl
@[simp] theorem State.setBand_wen (s : State) (k : Nat) (b : Band) : (s.setBand k b).wen = s.wen := rfl
@[simp] theorem State.setBand_npart (s : State) (k : Nat) (b : Band) : (s.setBand k b).npart = s.npart := rfl
@[simp] theorem State.setBand_pwrlim (s : State) (k : Nat) (b : Band) : (s.setBand k b).pwrlim = s.pwrlim := rfl
@[simp] theorem State.setBand_lunaCap (s : State) (k : Nat) (b : Band) : (s.setBand k b).lunaCap = s.lunaCap := rfl
@[simp] theorem State.setBand_throtWhy (s : State) (k : Nat) (b : Band) : (s.setBand k b).throtWhy = s.throtWhy := rfl
@[simp] theorem State.setBand_quiet (s : State) (k : Nat) (b : Band) : (s.setBand k b).quiet = s.quiet := rfl
@[simp] theorem State.setBand_ready (s : State) (k : Nat) (b : Band) : (s.setBand k b).ready = s.ready := rfl
@[simp] theorem State.setBand_fatal (s : State) (k : Nat) (b : Band) : (s.setBand k b).fatal = s.fatal := rfl
@[simp] theorem State.setBand_therm (s : State) (k : Nat) (b : Band) : (s.setBand k b).therm = s.therm := rfl
@[simp] theorem State.setBand_powered (s : State) (k : Nat) (b : Band) : (s.setBand k b).powered = s.powered := rfl
@[simp] theorem State.setBand_warm (s : State) (k : Nat) (b : Band) : (s.setBand k b).warm = s.warm := rfl
@[simp] theorem State.setBand_eid (s : State) (k : Nat) (b : Band) : (s.setBand k b).eid = s.eid := rfl
@[simp] theorem State.setBand_stamps (s : State) (k : Nat) (b : Band) : (s.setBand k b).stamps = s.stamps := rfl
@[simp] theorem State.setBand_repairs (s : State) (k : Nat) (b : Band) : (s.setBand k b).repairs = s.repairs := rfl
@[simp] theorem State.setBand_spares (s : State) (k : Nat) (b : Band) : (s.setBand k b).spares = s.spares := rfl
@[simp] theorem State.setBand_badWays (s : State) (k : Nat) (b : Band) : (s.setBand k b).badWays = s.badWays := rfl
@[simp] theorem State.setBand_rowHolds (s : State) (k : Nat) (b : Band) : (s.setBand k b).rowHolds = s.rowHolds := rfl
@[simp] theorem State.setBand_poison (s : State) (k : Nat) (b : Band) : (s.setBand k b).poison = s.poison := rfl
@[simp] theorem State.setBand_emberStamps (s : State) (k : Nat) (b : Band) : (s.setBand k b).emberStamps = s.emberStamps := rfl
@[simp] theorem State.setBand_fwCycle (s : State) (k : Nat) (b : Band) : (s.setBand k b).fwCycle = s.fwCycle := rfl

/-! ### setCore -/

@[simp] theorem State.setCore_agenda (s : State) (k : Nat) (c : Core) : (s.setCore k c).agenda = s.agenda := rfl
@[simp] theorem State.setCore_fresh (s : State) (k : Nat) (c : Core) : (s.setCore k c).fresh = s.fresh := rfl
@[simp] theorem State.setCore_nextId (s : State) (k : Nat) (c : Core) : (s.setCore k c).nextId = s.nextId := rfl
@[simp] theorem State.setCore_issue (s : State) (k : Nat) (c : Core) : (s.setCore k c).issue = s.issue := rfl
@[simp] theorem State.setCore_mem (s : State) (k : Nat) (c : Core) : (s.setCore k c).mem = s.mem := rfl
@[simp] theorem State.setCore_bands (s : State) (k : Nat) (c : Core) : (s.setCore k c).bands = s.bands := rfl
@[simp] theorem State.setCore_lanes (s : State) (k : Nat) (c : Core) : (s.setCore k c).lanes = s.lanes := rfl
@[simp] theorem State.setCore_cores (s : State) (k : Nat) (c : Core) : (s.setCore k c).cores = Tbl.put s.cores k c := rfl
@[simp] theorem State.setCore_clusters (s : State) (k : Nat) (c : Core) : (s.setCore k c).clusters = s.clusters := rfl
@[simp] theorem State.setCore_dies (s : State) (k : Nat) (c : Core) : (s.setCore k c).dies = s.dies := rfl
@[simp] theorem State.setCore_iq (s : State) (k : Nat) (c : Core) : (s.setCore k c).iq = s.iq := rfl
@[simp] theorem State.setCore_wb (s : State) (k : Nat) (c : Core) : (s.setCore k c).wb = s.wb := rfl
@[simp] theorem State.setCore_msgs (s : State) (k : Nat) (c : Core) : (s.setCore k c).msgs = s.msgs := rfl
@[simp] theorem State.setCore_holders (s : State) (k : Nat) (c : Core) : (s.setCore k c).holders = s.holders := rfl
@[simp] theorem State.setCore_tlbs (s : State) (k : Nat) (c : Core) : (s.setCore k c).tlbs = s.tlbs := rfl
@[simp] theorem State.setCore_atc (s : State) (k : Nat) (c : Core) : (s.setCore k c).atc = s.atc := rfl
@[simp] theorem State.setCore_pageAsks (s : State) (k : Nat) (c : Core) : (s.setCore k c).pageAsks = s.pageAsks := rfl
@[simp] theorem State.setCore_rcaches (s : State) (k : Nat) (c : Core) : (s.setCore k c).rcaches = s.rcaches := rfl
@[simp] theorem State.setCore_dptbase (s : State) (k : Nat) (c : Core) : (s.setCore k c).dptbase = s.dptbase := rfl
@[simp] theorem State.setCore_outbox (s : State) (k : Nat) (c : Core) : (s.setCore k c).outbox = s.outbox := rfl
@[simp] theorem State.setCore_copies (s : State) (k : Nat) (c : Core) : (s.setCore k c).copies = s.copies := rfl
@[simp] theorem State.setCore_posts (s : State) (k : Nat) (c : Core) : (s.setCore k c).posts = s.posts := rfl
@[simp] theorem State.setCore_ecalls (s : State) (k : Nat) (c : Core) : (s.setCore k c).ecalls = s.ecalls := rfl
@[simp] theorem State.setCore_flights (s : State) (k : Nat) (c : Core) : (s.setCore k c).flights = s.flights := rfl
@[simp] theorem State.setCore_ctxs (s : State) (k : Nat) (c : Core) : (s.setCore k c).ctxs = s.ctxs := rfl
@[simp] theorem State.setCore_queues (s : State) (k : Nat) (c : Core) : (s.setCore k c).queues = s.queues := rfl
@[simp] theorem State.setCore_gangs (s : State) (k : Nat) (c : Core) : (s.setCore k c).gangs = s.gangs := rfl
@[simp] theorem State.setCore_freeSegs (s : State) (k : Nat) (c : Core) : (s.setCore k c).freeSegs = s.freeSegs := rfl
@[simp] theorem State.setCore_snaps (s : State) (k : Nat) (c : Core) : (s.setCore k c).snaps = s.snaps := rfl
@[simp] theorem State.setCore_nextFlight (s : State) (k : Nat) (c : Core) : (s.setCore k c).nextFlight = s.nextFlight := rfl
@[simp] theorem State.setCore_faultRing (s : State) (k : Nat) (c : Core) : (s.setCore k c).faultRing = s.faultRing := rfl
@[simp] theorem State.setCore_faultSeq (s : State) (k : Nat) (c : Core) : (s.setCore k c).faultSeq = s.faultSeq := rfl
@[simp] theorem State.setCore_faultLost (s : State) (k : Nat) (c : Core) : (s.setCore k c).faultLost = s.faultLost := rfl
@[simp] theorem State.setCore_faultLog (s : State) (k : Nat) (c : Core) : (s.setCore k c).faultLog = s.faultLog := rfl
@[simp] theorem State.setCore_msixTab (s : State) (k : Nat) (c : Core) : (s.setCore k c).msixTab = s.msixTab := rfl
@[simp] theorem State.setCore_msixPend (s : State) (k : Nat) (c : Core) : (s.setCore k c).msixPend = s.msixPend := rfl
@[simp] theorem State.setCore_rank (s : State) (k : Nat) (c : Core) : (s.setCore k c).rank = s.rank := rfl
@[simp] theorem State.setCore_nextRank (s : State) (k : Nat) (c : Core) : (s.setCore k c).nextRank = s.nextRank := rfl
@[simp] theorem State.setCore_gridMap (s : State) (k : Nat) (c : Core) : (s.setCore k c).gridMap = s.gridMap := rfl
@[simp] theorem State.setCore_links (s : State) (k : Nat) (c : Core) : (s.setCore k c).links = s.links := rfl
@[simp] theorem State.setCore_routes (s : State) (k : Nat) (c : Core) : (s.setCore k c).routes = s.routes := rfl
@[simp] theorem State.setCore_outq (s : State) (k : Nat) (c : Core) : (s.setCore k c).outq = s.outq := rfl
@[simp] theorem State.setCore_inbox (s : State) (k : Nat) (c : Core) : (s.setCore k c).inbox = s.inbox := rfl
@[simp] theorem State.setCore_flying (s : State) (k : Nat) (c : Core) : (s.setCore k c).flying = s.flying := rfl
@[simp] theorem State.setCore_unserved (s : State) (k : Nat) (c : Core) : (s.setCore k c).unserved = s.unserved := rfl
@[simp] theorem State.setCore_redBufs (s : State) (k : Nat) (c : Core) : (s.setCore k c).redBufs = s.redBufs := rfl
@[simp] theorem State.setCore_nodes (s : State) (k : Nat) (c : Core) : (s.setCore k c).nodes = s.nodes := rfl
@[simp] theorem State.setCore_shoots (s : State) (k : Nat) (c : Core) : (s.setCore k c).shoots = s.shoots := rfl
@[simp] theorem State.setCore_sdto (s : State) (k : Nat) (c : Core) : (s.setCore k c).sdto = s.sdto := rfl
@[simp] theorem State.setCore_wbase (s : State) (k : Nat) (c : Core) : (s.setCore k c).wbase = s.wbase := rfl
@[simp] theorem State.setCore_wen (s : State) (k : Nat) (c : Core) : (s.setCore k c).wen = s.wen := rfl
@[simp] theorem State.setCore_npart (s : State) (k : Nat) (c : Core) : (s.setCore k c).npart = s.npart := rfl
@[simp] theorem State.setCore_pwrlim (s : State) (k : Nat) (c : Core) : (s.setCore k c).pwrlim = s.pwrlim := rfl
@[simp] theorem State.setCore_lunaCap (s : State) (k : Nat) (c : Core) : (s.setCore k c).lunaCap = s.lunaCap := rfl
@[simp] theorem State.setCore_throtWhy (s : State) (k : Nat) (c : Core) : (s.setCore k c).throtWhy = s.throtWhy := rfl
@[simp] theorem State.setCore_quiet (s : State) (k : Nat) (c : Core) : (s.setCore k c).quiet = s.quiet := rfl
@[simp] theorem State.setCore_ready (s : State) (k : Nat) (c : Core) : (s.setCore k c).ready = s.ready := rfl
@[simp] theorem State.setCore_fatal (s : State) (k : Nat) (c : Core) : (s.setCore k c).fatal = s.fatal := rfl
@[simp] theorem State.setCore_therm (s : State) (k : Nat) (c : Core) : (s.setCore k c).therm = s.therm := rfl
@[simp] theorem State.setCore_powered (s : State) (k : Nat) (c : Core) : (s.setCore k c).powered = s.powered := rfl
@[simp] theorem State.setCore_warm (s : State) (k : Nat) (c : Core) : (s.setCore k c).warm = s.warm := rfl
@[simp] theorem State.setCore_eid (s : State) (k : Nat) (c : Core) : (s.setCore k c).eid = s.eid := rfl
@[simp] theorem State.setCore_stamps (s : State) (k : Nat) (c : Core) : (s.setCore k c).stamps = s.stamps := rfl
@[simp] theorem State.setCore_repairs (s : State) (k : Nat) (c : Core) : (s.setCore k c).repairs = s.repairs := rfl
@[simp] theorem State.setCore_spares (s : State) (k : Nat) (c : Core) : (s.setCore k c).spares = s.spares := rfl
@[simp] theorem State.setCore_badWays (s : State) (k : Nat) (c : Core) : (s.setCore k c).badWays = s.badWays := rfl
@[simp] theorem State.setCore_rowHolds (s : State) (k : Nat) (c : Core) : (s.setCore k c).rowHolds = s.rowHolds := rfl
@[simp] theorem State.setCore_poison (s : State) (k : Nat) (c : Core) : (s.setCore k c).poison = s.poison := rfl
@[simp] theorem State.setCore_emberStamps (s : State) (k : Nat) (c : Core) : (s.setCore k c).emberStamps = s.emberStamps := rfl
@[simp] theorem State.setCore_fwCycle (s : State) (k : Nat) (c : Core) : (s.setCore k c).fwCycle = s.fwCycle := rfl

/-! ### setCluster -/

@[simp] theorem State.setCluster_agenda (s : State) (k : Nat) (c : Cluster) : (s.setCluster k c).agenda = s.agenda := rfl
@[simp] theorem State.setCluster_fresh (s : State) (k : Nat) (c : Cluster) : (s.setCluster k c).fresh = s.fresh := rfl
@[simp] theorem State.setCluster_nextId (s : State) (k : Nat) (c : Cluster) : (s.setCluster k c).nextId = s.nextId := rfl
@[simp] theorem State.setCluster_issue (s : State) (k : Nat) (c : Cluster) : (s.setCluster k c).issue = s.issue := rfl
@[simp] theorem State.setCluster_mem (s : State) (k : Nat) (c : Cluster) : (s.setCluster k c).mem = s.mem := rfl
@[simp] theorem State.setCluster_bands (s : State) (k : Nat) (c : Cluster) : (s.setCluster k c).bands = s.bands := rfl
@[simp] theorem State.setCluster_lanes (s : State) (k : Nat) (c : Cluster) : (s.setCluster k c).lanes = s.lanes := rfl
@[simp] theorem State.setCluster_cores (s : State) (k : Nat) (c : Cluster) : (s.setCluster k c).cores = s.cores := rfl
@[simp] theorem State.setCluster_clusters (s : State) (k : Nat) (c : Cluster) : (s.setCluster k c).clusters = Tbl.put s.clusters k c := rfl
@[simp] theorem State.setCluster_dies (s : State) (k : Nat) (c : Cluster) : (s.setCluster k c).dies = s.dies := rfl
@[simp] theorem State.setCluster_iq (s : State) (k : Nat) (c : Cluster) : (s.setCluster k c).iq = s.iq := rfl
@[simp] theorem State.setCluster_wb (s : State) (k : Nat) (c : Cluster) : (s.setCluster k c).wb = s.wb := rfl
@[simp] theorem State.setCluster_msgs (s : State) (k : Nat) (c : Cluster) : (s.setCluster k c).msgs = s.msgs := rfl
@[simp] theorem State.setCluster_holders (s : State) (k : Nat) (c : Cluster) : (s.setCluster k c).holders = s.holders := rfl
@[simp] theorem State.setCluster_tlbs (s : State) (k : Nat) (c : Cluster) : (s.setCluster k c).tlbs = s.tlbs := rfl
@[simp] theorem State.setCluster_atc (s : State) (k : Nat) (c : Cluster) : (s.setCluster k c).atc = s.atc := rfl
@[simp] theorem State.setCluster_pageAsks (s : State) (k : Nat) (c : Cluster) : (s.setCluster k c).pageAsks = s.pageAsks := rfl
@[simp] theorem State.setCluster_rcaches (s : State) (k : Nat) (c : Cluster) : (s.setCluster k c).rcaches = s.rcaches := rfl
@[simp] theorem State.setCluster_dptbase (s : State) (k : Nat) (c : Cluster) : (s.setCluster k c).dptbase = s.dptbase := rfl
@[simp] theorem State.setCluster_outbox (s : State) (k : Nat) (c : Cluster) : (s.setCluster k c).outbox = s.outbox := rfl
@[simp] theorem State.setCluster_copies (s : State) (k : Nat) (c : Cluster) : (s.setCluster k c).copies = s.copies := rfl
@[simp] theorem State.setCluster_posts (s : State) (k : Nat) (c : Cluster) : (s.setCluster k c).posts = s.posts := rfl
@[simp] theorem State.setCluster_ecalls (s : State) (k : Nat) (c : Cluster) : (s.setCluster k c).ecalls = s.ecalls := rfl
@[simp] theorem State.setCluster_flights (s : State) (k : Nat) (c : Cluster) : (s.setCluster k c).flights = s.flights := rfl
@[simp] theorem State.setCluster_ctxs (s : State) (k : Nat) (c : Cluster) : (s.setCluster k c).ctxs = s.ctxs := rfl
@[simp] theorem State.setCluster_queues (s : State) (k : Nat) (c : Cluster) : (s.setCluster k c).queues = s.queues := rfl
@[simp] theorem State.setCluster_gangs (s : State) (k : Nat) (c : Cluster) : (s.setCluster k c).gangs = s.gangs := rfl
@[simp] theorem State.setCluster_freeSegs (s : State) (k : Nat) (c : Cluster) : (s.setCluster k c).freeSegs = s.freeSegs := rfl
@[simp] theorem State.setCluster_snaps (s : State) (k : Nat) (c : Cluster) : (s.setCluster k c).snaps = s.snaps := rfl
@[simp] theorem State.setCluster_nextFlight (s : State) (k : Nat) (c : Cluster) : (s.setCluster k c).nextFlight = s.nextFlight := rfl
@[simp] theorem State.setCluster_faultRing (s : State) (k : Nat) (c : Cluster) : (s.setCluster k c).faultRing = s.faultRing := rfl
@[simp] theorem State.setCluster_faultSeq (s : State) (k : Nat) (c : Cluster) : (s.setCluster k c).faultSeq = s.faultSeq := rfl
@[simp] theorem State.setCluster_faultLost (s : State) (k : Nat) (c : Cluster) : (s.setCluster k c).faultLost = s.faultLost := rfl
@[simp] theorem State.setCluster_faultLog (s : State) (k : Nat) (c : Cluster) : (s.setCluster k c).faultLog = s.faultLog := rfl
@[simp] theorem State.setCluster_msixTab (s : State) (k : Nat) (c : Cluster) : (s.setCluster k c).msixTab = s.msixTab := rfl
@[simp] theorem State.setCluster_msixPend (s : State) (k : Nat) (c : Cluster) : (s.setCluster k c).msixPend = s.msixPend := rfl
@[simp] theorem State.setCluster_rank (s : State) (k : Nat) (c : Cluster) : (s.setCluster k c).rank = s.rank := rfl
@[simp] theorem State.setCluster_nextRank (s : State) (k : Nat) (c : Cluster) : (s.setCluster k c).nextRank = s.nextRank := rfl
@[simp] theorem State.setCluster_gridMap (s : State) (k : Nat) (c : Cluster) : (s.setCluster k c).gridMap = s.gridMap := rfl
@[simp] theorem State.setCluster_links (s : State) (k : Nat) (c : Cluster) : (s.setCluster k c).links = s.links := rfl
@[simp] theorem State.setCluster_routes (s : State) (k : Nat) (c : Cluster) : (s.setCluster k c).routes = s.routes := rfl
@[simp] theorem State.setCluster_outq (s : State) (k : Nat) (c : Cluster) : (s.setCluster k c).outq = s.outq := rfl
@[simp] theorem State.setCluster_inbox (s : State) (k : Nat) (c : Cluster) : (s.setCluster k c).inbox = s.inbox := rfl
@[simp] theorem State.setCluster_flying (s : State) (k : Nat) (c : Cluster) : (s.setCluster k c).flying = s.flying := rfl
@[simp] theorem State.setCluster_unserved (s : State) (k : Nat) (c : Cluster) : (s.setCluster k c).unserved = s.unserved := rfl
@[simp] theorem State.setCluster_redBufs (s : State) (k : Nat) (c : Cluster) : (s.setCluster k c).redBufs = s.redBufs := rfl
@[simp] theorem State.setCluster_nodes (s : State) (k : Nat) (c : Cluster) : (s.setCluster k c).nodes = s.nodes := rfl
@[simp] theorem State.setCluster_shoots (s : State) (k : Nat) (c : Cluster) : (s.setCluster k c).shoots = s.shoots := rfl
@[simp] theorem State.setCluster_sdto (s : State) (k : Nat) (c : Cluster) : (s.setCluster k c).sdto = s.sdto := rfl
@[simp] theorem State.setCluster_wbase (s : State) (k : Nat) (c : Cluster) : (s.setCluster k c).wbase = s.wbase := rfl
@[simp] theorem State.setCluster_wen (s : State) (k : Nat) (c : Cluster) : (s.setCluster k c).wen = s.wen := rfl
@[simp] theorem State.setCluster_npart (s : State) (k : Nat) (c : Cluster) : (s.setCluster k c).npart = s.npart := rfl
@[simp] theorem State.setCluster_pwrlim (s : State) (k : Nat) (c : Cluster) : (s.setCluster k c).pwrlim = s.pwrlim := rfl
@[simp] theorem State.setCluster_lunaCap (s : State) (k : Nat) (c : Cluster) : (s.setCluster k c).lunaCap = s.lunaCap := rfl
@[simp] theorem State.setCluster_throtWhy (s : State) (k : Nat) (c : Cluster) : (s.setCluster k c).throtWhy = s.throtWhy := rfl
@[simp] theorem State.setCluster_quiet (s : State) (k : Nat) (c : Cluster) : (s.setCluster k c).quiet = s.quiet := rfl
@[simp] theorem State.setCluster_ready (s : State) (k : Nat) (c : Cluster) : (s.setCluster k c).ready = s.ready := rfl
@[simp] theorem State.setCluster_fatal (s : State) (k : Nat) (c : Cluster) : (s.setCluster k c).fatal = s.fatal := rfl
@[simp] theorem State.setCluster_therm (s : State) (k : Nat) (c : Cluster) : (s.setCluster k c).therm = s.therm := rfl
@[simp] theorem State.setCluster_powered (s : State) (k : Nat) (c : Cluster) : (s.setCluster k c).powered = s.powered := rfl
@[simp] theorem State.setCluster_warm (s : State) (k : Nat) (c : Cluster) : (s.setCluster k c).warm = s.warm := rfl
@[simp] theorem State.setCluster_eid (s : State) (k : Nat) (c : Cluster) : (s.setCluster k c).eid = s.eid := rfl
@[simp] theorem State.setCluster_stamps (s : State) (k : Nat) (c : Cluster) : (s.setCluster k c).stamps = s.stamps := rfl
@[simp] theorem State.setCluster_repairs (s : State) (k : Nat) (c : Cluster) : (s.setCluster k c).repairs = s.repairs := rfl
@[simp] theorem State.setCluster_spares (s : State) (k : Nat) (c : Cluster) : (s.setCluster k c).spares = s.spares := rfl
@[simp] theorem State.setCluster_badWays (s : State) (k : Nat) (c : Cluster) : (s.setCluster k c).badWays = s.badWays := rfl
@[simp] theorem State.setCluster_rowHolds (s : State) (k : Nat) (c : Cluster) : (s.setCluster k c).rowHolds = s.rowHolds := rfl
@[simp] theorem State.setCluster_poison (s : State) (k : Nat) (c : Cluster) : (s.setCluster k c).poison = s.poison := rfl
@[simp] theorem State.setCluster_emberStamps (s : State) (k : Nat) (c : Cluster) : (s.setCluster k c).emberStamps = s.emberStamps := rfl
@[simp] theorem State.setCluster_fwCycle (s : State) (k : Nat) (c : Cluster) : (s.setCluster k c).fwCycle = s.fwCycle := rfl

/-! ### setDie -/

@[simp] theorem State.setDie_agenda (s : State) (k : Nat) (d : Die) : (s.setDie k d).agenda = s.agenda := rfl
@[simp] theorem State.setDie_fresh (s : State) (k : Nat) (d : Die) : (s.setDie k d).fresh = s.fresh := rfl
@[simp] theorem State.setDie_nextId (s : State) (k : Nat) (d : Die) : (s.setDie k d).nextId = s.nextId := rfl
@[simp] theorem State.setDie_issue (s : State) (k : Nat) (d : Die) : (s.setDie k d).issue = s.issue := rfl
@[simp] theorem State.setDie_mem (s : State) (k : Nat) (d : Die) : (s.setDie k d).mem = s.mem := rfl
@[simp] theorem State.setDie_bands (s : State) (k : Nat) (d : Die) : (s.setDie k d).bands = s.bands := rfl
@[simp] theorem State.setDie_lanes (s : State) (k : Nat) (d : Die) : (s.setDie k d).lanes = s.lanes := rfl
@[simp] theorem State.setDie_cores (s : State) (k : Nat) (d : Die) : (s.setDie k d).cores = s.cores := rfl
@[simp] theorem State.setDie_clusters (s : State) (k : Nat) (d : Die) : (s.setDie k d).clusters = s.clusters := rfl
@[simp] theorem State.setDie_dies (s : State) (k : Nat) (d : Die) : (s.setDie k d).dies = Tbl.put s.dies k d := rfl
@[simp] theorem State.setDie_iq (s : State) (k : Nat) (d : Die) : (s.setDie k d).iq = s.iq := rfl
@[simp] theorem State.setDie_wb (s : State) (k : Nat) (d : Die) : (s.setDie k d).wb = s.wb := rfl
@[simp] theorem State.setDie_msgs (s : State) (k : Nat) (d : Die) : (s.setDie k d).msgs = s.msgs := rfl
@[simp] theorem State.setDie_holders (s : State) (k : Nat) (d : Die) : (s.setDie k d).holders = s.holders := rfl
@[simp] theorem State.setDie_tlbs (s : State) (k : Nat) (d : Die) : (s.setDie k d).tlbs = s.tlbs := rfl
@[simp] theorem State.setDie_atc (s : State) (k : Nat) (d : Die) : (s.setDie k d).atc = s.atc := rfl
@[simp] theorem State.setDie_pageAsks (s : State) (k : Nat) (d : Die) : (s.setDie k d).pageAsks = s.pageAsks := rfl
@[simp] theorem State.setDie_rcaches (s : State) (k : Nat) (d : Die) : (s.setDie k d).rcaches = s.rcaches := rfl
@[simp] theorem State.setDie_dptbase (s : State) (k : Nat) (d : Die) : (s.setDie k d).dptbase = s.dptbase := rfl
@[simp] theorem State.setDie_outbox (s : State) (k : Nat) (d : Die) : (s.setDie k d).outbox = s.outbox := rfl
@[simp] theorem State.setDie_copies (s : State) (k : Nat) (d : Die) : (s.setDie k d).copies = s.copies := rfl
@[simp] theorem State.setDie_posts (s : State) (k : Nat) (d : Die) : (s.setDie k d).posts = s.posts := rfl
@[simp] theorem State.setDie_ecalls (s : State) (k : Nat) (d : Die) : (s.setDie k d).ecalls = s.ecalls := rfl
@[simp] theorem State.setDie_flights (s : State) (k : Nat) (d : Die) : (s.setDie k d).flights = s.flights := rfl
@[simp] theorem State.setDie_ctxs (s : State) (k : Nat) (d : Die) : (s.setDie k d).ctxs = s.ctxs := rfl
@[simp] theorem State.setDie_queues (s : State) (k : Nat) (d : Die) : (s.setDie k d).queues = s.queues := rfl
@[simp] theorem State.setDie_gangs (s : State) (k : Nat) (d : Die) : (s.setDie k d).gangs = s.gangs := rfl
@[simp] theorem State.setDie_freeSegs (s : State) (k : Nat) (d : Die) : (s.setDie k d).freeSegs = s.freeSegs := rfl
@[simp] theorem State.setDie_snaps (s : State) (k : Nat) (d : Die) : (s.setDie k d).snaps = s.snaps := rfl
@[simp] theorem State.setDie_nextFlight (s : State) (k : Nat) (d : Die) : (s.setDie k d).nextFlight = s.nextFlight := rfl
@[simp] theorem State.setDie_faultRing (s : State) (k : Nat) (d : Die) : (s.setDie k d).faultRing = s.faultRing := rfl
@[simp] theorem State.setDie_faultSeq (s : State) (k : Nat) (d : Die) : (s.setDie k d).faultSeq = s.faultSeq := rfl
@[simp] theorem State.setDie_faultLost (s : State) (k : Nat) (d : Die) : (s.setDie k d).faultLost = s.faultLost := rfl
@[simp] theorem State.setDie_faultLog (s : State) (k : Nat) (d : Die) : (s.setDie k d).faultLog = s.faultLog := rfl
@[simp] theorem State.setDie_msixTab (s : State) (k : Nat) (d : Die) : (s.setDie k d).msixTab = s.msixTab := rfl
@[simp] theorem State.setDie_msixPend (s : State) (k : Nat) (d : Die) : (s.setDie k d).msixPend = s.msixPend := rfl
@[simp] theorem State.setDie_rank (s : State) (k : Nat) (d : Die) : (s.setDie k d).rank = s.rank := rfl
@[simp] theorem State.setDie_nextRank (s : State) (k : Nat) (d : Die) : (s.setDie k d).nextRank = s.nextRank := rfl
@[simp] theorem State.setDie_gridMap (s : State) (k : Nat) (d : Die) : (s.setDie k d).gridMap = s.gridMap := rfl
@[simp] theorem State.setDie_links (s : State) (k : Nat) (d : Die) : (s.setDie k d).links = s.links := rfl
@[simp] theorem State.setDie_routes (s : State) (k : Nat) (d : Die) : (s.setDie k d).routes = s.routes := rfl
@[simp] theorem State.setDie_outq (s : State) (k : Nat) (d : Die) : (s.setDie k d).outq = s.outq := rfl
@[simp] theorem State.setDie_inbox (s : State) (k : Nat) (d : Die) : (s.setDie k d).inbox = s.inbox := rfl
@[simp] theorem State.setDie_flying (s : State) (k : Nat) (d : Die) : (s.setDie k d).flying = s.flying := rfl
@[simp] theorem State.setDie_unserved (s : State) (k : Nat) (d : Die) : (s.setDie k d).unserved = s.unserved := rfl
@[simp] theorem State.setDie_redBufs (s : State) (k : Nat) (d : Die) : (s.setDie k d).redBufs = s.redBufs := rfl
@[simp] theorem State.setDie_nodes (s : State) (k : Nat) (d : Die) : (s.setDie k d).nodes = s.nodes := rfl
@[simp] theorem State.setDie_shoots (s : State) (k : Nat) (d : Die) : (s.setDie k d).shoots = s.shoots := rfl
@[simp] theorem State.setDie_sdto (s : State) (k : Nat) (d : Die) : (s.setDie k d).sdto = s.sdto := rfl
@[simp] theorem State.setDie_wbase (s : State) (k : Nat) (d : Die) : (s.setDie k d).wbase = s.wbase := rfl
@[simp] theorem State.setDie_wen (s : State) (k : Nat) (d : Die) : (s.setDie k d).wen = s.wen := rfl
@[simp] theorem State.setDie_npart (s : State) (k : Nat) (d : Die) : (s.setDie k d).npart = s.npart := rfl
@[simp] theorem State.setDie_pwrlim (s : State) (k : Nat) (d : Die) : (s.setDie k d).pwrlim = s.pwrlim := rfl
@[simp] theorem State.setDie_lunaCap (s : State) (k : Nat) (d : Die) : (s.setDie k d).lunaCap = s.lunaCap := rfl
@[simp] theorem State.setDie_throtWhy (s : State) (k : Nat) (d : Die) : (s.setDie k d).throtWhy = s.throtWhy := rfl
@[simp] theorem State.setDie_quiet (s : State) (k : Nat) (d : Die) : (s.setDie k d).quiet = s.quiet := rfl
@[simp] theorem State.setDie_ready (s : State) (k : Nat) (d : Die) : (s.setDie k d).ready = s.ready := rfl
@[simp] theorem State.setDie_fatal (s : State) (k : Nat) (d : Die) : (s.setDie k d).fatal = s.fatal := rfl
@[simp] theorem State.setDie_therm (s : State) (k : Nat) (d : Die) : (s.setDie k d).therm = s.therm := rfl
@[simp] theorem State.setDie_powered (s : State) (k : Nat) (d : Die) : (s.setDie k d).powered = s.powered := rfl
@[simp] theorem State.setDie_warm (s : State) (k : Nat) (d : Die) : (s.setDie k d).warm = s.warm := rfl
@[simp] theorem State.setDie_eid (s : State) (k : Nat) (d : Die) : (s.setDie k d).eid = s.eid := rfl
@[simp] theorem State.setDie_stamps (s : State) (k : Nat) (d : Die) : (s.setDie k d).stamps = s.stamps := rfl
@[simp] theorem State.setDie_repairs (s : State) (k : Nat) (d : Die) : (s.setDie k d).repairs = s.repairs := rfl
@[simp] theorem State.setDie_spares (s : State) (k : Nat) (d : Die) : (s.setDie k d).spares = s.spares := rfl
@[simp] theorem State.setDie_badWays (s : State) (k : Nat) (d : Die) : (s.setDie k d).badWays = s.badWays := rfl
@[simp] theorem State.setDie_rowHolds (s : State) (k : Nat) (d : Die) : (s.setDie k d).rowHolds = s.rowHolds := rfl
@[simp] theorem State.setDie_poison (s : State) (k : Nat) (d : Die) : (s.setDie k d).poison = s.poison := rfl
@[simp] theorem State.setDie_emberStamps (s : State) (k : Nat) (d : Die) : (s.setDie k d).emberStamps = s.emberStamps := rfl
@[simp] theorem State.setDie_fwCycle (s : State) (k : Nat) (d : Die) : (s.setDie k d).fwCycle = s.fwCycle := rfl

/-! ### setLane -/

@[simp] theorem State.setLane_agenda (s : State) (k : Nat) (l : Lane) : (s.setLane k l).agenda = s.agenda := rfl
@[simp] theorem State.setLane_fresh (s : State) (k : Nat) (l : Lane) : (s.setLane k l).fresh = s.fresh := rfl
@[simp] theorem State.setLane_nextId (s : State) (k : Nat) (l : Lane) : (s.setLane k l).nextId = s.nextId := rfl
@[simp] theorem State.setLane_issue (s : State) (k : Nat) (l : Lane) : (s.setLane k l).issue = s.issue := rfl
@[simp] theorem State.setLane_mem (s : State) (k : Nat) (l : Lane) : (s.setLane k l).mem = s.mem := rfl
@[simp] theorem State.setLane_bands (s : State) (k : Nat) (l : Lane) : (s.setLane k l).bands = s.bands := rfl
@[simp] theorem State.setLane_lanes (s : State) (k : Nat) (l : Lane) : (s.setLane k l).lanes = Tbl.put s.lanes k l := rfl
@[simp] theorem State.setLane_cores (s : State) (k : Nat) (l : Lane) : (s.setLane k l).cores = s.cores := rfl
@[simp] theorem State.setLane_clusters (s : State) (k : Nat) (l : Lane) : (s.setLane k l).clusters = s.clusters := rfl
@[simp] theorem State.setLane_dies (s : State) (k : Nat) (l : Lane) : (s.setLane k l).dies = s.dies := rfl
@[simp] theorem State.setLane_iq (s : State) (k : Nat) (l : Lane) : (s.setLane k l).iq = s.iq := rfl
@[simp] theorem State.setLane_wb (s : State) (k : Nat) (l : Lane) : (s.setLane k l).wb = s.wb := rfl
@[simp] theorem State.setLane_msgs (s : State) (k : Nat) (l : Lane) : (s.setLane k l).msgs = s.msgs := rfl
@[simp] theorem State.setLane_holders (s : State) (k : Nat) (l : Lane) : (s.setLane k l).holders = s.holders := rfl
@[simp] theorem State.setLane_tlbs (s : State) (k : Nat) (l : Lane) : (s.setLane k l).tlbs = s.tlbs := rfl
@[simp] theorem State.setLane_atc (s : State) (k : Nat) (l : Lane) : (s.setLane k l).atc = s.atc := rfl
@[simp] theorem State.setLane_pageAsks (s : State) (k : Nat) (l : Lane) : (s.setLane k l).pageAsks = s.pageAsks := rfl
@[simp] theorem State.setLane_rcaches (s : State) (k : Nat) (l : Lane) : (s.setLane k l).rcaches = s.rcaches := rfl
@[simp] theorem State.setLane_dptbase (s : State) (k : Nat) (l : Lane) : (s.setLane k l).dptbase = s.dptbase := rfl
@[simp] theorem State.setLane_outbox (s : State) (k : Nat) (l : Lane) : (s.setLane k l).outbox = s.outbox := rfl
@[simp] theorem State.setLane_copies (s : State) (k : Nat) (l : Lane) : (s.setLane k l).copies = s.copies := rfl
@[simp] theorem State.setLane_posts (s : State) (k : Nat) (l : Lane) : (s.setLane k l).posts = s.posts := rfl
@[simp] theorem State.setLane_ecalls (s : State) (k : Nat) (l : Lane) : (s.setLane k l).ecalls = s.ecalls := rfl
@[simp] theorem State.setLane_flights (s : State) (k : Nat) (l : Lane) : (s.setLane k l).flights = s.flights := rfl
@[simp] theorem State.setLane_ctxs (s : State) (k : Nat) (l : Lane) : (s.setLane k l).ctxs = s.ctxs := rfl
@[simp] theorem State.setLane_queues (s : State) (k : Nat) (l : Lane) : (s.setLane k l).queues = s.queues := rfl
@[simp] theorem State.setLane_gangs (s : State) (k : Nat) (l : Lane) : (s.setLane k l).gangs = s.gangs := rfl
@[simp] theorem State.setLane_freeSegs (s : State) (k : Nat) (l : Lane) : (s.setLane k l).freeSegs = s.freeSegs := rfl
@[simp] theorem State.setLane_snaps (s : State) (k : Nat) (l : Lane) : (s.setLane k l).snaps = s.snaps := rfl
@[simp] theorem State.setLane_nextFlight (s : State) (k : Nat) (l : Lane) : (s.setLane k l).nextFlight = s.nextFlight := rfl
@[simp] theorem State.setLane_faultRing (s : State) (k : Nat) (l : Lane) : (s.setLane k l).faultRing = s.faultRing := rfl
@[simp] theorem State.setLane_faultSeq (s : State) (k : Nat) (l : Lane) : (s.setLane k l).faultSeq = s.faultSeq := rfl
@[simp] theorem State.setLane_faultLost (s : State) (k : Nat) (l : Lane) : (s.setLane k l).faultLost = s.faultLost := rfl
@[simp] theorem State.setLane_faultLog (s : State) (k : Nat) (l : Lane) : (s.setLane k l).faultLog = s.faultLog := rfl
@[simp] theorem State.setLane_msixTab (s : State) (k : Nat) (l : Lane) : (s.setLane k l).msixTab = s.msixTab := rfl
@[simp] theorem State.setLane_msixPend (s : State) (k : Nat) (l : Lane) : (s.setLane k l).msixPend = s.msixPend := rfl
@[simp] theorem State.setLane_rank (s : State) (k : Nat) (l : Lane) : (s.setLane k l).rank = s.rank := rfl
@[simp] theorem State.setLane_nextRank (s : State) (k : Nat) (l : Lane) : (s.setLane k l).nextRank = s.nextRank := rfl
@[simp] theorem State.setLane_gridMap (s : State) (k : Nat) (l : Lane) : (s.setLane k l).gridMap = s.gridMap := rfl
@[simp] theorem State.setLane_links (s : State) (k : Nat) (l : Lane) : (s.setLane k l).links = s.links := rfl
@[simp] theorem State.setLane_routes (s : State) (k : Nat) (l : Lane) : (s.setLane k l).routes = s.routes := rfl
@[simp] theorem State.setLane_outq (s : State) (k : Nat) (l : Lane) : (s.setLane k l).outq = s.outq := rfl
@[simp] theorem State.setLane_inbox (s : State) (k : Nat) (l : Lane) : (s.setLane k l).inbox = s.inbox := rfl
@[simp] theorem State.setLane_flying (s : State) (k : Nat) (l : Lane) : (s.setLane k l).flying = s.flying := rfl
@[simp] theorem State.setLane_unserved (s : State) (k : Nat) (l : Lane) : (s.setLane k l).unserved = s.unserved := rfl
@[simp] theorem State.setLane_redBufs (s : State) (k : Nat) (l : Lane) : (s.setLane k l).redBufs = s.redBufs := rfl
@[simp] theorem State.setLane_nodes (s : State) (k : Nat) (l : Lane) : (s.setLane k l).nodes = s.nodes := rfl
@[simp] theorem State.setLane_shoots (s : State) (k : Nat) (l : Lane) : (s.setLane k l).shoots = s.shoots := rfl
@[simp] theorem State.setLane_sdto (s : State) (k : Nat) (l : Lane) : (s.setLane k l).sdto = s.sdto := rfl
@[simp] theorem State.setLane_wbase (s : State) (k : Nat) (l : Lane) : (s.setLane k l).wbase = s.wbase := rfl
@[simp] theorem State.setLane_wen (s : State) (k : Nat) (l : Lane) : (s.setLane k l).wen = s.wen := rfl
@[simp] theorem State.setLane_npart (s : State) (k : Nat) (l : Lane) : (s.setLane k l).npart = s.npart := rfl
@[simp] theorem State.setLane_pwrlim (s : State) (k : Nat) (l : Lane) : (s.setLane k l).pwrlim = s.pwrlim := rfl
@[simp] theorem State.setLane_lunaCap (s : State) (k : Nat) (l : Lane) : (s.setLane k l).lunaCap = s.lunaCap := rfl
@[simp] theorem State.setLane_throtWhy (s : State) (k : Nat) (l : Lane) : (s.setLane k l).throtWhy = s.throtWhy := rfl
@[simp] theorem State.setLane_quiet (s : State) (k : Nat) (l : Lane) : (s.setLane k l).quiet = s.quiet := rfl
@[simp] theorem State.setLane_ready (s : State) (k : Nat) (l : Lane) : (s.setLane k l).ready = s.ready := rfl
@[simp] theorem State.setLane_fatal (s : State) (k : Nat) (l : Lane) : (s.setLane k l).fatal = s.fatal := rfl
@[simp] theorem State.setLane_therm (s : State) (k : Nat) (l : Lane) : (s.setLane k l).therm = s.therm := rfl
@[simp] theorem State.setLane_powered (s : State) (k : Nat) (l : Lane) : (s.setLane k l).powered = s.powered := rfl
@[simp] theorem State.setLane_warm (s : State) (k : Nat) (l : Lane) : (s.setLane k l).warm = s.warm := rfl
@[simp] theorem State.setLane_eid (s : State) (k : Nat) (l : Lane) : (s.setLane k l).eid = s.eid := rfl
@[simp] theorem State.setLane_stamps (s : State) (k : Nat) (l : Lane) : (s.setLane k l).stamps = s.stamps := rfl
@[simp] theorem State.setLane_repairs (s : State) (k : Nat) (l : Lane) : (s.setLane k l).repairs = s.repairs := rfl
@[simp] theorem State.setLane_spares (s : State) (k : Nat) (l : Lane) : (s.setLane k l).spares = s.spares := rfl
@[simp] theorem State.setLane_badWays (s : State) (k : Nat) (l : Lane) : (s.setLane k l).badWays = s.badWays := rfl
@[simp] theorem State.setLane_rowHolds (s : State) (k : Nat) (l : Lane) : (s.setLane k l).rowHolds = s.rowHolds := rfl
@[simp] theorem State.setLane_poison (s : State) (k : Nat) (l : Lane) : (s.setLane k l).poison = s.poison := rfl
@[simp] theorem State.setLane_emberStamps (s : State) (k : Nat) (l : Lane) : (s.setLane k l).emberStamps = s.emberStamps := rfl
@[simp] theorem State.setLane_fwCycle (s : State) (k : Nat) (l : Lane) : (s.setLane k l).fwCycle = s.fwCycle := rfl

/-! ### putBand -/

@[simp] theorem State.putBand_agenda (s : State) (b : Band) : (s.putBand b).agenda = s.agenda := rfl
@[simp] theorem State.putBand_fresh (s : State) (b : Band) : (s.putBand b).fresh = s.fresh := rfl
@[simp] theorem State.putBand_nextId (s : State) (b : Band) : (s.putBand b).nextId = s.nextId := rfl
@[simp] theorem State.putBand_issue (s : State) (b : Band) : (s.putBand b).issue = s.issue := rfl
@[simp] theorem State.putBand_mem (s : State) (b : Band) : (s.putBand b).mem = s.mem := rfl
@[simp] theorem State.putBand_bands (s : State) (b : Band) : (s.putBand b).bands = Tbl.put s.bands s.issue.key b := rfl
@[simp] theorem State.putBand_lanes (s : State) (b : Band) : (s.putBand b).lanes = s.lanes := rfl
@[simp] theorem State.putBand_cores (s : State) (b : Band) : (s.putBand b).cores = s.cores := rfl
@[simp] theorem State.putBand_clusters (s : State) (b : Band) : (s.putBand b).clusters = s.clusters := rfl
@[simp] theorem State.putBand_dies (s : State) (b : Band) : (s.putBand b).dies = s.dies := rfl
@[simp] theorem State.putBand_iq (s : State) (b : Band) : (s.putBand b).iq = s.iq := rfl
@[simp] theorem State.putBand_wb (s : State) (b : Band) : (s.putBand b).wb = s.wb := rfl
@[simp] theorem State.putBand_msgs (s : State) (b : Band) : (s.putBand b).msgs = s.msgs := rfl
@[simp] theorem State.putBand_holders (s : State) (b : Band) : (s.putBand b).holders = s.holders := rfl
@[simp] theorem State.putBand_tlbs (s : State) (b : Band) : (s.putBand b).tlbs = s.tlbs := rfl
@[simp] theorem State.putBand_atc (s : State) (b : Band) : (s.putBand b).atc = s.atc := rfl
@[simp] theorem State.putBand_pageAsks (s : State) (b : Band) : (s.putBand b).pageAsks = s.pageAsks := rfl
@[simp] theorem State.putBand_rcaches (s : State) (b : Band) : (s.putBand b).rcaches = s.rcaches := rfl
@[simp] theorem State.putBand_dptbase (s : State) (b : Band) : (s.putBand b).dptbase = s.dptbase := rfl
@[simp] theorem State.putBand_outbox (s : State) (b : Band) : (s.putBand b).outbox = s.outbox := rfl
@[simp] theorem State.putBand_copies (s : State) (b : Band) : (s.putBand b).copies = s.copies := rfl
@[simp] theorem State.putBand_posts (s : State) (b : Band) : (s.putBand b).posts = s.posts := rfl
@[simp] theorem State.putBand_ecalls (s : State) (b : Band) : (s.putBand b).ecalls = s.ecalls := rfl
@[simp] theorem State.putBand_flights (s : State) (b : Band) : (s.putBand b).flights = s.flights := rfl
@[simp] theorem State.putBand_ctxs (s : State) (b : Band) : (s.putBand b).ctxs = s.ctxs := rfl
@[simp] theorem State.putBand_queues (s : State) (b : Band) : (s.putBand b).queues = s.queues := rfl
@[simp] theorem State.putBand_gangs (s : State) (b : Band) : (s.putBand b).gangs = s.gangs := rfl
@[simp] theorem State.putBand_freeSegs (s : State) (b : Band) : (s.putBand b).freeSegs = s.freeSegs := rfl
@[simp] theorem State.putBand_snaps (s : State) (b : Band) : (s.putBand b).snaps = s.snaps := rfl
@[simp] theorem State.putBand_nextFlight (s : State) (b : Band) : (s.putBand b).nextFlight = s.nextFlight := rfl
@[simp] theorem State.putBand_faultRing (s : State) (b : Band) : (s.putBand b).faultRing = s.faultRing := rfl
@[simp] theorem State.putBand_faultSeq (s : State) (b : Band) : (s.putBand b).faultSeq = s.faultSeq := rfl
@[simp] theorem State.putBand_faultLost (s : State) (b : Band) : (s.putBand b).faultLost = s.faultLost := rfl
@[simp] theorem State.putBand_faultLog (s : State) (b : Band) : (s.putBand b).faultLog = s.faultLog := rfl
@[simp] theorem State.putBand_msixTab (s : State) (b : Band) : (s.putBand b).msixTab = s.msixTab := rfl
@[simp] theorem State.putBand_msixPend (s : State) (b : Band) : (s.putBand b).msixPend = s.msixPend := rfl
@[simp] theorem State.putBand_rank (s : State) (b : Band) : (s.putBand b).rank = s.rank := rfl
@[simp] theorem State.putBand_nextRank (s : State) (b : Band) : (s.putBand b).nextRank = s.nextRank := rfl
@[simp] theorem State.putBand_gridMap (s : State) (b : Band) : (s.putBand b).gridMap = s.gridMap := rfl
@[simp] theorem State.putBand_links (s : State) (b : Band) : (s.putBand b).links = s.links := rfl
@[simp] theorem State.putBand_routes (s : State) (b : Band) : (s.putBand b).routes = s.routes := rfl
@[simp] theorem State.putBand_outq (s : State) (b : Band) : (s.putBand b).outq = s.outq := rfl
@[simp] theorem State.putBand_inbox (s : State) (b : Band) : (s.putBand b).inbox = s.inbox := rfl
@[simp] theorem State.putBand_flying (s : State) (b : Band) : (s.putBand b).flying = s.flying := rfl
@[simp] theorem State.putBand_unserved (s : State) (b : Band) : (s.putBand b).unserved = s.unserved := rfl
@[simp] theorem State.putBand_redBufs (s : State) (b : Band) : (s.putBand b).redBufs = s.redBufs := rfl
@[simp] theorem State.putBand_nodes (s : State) (b : Band) : (s.putBand b).nodes = s.nodes := rfl
@[simp] theorem State.putBand_shoots (s : State) (b : Band) : (s.putBand b).shoots = s.shoots := rfl
@[simp] theorem State.putBand_sdto (s : State) (b : Band) : (s.putBand b).sdto = s.sdto := rfl
@[simp] theorem State.putBand_wbase (s : State) (b : Band) : (s.putBand b).wbase = s.wbase := rfl
@[simp] theorem State.putBand_wen (s : State) (b : Band) : (s.putBand b).wen = s.wen := rfl
@[simp] theorem State.putBand_npart (s : State) (b : Band) : (s.putBand b).npart = s.npart := rfl
@[simp] theorem State.putBand_pwrlim (s : State) (b : Band) : (s.putBand b).pwrlim = s.pwrlim := rfl
@[simp] theorem State.putBand_lunaCap (s : State) (b : Band) : (s.putBand b).lunaCap = s.lunaCap := rfl
@[simp] theorem State.putBand_throtWhy (s : State) (b : Band) : (s.putBand b).throtWhy = s.throtWhy := rfl
@[simp] theorem State.putBand_quiet (s : State) (b : Band) : (s.putBand b).quiet = s.quiet := rfl
@[simp] theorem State.putBand_ready (s : State) (b : Band) : (s.putBand b).ready = s.ready := rfl
@[simp] theorem State.putBand_fatal (s : State) (b : Band) : (s.putBand b).fatal = s.fatal := rfl
@[simp] theorem State.putBand_therm (s : State) (b : Band) : (s.putBand b).therm = s.therm := rfl
@[simp] theorem State.putBand_powered (s : State) (b : Band) : (s.putBand b).powered = s.powered := rfl
@[simp] theorem State.putBand_warm (s : State) (b : Band) : (s.putBand b).warm = s.warm := rfl
@[simp] theorem State.putBand_eid (s : State) (b : Band) : (s.putBand b).eid = s.eid := rfl
@[simp] theorem State.putBand_stamps (s : State) (b : Band) : (s.putBand b).stamps = s.stamps := rfl
@[simp] theorem State.putBand_repairs (s : State) (b : Band) : (s.putBand b).repairs = s.repairs := rfl
@[simp] theorem State.putBand_spares (s : State) (b : Band) : (s.putBand b).spares = s.spares := rfl
@[simp] theorem State.putBand_badWays (s : State) (b : Band) : (s.putBand b).badWays = s.badWays := rfl
@[simp] theorem State.putBand_rowHolds (s : State) (b : Band) : (s.putBand b).rowHolds = s.rowHolds := rfl
@[simp] theorem State.putBand_poison (s : State) (b : Band) : (s.putBand b).poison = s.poison := rfl
@[simp] theorem State.putBand_emberStamps (s : State) (b : Band) : (s.putBand b).emberStamps = s.emberStamps := rfl
@[simp] theorem State.putBand_fwCycle (s : State) (b : Band) : (s.putBand b).fwCycle = s.fwCycle := rfl

/-! ### count -/

@[simp] theorem State.count_agenda (s : State) (c n x : Nat) : (s.count c n x).agenda = s.agenda := rfl
@[simp] theorem State.count_fresh (s : State) (c n x : Nat) : (s.count c n x).fresh = s.fresh := rfl
@[simp] theorem State.count_nextId (s : State) (c n x : Nat) : (s.count c n x).nextId = s.nextId := rfl
@[simp] theorem State.count_issue (s : State) (c n x : Nat) : (s.count c n x).issue = s.issue := rfl
@[simp] theorem State.count_mem (s : State) (c n x : Nat) : (s.count c n x).mem = s.mem := rfl
@[simp] theorem State.count_bands (s : State) (c n x : Nat) : (s.count c n x).bands = s.bands := rfl
@[simp] theorem State.count_lanes (s : State) (c n x : Nat) : (s.count c n x).lanes = s.lanes := rfl
@[simp] theorem State.count_cores (s : State) (c n x : Nat) : (s.count c n x).cores = Tbl.put s.cores c { s.core c with perf := Tbl.put (s.core c).perf n (Tbl.get (s.core c).perf n 0 + x) } := rfl
@[simp] theorem State.count_clusters (s : State) (c n x : Nat) : (s.count c n x).clusters = s.clusters := rfl
@[simp] theorem State.count_dies (s : State) (c n x : Nat) : (s.count c n x).dies = s.dies := rfl
@[simp] theorem State.count_iq (s : State) (c n x : Nat) : (s.count c n x).iq = s.iq := rfl
@[simp] theorem State.count_wb (s : State) (c n x : Nat) : (s.count c n x).wb = s.wb := rfl
@[simp] theorem State.count_msgs (s : State) (c n x : Nat) : (s.count c n x).msgs = s.msgs := rfl
@[simp] theorem State.count_holders (s : State) (c n x : Nat) : (s.count c n x).holders = s.holders := rfl
@[simp] theorem State.count_tlbs (s : State) (c n x : Nat) : (s.count c n x).tlbs = s.tlbs := rfl
@[simp] theorem State.count_atc (s : State) (c n x : Nat) : (s.count c n x).atc = s.atc := rfl
@[simp] theorem State.count_pageAsks (s : State) (c n x : Nat) : (s.count c n x).pageAsks = s.pageAsks := rfl
@[simp] theorem State.count_rcaches (s : State) (c n x : Nat) : (s.count c n x).rcaches = s.rcaches := rfl
@[simp] theorem State.count_dptbase (s : State) (c n x : Nat) : (s.count c n x).dptbase = s.dptbase := rfl
@[simp] theorem State.count_outbox (s : State) (c n x : Nat) : (s.count c n x).outbox = s.outbox := rfl
@[simp] theorem State.count_copies (s : State) (c n x : Nat) : (s.count c n x).copies = s.copies := rfl
@[simp] theorem State.count_posts (s : State) (c n x : Nat) : (s.count c n x).posts = s.posts := rfl
@[simp] theorem State.count_ecalls (s : State) (c n x : Nat) : (s.count c n x).ecalls = s.ecalls := rfl
@[simp] theorem State.count_flights (s : State) (c n x : Nat) : (s.count c n x).flights = s.flights := rfl
@[simp] theorem State.count_ctxs (s : State) (c n x : Nat) : (s.count c n x).ctxs = s.ctxs := rfl
@[simp] theorem State.count_queues (s : State) (c n x : Nat) : (s.count c n x).queues = s.queues := rfl
@[simp] theorem State.count_gangs (s : State) (c n x : Nat) : (s.count c n x).gangs = s.gangs := rfl
@[simp] theorem State.count_freeSegs (s : State) (c n x : Nat) : (s.count c n x).freeSegs = s.freeSegs := rfl
@[simp] theorem State.count_snaps (s : State) (c n x : Nat) : (s.count c n x).snaps = s.snaps := rfl
@[simp] theorem State.count_nextFlight (s : State) (c n x : Nat) : (s.count c n x).nextFlight = s.nextFlight := rfl
@[simp] theorem State.count_faultRing (s : State) (c n x : Nat) : (s.count c n x).faultRing = s.faultRing := rfl
@[simp] theorem State.count_faultSeq (s : State) (c n x : Nat) : (s.count c n x).faultSeq = s.faultSeq := rfl
@[simp] theorem State.count_faultLost (s : State) (c n x : Nat) : (s.count c n x).faultLost = s.faultLost := rfl
@[simp] theorem State.count_faultLog (s : State) (c n x : Nat) : (s.count c n x).faultLog = s.faultLog := rfl
@[simp] theorem State.count_msixTab (s : State) (c n x : Nat) : (s.count c n x).msixTab = s.msixTab := rfl
@[simp] theorem State.count_msixPend (s : State) (c n x : Nat) : (s.count c n x).msixPend = s.msixPend := rfl
@[simp] theorem State.count_rank (s : State) (c n x : Nat) : (s.count c n x).rank = s.rank := rfl
@[simp] theorem State.count_nextRank (s : State) (c n x : Nat) : (s.count c n x).nextRank = s.nextRank := rfl
@[simp] theorem State.count_gridMap (s : State) (c n x : Nat) : (s.count c n x).gridMap = s.gridMap := rfl
@[simp] theorem State.count_links (s : State) (c n x : Nat) : (s.count c n x).links = s.links := rfl
@[simp] theorem State.count_routes (s : State) (c n x : Nat) : (s.count c n x).routes = s.routes := rfl
@[simp] theorem State.count_outq (s : State) (c n x : Nat) : (s.count c n x).outq = s.outq := rfl
@[simp] theorem State.count_inbox (s : State) (c n x : Nat) : (s.count c n x).inbox = s.inbox := rfl
@[simp] theorem State.count_flying (s : State) (c n x : Nat) : (s.count c n x).flying = s.flying := rfl
@[simp] theorem State.count_unserved (s : State) (c n x : Nat) : (s.count c n x).unserved = s.unserved := rfl
@[simp] theorem State.count_redBufs (s : State) (c n x : Nat) : (s.count c n x).redBufs = s.redBufs := rfl
@[simp] theorem State.count_nodes (s : State) (c n x : Nat) : (s.count c n x).nodes = s.nodes := rfl
@[simp] theorem State.count_shoots (s : State) (c n x : Nat) : (s.count c n x).shoots = s.shoots := rfl
@[simp] theorem State.count_sdto (s : State) (c n x : Nat) : (s.count c n x).sdto = s.sdto := rfl
@[simp] theorem State.count_wbase (s : State) (c n x : Nat) : (s.count c n x).wbase = s.wbase := rfl
@[simp] theorem State.count_wen (s : State) (c n x : Nat) : (s.count c n x).wen = s.wen := rfl
@[simp] theorem State.count_npart (s : State) (c n x : Nat) : (s.count c n x).npart = s.npart := rfl
@[simp] theorem State.count_pwrlim (s : State) (c n x : Nat) : (s.count c n x).pwrlim = s.pwrlim := rfl
@[simp] theorem State.count_lunaCap (s : State) (c n x : Nat) : (s.count c n x).lunaCap = s.lunaCap := rfl
@[simp] theorem State.count_throtWhy (s : State) (c n x : Nat) : (s.count c n x).throtWhy = s.throtWhy := rfl
@[simp] theorem State.count_quiet (s : State) (c n x : Nat) : (s.count c n x).quiet = s.quiet := rfl
@[simp] theorem State.count_ready (s : State) (c n x : Nat) : (s.count c n x).ready = s.ready := rfl
@[simp] theorem State.count_fatal (s : State) (c n x : Nat) : (s.count c n x).fatal = s.fatal := rfl
@[simp] theorem State.count_therm (s : State) (c n x : Nat) : (s.count c n x).therm = s.therm := rfl
@[simp] theorem State.count_powered (s : State) (c n x : Nat) : (s.count c n x).powered = s.powered := rfl
@[simp] theorem State.count_warm (s : State) (c n x : Nat) : (s.count c n x).warm = s.warm := rfl
@[simp] theorem State.count_eid (s : State) (c n x : Nat) : (s.count c n x).eid = s.eid := rfl
@[simp] theorem State.count_stamps (s : State) (c n x : Nat) : (s.count c n x).stamps = s.stamps := rfl
@[simp] theorem State.count_repairs (s : State) (c n x : Nat) : (s.count c n x).repairs = s.repairs := rfl
@[simp] theorem State.count_spares (s : State) (c n x : Nat) : (s.count c n x).spares = s.spares := rfl
@[simp] theorem State.count_badWays (s : State) (c n x : Nat) : (s.count c n x).badWays = s.badWays := rfl
@[simp] theorem State.count_rowHolds (s : State) (c n x : Nat) : (s.count c n x).rowHolds = s.rowHolds := rfl
@[simp] theorem State.count_poison (s : State) (c n x : Nat) : (s.count c n x).poison = s.poison := rfl
@[simp] theorem State.count_emberStamps (s : State) (c n x : Nat) : (s.count c n x).emberStamps = s.emberStamps := rfl
@[simp] theorem State.count_fwCycle (s : State) (c n x : Nat) : (s.count c n x).fwCycle = s.fwCycle := rfl

/-! ### hold -/

@[simp] theorem State.hold_agenda (s : State) : s.hold.agenda = s.agenda := rfl
@[simp] theorem State.hold_fresh (s : State) : s.hold.fresh = s.fresh := rfl
@[simp] theorem State.hold_nextId (s : State) : s.hold.nextId = s.nextId := rfl
@[simp] theorem State.hold_issue (s : State) : s.hold.issue = { s.issue with held := true } := rfl
@[simp] theorem State.hold_mem (s : State) : s.hold.mem = s.mem := rfl
@[simp] theorem State.hold_bands (s : State) : s.hold.bands = s.bands := rfl
@[simp] theorem State.hold_lanes (s : State) : s.hold.lanes = s.lanes := rfl
@[simp] theorem State.hold_cores (s : State) : s.hold.cores = s.cores := rfl
@[simp] theorem State.hold_clusters (s : State) : s.hold.clusters = s.clusters := rfl
@[simp] theorem State.hold_dies (s : State) : s.hold.dies = s.dies := rfl
@[simp] theorem State.hold_iq (s : State) : s.hold.iq = s.iq := rfl
@[simp] theorem State.hold_wb (s : State) : s.hold.wb = s.wb := rfl
@[simp] theorem State.hold_msgs (s : State) : s.hold.msgs = s.msgs := rfl
@[simp] theorem State.hold_holders (s : State) : s.hold.holders = s.holders := rfl
@[simp] theorem State.hold_tlbs (s : State) : s.hold.tlbs = s.tlbs := rfl
@[simp] theorem State.hold_atc (s : State) : s.hold.atc = s.atc := rfl
@[simp] theorem State.hold_pageAsks (s : State) : s.hold.pageAsks = s.pageAsks := rfl
@[simp] theorem State.hold_rcaches (s : State) : s.hold.rcaches = s.rcaches := rfl
@[simp] theorem State.hold_dptbase (s : State) : s.hold.dptbase = s.dptbase := rfl
@[simp] theorem State.hold_outbox (s : State) : s.hold.outbox = s.outbox := rfl
@[simp] theorem State.hold_copies (s : State) : s.hold.copies = s.copies := rfl
@[simp] theorem State.hold_posts (s : State) : s.hold.posts = s.posts := rfl
@[simp] theorem State.hold_ecalls (s : State) : s.hold.ecalls = s.ecalls := rfl
@[simp] theorem State.hold_flights (s : State) : s.hold.flights = s.flights := rfl
@[simp] theorem State.hold_ctxs (s : State) : s.hold.ctxs = s.ctxs := rfl
@[simp] theorem State.hold_queues (s : State) : s.hold.queues = s.queues := rfl
@[simp] theorem State.hold_gangs (s : State) : s.hold.gangs = s.gangs := rfl
@[simp] theorem State.hold_freeSegs (s : State) : s.hold.freeSegs = s.freeSegs := rfl
@[simp] theorem State.hold_snaps (s : State) : s.hold.snaps = s.snaps := rfl
@[simp] theorem State.hold_nextFlight (s : State) : s.hold.nextFlight = s.nextFlight := rfl
@[simp] theorem State.hold_faultRing (s : State) : s.hold.faultRing = s.faultRing := rfl
@[simp] theorem State.hold_faultSeq (s : State) : s.hold.faultSeq = s.faultSeq := rfl
@[simp] theorem State.hold_faultLost (s : State) : s.hold.faultLost = s.faultLost := rfl
@[simp] theorem State.hold_faultLog (s : State) : s.hold.faultLog = s.faultLog := rfl
@[simp] theorem State.hold_msixTab (s : State) : s.hold.msixTab = s.msixTab := rfl
@[simp] theorem State.hold_msixPend (s : State) : s.hold.msixPend = s.msixPend := rfl
@[simp] theorem State.hold_rank (s : State) : s.hold.rank = s.rank := rfl
@[simp] theorem State.hold_nextRank (s : State) : s.hold.nextRank = s.nextRank := rfl
@[simp] theorem State.hold_gridMap (s : State) : s.hold.gridMap = s.gridMap := rfl
@[simp] theorem State.hold_links (s : State) : s.hold.links = s.links := rfl
@[simp] theorem State.hold_routes (s : State) : s.hold.routes = s.routes := rfl
@[simp] theorem State.hold_outq (s : State) : s.hold.outq = s.outq := rfl
@[simp] theorem State.hold_inbox (s : State) : s.hold.inbox = s.inbox := rfl
@[simp] theorem State.hold_flying (s : State) : s.hold.flying = s.flying := rfl
@[simp] theorem State.hold_unserved (s : State) : s.hold.unserved = s.unserved := rfl
@[simp] theorem State.hold_redBufs (s : State) : s.hold.redBufs = s.redBufs := rfl
@[simp] theorem State.hold_nodes (s : State) : s.hold.nodes = s.nodes := rfl
@[simp] theorem State.hold_shoots (s : State) : s.hold.shoots = s.shoots := rfl
@[simp] theorem State.hold_sdto (s : State) : s.hold.sdto = s.sdto := rfl
@[simp] theorem State.hold_wbase (s : State) : s.hold.wbase = s.wbase := rfl
@[simp] theorem State.hold_wen (s : State) : s.hold.wen = s.wen := rfl
@[simp] theorem State.hold_npart (s : State) : s.hold.npart = s.npart := rfl
@[simp] theorem State.hold_pwrlim (s : State) : s.hold.pwrlim = s.pwrlim := rfl
@[simp] theorem State.hold_lunaCap (s : State) : s.hold.lunaCap = s.lunaCap := rfl
@[simp] theorem State.hold_throtWhy (s : State) : s.hold.throtWhy = s.throtWhy := rfl
@[simp] theorem State.hold_quiet (s : State) : s.hold.quiet = s.quiet := rfl
@[simp] theorem State.hold_ready (s : State) : s.hold.ready = s.ready := rfl
@[simp] theorem State.hold_fatal (s : State) : s.hold.fatal = s.fatal := rfl
@[simp] theorem State.hold_therm (s : State) : s.hold.therm = s.therm := rfl
@[simp] theorem State.hold_powered (s : State) : s.hold.powered = s.powered := rfl
@[simp] theorem State.hold_warm (s : State) : s.hold.warm = s.warm := rfl
@[simp] theorem State.hold_eid (s : State) : s.hold.eid = s.eid := rfl
@[simp] theorem State.hold_stamps (s : State) : s.hold.stamps = s.stamps := rfl
@[simp] theorem State.hold_repairs (s : State) : s.hold.repairs = s.repairs := rfl
@[simp] theorem State.hold_spares (s : State) : s.hold.spares = s.spares := rfl
@[simp] theorem State.hold_badWays (s : State) : s.hold.badWays = s.badWays := rfl
@[simp] theorem State.hold_rowHolds (s : State) : s.hold.rowHolds = s.rowHolds := rfl
@[simp] theorem State.hold_poison (s : State) : s.hold.poison = s.poison := rfl
@[simp] theorem State.hold_emberStamps (s : State) : s.hold.emberStamps = s.emberStamps := rfl
@[simp] theorem State.hold_fwCycle (s : State) : s.hold.fwCycle = s.fwCycle := rfl

/-! ### Lookups after an update -/

@[simp] theorem State.band?_setBand (s : State) (k i : Nat) (b : Band) :
    (s.setBand k b).band? i = if i = k then some b else s.band? i := Tbl.find?_put _ _ _ _
@[simp] theorem State.band?_putBand (s : State) (i : Nat) (b : Band) :
    (s.putBand b).band? i = if i = s.issue.key then some b else s.band? i := Tbl.find?_put _ _ _ _
@[simp] theorem State.band?_setCore (s : State) (k i : Nat) (c : Core) : (s.setCore k c).band? i = s.band? i := rfl
@[simp] theorem State.band?_hold (s : State) (i : Nat) : s.hold.band? i = s.band? i := rfl
@[simp] theorem State.band?_count (s : State) (c n x i : Nat) : (s.count c n x).band? i = s.band? i := rfl
@[simp] theorem State.core_setBand (s : State) (k i : Nat) (b : Band) : (s.setBand k b).core i = s.core i := rfl
@[simp] theorem State.core_putBand (s : State) (i : Nat) (b : Band) : (s.putBand b).core i = s.core i := rfl
@[simp] theorem State.core_setCore (s : State) (k i : Nat) (c : Core) :
    (s.setCore k c).core i = if i = k then c else s.core i := Tbl.get_put _ _ _ _ _
@[simp] theorem State.cluster_setCluster (s : State) (k i : Nat) (c : Cluster) :
    (s.setCluster k c).cluster i = if i = k then c else s.cluster i := Tbl.get_put _ _ _ _ _
@[simp] theorem State.die_setDie (s : State) (k i : Nat) (d : Die) :
    (s.setDie k d).die i = if i = k then d else s.die i := Tbl.get_put _ _ _ _ _
@[simp] theorem State.lane_setLane (s : State) (k i : Nat) (l : Lane) :
    (s.setLane k l).lane i = if i = k then l else s.lane i := Tbl.get_put _ _ _ _ _
@[simp] theorem State.flight?_setBand (s : State) (k i : Nat) (b : Band) : (s.setBand k b).flight? i = s.flight? i := rfl
@[simp] theorem State.flight?_putBand (s : State) (i : Nat) (b : Band) : (s.putBand b).flight? i = s.flight? i := rfl

/-- Only one band changes in modBand (R46). -/
theorem State.band?_modBand (s : State) (k i : Nat) (f : Band → Band) :
    (s.modBand k f).band? i = if i = k then (s.band? k).map f else s.band? i := by
  unfold State.modBand
  split
  · next b h => rw [State.band?_setBand, h]; rfl
  · next h => split
              · next e => rw [e, h]; rfl
              · rfl

end Sys2Proof.Machine
end

