-- ==== Sys2Proof/Laws/PerThread.lean ====
section
/-!
SUPPORT. Sys2Proof/Laws/PerThread.lean: everything the shared operation of the thread-by-thread instructions can do where it is ready: the
results in their destination and the rest kept.
-/
namespace Sys2Proof.Machine

theorem Fld.mem_destNames_regs (f : Fld) (n m : Nat) : m ∈ f.destNames (.regs n) ↔ f.dk = false ∧ f.d ≤ m ∧ m < f.d + n := by
  unfold Fld.destNames
  simp only
  split
  · rename_i h; simp [h]
  · rename_i h
    have h' : f.dk = false := by simpa using h
    simp only [List.mem_map, List.mem_range, h', true_and]
    constructor
    · rintro ⟨i, hi, rfl⟩; omega
    · intro ⟨h1, h2⟩; exact ⟨m - f.d, by omega, by omega⟩

theorem Band.writeRes_rest (b : Band) (f : Fld) (tg : Target) (r : Res) :
    b.writeRes f tg r = { b with threads := (b.writeRes f tg r).threads, regs := (b.writeRes f tg r).regs } := by
  unfold Band.writeRes
  split
  · rw [Band.writeGroup_rest]
  · rw [Band.writeP_rest]
  · rfl

@[simp] theorem Band.length_writeRes (b : Band) (f : Fld) (tg : Target) (r : Res) : (b.writeRes f tg r).threads.length = b.threads.length := by
  unfold Band.writeRes
  split
  · rw [Band.writeGroup_rest]
  · simp
  · rfl

theorem Band.reg?_writeRes (b : Band) (f : Fld) (tg : Target) (r : Res) (m : Nat) :
    ((b.writeRes f tg r).reg? m).isSome = (b.reg? m).isSome := by
  unfold Band.writeRes
  split
  · exact Band.reg?_writeGroup _ _ _ _ _ _
  · rw [Band.writeP_rest]; rfl
  · rfl

/-- What one result's write leaves in an entry of a v register; k destinations are written elsewhere. -/
theorem Band.vreg?_writeRes (b : Band) (f : Fld) (tg : Target) (r : Res) (m j : Nat) (hk : f.dk = false)
    (h : ∀ x ∈ f.destNames tg, (b.reg? x).isSome = true) :
    (b.writeRes f tg r).vreg? m j = if m ∈ f.destNames tg ∧ j = r.thread then some (wordOf r.val (m - f.d)) else b.vreg? m j := by
  unfold Band.writeRes
  split
  · rename_i n
    rw [Band.vreg?_writeGroup]
    · simp only [Fld.mem_destNames_regs, hk, true_and, and_assoc]
    · intro i hi
      exact h _ ((Fld.mem_destNames_regs _ _ _).2 ⟨hk, by omega, by omega⟩)
  · rw [Band.writeP_rest]
    simp [Fld.destNames]
    rfl
  · simp [Fld.destNames]

theorem Band.thread_writeRes (b : Band) (f : Fld) (tg : Target) (r : Res) (j : Nat) :
    (b.writeRes f tg r).thread j = { b.thread j with preds := ((b.writeRes f tg r).thread j).preds } := by
  unfold Band.writeRes
  split
  · rw [Band.writeGroup_rest]; rfl
  · exact Band.thread_writeP _ _ _ _ _
  · rfl

theorem Band.preds_writeRes (b : Band) (f : Fld) (tg : Target) (r : Res) (j q : Nat) (ht : r.thread < b.threads.length) :
    bitOf ((b.writeRes f tg r).thread j).preds q =
      if tg = .pred ∧ f.d % 8 < 7 ∧ j = r.thread ∧ q = f.d % 8 then decide (r.val % 2 = 1) else bitOf (b.thread j).preds q := by
  unfold Band.writeRes
  split
  · rw [Band.writeGroup_rest]; simp; rfl
  · rw [Band.preds_writeP _ _ _ _ _ _ ht]; simp
  · simp

/-! ### The fold over the results -/

/-- The results of a run written one after another. -/
def Band.writeEach (b : Band) (f : Fld) (tg : Target) (rs : List Res) : Band := rs.foldl (fun b r => b.writeRes f tg r) b

theorem Band.writeEach_rest (b : Band) (f : Fld) (tg : Target) (rs : List Res) :
    b.writeEach f tg rs = { b with threads := (b.writeEach f tg rs).threads, regs := (b.writeEach f tg rs).regs } := by
  unfold Band.writeEach
  induction rs generalizing b with
  | nil => rfl
  | cons r l ih => rw [List.foldl_cons, ih, Band.writeRes_rest]

@[simp] theorem Band.length_writeEach (b : Band) (f : Fld) (tg : Target) (rs : List Res) :
    (b.writeEach f tg rs).threads.length = b.threads.length := by
  unfold Band.writeEach
  induction rs generalizing b with
  | nil => rfl
  | cons r l ih => rw [List.foldl_cons, ih]; simp

theorem Band.thread_writeEach (b : Band) (f : Fld) (tg : Target) (rs : List Res) (j : Nat) :
    (b.writeEach f tg rs).thread j = { b.thread j with preds := ((b.writeEach f tg rs).thread j).preds } := by
  unfold Band.writeEach
  induction rs generalizing b with
  | nil => rfl
  | cons r l ih => rw [List.foldl_cons, ih, Band.thread_writeRes]

/-- An entry that no result is for is kept. -/
theorem Band.vreg?_writeEach_other (b : Band) (f : Fld) (tg : Target) (rs : List Res) (m j : Nat) (hk : f.dk = false)
    (h : ∀ x ∈ f.destNames tg, (b.reg? x).isSome = true) (hne : m ∉ f.destNames tg ∨ j ∉ rs.map (·.thread)) :
    (b.writeEach f tg rs).vreg? m j = b.vreg? m j := by
  unfold Band.writeEach
  induction rs generalizing b with
  | nil => rfl
  | cons r l ih =>
    rw [List.foldl_cons, ih, Band.vreg?_writeRes _ _ _ _ _ _ hk h, if_neg]
    · rintro ⟨h1, rfl⟩
      rcases hne with h2 | h2
      · exact h2 h1
      · exact h2 (by simp)
    · intro x hx; rw [Band.reg?_writeRes]; exact h x hx
    · rcases hne with h2 | h2
      · exact .inl h2
      · exact .inr fun h3 => h2 (by simp at h3 ⊢; exact .inr h3)

/-- Each thread's entry holds its result. -/
theorem Band.vreg?_writeEach (b : Band) (f : Fld) (tg : Target) (rs : List Res) (m : Nat) (x : Res) (hk : f.dk = false)
    (h : ∀ x ∈ f.destNames tg, (b.reg? x).isSome = true) (hd : (rs.map (·.thread)).Nodup) (hx : x ∈ rs) (hm : m ∈ f.destNames tg) :
    (b.writeEach f tg rs).vreg? m x.thread = some (wordOf x.val (m - f.d)) := by
  unfold Band.writeEach
  induction rs generalizing b with
  | nil => simp at hx
  | cons r l ih =>
    rw [List.map_cons, List.nodup_cons] at hd
    rw [List.foldl_cons]
    have hmap : ∀ y ∈ f.destNames tg, ((b.writeRes f tg r).reg? y).isSome = true := by
      intro y hy; rw [Band.reg?_writeRes]; exact h y hy
    rcases List.mem_cons.1 hx with rfl | hx
    · have := Band.vreg?_writeEach_other (b.writeRes f tg x) f tg l m x.thread hk hmap (.inr hd.1)
      unfold Band.writeEach at this
      rw [this, Band.vreg?_writeRes _ _ _ _ _ _ hk h, if_pos ⟨hm, rfl⟩]
    · exact ih _ hmap hd.2 hx

theorem Band.preds_writeEach_other (b : Band) (f : Fld) (tg : Target) (rs : List Res) (j q : Nat)
    (hl : ∀ r ∈ rs, r.thread < b.threads.length)
    (hne : tg ≠ .pred ∨ j ∉ rs.map (·.thread) ∨ q ≠ f.d % 8 ∨ q = 7) :
    bitOf ((b.writeEach f tg rs).thread j).preds q = bitOf (b.thread j).preds q := by
  unfold Band.writeEach
  induction rs generalizing b with
  | nil => rfl
  | cons r l ih =>
    rw [List.foldl_cons, ih, Band.preds_writeRes _ _ _ _ _ _ (hl r (by simp)), if_neg]
    · rintro ⟨h1, h2, rfl, rfl⟩
      rcases hne with h | h | h | h
      · exact h h1
      · exact h (by simp)
      · exact h rfl
      · omega
    · intro x hx; rw [Band.length_writeRes]; exact hl x (by simp [hx])
    · rcases hne with h | h | h | h
      · exact .inl h
      · exact .inr (.inl fun h3 => h (by simp at h3 ⊢; exact .inr h3))
      · exact .inr (.inr (.inl h))
      · exact .inr (.inr (.inr h))

theorem Band.preds_writeEach (b : Band) (f : Fld) (rs : List Res) (x : Res) (hl : ∀ r ∈ rs, r.thread < b.threads.length)
    (hd : (rs.map (·.thread)).Nodup) (hx : x ∈ rs) (h7 : f.d % 8 ≠ 7) :
    bitOf ((b.writeEach f .pred rs).thread x.thread).preds (f.d % 8) = decide (x.val % 2 = 1) := by
  have hlt : f.d % 8 < 7 := by omega
  unfold Band.writeEach
  induction rs generalizing b with
  | nil => simp at hx
  | cons r l ih =>
    rw [List.map_cons, List.nodup_cons] at hd
    rw [List.foldl_cons]
    have hl' : ∀ y ∈ l, y.thread < (b.writeRes f .pred r).threads.length := by
      intro y hy; rw [Band.length_writeRes]; exact hl y (by simp [hy])
    rcases List.mem_cons.1 hx with rfl | hx
    · have := Band.preds_writeEach_other (b.writeRes f .pred x) f .pred l x.thread (f.d % 8) hl' (.inr (.inl hd.1))
      unfold Band.writeEach at this
      rw [this, Band.preds_writeRes _ _ _ _ _ _ (hl x (by simp)), if_pos ⟨rfl, hlt, rfl, rfl⟩]
    · exact ih _ hl' hd.2 hx

/-- RNDCTR advanced by each result's draws (R33). -/
def Band.drawEach (b : Band) (rs : List Res) : Band :=
  rs.foldl (fun b r => b.modThread r.thread fun th => { th with rndctr := (th.rndctr + r.draws) % 2 ^ 32 }) b

theorem Band.drawEach_rest (b : Band) (rs : List Res) : b.drawEach rs = { b with threads := (b.drawEach rs).threads } := by
  unfold Band.drawEach
  induction rs generalizing b with
  | nil => rfl
  | cons r l ih => rw [List.foldl_cons, ih]; rfl

@[simp] theorem Band.length_drawEach (b : Band) (rs : List Res) : (b.drawEach rs).threads.length = b.threads.length := by
  unfold Band.drawEach
  induction rs generalizing b with
  | nil => rfl
  | cons r l ih => rw [List.foldl_cons, ih]; simp

theorem Band.thread_drawEach (b : Band) (rs : List Res) (j : Nat) :
    (b.drawEach rs).thread j = { b.thread j with rndctr := ((b.drawEach rs).thread j).rndctr } := by
  unfold Band.drawEach
  induction rs generalizing b with
  | nil => rfl
  | cons r l ih =>
    rw [List.foldl_cons, ih, Band.thread_modThread]
    split <;> rfl

theorem Band.rndctr_drawEach_other (b : Band) (rs : List Res) (j : Nat) (h : j ∉ rs.map (·.thread)) :
    ((b.drawEach rs).thread j).rndctr = (b.thread j).rndctr := by
  unfold Band.drawEach
  induction rs generalizing b with
  | nil => rfl
  | cons r l ih =>
    have h1 : ¬ r.thread = j := fun e => h (by simp [e])
    have h2 : j ∉ l.map (·.thread) := fun e => h (by simp at e ⊢; exact .inr e)
    rw [List.foldl_cons, ih _ h2, Band.thread_modThread]
    simp [h1]

theorem Band.rndctr_drawEach (b : Band) (rs : List Res) (x : Res) (hl : ∀ r ∈ rs, r.thread < b.threads.length)
    (hd : (rs.map (·.thread)).Nodup) (hx : x ∈ rs) :
    ((b.drawEach rs).thread x.thread).rndctr = ((b.thread x.thread).rndctr + x.draws) % 2 ^ 32 := by
  unfold Band.drawEach
  induction rs generalizing b with
  | nil => simp at hx
  | cons r l ih =>
    rw [List.map_cons, List.nodup_cons] at hd
    rw [List.foldl_cons]
    rcases List.mem_cons.1 hx with rfl | hx
    · have := Band.rndctr_drawEach_other (b.modThread x.thread fun th => { th with rndctr := (th.rndctr + x.draws) % 2 ^ 32 }) l x.thread hd.1
      unfold Band.drawEach at this
      rw [this, Band.thread_modThread, if_pos ⟨rfl, hl x (by simp)⟩]
    · have hne : ¬ r.thread = x.thread := fun e => hd.1 (by rw [e]; exact List.mem_map_of_mem hx)
      rw [ih _ (by intro y hy; rw [Band.length_modThread]; exact hl y (by simp [hy])) hd.2 hx, Band.thread_modThread]
      simp [hne]

/-! ### writeAll -/

theorem Band.writeAll_eq (b : Band) (f : Fld) (tg : Target) (rs : List Res) :
    b.writeAll f tg rs = ((match tg, f.dk, rs with
      | .regs n, true, r :: _ => b.writeKGroup f.d r.val n
      | .regs _, true, [] => b
      | _, _, _ => b.writeEach f tg rs) : Band).drawEach rs := rfl

/-- The registers, predicates and threads after the results of a run are written (R33, R50, R51, R54). -/
theorem Band.writeAll_spec (b : Band) (f : Fld) (tg : Target) (rs : List Res)
    (hmap : f.dk = false → rs ≠ [] → ∀ x ∈ f.destNames tg, (b.reg? x).isSome = true) (hl : ∀ r ∈ rs, r.thread < b.threads.length)
    (hd : (rs.map (·.thread)).Nodup) (hfit : ∀ n, tg = .regs n → f.dk = true → f.d + n ≤ b.kregs.length) :
    (b.writeAll f tg rs = { b with threads := (b.writeAll f tg rs).threads, regs := (b.writeAll f tg rs).regs,
                                   kregs := (b.writeAll f tg rs).kregs }) ∧
    ((b.writeAll f tg rs).threads.length = b.threads.length) ∧
    (∀ m j, (m ∉ f.destNames tg ∨ j ∉ rs.map (·.thread)) → (b.writeAll f tg rs).vreg? m j = b.vreg? m j) ∧
    (∀ m, (f.dk = false ∨ rs = [] ∨ ∀ w, tg = .regs w → m < f.d ∨ f.d + w ≤ m) → (b.writeAll f tg rs).kregs.getD m 0 = b.kregs.getD m 0) ∧
    (∀ j, (b.writeAll f tg rs).thread j =
      { b.thread j with preds := ((b.writeAll f tg rs).thread j).preds, rndctr := ((b.writeAll f tg rs).thread j).rndctr }) ∧
    (∀ j p, (tg ≠ .pred ∨ j ∉ rs.map (·.thread) ∨ p ≠ f.d % 8 ∨ p = 7) →
      bitOf ((b.writeAll f tg rs).thread j).preds p = bitOf (b.thread j).preds p) ∧
    (∀ j, j ∉ rs.map (·.thread) → ((b.writeAll f tg rs).thread j).rndctr = (b.thread j).rndctr) ∧
    (∀ x ∈ rs, ((b.writeAll f tg rs).thread x.thread).rndctr = ((b.thread x.thread).rndctr + x.draws) % 2 ^ 32) ∧
    (match tg with
     | .regs n => if f.dk then ∀ x ∈ rs.head?, ∀ i < n, (b.writeAll f tg rs).kregs.getD (f.d + i) 0 = wordOf x.val i
                  else ∀ x ∈ rs, ∀ i < n, (b.writeAll f tg rs).vreg? (f.d + i) x.thread = some (wordOf x.val i)
     | .pred => ∀ x ∈ rs, f.d % 8 ≠ 7 → bitOf ((b.writeAll f tg rs).thread x.thread).preds (f.d % 8) = decide (x.val % 2 = 1)
     | .none => True) := by
  by_cases hk : f.dk = true ∧ ∃ n, tg = .regs n
  · -- a k destination
    obtain ⟨hdk, n, rfl⟩ := hk
    have hnone : ∀ m, m ∉ f.destNames (.regs n) := fun m => by simp [Fld.mem_destNames_regs, hdk]
    cases hrs : rs with
    | nil =>
      have he : b.writeAll f (.regs n) [] = b := by rw [Band.writeAll_eq, hdk]; rfl
      rw [he]
      exact ⟨rfl, rfl, fun _ _ _ => rfl, fun _ _ => rfl, fun _ => rfl, fun _ _ _ => rfl, fun _ _ => rfl, by simp, by simp [hdk]⟩
    | cons r l =>
      have he : b.writeAll f (.regs n) (r :: l) = (b.writeKGroup f.d r.val n).drawEach (r :: l) := by rw [Band.writeAll_eq, hdk]
      have hr := Band.drawEach_rest (b.writeKGroup f.d r.val n) (r :: l)
      have hw := Band.writeKGroup_rest b f.d r.val n
      have ht : ∀ j, (b.writeKGroup f.d r.val n).thread j = b.thread j := fun j => by rw [hw]; rfl
      have hlen : (b.writeKGroup f.d r.val n).threads.length = b.threads.length := by rw [hw]
      rw [hrs] at hl hd
      have hkr : ∀ m, ((b.writeKGroup f.d r.val n).drawEach (r :: l)).kregs.getD m 0 =
          if f.d ≤ m ∧ m < f.d + n then wordOf r.val (m - f.d) else b.kregs.getD m 0 := by
        intro m; rw [hr]; exact Band.kregs_writeKGroup _ _ _ _ _ (hfit n rfl hdk)
      rw [he]
      refine ⟨?_, ?_, ?_, ?_, ?_, ?_, ?_, ?_, ?_⟩
      · rw [hr, hw]
      · simp [hlen]
      · intro m j _; rw [hr, hw]; rfl
      · intro m hm
        rw [hkr, if_neg]
        rcases hm with h | h | h
        · simp [hdk] at h
        · simp at h
        · have := h n rfl; omega
      · intro j; rw [Band.thread_drawEach, ht]
      · intro j p _; rw [Band.thread_drawEach, ht]
      · intro j hj; rw [Band.rndctr_drawEach_other _ _ _ hj, ht]
      · intro x hx
        rw [Band.rndctr_drawEach _ _ _ (by rw [hlen]; exact hl) hd hx, ht]
      · simp only [hdk, if_true]
        intro x hx i hi
        have hxr : r = x := by simpa using hx
        subst hxr
        rw [hkr, if_pos (by omega), Nat.add_sub_cancel_left]
  · -- v registers, predicates, or no destination
    have he : b.writeAll f tg rs = (b.writeEach f tg rs).drawEach rs := by
      rw [Band.writeAll_eq]
      split
      · rename_i n r l h; exact absurd ⟨h, n, rfl⟩ hk
      · rename_i n h; exact absurd ⟨h, n, rfl⟩ hk
      · rfl
    have hr := Band.drawEach_rest (b.writeEach f tg rs) rs
    have hw := Band.writeEach_rest b f tg rs
    have hlen : (b.writeEach f tg rs).threads.length = b.threads.length := Band.length_writeEach _ _ _ _
    have hpr : ∀ j, ((b.writeEach f tg rs).drawEach rs).thread j = { (b.writeEach f tg rs).thread j with
        rndctr := (((b.writeEach f tg rs).drawEach rs).thread j).rndctr } := fun j => Band.thread_drawEach _ _ j
    have hv : ∀ m j, ((b.writeEach f tg rs).drawEach rs).vreg? m j = (b.writeEach f tg rs).vreg? m j := fun m j => by rw [hr]; rfl
    have hrn : ∀ j, ((b.writeEach f tg rs).thread j).rndctr = (b.thread j).rndctr := fun j => by rw [Band.thread_writeEach]
    rw [he]
    refine ⟨?_, ?_, ?_, ?_, ?_, ?_, ?_, ?_, ?_⟩
    · rw [hr, hw]
    · simp
    · intro m j hm
      rw [hv]
      by_cases hdk : f.dk = true
      · -- no v name is written
        cases tg with
        | regs n => exact absurd ⟨hdk, n, rfl⟩ hk
        | pred =>
          unfold Band.writeEach
          clear he hr hw hlen hpr hv hrn hl hd hmap hm hfit
          induction rs generalizing b with
          | nil => rfl
          | cons r l ih =>
            rw [List.foldl_cons, ih]
            show (b.writeP _ _ _).vreg? m j = _
            rw [Band.writeP_rest]; rfl
        | none =>
          unfold Band.writeEach
          clear he hr hw hlen hpr hv hrn hl hd hmap hm hfit
          induction rs generalizing b with
          | nil => rfl
          | cons r l ih => rw [List.foldl_cons, ih]; rfl
      · have hdk' : f.dk = false := by simpa using hdk
        by_cases hne : rs = []
        · subst hne; rfl
        · exact Band.vreg?_writeEach_other _ _ _ _ _ _ hdk' (hmap hdk' hne) hm
    · intro m _; rw [hr, hw]
    · intro j; rw [hpr, Band.thread_writeEach]
    · intro j p hp
      rw [hpr]
      exact Band.preds_writeEach_other _ _ _ _ _ _ hl hp
    · intro j hj; rw [Band.rndctr_drawEach_other _ _ _ hj, hrn]
    · intro x hx; rw [Band.rndctr_drawEach _ _ _ (by rw [hlen]; exact hl) hd hx, hrn]
    · cases tg with
      | regs n =>
        have hdk : f.dk = false := by
          by_cases h : f.dk = true
          · exact absurd ⟨h, n, rfl⟩ hk
          · simpa using h
        simp only [hdk, Bool.false_eq_true, if_false]
        intro x hx i hi
        have hm : f.d + i ∈ f.destNames (.regs n) := (Fld.mem_destNames_regs _ _ _).2 ⟨hdk, by omega, by omega⟩
        rw [hv, Band.vreg?_writeEach _ _ _ _ _ _ hdk (hmap hdk (fun e => by simp [e] at hx)) hd hx hm, Nat.add_sub_cancel_left]
      | pred =>
        intro x hx h7
        rw [hpr]
        exact Band.preds_writeEach _ _ _ _ hl hd hx h7
      | none => trivial

/-! ### commit and perThread -/

/-- Allocation within the quota maps the names and changes no entry (R54, R56). -/
theorem State.allocate_next (s : State) (k : Nat) (b : Band) (names : List Nat) (h : b.mapped + (b.unmapped names).length ≤ b.quota) :
    s.allocate k b names = .ok (s.mapAll k b names) := by
  unfold State.allocate
  rw [if_neg (by omega)]

/-- The band that a run leaves: its last reads, its allocation, its results and its advance. -/
def State.committed (s : State) (b : Band) (f : Fld) (wa wb wc : Nat) (tg : Target) (rs : List Res) : Band :=
  let names := f.results tg rs.length
  ((s.mapAll s.issue.key ((b.lastReads f wa wb wc s.issue.threads).prune names) names).writeAll f tg rs).advance s.issue s.issue.threads

theorem State.commit_next (s : State) (b : Band) (f : Fld) (wa wb wc : Nat) (tg : Target) (rs : List Res)
    (h : ((b.lastReads f wa wb wc s.issue.threads).prune (f.results tg rs.length)).mapped
      + (((b.lastReads f wa wb wc s.issue.threads).prune (f.results tg rs.length)).unmapped (f.results tg rs.length)).length ≤ b.quota) :
    s.commit b f wa wb wc tg rs = .ok { s.putBand (s.committed b f wa wb wc tg rs) with
      issue := { s.issue with writes := s.issue.writes ++ writtenWords f tg rs, regs := s.issue.regs ++ writtenRegs f tg rs } } := by
  have hn : (if rs.isEmpty then [] else f.destNames tg) = f.results tg rs.length := by
    unfold Fld.results
    cases rs <;> simp
  unfold State.commit
  simp only [hn]
  rw [State.allocate_next _ _ _ _ (by
    have hq : ((b.lastReads f wa wb wc s.issue.threads).prune (f.results tg rs.length)).quota = b.quota := by
      rw [Band.prune_rest, Band.lastReads_rest]
    rw [hq]; exact h)]
  rfl

/-- Everything that a run's commit leaves. -/
theorem State.committed_spec (s : State) (b : Band) (f : Fld) (wa wb wc : Nat) (tg : Target) (rs : List Res)
    (hdist : s.issue.threads.Nodup) (hin : ∀ t ∈ s.issue.threads, t < b.threads.length) (hsub : ∀ r ∈ rs, r.thread ∈ s.issue.threads)
    (hd : (rs.map (·.thread)).Nodup) (hfit : ∀ n, tg = .regs n → f.dk = true → f.d + n ≤ b.kregs.length) (w : List (Nat × Nat)) (g : List (Nat × Nat)) :
    Kept s { s.putBand (s.committed b f wa wb wc tg rs) with issue := { s.issue with writes := w, regs := g } } b (s.committed b f wa wb wc tg rs)
      f wa wb wc tg (rs.map (·.thread)) ∧
    (∀ x ∈ rs, ((s.committed b f wa wb wc tg rs).thread x.thread).rndctr = ((b.thread x.thread).rndctr + x.draws) % 2 ^ 32) ∧
    (match tg with
     | .regs n => if f.dk then ∀ x ∈ rs.head?, ∀ i < n, (s.committed b f wa wb wc tg rs).kregs.getD (f.d + i) 0 = wordOf x.val i
                  else ∀ x ∈ rs, ∀ i < n, (s.committed b f wa wb wc tg rs).vreg? (f.d + i) x.thread = some (wordOf x.val i)
     | .pred => ∀ x ∈ rs, f.d % 8 ≠ 7 →
         bitOf ((s.committed b f wa wb wc tg rs).thread x.thread).preds (f.d % 8) = decide (x.val % 2 = 1)
     | .none => True) := by
  have hl : ∀ r ∈ rs, r.thread < b.threads.length := fun r hr => hin _ (hsub r hr)
  have hb1 : (b.lastReads f wa wb wc s.issue.threads).prune (f.results tg rs.length) =
      { b with regs := ((b.lastReads f wa wb wc s.issue.threads).prune (f.results tg rs.length)).regs } := by
    rw [Band.prune_rest, Band.lastReads_rest]
  have hv1 : ∀ m j, ((b.lastReads f wa wb wc s.issue.threads).prune (f.results tg rs.length)).vreg? m j =
      if m ∈ f.lastReadNames wa wb wc ∧ j ∈ s.issue.threads then none else b.vreg? m j := fun m j => by
    rw [Band.vreg?_prune, Band.vreg?_lastReads]
  unfold State.committed
  simp only
  generalize (b.lastReads f wa wb wc s.issue.threads).prune (f.results tg rs.length) = b1 at hb1 hv1 ⊢
  obtain ⟨hm1, hm2, hm3⟩ := State.mapAll_spec s s.issue.key (f.results tg rs.length) b1
  generalize s.mapAll s.issue.key b1 (f.results tg rs.length) = b2 at hm1 hm2 hm3 ⊢
  have hth : b2.threads = b.threads := by rw [hm1, hb1]
  have hkr : b2.kregs = b.kregs := by rw [hm1, hb1]
  have ht2 : ∀ j, b2.thread j = b.thread j := fun j => by unfold Band.thread; rw [hth]
  obtain ⟨w1, w2, w3, w4, w5, w6, w7, w8, w9⟩ := Band.writeAll_spec b2 f tg rs
    (by
      intro hdk hne x hx
      rw [hm3]
      have : f.results tg rs.length = f.destNames tg := by
        unfold Fld.results
        rw [if_neg (by cases rs; exact absurd rfl hne; simp)]
      rw [this]; simp [hx])
    (by rw [hth]; exact hl) hd (by rw [hkr]; exact hfit)
  generalize b2.writeAll f tg rs = b3 at w1 w2 w3 w4 w5 w6 w7 w8 w9 ⊢
  have har := Band.advance_rest b3 s.issue s.issue.threads
  have hat : ∀ j, (b3.advance s.issue s.issue.threads).thread j = if j ∈ s.issue.threads then
      { b3.thread j with pc := if s.issue.inRep then (b3.thread j).pc else ((b3.thread j).pc + s.issue.len) % 65536,
                         rep := if s.issue.inRep then (b3.thread j).rep else 0 } else b3.thread j :=
    fun j => Band.thread_advance _ _ _ _ hdist (by rw [w2, hth]; exact hin)
  have hpred : ∀ j, ((b3.advance s.issue s.issue.threads).thread j).preds = (b3.thread j).preds := fun j => by rw [hat]; split <;> rfl
  have hrnd : ∀ j, ((b3.advance s.issue s.issue.threads).thread j).rndctr = (b3.thread j).rndctr := fun j => by rw [hat]; split <;> rfl
  have hvr : ∀ m j, (b3.advance s.issue s.issue.threads).vreg? m j = b3.vreg? m j := fun m j => by rw [har]; rfl
  have hkk : (b3.advance s.issue s.issue.threads).kregs = b3.kregs := by rw [har]
  refine ⟨⟨?_, ?_, ?_, ?_, ?_, ?_, ?_⟩, ?_, ?_⟩
  · rfl
  · rw [har, w1, hm1, hb1]
  · intro n j h; rw [hvr, w3 n j h, hm2, hv1]
  · intro n h
    rw [hkk, w4 n (by
      rcases h with h | h | h
      · exact .inl h
      · exact .inr (.inl (by simpa using h))
      · exact .inr (.inr h)), hkr]
  · intro j
    by_cases hj : j ∈ s.issue.threads
    · rw [hpred, hrnd, hat, w5 j, ht2, if_pos hj, if_pos hj]
    · have hnot : j ∉ rs.map (·.thread) := fun e => by
        obtain ⟨r, hr, rfl⟩ := List.mem_map.1 e
        exact hj (hsub r hr)
      have hp : (b3.thread j).preds = (b.thread j).preds := by
        apply Nat.eq_of_testBit_eq
        intro q
        rw [← bitOf_eq_testBit, ← bitOf_eq_testBit, w6 j q (.inr (.inl hnot)), ht2]
      rw [if_neg hj, hat, if_neg hj, w5 j, hp, w7 j hnot, ht2]
  · intro j p h; rw [hpred, w6 j p h, ht2]
  · intro j h; rw [hrnd, w7 j h, ht2]
  · intro x hx; rw [hrnd, w8 x hx, ht2]
  · cases tg with
    | regs n =>
      simp only at w9 ⊢
      split
      · rename_i hdk
        rw [if_pos hdk] at w9
        intro x hx i hi; rw [hkk]; exact w9 x hx i hi
      · rename_i hdk
        rw [if_neg hdk] at w9
        intro x hx i hi; rw [hvr]; exact w9 x hx i hi
    | pred => intro x hx h7; rw [hpred]; exact w9 x hx h7
    | none => trivial

/-! ### perThread -/

theorem mapRd_ok_map {α β : Type} (f : α → Rd β) (l : List α) (r : List β) (h : mapRd f l = .ok r) :
    r.length = l.length ∧ ∀ g : β → α, (∀ a b, f a = .ok b → g b = a) → r.map g = l := by
  induction l generalizing r with
  | nil =>
    unfold mapRd at h
    cases h
    simp
  | cons a l ih =>
    unfold mapRd at h
    cases ha : f a with
    | error e => rw [ha] at h; cases h
    | ok b =>
      cases hl : mapRd f l with
      | error e => rw [ha, hl] at h; cases h
      | ok q =>
        rw [ha, hl] at h
        cases h
        obtain ⟨h1, h2⟩ := ih q hl
        refine ⟨by simp [h1], fun g hg => ?_⟩
        rw [List.map_cons, h2 g hg, hg a b ha]

theorem State.readIn_thread (s : State) (b : Band) (f : Fld) (wa wb wc t : Nat) (i : In) (h : s.readIn b f wa wb wc t = .ok i) : i.t = t := by
  unfold State.readIn at h
  split at h <;> split at h <;> split at h <;>
    simp only [bind, Except.bind, pure, Except.pure] at h <;> (repeat' split at h) <;> first | (cases h; rfl) | cases h

/-- What the operands of the guarded threads give, where no computation ends the run. -/
theorem mapRd_compute (s : State) (b : Band) (f : Fld) (wa wb wc : Nat) (op : In → Rd (Nat × Nat)) (value : In → Nat × Nat) (ts : List Nat)
    (ins : List In) (h : mapRd (s.readIn b f wa wb wc) ts = .ok ins) (hop : ∀ x ∈ ins, op x = .ok (value x)) :
    mapRd (fun t => do
        let i ← s.readIn b f wa wb wc t
        let v ← op i
        return ({ thread := t, val := v.1, draws := v.2 } : Res)) ts =
      .ok (ins.map fun x => { thread := x.t, val := (value x).1, draws := (value x).2 }) := by
  induction ts generalizing ins with
  | nil => unfold mapRd at h ⊢; cases h; rfl
  | cons t l ih =>
    unfold mapRd at h ⊢
    cases ha : s.readIn b f wa wb wc t with
    | error e => rw [ha] at h; cases h
    | ok i =>
      cases hl : mapRd (s.readIn b f wa wb wc) l with
      | error e => rw [ha, hl] at h; cases h
      | ok q =>
        rw [ha, hl] at h
        cases h
        rw [ih q hl (fun x hx => hop x (List.mem_cons_of_mem _ hx))]
        have ht : i.t = t := State.readIn_thread s b f wa wb wc t i ha
        simp only [bind, Except.bind, hop i (by simp)]
        subst ht
        rfl

theorem filterRd_sublist {α : Type} (p : α → Rd Bool) (l r : List α) (h : filterRd p l = .ok r) : r.Sublist l := by
  induction l generalizing r with
  | nil => unfold filterRd at h; cases h; exact List.Sublist.refl _
  | cons a l ih =>
    unfold filterRd at h
    cases ha : p a with
    | error e => rw [ha] at h; cases h
    | ok c =>
      cases hl : filterRd p l with
      | error e => rw [ha, hl] at h; cases h
      | ok q =>
        rw [ha, hl] at h
        cases h
        split
        · exact (ih q hl).cons_cons a
        · exact (ih q hl).cons a

/-- A thread-by-thread instruction that is ready, and whose computation ends no run, completes with its results. -/
theorem State.perThread_next (s : State) (b : Band) (f : Fld) (wa wb wc : Nat) (tg : Target) (op : In → Rd (Nat × Nat)) (value : In → Nat × Nat)
    (ts : List Nat) (ins : List In) (h : Ready s b f wa wb wc tg ts ins) (hop : ∀ x ∈ ins, op x = .ok (value x)) :
    ∃ t b', s.perThread f wa wb wc tg op = .next t ∧ Kept s t b b' f wa wb wc tg ts ∧ Landed b' f tg ins (fun x => (value x).1) ∧
      ∀ x ∈ ins, (b'.thread x.t).rndctr = ((b.thread x.t).rndctr + (value x).2) % 2 ^ 32 := by
  obtain ⟨hband, hdist, hin, hguard, hdest, hops, hfit, hroom⟩ := h
  have hsub := filterRd_sublist _ _ _ hguard
  obtain ⟨hlen, hmap⟩ := mapRd_ok_map _ _ _ hops
  have hts : ins.map (·.t) = ts := hmap _ fun a i ha => State.readIn_thread s b f wa wb wc a i ha
  let rs : List Res := ins.map fun x => { thread := x.t, val := (value x).1, draws := (value x).2 }
  have hrs : rs.map (·.thread) = ts := by
    show (ins.map _).map _ = ts
    rw [List.map_map]; exact hts
  have hrl : rs.length = ts.length := by show (ins.map _).length = _; rw [List.length_map, hlen]
  have hcomp := mapRd_compute s b f wa wb wc op value ts ins hops hop
  have hcommit := State.commit_next s b f wa wb wc tg rs (by rw [hrl]; exact hroom)
  obtain ⟨h1, h2, h3⟩ := State.committed_spec s b f wa wb wc tg rs hdist hin
    (fun r hr => hsub.subset (by rw [← hrs]; exact List.mem_map_of_mem hr)) (by rw [hrs]; exact hsub.nodup hdist) hfit
    (s.issue.writes ++ writtenWords f tg rs) (s.issue.regs ++ writtenRegs f tg rs)
  refine ⟨_, _, ?_, by rw [← hrs]; exact h1, ?_, ?_⟩
  · unfold State.perThread State.withBand
    rw [hband]
    show s.finish (do
      let ts ← b.guarded f s.issue.threads
      _) = _
    rw [hguard]
    show s.finish (if b.destPending f tg ts then _ else _) = _
    rw [hdest]
    show s.finish (do
      let rs ← mapRd _ ts
      s.commit b f wa wb wc tg rs) = _
    rw [hcomp]
    show s.finish (s.commit b f wa wb wc tg rs) = _
    rw [hcommit]
    rfl
  · unfold Landed
    cases tg with
    | regs n =>
      simp only at h3 ⊢
      split
      · rename_i hdk
        rw [if_pos hdk] at h3
        intro x hx i hi
        exact h3 { thread := x.t, val := (value x).1, draws := (value x).2 } (by
          show _ ∈ (ins.map _).head?
          rw [List.head?_map, Option.mem_def.1 hx]; rfl) i hi
      · rename_i hdk
        rw [if_neg hdk] at h3
        intro x hx i hi
        exact h3 { thread := x.t, val := (value x).1, draws := (value x).2 } (List.mem_map_of_mem hx) i hi
    | pred =>
      intro x hx h7
      exact h3 { thread := x.t, val := (value x).1, draws := (value x).2 } (List.mem_map_of_mem hx) h7
    | none => trivial
  · intro x hx
    exact h2 { thread := x.t, val := (value x).1, draws := (value x).2 } (List.mem_map_of_mem hx)

/-! ### Operands in range -/

theorem rd_bind_ok {α β : Type} {x : Rd α} {f : α → Rd β} {b : β} (h : (x >>= f) = .ok b) : ∃ a, x = .ok a ∧ f a = .ok b := by
  cases x with
  | error e => cases h
  | ok a => exact ⟨a, rfl, h⟩

/-- An operand of w bits is below 2^w; a field that is no operand reads 0. -/
theorem Band.readOpnd_lt (b : Band) (fresh t : Nat) (o : Opnd) (w pos x : Nat) (hw : w ≠ 0) (h : b.readOpnd fresh t o w pos = .ok x) : x < 2 ^ w := by
  have hpos : 0 < 2 ^ w := Nat.two_pow_pos w
  have htwo : 2 ≤ 2 ^ w := by
    have : (2 : Nat) ^ 1 ≤ 2 ^ w := Nat.pow_le_pow_right (by omega) (by omega)
    simpa using this
  unfold Band.readOpnd at h
  split at h
  · obtain ⟨a, _, h⟩ := rd_bind_ok h
    cases h; exact Nat.mod_lt _ hpos
  · obtain ⟨a, _, h⟩ := rd_bind_ok h
    cases h; exact Nat.mod_lt _ hpos
  · obtain ⟨a, _, h⟩ := rd_bind_ok h
    cases h; split <;> omega
  · cases h; exact hpos
  · cases h; exact Nat.mod_lt _ hpos

/-- The three operands of a thread, one after another. -/
theorem State.readIn_eq (s : State) (b : Band) (f : Fld) (wa wb wc t : Nat) : s.readIn b f wa wb wc t =
    ((if wa = 0 then Except.ok 0 else b.readOpnd s.fresh t f.a wa 1) >>= fun x =>
      (if wb = 0 then Except.ok 0 else b.readOpnd s.fresh t f.b wb 2) >>= fun y =>
        (if wc = 0 then Except.ok 0 else b.readOpnd s.fresh t f.c wc 3) >>= fun z =>
          .ok { band := b, t := t, a := x, b := y, c := z, fresh := s.fresh, core := s.issue.core }) := by
  unfold State.readIn
  by_cases ha : wa = 0 <;> by_cases hb : wb = 0 <;> by_cases hc : wc = 0 <;> simp only [ha, hb, hc, if_true, if_false] <;> rfl

theorem State.readIn_lt (s : State) (b : Band) (f : Fld) (wa wb wc t : Nat) (i : In) (h : s.readIn b f wa wb wc t = .ok i) :
    i.a < 2 ^ wa ∧ i.b < 2 ^ wb ∧ i.c < 2 ^ wc := by
  have one : ∀ (o : Opnd) (w pos x : Nat), (if w = 0 then Except.ok 0 else b.readOpnd s.fresh t o w pos) = Except.ok x → x < 2 ^ w := by
    intro o w pos x hx
    by_cases hw : w = 0
    · rw [if_pos hw] at hx
      cases hx
      exact Nat.two_pow_pos w
    · rw [if_neg hw] at hx
      exact Band.readOpnd_lt b s.fresh t o w pos x hw hx
  rw [State.readIn_eq] at h
  obtain ⟨x, hx, h⟩ := rd_bind_ok h
  obtain ⟨y, hy, h⟩ := rd_bind_ok h
  obtain ⟨z, hz, h⟩ := rd_bind_ok h
  cases h
  exact ⟨one _ _ _ _ hx, one _ _ _ _ hy, one _ _ _ _ hz⟩

theorem mapRd_mem {α β : Type} (f : α → Rd β) (l : List α) (r : List β) (h : mapRd f l = .ok r) (b : β) (hb : b ∈ r) : ∃ a ∈ l, f a = .ok b := by
  induction l generalizing r with
  | nil => unfold mapRd at h; cases h; simp at hb
  | cons a l ih =>
    unfold mapRd at h
    obtain ⟨x, hx, h⟩ := rd_bind_ok h
    obtain ⟨q, hq, h⟩ := rd_bind_ok h
    cases h
    rcases List.mem_cons.1 hb with rfl | hb
    · exact ⟨a, by simp, hx⟩
    · obtain ⟨c, hc, hfc⟩ := ih q hq hb
      exact ⟨c, by simp [hc], hfc⟩

/-- An instruction whose meaning is such an operation completes; the operands are below their widths. -/
theorem completes_of_perThread (i : Instr) (m : Sem) (op : State → In → Rd (Nat × Nat))
    (hi : ∀ s, exec i s = s.perThread m.f m.wa m.wb m.wc m.tg (op s))
    (hop : ∀ s x, x.a < 2 ^ m.wa → x.b < 2 ^ m.wb → x.c < 2 ^ m.wc → m.ok s x → op s x = .ok (m.value s x)) : Completes i m := by
  intro s b ts ins h hok
  rw [hi]
  refine State.perThread_next s b m.f m.wa m.wb m.wc m.tg (op s) (m.value s) ts ins h fun x hx => ?_
  obtain ⟨t, _, ht⟩ := mapRd_mem _ _ _ h.operands x hx
  obtain ⟨h1, h2, h3⟩ := State.readIn_lt _ _ _ _ _ _ _ _ ht
  exact hop s x h1 h2 h3 (hok x hx)

end Sys2Proof.Machine
end

