-- ==== Sys2Proof/Laws/Place.lean ====
section
/-!
SUPPORT. Sys2Proof/Laws/Place.lean: when a core, a core pair or a save area has room. Which free place is taken is the device's or the
firmware's choice (log entry 7), so these lemmas say that a place exists and what holds of whichever is taken.
-/
namespace Sys2Proof.Machine

/-- A choice among the members of a list exists where the list has any. -/
theorem pick_isSome {α : Type} (l : List α) (n : Nat) : (l[n % max l.length 1]?).isSome = !l.isEmpty := by
  cases l with
  | nil => simp
  | cons a r =>
    have h : n % (r.length + 1) < r.length + 1 := Nat.mod_lt _ (by omega)
    simp [h]

/-- The chosen member is one of the list. -/
theorem pick_mem {α : Type} (l : List α) (n : Nat) (x : α) (h : l[n % max l.length 1]? = some x) : x ∈ l :=
  List.mem_of_getElem? h

/-- A region is free where some gap holds it (R389). -/
theorem freeBase_isSome (size total : Nat) (used : List (Nat × Nat)) (salt : Nat) :
    (freeBase size total used salt).isSome = (decide (size = 0) || !(freeGaps size total used).isEmpty) := by
  by_cases h : size = 0
  · simp [freeBase, h]
  · unfold freeBase
    rw [if_neg h, Option.isSome_map, pick_isSome]
    simp [h]

/-- Whether some lane of some of the cores has a free slot for a band (R53, R56). -/
def State.someLane (s : State) (cores : List Nat) (width q : Nat) : Bool :=
  !(cores.flatMap fun c => ((List.range 64).filter fun l => s.laneAdmits c l width q).map fun l => (c, l)).isEmpty

/-- One band has a seat where some lane admits it; it is one slot. -/
theorem State.seats_one (s : State) (cores : List Nat) (width q : Nat) (h : s.someLane cores width q = true) :
    ∃ k, s.seats cores width [q] = some [k] := by
  unfold State.someLane at h
  rw [← pick_isSome _ (Config.pick s.fresh 0), Option.isSome_iff_exists] at h
  obtain ⟨⟨c, l⟩, hx⟩ := h
  have hx' : (cores.flatMap fun c => ((List.range 64).filter fun l => s.laneAdmits c l width q).map fun l => (c, l))[Config.pick s.fresh
      (2 * ([] : List Nat).length) % max (cores.flatMap fun c => ((List.range 64).filter fun l => s.laneAdmits c l width q).map fun l => (c, l)).length 1]?
      = some (c, l) := hx
  unfold State.seats
  simp only [hx']
  exact ⟨_, rfl⟩

/-- Where a site's room for a team of one band stands open (R497): a seat and a base of a scratchpad region. -/
theorem State.roomAt_one (s : State) (w : Want) (site q : Nat) (hq : w.quotas = [q])
    (h : (w.clusters.contains (siteCluster site) && (siteCores site).all s.coreWorks && !(w.single && decide (384 ≤ site)) && s.overlaysFit (siteCores site) w
      && s.someLane (siteCores site) w.width q
      && (decide (w.scratch = 0) || !(freeGaps w.scratch (2 ^ 22) ((s.cluster (siteCluster site)).allocs.map fun a => (a.1, a.2.1))).isEmpty)) = true) :
    ∃ k base, s.roomAt w site = some ([k], base) := by
  simp only [Bool.and_eq_true] at h
  obtain ⟨⟨⟨⟨⟨h1, h2⟩, h3⟩, h4⟩, h5⟩, h6⟩ := h
  rw [← freeBase_isSome _ _ _ (Config.pick s.fresh 1000), Option.isSome_iff_exists] at h6
  obtain ⟨base, hb⟩ := h6
  obtain ⟨k, hk⟩ := s.seats_one (siteCores site) w.width q h5
  refine ⟨k, base, ?_⟩
  unfold State.roomAt
  have hc : (!w.clusters.contains (siteCluster site) || !(siteCores site).all s.coreWorks || (w.single && decide (384 ≤ site)) || !s.overlaysFit (siteCores site) w) = false := by
    rw [h1, h2, h4]; revert h3; cases w.single <;> simp
  simp only [hc, hq, hk, hb]
  rfl

/-- A save area has room for a record where some gap of it holds the record (R389). -/
theorem State.recordRoom_isSome (s : State) (ctx size : Nat) (c : Ctx) (hc : s.ctx? ctx = some c) :
    (s.recordRoom ctx size).isSome = (decide (size = 0) || !(freeGaps size (c.csasize - 2304 * 96) (c.records.map fun r => (r.1 - (c.csabase + 2304 * 96), r.2))).isEmpty) := by
  unfold State.recordRoom
  simp only [hc, Option.isSome_map]
  exact freeBase_isSome _ _ _ _

end Sys2Proof.Machine
end

