-- ==== Sys2Proof/Tests/Slice0.lean ====
section
/-!
SUPPORT. Sys2Proof/Tests/Slice0.lean: the model's own tests: ill-formed terms that the checks refuse, words written out from the encoding
tables, single steps with results worked out from the rules, and for the statements' hypotheses, states and operands that meet them.
-/
set_option maxRecDepth 20000
set_option exponentiation.threshold 8192
namespace Sys2Proof.Tests
open Sys2Proof Sys2Proof.Machine

/-- The state that an outcome answers. -/
def after (o : Out) : State := match o with | .next t => t | _ => State.reset

/-- A band of 16 threads at word 0 of core 0, with a program, and one step of it. -/
def prog (ws : List Word) : State := State.reset.withProgram ws
/-- The band of the first slot. -/
def band0 (s : State) : Band := (s.band? 0).getD probeBand
/-- A state with its first band changed. -/
def withB (s : State) (f : Band → Band) : State := s.setBand 0 (f (band0 s))
/-- A band with a register's value in some threads. -/
def setV (n : Nat) (vals : Tbl Word) (b : Band) : Band := { b with regs := b.regs ++ [{ name := n, preg := n, vals := vals }] }
/-- A v register's value in a thread. -/
def v (s : State) (n t : Nat) : Option Word := (band0 s).vreg? n t
/-- One step. -/
def stepped (s : State) : State := after (step s)
/-- The issue register at the first slot's word 0. -/
def atIssue (s : State) (ts : List Nat) : State := { s with issue := { threads := ts } }

/-- A run on a band, from facts that are decided. -/
theorem runsOf (s : State) (b : Band) (h : s.issue.lane < 64 ∧ s.issue.slot < 4 ∧ s.band? s.issue.key = some b ∧ s.issue.threads.Nodup ∧
    ∀ t ∈ s.issue.threads, t < b.threads.length) : Runs s b := ⟨h.1, h.2.1, h.2.2.1, h.2.2.2.1, h.2.2.2.2⟩
/-- An answer read from what it is as an option. -/
theorem okOf {α : Type} (x : Rd α) (a : α) (h : x.toOption = some a) : x = .ok a := by
  cases x with
  | error e => cases h
  | ok b => cases h; rfl
/-- What a thread-by-thread instruction needs, for a v destination, from facts that are decided. -/
theorem readyOf (s : State) (b : Band) (f : Fld) (wa wb wc : Nat) (tg : Target) (ts : List Nat) (ins : List In)
    (h : s.band? s.issue.key = some b ∧ s.issue.threads.Nodup ∧ (∀ t ∈ s.issue.threads, t < b.threads.length) ∧
      (b.guarded f s.issue.threads).toOption = some ts ∧ b.destPending f tg ts = false ∧ (mapRd (s.readIn b f wa wb wc) ts).toOption = some ins ∧ f.dk = false ∧
      ((b.lastReads f wa wb wc s.issue.threads).prune (f.results tg ts.length)).mapped
        + (((b.lastReads f wa wb wc s.issue.threads).prune (f.results tg ts.length)).unmapped (f.results tg ts.length)).length ≤ b.quota) :
    Ready s b f wa wb wc tg ts ins :=
  ⟨h.1, h.2.1, h.2.2.1, okOf _ _ h.2.2.2.1, h.2.2.2.2.1, okOf _ _ h.2.2.2.2.2.1, fun _ _ hd => absurd (h.2.2.2.2.2.2.1.symm.trans hd) Bool.false_ne_true, h.2.2.2.2.2.2.2⟩

/-- Translations of addresses of the device half, from facts that are decided: `cachedIs`, `mappedIs` and `portIs`. -/
theorem cachedIs (s : State) (u ia : Nat) (w : Bool) (r : Option Nat)
    (h : ia < 2 ^ 51 ∧ (Tbl.find? (Tbl.get s.tlbs u []) (pageOf ia)).map (fun f => f + ia % 65536) = r) : s.cached u ia w = r := (s.cached_of_lt u ia w h.1).trans h.2
theorem mappedIs (s : State) (ia : Nat) (w r : Bool) (h : ia < 2 ^ 51 ∧ (match s.walk ia with | .frame _ => true | _ => false) = r) : s.mapped ia w = r :=
  (s.mapped_of_lt ia w h.1).trans (by have h2 := h.2; revert h2; cases s.walk ia <;> exact id)
theorem portIs (s : State) (u ia pa : Nat) (w : Bool) (h : ia < 2 ^ 51 ∧ (Tbl.find? (Tbl.get s.tlbs u []) (pageOf ia)).map (fun f => f + ia % 65536) = some pa) :
    s.portPA u ia w = some pa := by
  rw [s.portPA_of_lt u ia w h.1, h.2]

/-! ### Words of the spec's own encodings (R64 to R81 and the examples of the chapters) -/

/-- A Form X of zeros with guard p7. -/
def fx : FormX := { g := 7, ac := 0, a := 0, dc := 0, d := 0, mf := 0, sub := 0, lc := 0, lb := 0, la := 0, gn := 0, cc := 0, c := 0, bc := 0, b := 0, w2 := 0 }

theorem test_decode_imad : decode [0xE008_2819, 0x0080_0C02, 8] = some (.imad (.x { fx with a := 1, d := 10, c := 3, b := 2, lc := 1, w2 := 8 }), 3) := by decide
theorem test_decode_mov64 : decode [0x9000_186E, 0x89AB_CDEF, 0x0123_4567] =
    some (.movX (.sLit { m := 9, b := 0, a := 0, d := 6 } 0x0123456789ABCDEF), 3) := by decide
theorem test_decode_movk_literal : decode [0xE004_9C6F, 0x0000_02FF, 0, 1, 0] = some (.movX (.xLit { fx with dc := 1, d := 39, bc := 2, b := 0xFF } 1), 5) := by decide
theorem test_decode_cvt : decode [0xE028_1101, 0x2000_0000, 5] = some (.cvt (.x { fx with a := 5, d := 4, mf := 2, w2 := 5 }), 3) := by decide
theorem test_decode_icmp : decode [0x6000_0462 + 4 * 2 ^ 16, 2, 0] = some (.icmpX (.sLit { m := 6, b := 0, a := 4, d := 1 } 2), 3) := by decide
theorem test_decode_bred : decode [0xE040_254B, 0x8000_02FF, 0, 0xFFFF, 0] = some (.bred (.xLit { fx with a := 8, d := 9, mf := 8, bc := 2, b := 0xFF } 0xFFFF), 5) := by decide
theorem test_decode_call : decode [0x0005_DD90] = some (.call { off := 23, gn := 0, g := 7 }, 1) := by decide
theorem test_decode_bra_back : Decode.decodeAt 29 [0xFFFD_0580] = .ok (.bra { off := 0x3FFF4, gn := 0, g := 1 }, 1) := rfl
theorem test_decode_callx : decode [0xE000_0195, 5, 1] = some (.callx (.x { fx with b := 5, w2 := 1 }), 3) := by decide
theorem test_decode_waitc : decode [0xE000_0299, 0, 0] = some (.waitc fx, 3) := by decide
theorem test_decode_fence : decode [0x2000_0E1C] = some (.fence { m := 2, b := 0, a := 0, d := 3 }, 1) := by decide
theorem test_decode_tcpy : decode [0xE8A0_0281, 0, 3] = some (.tcpy { fx with ac := 1, a := 20, w2 := 3 }, 3) := by decide
theorem test_decode_twany : decode [0xE000_028B, 0x0000_02FF, 0, 0x18, 0] = some (.twanyX (.xLit { fx with bc := 2, b := 0xFF } 0x18), 5) := by decide
theorem test_decode_st : decode [0xE810_1A05, 0xD800_0208, 0x40] = some (.stX { fx with ac := 1, a := 2, d := 6, mf := 13, sub := 8, bc := 2, b := 8, w2 := 0x40 }, 3) := by decide
theorem test_decode_ld : decode [0xE810_8201, 0x0700_0208, 0x166] = some (.ldX { fx with ac := 1, a := 2, d := 32, sub := 7, bc := 2, b := 8, w2 := 0x166 }, 3) := by decide
theorem test_decode_atom2 : decode [0xE010_1617, 0x0000_02FF, 0, 0x0001_3BC0, 0] = some (.atom2 (.xLit { fx with a := 2, d := 5, bc := 2, b := 0xFF } 0x13BC0), 5) := by decide
theorem test_decode_mma : decode [0x88C0_02C1, 0, 0] = some (.mma { fx with g := 4, ac := 1, a := 24 }, 3) := by decide
theorem test_decode_rslv : decode [0xE000_02C9, 0x1000_0000, 0x0003_0A01] = some (.rslv { fx with mf := 1, w2 := 0x30A01 }, 3) := by decide
theorem test_decode_acz : decode [0x0000_0ED8] = some (.acz { m := 0, b := 0, a := 0, d := 3 }, 1) := by decide
theorem test_decode_aczX : decode [0x2000_02D9, 0, 0] = some (.aczX { fx with g := 1 }, 3) := by decide
theorem test_decode_acst : decode [0xE8E0_02D1, 0, 0] = some (.acst { fx with ac := 1, a := 28 }, 3) := by decide
theorem test_decode_mroute : decode [0xE940_02ED, 0, 0] = some (.mroute { fx with ac := 1, a := 40 }, 3) := by decide
theorem test_decode_barw : decode [0xE870_030D, 9, 0] = some (.barw (.x { fx with ac := 1, a := 14, b := 9 }), 3) := by decide
theorem test_decode_taskp : decode [0x8890_0311, 0, 0] = some (.taskp { fx with g := 4, ac := 1, a := 18 }, 3) := by decide
theorem test_decode_pncmd : decode [0xE8A4_5B21, 0x0300_0000, 0] = some (.pncmd { fx with ac := 1, a := 20, dc := 1, d := 22, sub := 3 }, 3) := by decide
/-- The words of the opcode table that have no operand: RET, EXIT, NOP, YIELD, TRET, MFENCE, WAITW. -/
theorem test_decode_bare : [0x198#32, 0x19C, 0x1A8, 0x1B0, 0x34C, 0x2C4, 0x224].map (fun w => (decode [w]).map (·.1)) =
    [some (.ret { imm := 0, d := 0 }), some (.exit { imm := 0, d := 0 }), some (.nop { imm := 0, d := 0 }), some (.yield { imm := 0, d := 0 }),
     some (.tret { imm := 0, d := 0 }), some (.mfence { m := 0, b := 0, a := 0, d := 0 }), some (.waitw { m := 0, b := 0, a := 0, d := 0 })] := by decide
/-- R81: REP's fields: count 63, the strides of D, A and B. -/
theorem test_decode_rep : decode [0b0000000_100_010_001_111111_01111111_00#32] = some (.rep { mbz := 0, bstep := 4, astep := 2, dstep := 1, count := 63, len := 0 }, 1) := by decide

/-! ### Ill-formed instructions that the checks refuse, one for each reason of R87 that an instruction's own fields can have -/

/-- A type that IADD does not list; RND 6; a scope of 0 for an ordered load. -/
theorem test_ill_subop : (Instr.iadd { m := 8, b := 0, a := 0, d := 0 }).illegal? = some 4 ∧ (Instr.faddX (.x { fx with w2 := 6 })).illegal? = some 4 ∧
    (Instr.ldX { fx with sub := 8, mf := 8 }).illegal? = some 4 := by decide
/-- A literal form of an opcode without one. -/
theorem test_ill_length : (Instr.iaddcX (.sLit { m := 0, b := 0, a := 0, d := 0 } 1)).illegal? = none ∧ (Instr.popcX { fx with sub := 3, ac := 3 }).illegal? = some 5 := by decide
/-- A destination of class "special", a reserved class. -/
theorem test_ill_class : (Instr.bfx (.x { fx with ac := 3 })).illegal? = some 5 ∧ (Instr.vote (.x { fx with bc := 0, b := 4 })).illegal? = some 5 := by decide
/-- k64, an odd pair, and a special operand past p7 and zero. -/
theorem test_ill_register : (Instr.iaddX (.x { fx with ac := 1, a := 64 })).illegal? = some 6 ∧ (Instr.ld { m := 8, b := 0, a := 3, d := 0 }).illegal? = some 6 ∧
    (Instr.iaddX (.x { fx with ac := 2, a := 9 })).illegal? = some 6 := by decide
/-- A literal beside a B field that does not select it, and a literal wider than its operand. -/
theorem test_ill_literal : (Instr.iaddX (.xLit fx 1)).illegal? = some 7 ∧ (Instr.iaddX (.sLit { m := 0, b := 0, a := 0, d := 0 } 0x100000000)).illegal? = some 7 := by decide
/-- A must-be-zero field. -/
theorem test_ill_mbz : (Instr.nop { imm := 1, d := 0 }).illegal? = some 8 ∧ (Instr.waitc { fx with a := 1 }).illegal? = some 8 ∧
    (Instr.iaddX (.x { fx with mf := 1 })).illegal? = some 8 := by decide
/-- REP's fields, and a constructor whose own sub-operation is another's. -/
theorem test_ill_rep : (Instr.rep { mbz := 1, bstep := 0, astep := 0, dstep := 0, count := 0, len := 0 }).illegal? = some 10 ∧
    (Instr.popc { m := 2, b := 0, a := 0, d := 0 }).wellFormed = false ∧ (Instr.tcpy { fx with sub := 1 }).wellFormed = false := by decide

/-! ### Encoding, decoding and the step -/

theorem wit_RoundTrip : (Instr.iadd { m := 0, b := 63, a := 0, d := 62 }).wellFormed = true ∧
    (Instr.iadd { m := 0, b := 63, a := 0, d := 62 }).form? = some (1, .s { m := 0, b := 63, a := 0, d := 62 }) ∧
    Decode.branchReason 65535 (.s { m := 0, b := 63, a := 0, d := 62 }) = none := by decide
theorem wit_RoundTrip_branch : (Instr.bra { off := 3, gn := 1, g := 2 }).wellFormed = true ∧
    Decode.branchReason 16380 (.b { off := 3, gn := 1, g := 2 }) = none ∧ Decode.branchReason 16381 (.b { off := 3, gn := 1, g := 2 }) = some 9 := by decide
theorem wit_DecodedReencodes : Decode.decodeAt 0 [0b1111111111111110_000101_00011101_00#32] = .ok (.ldi { imm := 0xFFFE, d := 5 }, 1) := rfl
theorem wit_RefusedEncodings_short : Decode.opOf 1#32 ≠ 0x7F ∧ ([] : List Word).length + 1 < Decode.wordsOf (Decode.lenOf 1#32) := by decide
theorem wit_RefusedEncodings_opcode : Decode.opOf 0#32 ≠ 0x7F ∧ Decode.wordsOf (Decode.lenOf 0#32) ≤ ([] : List Word).length + 1 ∧
    Legal.opInfo (Decode.opOf 0#32) = none := by decide
theorem wit_RefusedEncodings_len : let w := 0b0001_1100_11#32
    Decode.opOf w ≠ 0x7F ∧ Decode.wordsOf (Decode.lenOf w) ≤ ([0, 0, 0, 0] : List Word).length + 1 ∧
    Legal.opInfo (Decode.opOf w) = some (1, [0, 1]) ∧ Decode.lenOf w ∉ [0, 1] := by decide
theorem wit_RefusedEncodings_target : ((0 : Nat) : Int) + (0x3FFFF#18).toInt < (0 / 16384 * 16384 : Nat) ∧
    (16383 / 16384 * 16384 + 16384 : Nat) ≤ ((16383 : Nat) : Int) + (1#18).toInt ∧ (16383 : Nat) < 65536 := by decide
/-- Turns: NOP retires; WAITC of a count that is not reached holds; the word 0 does not decode. -/
def ws2 (s : State) : State := let s1 := ({ s with agenda := [] } : State).tick; s1.setLane 0 { s.lane 0 with skip := none }
theorem wit_StepRunsDecoded : let s := prog [0x1A8#32]
    s.agenda = [.turn 0 0] ∧ (s.lane 0).order = [0, 1, 2, 3] ∧ (ws2 s).band? 0 = some probeBand ∧ (ws2 s).mayIssue 0 probeBand = true ∧
    probeBand.firstDone = none ∧ probeBand.nextRun = some { threads := List.range 16, rot := false, single := false } ∧
    (ws2 s).breakpoint probeBand 0 0 (List.range 16) = none ∧ (after (exec (.nop { imm := 0, d := 0 }) (atIssue (ws2 s) (List.range 16)))).issue.held = false ∧
    decode ((ws2 s).wordsFrom 0 0) = some (.nop { imm := 0, d := 0 }, 1) := by decide
def held0 : State := withB (prog [0xE000_0299, 0, 0]) fun b => { b with groups := [{ gid := 1, cls := .ld, left := [(0, 1)] }] }
theorem wit_StepRunsDecoded_held : (ws2 held0).mayIssue 0 (band0 held0) = true ∧ (band0 held0).nextRun = some { threads := List.range 16, rot := false, single := false } ∧
    decode ((ws2 held0).wordsFrom 0 0) = some (.waitc fx, 3) ∧
    let t := after (exec (.waitc fx) (atIssue (ws2 held0) (List.range 16)))
    t.issue.held = true ∧ ∀ x ∈ [1, 2, 3], ((ws2 held0).afterWatch t 0 0xA6).band? (slotKey 0 0 x) = none := by decide
theorem wit_StepRunsDecoded_refused : let s := prog [0]
    Decode.decodeAt 0 ((ws2 s).wordsFrom 0 0) = .error 2 ∧
    (State.stopRun (atIssue (ws2 s) (List.range 16)) (.trap { cause := 1, reason := 2, word := 0 })).issue.held = false := ⟨rfl, by decide⟩
theorem wit_StepRunsEvent : isEvent (.linkEnable 3) = true ∧ State.reset.powered = true ∧ onVaux .getEndpointId = true ∧ isEvent (.nop { imm := 0, d := 0 }) = false ∧
    onVaux (.linkEnable 3) = false := by decide
theorem wit_NextRunIsFirstKey : let b : Band := { probeBand with bec := 16, threads := [{ pc := 5 }, { pc := 3 }, { pc := 3 }, { state := .exited }] }
    b.stepping = none ∧ b.nextRun = some { threads := [0], rot := true, single := false } ∧
    { b with bec := 15 }.nextRun = some { threads := [1, 2], rot := false, single := false } := by decide
theorem wit_StepSettles : ∃ t, step (prog [0x1A8]) = .next t := ⟨_, rfl⟩
theorem wit_MemoryReadsBack : Memory.wf [(7, 1), (9, 255)] = true ∧ (7 : Nat) + 2 ≤ 9 := by decide

/-! ### Control flow and thread-by-thread instructions -/

/-- Threads 0 and 1 of the probe band at word 0 of core 0. -/
def s0 : State := atIssue (prog []) [0, 1]
theorem runs0 : Runs s0 probeBand := runsOf _ _ (by decide)
/-- The guard p7 lets both act, and !p7 none. -/
theorem guard0 : Guarded probeBand 7 false [0, 1] [0, 1] ∧ Guarded probeBand 7 true [0, 1] [] := by unfold Guarded; decide
/-- A guard that splits the run: p2 of thread 1. -/
def split2 : Band := { probeBand with threads := [{}, { preds := 4 }] }
def sSplit : State := atIssue ((prog []).setBand 0 split2) [0, 1]
theorem wit_BranchesMoveGuardedThreads : Runs sSplit split2 ∧ Guarded split2 2 false [0, 1] [1] ∧ Guarded split2 2 true [0, 1] [0] :=
  ⟨runsOf _ _ (by decide), by unfold Guarded; decide⟩
/-- R163: BRA at word 0 with OFF 3 under p2: thread 1 goes to 3, thread 0 to 1. -/
theorem test_bra : let t := band0 (after (exec (.bra { off := 3, gn := 0, g := 2 }) sSplit))
    (t.thread 0).pc = 1 ∧ (t.thread 1).pc = 3 := by decide
theorem wit_AdvanceOnly_safe : let b : Band := { probeBand with stop := some (2, 5) }
    Runs (atIssue ((prog []).setBand 0 b) [0, 1]) b ∧ b.stop = some (2, 5) ∧ probeBand.stop ≠ some (2, 5) :=
  ⟨runsOf _ _ (by decide), by decide⟩
/-- A band whose v5 of both threads names word 2 of overlay 0, which is PAD 1. -/
def pads : State := atIssue (withB (prog [0, 0, 0x1018C, 0x2018C]) (setV 5 [(0, 2), (1, 2)])) [0, 1]
theorem wit_BrxBranchesToPads : Runs pads (band0 pads) ∧
    (∀ t ∈ [0, 1], ((band0 pads).readOpnd pads.fresh t (viewXL (.x { fx with b := 5, w2 := 1 })).b 32 2).toOption = some 2) ∧
    (∀ t ∈ [0, 1], ((band0 pads).thread t).depth ≠ 255) ∧ (pads.core 0).slotOf? 0 = some 0 ∧ pads.wordAt 0 2 = some (BitVec.ofNat 32 (1 * 65536 + 0x18C)) ∧
    (pads.core 0).slotOf? (0x10002 / 65536) = none ∧ pads.wordAt 0 3 ≠ some (BitVec.ofNat 32 (1 * 65536 + 0x18C)) :=
  ⟨runsOf _ _ (by decide), by decide⟩

/-- v1 and v2 of both threads. -/
def vals (a b : Word) : State := atIssue (withB (prog []) fun x => setV 2 [(0, b), (1, b)] (setV 1 [(0, a), (1, a)] x)) [0, 1]
/-- The operands of both threads of `vals`. -/
def inAt (a b t : Nat) : In := { band := band0 (vals a b), t := t, a := a, b := b, c := 0, fresh := 0, core := 0 }
theorem wit_IntegerCompletes : Ready (vals 7 5) (band0 (vals 7 5)) (viewS { m := 0, b := 2, a := 1, d := 3 }) 32 32 0 (.regs 1) [0, 1] [inAt 7 5 0, inAt 7 5 1] :=
  readyOf _ _ _ _ _ _ _ _ _ (by decide)
theorem wit_UnaryAndMovesComplete : Ready (vals 7 5) (band0 (vals 7 5)) (viewX { fx with a := 1, d := 3, sub := 3 }) 32 0 0 (.regs 1) [0, 1]
    [{ inAt 7 5 0 with b := 0 }, { inAt 7 5 1 with b := 0 }] := readyOf _ _ _ _ _ _ _ _ _ (by decide)

/-- What an instruction with D = v3 leaves there in thread 0, with A = v1 and B = v2. -/
def res (i : Instr) (a b : Word) : Option Word := v (after (exec i (vals a b))) 3 0
/-- Form S and Form X with those operands. -/
def fs (m : BitVec 4) : FormS := { m := m, b := 2, a := 1, d := 3 }
def fx3 (sub : BitVec 4) (w2 : BitVec 32) : XL := .x { fx with a := 1, b := 2, d := 3, sub := sub, w2 := w2 }
/-- R111, R116: sums wrap, or clamp under SAT; a carry out; the high half of a product, signed and unsigned. -/
theorem test_sums : [res (.iadd (fs 0)) 0xFFFFFFFF 1, res (.iaddX (fx3 0 8)) 0x7FFFFFFF 1, res (.isub (fs 1)) 0 1, res (.iaddc (fs 1)) 0xFFFFFFFF 1,
    res (.imul (fs 0)) 0x10001 0x10001, res (.imulh (fs 1)) 0xFFFFFFFF 0xFFFFFFFF, res (.imulh (fs 0)) 0xFFFFFFFF 0xFFFFFFFF] =
    [some 0, some 0x7FFFFFFF, some 0xFFFFFFFF, some 1, some 0x20001, some 0xFFFFFFFE, some 0] := by decide
/-- R116: division truncates; by zero it gives all ones and the remainder is A; the extremes by sign. -/
theorem test_quotients : [res (.idiv (fs 0)) 0xFFFFFFF9 2, res (.irem (fs 0)) 0xFFFFFFF9 2, res (.idiv (fs 1)) 7 0, res (.irem (fs 1)) 7 0,
    res (.imin (fs 0)) 0xFFFFFFFF 1, res (.imin (fs 1)) 0xFFFFFFFF 1, res (.imax (fs 0)) 0xFFFFFFFF 1] =
    [some 0xFFFFFFFD, some 0xFFFFFFFF, some 0xFFFFFFFF, some 7, some 0xFFFFFFFF, some 1, some 1] := by decide
/-- R118, R119: logic on the patterns; shifts by the whole amount. -/
theorem test_logic_shifts : [res (.and (fs 8)) 0xFF00 0x0FF0, res (.or (fs 8)) 0xFF00 0x0FF0, res (.xor (fs 8)) 0xFF00 0x0FF0, res (.andn (fs 8)) 0xFF00 0x0FF0,
    res (.and (fs 6)) 0x80 0xFF, res (.shl (fs 1)) 1 31, res (.shl (fs 1)) 1 32, res (.shr (fs 0)) 0x80000000 31, res (.sha (fs 0)) 0x80000000 99,
    res (.rotl (fs 1)) 0x80000001 33] =
    [some 0x0F00, some 0xFFF0, some 0xF0F0, some 0xF000, some 0xFFFFFF80, some 0x80000000, some 0, some 1, some 0xFFFFFFFF, some 3] := by decide
/-- R120: the unary operations. -/
theorem test_unary : [res (.not { m := 0, b := 0, a := 1, d := 3 }) 0xF 0, res (.iabs { m := 1, b := 0, a := 1, d := 3 }) 0xFFFFFFFB 0,
    res (.ineg { m := 2, b := 0, a := 1, d := 3 }) 5 0, res (.popc { m := 3, b := 0, a := 1, d := 3 }) 0xF0F1 0, res (.clz { m := 4, b := 0, a := 1, d := 3 }) 1 0,
    res (.ctz { m := 5, b := 0, a := 1, d := 3 }) 8 0, res (.ctz { m := 5, b := 0, a := 1, d := 3 }) 0 0, res (.brev { m := 6, b := 0, a := 1, d := 3 }) 1 0] =
    [some 0xFFFFFFF0, some 5, some 0xFFFFFFFB, some 9, some 31, some 3, some 32, some 0x80000000] := by decide
/-- R121, R122, R126, R128: BFX of 4 bits from bit 4, signed; BFI; BPERM with a sign byte; MOV and LDI. -/
theorem test_fields : [res (.bfx (fx3 0 0)) 0xF0 0x0404, res (.bfx (fx3 1 0)) 0xF0 0x0404, res (.bfi (.x { fx with a := 1, b := 2, d := 3, sub := 1, cc := 2, c := 8 })) 5 7,
    res (.bperm (.x { fx with a := 1, b := 2, d := 3, cc := 2, c := 8 })) 0x11223344 0, res (.mov { m := 6, b := 2, a := 0, d := 3 }) 0 0x80, res (.ldi { imm := 0x8000, d := 3 }) 0 0] =
    [some 0xFFFFFFFF, some 0xF, some 5, some 0x44444444, some 0xFFFFFF80, some 0xFFFF8000] := by decide
/-- R124, R125: a signed and an unsigned comparison of −1 and 1 into p3, and PLOP's table read at 2·a + b. -/
theorem test_predicates : let p (i : Instr) := bitOf ((band0 (after (exec i (vals 0xFFFFFFFF 1)))).thread 0).preds 3
    p (.icmp { m := 2, b := 2, a := 1, d := 3 }) = true ∧ p (.icmp { m := 6, b := 2, a := 1, d := 3 }) = false ∧
    p (.plop { m := 0b1000, b := 7, a := 7, d := 3 }) = true ∧ p (.plop { m := 0b0100, b := 7, a := 7, d := 3 }) = false ∧
    (band0 (after (exec (.icmp { m := 2, b := 2, a := 1, d := 7 }) (vals 0 1)))).thread 0 = { pc := 1 } := by decide
/-- R115: the spec's `mov.b64 v6` with its literal. -/
theorem test_mov64 : let t := after (exec (.movX (.sLit { m := 9, b := 0, a := 0, d := 6 } 0x0123456789ABCDEF)) (vals 0 0))
    v t 6 0 = some 0x89ABCDEF ∧ v t 7 1 = some 0x01234567 := by decide
/-- R129 to R134 on FP32: 1 + 2, 1 − 2, 1.5 × 2, 1 / 2, min(−0, +0), √4, 1/∞. -/
theorem test_floats : [res (.fadd (fs 0)) 0x3F800000 0x40000000, res (.fsub (fs 0)) 0x3F800000 0x40000000, res (.fmul (fs 0)) 0x3FC00000 0x40000000,
    res (.fdiv (fs 0)) 0x3F800000 0x40000000, res (.fmin (fs 0)) 0 0x80000000, res (.fsqrt { m := 0, b := 0, a := 1, d := 3 }) 0x40800000 0,
    res (.frcp { m := 0, b := 0, a := 1, d := 3 }) 0x7F800000 0, res (.fadd (fs 0)) 0x7F800000 0xFF800000] =
    [some 0x40400000, some 0xBF800000, some 0x40400000, some 0x3F000000, some 0x80000000, some 0x40000000, some 0, some 0x7FC00000] := by decide
/-- The example under R143: four values quantised to E4M3 and read back. -/
def quant : State := atIssue (withB (prog []) fun x => setV 8 [(0, 0x42C80000)] (setV 3 [(0, 0x40E00000)] (setV 2 [(0, 0x3C000000)] (setV 1 [(0, 0xC0500000)] (setV 0 [(0, 0x42C80000)] x))))) [0]
def quant1 : State := after (exec (.scalex (.x { fx with a := 8, d := 9, sub := 5 })) (withB quant (setV 9 [(0, 0)])))
def quant2 : State := after (exec (.qpack (.x { fx with a := 0, b := 9, d := 10, sub := 5 })) (withB quant (setV 9 [(0, 0x7D)])))
def quant3 : State := after (exec (.qunpk (.x { fx with a := 10, b := 9, d := 12, sub := 5 })) (withB quant fun x => setV 10 [(0, 0x5E10D57C)] (setV 9 [(0, 0x7D)] x)))
theorem test_scalex : v quant1 9 0 = some 0x7D := by decide
theorem test_qpack : v quant2 10 0 = some 0x5E10D57C := by decide
theorem test_qunpk : [v quant3 12 0, v quant3 13 0, v quant3 14 0, v quant3 15 0] = [some 0x42C00000, some 0xC0500000, some 0x3C000000, some 0x40E00000] := by decide
/-- R139, R138: 1 + 2^−10 to BF16 to nearest even, −3.25 to a signed integer, and 5 to FP32. -/
theorem test_cvt : [res (.cvt (.x { fx with a := 1, d := 3, mf := 2 })) 0x3F802000 0, res (.cvt (.x { fx with a := 1, d := 3, mf := 0, sub := 0, w2 := 0x400 })) 0xC0500000 0,
    res (.cvt (.x { fx with a := 1, d := 3, mf := 0, sub := 0, w2 := 0x200 })) 5 0] = [some 0x3F80, some 0xFFFFFFFD, some 0x40A00000] := by decide


theorem wit_FloatCompletes : Ready (vals 0x3F800000 0x40000000) (band0 (vals 0x3F800000 0x40000000)) (viewS (fs 0)) 32 32 0 (.regs 1) [0, 1]
    [inAt 0x3F800000 0x40000000 0, inAt 0x3F800000 0x40000000 1] := readyOf _ _ _ _ _ _ _ _ _ (by decide)
theorem wit_ConvertCompletes : Ready (vals 5 0) (band0 (vals 5 0)) (viewX { fx with a := 1, d := 3, w2 := 0x200 }) 32 0 0 (.regs 1) [0, 1] [inAt 5 0 0, inAt 5 0 1] :=
  readyOf _ _ _ _ _ _ _ _ _ (by decide)
theorem wit_MachineReadsComplete : Ready s0 probeBand (viewX { fx with d := 3, w2 := 0x18 }) 0 0 0 (.regs 1) [0, 1]
    [{ band := probeBand, t := 0, a := 0, b := 0, c := 0, fresh := 0, core := 0 }, { band := probeBand, t := 1, a := 0, b := 0, c := 0, fresh := 0, core := 0 }] ∧
    (sregSem (viewX { fx with d := 3, w2 := 0x18 })).isSome = true ∧ (machineReadSem (.perfr { fx with w2 := 0x103F })).isSome = true :=
  ⟨readyOf _ _ _ _ _ _ _ _ _ (by decide), by decide⟩
theorem wit_MachineReadsComplete_cycle : Ready s0 probeBand (viewS { m := 0, b := 0, a := 0, d := 4 }) 0 0 0 (.regs 2) [0, 1]
    [{ band := probeBand, t := 0, a := 0, b := 0, c := 0, fresh := 0, core := 0 }, { band := probeBand, t := 1, a := 0, b := 0, c := 0, fresh := 0, core := 0 }] :=
  readyOf _ _ _ _ _ _ _ _ _ (by decide)
/-- R60, R160: BTID and BANDW of thread 1, and the mask of the guarded threads. -/
theorem test_reads : let t (n : BitVec 32) := v (after (exec (.sregX { fx with d := 3, w2 := n }) s0)) 3 1
    [t 1, t 4] = [some 1, some 16] ∧ v (after (exec (.actv { m := 0, b := 0, a := 0, d := 4 }) s0)) 4 1 = some 3 := by decide
theorem wit_SpecialRegisterWrites : Runs (vals 0x1F 0) (band0 (vals 0x1F 0)) ∧ Guarded (band0 (vals 0x1F 0)) 7 false [0, 1] [0, 1] ∧
    (∀ t ∈ [0, 1], ((band0 (vals 0x1F 0)).readOpnd 0 t (viewX { fx with a := 1, w2 := 0x0C }).a 32 1).toOption = some 0x1F) ∧ bits 0x1F 7 5 = 0 ∧
    (vals 0x1F 0).flight? 0 = some probeFlight := ⟨runsOf _ _ (by decide), by unfold Guarded; decide, by decide⟩
/-- Numbers and operands on the two sides of the tests: 0x18 and 0x19 of SREG, selectors 9, 10, 0x10C0 and 0x2000, BSTAT's bits 5 and 10, STARVE's limits. -/
theorem wit_SpecialRegisterWrites_edges : 0x18 < (0x19#32).toNat % 256 ∧ 10 ≤ (10#32).toNat % 65536 ∧ (10#32).toNat % 65536 < 0x1000 ∧ (0x10C0#32).toNat % 65536 / 64 % 4 = 3 ∧
    0x2000 ≤ (0x2000#32).toNat % 65536 ∧ (0x0F#32).toNat % 256 ∉ [0x0C, 0x0D, 0x0E, 0x14] ∧ bits 0x20 7 5 ≠ 0 ∧ 2 ^ 10 ≤ 0x400 ∧ 4096 ≤ 2 ^ 22 := by decide
theorem wit_OperandForms : let b := band0 (vals 7 5)
    b.vreg? 1 0 = some 7 ∧ b.vreg? 2 0 = some 5 ∧ b.vreg? 9 0 = none ∧ b.pendingV 0 9 = false ∧ (∀ r, b.pendingV 0 r = false) ∧ (∀ r, b.pendingK r = false) ∧
    ∀ p, b.pendingP 0 p = false := ⟨rfl, rfl, rfl, rfl, fun _ => rfl, fun _ => rfl, fun _ => rfl⟩
/-- A band whose v9, k4 and p2 of thread 0 wait for data. -/
theorem wit_OperandForms_pending :
    ({ probeBand with groups := [{ gid := 1, cls := .ld, dest := .v 9 8, left := [(0, 1)] }] } : Band).pendingV 0 9 = true ∧
    ({ probeBand with groups := [{ gid := 1, cls := .ld, dest := .k 4 8, left := [(0, 1)] }] } : Band).pendingK 4 = true ∧
    ({ probeBand with groups := [{ gid := 1, cls := .cp, dest := .pred 2, left := [(0, 1)] }] } : Band).pendingP 0 2 = true := by decide
theorem wit_RoundingKeepsCodes : (0x3F800000 : Nat) < 2 ^ Fmt.f32.width ∧ ∃ n m e, Fmt.f32.decode 0x3F800000 = .fin n m e := ⟨by decide, false, 2 ^ 23, -23, by decide⟩
theorem wit_FloatSpecialCases : Fmt.f32.hasInf = true ∧ Fmt.f32.decode 0x7FC00000 = .nan ∧ Fmt.f32.decode 0x7F800000 = .inf false ∧ Fmt.f32.decode 0xFF800000 = .inf (!false) ∧
    Fmt.f32.decode 0 = .zero false ∧ Fmt.f32.decode 0x80000000 = .zero true ∧ ∃ k e, Fmt.f32.decode 0xBF800000 = .fin true k e := by
  refine ⟨by decide, by decide, by decide, by decide, by decide, by decide, 2 ^ 23, -23, by decide⟩


/-! ### Calls, traps, exits, REP units and band operations -/

/-- A range that maps addresses below 2^40 onto themselves. -/
def all : RangeReg := { base := 0, limit := 2 ^ 40, iabase := 0, h := false, a := true, w := true, x := true }
theorem translateAll (nd : Need) (va : Nat) (h : va ≤ 2 ^ 40) : Machine.translate [all] nd va = some va := by
  have h40 : va ≤ 1099511627776 := by omega
  simp [Machine.translate, rangeOf, all, h40]
/-- The probe state with that range in core 0 and context 0, page 0 of the device half at frame 0 in the core's and the I/O die's translation caches. -/
def mach (ws : List Word) : State :=
  let s := prog ws
  { s with cores := Tbl.put s.cores 0 { s.core 0 with ranges := some (0, [all]) }, ctxs := [(0, { ranges := [all] })],
           tlbs := [(0, [(0, 0)]), (agentIO, [(0, 0)])], issue := { threads := [0, 1] } }
/-- A state with its first band's threads changed. -/
def withT (s : State) (f : Nat → Thread → Thread) : State := withB s fun b => { b with threads := b.threads.mapIdx f }

/-- CALL from word 5 of overlay 0 at DEPTH 0 and 254, and not at 255. -/
theorem wit_CallsPushAndMove : Runs (mach []) (band0 (mach [])) ∧ Guarded (band0 (mach [])) 7 false [0, 1] [0, 1] ∧
    (∀ t ∈ [0, 1], ((band0 (mach [])).thread t).depth ≠ 255) ∧ (∀ t ∈ [0, 1], firstFail ((mach []).coreRanges 0) needW ((0 + 1088 * 0 + 4 * 1) % 2 ^ 64) 4 = none) ∧
    (band0 (mach [])).roomFor .st = true ∧ ((band0 (withT (mach []) fun _ t => { t with depth := 255 })).thread 1).depth = 255 :=
  ⟨runsOf _ _ (by decide), by unfold Guarded; decide, by decide, by decide, by decide, by decide⟩
/-- R168: CALL with OFF 23 at word 11 of overlay 0: the entry at DEPTH 1 is 0x0000_000C, and the threads stand at (1, 34). -/
theorem test_call : let s := withT { mach [] with issue := { threads := [0, 1], pc := 11 } } fun _ t => { t with pc := 11 }
    let t := after (exec (.call { off := 23, gn := 0, g := 7 }) s)
    ((band0 t).thread 0).pc = 34 ∧ ((band0 t).thread 0).depth = 1 ∧ (t.iq.map fun a => (a.thread, a.va, a.size, a.data)) = [(0, 4, 4, 12), (1, 4, 4, 12)] := by decide
theorem wit_CallsPushAndMove_callx : let s := withB pads fun b => b
    Runs s (band0 s) ∧ (∀ r ∈ (band0 s).regs, r.vals ≠ []) ∧ 2 < ((s.core 0).overlays.getD 0 {}).words.length := ⟨runsOf _ _ (by decide), by decide⟩

/-- A band at DEPTH 1 whose entries have been read, with the value that their block holds. -/
def popped (x size : Nat) : State := withT (withB (mach [0]) fun b =>
  { b with groups := [{ gid := 1, cls := .ld, dest := .block 0, left := [(0, 0), (1, 0)], buf := [(0, x), (1, x)], size := size }] })
  fun _ t => { t with depth := 1, inTrap := true }
def entryPart (n t : Nat) : Part := { thread := t, va := if n = 4 then 4 else 1024, addr := if n = 4 then 4 else 1024, size := n }
def isWait (r : Rd BlockRes) : Bool := match r with | .ok (.wait _) => true | _ => false
def gotOf (r : Rd BlockRes) : Option (Tbl Nat) := match r with | .ok (.got v) => some v | _ => none
theorem wit_ReturnsPop : Runs (popped 7 4) (band0 (popped 7 4)) ∧ (∀ t ∈ [0, 1], ((band0 (popped 7 4)).thread t).depth ≠ 0) ∧
    gotOf ((popped 7 4).blockRead (band0 (popped 7 4)) 0 [0, 1] ([0, 1].map (entryPart 4)) fun _ => none) = some [(0, 7), (1, 7)] ∧
    (((popped 7 4).core 0).overlays.getD (7 % 65536 / 16384) {}).ovid = some (7 / 65536) ∧
    (((popped 7 4).core 0).overlays.getD (0x10007 % 65536 / 16384) {}).ovid ≠ some (0x10007 / 65536) ∧
    let w := withT (mach []) fun _ t => { t with depth := 1 }
    isWait (w.blockRead (band0 w) 0 [0, 1] ([0, 1].map (entryPart 4)) fun _ => none) = true ∧ ((band0 (mach [])).thread 0).depth = 0 :=
  ⟨runsOf _ _ (by decide), by decide, by decide, by decide, by decide, by decide, by decide⟩
theorem wit_ReturnsPop_tret : (∀ t ∈ [0, 1], ((band0 (popped 0x300000003 64)).thread t).inTrap = true) ∧
    gotOf ((popped 0x300000003 64).blockRead (band0 (popped 0x300000003 64)) 0 [0, 1] ([0, 1].map (entryPart 64)) fun _ => none) = some [(0, 0x300000003), (1, 0x300000003)] ∧
    (((popped 7 4).core 0).overlays.getD (0x300000003 % 2 ^ 32 % 65536 / 16384) {}).ovid = some (0x300000003 % 2 ^ 32 / 65536) ∧
    let w := withT (mach []) fun _ t => { t with inTrap := true }
    isWait (w.blockRead (band0 w) 0 [0, 1] ([0, 1].map (entryPart 64)) fun _ => none) = true ∧ ((band0 (mach [])).thread 0).inTrap = false := by decide
/-- R169, R176: RET pops to word 7 at DEPTH 0; TRET takes RPC, DEPTH 2 and iteration 5 of the frame. -/
theorem test_ret : let t := (band0 (after (exec (.ret { imm := 0, d := 0 }) (popped 7 4)))).thread 1
    t.pc = 7 ∧ t.depth = 0 := by decide
theorem test_tret : let t := (band0 (after (exec (.tret { imm := 0, d := 0 }) (popped (3 + 3 * 2 ^ 32 + 5 * 2 ^ 112 + 2 ^ 120 + 2 * 2 ^ 144) 64)))).thread 0
    t.pc = 3 ∧ t.depth = 2 ∧ t.rep = 5 ∧ t.inTrap = false := by decide

theorem wit_TrapsEnterTheHandler_fields : (∀ o ∈ ((mach []).core 0).overlays, o.ovid.getD 0 < 65536) ∧ (65535 : Nat) < 65536 ∧ (255 : Nat) < 256 ∧ (63 : Nat) < 64 := by decide
/-- A flight whose trap entry is word 9 of overlay 0, and one whose entry is in no slot. -/
def trapping (ov : Nat) : State := { mach [0x1A8] with flights := [(0, { probeFlight with trapEntry := some (ov, 9) })] }
theorem wit_TrapsEnterTheHandler : Runs (trapping 0) (band0 (trapping 0)) ∧ (trapping 0).flight? 0 = some { probeFlight with trapEntry := some (0, 9) } ∧
    (band0 (trapping 0)).rels = [] ∧ (band0 (trapping 0)).consume (trapping 0).issue = band0 (trapping 0) ∧ (∀ j ∈ [0, 1], ((band0 (trapping 0)).thread j).inTrap = false ∧ ((band0 (trapping 0)).thread j).state ≠ .atOp) ∧
    ((trapping 0).core 0).slotOf? 0 = some 0 ∧ (∀ j ∈ [0, 1], firstFail ((trapping 0).coreRanges 0) needW ((0 + 1088 * ((band0 (trapping 0)).thread j).tidx + 1024) % 2 ^ 64) 64 = none) ∧
    (band0 (trapping 0)).roomFor .st = true ∧ ((trapping 1).core 0).slotOf? 1 = none ∧
    ((band0 (withT (trapping 0) fun _ t => { t with inTrap := true })).thread 0).inTrap = true ∧
    ((trapping 0).ctx? 0).map (fun c => c.attached) = some false :=
  ⟨runsOf _ _ (by decide), by decide, by decide, by decide, by decide, by decide, by decide, by decide, by decide, by decide, by decide⟩
/-- R174, R177: TRAP 0x1234 at word 0: the frame's cause 3, its code, and RPC at word 1; the handler at word 9; DEPTH kept. -/
theorem test_trap : let t := after (exec (.trap { imm := 0x1234, d := 0 }) (trapping 0))
    ((band0 t).thread 1).pc = 9 ∧ ((band0 t).thread 1).inTrap = true ∧ ((band0 t).thread 1).depth = 0 ∧ t.mem = [] ∧
    (t.iq.head?.map fun a => (a.va, bits a.data 31 0)) = some (1024, 1) := by decide
theorem wit_BrkHaltsWhenAttached : let s : State := { mach [] with ctxs := [(0, { attached := true })] }
    Runs s (band0 s) ∧ s.flight? 0 = some probeFlight ∧ s.ctx? 0 = some { attached := true } ∧ ∀ t ∈ [0, 1], ((band0 s).thread t).state = .ready ∧ ((band0 s).thread t).park = .none :=
  ⟨runsOf _ _ (by decide), by decide⟩
theorem wit_ExitsEndThreads : Runs (mach []) (band0 (mach [])) ∧ (mach []).flight? 0 = some probeFlight ∧ probeFlight.roster = [] ∧ (mach []).ecalls = [] ∧
    (∀ th ∈ (band0 (mach [])).threads, th.state ≠ .atOp) ∧ (∀ t ∈ [0, 1], ((band0 (mach [])).thread t).state ≠ .exited) ∧ (band0 (mach [])).task = none ∧
    ∃ j < 16, j ∉ [0, 1] ∧ ((band0 (mach [])).thread j).state ≠ .exited :=
  ⟨runsOf _ _ (by decide), by decide, by decide, by decide, by decide, by decide, by decide, 2, by decide⟩
/-- The last two threads of a band, with and without a successor at word 3 of overlay 0. -/
def lastTwo (su : Option Succ) : State := withB (mach [0, 0, 0, 0]) fun b => { b with threads := [{}, {}], succ := su }
theorem wit_ExitsEndThreads_last : (∀ j < (band0 (lastTwo none)).threads.length, j ∉ [0, 1] → ((band0 (lastTwo none)).thread j).state = .exited) ∧
    (band0 (lastTwo (some { ovid := 0, off := 3, a := 0, n := 0 }))).succ = some { ovid := 0, off := 3, a := 0, n := 0 } ∧ ((lastTwo none).core 0).slotOf? 0 = some 0 := by decide
/-- R171: EXIT of a band's last threads frees its slot, or restarts every thread at the successor. -/
theorem test_exit : (after (exec (.exit { imm := 0, d := 0 }) (lastTwo none))).band? 0 = none ∧
    ((band0 (after (exec (.exit { imm := 0, d := 0 }) (lastTwo (some { ovid := 0, off := 3, a := 0, n := 0 }))))).thread 1).pc = 3 := by decide
theorem wit_ExitsEndThreads_succ : let f : FormX := { fx with mf := 1, a := 4, d := 2, w2 := 3 }
    f.mf.toNat % 2 = 1 ∧ (viewX f).a = .v 4 ∧ ((mach [0, 0, 0, 0]).core 0).slotOf? (f.w2.toNat / 65536) = some 0 ∧
    f.w2.toNat % 65536 < (((mach [0, 0, 0, 0]).core 0).overlays.getD 0 {}).words.length ∧ (band0 (mach [])).succ = none := by decide


/-- REP of 3 over IADD v3, v1, v2 with a step of 1 for D, at word 0. -/
def rep3 : FormR := { mbz := 0, bstep := 0, astep := 0, dstep := 1, count := 3, len := 0 }
def repAt : State := { vals 7 5 with cores := (prog [0b0000000_000_000_001_000011_01111111_00#32, 0b0000_000010_000001_000011_00000001_00#32]).cores }
def iterAfter (s : State) (d i : Nat) : State :=
  after (exec (.iadd { m := 0, b := 2, a := 1, d := BitVec.ofNat 6 d }) { s with issue := { s.issue with rep := i, inRep := true }, fresh := s.fresh + 1 })
theorem wit_RepRunsIterations : Runs repAt (band0 repAt) ∧
    (repAt.repUnit 0 0 rep3 0).toOption = some (1, .s (fs 0), 1) ∧ waitsForBand 1 = false ∧ iteration 1 (.s (fs 0)) (1, 0, 0) 2 = some (.iadd { m := 0, b := 2, a := 1, d := 5 }) ∧
    (iterAfter repAt 3 0).issue.held = false ∧ (iterAfter repAt 3 0).issue.ended = false ∧ ((prog [0, 0x1A8]).repUnit 0 0 rep3 0).toOption = none ∧
    (band0 repAt).groups = [] ∧ repAt.issue.held = false ∧ repAt.issue.ended = false ∧ (∀ i < 3, ((iteration 1 (.s (fs 0)) (1, 0, 0) i).bind integerSem).map (fun m => m.f.dk) = some false) ∧
    (band0 repAt).mapped + 2 * (3 - 0) ≤ (band0 repAt).quota :=
  ⟨runsOf _ _ (by decide), by decide, by decide, by decide, by decide, by decide, by decide, by decide, by decide, by decide, by decide, by decide⟩
/-- R82: the three iterations write v3, v4 and v5, and the threads move past REP and its target. -/
theorem test_rep : let t := after (exec (.rep rep3) repAt)
    [v t 3 0, v t 4 1, v t 5 0] = [some 12, some 12, some 12] ∧ ((band0 t).thread 1).pc = 2 ∧ ((band0 t).thread 1).rep = 0 := by decide
/-- A step of a field that leaves its range, and a target that REP does not take: reason REP. -/
theorem test_rep_checks : iteration 1 (.s { m := 0, b := 2, a := 1, d := 63 }) (1, 0, 0) 1 = none ∧ repOpcode 0x6A = false ∧ repOpcode 0x57 = true ∧ repOpcode 0x58 = false := by decide
/-- A held iteration: v2 waits for a load. -/
theorem wit_RepRunsIterations_held : (iterAfter (withB repAt fun b => { b with groups := [{ gid := 1, cls := .ld, dest := .v 2 8, left := [(0, 1)] }] }) 3 0).issue.held = true := by decide

/-- All 16 threads at BARB with the mask 0xFFFF, as a literal. -/
def barb16 : Instr := .barb (.xLit { fx with bc := 2, b := 0xFF } 0xFFFF)
def all16 : State := { mach [0xE000_015B, 0x0000_02FF, 0, 0xFFFF, 0] with issue := { threads := List.range 16, len := 5 } }
theorem wit_BandOperationsPark : Runs all16 probeBand ∧ (∀ t ∈ List.range 16, (probeBand.thread t).depth = 0 ∧ (probeBand.thread t).pc = 0 ∧ (probeBand.thread t).state = .ready) ∧
    bandOp barb16 = some (viewXL (.xLit { fx with bc := 2, b := 0xFF } 0xFFFF), 0, 0, .none) ∧
    (probeBand.readOpnd 0 0 (viewXL (.xLit { fx with bc := 2, b := 0xFF } 0xFFFF)).b 64 2).toOption = some 0xFFFF ∧ 0xFFFF < 2 ^ 16 ∧ (∀ t ∈ List.range 16, bitOf 0xFFFF t = true) ∧
    2 ^ 16 ≤ 0x10000 ∧ bitOf 0xFFFE 0 = false ∧ decode (all16.wordsFrom 0 0) = some (barb16, 5) :=
  ⟨runsOf _ _ (by decide), by decide, rfl, by decide, by decide, by decide, by decide, by decide, by decide⟩
theorem wit_BandOperationsPark_save : (probeBand.readOpnd 0 0 (viewX { fx with ac := 1, a := 0 }).a 64 1).toOption = some 0 ∧ 0 % 64 = 0 := by decide
/-- R149: the arrival of the whole band completes the instance; with one thread missing it does not. -/
theorem test_barb_parks : let t := band0 (after (exec barb16 all16))
    (t.thread 15).state = .atOp ∧ (t.thread 15).park = .op 0xFFFF ∧ t.done.length = 1 ∧
    (band0 (after (exec barb16 { all16 with issue := { threads := List.range 15, len := 5 } }))).done = [] := by decide

/-- The example under R160: thread 3 has exited, and the others stand parked at BRED at word 0 under the mask 0xFFFF. -/
def bredBand : Band :=
  let codes : List Word := [0x3F800000, 0x40000000, 0x40400000, 0x40800000, 0x40A00000, 0x40C00000, 0x40E00000, 0x41000000, 0x41100000, 0x41200000, 0x41300000,
    0x41400000, 0x41500000, 0x41600000, 0x41700000, 0x41800000]
  { probeBand with
    threads := (List.range 16).map fun t => if t = 3 then { state := .exited } else { state := .atOp, park := .op 0xFFFF }
    regs := [{ name := 8, preg := 0, vals := ((List.range 16).filter (· ≠ 3)).map fun t => (t, codes.getD t 0) }]
    done := [{ depth := 0, pc := 0, rep := 0, mask := 0xFFFF, present := (List.range 16).filter (· ≠ 3), exited := [3] }] }
def bredAt : State := (mach [0xE040_254B, 0x8000_02FF, 0, 0xFFFF, 0]).setBand 0 bredBand
def bredF : XL := .xLit { fx with a := 8, d := 9, mf := 8, bc := 2, b := 0xFF } 0xFFFF
def bredIssue : Issue := { band := bredBand, inst := bredBand.done.headD { depth := 0, pc := 0, rep := 0, mask := 0, present := [], exited := [] }, fresh := 0,
                           recv := (List.range 16).filter (· ≠ 3), f := viewXL bredF }
theorem wit_CompletingIssueRuns : bredAt.band? 0 = some bredBand ∧ bredAt.mayIssue 0 bredBand = true ∧ bredBand.stopHolds = false ∧ bredBand.firstDone = some bredIssue.inst ∧
    bredIssue.inst.present.Nodup ∧ (∀ t ∈ bredIssue.inst.present, t < bredBand.threads.length) ∧ decode (bredAt.wordsFrom 0 0) = some (.bred bredF, 5) ∧
    (bredBand.guarded (viewXL bredF) bredIssue.inst.present).toOption = some bredIssue.recv ∧
    ((bandResults (.bred bredF) bredIssue).toOption.map fun r => r.map Res.thread) = some bredIssue.recv ∧ (viewXL bredF).dk = false ∧ (viewXL bredF).la = false ∧
    (∀ v ∈ bredBand.regs, v.vals ≠ []) ∧ bredBand.mapped + (bredBand.unmapped [9]).length ≤ bredBand.quota := by decide
/-- Every present thread receives 132.0 in v9 and goes on past the BRED; the sum is rounded once. -/
theorem test_bred : let t := after (exec (.completingIssue 0) bredAt)
    v t 9 0 = some 0x43040000 ∧ v t 9 15 = some 0x43040000 ∧ v t 9 3 = none ∧ ((band0 t).thread 0).pc = 5 ∧ ((band0 t).thread 0).state = .ready ∧ (band0 t).done = [] := by decide
theorem wit_BandOperationValues : bredIssue.recv.Nodup ∧ bredIssue.inst.exited.Nodup ∧ (∀ t ∈ bredIssue.recv, t ∉ bredIssue.inst.exited) ∧
    (∀ t ∈ bredIssue.recv, (bredBand.readOpnd 0 t (viewXL bredF).a 32 1).toOption.isSome = true) ∧ (viewXL bredF).wide = 32 ∧ (viewXL bredF).sub = 0 ∧ (viewXL bredF).sat = false ∧
    { bredIssue with inst := { bredIssue.inst with exited := [] } }.inst.exited = [] ∧
    (∀ t ∈ bredIssue.recv, (bredBand.readOpnd 0 t (viewXL (.x { fx with cc := 2, c := 8 })).c 32 3).toOption = some 0) := by decide


/-- A whole band at an instruction: at BARB, and at CSAVE and CREST of the header alone, at the address in k0. -/
def wholeAt (i : Instr) : State := let ws := encode i; { mach ws with issue := { threads := List.range 16, len := ws.length } }
/-- What a run that holds its band needs, from facts that are decided. -/
theorem wholeOf (s : State) (b : Band) (i : Instr) (mask : Nat) (h : (s.issue.lane < 64 ∧ s.issue.slot < 4 ∧ s.band? s.issue.key = some b ∧ s.issue.threads.Nodup ∧
      ∀ t ∈ s.issue.threads, t < b.threads.length) ∧ s.issue.threads = members mask b.width ∧ s.issue.threads ≠ [] ∧ mask < 2 ^ b.width ∧ s.issue.inRep = false ∧
      (∀ t ∈ s.issue.threads, (b.thread t).depth = s.issue.depth ∧ (b.thread t).pc = s.issue.pc ∧ (b.thread t).state = .ready) ∧ (∀ th ∈ b.threads, th.state ≠ .atOp) ∧
      b.done = [] ∧ s.mayIssue s.issue.key b = true ∧ b.stopHolds = false)
    (hw : (Decode.decodeAt s.issue.pc (s.wordsFrom s.issue.core s.issue.pc)).toOption = some (i, s.issue.len)) : Whole s b i mask :=
  ⟨runsOf _ _ h.1, h.2.1, h.2.2.1, h.2.2.2.1, h.2.2.2.2.1, h.2.2.2.2.2.1, h.2.2.2.2.2.2.1, h.2.2.2.2.2.2.2.1, h.2.2.2.2.2.2.2.2.1, h.2.2.2.2.2.2.2.2.2, by
    cases hx : Decode.decodeAt s.issue.pc (s.wordsFrom s.issue.core s.issue.pc) with
    | error e => rw [hx] at hw; cases hw
    | ok p => rw [hx] at hw; cases hw; rfl⟩
def saveF : FormX := { fx with ac := 1, a := 0 }
theorem wit_WholeRunsComplete : Whole (wholeAt barb16) probeBand barb16 0xFFFF ∧
    bandOp barb16 = some (viewXL (.xLit { fx with bc := 2, b := 0xFF } 0xFFFF), 0, 0, .none) ∧
    (probeBand.guarded (viewXL (.xLit { fx with bc := 2, b := 0xFF } 0xFFFF)) (List.range 16)).toOption = some (List.range 16) ∧
    ((bandResults barb16 { band := probeBand, inst := (wholeAt barb16).wholeDone 0xFFFF, fresh := 0, recv := List.range 16, f := viewXL (.xLit { fx with bc := 2, b := 0xFF } 0xFFFF) }).toOption) = some [] ∧
    (∀ v ∈ probeBand.regs, v.vals ≠ []) :=
  ⟨wholeOf _ _ _ _ (by decide) (by decide), rfl, by decide, by decide, by decide⟩
theorem wit_WholeRunsComplete_csave : Whole (wholeAt (.csave saveF)) probeBand (.csave saveF) 0xFFFF ∧ probeBand.groups = [] ∧
    (probeBand.readOpnd 0 0 (viewX saveF).a 64 1).toOption = some 0 ∧ (viewX saveF).la = false ∧ ((wholeAt (.csave saveF)).allParked probeBand 0xFFFF).roomFor .st = true ∧
    firstFail ((wholeAt (.csave saveF)).coreRanges 0) needW 0 64 = none :=
  ⟨wholeOf _ _ _ _ (by decide) (by decide), by decide, by decide, by decide, by decide, by decide⟩
/-- The header of a record of 16 threads has arrived. -/
def crestAt : State :=
  let s := wholeAt (.crest saveF)
  let w := s.allParked probeBand 0xFFFF
  { s with bands := Tbl.put s.bands 0 { w with groups := [{ gid := 1, cls := .ld, dest := .block 0, left := [(0, 0)], buf := [(0, 16 * 256)], size := 64 }] } }
theorem wit_WholeRunsComplete_crest : Whole (wholeAt (.crest saveF)) probeBand (.crest saveF) 0xFFFF ∧
    gotOf ((crestAt.issueDone 0 ((wholeAt (.crest saveF)).wholeDone 0xFFFF) 0 (wholeAt (.crest saveF)).issue.len false).blockRead (band0 crestAt) 0 [0] [{ thread := 0, va := 0, addr := 0, size := 64 }]
      fun _ => none) = some [(0, 16 * 256)] ∧ (recHead (16 * 256)).width = 16 ∧ crestParts 0 16 (recHead (16 * 256)).mapped = [] :=
  ⟨wholeOf _ _ _ _ (by decide) (by decide), by decide, by decide, by decide⟩
theorem wit_PostedRunsCoverTheirBytes : let q : Part := { thread := 1, va := 0x1000, addr := 0x1000, size := 4, data := 0x11223344 }
    q ∈ [q] ∧ [q] ≠ [] ∧ 0 < q.size ∧ q.size ≤ 8 ∧ q.addr % q.size = 0 ∧ 3 < q.size := by decide


/-! ### Memory accesses -/

/-- v2:v3 of both threads hold an address pair, v4 and v5 data and an offset. -/
def memAt (a : Word) : State := withB (mach []) fun b => setV 5 [(0, 4), (1, 8)] (setV 4 [(0, 0xAB), (1, 0xCD)] (setV 3 [(0, 0), (1, 0)] (setV 2 [(0, a), (1, a)] b)))
def ldF : Fld := viewS { m := 8, b := 5, a := 2, d := 6 }
def stF : Fld := viewS { m := 8, b := 5, a := 2, d := 4 }
theorem wit_LoadsAndStoresIssue : Runs (memAt 0x1000) (band0 (memAt 0x1000)) ∧ accessOf (.ld { m := 8, b := 5, a := 2, d := 6 }) = some (ldF, 0, false) ∧
    (∀ t ∈ [0, 1], ((band0 (memAt 0x1000)).readOpnd 0 t ldF.a 64 1).toOption = some 0x1000 ∧ ((band0 (memAt 0x1000)).readOpnd 0 t ldF.b 32 2).toOption = some (if t = 0 then 4 else 8)) ∧
    (∀ t ∈ [0, 1], (memAt 0x1000).checkAddr (band0 (memAt 0x1000)) 0 needX (addrSpec ldF 0 0x1000 (if t = 0 then 4 else 8)) 4 = none) ∧
    (band0 (memAt 0x1000)).destPending ldF (.regs 1) [0, 1] = false ∧ Fits (memAt 0x1000) (band0 (memAt 0x1000)) ldF 64 32 0 (ldF.destNames (.regs 1)) ∧
    (band0 (memAt 0x1000)).roomFor .ld = true :=
  ⟨runsOf _ _ (by decide), by decide, by decide, by decide, by decide, by unfold Fits; decide, by decide⟩
theorem wit_LoadsAndStoresIssue_store : accessOf (.st { m := 8, b := 5, a := 2, d := 4 }) = some (stF, 0, true) ∧
    (∀ t ∈ [0, 1], (memAt 0x1000).checkAddr (band0 (memAt 0x1000)) 0 needW (addrSpec stF 0 0x1000 (if t = 0 then 4 else 8)) 4 = none) ∧
    (∀ t ∈ [0, 1], ((band0 (memAt 0x1000)).readOpnd 0 t (.v 4) 32 3).toOption = some (if t = 0 then 0xAB else 0xCD)) ∧
    Fits (memAt 0x1000) (band0 (memAt 0x1000)) stF 64 32 0 [] ∧ (band0 (memAt 0x1000)).roomFor .st = true := by unfold Fits; decide
/-- LDK [k0:k1 + k2] and an ordered load at an aligned address. -/
theorem wit_LoadsAndStoresIssue_k : let f := viewX { fx with ac := 1, bc := 1, b := 2, d := 6, dc := 1, sub := 8, mf := 12 }
    f.ord = true ∧ f.space = 0 ∧ (∀ t ∈ [0, 1], ((band0 (mach [])).readOpnd 0 t f.a 64 1).toOption = some 0 ∧ ((band0 (mach [])).readOpnd 0 t f.b 32 2).toOption = some 0) ∧
    (mach []).checkAddr (band0 (mach [])) 0 needX (addrSpec f 0 0 0) 4 = none ∧ (band0 (mach [])).destPending f (.regs 1) [0, 1] = false := by decide
/-- LDW: a flight whose WSW is 0, at an index of the weight store. -/
theorem wit_LoadsAndStoresIssue_ldw : accessOf (.ldw { m := 8, b := 5, a := 2, d := 6 }) = some (ldF, 2, false) ∧ probeFlight.wsw = false ∧
    (memAt 0x1000).checkAddr (band0 (memAt 0x1000)) 2 needX (addrSpec ldF 2 0x1000 4) 4 = none := by decide
/-- R196, R193: LD.b32 posts one unit a thread, of class ld; R197: ST reads its data at the issue. -/
theorem test_ld_issue : let t := after (exec (.ld { m := 8, b := 5, a := 2, d := 6 }) (memAt 0x1000))
    (t.iq.map fun a => (a.thread, a.addr, a.size)) = [(0, 0x1004, 4), (1, 0x1008, 4)] ∧ (band0 t).outstanding .ld = 1 ∧ (band0 t).pendingV 0 6 = true ∧ t.mem = [] := by decide
theorem test_st_issue : let t := after (exec (.st { m := 8, b := 5, a := 2, d := 4 }) (memAt 0x1000))
    (t.iq.map fun a => (a.addr, a.data)) = [(0x1004, 0xAB), (0x1008, 0xCD)] ∧ (band0 t).outstanding .st = 1 ∧ t.mem = [] := by decide

def atomF (sub : BitVec 4) (ty : BitVec 32) : XL := .x { fx with a := 2, b := 4, d := 6, sub := sub, w2 := ty <<< 28 }
theorem wit_AtomicsIssue : Runs (memAt 0x1000) (band0 (memAt 0x1000)) ∧ atomicOf (.atom (atomF 0 0)) = some (viewXL (atomF 0 0), true) ∧
    (∀ t ∈ [0, 1], ((band0 (memAt 0x1000)).readOpnd 0 t (viewXL (atomF 0 0)).b 32 2).toOption = some (if t = 0 then 0xAB else 0xCD)) ∧ 0x1000 % 4 = 0 ∧
    (memAt 0x1000).checkAddr (band0 (memAt 0x1000)) 0 needXWA 0x1000 4 = none ∧ isHost ((memAt 0x1000).target (band0 (memAt 0x1000)) 0 0x1000) = false ∧
    Fits (memAt 0x1000) (band0 (memAt 0x1000)) (viewXL (atomF 0 0)) 64 32 0 [6] ∧ (band0 (memAt 0x1000)).roomFor .ld = true ∧ (viewXL (atomF 7 2)).w2 / 2 ^ 28 % 16 = 2 :=
  ⟨runsOf _ _ (by decide), by decide, by decide, by decide, by decide, by decide, by unfold Fits; decide, by decide, by decide⟩
/-- R208: the spec's three contributions to one word merge into one access, 2^−7 and 6.0 as FP32. -/
def atom3 : State := { withB (mach []) fun b => { setV 4 [(0, 0x3F803B80), (1, 0x40003B80), (2, 0x40400000)] b with
  kregs := (List.replicate 64 0).set 10 0x2000 } with issue := { threads := [0, 1, 2], len := 3 } }
theorem test_atom2_merges : let t := after (exec (.atom2 (.x { fx with ac := 1, a := 10, d := 6, b := 4 })) atom3)
    (t.iq.map fun a => (a.kind, a.addr, a.fan, a.data, a.cmp)) = [(.atom2, 0x2000, [0, 1, 2], 0x3C000000, 0x40C00000)] := by decide

/-- A misaligned atomic, a store where the range does not admit one, and a host-half address for RED. -/
def readOnly : State := { memAt 0x1000 with cores := Tbl.put [] 0 { ranges := some (0, [{ all with w := false }]) } }
def hostHalf : State := { memAt 0x1000 with cores := Tbl.put [] 0 { ranges := some (0, [{ all with iabase := 2 ^ 51, h := true }]) } }
theorem wit_MemoryInstructionsTrap : Runs readOnly (band0 readOnly) ∧ (readOnly.checkAddr (band0 readOnly) 0 needW 0x1004 4).isSome = true ∧ 0x1001 % 4 ≠ 0 ∧
    hostHalf.checkAddr (band0 hostHalf) 0 needXWA 0x1000 4 = none ∧ isHost (hostHalf.target (band0 hostHalf) 0 0x1000) = true ∧
    atomicOf (.red (atomF 0 0)) = some (viewXL (atomF 0 0), false) ∧ ({ probeFlight with wsw := true } : Flight).wsw = true ∧ (viewX { fx with sub := 8, mf := 12 }).ord = true :=
  ⟨runsOf _ _ (by decide), by decide, by decide, by decide, by decide, by decide, by decide, by decide⟩
/-- R190, R174: the store traps with cause RANGE and posts its frames instead: no store to 0x1004. -/
theorem test_range_trap : let t := after (exec (.st { m := 8, b := 5, a := 2, d := 4 }) { readOnly with flights := (trapping 0).flights })
    t.issue.ended = true ∧ (t.iq.any fun a => a.addr = 0x1004) = false := by decide

/-- Tags g3 and g4 of core 0, and a mask of both in v2:v3. -/
def tagged (tags : Nat) : State := { memAt 0x18 with cores := Tbl.put [] 0 { tags := tags } }
theorem wit_WaitsOnAccesses : Runs (tagged 8) (band0 (tagged 8)) ∧ (∀ t ∈ [0, 1], ((band0 (tagged 8)).readOpnd 0 t (viewS { m := 0, b := 2, a := 0, d := 0 }).b 64 2).toOption = some 0x18) ∧
    8 &&& 0x18 ≠ 0 ∧ 8 &&& 0x18 ≠ 0x18 ∧ 0x18 &&& 0x18 = 0x18 ∧ 0 &&& 0x18 = 0 ∧ (band0 (tagged 8)).destPending (viewS { m := 0, b := 2, a := 0, d := 6 }) (.regs 1) [0, 1] = false ∧
    Fits (tagged 8) (band0 (tagged 8)) (viewS { m := 0, b := 2, a := 0, d := 6 }) 0 64 0 [6] :=
  ⟨runsOf _ _ (by decide), by decide, by decide, by decide, by decide, by decide, by decide, by unfold Fits; decide⟩
/-- WAITC's counts: one load outstanding against 0 and against 1. -/
theorem wit_WaitsOnAccesses_waitc : (band0 held0).outstanding .ld = 1 ∧ ¬ 1 ≤ (0#32).toNat / 2 ^ 0 % 256 ∧ 1 ≤ (1#32).toNat / 2 ^ 0 % 256 ∧ probeBand.outstanding .tl ≤ (0#32).toNat / 2 ^ 24 % 256 := by decide
theorem wit_WaitsOnAccesses_fence : probeBand.rels = [] ∧ (∀ g ∈ probeBand.groups, g.open = false) ∧ (∃ g ∈ (band0 held0).groups, g.open = true) ∧
    Runs { s0 with cores := [] } probeBand ∧ ({ s0 with cores := [] } : State).msgs = [] := ⟨by decide, by decide, ⟨_, List.mem_cons_self, by decide⟩, runsOf _ _ (by decide), rfl⟩
/-- R225: TWANY goes on with g3 set, TWALL waits for g4; TFFR gives 3; TCLR clears both. -/
theorem test_tags : (after (exec (.twany { m := 0, b := 2, a := 0, d := 0 }) (tagged 8))).issue.held = false ∧ (after (exec (.twall { m := 0, b := 2, a := 0, d := 0 }) (tagged 8))).issue.held = true ∧
    v (after (exec (.tffr { m := 0, b := 2, a := 0, d := 6 }) (tagged 8))) 6 1 = some 3 ∧ ((after (exec (.tclr { m := 0, b := 2, a := 0, d := 0 }) (tagged 0x38))).core 0).tags = 0x20 := by decide

theorem wit_WatchesAndWaits : Runs (memAt 0x1000) (band0 (memAt 0x1000)) ∧ (viewS { m := 0, b := 5, a := 2, d := 0 }).space = 0 ∧
    (memAt 0x1000).checkAddr (band0 (memAt 0x1000)) 0 needX 0x1004 1 = none ∧ (memAt 0x1000).target (band0 (memAt 0x1000)) 0 0x1004 / 64 * 64 = 0x1000 ∧ [0x1000].Nodup ∧
    (band0 (memAt 0x1000)).watches.length + 1 ≤ 4 :=
  ⟨runsOf _ _ (by decide), by decide, by decide, by decide, by decide, by decide⟩
/-- A band with four watches, one of them untabled, whose thread 1 is parked, and whose thread 0 has an event. -/
def watchers : Band := { probeBand with watches := [{ name := 0, tabled := true, events := 1 }, { name := 64, tabled := false, events := 0 }, { name := 128, tabled := true, events := 0 },
  { name := 192, tabled := true, events := 0 }], threads := [{}, { state := .onWatch, park := .waitw 0 1 }] }
theorem wit_WatchesAndWaits_full : 4 < watchers.watches.length + 1 ∧ watchers.hasEvent 0 = true ∧ watchers.hasEvent 1 = false ∧ watchers.watches ≠ [] ∧ (watchers.thread 1).park = .waitw 0 1 ∧
    (∃ w ∈ watchers.watches, w.tabled = false) ∧ 0 + 2048 ≤ (({ s0 with dies := [(0, { cycle := 2048 })] } : State).cycleAt (keyCore 0)) :=
  ⟨by decide, by decide, by decide, by decide, by decide, ⟨{ name := 64, tabled := false, events := 0 }, by decide, by decide⟩, by decide⟩


/-- One access of thread 0: a 4-byte load, or a store of 0x11223344. -/
def acc0 (kind : AccKind) (space addr : Nat) : Acc :=
  { id := 9, gid := 1, core := 0, band := 0, thread := 0, kind := kind, space := space, va := addr, addr := addr, size := 4, scope := 1, data := 0x11223344, uid := probeBand.uid }
def withAcc (a : Acc) : State := { withB (mach []) fun b => { setV 6 [] b with groups := [{ gid := 1, cls := .ld, dest := .v 6 8, left := [(0, 1)], size := 4 }] } with iq := [a], nextId := 20 }
def lineL1 : Line := { pa := 0x40, bytes := (List.range 64).map fun i => (i, BitVec.ofNat 8 i), tag := 1 }
def withLine (s : State) (core : Nat) (l : Line) : State := s.setCore core { s.core core with l1 := [(0x40, l)] }
theorem wit_VisibilitySteps_load : let a := acc0 .load 0 0x44
    let s := withLine (withAcc a) 0 lineL1
    s.acc? 9 = some a ∧ s.inOrder a = true ∧ s.logsPage 0 0x44 = false ∧ s.portHeld a = false ∧ a.mustMiss = false ∧ s.redPending a = false ∧
    s.localBytes a ((s.core 0).line 0x44) 4 = some [4, 5, 6, 7] := by decide
/-- R198: a load served by the L1 gives the line's bytes little-endian. -/
theorem test_local_load : v (after (exec (.localLoad 9) (withLine (withAcc (acc0 .load 0 0x44)) 0 lineL1))) 6 0 = some 0x07060504 := by decide
theorem wit_VisibilitySteps_miss : let a := acc0 .load 0 0x44
    let s := withAcc a
    s.mayRequest 0 = true ∧ s.siblingDirty 0 0x44 = false ∧ s.localBytes a ((s.core 0).line 0x44) 4 = none ∧ s.cached 0 0x44 false = some 0x44 :=
  ⟨by decide, by decide, by decide, cachedIs _ _ _ _ _ (by decide)⟩
theorem wit_VisibilitySteps_store : let a := acc0 .store 0 0x44
    let s := withAcc a
    s.acc? 9 = some a ∧ s.inOrder a = true ∧ s.cached 0 0x44 true = some 0x44 ∧ isHost a.addr = false ∧
    let u := withAcc (acc0 .store 0 0x1000044)
    u.cached 0 0x1000044 true = none ∧ u.mapped 0x1000044 true = false ∧ (u.core 0).sidelog = [] :=
  ⟨by decide, by decide, cachedIs _ _ _ _ _ (by decide), by decide, cachedIs _ _ _ _ _ (by decide), mappedIs _ _ _ _ (by decide), by decide⟩
theorem wit_VisibilitySteps_banks : let a := acc0 .store 1 0x44
    (withAcc a).inOrder a = true ∧ (withAcc a).clusters = [] ∧ (∀ p ∈ (withAcc a).flights, p.2.bars = []) ∧ let w := acc0 .load 2 0x40
    (withAcc w).acc? 9 = some w ∧ bankOf w.addr = 1 ∧ ((withAcc w).die 0).inWindow 1 = false ∧ ((withAcc w).die 0).inWindow 0 = true ∧ (withAcc w).poison = [] ∧ (withAcc w).inOrder w = true := by decide
/-- R285, R12: a scratchpad store changes its four bytes of the cluster's scratchpad. -/
theorem test_bank_store : (after (exec (.performAtABank (.access 9)) (withAcc (acc0 .store 1 0x44)))).mem = Memory.write [] (placeScratch 0 0x44) 4 0x11223344 := by decide

/-- A store in the write buffer, narrower than die scope and of device scope; dirty and clean sectors; messages. -/
def inWb (scope : Nat) : State := { withAcc (acc0 .store 0 0x44) with iq := [], wb := [{ acc0 .store 0 0x44 with scope := scope, pa := 0x44 }] }
theorem wit_CacheSteps_wb : (inWb 1).wb.find? (fun a => decide (a.id = 9)) = some { acc0 .store 0 0x44 with scope := 1, pa := 0x44 } ∧
    (inWb 1).wbFirst { acc0 .store 0 0x44 with scope := 1, pa := 0x44 } = true ∧ (inWb 5).wbFirst { acc0 .store 0 0x44 with scope := 5, pa := 0x44 } = true ∧ 0x44 % 64 + 4 ≤ 64 ∧ ((inWb 1).core 0).hasWay 0x44 = true ∧ (inWb 5).mayRequest 0 = true := by decide
theorem test_drain : let l := ((after (exec (.drainIntoL1 9) (inWb 1))).core 0).line 0x44
    Tbl.find? l.bytes 4 = some 0x44 ∧ Tbl.find? l.bytes 7 = some 0x11 ∧ l.dirty = [4, 5, 6, 7] := by decide
def dirtyLine : Line := { pa := 0x40, bytes := [(0, 1), (16, 2)], dirty := [0], tag := 1, filled := [(0, 0), (1, 0)], dirtied := [(0, 0)] }
def oldLine : State := { withLine (mach []) 0 dirtyLine with dies := [(0, { cycle := 2 ^ 20 })] }
theorem wit_CacheSteps_sectors : let l := (oldLine.core 0).line 0x40
    l.dirtySector 0 = true ∧ l.dirtySector 1 = false ∧ Tbl.find? l.filled 1 = some 0 ∧ Tbl.find? l.dirtied 0 = some 0 ∧ 0 + 2 ^ 20 ≤ oldLine.cycleAt 0 := by decide
def msgOf (b : Body) (delivered : Bool) : Msg := { id := 12, src := 0, dst := 2000, lane := 0, delivered := delivered, body := b }
def withMsg (s : State) (b : Body) (delivered : Bool) : State := { s with msgs := [msgOf b delivered], nextId := 20 }
theorem wit_CacheSteps_messages : let s := withMsg (withAcc (acc0 .load 0 0x44)) (.resp 9 0x40 lineL1.bytes []) true
    (s.msgs.find? fun q => q.id = 12 && q.delivered) = some (msgOf (.resp 9 0x40 lineL1.bytes []) true) ∧ s.acc? 9 = some (acc0 .load 0 0x44) ∧ (acc0 .load 0 0x44).acq = false ∧ (s.core 0).hasWay 0x40 = true ∧ (acc0 .load 0 0x44).stale = false ∧ (acc0 .load 0 0x44).newer = [] ∧
    (withMsg (mach []) (.inv 0x40) true).msgs = [] ++ msgOf (.inv 0x40) true :: [] ∧ (msgOf (.ack 0 1 0) false).delivered = false := by decide
theorem wit_CacheSteps_plain : listLine 0x40 = false := by simp [listLine]
theorem test_fill : v (after (exec (.fill 12) (withMsg (withAcc (acc0 .load 0 0x44)) (.resp 9 0x40 lineL1.bytes []) true))) 6 0 = some 0x07060504 := by decide
def logged : SideEntry := { va := 0x40, ia := 0x40, data := 0x55, bmask := 1, red := false, rtype := 0, rop := 0, scope := 5, rel := false, lane := 0, slot := 0, btid := 0,
                            ctx := 0, flight := 0, seq := 3, uid := 0 }
theorem wit_CacheSteps_replay : let s := (mach []).setCore 0 { (mach []).core 0 with sidelog := [logged] }
    (s.core 0).sidelog = [logged] ∧ s.portPA 0 0x40 true = some 0x40 ∧ s.shootHolds (coreDie 0) 0x40 0 = false :=
  ⟨by decide, portIs _ _ _ _ _ (by decide), by decide⟩
/-- R13: the greatest stagger that fits: 64 · g · 63 + 8 · w ≤ 64 · p; and a die without bands. -/
theorem wit_CacheSteps_refresh : 64 * 0x3C * 63 + 8 * 0x20 ≤ 64 * 0x0F00 ∧ coreDie (keyCore 0) = 0 ∧ ∀ q ∈ (mach []).bands, coreDie (keyCore q.1) ≠ 3 := by decide

theorem wit_SliceStepsAreIndivisible : let b := Body.write 0x40 0x40 [(4, 0xAA)] 8 0 0 0
    let s := withMsg (mach []) b true
    (s.msgs.find? fun q => decide (q.id = 12)) = some (msgOf b true) ∧ s.mayPerform (msgOf b true) = true ∧ s.poison = [] ∧ s.mem.wf = true ∧ (∀ p ∈ s.flights, p.2.bars = []) ∧ isHost 0x40 = false ∧ inWindow 0x40 = false ∧
    (withMsg (mach []) (.read 9 0x40 0x40 1) true).mayPerform (msgOf (.read 9 0x40 0x40 1) true) = true :=
  ⟨by decide, by decide, by decide, by decide, by decide, by decide, inWindow_of_lt _ (by decide), by decide⟩
theorem wit_SliceStepsAreIndivisible_atomic : let a := { acc0 .atom 0 0x44 with ty := 0 }
    let s := withMsg (withAcc a) (.atomic 9 0x44 0x44 0 0) true
    s.mayPerform (msgOf (.atomic 9 0x44 0x44 0 0) true) = true ∧ s.acc? 9 = some a ∧ a.kind = .atom := by decide


/-! ### Tile copies, overlays and tile operations -/

/-- The page tables of IA 0 to 2 MiB, mapped onto themselves: three levels at 0x100000, the last entry a frame of 2 MiB (R425). -/
def tables (m : Memory) : Memory :=
  ((m.write 0x100000 8 (2 ^ 63 + 0x101000)).write 0x101000 8 (2 ^ 63 + 0x102000)).write 0x102000 8 (2 ^ 63 + 2 ^ 61)
/-- The rich state with those tables and memory. -/
def machP (m : Memory) : State := { memAt 0x1000 with dptbase := 0x100000, mem := tables m }
/-- A unit reads the bytes of page 0 through the I/O die's cached translation. -/
theorem vaReadIs (s : State) (ctx : Nat) (hr : s.ctxRanges ctx = [all]) (ht : Tbl.find? (Tbl.get s.tlbs agentIO []) 0 = some 0) (nd : Need) (n : Nat) :
    ∀ va, va + n ≤ 65536 → s.vaRead ctx va n nd = some (s.mem.read va n) := by
  induction n with
  | zero => intro va _; rfl
  | succ n ih =>
    intro va h
    have hlt : va < 2 ^ 51 := by omega
    have htr : Machine.translate (s.ctxRanges ctx) nd va = some va := by
      rw [hr]; exact translateAll nd va (by omega)
    have hp : s.portPA agentIO va false = some va := portIs s agentIO va va false ⟨hlt, by
      have h0 : pageOf va = 0 := by unfold pageOf; omega
      rw [h0, ht]; simp; omega⟩
    have hag : s.agentRead va va 1 = (s.mem.byte va).toNat := by
      simp [State.agentRead, isHost_of_lt va hlt, placePA, Memory.read]
    unfold State.vaRead
    rw [htr]
    show (match s.portPA agentIO va false with | none => none | some pa => (s.vaRead ctx (va + 1) n nd).map fun r => s.agentRead va pa 1 + 256 * r) = _
    rw [hp, ih (va + 1) (by omega)]
    simp only [Option.map_some, hag, Memory.read]

/-- A copy record of four words from scratchpad 0x40 to 0x80. -/
def rec4 : Nat := 0x40 + 0x80 * 2 ^ 64 + (4 + 2 ^ 16 + 2 ^ 32 + 2 ^ 48) * 2 ^ 128 + (2 + 5 * 256) * 2 ^ 192 * 2 ^ 192
def atRec (r : Nat) : State := { machP (Memory.write [] 0x1000 64 r) with issue := { threads := [0] } }
def tcpyF : FormX := { fx with a := 2, w2 := 3 }
theorem recordsIs (r n : Nat) (s : State) (b : Band) (as : List (Nat × Nat))
    (h : (as.any fun p => p.2 % 64 ≠ 0) = false ∧ (as.filter fun p => (firstFail (s.coreRanges s.issue.core) needX p.2 n).isSome) = [] ∧
      (as.find? fun p => !s.mapped (s.target b 0 p.2) false) = none ∧ (∀ p ∈ as, p.2 + n ≤ 65536 ∧ s.mem.read p.2 n = r) ∧ s.ctxRanges (s.bandCtx b) = [all] ∧
      Tbl.find? (Tbl.get s.tlbs agentIO []) 0 = some 0) : s.sliceRecords b needX n as = .ok (.ok (as.map fun p => (p.1, r))) := by
  obtain ⟨h1, h2, h3, h4, h5, h6⟩ := h
  simp only [State.sliceRecords, h1, h2, h3, List.isEmpty_nil, Bool.not_true, Bool.false_eq_true, if_false]
  congr 2
  apply List.map_congr_left
  intro p hp
  rw [vaReadIs s _ h5 h6 {} n p.2 (h4 p hp).1, (h4 p hp).2]; rfl
theorem wit_CopiesAndOverlays : Runs (atRec rec4) (band0 (atRec rec4)) ∧ Guarded (band0 (atRec rec4)) 7 false [0] [0] ∧
    (band0 (atRec rec4)).destPending (viewX tcpyF) .none [0] = false ∧ (atRec rec4).sliceRecords (band0 (atRec rec4)) needX 64 [(0, 0x1000)] = .ok (.ok [(0, rec4)]) ∧
    (tileOf rec4).bad rec4 false false = false ∧ (atRec rec4).tileBeyond (band0 (atRec rec4)) (tileOf rec4) false = false ∧ (tileOf rec4).pers = false ∧ (tileOf rec4).total = 4 ∧
    (band0 (atRec rec4)).roomFor .cp = true :=
  ⟨runsOf _ _ (by decide), by unfold Guarded; decide, by decide, recordsIs _ _ _ _ _ (by decide), by decide, by decide, by decide, by decide, by decide⟩
/-- A persistent plain grid copy from scratchpad 0x40 to DST 0x2000 of rank 0, instance 5. -/
def recPers : Nat := 0x40 + 0x2000 * 2 ^ 64 + (4 + 2 ^ 16 + 2 ^ 32 + 2 ^ 48) * 2 ^ 128 + (2 + 256) * 2 ^ 192 * 2 ^ 192 + 2 ^ 208 * 2 ^ 200 + 5 * 2 ^ 248 * 2 ^ 200
theorem wit_CopiesAndOverlays_busy : (tileOf recPers).pers = true ∧ (tileOf recPers).bad recPers true false = false ∧
    (startInstance [{ dst := 0x2000, grid := 0, repl := 0, nexti := 5, lowi := 3 }] (tileOf recPers)).toOption = some none := by decide
def copyRec : Copy :=
  { cluster := 0, core := 0, bandid := 0, gid := 1, thread := 0, ctx := 0, flight := 0, team := 0, tag := some 3, record := rec4, recAddr := 0x1000, sbase := 0,
    ssize := 65536, total := 4 }
def copy0 (c : Copy → Copy) : State :=
  let s := withB (mach []) fun b => { b with groups := [{ gid := 1, cls := .cp, left := [(0, 1)] }] }
  { s with nextId := 20, copies := [(9, c copyRec)] }
theorem wit_CopiesAndOverlays_done : let s := copy0 fun c => { c with next := 4 }
    (Tbl.find? s.copies 9).isSome = true ∧ s.placeOfTeam 0 0 = .resident 0 false 0 ∧ s.keyOfUid (uidOf 0 0 0) = some 0 ∧ (tileOf rec4).ranks = [0] ∧ s.scratchAt 0 0 0 0 = .here 0 0 ∧
    (tileOf rec4).sspc = 1 ∧ (tileOf rec4).dspc = 1 ∧ (tileOf rec4).rop = 0 ∧ s.rank = 0 ∧ s.unitFlying (agentCopy 0) 9 = false ∧
    ∀ p ∈ s.flights, p.2.bars = [] := by decide
/-- R220: element 1 of the copy moves the word at 0x44 to 0x84; the completion sets g3. -/
theorem test_copy_element : let s := copy0 fun c => { c with next := 1 }
    (after (exec (.performAtABank (.copyElement 9)) { s with mem := Memory.write [] (placeScratch 0 0x44) 4 0xCAFE })).mem.read (placeScratch 0 0x84) 4 = 0xCAFE := by decide
theorem test_copy_complete : let s := copy0 fun c => { c with next := 4 }
    let t := after (exec (.tileCopyComplete 9) (s.setCore 0 { s.core 0 with pend := [(3, 1)] }))
    (t.core 0).tags = 8 ∧ t.copies = [] ∧ (band0 t).outstanding .cp = 0 := by decide
/-- OVL of slot 2 and of the slot in which the band stands; lengths 1, 16384 and beyond. -/
theorem wit_CopiesAndOverlays_ovl : let s := atRec rec4
    Guarded (band0 s) 7 false [0] [0] ∧ (band0 s).stands 0 = true ∧ (band0 s).stands 2 = false ∧ 0x1000 % 64 = 0 ∧ ((band0 s).readOpnd 0 0 (.v 5) 32 2).toOption = some 4 ∧
    firstFail (s.coreRanges 0) needX 0x1000 16 = none ∧ (∀ p ∈ s.bands, keyCore p.1 ∈ s.ovlCores 0 → p.2.stands 2 = false) ∧ bits (0x2000A#32).toNat 17 16 = 2 :=
  ⟨by unfold Guarded; decide, by decide, by decide, by decide, by decide, by decide, by decide, by decide⟩
theorem wit_CopiesAndOverlays_ovl_done : let s := copy0 fun c => { c with tag := none, ovl := some (2, 10, 1, 0x1000), next := 1, total := 1, payload := [(0, 0x1A8)], waits := [0] }
    (Tbl.find? s.copies 9).isSome = true ∧ s.keyOfUid (uidOf 0 0 0) ≠ none ∧ 2 < (s.core 0).overlays.length := by decide
theorem test_ovl_complete : ((after (exec (.ovlComplete 9) (copy0 fun c =>
    { c with tag := none, ovl := some (2, 10, 1, 0x1000), next := 1, total := 1, payload := [(0, 0x1A8)], waits := [0] }))).core 0).overlays.getD 2 {} =
    { ovid := some 10, words := [0x1A8], src := 0x1000 } := by decide


/-! ### The matrix engine -/

/-- A parameter block: 32 × 32 × 32 of format 1, ZI, A at 0x1000 and B at 0x2000 with rows of 64 bytes, slot 0; with more in `x`. -/
def pb0 (x : Nat) : Nat := 1 + 0x11 * 2 ^ 24 + 2 ^ 32 + (0x1000 + 2 ^ 32) * 2 ^ 64 + (0x2000 + 2 ^ 32) * 2 ^ 128 + x
def eng0 : State := memAt 0x1000
/-- The first words of k are a parameter block. -/
def withPb (pb : Nat) : State := withB eng0 fun b => { b with kregs := (List.range 64).map fun i => BitVec.ofNat 32 (pb / 2 ^ (32 * i)) }
/-- No byte below 2^40 fails the range `all`. -/
theorem firstFailAll (nd : Need) : ∀ n va, va + n ≤ 2 ^ 40 → firstFail [all] nd va n = none
  | 0, _, _ => rfl
  | n + 1, va, hle => by
    have ht : Machine.translate [all] nd va = some va := translateAll nd va (by omega)
    have hm : (va + 1) % 2 ^ 64 = va + 1 := by omega
    unfold firstFail
    rw [ht, hm, firstFailAll nd n (va + 1) (by omega)]; rfl
theorem checkGlobal (s : State) (b : Band) (nd : Need) (a n : Nat) : s.checkAddr b 0 nd a n = firstFail (s.coreRanges s.issue.core) nd a n := rfl
theorem wit_EngineInstructionsPost : Runs eng0 (band0 eng0) ∧ tileInstr (.acz { m := 0, b := 0, a := 0, d := 0 }) = some (viewS { m := 0, b := 0, a := 0, d := 0 }, 0, 0) ∧
    Guarded (band0 eng0) 7 false [0, 1] [0, 1] ∧ Guarded (band0 eng0) 7 true [0, 1] [] ∧ (∀ op ∈ [TileOp.rslv 0 0 false 0, .acz 127 0, .acmov 0 0 1, .mxqPush 0x80, .mroute 0 5],
      CanPost eng0 (band0 eng0) op) ∧ (band0 eng0).destPending (viewX { fx with d := 3 }) .pred [0, 1] = false ∧
    ((band0 eng0).readOpnd 0 0 (.v 2) 64 1).toOption = some 0x1000 ∧ eng0.checkAddr (band0 eng0) 1 needX 0x1000 (1024 * 12) = none ∧
    eng0.checkAddr (band0 eng0) 0 needW 0x1000 (64 * 1024 * 12) = none :=
  ⟨runsOf _ _ (by decide), by decide, by unfold Guarded; decide, by unfold Guarded; decide, by unfold CanPost; decide, by decide, by decide, by decide,
   by rw [checkGlobal, show eng0.coreRanges eng0.issue.core = [all] from rfl]; exact firstFailAll needW (64 * 1024 * 12) 0x1000 (by decide)⟩
/-- MMA from k: a block that may be posted, one whose KT is 0, one whose operand lies at the allocation's end. -/
theorem wit_EngineInstructionsPost_mma : let s := withPb (pb0 0)
    ((band0 s).readKGroup 0 16).toOption = some (pb0 0) ∧ pbBad (pb0 0) 0 1 16 = false ∧ pbBeyond (pb0 0) (s.alloc (band0 s)).2 (s.coreRanges 0) = false ∧
    pbBad 0x1100000000 0 1 16 = true ∧ pbBeyond (pb0 (0xEC00 * 2 ^ 64)) (s.alloc (band0 s)).2 (s.coreRanges 0) = true ∧ pbBad (pb0 (0xEC00 * 2 ^ 64)) 0 1 16 = false := by decide
/-- A block that has arrived for a scratchpad form: MPTBL's identity table, which has no code twice; and one of zeros. -/
def blockOf (size x : Nat) : State := withB eng0 fun b => { b with groups := [{ gid := 1, cls := .ld, dest := .block 1, depth := 0, pc := 0, left := [], buf := [(0, x)], size := size }] }
theorem wit_EngineInstructionsPost_block : let s := blockOf 256 5
    firstBeyond 0x1000 256 (s.alloc (band0 s)).2 = none ∧ 0x1000 % 64 = 0 ∧ ((band0 s).groups.filter (·.isBlock s.issue 1)) ≠ [] ∧
    (∀ g ∈ (band0 s).groups, g.open = false ∧ Tbl.get g.buf 0 0 = 5) ∧ ¬ ((List.range 256).map fun _ => 0).Nodup := by decide
theorem wit_EngineInstructionsPost_identity : (List.range 256).Nodup := List.nodup_range
/-- MXQ: a ring of two commands owned by context 0, with room; MXQ.init where head and tail agree. -/
def ringR : Ring := { base := 0x4000, entries := 2, owner := some 0, ssize := 65536 }
def withEng (g : Engine) : State := let s := eng0; { s with clusters := Tbl.put s.clusters 0 { s.cluster 0 with engine := g } }
theorem wit_EngineInstructionsPost_ring : let s := withEng { ring := ringR }
    s.engine.ringAhead.faulted = false ∧ s.engine.ringAhead.owner = some (s.bandCtx (band0 s)) ∧ firstBeyond 0x1000 128 (s.alloc (band0 s)).2 = none ∧
    s.engine.ringAhead.tail - s.engine.ringAhead.head + s.engine.pushes < s.engine.ringAhead.entries ∧ s.engine.ringAhead.tail ≤ s.engine.ringAhead.head ∧
    s.engine.pushes = 0 ∧ firstBeyond 0x4000 (128 * 2 ^ (7 + 1)) (s.alloc (band0 s)).2 = none ∧ bits 1 35 34 = 0 ∧ bits 1 3 2 = 0 := by decide
theorem wit_EngineInstructionsPost_mfence : (band0 eng0).groups = [] ∧ eng0.iq ++ eng0.wb = [] := by decide
/-- R228, R249: ACZ of slots 5 and 6 stands in the table and in the tl counter; a full table holds it. -/
theorem test_acz_post : let t := after (exec (.acz { m := 0, b := 0, a := 1, d := 5 }) eng0)
    (t.engine.table.map fun p => p.2.op) = [.acz 69 0] ∧ (band0 t).outstanding .tl = 1 ∧ ((band0 t).thread 0).pc = 1 := by decide
/-- R244: an MMA whose KT is 0 is an illegal operand. -/
theorem test_mma_illegal : ((after (exec (.mma { fx with ac := 1 }) { withPb 0x1100000000 with flights := (trapping 0).flights })).issue.ended) = true := by decide

def entry0 (op : TileOp) (e : Entry → Entry := id) : Entry :=
  e { op := op, prio := 2, core := 0, lane := 0, slot := 0, ctx := 0, flight := 0, team := 0, sbase := 0, ssize := 65536, posted := 0, gid := 1, thread := 0, tidx := 0,
      rndseed := 0, bandw := 16, uid := (band0 eng0).uid }
/-- Entries 0 and 1: an operation, and an ACZ of priority 1. The die stands at cycle 4,096. -/
def withEntry (op : TileOp) (e : Entry → Entry := id) (slots : Tbl ASlot := []) : State :=
  { withEng { table := [(0, entry0 op e), (1, { entry0 (.acz 9 0) with prio := 1 })], nextEntry := 2, slots := slots } with dies := [(0, { cycle := 4096 })] }
theorem wit_EngineGrantsAndPasses : let s := withEntry (.acz 5 0)
    Tbl.find? (s.eng 0).table 0 = some (entry0 (.acz 5 0)) ∧ (∀ p ∈ (s.eng 0).table, p.1 < 2 ^ 40 ∧ p.2.prio ≤ 3) ∧ s.chosen 0 false = some 0 ∧ s.eligible 0 0 (entry0 (.acz 5 0)) = true ∧
    TileOp.onArray (.acz 5 0) = false ∧ TileOp.onArray (.mma (pb0 0)) = true ∧ (withEntry (.mma (pb0 0))).chosen 0 true = some 0 := by decide
/-- ACST of form 0 on a slot that holds elements and on a RAW one, with the posting band still in its slot. -/
theorem wit_EngineGrantsAndPasses_acst : let s := withEntry (.acst 5 0 0 1 0x1000 0) (slots := [(5, { val := .resolved false [1, 2] })])
    let u := withEntry (.acst 5 0 0 1 0x1000 0) (slots := [(5, { val := .raw [] })])
    ((s.eng 0).slot 5).val.formOf ≠ none ∧ s.chosen 0 false = some 0 ∧ ((u.eng 0).slot 5).val.formOf = none ∧ u.chosen 0 false = some 0 ∧ u.keyOfUid (band0 u).uid = some 0 ∧
    u.band? 0 = some (band0 u) ∧ (band0 u).fault = none := by decide
theorem wit_EngineGrantsAndPasses_at : let s := withEntry (.acmov 5 1 7) fun e => { e with passing := true, prog := 1 }
    s.entryAt 0 (entry0 (.acmov 5 1 7) fun e => { e with passing := true, prog := 1 }) = .here 0 0 ∧ (1 ≤ 4 ∧ 4 ≤ 4) ∧
    ((SlotVal.resolved false [1, 2]).image 2 0 { seed := 0, tid := 0, ctr := 0 }).1.length ≤ 1024 ∧ formBytes 4 = 2 := by decide
theorem wit_EngineGrantsAndPasses_ends : let s := withEntry (.acmov 5 1 7) fun e => { e with passing := true, prog := 1 }
    s.unitFlying (agentEngine 0) 0 = false ∧ (∀ p ∈ s.flights, p.2.bars = []) ∧ s.ringAt 0 = .here 0 0 ∧ s.entryRecord (entry0 (.acmov 5 1 7)) = none := by
  intro s; refine ⟨?_, ?_, ?_, ?_⟩ <;> decide
/-- R307: the grant of a fresh MMA with ZI makes its slot RAW from reset elements. -/
theorem test_mma_grant : let t := after (exec (.enginePassGrant 0 0) (withEntry (.mma (pb0 0))))
    ((t.eng 0).table.map fun p => (p.2.started, p.2.passing)) = [(true, true), (false, false)] ∧
    (match ((t.eng 0).slot 0).val with | .raw l => l.length == 1024 && l.headD { s := 1 } == {} | _ => false) = true := by decide
/-- R250: the passes of ACMOV 5 ← 7, of two slots: the second one moves both. -/
theorem test_acmov_pass : let t := after (exec (.passEnd 0 0) (withEntry (.acmov 5 1 7) (fun e => { e with passing := true, prog := 1 }) [(7, { val := .resolved false [3] }), (8, { val := .empty })]))
    ((t.eng 0).slot 5).val = .resolved false [3] ∧ ((t.eng 0).slot 6).val = .empty ∧ ((t.eng 0).table.map fun p => p.2.retired) = [true, false] := by decide
/-- R256: MXQ.push copies the command to the ring's tail. -/
theorem test_mxq_push : let s := withEng { table := [(0, entry0 (.mxqPush 0x1000) fun e => { e with passing := true })], nextEntry := 1, ring := { ringR with tail := 3, head := 2 } }
    let t := after (exec (.passEnd 0 0) { s with mem := Memory.write [] (placeScratch 0 0x1000) 4 0xBEEF })
    t.mem.read (placeScratch 0 0x4080) 4 = 0xBEEF ∧ (t.eng 0).ring.tail = 4 := by decide

def blockE (b : Block → Block) : Nat × Block := (4, b { entry := 0, mt := 0, nt := 0, slot := 0 })
/-- An MMA with an epilogue to scratchpad offset 0x8000, rows of 128 bytes, FP32; its one block queued. -/
def pbE : Nat := pb0 ((1 + 4096) * 2 ^ 256 + 0x8000 * 2 ^ 384 + 128 * 2 ^ 448)
def epiEntry : Entry := entry0 (.mma pbE) fun e => { e with started := true, passesDone := true, blocksLeft := 1, prog := 1 }
def epi0 (b : Block → Block) : State :=
  withEng { table := [(0, epiEntry)], nextEntry := 1, epilogue := [blockE b], slots := [(0, { val := .raw (List.replicate 1024 {}), owner := some 0 })] }
theorem wit_EpilogueAndRelease : let s := epi0 id
    let u := epi0 fun b => { b with codes := some [7] }
    let w := epi0 fun b => { b with codes := some [7], sent := true }
    ((s.eng 0).epilogue.find? fun q => q.2.codes.isNone) = some (blockE id) ∧ (Tbl.find? (s.eng 0).table 0).isSome = true ∧
    ((u.eng 0).epilogue.find? fun q => q.1 = 4) = some (blockE fun b => { b with codes := some [7] }) ∧ (∀ q ∈ (u.eng 0).epilogue, q.1 < 4 → q.2.leftSend = true) ∧ w.unitFlying (agentEngine 0) 0 = false ∧ s.entryRecord epiEntry = none ∧
    (mmaOf pbE).dest = 1 ∧ w.scratchAt 0 0 0 0 = .here 0 0 ∧ 0 < 1024 := by decide
/-- R247: element 0 of the block goes to 0x8000, element 33 to row 1, column 1; a block accepted with CLR 0 leaves its slot and retires the operation. -/
theorem test_epilogue : let w (n : Nat) := epi0 fun b => { b with codes := some (List.replicate 33 7 ++ [9]), sent := true, done := n }
    (after (exec (.performAtABank (.engineBlock 0 4)) (w 33))).mem.read (placeScratch 0 0x8084) 4 = 9 ∧
    let t := after (exec (.blockAccepted 0 4) (w 1024))
    ((t.eng 0).table.map fun p => p.2.retired) = [true] ∧ (t.eng 0).epilogue = [] := by decide
def retired0 (op : TileOp) : State := { withEng { table := [(0, entry0 op fun e => { e with retired := true })], nextEntry := 1 } with dies := [(0, { cycle := 4 })] }
theorem wit_EpilogueAndRelease_release : let s := retired0 (.acmp 5 0 0 2 true false 3 [0, 1])
    (Tbl.find? (s.eng 0).table 0).map (fun e => (e.retired, e.ring)) = some (true, false) ∧ 0 + 4 ≤ (s.die (clusterDie 0)).cycle ∧ (s.eng 0).removed = [] ∧
    s.keyOfUid (band0 s).uid = some 0 ∧ s.band? 0 = some (band0 s) := by decide
/-- A stop of context 0 with a started MMA, and while a pass runs; the first use of a slot of context 1. -/
theorem wit_EpilogueAndRelease_stop : let s := withEntry (.mma (pb0 0)) fun e => { e with started := true }
    let u := withEntry (.mma (pb0 0)) fun e => { e with started := true, passing := true }
    (s.cluster 0).disabled = false ∧ (s.eng 0).atRest 0 = true ∧ (u.eng 0).atRest 0 = false ∧ (s.eng 0).live.length = 2 := by decide
theorem test_engine_stop : let t := after (exec (.engineStopRequest 0 0) (withEntry (.mma (pb0 0)) fun e => { e with started := true, prog := 0 }))
    (t.eng 0).live = [] ∧ ((t.eng 0).slot 0).stop = true ∧ ((t.eng 0).removed.map fun p => p.2.started) = [false, false] := by decide
theorem wit_EpilogueAndRelease_first : let s := let u := withEng { slots := [(5, { owner := some 1 })] }; withB u fun b => { b with firstUse := some (0, 0, [5]) }
    s.band? 0 = some (band0 s) ∧ coreCluster (keyCore 0) = 0 ∧ (band0 s).firstUse = some (0, 0, [5]) ∧ (s.eng 0).table = [] ∧ (s.eng 0).epilogue = [] ∧ (s.eng 0).removed = [] ∧
    ((s.eng 0).slot 5).val = .empty ∧ ((s.eng 0).slot 5).owner ≠ none ∧ (s.ctx? (s.bandCtx (band0 s))).map (fun c => c.spills) = some [] := by decide

/-- Elements at the accumulator's bounds: S and C of all ones; anchors whose rise stays inside 1,023 and one at it; codes of both formats. -/
theorem wit_AccumulatorsAddProducts : let e1 : El := { s := 2 ^ 72 - 1, c := 2 ^ 72 - 1, anc := 599 }
    (2 ^ 72 - 1 < 2 ^ 72) ∧ (e1.anc + e1.rise 5 0 ≤ 1023) ∧ (({ anc := 1023 } : El).anc + ({ anc := 1023 } : El).rise 1 (-600) ≤ 1023) ∧
    (0xFF7FFFFF < 2 ^ 32 ∧ (rfFmt false).decode 0xFF7FFFFF ≠ .nan ∧ (rfFmt false).decode 0xFF7FFFFF ≠ .zero true) ∧
    (1 < 2 ^ 16 ∧ (rfFmt true).decode 1 ≠ .nan ∧ (rfFmt true).decode 1 ≠ .zero true) := by decide
/-- R37: 3 · 2^0 added to the reset element, whose anchor rises to where its least bit is the unit of R36; 1 and −1 cancel. -/
theorem test_accumulate : ((({} : El).accumulate (.fin false 3 0)).resolve .f32 0 { seed := 0, tid := 0, ctr := 0 }).1 = 0x40400000 ∧
    (((({} : El).accumulate (.fin false 1 0)).accumulate (.fin true 1 0)).resolve .f32 0 { seed := 0, tid := 0, ctr := 0 }).1 = 0 ∧
    ((({} : El).accumulate (.inf false)).accumulate (.inf true)).nan = true := by decide

/-- The ring command of a kind, with a wait kind, SIG and SOP; its MMA's parameter block is `pb0`. -/
def cmd0 (kind wk sig sop : Nat) : Nat :=
  (if kind = 1 then pb0 0 else 0) + (kind + 256 * wk + 65536 * sig) * 2 ^ 512 + 0x100 * 2 ^ 544 + 1 * 2 ^ 576 + 0x100 * 2 ^ 608 + 0x120 * 2 ^ 640 + sop * 2 ^ 672
def ringS (r : Ring → Ring) (c : Nat) (g : Engine → Engine := id) : State :=
  { withEng (g { ring := r { ringR with tail := 1 } }) with mem := Memory.write [] (placeScratch 0 0x4000) 128 c }
theorem wit_CommandRingRuns : let s := ringS id (cmd0 4 0 0 5)
    s.ringBase 0 = some 0 ∧ (s.eng 0).ring.owner ≠ none ∧ (s.eng 0).ring.cmd = none ∧ cmdKind (s.scratchRead 0 (0 + 0x4000 + 0 % 2 * 128) 128) = 4 ∧
    s.cmdFault 0 0 (cmd0 4 0 0 5) = none ∧ s.cmdFault 0 0 (cmd0 4 3 0 5) = some 1 ∧ (∀ k ∈ [0, 1, 2, 3, 4, 5], cmdKind (cmd0 k 0 0 0) = k) ∧ (s.eng 0).live.length < 32 ∧
    cmdOp (cmd0 4 0 0 5) = some (.acz 5 0) ∧ cmdOp (cmd0 0 0 3 0) = none ∧ cmdKind (cmd0 5 0 3 0) = 5 := by decide
/-- The state once that command is fetched: entry 0 waits. -/
def fetched : State := after (exec (.ringAcz 0) (ringS id (cmd0 4 0 0 5)))
theorem wit_CommandRingRuns_post : let g := fetched.eng 0
    g.ring.cmd = some (cmd0 4 0 0 5) ∧ g.ring.entry = some 0 ∧ 0 < g.nextEntry ∧ (Tbl.find? g.table 0).map (fun e => (e.waits, e.op, fetched.foreignSlots 0 e)) = some (true, .acz 5 0, []) ∧
    g.ring.waited = true ∧ fetched.ringBase 0 = some 0 ∧ g.ring.faulted = false ∧ g.ring.stopped = false := by decide
/-- R314, R315: the ACZ command is fetched and its entry waits; then it is posted at the table's end, as entry 1. -/
theorem test_ring : let t := fetched
    let u := after (exec (.ringAcz 0) t)
    (t.eng 0).ring.head = 1 ∧ (t.eng 0).ring.waited = true ∧ ((u.eng 0).table.map fun p => (p.1, p.2.op, p.2.waits)) = [(1, .acz 5 0, false)] ∧ (u.eng 0).ring.entry = some 1 := by decide
/-- A record at 0x100 of the allocation: EXPECT 1 and 2, PHASE 3; wait kinds 1 and 2. -/
def barS (expect : Nat) (r : Ring → Ring) : State :=
  { ringS r 0 with mem := Memory.write (Memory.write [] (placeScratch 0 0x100) 4 expect) (placeScratch 0 0x108) 4 3 }
def owed0 (n : Nat) : Owed := { entry := n, flight := 0, team := 0, addr := 0x100 }
theorem wit_CommandRingRuns_waits : let s := barS 2 fun r => { r with cmd := some (cmd0 1 1 0 0), frees := [owed0 0], dones := [owed0 1] }
    s.barAt 0 ((s.eng 0).ring.ref 0x100) = some (.scratch 0 0x100) ∧ cmdWkind (cmd0 1 1 0 0) = 1 ∧ cmdWkind (cmd0 1 2 0 0) = 2 ∧ cmdWaddr (cmd0 1 1 0 0) = 0x100 ∧
    s.waitHolds (s.eng 0).ring (cmd0 1 1 0 0) = true ∧ (s.barGet (.scratch 0 0x100)).arrived + 1 < (s.barGet (.scratch 0 0x100)).expect ∧
    ((s.eng 0).ring.frees.find? fun p => p.entry = 0) = some (owed0 0) ∧ ((s.eng 0).ring.dones.find? fun p => p.entry = 1) = some (owed0 1) ∧ Tbl.find? (s.eng 0).table 1 = none ∧
    (s.flight? 0).map (fun f => f.absent) = some [] ∧ ((barS 1 id).barGet (.scratch 0 0x100)).expect ≤ ((barS 1 id).barGet (.scratch 0 0x100)).arrived + 1 := by decide
theorem test_free : ((after (exec (.freeArrival 0 0) (barS 1 fun r => { r with frees := [owed0 0] }))).barGet (.scratch 0 0x100)).phase = 4 := by decide


/-! ### Barriers, quotas and posts -/

/-- A team barrier record at scratchpad offset 0x1000, initialised by flight 0: EXPECT and ARRIVED. -/
def barAtS (expect arrived : Nat) : State := { memAt 0x1000 with mem := (Memory.write (Memory.write (Memory.write [] (placeScratch 0 0x1000) 4 expect) (placeScratch 0 0x1004) 4 arrived)
  (placeScratch 0 0x1008) 8 (7 + 2 ^ 40)) }
/-- Form X on v2 with SPACE 1 and the destination v6. -/
def barX (mf : BitVec 4) : FormX := { fx with a := 2, d := 6, mf := mf, w2 := 1 }
def useS (s : State) (t : Nat) : BarUse := s.barUse (band0 s) 1 t 0x1000
theorem wit_BarriersQuotasAndPosts : let s := barAtS 4 1
    Runs s (band0 s) ∧ Guarded (band0 s) 7 false [0, 1] [0, 1] ∧ (∀ j ∈ [0, 1], ((band0 s).thread j).state = .ready) ∧
    ((s.barUses (band0 s) (viewX (barX 0)) [0, 1]).toOption.map Except.toOption) = some (some [useS s 0, useS s 1]) ∧ (useS s 0).site = .scratch 0 0x1000 ∧
    s.barCheck (band0 s) [useS s 0, useS s 1] true = true ∧ (memAt 0x1000).barCheck (band0 (memAt 0x1000)) [useS (memAt 0x1000) 0] true = false ∧
    (viewX (barX 0)).barOrd = 0 ∧ (viewX (barX 8)).barOrd = 2 ∧ (band0 s).halted = false ∧ s.issue.inRep = false ∧ (band0 s).destPending (viewX (barX 0)) (.regs 1) [0, 1] = false ∧
    Fits s (band0 s) (viewX (barX 0)) 32 0 0 [6] ∧ (s.flight? 0).map (fun f => f.absent) = some [] :=
  ⟨runsOf _ _ (by decide), by unfold Guarded; decide, by decide, by decide, by decide, by decide, by decide, by decide, by decide, by decide, by decide, by decide, by unfold Fits; decide, by decide⟩
/-- BARJ at ORD 2 where its release waits for a store, and where nothing is left to wait for; a record whose last arrival is due; a phase reached and not reached. -/
theorem wit_BarriersQuotasAndPosts_phases : let s := withB (barAtS 4 1) fun b => { b with groups := [{ gid := 1, cls := .st, left := [(0, 1)] }] }
    (s.releaseRun 5).2 = false ∧ ((barAtS 4 1).releaseRun 5).2 = true ∧ ((barAtS 4 1).barGet (.scratch 0 0x1000)).arrived + 1 < ((barAtS 4 1).barGet (.scratch 0 0x1000)).expect ∧
    ((barAtS 4 3).barGet (.scratch 0 0x1000)).expect ≤ ((barAtS 4 3).barGet (.scratch 0 0x1000)).arrived + 1 ∧ 1 ≤ ((7 : Int) - 6) % 2 ^ 32 ∧ ¬ 1 ≤ ((7 : Int) - 7) % 2 ^ 32 := by decide
/-- BARI: a record that no one waits at may be written; one with a teams count may not. -/
theorem wit_BarriersQuotasAndPosts_bari : let s := barAtS 4 1
    let u : State := { s with mem := Memory.write s.mem (placeScratch 0 0x1010) 2 1 }
    ((s.barUses (band0 s) (viewX (barX 0)) [0]).toOption.map Except.toOption) = some (some [useS s 0]) ∧ (s.barGet (useS s 0).site).teams = 0 ∧ (s.barGet (useS s 0).site).absent = 0 ∧
    s.barWaited 0 (useS s 0).ref = false ∧ probeFlight.roster.length < 32 ∧ (u.barGet (useS s 0).site).teams ≠ 0 ∧ ((band0 s).readOpnd 0 0 (.v 4) 32 2).toOption = some 0xAB := by intro s u; refine ⟨?_, ?_, ?_, ?_, ?_, ?_, ?_⟩ <;> decide
/-- R259, R260: BARI with a count of 0xAB; two BARJs that complete a phase of 2, with nobody left at the barrier; BARA gives the phases at which the two arrived. -/
theorem test_bari : ((after (exec (.bari (.x { barX 0 with b := 4 })) (memAt 0x1000))).barGet (.scratch 0 0x1000)) =
    { expect := 0xAB, arrived := 0, phase := 0, mode := 0, init := true, absent := 0, teams := 0, flight := 0 } := by decide
theorem test_barj : let t := after (exec (.barj (barX 0)) (barAtS 2 0))
    (t.barGet (.scratch 0 0x1000)).phase = 8 ∧ (t.barGet (.scratch 0 0x1000)).arrived = 0 ∧ ((band0 t).thread 0).pc = 1 ∧ ((band0 t).thread 1).state = .ready := by decide
theorem test_bara : let t := after (exec (.bara (barX 0)) (barAtS 1 0))
    v t 6 0 = some 7 ∧ v t 6 1 = some 8 ∧ (t.barGet (.scratch 0 0x1000)).phase = 9 := by decide
theorem test_barw : let t := after (exec (.barw (.x { barX 0 with b := 5 })) (barAtS 2 0))
    ((band0 t).thread 0).state = .ready ∧ ((band0 t).thread 1).state = .onBarrier := by decide
/-- GROW by 0, by what the pool has and by more than that and than a band may have. -/
def quota (q : Nat) : State := withB (mach []) fun b => { b with quota := q }
theorem wit_BarriersQuotasAndPosts_grow : Runs (quota 16) (band0 (quota 16)) ∧ 16 + 8 ≤ maxQuota 16 ∧ maxQuota 16 < 16 + 0x3FF ∧ 8 ≤ (quota 16).poolFree 0 0 ∧
    (quota 16).growBefore 0 0 = false ∧ (let s := quota 16; let u : State := { s with bands := s.bands ++ [(1, { probeBand with quota := poolSize 16 - 20 })] }
      ¬ 8 ≤ u.poolFree 0 0 ∧ u.band? 0 = some (band0 u)) := ⟨runsOf _ _ (by decide), by decide, by decide, by decide, by decide, by decide⟩
theorem test_quotas : (band0 (after (exec (.grow { imm := 8, d := 0 }) (quota 16)))).quota = 24 ∧ (band0 (after (exec (.shrink { imm := 8, d := 0 }) (quota 16)))).quota = 8 ∧
    (band0 (after (exec (.phase { imm := 0x15, d := 0 }) (quota 16)))).phase = 5 := by decide
theorem wit_BarriersQuotasAndPosts_ecall : (∀ j ∈ [0, 1], (band0 (mach [])).pendingV j 6 = false) ∧ ∀ n < 4, (band0 (mach [])).pendingV 0 n = false := by decide
theorem test_ecall : let t := after (exec (.ecall { imm := 3, d := 6 }) (memAt 0))
    (t.ecalls.map fun p => (p.2.service, p.2.dreg, p.2.threads)) = [(3, 6, [0, 1])] ∧ ((band0 t).thread 1).park = .ecall 3 0 false := by decide
/-- TASKP with a good record, with a bad one and with a full pool, at a bad address or cluster; PNCMD before it is posted, while it waits, and once it is
answered. -/
def post0 (kind : Nat) (r : Option Nat) : Post :=
  { kind := kind, core := 0, addr := 0x1000, target := 0, flight := 0, ctx := 0, team := 0, uid := (band0 (memAt 0x1000)).uid, gid := 1, reply := r }
def posted0 (kind : Nat) (r : Option Nat) : State := { memAt 0x1000 with posts := [(9, post0 kind r)] }
/-- Pages that the walk maps and no shoot-down holds let a walk over a range go on. -/
theorem firstUnmappedNone (s : State) (ctx : Nat) (hr : s.ctxRanges ctx = [all]) (nd : Need) (w : Bool) : ∀ (n va : Nat), va + n ≤ 65536 →
    ((List.range n).all fun i => (match s.walk (va + i) with | .frame _ => true | _ => false) && !s.shootAny (va + i) ctx) = true → s.firstUnmapped ctx va nd w n = none
  | 0, _, _, _ => rfl
  | n + 1, va, h, hall => by
    have hlt : va < 2 ^ 51 := by omega
    have htr : Machine.translate (s.ctxRanges ctx) nd va = some va := by
      rw [hr]; exact translateAll nd va (by omega)
    rw [List.range_succ_eq_map, List.all_cons, Bool.and_eq_true, Bool.and_eq_true] at hall
    obtain ⟨⟨h1, h2⟩, h3⟩ := hall
    rw [Nat.add_zero] at h1 h2
    have hm : s.mapped va w = true := mappedIs s va w true ⟨hlt, h1⟩
    have hn : (va + 1) % 2 ^ 64 = va + 1 := by omega
    unfold State.firstUnmapped
    rw [htr]
    simp only [hm, h2, Bool.and_true, if_true, hn]
    refine firstUnmappedNone s ctx hr nd w n (va + 1) (by omega) ?_
    rw [List.all_map] at h3
    rw [List.all_eq_true] at h3 ⊢
    intro x hx
    have := h3 x hx
    simp only [Function.comp_apply, Nat.succ_eq_add_one] at this
    rwa [show va + (x + 1) = va + 1 + x by omega] at this
def taskH : State := { machP [] with flights := [(0, { probeFlight with tlots := 1 })] }
theorem wit_BarriersQuotasAndPosts_posts : let s := taskH
    let f := viewX { fx with a := 2, d := 6 }
    s.pending (band0 s) 1 = none ∧ ((band0 s).readOpnd 0 0 f.a 64 1).toOption = some 0x1000 ∧ 0x1000 % 64 = 0 ∧ firstFail (s.coreRanges 0) { x := true, w := true } 0x1000 64 = none ∧
    (band0 s).roomFor .st = true ∧ (band0 s).roomFor .ld = true ∧ s.poolTaken 0 < 4096 ∧ s.firstUnmapped (s.bandCtx (band0 s)) 0x1000 needX false 64 = none ∧
    s.vaRead (s.bandCtx (band0 s)) 0x1000 64 needX = some 0 ∧ taskBad 0 1 = false ∧ taskBad 0 0 = true ∧
    ((posted0 1 (some 5)).pending (band0 s) 1).map (fun p => p.2.reply) = some (some 5) ∧ Fits s (band0 s) f 64 0 0 [6] ∧ (band0 s).groups = [] ∧
    (band0 s).destPending f (.regs 1) [0, 1] = false :=
  ⟨by decide, by decide, by decide, by decide, by decide, by decide, by decide, firstUnmappedNone _ _ rfl _ _ _ _ (by decide) (by decide),
    (vaReadIs _ _ rfl (by decide) _ _ _ (by decide)).trans (by decide), by decide, by decide, by decide, by unfold Fits; decide, by decide, by decide⟩
theorem test_posts : let f := { fx with a := 2, d := 6 }
    v (after (exec (.pncmd f) (posted0 1 (some 5)))) 6 1 = some 5 := by decide



/-! ### Tasks, teams and rotation -/

/-- A flight of one team and two task lots, its band of 8 registers, no scratchpad, on the image that core 0 holds. -/
def flightT (f : Flight → Flight := id) : Flight :=
  f { probeFlight with tlots := 2, kinit := List.replicate 64 0, regs := 8, scratch := 0 }
/-- A task record at 0x1000: FLAGS, SCNT 0x2000 and SREC 0x2040; its entry is word 0 of overlay 0. -/
def recT (flags : Nat) : Nat := flags * 2 ^ 32 + 0x2000 * 2 ^ 256 + 0x2040 * 2 ^ 320
def taskS (m : Memory) (f : Flight → Flight := id) (c : Cluster → Cluster := id) : State :=
  let s := machP m
  { s with flights := [(0, flightT f)], clusters := [(0, c {})], cores := Tbl.put s.cores 0 { s.core 0 with image := some (flightT f).image }, dies := [(0, { cycle := 65536 })] }
/-- A pool entry is dispatchable where a core of its cluster has room (R353). -/
theorem dispatchOf (s : State) (cl c : Nat) (e : PoolEntry) (f : Flight) (hf : s.flight? e.flight = some f) (hr : ∃ k base, s.roomAt (taskWant f e cl) c = some ([k], base))
    (h : c ∈ clusterCores cl ∧ (!f.killed && (match s.ctx? f.ctx with | some c => !c.switchedOut && c.cstate ≠ 3 | none => false) && (s.flightClusters f).contains cl
      && !(s.freeLots cl e.flight f).isEmpty) = true) : s.dispatchable cl e = true := by
  obtain ⟨k, base, hroom⟩ := hr
  have hmem : c ∈ s.taskCores f e cl := by
    unfold State.taskCores
    rw [List.mem_filter]
    exact ⟨h.1, by rw [hroom]; rfl⟩
  have hne : (s.taskCores f e cl).isEmpty = false := by
    cases hx : s.taskCores f e cl with
    | nil => rw [hx] at hmem; cases hmem
    | cons a r => rfl
  unfold State.dispatchable
  rw [hf]
  show (!f.killed && (match s.ctx? f.ctx with | some c => !c.switchedOut && c.cstate ≠ 3 | none => false) && (s.flightClusters f).contains cl
      && !(s.freeLots cl e.flight f).isEmpty && !(s.taskCores f e cl).isEmpty) = true
  rw [hne, h.2]; rfl
def pe (flags : Nat) : PoolEntry := { record := recT flags, addr := 0x1000, flight := 0, seq := 0, ctx := 0, bin := 0 }
/-- The pool holds one entry of bin 0, in a turn of so many dispatches. -/
def poolS (turn : Nat) : State := taskS [] id fun c => { c with pool := [pe 0], turn := turn }
theorem dispatchable0 : (poolS 0).dispatchable 0 (pe 0) = true :=
  dispatchOf _ 0 0 _ flightT rfl (State.roomAt_one (poolS 0) (taskWant flightT (pe 0) 0) 0 8 rfl (by decide)) (by decide)
/-- A plain write of firmware or a unit to one naturally aligned piece of page 0. -/
theorem vaPutOne (s : State) (ctx va n x : Nat) (hr : s.ctxRanges ctx = [all]) (ht : Tbl.find? (Tbl.get s.tlbs agentIO []) 0 = some 0)
    (h : 0 < n ∧ va + n ≤ 65536 ∧ splitUnits va n = [(0, n)]) :
    s.vaPut ctx va n x = (({ s with mem := Memory.writeAt s.mem (placePA va) ((bytesOf (x % 2 ^ (8 * n)) n).zipIdx.map fun p => (p.2, p.1)) } : State).clearPoison va
      ((bytesOf (x % 2 ^ (8 * n)) n).zipIdx.map fun p => (p.2, p.1)) |>.invalidate va none).watchGlobal va := by
  have hlt : va < 2 ^ 51 := by omega
  have htr : Machine.translate [all] needW va = some va := translateAll needW va (by omega)
  have hp : s.portPA agentIO va true = some va := portIs s agentIO va va true ⟨hlt, by
    have h0 : pageOf va = 0 := by unfold pageOf; omega
    rw [h0, ht]; simp; omega⟩
  have hff := firstFailAll needW n va (by omega)
  have hm : (va + 0) % 2 ^ 64 = va := by omega
  unfold State.vaPut State.vaWrite
  rw [hr, hff, h.2.2]
  simp only [Option.isSome_none, Bool.false_eq_true, if_false, State.vaUnits, hr, hm, htr, hp, Option.getD_some, Nat.mul_zero, Nat.pow_zero, Nat.div_one]
  simp [State.agentWrite, State.sliceWrite, inWindow_of_lt va hlt, isHost_of_lt va hlt]
/-- A post that may be taken: its pool has room, the pages of its record are mapped, and its record is read whole. -/
def PostReady (s : State) (p : Post) : Prop :=
  Tbl.find? s.posts 9 = some p ∧ p.reply = none ∧ p.target = 0 ∧ (s.cluster 0).pool.length < 4096 ∧ s.firstUnmapped p.ctx p.addr needX false 64 = none ∧
    s.firstUnmapped p.ctx (p.addr + 56) needW true 8 = none ∧ s.vaRead p.ctx p.addr 64 needX = some (s.mem.read 0x1000 64)
def postS (kind : Nat) : State := { taskS (Memory.write [] 0x1000 64 (recT 0)) with posts := [(9, post0 kind none)] }
theorem wit_TasksTeamsAndRotation_post : PostReady (postS 0) (post0 0 none) ∧ taskBad (recT 0) 2 = false ∧ taskBad (recT 0) 0 = true :=
  ⟨⟨rfl, rfl, rfl, by decide, firstUnmappedNone _ _ rfl _ _ _ _ (by decide) (by decide), firstUnmappedNone _ _ rfl _ _ _ _ (by decide) (by decide),
    vaReadIs _ _ rfl rfl _ _ _ (by decide)⟩, by decide, by decide⟩
theorem wit_TasksTeamsAndRotation_successor : PostReady (postS 2) (post0 2 none) :=
  ⟨rfl, rfl, rfl, by decide, firstUnmappedNone _ _ rfl _ _ _ _ (by decide) (by decide), firstUnmappedNone _ _ rfl _ _ _ _ (by decide) (by decide), vaReadIs _ _ rfl rfl _ _ _ (by decide)⟩
theorem wit_TasksTeamsAndRotation_dispatch : let s := poolS 0
    s.dispatchBin 0 = some (0, false) ∧ ((s.cluster 0).pool.find? fun e => decide (e.bin = 0) && s.dispatchable 0 e) = some (pe 0) ∧ (s.cluster 0).disabled = false ∧
    (clusterCores 0).any s.coreWorks = true ∧ (s.cluster 0).lastDispatch + 16 ≤ (s.die (clusterDie 0)).cycle ∧ s.flight? 0 = some flightT ∧
    s.firstUnmapped 0 (0x1000 + 56) needW true 4 = none ∧ flightT.kinit.length = 64 := by
  intro s
  have h : s.dispatchable 0 (pe 0) = true := dispatchable0
  refine ⟨?_, ?_, by decide, by decide, by decide, by decide, firstUnmappedNone _ _ rfl _ _ _ _ (by decide) (by decide), by decide⟩
  · have hp : (s.cluster 0).pool = [pe 0] := rfl
    have hb : (s.cluster 0).bin = 0 ∧ (s.cluster 0).turn = 0 := by decide
    simp [State.dispatchBin, hp, hb.1, hb.2, h]; rfl
  · have hp : (s.cluster 0).pool = [pe 0] := rfl
    simp [hp, pe]; exact h
/-- An ended task band, its release made, and its lot with the record's flags. -/
def endedT (flags : Nat) : State :=
  let s := withB (taskS (Memory.write [] 0x2000 4 1)) fun b => { b with threads := List.replicate 16 { state := .exited }, task := some (0, 0), team := 0x80000000, rels := [{ depth := 256, pc := 0, phase := 1, wait := [] }] }
  { s with clusters := [(0, { lots := [{ flight := 0, lot := 0, ctx := 0, addr := 0x1000, record := recT flags }] })] }
theorem wit_TasksTeamsAndRotation_ended : ∀ flags ∈ [0, 1], let s := endedT flags
    (band0 s).task = some (0, 0) ∧ (band0 s).allExited = true ∧ (band0 s).succ = none ∧ (band0 s).fault = none ∧
    s.lotOf 0 0 0 = some { flight := 0, lot := 0, ctx := 0, addr := 0x1000, record := recT flags } ∧ (s.endRelease 0 (band0 s)).2 = true ∧ taskSucc (recT flags) = (flags == 1) := by decide
theorem wit_TasksTeamsAndRotation_counter : let s0 := ((endedT 1).endRelease 0 (band0 (endedT 1))).1.leaveSlot 0 (band0 (endedT 1))
    let s1 := s0.taskWrite 0 0 (0x1000 + 56) 4 3
    s0.firstUnmapped 0 (0x1000 + 56) needW true 4 = none ∧ firstFail (s1.ctxRanges 0) needXWA (taskScnt (recT 1)) 4 = none ∧
    s1.firstUnmapped 0 (taskScnt (recT 1)) needXWA true 4 = none ∧ signed ((s1.vaRead 0 (taskScnt (recT 1)) 4 needXWA).getD 0) 32 = 1 ∧ (s1.flight? 0).map (·.killed) = some false := by
  intro s0 s1
  have h : s1 = s0.vaPut 0 (0x1000 + 56) 4 3 := by
    have hf := firstFailAll needW 4 (0x1000 + 56) (by decide)
    show s0.taskWrite 0 0 (0x1000 + 56) 4 3 = _
    unfold State.taskWrite
    rw [show s0.ctxRanges 0 = [all] from rfl, hf]
  rw [vaPutOne s0 0 _ 4 3 rfl rfl (by decide)] at h
  rw [h]
  exact ⟨firstUnmappedNone _ _ rfl _ _ _ _ (by decide) (by decide), firstFailAll _ _ _ (by decide), firstUnmappedNone _ _ rfl _ _ _ _ (by decide) (by decide),
    by rw [vaReadIs _ _ rfl rfl _ _ _ (by decide)]; decide, by decide⟩
/-- Two teams of one band, the second not started yet: runnable since step 5, with a save area of 1 MiB; the first is a rotation candidate. -/
def rotF (f : Flight → Flight := id) : Flight := f (flightT fun x => { x with
  teams := 2, starve := 4096, members := [(0, { place := .resident 0 false 0, teamb := 1, candidate := some 7 }), (1, { place := .notStarted, teamb := 1, runsince := some 5 })] })
def rotS (f : Flight → Flight := id) : State := { taskS [] fun _ => rotF f with ctxs := [(0, { ranges := [all], csasize := 2 ^ 20 })] }
def run1 : Runner := { flight := 0, team := 1, since := 5, cpri := 0 }
def spawn0 : Spawn := { tidx := 3, rndctr := 0, ovid := 0, off := 1, areg := 0, depth := 0, lmask := 0, flight := 0, live := 0, vals := [], since := 0 }
theorem wit_TasksTeamsAndRotation_spawn : let s := taskS [] id fun c => { c with spawns := [spawn0] }
    (s.cluster 0).spawns[0]? = some spawn0 ∧ s.flight? 0 = some flightT ∧ spawn0.since + 8192 ≤ (s.die 0).cycle := by decide
theorem wit_TasksTeamsAndRotation_loop : let s := withT (rotS id) fun j t => if j = 1 then { t with state := .onWatch, park := .loop 0 } else t
    (band0 s).threads.length = 16 ∧ ((band0 s).thread 1).state = .onWatch ∧ ((band0 s).thread 1).park = .loop 0 ∧ (band0 s).tracker.untabled = [] ∧ 0 + 65536 ≤ s.cycleAt 0 := by decide
theorem wit_TasksTeamsAndRotation_next : let s := rotS id
    s.nextTeam 0 = some run1 ∧ s.considers 0 0 (rotF id) = true ∧ (s.runnerTeam run1).map (·.2) = some { place := .notStarted, teamb := 1, runsince := some 5 } ∧
    s.holdsTeam 0 (rotF id) { place := .notStarted, teamb := 1, runsince := some 5 } = true ∧ s.savingFor run1 = false ∧ (rotF fun f => { f with rlim := 1 }).belowLimit = false ∧
    (rotF id).belowLimit = true := by decide
def full (f : Flight) : Flight := { f with rlim := 1 }
def t1 : Team := { place := .notStarted, teamb := 1, runsince := some 5 }
theorem fullRoom : (rotS full).roomOf 0 0 0 ((rotS full).wantOf (rotF full) t1) = true := by
  obtain ⟨k, base, h⟩ := State.roomAt_one ((rotS full).without 0 0) ((rotS full).wantOf (rotF full) t1) 0 8 (by decide) (by decide)
  unfold State.roomOf
  rw [List.any_eq_true]
  exact ⟨0, by decide, by rw [h]; rfl⟩
/-- A record of the first team has room in the save area. -/
theorem saveRoom (f : Flight → Flight) (size : Nat)
    (h : (decide (size = 0) || !(freeGaps size (2 ^ 20 - 2304 * 96) ([].map fun r : Nat × Nat => (r.1 - (0 + 2304 * 96), r.2))).isEmpty) = true) : (rotS f).recordRoom 0 size ≠ none := by
  have hs := (rotS f).recordRoom_isSome 0 size { ranges := [all], csasize := 2 ^ 20 } rfl
  rw [h] at hs
  intro hn
  rw [hn] at hs; cases hs
/-- At the team limit the candidate of the flight itself is saved; and with no candidate none. -/
theorem wit_TasksTeamsAndRotation_evicts : let s := rotS full
    s.nextTeam 0 = some run1 ∧ (rotF full).belowLimit = false ∧ s.evictee 0 run1 (s.wantOf (rotF full) t1) (!(rotF full).belowLimit) = some (0, 0) ∧
    (Tbl.find? (rotF full).members 0).map (fun t => (t.place, t.saving)) = some (.resident 0 false 0, 0) ∧ (∃ k ∈ s.teamKeys 0 0, ∃ b, s.band? k = some b ∧ b.allExited = false) ∧
    s.recordRoom 0 (recordBytes (s.bandsForSave (rotF full) 0 0 1) 0) ≠ none ∧
    let u := rotS fun f => full { f with members := f.members.map fun p => (p.1, { p.2 with candidate := none }) }
    u.nextTeam 0 = some run1 ∧ u.evictee 0 run1 (u.wantOf (rotF full) t1) true = none := by
  intro s
  refine ⟨by decide, by decide, ?_, by decide, ⟨0, by decide, band0 s, by decide⟩, saveRoom full _ (by decide), by decide, by decide⟩
  have hr : s.residentTeams = [(0, 0, 0, { place := .resident 0 false 0, teamb := 1, candidate := some 7 })] := by decide
  have hf : (rotF full).belowLimit = false := by decide
  have hd : coreDie 0 = 0 := by decide
  unfold State.evictee
  simp [hr, hf, hd, fullRoom, run1, s, minBy]
/-- A die other than the home die asks for the runnable team. -/
theorem wit_TasksTeamsAndRotation_home : let s := rotS id
    s.considers 1 0 (rotF id) = true ∧ s.homeDie (rotF id) ≠ 1 ∧ (∀ p ∈ (rotF id).members, p.2.granted ≠ some 1 ∨ p.2.runnable = false) ∧
    Runner.first ((s.runners 1 0 (rotF id)).filter fun r => (Tbl.find? (rotF id).members r.team).any fun t => t.granted.isNone) = some run1 := by decide
/-- A team whose bands are stopped and whose release is made: its record has room. -/
def savingF (f : Flight) : Flight := { f with members := [(0, { place := .resident 0 false 0, teamb := 1, saving := 2 })] }
def saveS : State := withB (rotS savingF) fun b => { b with stop := some (1, 0) }
theorem wit_TasksTeamsAndRotation_save : ∃ a, let s := saveS
    s.flight? 0 = some (rotF savingF) ∧ (Tbl.find? (rotF savingF).members 0).map (fun t => (t.place, t.saving, t.stops, t.saveWait)) = some (.resident 0 false 0, 2, [], []) ∧
    Tbl.wf s.bands = true ∧ (∀ k ∈ s.teamKeys 0 0, ∀ b, s.band? k = some b → b.stopped = true ∧ ∀ m, b.stop ≠ some (2, m)) ∧ (∀ q ∈ s.cores, q.2.sidelog = []) ∧
    s.recordRoom 0 (recordBytes (s.bandsForSave (rotF savingF) 0 0 1) 0) = some a := by
  have h : saveS.recordRoom 0 (recordBytes (saveS.bandsForSave (rotF savingF) 0 0 1) 0) ≠ none := saveRoom savingF _ (by decide)
  cases hr : saveS.recordRoom 0 (recordBytes (saveS.bandsForSave (rotF savingF) 0 0 1) 0) with
  | none => exact absurd hr h
  | some a =>
    refine ⟨a, by decide, by decide, by decide, ?_, by decide, hr⟩
    intro k hk b hb
    have hk0 : k = 0 := by
      have : saveS.teamKeys 0 0 = [0] := by decide
      rw [this] at hk; simpa using hk
    subst hk0
    have hb0 : saveS.band? 0 = some (band0 saveS) := by decide
    rw [hb0] at hb
    cases hb
    exact ⟨by decide, fun m hm => by cases hm⟩
/-- A team that has not started finds a seat on core 0, whose overlays stand there. -/
theorem wit_TasksTeamsAndRotation_restore : ∃ k base, let s := rotS id
    let w := s.wantOf (rotF id) t1
    s.nextTeam (clusterDie (siteCluster 0)) = some run1 ∧ s.holdsTeam 0 (rotF id) t1 = true ∧ (rotF id).belowLimit = true ∧ Tbl.find? (rotF id).members 1 = some t1 ∧
    s.roomAt w 0 = some ([k], base) ∧ s.loadWaits (rotF id) w (siteCores 0) = none ∧ s.enterCores (rotF id) w (siteCores 0) = some s ∧ [k].Nodup := by
  obtain ⟨k, base, h⟩ := State.roomAt_one (rotS id) ((rotS id).wantOf (rotF id) t1) 0 8 (by decide) (by decide)
  refine ⟨k, base, by decide, by decide, by decide, by decide, h, ?_, ?_, List.nodup_cons.mpr ⟨by simp, List.nodup_nil⟩⟩
  · have hl : (rotS id).loadsCores (siteCores 0) ((rotS id).wantOf (rotF id) t1) = false := by decide
    unfold State.loadWaits; rw [hl]; rfl
  · have hl : (rotS id).loadsCores (siteCores 0) ((rotS id).wantOf (rotF id) t1) = false := by decide
    unfold State.enterCores; rw [hl]; rfl
theorem wit_TasksTeamsAndRotation_starved : let s := rotS id
    (s.die 0).lastCheck + 1024 ≤ (s.die 0).cycle ∧ s.flights = [(0, rotF id)] ∧ s.homeDie (rotF id) = 0 ∧ (rotF id).killed = false ∧ (rotF id).gang = none ∧ (rotF id).preempted = false ∧
    (rotF id).anyRunnable = true ∧ (rotF id).clockStart + (rotF id).starve ≤ (s.die 0).cycle ∧ s.residentTeams.length = 1 ∧ s.recordRoom 0 (recordBytes (s.bandsForSave (rotF id) 0 0 1) 0) ≠ none :=
  ⟨by decide, by decide, by decide, by decide, by decide, by decide, by decide, by decide, by decide, saveRoom id _ (by decide)⟩


/-! ### Queues, launches and gangs -/

/-- What a unit reads of the range `all`, without the window and the host half, which it does not reach. -/
def vaC (s : State) : Nat → Nat → Need → Option Nat
  | _, 0, _ => some 0
  | va, n + 1, nd => match Machine.translate [all] nd va with
    | none => none
    | some ia => match (match (Tbl.find? (Tbl.get s.tlbs agentIO []) (pageOf ia)).map fun f => f + ia % 65536 with
      | some pa => some pa
      | none => match s.walk ia with | .frame f => some (f + ia % 65536) | _ => none) with
      | none => none
      | some pa => (vaC s (va + 1) n nd).map fun r => s.mem.read (placePA pa) 1 + 256 * r
def fuC (s : State) : Nat → Need → Nat → Option Nat
  | _, _, 0 => none
  | va, nd, n + 1 => match Machine.translate [all] nd va with
    | some ia => if (match s.walk ia with | .frame _ => true | _ => false) && !s.shootAny ia 0 then fuC s ((va + 1) % 2 ^ 64) nd n else some ia
    | none => fuC s ((va + 1) % 2 ^ 64) nd n
theorem all_lt (nd : Need) (va ia : Nat) (h : Machine.translate [all] nd va = some ia) : ia < 2 ^ 51 := by
  by_cases hle : va ≤ 2 ^ 40
  · rw [translateAll nd va hle] at h; cases h; omega
  · have h40 : ¬ va ≤ 1099511627776 := by omega
    simp [Machine.translate, rangeOf, all, h40] at h
theorem vaFun (s : State) (hr : s.ctxRanges 0 = [all]) : s.vaRead 0 = vaC s := by
  funext va n nd
  induction n generalizing va with
  | zero => rfl
  | succ n ih =>
    unfold State.vaRead vaC
    rw [hr]
    cases ht : Machine.translate [all] nd va with
    | none => rfl
    | some ia =>
      have hlt := all_lt nd va ia ht
      show (match s.portPA agentIO ia false with | none => none | some pa => (s.vaRead 0 (va + 1) n nd).map fun r => s.agentRead ia pa 1 + 256 * r) = _
      rw [s.portPA_of_lt agentIO ia false hlt, ih (va + 1)]
      have hag : ∀ pa, s.agentRead ia pa 1 = s.mem.read (placePA pa) 1 := by
        intro pa; simp [State.agentRead, isHost_of_lt ia hlt]
      first
        | (simp only [hag]; done)
        | (simp only [hag]
           cases (Tbl.find? (Tbl.get s.tlbs agentIO []) (pageOf ia)).map fun f => f + ia % 65536 with
           | some pa => rfl
           | none => cases s.walk ia <;> rfl)
theorem fuFun (s : State) (w : Bool) (hr : s.ctxRanges 0 = [all]) : ∀ (n va : Nat) (nd : Need), s.firstUnmapped 0 va nd w n = fuC s va nd n := by
  intro n
  induction n with
  | zero => intro va nd; rfl
  | succ n ih =>
    intro va nd
    unfold State.firstUnmapped fuC
    rw [hr]
    cases ht : Machine.translate [all] nd va with
    | none => exact ih _ _
    | some ia =>
      show (if s.mapped ia w && !s.shootAny ia 0 then s.firstUnmapped 0 ((va + 1) % 2 ^ 64) nd w n else some ia) = _
      rw [s.mapped_of_lt ia w (all_lt nd va ia ht), ih] <;> (cases hw : s.walk ia <;> simp [hw])
/-- An image at 0x4000: its header, a CODE section of one word of overlay 0, and KERN of kernel 0 for bands of 16 and 8 registers (R102 to R104). -/
def image : Memory → Memory := fun m =>
  let m1 := m.write 0x4000 32 (0x01494F52 + 2 ^ 32 + 2 * 2 ^ 48 + 32 * 2 ^ 64 + 256 * 2 ^ 128)
  let m2 := m1.write 0x4020 32 (1 + 2 ^ 96 + 128 * 2 ^ 128 + 4 * 2 ^ 192)
  let m3 := m2.write 0x4040 32 (3 + 192 * 2 ^ 128 + 64 * 2 ^ 192)
  m3.write 0x40C0 64 (16 * 2 ^ 96 + 255 * 2 ^ 112 + 8 * 2 ^ 128 + 2 ^ 256)
def kern0 : Kern := { entov := 0, entwd := 0, bandw := 16, kregs := 0, datak := 255, regs := 8, scratch := 0, novl := 1, nsafe := 0, codes := [(0, 0x4080, 1)], vmasks := [] }
/-- A LAUNCH packet of kernel 0: one team of one band, SIGADDR 0x2000, SIGVAL 7, XREC at 0x2040, SCOPE 5. -/
def launchP : Nat := 1 + 5 * 2 ^ 10 + 0x4000 * 2 ^ 64 + (16 + 256 + 65536) * 2 ^ 144 + 8 * 2 ^ 192 + 0x2000 * 2 ^ 320 + 7 * 2 ^ 384 + 0x2040 * 2 ^ 448
/-- Queue 5 at its first slot, ACTIVE in worker slot 0, with NIDX 3. -/
def q5 : Queue := { primary := { state := 2, qslot := 0, nidx := 3, rseg := 0x3000, qhdr := 0x2080 }, segments := [(0x3000, 0)] }
/-- The machine with that queue, and a packet in its first slot, whose header it has read. -/
def queueS (p : Nat) (f : Queue → Queue := id) : State :=
  let s := machP (image (Memory.write [] 0x3000 64 p))
  { s with flights := [], bands := [], queues := [(5, f q5)], nextFlight := 40, nextId := 30, fresh := 2, cores := [(0, { ranges := some (0, [all]) })], clusters := [] }
def read0 (h : Nat) (q : Queue) : Queue := { q with header := some h }
/-- Notifies of a queue that is ACTIVE, DISABLED or HALTED at its packet 2; a queue that waits for a slot; one that holds a slot with nothing to do. -/
theorem wit_QueuesAndLaunches_notify : let s := queueS 0
    Tbl.find? s.queues 5 = some q5 ∧ q5.primary.state ≠ 0 ∧ ({} : Queue).primary.state = 0 ∧ let h : Qcb := { state := 3, ridx := 3, hidx := 2 }
    h.state = 3 ∧ 1 ≤ h.ridx ∧ h.hidx = (h.ridx - 1) % 2 ^ 32 ∧ (1 ≤ (5 + 2 ^ 32 - q5.primary.nidx) % 2 ^ 32 ∧ (5 + 2 ^ 32 - q5.primary.nidx) % 2 ^ 32 < 2 ^ 31) := by decide
def pend5 (q : Queue) : Queue := { q with primary := { q.primary with state := 1, qslot := 0xFFFFFFFF }, pending := some 1 }
theorem wit_QueuesAndLaunches_slots : let s := queueS 0 pend5
    s.frozen = false ∧ Tbl.wf s.queues = true ∧ (∀ r ∈ s.queues, r.1 < 1024) ∧ (pend5 q5).primary.seq % 2 = 0 ∧ (pend5 q5).primary.state = 1 ∧ (pend5 q5).pending = some 1 ∧
    (∀ r ∈ s.queues, ¬ (r.2.primary.state = 2 ∧ r.2.primary.qslot = 0)) ∧
    let y : Queue := { primary := { state := 2, qslot := 0 } }
    y.primary.ahead = 0 ∧ y.primary.seq % 2 = 0 ∧ y.header = none ∧ y.slotSince + 2 ^ 16 ≤ 2 ^ 16 := by decide
def flAcc : Acc := { acc0 .load 0 (windowBase + 0xF000) with size := 8 }
def flMsg (b : Body) : Msg := { id := 12, src := 0, dst := agentIO, lane := 0, delivered := true, body := b }
def flS (b : Body) : State := { queueS 0 with msgs := [flMsg b], iq := [flAcc] }
theorem wit_QueuesAndLaunches_flpop : let b := Body.read 9 (windowBase + 0xF000) (windowBase + 0xF000) 1
    ((flS b).msgs.find? fun m => m.id = 12) = some (flMsg b) ∧ (flMsg b).onList = true ∧ (flS b).mayPerform (flMsg b) = true ∧ (flS b).acc? 9 = some flAcc ∧ flAcc.kind = .load ∧
    flAcc.addr = windowBase + 0xF000 ∧ flAcc.size = 8 := ⟨rfl, by simp [Msg.onList, listLine, flMsg], rfl, rfl, rfl, rfl, rfl⟩
theorem wit_QueuesAndLaunches_flpush : let b := Body.write (windowBase + 0xF000) 0 ((List.range 8).map fun i => (8 + i, BitVec.ofNat 8 (0x3000 / 2 ^ (8 * i)))) 8 0 0 0
    ((flS b).msgs.find? fun m => m.id = 12) = some (flMsg b) ∧ (flMsg b).onList = true ∧ (flS b).mayPerform (flMsg b) = true ∧
    ∀ i < 8, Tbl.find? ((List.range 8).map fun i => (8 + i, BitVec.ofNat 8 (0x3000 / 2 ^ (8 * i)))) (8 + i) = some (BitVec.ofNat 8 (0x3000 / 2 ^ (8 * i))) :=
  ⟨rfl, by simp [Msg.onList, listLine, flMsg], rfl, by decide⟩
/-- Headers: a NOP, an empty slot, a packet that had been acted on, and a type that there is none of. -/
theorem headIs (p : Nat) (f : Queue → Queue) (h : (queueS p f).mem.read 0x3000 8 = p % 2 ^ 64) : (queueS p f).vaRead 0 0x3000 8 needX = some (p % 2 ^ 64) := by
  rw [vaReadIs _ _ rfl rfl _ _ _ (by decide), h]
theorem wit_QueuesAndLaunches_header : ∀ p ∈ [0, 0xFF, 0x10000, 9], let s := queueS p
    s.vaRead 0 0x3000 8 needX = some p ∧ s.firstUnmapped 0 0x3000 needX false 64 = none ∧ q5.primary.ahead ≠ 0 ∧ s.returnable 5 q5 = [] ∧ q5.slotAddr = 0x3000 ∧ q5.atLink = false ∧
    q5.header = none ∧ q5.emptyAt = none ∧ q5.primary.seq % 2 = 0 ∧ s.frozen = false ∧ (1 ≤ bits 0x10000 23 16 ∧ bits 0x10000 23 16 ≤ 7) := by
  intro p hp
  simp only [List.mem_cons, List.not_mem_nil, or_false] at hp
  rcases hp with rfl | rfl | rfl | rfl <;>
    exact ⟨headIs _ id (by decide), firstUnmappedNone _ _ rfl _ _ _ _ (by decide) (by decide), by decide, by decide, by decide, by decide, by decide, by decide, by decide, by decide, by decide⟩
/-- A packet as the queue reads it. -/
theorem packetIs (p : Nat) (f : Queue → Queue) (h : (queueS p f).mem.read 0x3000 64 = p) : (queueS p f).packetAt 0 0x3000 = p := by
  unfold State.packetAt
  rw [vaReadIs _ _ rfl rfl _ _ _ (by decide), h]; rfl
/-- NOP, LINK, SIGNAL (store and add), DEPEND on one word at 0x2000, and a NOP with a byte set that must be zero. -/
def linkP : Nat := 5 + 0x6000 * 2 ^ 64
def signalP (add : Nat) : Nat := 4 + 5 * 2 ^ 10 + 0x2000 * 2 ^ 64 + 9 * 2 ^ 128 + add * 2 ^ 192
def dependP : Nat := 3 + 5 * 2 ^ 10 + 0x2000 * 2 ^ 64 + 2 ^ 448
theorem wit_QueuesAndLaunches_packets : ∀ p ∈ [0, linkP, signalP 0, signalP 1, dependP], let s := queueS p (read0 (p % 2 ^ 64))
    s.packetAt 0 0x3000 = p ∧ packetBad p = none ∧ s.queueBusy 5 = false ∧ packetBad (2 ^ 64) = some 8 := by
  intro p hp
  simp only [List.mem_cons, List.not_mem_nil, or_false] at hp
  rcases hp with rfl | rfl | rfl | rfl | rfl <;> exact ⟨packetIs _ (read0 _) (by decide), by decide, by decide, by decide⟩
theorem wit_QueuesAndLaunches_at : let s := queueS dependP
    s.firstUnmapped 0 0x2000 needX false 8 = none ∧ s.vaRead 0 0x2000 8 needX = some 0 ∧ (Machine.translate (s.ctxRanges 0) needW 0x3002 = some 0x3002) ∧ isHost 0x3002 = false ∧
    s.cached agentIO 0x3002 true = some 0x3002 ∧ s.firstUnmapped 0 (q5.primary.qhdr + 8) needW true 8 = none :=
  ⟨firstUnmappedNone _ _ rfl _ _ _ _ (by decide) (by decide), by rw [vaReadIs _ _ rfl rfl _ _ _ (by decide)]; decide, by decide, by decide, cachedIs _ _ _ _ _ (by decide),
   firstUnmappedNone _ _ rfl _ _ _ _ (by decide) (by decide)⟩
/-! A GANG of one part, its LAUNCH, a LAUNCH whose REGS is below its kernel's, and a GANG with such a part, in four slots of queue 5; a band of the same image
stands on core 0, and a flight there may have the weight store. -/
def badP : Nat := launchP - 4 * 2 ^ 192
def gangP : Nat := 2 + 5 * 2 ^ 10 + 2 ^ 64
def fourM : Memory := (((Memory.write [] 0x3000 64 gangP).write 0x3040 64 launchP).write 0x3080 64 gangP).write 0x30C0 64 badP
def fourQ (r h : Nat) : Queue := { q5 with primary := { q5.primary with ridx := r, nidx := 9 }, header := some (h % 2 ^ 64) }
def fourS (r h : Nat) (g : Flight → Flight := id) : State :=
  { queueS 0 with mem := tables (image fourM), queues := [(5, fourQ r h)], flights := [(0, flightT g)], bands := (taskS []).bands, clusters := [(0, {})],
                  cores := Tbl.put (taskS []).cores 0 { (taskS []).core 0 with image := some (0x4000, 0) } }
def four0 : State := fourS 0 0
theorem vaC_eq (s t : State) (hm : s.mem = t.mem) (ht : s.tlbs = t.tlbs) (hw : s.walk = t.walk) : vaC s = vaC t := by
  funext va n nd
  induction n generalizing va with
  | zero => rfl
  | succ n ih => simp only [vaC, hm, ht, hw, ih]
theorem fuC_eq (s t : State) (hw : s.walk = t.walk) (hs : s.shootAny = t.shootAny) : fuC s = fuC t := by
  funext va nd n
  induction n generalizing va with
  | zero => rfl
  | succ n ih => simp only [fuC, hw, hs, ih]
/-- What those slots read as, the kernel that they launch, and that nothing is waited for. -/
theorem fourRead (r h : Nat) (g : Flight → Flight) (a n : Nat) (ha : a + n ≤ 65536) (nd : Need) : (fourS r h g).vaRead 0 a n nd = some ((tables (image fourM)).read a n) :=
  vaReadIs _ _ rfl rfl _ _ _ ha
theorem fourPackets (r h : Nat) (g : Flight → Flight) : (fourS r h g).packetAt 0 0x3000 = gangP ∧ (fourS r h g).packetAt 0 0x3040 = launchP ∧
    (fourS r h g).packetAt 0 0x3080 = gangP ∧ (fourS r h g).packetAt 0 0x30C0 = badP := by
  unfold State.packetAt
  repeat rw [fourRead _ _ _ _ _ (by decide)]
  decide
theorem fourKernel (r h : Nat) (g : Flight → Flight) : (fourS r h g).kernel 0 0x4000 0 = some kern0 := by
  unfold State.kernel State.safesOf
  rw [vaFun (fourS r h g) rfl, vaC_eq (fourS r h g) four0 rfl rfl rfl]
  decide
/-- A walk for an address of page 0 is the walk for address 0. -/
theorem walkPage0 (m : Memory) (va : Nat) (h : va < 65536) : ∀ n t l, walkFrom m va n t l = walkFrom m 0 n t l := by
  have hb (hi lo : Nat) (hl : 16 ≤ lo) : bits va hi lo = bits 0 hi lo := by
    have : va / 2 ^ lo = 0 := Nat.div_eq_of_lt (Nat.lt_of_lt_of_le h (Nat.pow_le_pow_right (by decide) hl : 2 ^ 16 ≤ 2 ^ lo))
    simp [bits, this]
  have hw (t l : Nat) : walkLevel m t va l = walkLevel m t 0 l := by
    unfold walkLevel
    rw [hb 50 39 (by decide), hb 38 30 (by decide), hb 29 21 (by decide), hb 20 16 (by decide)]
  intro n
  induction n with
  | zero => intro t l; rfl
  | succ n ih => intro t l; simp only [walkFrom, hw, ih]
theorem unmappedPage0 (s : State) (ctx : Nat) (hr : s.ctxRanges ctx = [all]) (hs : s.shoots = []) (hw : s.walk 0 = .frame 0) (nd : Need) (w : Bool)
    (n va : Nat) (h : va + n ≤ 65536) : s.firstUnmapped ctx va nd w n = none := by
  refine firstUnmappedNone s ctx hr nd w n va h ?_
  rw [List.all_eq_true]
  intro i hi
  rw [List.mem_range] at hi
  have hv : s.walk (va + i) = s.walk 0 := walkPage0 _ _ (by omega) _ _ _
  simp only [hv, hw, State.shootAny, hs]; rfl
theorem fourWalk : four0.walk 0 = .frame 0 := by decide
theorem fourFree (r h : Nat) (g : Flight → Flight) (nd : Need) (w : Bool) (a n : Nat) (ha : a + n ≤ 65536) : (fourS r h g).firstUnmapped 0 a nd w n = none :=
  unmappedPage0 (fourS r h g) 0 rfl rfl fourWalk nd w n a ha
theorem fourImage (r h : Nat) (g : Flight → Flight) : (fourS r h g).imageWaits 0 0x4000 = none := by
  have v := fourRead r h g
  have m0 : (tables (image fourM)).read 0x4000 32 = 0x01494F52 + 2 ^ 32 + 2 * 2 ^ 48 + 32 * 2 ^ 64 + 256 * 2 ^ 128 := by decide
  have m1 : sectOf ((tables (image fourM)).read 0x4020 32) = sectOf (1 + 2 ^ 96 + 128 * 2 ^ 128 + 4 * 2 ^ 192) := by congr 1
  have m2 : sectOf ((tables (image fourM)).read 0x4040 32) = sectOf (3 + 192 * 2 ^ 128 + 64 * 2 ^ 192) := by congr 1
  have f (nd : Need) (a n : Nat) (ha : a + n ≤ 65536) : (fourS r h g).firstUnmapped 0 a nd false n = none := fourFree r h g nd false a n ha
  unfold State.imageWaits
  rw [f needX 0x4000 32 (by decide)]
  have b : bits (0x01494F52 + 2 ^ 32 + 2 * 2 ^ 48 + 32 * 2 ^ 64 + 256 * 2 ^ 128) 127 64 = 32 ∧ bits (0x01494F52 + 2 ^ 32 + 2 * 2 ^ 48 + 32 * 2 ^ 64 + 256 * 2 ^ 128) 63 48 = 2 := by decide
  simp only [v 0x4000 32 (by decide) needX, m0, Option.getD_some, b]
  have q : (fourS r h g).firstUnmapped 0 ((0x4000 + 32) % 2 ^ 64) needX false (32 * 2) = none := f needX 0x4020 64 (by decide)
  first | rw [q] | rw [f needX 0x4020 64 (by decide)]
  simp only [List.findSome?_eq_none_iff, List.mem_range]
  intro i hi
  obtain rfl | rfl : i = 0 ∨ i = 1 := by omega
  · rw [show (((0x4000 + 32) % 2 ^ 64 + 32 * 0) % 2 ^ 64) = 0x4020 by decide, v 0x4020 32 (by decide) needX, Option.map_some, m1]; rfl
  · rw [show (((0x4000 + 32) % 2 ^ 64 + 32 * 1) % 2 ^ 64) = 0x4040 by decide, v 0x4040 32 (by decide) needX, Option.map_some, m2]
    have e : (sectOf (3 + 192 * 2 ^ 128 + 64 * 2 ^ 192)).type = 3 ∧ (sectOf (3 + 192 * 2 ^ 128 + 64 * 2 ^ 192)).off = 192 ∧ (sectOf (3 + 192 * 2 ^ 128 + 64 * 2 ^ 192)).size = 64 := by decide
    have h64 := f needX 0x40C0 64 (by decide)
    simp only [e, show (0x4000 + 192) % 2 ^ 64 = 0x40C0 by decide, h64, ite_self]
theorem fourReady (r h : Nat) (g : Flight → Flight) (p : Nat) (hp : (launchOf p).roi = 0x4000 ∧ (launchOf p).kidx = 0 ∧ (launchOf p).kinit = 0 ∧ (launchOf p).xrec = 0x2040) :
    (fourS r h g).launchWaits 0 (launchOf p) = none := by
  unfold State.launchWaits
  simp only [hp, fourImage, fourKernel]
  rw [fourFree _ _ _ _ _ _ _ (by decide)]
  rfl
theorem fourOk (r h : Nat) (g : Flight → Flight) : (fourS r h g).checkLaunch 0 (launchOf launchP) = .ok kern0 := by
  unfold State.checkLaunch
  rw [show (launchOf launchP).roi = 0x4000 by decide, show (launchOf launchP).kidx = 0 by decide, fourKernel]
  rfl
theorem fourBad (r h : Nat) (g : Flight → Flight) : (fourS r h g).checkLaunch 0 (launchOf badP) = .error 2 := by
  unfold State.checkLaunch
  rw [show (launchOf badP).roi = 0x4000 by decide, show (launchOf badP).kidx = 0 by decide, fourKernel]
  rfl
theorem wit_QueuesAndLaunches_launch : let s := fourS 1 launchP
    let u := fourS 3 badP
    s.packetAt 0 0x3040 = launchP ∧ packetBad launchP = none ∧ launchP % 256 = 1 ∧ s.launchWaits 0 (launchOf launchP) = none ∧ s.checkLaunch 0 (launchOf launchP) = .ok kern0 ∧
    bitOf launchP 8 = false ∧ u.packetAt 0 0x30C0 = badP ∧ packetBad badP = none ∧ u.launchWaits 0 (launchOf badP) = none ∧ u.checkLaunch 0 (launchOf badP) = .error 2 ∧
    u.firstUnmapped 0 0x2000 needW true 8 = none :=
  ⟨(fourPackets _ _ _).2.1, by decide, by decide, fourReady _ _ _ _ (by decide), fourOk _ _ _, by decide, (fourPackets _ _ _).2.2.2, by decide, fourReady _ _ _ _ (by decide),
   fourBad _ _ _, fourFree _ _ _ _ _ _ _ (by decide)⟩
theorem fourParts (r h : Nat) (g : Flight → Flight) (p : Nat) (hp : (r, p) ∈ [(0, 0x3040), (2, 0x30C0)]) : (fourS r h g).partsOf (fourQ r h) 1 = some [p] := by
  have hm : members 1 8 = [0] := by decide
  have h4 := fourPackets r h g
  have n1 : pbyte launchP 0 ≠ 0xFF ∧ pbyte badP 0 ≠ 0xFF := by decide
  have hq : (fourQ r h).primary.ctx = 0 ∧ (fourQ r h).primary.ridx = r ∧ (fourQ r h).segFirst = 0 ∧ (fourQ r h).primary.rseg = 0x3000 := ⟨rfl, rfl, rfl, rfl⟩
  simp only [List.mem_cons, List.not_mem_nil, or_false, Prod.mk.injEq] at hp
  unfold State.partsOf State.packetAfter
  rcases hp with ⟨rfl, rfl⟩ | ⟨rfl, rfl⟩ <;> simp [hm, hq, h4, n1]
theorem fourPart (r h : Nat) (g : Flight → Flight) (p : Nat) (h0 : pbyte p 0 = 1 ∧ packetBad p = none) (hx : (launchOf p).xrec = 0x2040 ∧ (launchOf p).part = 0) : (fourS r h g).partBad 0 p 0 = none := by
  have hr := fourRead r h g 0x2040 64 (by decide) needX
  have hz : (tables (image fourM)).read 0x2040 64 = 0 := by decide
  rw [hz] at hr
  simp only [State.partBad, State.rlimOf, State.xrecOf, hx, hr, h0]
  simp [pfield, bits]
theorem wit_QueuesAndLaunches_gang : ∀ r ∈ [(0, launchP, 0x3000, 0x3040), (2, badP, 0x3080, 0x30C0)], let s := fourS r.1 gangP
    let x := fourQ r.1 gangP
    Tbl.find? s.queues 5 = some x ∧ s.packetAt 0 r.2.2.1 = gangP ∧ packetBad gangP = none ∧ x.waiting = false ∧ s.partsOf x (pbyte gangP 8) = some [r.2.2.2] ∧
    s.packetAt 0 r.2.2.2 = r.2.1 ∧ s.partBad 0 r.2.1 0 = none ∧ s.launchWaits 0 (launchOf r.2.1) = none ∧ s.firstUnmapped 0 0x2000 needW true 8 = none ∧
    s.firstUnmapped 0 0x4080 needX false 4 = none ∧ s.queueBusy 5 = false ∧ s.gangs = [] := by
  intro r hr
  simp only [List.mem_cons, List.not_mem_nil, or_false] at hr
  have h4 := fourPackets r.1 gangP id
  rcases hr with rfl | rfl
  · exact ⟨by decide, h4.1, by decide, by decide, fourParts 0 _ _ 0x3040 (by decide), h4.2.1, fourPart _ _ _ _ (by decide) (by decide), fourReady _ _ _ _ (by decide),
      fourFree _ _ _ _ _ _ _ (by decide), fourFree _ _ _ _ _ _ _ (by decide), by decide, by decide⟩
  · exact ⟨by decide, h4.2.2.1, by decide, by decide, fourParts 2 _ _ 0x30C0 (by decide), h4.2.2.2, fourPart _ _ _ _ (by decide) (by decide), fourReady _ _ _ _ (by decide),
      fourFree _ _ _ _ _ _ _ (by decide), fourFree _ _ _ _ _ _ _ (by decide), by decide, by decide⟩
/-- The part's team finds a seat on core 0; beside a flight there that has the weight store it may not run (R378). -/
theorem gangFlightsIs (g : Flight → Flight) : ∃ f, (fourS 0 gangP g).gangFlights 5 (fourQ 0 gangP) [0x3040] [kern0] = [(40, f)] ∧
    f = { (fourS 0 gangP g).flightOf 5 (fourQ 0 gangP) (launchOf launchP) kern0 0x3040 1 with gang := some 30, started := true } := by
  refine ⟨_, ?_, rfl⟩
  simp only [State.gangFlights, List.zip_cons_cons, List.zip_nil_right, List.zipIdx_cons, List.zipIdx_nil, List.map_cons, List.map_nil]
  rw [show (fourQ 0 gangP).primary.ctx = 0 by rfl, (fourPackets 0 gangP g).2.1]
  rfl
theorem gangNoRoom : (fourS 0 gangP fun f => { f with wsw := true }).gangRoom ((fourS 0 gangP fun f => { f with wsw := true }).gangFlights 5 (fourQ 0 gangP) [0x3040] [kern0]) = false := by
  obtain ⟨f, hf, h⟩ := gangFlightsIs fun f => { f with wsw := true }
  rw [hf, h]
  unfold State.gangRoom
  rw [Bool.and_eq_false_iff]
  exact Or.inl (by rfl)
theorem placeOne (s s1 : State) (f : Flight) (n team site c sb : Nat) (p : Bool) (h : site ∈ (s.flightClusters f).flatMap clusterSites) (hp : s.placeTeam n team site = some s1)
    (hr : s1.placeOfTeam n team = .resident c p sb) : (s.placeSomewhere f n team).isSome = true := by
  unfold State.placeSomewhere
  rw [List.findSome?_isSome_iff]
  exact ⟨site, h, by rw [hp]; simp [hr]⟩
def gangF : Flight := { (fourS 0 gangP).flightOf 5 (fourQ 0 gangP) (launchOf launchP) kern0 0x3040 1 with gang := some 30, started := true }
def gangS : State := { fourS 0 gangP with flights := [(0, flightT), (40, gangF)], nextId := 31, nextFlight := 41 }
theorem gangSeat : (gangS.placeSomewhere gangF 40 0).isSome = true := by
  have hl : gangS.loadsCores (siteCores 0) (gangS.wantOf gangF { teamb := 1, runsince := some 2 }) = false := by rfl
  obtain ⟨k, base, hr⟩ := State.roomAt_one gangS (gangS.wantOf gangF { teamb := 1, runsince := some 2 }) 0 8 (by rfl) (by rfl)
  refine placeOne gangS (gangS.startTeam gangF 40 0 0 [k] base) gangF 40 0 0 0 base false (by decide) ?_ (by rfl)
  have hf : gangS.flight? 40 = some gangF := rfl
  have ht : Tbl.find? gangF.members 0 = some { teamb := 1, runsince := some 2 } := rfl
  unfold State.placeTeam State.loadWaits State.enterCores
  simp only [hf, ht, hr, hl]
  rfl
theorem gangHasRoom : (fourS 0 gangP).gangRoom ((fourS 0 gangP).gangFlights 5 (fourQ 0 gangP) [0x3040] [kern0]) = true := by
  obtain ⟨f, hf, h⟩ := gangFlightsIs id
  rw [show fourS 0 gangP = fourS 0 gangP id by rfl, hf, h]
  unfold State.gangRoom
  rw [Bool.and_eq_true]
  exact ⟨by rfl, gangSeat⟩
/-- A segment behind the current one is returned; a gang before its first GO, before a die's start and past the time limit. -/
theorem wit_QueuesAndLaunches_return : let x : Queue := { q5 with segments := [(0x5000, 0), (0x3000, 63)] }
    let s := queueS 0 fun _ => x
    Tbl.find? s.queues 5 = some x ∧ x.header = none ∧ s.returnable 5 x = [(0x5000, 0)] ∧ ∀ n < 64, ∀ j < 8, ∃ pa ia, Machine.translate (s.ctxRanges 0) needW ((0x5000 + 64 * n) % 2 ^ 64 + j) = some ia ∧
      isHost ia = false ∧ s.cached agentIO ia true = some pa := by
  intro x s
  refine ⟨by decide, by decide, by decide, ?_⟩
  intro n hn j hj
  have hlt : (0x5000 + 64 * n) % 2 ^ 64 + j < 65536 := by omega
  exact ⟨(0x5000 + 64 * n) % 2 ^ 64 + j, (0x5000 + 64 * n) % 2 ^ 64 + j, translateAll _ _ (by omega), isHost_of_lt _ (by omega), cachedIs _ _ _ _ _ ⟨by omega, by
    have hp : pageOf ((0x5000 + 64 * n) % 2 ^ 64 + j) = 0 := Nat.div_eq_of_lt hlt
    have hm : ((0x5000 + 64 * n) % 2 ^ 64 + j) % 65536 = (0x5000 + 64 * n) % 2 ^ 64 + j := Nat.mod_eq_of_lt hlt
    rw [hp, hm]
    show some (0 + ((0x5000 + 64 * n) % 2 ^ 64 + j)) = _
    rw [Nat.zero_add]⟩⟩
def gang0 (go : List Nat) (at' : Nat) : Gang := { queue := 5, idx := 0, flights := [40], dies := [0], goDies := go, goAt := at' }
def goS (go : List Nat) (at' : Nat) : State := { fourS 0 gangP with gangs := [(30, gang0 go at')], fwCycle := 5000 }
theorem wit_QueuesAndLaunches_go : Tbl.find? (goS [] 0).gangs 30 = some (gang0 [] 0) ∧ (goS [] 0).fatal = false ∧ (0 : Nat) ∈ (gang0 [] 0).dies ∧ 0 ∉ (gang0 [] 0).acked ∧
    (fourQ 0 gangP).primary.ridx + 1 + 1 ≤ (fourQ 0 gangP).segFirst + 63 ∧ (goS [0] 1000).fwCycle ≤ (gang0 [0] 1000).goAt + 4000 ∧ (gang0 [0] 999).goAt + 4000 < (goS [0] 999).fwCycle := by decide
/-- A flight of which nothing is left, before and after the firmware's release. -/
def overF (e : Option (List Nat)) : Flight := flightT fun f => { f with queue := 5, packet := 0x3000, sigaddr := 0x2000, members := [(0, { teamb := 1, place := .ended })], ending := e }
def overS (e : Option (List Nat)) : State := { queueS 0 with flights := [(0, overF e)] }
theorem wit_QueuesAndLaunches_complete : ∀ e ∈ [none, some []], let s := overS e
    s.flight? 0 = some (overF e) ∧ s.flightOver 0 (overF e) = true ∧ (overF e).ending = e ∧ s.firstUnmapped 0 0x2000 needW true 8 = none ∧ s.fatal = false ∧ (overF e).killed = false ∧ s.msgs = [] := by
  intro e he
  simp only [List.mem_cons, List.not_mem_nil, or_false] at he
  rcases he with rfl | rfl <;> exact ⟨by decide, by decide, by decide, unmappedPage0 _ _ rfl rfl (by decide) _ _ _ _ (by decide), by decide, by decide, by decide⟩
/-- A restart of Ember, with the stamps of none and of two earlier ones within the limit; a worker that has the queue, and one that has not. -/
theorem wit_QueuesAndLaunches_recovery : let s := queueS 0
    s.fatal = false ∧ s.faultRing = none ∧ (s.emberStamps.filter fun c => s.fwCycle < c + 2 ^ 32).length < 2 ∧
    (let u : State := { s with emberStamps := [1, 2], fwCycle := 5 }
     u.faultRing = none ∧ 2 ≤ (u.emberStamps.filter fun c => u.fwCycle < c + 2 ^ 32).length) ∧ q5.ofWorker 0 = true ∧ q5.ofWorker 1 = false := by decide


/-! ### Faults, resets and power -/

/-- A READY machine, its fault ring of 16 records at 0x5000 holding the counters prod and cons; and one with no ring. -/
def ringF (prod cons : Nat) : State :=
  let s := queueS 0
  { s with ready := true, faultRing := some (0x5000, 4), mem := (s.mem.write 0x5400 4 prod).write 0x5404 4 cons }
def bare : State := { queueS 0 with ready := true, flights := [(0, flightT)] }
/-- A location code of a kind, with coordinates of zero. -/
def loc (kind : Nat) : Nat := kind * 2 ^ 56
theorem portOf (p a : Nat) (h : a < 65536) (hp : pageOf a = 0) : (ringF p 0).cached agentIO a true = some a :=
  cachedIs _ _ _ _ _ ⟨by omega, by rw [hp, Nat.mod_eq_of_lt h]; show some (0 + a) = _; rw [Nat.zero_add]⟩
theorem wit_FaultsAndKills_records : (∀ p ∈ [0, 16], let s := ringF p 0
    s.ready = true ∧ s.fatal = false ∧ s.faultRing = some (0x5000, 4) ∧ Tbl.get s.stamps (loc 1) [] = [] ∧ 1 ≤ locKind (loc 1) ∧ locKind (loc 1) ≤ 8 ∧
    s.cached agentIO 0x5400 true = some 0x5400 ∧ s.cached agentIO 0x5404 true = some 0x5404 ∧ s.cached agentIO 0x5000 true = some 0x5000 ∧ s.cached agentIO 0x5408 true = some 0x5408 ∧
    s.mem.read 0x5400 4 = p ∧ s.mem.read 0x5404 4 = 0) ∧ (4 ≤ 16 ∧ 0x5000 % 4096 = 0) ∧ ¬ 4 ≤ 3 ∧
    (let u : State := { bare with snaps := [(7, 0, 0x9000)] }; Tbl.find? u.snaps 7 = some (0, 0x9000) ∧ (∀ p ∈ u.flights, ∀ q ∈ p.2.members, q.2.place ≠ .absent 0x9000)) := by
  refine ⟨fun p hp => ⟨by rfl, by rfl, by rfl, by rfl, by decide, by decide, portOf p 0x5400 (by decide) rfl, portOf p 0x5404 (by decide) rfl, portOf p 0x5000 (by decide) rfl, portOf p 0x5408 (by decide) rfl, ?_⟩,
    by decide, by decide, by decide, by decide⟩
  simp only [List.mem_cons, List.not_mem_nil, or_false] at hp
  rcases hp with rfl | rfl <;> decide
/-- A band stopped by a class-1 fault: under a debugger, with room for its team's record, and with none. -/
def fault0 : BandFault := { code := 6, pc := 3, btid := 1 }
def stopF (att : Bool) (size : Nat) : State := withB { rotS id with faultRing := none, ctxs := [(0, { ranges := [all], csasize := size, attached := att })] } fun b => { b with fault := some fault0 }
theorem wit_FaultsAndKills_stops : (∀ p ∈ [(true, 2 ^ 20), (false, 2 ^ 20), (false, 2304 * 96)], let s := stopF p.1 p.2
    (band0 s).fault = some fault0 ∧ fault0.noted = false ∧ s.faultRing = none ∧ (rotF id).killAt = none ∧ (s.ctx? (s.bandCtx (band0 s))).map (·.attached) = some p.1 ∧ (band0 s).stepping = none ∧
    s.fatal = false ∧ s.coreWorks (keyCore 0) = true ∧ s.flight? 0 = some (rotF id) ∧ (∃ j ∈ s.teamKeys 0 0, ∃ x, s.band? j = some x ∧ x.allExited = false)) ∧
    (Tbl.find? (rotF id).members 0).map (fun t => (t.place, t.saving)) = some (.resident 0 false 0, 0) ∧ fault0.code < 256 := by
  refine ⟨fun p hp => ?_, by decide, by decide⟩
  simp only [List.mem_cons, List.not_mem_nil, or_false] at hp
  have h (p : Bool × Nat) (h1 : 0 ∈ (stopF p.1 p.2).teamKeys 0 0) (h2 : (stopF p.1 p.2).band? 0 = some (band0 (stopF p.1 p.2)) ∧ (band0 (stopF p.1 p.2)).allExited = false) :
    ∃ j ∈ (stopF p.1 p.2).teamKeys 0 0, ∃ x, (stopF p.1 p.2).band? j = some x ∧ x.allExited = false := ⟨0, h1, _, h2⟩
  rcases hp with rfl | rfl | rfl <;> exact ⟨by decide, by decide, by decide, by decide, by decide, by decide, by decide, by decide, by decide, h (_, _) (by decide) (by decide)⟩
theorem wit_FaultsAndKills_room : (∃ a, ((stopF false (2 ^ 20)).noteBand 0).recordRoom 0 (recordBytes (((stopF false (2 ^ 20)).noteBand 0).bandsForSave (rotF id) 0 0 1) 0) = some a) ∧
    ((stopF false (2304 * 96)).noteBand 0).recordRoom 0 (recordBytes (((stopF false (2304 * 96)).noteBand 0).bandsForSave (rotF id) 0 0 1) 0) = none := by
  constructor
  · have hs := ((stopF false (2 ^ 20)).noteBand 0).recordRoom_isSome 0 (recordBytes (((stopF false (2 ^ 20)).noteBand 0).bandsForSave (rotF id) 0 0 1) 0) { ranges := [all], csasize := 2 ^ 20 } rfl
    rw [show (decide (recordBytes (((stopF false (2 ^ 20)).noteBand 0).bandsForSave (rotF id) 0 0 1) 0 = 0) || _) = true by decide] at hs
    exact Option.isSome_iff_exists.mp hs
  · have hs := ((stopF false (2304 * 96)).noteBand 0).recordRoom_isSome 0 (recordBytes (((stopF false (2304 * 96)).noteBand 0).bandsForSave (rotF id) 0 0 1) 0) { ranges := [all], csasize := 2304 * 96 } rfl
    rw [show (decide (recordBytes (((stopF false (2304 * 96)).noteBand 0).bandsForSave (rotF id) 0 0 1) 0 = 0) || _) = false by decide] at hs
    exact Option.not_isSome_iff_eq_none.mp (by rw [hs]; decide)
/-- A kill before its step 1 and after it, and past the limit of the side logs. -/
def killS (at' : Option Nat) : State := withB { rotS (fun f => { f with killAt := at' }) with fwCycle := 2 ^ 24 } fun b => { b with stop := some (1, 0) }
theorem wit_FaultsAndKills_kills : let f (a : Option Nat) : Flight := rotF fun f => { f with killAt := a }
    (killS none).flight? 0 = some (f none) ∧ (f none).killAt = none ∧ (killS none).stopsDue 0 (f none) = false ∧ (killS (some 0)).flight? 0 = some (f (some 0)) ∧
    (killS (some 0)).killReady 0 (f (some 0)) = true ∧ 0 + 2 ^ 24 ≤ (killS (some 0)).fwCycle := by decide
/-- Corrected errors: the first of a location, and the third of each kind of location, with a spare left and with none. -/
def third (spares : Nat) : State := { bare with fwCycle := 9, stamps := (List.range 9).map fun k => (loc k, [1, 2]), spares := [(2 ^ 20, spares), (2 ^ 21, spares)] }
theorem wit_FaultsAndKills_corrected : bare.faultRing = none ∧ ¬ 3 ≤ (Tbl.get bare.stamps (loc 1) [] ++ [bare.fwCycle]).length ∧
    (∀ k ∈ [1, 2, 3, 4, 5, 8], let l := Tbl.get (third 0).stamps (loc k) [] ++ [(third 0).fwCycle]
      locKind (loc k) = k ∧ (third 0).faultRing = none ∧ 3 ≤ l.length ∧ ∀ i ∈ l, (third 0).fwCycle < i + 2 ^ 32) ∧
    (∀ k ∈ [(1, 2 ^ 20, 32), (2, 2 ^ 21, 16)], spareOf (loc k.1) = some k.2 ∧ Tbl.get (third 0).spares k.2.1 0 < k.2.2 ∧ k.2.2 ≤ Tbl.get (third 32).spares k.2.1 0) := by
  refine ⟨?_, ?_, ?_, ?_⟩ <;> decide
/-- Uncorrected errors and lost dies: every kind of location has a code; a flight that uses die 0; a link whose partner was lost. -/
theorem wit_FaultsAndKills_lost : (∀ k ∈ [1, 2, 3, 4, 5, 6, 8], locKind (loc k) = k) ∧ (bare.die 0).disabled = false ∧ bare.usesDie 0 0 flightT = true ∧
    (band0 (rotS id)).flight = 0 ∧ keyCore 0 = locUnit (loc 4) ∧ (rotS id).faultRing = none ∧ (∀ p ∈ bare.bands, coreDie (keyCore p.1) ≠ locDie (loc 2)) ∧
    (let s : State := { bare with links := [(2, { state := 4, peer := 9 })] }; s.ready = true ∧ s.fatal = false ∧ 9 ≠ s.rank ∧ (s.link 2).state = 4 ∧ (s.link 2).peer = 9) := by decide
/-- Resets: from a FATAL device or one with no flight, and with a flight; PARTCFG and PWRLIM in and out of their ranges; a die that would step its clock either way. -/
theorem wit_ResetsAndPower : bare.powered = true ∧ bare.fatal = false ∧ bare.flights ≠ [] ∧ (queueS 0).powered = true ∧ (queueS 0).flights = [] ∧ (queueS 0).gangs = [] ∧
    ({ bare with fatal := true } : State).powered = true ∧ ({ bare with powered := false } : State).powered = false ∧ bare.warm = false ∧ bare.gangs = [] ∧
    Tbl.get bare.quiet 0 0 < 15 ∧ 15 ≤ Tbl.get ({ bare with quiet := [(0, 15)] } : State).quiet 0 0 := by decide
/-- Sensors read free values: at every state they are all below 120 °C or one of them is not. -/
theorem wit_ResetsAndPower_sensors : (∀ d < 4, bare.measure d < 120) ∨ ∃ d < 4, 120 ≤ bare.measure d := by
  by_cases h : ∀ d < 4, bare.measure d < 120
  · exact Or.inl h
  · right; simpa using h


/-! ### Contexts, services and the debugger -/

/-- Context 0 with the flight of two teams, and context 1, of the given fields, with a flight whose team is runnable; the device is READY. -/
def flight1 : Flight := { flightT with ctx := 1, members := [(0, { teamb := 1, runsince := some 3 })] }
def ctxS (a b : Ctx → Ctx) : State :=
  { rotS id with ready := true, fwCycle := 2 ^ 21, flights := [(0, rotF id), (1, flight1)], ctxs := [(0, a { ranges := [all], csasize := 2 ^ 20 }), (1, b { ranges := [all] })],
                 queues := [(5, q5)] }
theorem wit_ServicesAndContexts_driver : let s := ctxS id id
    let e : State := { s with flights := [], queues := [(5, {})] }
    s.ready = true ∧ s.fatal = false ∧ s.ctx? 2 = none ∧ s.ctx? 0 ≠ none ∧ (∃ p ∈ s.flights, p.2.ctx = 0) ∧ (∀ p ∈ e.flights, p.2.ctx ≠ 0) ∧
    (∀ p ∈ e.queues, p.2.primary.state ≠ 0 → p.2.primary.ctx ≠ 0) ∧ Tbl.find? s.queues 6 = none ∧ Tbl.find? s.queues 5 = some q5 ∧ q5.primary.state ≠ 0 ∧
    Tbl.find? e.queues 5 = some {} ∧ ({} : Queue).primary.state = 0 ∧ e.ctx? 0 ≠ none ∧ 0 < 2 ^ e.npart ∧ 2304 * 96 ≤ 2 ^ 20 ∧ 2 ^ 20 % 4096 = 0 ∧ 24576 % 12288 = 0 := by decide
/-- A switch by priority whose teams stand, and one of a context with no team left; the end of a time slice; a safe point that takes too long. -/
theorem wit_ServicesAndContexts_switch : let s := ctxS id fun c => { c with cpri := 1 }
    let u : State := { s with flights := [(1, flight1)], bands := [] }
    (s.ctx? 0).map (fun c => (c.cpri, c.cstate, c.switchedOut)) = some (0, 1, false) ∧ (s.ctx? 1).map (·.cpri) = some 1 ∧ s.ctxRunnable 1 = true ∧ (∃ q ∈ s.ctxResidents 0, q.2.2.2.saving = 0) ∧
    u.ctxResidents 0 = [] ∧ u.ctxRunnable 1 = true ∧ (∀ p ∈ u.clusters, p.2.engine.serves 0 = false) ∧ (({} : Cluster).engine).serves 0 = false ∧
    let t := ctxS id id
    (t.ctx? 0).map (fun c => (c.quant, c.sliceStart)) = some (0, 0) ∧ 0 + 2 ^ 20 ≤ t.fwCycle ∧ (∃ p ∈ t.ctxs, p.1 ≠ 0 ∧ p.2.cpri = 0 ∧ t.ctxRunnable p.1 = true) ∧ t.ctxResidents 0 ≠ [] ∧
    (t.ctxResidents 0).map (fun q => (q.1, q.2.1, q.2.2.2.saving)) = [(0, 0, 0)] ∧ (∃ k ∈ t.teamKeys 0 0, ∃ b ∈ (t.band? k).toList, b.allExited = false) ∧
    let p : State := withB { t with dies := [(0, { cycle := 2 ^ 20 })] } fun b => { b with stop := some (2, 0) }
    (band0 p).stop = some (2, 0) ∧ 0 + 2 ^ 20 ≤ p.cycleAt 0 := by refine ⟨?_, ?_, ?_, ?_, ?_, ?_, ?_, ?_, ?_, ?_, ?_, ?_, ?_, ?_, ?_, ?_⟩ <;> decide
theorem wit_ServicesAndContexts_room : (ctxS id id).recordRoom 0 (recordBytes ((ctxS id id).bandsForSave (rotF id) 0 0 1) 0) ≠ none := by
  have hs := (ctxS id id).recordRoom_isSome 0 (recordBytes ((ctxS id id).bandsForSave (rotF id) 0 0 1) 0) { ranges := [all], csasize := 2 ^ 20 } rfl
  rw [show (decide (recordBytes ((ctxS id id).bandsForSave (rotF id) 0 0 1) 0 = 0) || _) = true by decide] at hs
  intro hn
  rw [hn] at hs; cases hs
/-- An ECALL of a service by threads 0 and 1, its argument v2 = 0x1000; its band waits for it. -/
def ecall0 (n a : Nat) (st : Option Nat) : Ecall :=
  { flight := 0, team := 0, bandid := 0, depth := 0, pc := 3, threads := [0, 1], service := n, dreg := 6, args := [a, 0], tracker := {}, status := st }
def ecallS (e : Ecall) (att : Bool) (g : Engine → Engine := id) : State :=
  withT { ctxS (fun c => { c with attached := att }) id with ecalls := [(4, e)], clusters := [(0, { engine := g {} })] } fun j t =>
    if j ≤ 1 then { t with state := .atOp, park := .ecall e.service 6 false } else t
theorem wit_ServicesAndContexts_halt : (∀ n ∈ [0, 1], Tbl.find? (ecallS (ecall0 n 0 none) false).ecalls 4 = some (ecall0 n 0 none) ∧ (ecall0 n 0 none).status = none) ∧
    ((ecallS (ecall0 1 0 none) false).ctx? 0).map (·.attached) = some false ∧ let s := ecallS (ecall0 1 0 none) true
    s.ecallCtx (ecall0 1 0 none) = 0 ∧ (s.ctx? 0).map (·.attached) = some true ∧ s.ecallBand (ecall0 1 0 none) = some 0 ∧ (band0 s).midUnit = [] := by decide
theorem wit_ServicesAndContexts_images : (∀ n ∈ [16, 17], let s := ecallS (ecall0 n 0x1000 none) false
    Tbl.find? s.ecalls 4 = some (ecall0 n 0x1000 none) ∧ firstFail (s.ctxRanges 0) needW 0x1000 1280 = none ∧ s.firstUnmapped 0 0x1000 needW true 1280 = none) ∧ 0x1001 % 64 ≠ 0 := by
  refine ⟨fun n hn => ⟨by rfl, firstFailAll _ _ _ (by decide), unmappedPage0 _ _ rfl rfl (by show (rotS id).walk 0 = .frame 0; decide) _ _ _ _ (by decide)⟩, by decide⟩
/-- RELEASE of slots 0 and 1, owned by context 0 with no operation of its in the way, and of two that have no owner. -/
theorem wit_ServicesAndContexts_release : let e := ecall0 18 256 none
    let s := ecallS e false fun g => { g with slots := [(0, { owner := some 0 }), (1, { owner := some 0 })] }
    let u := ecallS e false
    let g := (s.cluster (coreCluster e.core)).engine
    bits (e.args.getD 0 0) 6 0 = 0 ∧ bits (e.args.getD 0 0) 14 8 = 1 ∧ (∀ i < 128, 0 ≤ i ∧ i ≤ 0 + 1 → (g.slot i).owner = some (s.ecallCtx e)) ∧ g.live = [] ∧ g.removed = [] ∧
    ((u.cluster (coreCluster e.core)).engine.slot 0).owner ≠ some (u.ecallCtx e) := by decide
theorem wit_ServicesAndContexts_done : ∀ p ∈ [(1, some 0), (2, none)], let e := ecall0 p.1 0 p.2
    let s := ecallS e false
    s.ecalls = [(4, e)] ∧ (e.status = some 0 ∧ e.service ∈ [0, 1, 16, 17, 18] ∨ e.service ∉ [0, 1, 16, 17, 18]) ∧ e.threads ≠ [] ∧ e.threads.Nodup ∧ s.ecallBand e = some 0 ∧
    (band0 s).uid = uidOf e.flight e.team e.bandid ∧ (∀ j ∈ e.threads, ((band0 s).thread j).state = .atOp ∧ ((band0 s).thread j).park = .ecall e.service 6 false) ∧
    (∀ j ∈ e.threads, j < (band0 s).threads.length) ∧ (band0 s).mapped + ((band0 s).unmapped [e.dreg]).length ≤ (band0 s).quota := by decide
/-- A band halted by the debugger, and its mailbox with a command for thread 1 of band 0 of team 0. -/
def boxS (m : Mailbox) (att : Bool := true) (halted : Bool := true) : State :=
  withB { ctxS (fun c => { c with attached := att, mailbox := { m with mst := 0xFF } }) id with flights := [(0, rotF fun f => { f with members := [(0, { place := .resident 0 false 0, teamb := 1 })] })] }
    fun b => if halted then { setV 4 [(1, 0xCD)] b with halted := true, threads := b.threads.map fun t => { t with state := .halted } } else b
def box0 (cmd rcls ridx : Nat) : Mailbox := { cmd := cmd, btid := 1, rcls := rcls, ridx := ridx, addr := 0x1000 }
theorem wit_DebuggerCommands : (∀ n ∈ [1, 2, 3, 4, 5, 6, 7, 8, 11, 12], let s := boxS (box0 n 0 4)
    (s.ctx? 0).map (fun c => (c.attached, c.mailbox.mst, c.mailbox.cmd, c.mailbox.begun)) = some (true, 0xFF, n, false) ∧ s.boxKeys 0 (box0 n 0 4) = [0] ∧ s.boxAway 0 (box0 n 0 4) = [] ∧
    (band0 s).halted = true ∧ (box0 n 0 4).btid < (band0 s).width ∧ ((band0 s).thread 1).state = .halted ∧ s.bandCtx (band0 s) = 0 ∧ (band0 s).midUnit = [] ∧ (band0 s).stepping = none) ∧
    ((boxS (box0 2 0 4) false).ctx? 0).map (·.attached) = some false ∧ (boxS (box0 12 0 4)).saveComes (band0 (boxS (box0 12 0 4))) = false ∧
    (let s := boxS (box0 5 0 4) true false; (band0 s).halted = false ∧ s.boxKeys 0 (box0 5 0 4) = [0] ∧ s.boxAway 0 (box0 5 0 4) = [] ∧ (band0 s).allExited = false ∧
      ((band0 s).thread 1).state = .ready ∧ ((band0 s).thread 1).park = .none) := by decide
theorem wit_DebuggerCommands_registers : let b := band0 (boxS (box0 6 0 4))
    b.vreg? 4 1 = some 0xCD ∧ b.vreg? 9 1 = none ∧ 3 < b.kregs.length ∧ b.mapped + (b.unmapped [4]).length ≤ b.quota ∧ 1 < b.threads.length ∧ (b.thread 1).preds < 2 ^ 7 ∧
    (let u := { b with quota := b.mapped }; u.quota < u.mapped + (u.unmapped [9]).length) := by decide
theorem wit_DebuggerCommands_memory : let s := boxS (box0 8 0 4)
    firstFail (s.ctxRanges 0) needW 0x1000 16 = none ∧ s.firstUnmapped 0 0x1000 needW true 16 = none ∧ firstFail (s.ctxRanges 0) needW 0x1000 1280 = none ∧
    s.firstUnmapped 0 0x1000 needW true 1280 = none ∧ ∀ i < 1280, Machine.translate (s.ctxRanges 0) needW (0x1000 + i) = some (0x1000 + i) ∧ isHost (0x1000 + i) = false ∧
      s.cached agentIO (0x1000 + i) true = some (0x1000 + i) := by
  refine ⟨firstFailAll _ _ _ (by decide), unmappedPage0 _ _ rfl rfl (by rfl) _ _ _ _ (by decide), firstFailAll _ _ _ (by decide), unmappedPage0 _ _ rfl rfl (by rfl) _ _ _ _ (by decide), ?_⟩
  intro i hi
  refine ⟨translateAll _ _ (by omega), isHost_of_lt _ (by omega), cachedIs _ _ _ _ _ ⟨by omega, ?_⟩⟩
  rw [show pageOf (0x1000 + i) = 0 from Nat.div_eq_of_lt (by omega), Nat.mod_eq_of_lt (by omega : 0x1000 + i < 65536)]
  show some (0 + (0x1000 + i)) = _
  rw [Nat.zero_add]
/-- SETBP and SETWP with good fields; a kill of the whole context. -/
theorem wit_DebuggerCommands_points : let c : Ctx := {}
    let p : Mailbox := { cmd := 9, ridx := 3, val := 2 ^ 63 + 0x20005, addr := 7 * 2 ^ 32 + 1 }
    let w : Mailbox := { cmd := 10, ridx := 3, val := 64 * 2 ^ 32 + 2 ^ 31, addr := 0x1000 }
    p.ridx < 4 ∧ c.ibps.length = 4 ∧ bits p.val 62 32 = 0 ∧ bits p.addr 31 2 = 0 ∧ w.ridx < 4 ∧ c.dwps.length = 4 ∧ bits w.val 27 0 = 0 ∧ bits w.val 63 32 ≠ 0 ∧
    Tbl.wf (boxS { cmd := 12, team := 0xFFFFFFFF, band := 0xFF, btid := 0xFF }).flights = true := by decide


/-! ### Translation and shoot-downs -/

/-- A state whose three upper tables have the entries e0, e1 and e2 for page 0, and a last table at 0x103000 the entry e3. -/
def walkS (e2 e3 : Nat) : State := { bare with mem := ((((Memory.write [] 0x100000 8 (2 ^ 63 + 0x101000)).write 0x101000 8 (2 ^ 63 + 0x102000)).write 0x102000 8 e2).write 0x103000 8 e3) }
def hop : Nat := 2 ^ 63 + 0x103000
theorem wit_TranslationWorks_ranges : (∃ r ∈ [all, all], r.base ≤ 0x1000 ∧ 0x1000 ≤ r.limit) ∧ (∀ r ∈ [all], ¬ (r.base ≤ 2 ^ 41 ∧ 2 ^ 41 ≤ r.limit)) ∧ bare.ready = true ∧ bare.fatal = false ∧
    (bare.ctx? 0).isSome ∧ (List.replicate 16 0).length = 16 ∧ (List.replicate 16 0).map rangeReg = (List.replicate 16 none).map some ∧ rangeReg 8 = none ∧ 8 ∈ List.replicate 15 0 ++ [8] := by decide
theorem wit_TranslationWorks_walk : ∀ p ∈ [(2 ^ 63 + 2 ^ 61 + 0x200000, 0), (0, 0), (hop, 2 ^ 63 + 2 ^ 62 + 0x30000), (hop, 0), (hop, 2 ^ 63)], let s := walkS p.1 p.2
    let form := fun (e kind : Nat) => bitOf e 63 = true ∧ bits e 62 61 = kind ∧ bits e 60 42 = 0 ∧ bits e 11 0 = 0 ∧ bits e 39 30 ≤ 95
    s.mem.read s.dptbase 8 = 2 ^ 63 + 0x101000 ∧ form (2 ^ 63 + 0x101000) 0 ∧ s.mem.read 0x101000 8 = 2 ^ 63 + 0x102000 ∧ form (2 ^ 63 + 0x102000) 0 ∧ s.mem.read 0x102000 8 = p.1 ∧
    s.mem.read 0x103000 8 = p.2 ∧ form (2 ^ 63 + 2 ^ 61 + 0x200000) 1 ∧ form hop 0 ∧ form (2 ^ 63 + 2 ^ 62 + 0x30000) 2 ∧ bitOf 0 63 = false ∧ bits (2 ^ 63) 62 61 ≠ 2 := by decide
theorem wit_TranslationWorks_tables : bare.shoots = [] ∧ isHost (0 * 65536) = false ∧ bare.walk 0 = .frame 0 ∧ (walkS 0 0).walk 0 = .unmapped ∧ (walkS hop (2 ^ 63)).walk 0 = .bad 3 ∧
    (walkS hop (2 ^ 63)).faultRing = none ∧ (let a := acc0 .load 0 0x1000; a.space = 0 ∧ a.sent = false ∧ pageOf a.addr = 0 ∧ coreDie a.core = 0) ∧
    (let s := taskS []; (s.core 0).image.map (fun i => i.1 / 2 ^ 64) = some 0) := by refine ⟨?_, ?_, ?_, ?_, ?_, ?_, ?_, ?_⟩ <;> decide
/-- Translations and pages asked of the host; completions of a read and of an AtomicOp of the host half. -/
def hostS (atomic : Bool) : State :=
  { bare with atc := [(7, 4)], pageAsks := [2 ^ 60 + 7], iq := [acc0 .atom 0 (2 ^ 51)], msgs := [{ id := 12, src := 0, dst := agentIO, lane := 0, body := .host 9 (2 ^ 51) atomic }] }
theorem wit_TranslationWorks_host : (∀ w ∈ [false, true], let s := hostS w
    Tbl.find? s.atc 7 = some 4 ∧ s.pageAsks.contains (2 ^ 60 + 7) = true ∧ ((s.msgs.find? fun m => m.id = 12).map fun m => m.body) = some (.host 9 (2 ^ 51) w) ∧
    s.acc? 9 = some (acc0 .atom 0 (2 ^ 51)) ∧ s.faultRing = none) := by decide
/-- A shoot-down of page 0 at a node: started; begun; flushed; and the last node's. -/
def shoot0 (kind : Nat) (due begun flushed : List Nat) : Shoot := { kind := kind, ctx := 0, lo := 0, hi := 65535, grid := false, started := true, due := due, begun := begun, flushed := flushed }
def shootS (p : Shoot) : State := { bare with shoots := [(9, p)], fwCycle := 2 ^ 27 }
theorem wit_ShootdownsComplete : bare.ready = true ∧ bare.fatal = false ∧ bare.shoots = [] ∧ ({ bare with ready := false } : State).fatal = false ∧
    (∀ p ∈ [shoot0 0 [0, 4] [] [], shoot0 2 [0, 4] [] [], shoot0 0 [0, 4] [0] [], shoot0 2 [0, 4] [0] [], shoot0 2 [0] [0] [], shoot0 0 [0, 4] [0] [0], shoot0 0 [0] [0] [0], shoot0 1 [0, 4] [0] [0]],
      let s := shootS p
      s.shootOf 0 = some (9, p) ∧ Tbl.find? s.shoots 9 = some p ∧ s.wb = [] ∧ s.nodeBusy 0 p = false ∧ p.parent = none ∧ p.origin = 0 ∧ p.since + s.sdto ≤ s.fwCycle ∧ (s.die 0).disabled = false ∧
      (∃ q ∈ s.shoots, q.2.parent = none ∧ q.2.started = true) ∧ (∀ q ∈ s.shoots, q.1 ≠ s.nextId)) := by decide
/-- A rank that does not acknowledge, and one that no link serves. -/
theorem wit_ShootdownsComplete_ranks : let s := { shootS (shoot0 0 [0, 4, 25] [] []) with unserved := [(9, 0)], gridMap := [(9, 1)], links := [(2, { met := true, peer := 9 })] }
    s.shootOf 25 = some (9, shoot0 0 [0, 4, 25] [] []) ∧ 25 - 16 ≠ s.rank ∧ (s.link 2).met = true ∧ (s.link 2).peer = 25 - 16 ∧ Tbl.find? s.unserved 9 = some 0 ∧ s.alive 9 = true ∧
    0 + s.sdto ≤ s.fwCycle := by decide


/-! ### Grids, reductions and parameter nodes -/

/-- Every byte of page 0 is reached by firmware and units through range `all` and the I/O die's cached page. -/
theorem reach0 (s : State) (ctx va : Nat) (h : va < 65536) (hr : s.ctxRanges ctx = [all]) (ht : Tbl.find? (Tbl.get s.tlbs agentIO []) 0 = some 0) (nd : Need) (w : Bool) :
    ∃ ia, Machine.translate (s.ctxRanges ctx) nd va = some ia ∧ isHost ia = false ∧ s.cached agentIO ia w = some va := by
  refine ⟨va, by rw [hr]; exact translateAll nd va (by omega), isHost_of_lt _ (by omega), cachedIs _ _ _ _ _ ⟨by omega, ?_⟩⟩
  rw [show pageOf va = 0 from Nat.div_eq_of_lt h, ht, Nat.mod_eq_of_lt h]
  show some (0 + va) = _
  rw [Nat.zero_add]
/-- A delivery at the link unit of a device that holds key 7 in context 0. -/
def inS (d : Delivery) (m : Memory := []) : State := { bare with inbox := [(3, d)], mem := tables m, ctxs := [(0, { ranges := [all], gkey := 7 })], copies := [] }
def copyD (els : List (Nat × Nat)) (key next : Nat) : Delivery := { cargo := .copy, src := 0, dst := 0, gkey := key, token := tokCopy 9, args := [4], els := els, next := next }
theorem wit_GridDeliveriesArrive_copy : let s := inS (copyD [(0x2000, 5)] 7 0)
    Tbl.find? s.inbox 3 = some (copyD [(0x2000, 5)] 7 0) ∧ s.ctxOfKey 7 = some 0 ∧ (copyD [(0x2000, 5)] 7 0).els[0]? = some (0x2000, 5) ∧ (copyD [(0x2000, 5)] 7 0).arg 0 = 4 ∧
    firstFail (s.ctxRanges 0) needW 0x2000 4 = none ∧ s.firstUnmapped 0 0x2000 needW true 4 = none ∧ (∀ i < 4, ∃ ia, Machine.translate (s.ctxRanges 0) needW (0x2000 + i) = some ia ∧
      isHost ia = false ∧ s.cached agentIO ia true = some (0x2000 + i)) ∧ (copyD [(0x2000, 5)] 7 1).els.length ≤ 1 ∧ s.faultRing = none ∧ (copyD [] 7 0).src = s.rank ∧ s.ctxOfKey 8 = none :=
  ⟨by decide, by decide, by decide, by decide, firstFailAll _ _ _ (by decide), unmappedPage0 _ _ rfl rfl (by decide) _ _ _ _ (by decide),
   fun i hi => reach0 _ _ _ (by omega) rfl rfl _ _, by decide, by decide, by decide, by decide⟩
theorem wit_GridDeliveriesArrive_bad : let s := inS (copyD [(2 ^ 41, 5)] 7 0)
    (copyD [(2 ^ 41, 5)] 7 0).els[0]? = some (2 ^ 41, 5) ∧ firstFail (s.ctxRanges 0) needW (2 ^ 41) 4 ≠ none ∧
    (let f : Delivery := { cargo := .fresh, src := 0, dst := 0, args := [0, 0, 0, 4, 0x2000, 5] }
     f.arg 2 = 0 ∧ f.arg 3 = 4 ∧ f.arg 4 = 0x2000) := by decide
/-- A header at 0x1000 of 16 FP32 elements, ranks 0 to 3, armed for ADD, its staging region at 0x2000; contributions of its first element from ranks 0 and 1. -/
def head0 : Nat := 3 * 2 ^ 32 + 4 * 2 ^ 64 + 2 ^ 104 + 2 * 2 ^ 112 + 64 * 2 ^ 128 + 0x2000 * 2 ^ 192
def part (src hdr rop : Nat) : Delivery := { cargo := .contribution, src := src, dst := 0, gkey := 7, args := [hdr, rop, 4], els := [(0x1040, 0x3F800000)] }
def redS (src hdr rop : Nat) : State := inS (part src hdr rop) (Memory.write [] 0x1000 64 head0)
theorem wit_GridDeliveriesArrive_reduce : ∀ p ∈ [(0, 0), (1, 0), (0, 1)], let s := redS p.1 0x1000 p.2
    let d := part p.1 0x1000 p.2
    let h := redHead head0
    Tbl.find? s.inbox 3 = some d ∧ s.ctxOfKey d.gkey = some 0 ∧ d.arg 0 = 0x1000 ∧ s.redHeadAt 0 0x1000 = some h ∧ s.gridMap = [] ∧ h.arm = true ∧ h.failed = false ∧ (h.rop ≠ d.arg 1 ↔ p.2 = 1) ∧
    h.z = d.arg 2 ∧ h.rlo ≤ d.src ∧ d.src ≤ h.rhi ∧ (h.rlo < d.src ↔ p.1 = 1) ∧ d.els = [(0x1040, 0x3F800000)] ∧ 0x1000 + 64 ≤ 0x1040 ∧ 0x1040 + h.z ≤ 0x1000 + 64 + h.dsize ∧
    (0x1040 - (0x1000 + 64)) % h.z = 0 ∧ h.instOf d = some 1 ∧ s.redBufs = [] ∧ s.faultRing = none ∧ 2 ≤ h.ncont ∧ h.rop ≤ 2 ∧
    (∀ q ∈ h.touches 0x1000 1 d.els, firstFail (s.ctxRanges 0) needXWA q.1 q.2 = none ∧ s.firstUnmapped 0 q.1 needXWA true q.2 = none) := by
  intro p hp
  have hr (p : Nat × Nat) (hp : p ∈ [(0, 0), (1, 0), (0, 1)]) : (redS p.1 0x1000 p.2).redHeadAt 0 0x1000 = some (redHead head0) := by
    unfold State.redHeadAt
    rw [vaReadIs _ _ rfl rfl _ _ _ (by decide), show (redS p.1 0x1000 p.2).mem.read 0x1000 64 = head0 by show (tables (Memory.write [] 0x1000 64 head0)).read 0x1000 64 = head0; decide]; rfl
  have hw (p : Nat × Nat) : (redS p.1 0x1000 p.2).walk 0 = .frame 0 := by show (inS (copyD [] 0 0) (Memory.write [] 0x1000 64 head0)).walk 0 = .frame 0; decide
  have ht (p : Nat × Nat) : ∀ q ∈ (redHead head0).touches 0x1000 1 (part p.1 0x1000 p.2).els, firstFail ((redS p.1 0x1000 p.2).ctxRanges 0) needXWA q.1 q.2 = none ∧
      (redS p.1 0x1000 p.2).firstUnmapped 0 q.1 needXWA true q.2 = none := by
    intro q hq
    have hq' : q.1 + q.2 ≤ 65536 := by
      have : ∀ q ∈ (redHead head0).touches 0x1000 1 [(0x1040, 0x3F800000)], q.1 + q.2 ≤ 65536 := by decide
      exact this q hq
    exact ⟨firstFailAll _ _ _ (by omega), unmappedPage0 _ _ rfl rfl (hw p) _ _ _ _ hq'⟩
  refine ⟨by rfl, by rfl, by rfl, hr p hp, by rfl, by decide, by decide, ?_, ?_, ?_, ?_, ?_, by rfl, by decide, by decide, by decide, by rfl, by rfl, by rfl, by decide, by decide, ht p⟩ <;>
    (simp only [List.mem_cons, List.not_mem_nil, or_false] at hp; rcases hp with rfl | rfl | rfl <;> decide)
theorem wit_GridDeliveriesArrive_refused : 0x1001 % 64 ≠ 0 ∧ (2 ^ 41) % 64 = 0 ∧ firstFail ((redS 0 (2 ^ 41) 0).ctxRanges 0) needXWA (2 ^ 41) 64 ≠ none := by decide
/-- Tensor 7 of one block, with two ranks, its step 1 open; a node that has it. -/
def frame0 (applied nextr : Nat) : Frame := { word := { applied := applied, nextr := nextr } }
def tensor0 (f : Tensor → Tensor := id) : Tensor := f { outf := 0, nrank := 2, open' := 1, rule := some [0, 0, 0, 0, 0, 0, 0, 0], frames := [frame0 0 2] }
def sub0 (f : Sub → Sub := id) : Sub := f { tens := 7, rank := 0, ctx := 0, gkey := 0, flight := 0, team := 0, tag := 5, dst := 0x2000, wst := false }
def cmdP (sub : Nat) : Post := { post0 1 none with sub := sub }
def pnS (sub r : Nat) (n : Node) : State := { bare with mem := tables (Memory.write [] 0x1000 64 r), posts := [(9, cmdP sub)], nodes := [(0, n)] }
theorem pnReads (sub r : Nat) (n : Node) (h : (tables (Memory.write [] 0x1000 64 r)).read 0x1000 64 = r) : (pnS sub r n).vaRead 0 0x1000 64 needX = some r := by
  rw [vaReadIs _ _ rfl rfl _ _ _ (by decide), show (pnS sub r n).mem = tables (Memory.write [] 0x1000 64 r) by simp only [pnS], h]
def regR : Nat := 7 + 2 ^ 32 + 2 * 2 ^ 64 + 2 ^ 104 + 0x2000 * 2 ^ 128
/-- Each command with a record of a good form, for a node that has the tensor, or has none for REG. -/
theorem wit_ParameterNodesWork : ∀ p ∈ [(0, regR), (1, 7), (2, 7 + 2 * 2 ^ 32), (3, 7 + 2 ^ 32), (3, 7), (4, 7 + 0x2000 * 2 ^ 64), (5, 7 + 0x2000 * 2 ^ 64), (6, 7)],
    (cmdP p.1).kind = 1 ∧ (cmdP p.1).target = 0 ∧ (cmdP p.1).sub = p.1 ∧ (cmdP p.1).sent = false ∧ (cmdP p.1).reply = none ∧ pnRem p.2 = false ∧ pnTens p.2 = 7 ∧ pnBad p.1 p.2 = false ∧
    (tables (Memory.write [] 0x1000 64 p.2)).read 0x1000 64 = p.2 := by decide
/-- Every region that they name is read or written; REG of a new tensor, and commands for one that is open, failed, or absent. -/
theorem wit_ParameterNodesWork_regions : ∀ p ∈ [(0, regR, ({} : Node)), (4, 7 + 0x2000 * 2 ^ 64, { tensors := [(7, tensor0)] })], ∀ q ∈ (pnS p.1 p.2.1 p.2.2).pnRegions 0 p.1 p.2.1,
    q.1 + q.2.1 ≤ 65536 := by decide
def node0 (f : Tensor → Tensor := id) : Node := { tensors := [(7, tensor0 f)], subs := [(4, sub0)] }
theorem wit_ParameterNodesWork_states : Tbl.find? ({} : Node).tensors 7 = none ∧ ({} : Node).tensors.length < 4096 ∧ ((({} : Node).tensors.map fun q => q.2.frames.length).sum + recBytes regR 7 4) * 53248 ≤ 2 ^ 35 ∧
    Tbl.find? (node0 id).tensors 7 = some (tensor0 id) ∧ (tensor0 id).lost = false ∧ (tensor0 id).tstate = 0 ∧ (tensor0 fun x => { x with tstate := 1 }).tstate ≠ 0 ∧ (tensor0 id).commit = none ∧
    (∀ k < (tensor0 id).frames.length, (tensor0 id).nrank ≤ ((tensor0 id).frame k).word.nextr) ∧ recBytes (7 + 2 ^ 32) 7 4 = (tensor0 id).open' ∧ (tensor0 id).rule ≠ none ∧
    recBytes 7 7 4 ≠ (tensor0 id).open' ∧ (let x := tensor0 fun x => { x with frames := [frame0 0 1] }; ∃ k < x.frames.length, (x.frame k).word.nextr < x.nrank) ∧
    recBytes (7 + 0x2000 * 2 ^ 64) 7 4 < (tensor0 id).frames.length ∧ (List.filter (fun q : Nat × Sub => q.2.tens = 7) (node0 id).subs).length < 64 ∧
    bitOf (recBytes (7 + 0x2000 * 2 ^ 64) 4 4) 1 = false := by decide
/-- A commit at its block, and past its last. -/
def pnCmd0 : PnCmd := { sub := 3, rank := 0, ctx := 0, flight := 0, team := 0, record := 0, token := tokCmd 9 }
theorem wit_ParameterNodesWork_commit : (let n := node0 fun x => { x with tstate := 1, commit := some (pnCmd0, 0) }
      n.failed = false ∧ n.disabled = false ∧ n.tensors.length = 1 ∧ ((n.tensors.headD (0, tensor0)).2.frame 0).word.applied + 1 = 1 ∧ 0 < (tensor0 id).frames.length ∧ (Tbl.find? n.subs 4).map (·.tens) = some 7) ∧
    (let x := tensor0 fun x => { x with tstate := 1, commit := some (pnCmd0, 1) }; x.frames.length ≤ 1 ∧ x.early = [] ∧ pnCmd0.rank = bare.rank ∧ pnCmd0.token = tokCmd 9) := by decide
/-- Gradient blocks: of an unknown block, of a step that is past, of a rank that came before, of the next rank, of a later one and of another step. -/
def grad (blk step src : Nat) : Delivery := { cargo := .gradient, src := src, dst := 0, gkey := 7, args := [0, 7, blk, step], els := [(0, 0x3F800000)] }
def gradS (d : Delivery) : State := { inS d with nodes := [(0, { tensors := [(7, tensor0 fun x => { x with nrank := 4, frames := [frame0 0 1] })] })] }
theorem wit_ParameterNodesWork_gradients : ∀ p ∈ [(5, 1, 0), (0, 0, 0), (0, 1, 0), (0, 1, 1), (0, 1, 2), (0, 9, 0)], let d := grad p.1 p.2.1 p.2.2
    let s := gradS d
    let x := tensor0 fun x => { x with nrank := 4, frames := [frame0 0 1] }
    let w := (x.frame 0).word
    Tbl.find? s.inbox 3 = some d ∧ d.cargo = .gradient ∧ d.arg 0 = 0 ∧ (d.src = s.rank ∨ s.ctxOfKey d.gkey ≠ none) ∧ Tbl.find? (s.node 0).tensors (d.arg 1) = some x ∧ x.lost = false ∧ x.early = [] ∧
    x.tstate = 0 ∧ (s.node 0).earlyCount < 1024 ∧ (p.1 < x.frames.length ↔ p.1 = 0) ∧ d.src < x.nrank ∧ (p.2.1 ≤ w.applied ↔ p.2.1 = 0) ∧ (p.2.1 = x.open' ↔ p.2.1 = 1) ∧
    (p.2.2 < w.nextr ↔ p.2.2 = 0) ∧ (p.2.2 = w.nextr ↔ p.2.2 = 1) ∧ (p.2.1 ≠ x.open' ∧ p.2.1 ≠ x.open' + 1 ↔ p.2.1 ∈ [0, 9]) := by decide
/-- Subscriptions with a fresh block for memory and for the weight store of a die that no band is on, and with a tag that is due. -/
theorem wit_ParameterNodesWork_subs : (let u := sub0 fun u => { u with fresh := [(1, 0x2000, 4, 9)] }
      u.fresh = (1, 0x2000, 4, 9) :: [] ∧ u.wst = false ∧ u.tagDue = [] ∧ u.rank = bare.rank ∧ bare.faultRing = none) ∧ (∀ q ∈ bare.bands, coreDie (keyCore q.1) ≠ bits 0x2000 33 32) ∧
    (let u := sub0 fun u => { u with tagDue := [1] }
     u.wst = false ∧ u.tagDue = 1 :: [] ∧ (∀ q ∈ u.fresh, q.1 ≠ 1) ∧ u.flying = 0 ∧ u.rank = (rotS id).rank ∧ (rotS id).placeOfTeam u.flight u.team = .resident 0 false 0) ∧
    (let n : Node := { failed := true }; n.failed = true ∧ n.disabled = false) := by decide
theorem wit_ParameterNodesWork_reach : firstFail (bare.ctxRanges 0) needW 0x2000 4096 = none ∧ bare.firstUnmapped 0 0x2000 needW true 4096 = none ∧ ∀ i < 4096, ∃ ia,
    Machine.translate (bare.ctxRanges 0) needW (0x2000 + i) = some ia ∧ isHost ia = false ∧ bare.cached agentIO ia true = some (0x2000 + i) :=
  ⟨firstFailAll _ _ _ (by decide), unmappedPage0 _ _ rfl rfl (by decide) _ _ _ _ (by decide), fun i hi => reach0 _ _ _ (by omega) rfl rfl _ _⟩


/-! ### Links and the host port -/

/-- Link 2 in a state, its lanes good. -/
def linkS (l : Link) : State := { bare with links := [(2, l)] }
def upL (f : Link → Link := id) : Link := f { state := 2, lanes := 8, peer := 9, met := true }
def flit0 (kind check seq ack : Nat) (body : List Nat) : Flit := { kind := kind, check := check, seq := seq, ack := ack, body := body }
theorem wit_LinksAndHostPort_flits : let l := upL id
    let s := linkS l
    s.link 2 = l ∧ l.up = true ∧ l.sent = [] ∧ s.outq = [] ∧ 2 ≤ (flit0 1 2 0 0 []).check ∧ (upL fun l => { l with state := 1 }).up = false ∧
    (flit0 1 0 5 0 []).seq ≠ (l.rxSeq + 1) % 65536 ∧ (flit0 1 0 0 0 [0, 9, 0, 0, 0, 0, 7, 0, 0, 1, 4, 0x2000, 5]).seq = (l.rxSeq + 1) % 65536 ∧
    ((Delivery.of (flit0 1 0 0 0 [0, 9, 0, 0, 0, 0, 7, 0, 0, 1, 4, 0x2000, 5]).body).map fun d => (d.dst, d.cargo)) = some (s.rank, .copy) ∧
    (let m := upL fun l => { l with sent := [(3, copyD [] 7 0)] }; (∃ p ∈ m.sent, seqBehind p.1 (flit0 2 0 0 3 []).ack < 32768) ∧ (flit0 2 0 0 3 []).ack < 65536) := by decide
theorem wit_LinksAndHostPort_links : (upL fun l => { l with state := 0 }).dis = false ∧ (upL fun l => { l with tries := 64 }).up = true ∧ bare.outq = [] ∧ bare.faultRing = none ∧
    [8, 4, 2].find? (fun k => decide (k ≤ min ((9 * 16 + 8) % 16) (upL id).goodLanes)) = some 8 ∧ min (1 % 16) (upL id).goodLanes < 2 ∧ (upL id).sent = [] ∧ 2 < 16 := by decide
/-- The window set to the lowest 64 GiB: closed, open on a mapped page and open on one that is not. -/
def winS (en : Bool) : State := { bare with wbase := 0, wen := en }
theorem wit_LinksAndHostPort_window : (winS false).wen = false ∧ (winS true).wen = true ∧ (winS true).walk (0 * 2 ^ 36 + 0x2000) = .frame 0 ∧ 0x2000 / 65536 = (0x2000 + 8 - 1) / 65536 ∧
    (winS true).poisonAt (0 + 0x2000 % 65536) 8 = none ∧ (winS true).walk (0 * 2 ^ 36 + 2 ^ 31) = .unmapped ∧ 0x2000 + 8 ≤ 2 ^ 36 ∧ (winS true).wbase < 2 ^ 15 ∧ 0x2000 % 8 = 0 ∧ bare.faultRing = none := by decide
theorem wit_LinksAndHostPort_registers : (let c : Ctx := {}; c.mailbox.mst ≠ 0xFF) ∧ (bare.ctx? 0).isSome = true ∧ bits (5 * 2 ^ 36 + 1) 63 51 = 0 ∧ bits (5 * 2 ^ 36 + 1) 35 1 = 0 ∧ bits (2 ^ 51) 63 51 ≠ 0 ∧
    1 ≤ 5 % 256 ∧ 5 % 256 ≤ 12 ∧ Tbl.get ({ bare with msixTab := [(0, (0x1000, 3, 1))], msixPend := [0] } : State).msixTab 0 (0, 0, 1) = (0x1000, 3, 1) ∧
    0 ∈ ({ bare with msixTab := [(0, (0x1000, 3, 1))], msixPend := [0] } : State).msixPend := by decide

end Sys2Proof.Tests
end

section
/-!
PROOFS. Memories that read alike are one memory: what a byte reads after a write, in one equation, and the operations over
memory compared byte by byte (R2, R279).
-/
namespace Sys2Proof.Machine.Memory

/-! ### Canonical memories are determined by their bytes -/

theorem byte_cons_self (a : Nat) (v : Byte) (r : Memory) : byte ((a, v) :: r) a = v := by simp [byte]

theorem byte_cons_ne (a b : Nat) (v : Byte) (r : Memory) (h : a ≠ b) : byte ((a, v) :: r) b = byte r b := by simp [byte, h]

/-- The first entry of a canonical memory has an entry at or before it in every memory that reads the same there. -/
theorem not_all_after_of_byte_eq {a : Nat} {v : Byte} {r m : Memory} (hv : v ≠ Memory.fresh)
    (h : byte ((a, v) :: r) a = byte m a) : ¬ ∀ c ∈ m, a < c.1 := fun hlt =>
  hv (by rw [← byte_cons_self a v r, h, byte_of_lt m a hlt])

/-- Where two canonical memories read alike, the second one's first entry is not after the first one's. -/
theorem head_le_of_byte_eq {a b : Nat} {v w : Byte} {r q : Memory} (hr : wf ((a, v) :: r) = true) (hq : wf ((b, w) :: q) = true)
    (h : ∀ c, byte ((a, v) :: r) c = byte ((b, w) :: q) c) : b ≤ a := by
  obtain ⟨-, hv, -⟩ := (wf_cons a v r).1 hr
  obtain ⟨hb, -, -⟩ := (wf_cons b w q).1 hq
  refine Nat.le_of_not_lt fun hab => not_all_after_of_byte_eq hv (h a) fun c hc => ?_
  rcases List.mem_cons.1 hc with rfl | hc
  · exact hab
  · exact Nat.lt_trans hab (hb c hc)

/-- Canonical memories that read alike are one memory. -/
theorem ext_byte (m m' : Memory) (hm : wf m = true) (hm' : wf m' = true) (h : ∀ b, byte m b = byte m' b) : m = m' := by
  induction m generalizing m' with
  | nil =>
    cases m' with
    | nil => rfl
    | cons c q =>
      obtain ⟨-, hv, -⟩ := (wf_cons c.1 c.2 q).1 hm'
      exact absurd (by simp) (not_all_after_of_byte_eq hv (h c.1).symm)
  | cons c r ih =>
    obtain ⟨a, v⟩ := c
    obtain ⟨ha, hv, hr⟩ := (wf_cons a v r).1 hm
    cases m' with
    | nil => exact absurd (by simp) (not_all_after_of_byte_eq hv (h a))
    | cons c q =>
      obtain ⟨b, w⟩ := c
      obtain ⟨hb, -, hq⟩ := (wf_cons b w q).1 hm'
      obtain rfl : a = b := Nat.le_antisymm (head_le_of_byte_eq hm' hm fun c => (h c).symm) (head_le_of_byte_eq hm hm' h)
      obtain rfl : v = w := by simpa only [byte_cons_self] using h a
      have hrest : ∀ c, byte r c = byte q c := fun c => by
        by_cases hc : a = c
        · rw [← hc, byte_of_lt r a ha, byte_of_lt q a hb]
        · simpa only [byte_cons_ne _ _ _ _ hc] using h c
      rw [ih q hr hq hrest]

/-! ### Bytes after a write, and what a read depends on -/

/-- A byte after a write of n bytes: its part of the number inside, as before outside. -/
theorem byte_write (m : Memory) (a n x b : Nat) (h : wf m = true) :
    byte (write m a n x) b = if a ≤ b ∧ b < a + n then BitVec.ofNat 8 (x / 256 ^ (b - a)) else byte m b := by
  by_cases hb : a ≤ b ∧ b < a + n
  · rw [if_pos hb, ← byte_write_inside m a n x (b - a) h (by omega), Nat.add_sub_cancel' hb.1]
  · rw [if_neg hb, byte_write_other m a n x b h (by omega)]

/-- A read takes its n bytes and nothing else. -/
theorem read_congr (m m' : Memory) (a n : Nat) (h : ∀ b, a ≤ b → b < a + n → byte m b = byte m' b) : read m a n = read m' a n := by
  induction n generalizing a with
  | zero => rfl
  | succ n ih => rw [read, read, h a (by omega) (by omega), ih (a + 1) fun b h1 h2 => h b (by omega) (by omega)]

/-- Each byte that a read takes is its part of the number read. -/
theorem ofNat_read (m : Memory) (a n i : Nat) (hi : i < n) : BitVec.ofNat 8 (read m a n / 256 ^ i) = byte m (a + i) := by
  induction n generalizing a i with
  | zero => omega
  | succ n ih =>
    have hlt : (byte m a).toNat < 256 := (byte m a).isLt
    rw [read]
    cases i with
    | zero =>
      apply BitVec.eq_of_toNat_eq
      simp only [Nat.pow_zero, Nat.div_one, BitVec.toNat_ofNat, Nat.add_zero]
      omega
    | succ i =>
      have hrest : ((byte m a).toNat + 256 * read m (a + 1) n) / 256 = read m (a + 1) n := by omega
      rw [Nat.pow_succ', ← Nat.div_div_eq_div_mul, hrest, ih (a + 1) i (by omega), Nat.add_assoc, Nat.add_comm 1]

/-! ### Writes compared -/

/-- Writing back what was read changes nothing. -/
theorem write_read_self (m : Memory) (a n : Nat) (h : wf m = true) : write m a n (read m a n) = m := by
  refine ext_byte _ _ (wf_write _ _ _ _ h) h fun b => ?_
  rw [byte_write m a n _ b h]
  split
  · next hb => rw [ofNat_read m a n (b - a) (by omega), Nat.add_sub_cancel' hb.1]
  · rfl

/-- A read of other bytes than those written finds what stood there. -/
theorem read_write_other (m : Memory) (a n x b k : Nat) (h : wf m = true) (hab : a + n ≤ b ∨ b + k ≤ a) :
    read (write m a n x) b k = read m b k :=
  read_congr _ _ _ _ fun c _ _ => byte_write_other m a n x c h (by omega)

/-- Two writes to places that do not meet can change places. -/
theorem write_comm (m : Memory) (a n x b k y : Nat) (h : wf m = true) (hab : a + n ≤ b ∨ b + k ≤ a) :
    write (write m a n x) b k y = write (write m b k y) a n x := by
  have hx := wf_write m a n x h
  have hy := wf_write m b k y h
  refine ext_byte _ _ (wf_write _ _ _ _ hx) (wf_write _ _ _ _ hy) fun c => ?_
  rw [byte_write _ b k y c hx, byte_write m a n x c h, byte_write _ a n x c hy, byte_write m b k y c h]
  by_cases hb : b ≤ c ∧ c < b + k
  · have ha : ¬ (a ≤ c ∧ c < a + n) := by omega
    rw [if_pos hb, if_neg ha, if_pos hb]
  · rw [if_neg hb, if_neg hb]

/-- The later of two writes to one place is the one that stands. -/
theorem write_write_self (m : Memory) (a n x y : Nat) (h : wf m = true) : write (write m a n x) a n y = write m a n y := by
  have hx := wf_write m a n x h
  refine ext_byte _ _ (wf_write _ _ _ _ hx) (wf_write _ _ _ _ h) fun c => ?_
  rw [byte_write _ a n y c hx, byte_write m a n x c h, byte_write m a n y c h]
  split <;> rfl

/-- Settles O11: canonical memories are determined by their bytes, and `byte_write` gives the bytes after every write. -/
theorem memoryReadsBack : Obligations.MemoryReadsBack := fun m a n x h =>
  ⟨read_write m a n x h, write_read_self m a n h,
    fun b k y hab => ⟨write_comm m a n x b k y h hab, read_write_other m a n x b k h hab⟩,
    fun y => write_write_self m a n x y h, fun m' h' => ext_byte m m' h h'⟩

end Sys2Proof.Machine.Memory
end

section
/-!
PROOFS. What an operand reads, form by form (R49, R51, R54, R71), and Put and Src of R111: both keep the value modulo 2^n, and Src
stays in the type's range, in which the value modulo 2^n names one integer.
-/
namespace Sys2Proof.Machine

/-! ### Reads of one register -/

theorem Band.readV_hold (b : Band) (fresh t n pos : Nat) (h : b.pendingV t n = true) : b.readV fresh t n pos = .error .hold := by
  simp [Band.readV, h]

theorem Band.readV_live (b : Band) (fresh t n pos : Nat) (w : Word) (h : b.pendingV t n = false) (hw : b.vreg? n t = some w) :
    b.readV fresh t n pos = .ok w := by
  simp [Band.readV, h, hw]

/-- A register whose live bit is clear reads as a free value (R54, R8). -/
theorem Band.readV_dead (b : Band) (fresh t n pos : Nat) (h : b.pendingV t n = false) (hw : b.vreg? n t = none) :
    b.readV fresh t n pos = .ok (Config.freeWord fresh t (pos * 256 + n)) := by
  simp [Band.readV, h, hw]

theorem Band.readK_hold (b : Band) (n : Nat) (h : b.pendingK n = true) : b.readK n = .error .hold := by simp [Band.readK, h]

theorem Band.readK_ready (b : Band) (n : Nat) (h : b.pendingK n = false) : b.readK n = .ok (b.kregs.getD n 0) := by simp [Band.readK, h]

theorem Band.readP_seven (b : Band) (t : Nat) : b.readP t 7 = .ok true := by simp [Band.readP]

theorem Band.readP_hold (b : Band) (t n : Nat) (hn : n ≠ 7) (h : b.pendingP t n = true) : b.readP t n = .error .hold := by
  simp [Band.readP, hn, h]

theorem Band.readP_ready (b : Band) (t n : Nat) (hn : n ≠ 7) (h : b.pendingP t n = false) :
    b.readP t n = .ok (bitOf (b.thread t).preds n) := by
  simp [Band.readP, hn, h]

/-! ### Reads of an operand -/

theorem wordsFor_narrow (w : Nat) (h : w ≤ 32) : wordsFor w = 1 := if_pos h

/-- A v operand of at most 32 bits is the low bits of its one register. -/
theorem Band.readOpnd_v_narrow (b : Band) (fresh t n pos w : Nat) (hw : w ≤ 32) :
    b.readOpnd fresh t (.v n) w pos = (b.readV fresh t n pos).map fun x => x.toNat % 2 ^ w := by
  unfold Band.readOpnd
  rw [wordsFor_narrow w hw]
  cases h : b.readV fresh t n pos <;> simp [Band.readGroup, h, bind, Except.bind, pure, Except.pure, Except.map]

/-- A word is below 2^32, so that all of it is read at 32 bits. -/
theorem Band.readOpnd_v_word (b : Band) (fresh t n pos : Nat) :
    b.readOpnd fresh t (.v n) 32 pos = (b.readV fresh t n pos).map BitVec.toNat := by
  rw [Band.readOpnd_v_narrow b fresh t n pos 32 (by omega)]
  congr 1
  exact funext fun w => Nat.mod_eq_of_lt w.isLt

/-- A v operand of 64 bits is a pair of registers, the low half first (R20). -/
theorem Band.readOpnd_v_pair (b : Band) (fresh t n pos : Nat) (l h : Word) (hl : b.readV fresh t n pos = .ok l)
    (hh : b.readV fresh t (n + 1) pos = .ok h) : b.readOpnd fresh t (.v n) 64 pos = .ok (l.toNat + 2 ^ 32 * h.toNat) := by
  have hlt : l.toNat + 2 ^ 32 * h.toNat < 2 ^ 64 := by have := l.isLt; have := h.isLt; omega
  simpa [Band.readOpnd, wordsFor, Band.readGroup, hl, hh, bind, Except.bind, pure, Except.pure] using Nat.mod_eq_of_lt hlt

/-- A k operand of 32 bits is its one register. -/
theorem Band.readOpnd_k_word (b : Band) (fresh t n pos : Nat) : b.readOpnd fresh t (.k n) 32 pos = (b.readK n).map BitVec.toNat := by
  unfold Band.readOpnd
  rw [wordsFor_narrow 32 (by omega)]
  cases h : b.readK n with
  | error e => simp [Band.readKGroup, h, bind, Except.bind, Except.map]
  | ok w => simpa [Band.readKGroup, h, bind, Except.bind, pure, Except.pure, Except.map] using Nat.mod_eq_of_lt w.isLt

/-- A k operand of 64 bits is a pair of registers, the low half first (R20). -/
theorem Band.readOpnd_k_pair (b : Band) (fresh t n pos : Nat) (l h : Word) (hl : b.readK n = .ok l) (hh : b.readK (n + 1) = .ok h) :
    b.readOpnd fresh t (.k n) 64 pos = .ok (l.toNat + 2 ^ 32 * h.toNat) := by
  have hlt : l.toNat + 2 ^ 32 * h.toNat < 2 ^ 64 := by have := l.isLt; have := h.isLt; omega
  simpa [Band.readOpnd, wordsFor, Band.readKGroup, hl, hh, bind, Except.bind, pure, Except.pure] using Nat.mod_eq_of_lt hlt

/-- A predicate operand is 0 or 1 at every width. -/
theorem Band.readOpnd_p (b : Band) (fresh t n pos w : Nat) :
    b.readOpnd fresh t (.p n) w pos = (b.readP t n).map fun v => if v then 1 else 0 := by
  cases h : b.readP t n <;> simp [Band.readOpnd, h, bind, Except.bind, pure, Except.pure, Except.map]

theorem Band.readOpnd_zero (b : Band) (fresh t pos w : Nat) : b.readOpnd fresh t .zero w pos = .ok 0 := rfl

theorem Band.readOpnd_lit (b : Band) (fresh t x pos w : Nat) : b.readOpnd fresh t (.lit x) w pos = .ok (x % 2 ^ w) := rfl

/-! ### Patterns of n bits -/

/-- The statement of O21 has powers of integers, the model powers of naturals. -/
theorem two_pow_cast (n : Nat) : (2 : Int) ^ n = ((2 ^ n : Nat) : Int) := (Int.natCast_pow 2 n).symm

theorem cast_two_pow_pos (n : Nat) : (0 : Int) < ((2 ^ n : Nat) : Int) := Int.natCast_pos.2 (Nat.two_pow_pos n)

theorem two_pow_eq_double {n : Nat} (hn : 0 < n) : 2 ^ n = 2 * 2 ^ (n - 1) := by
  rw [← Nat.pow_succ', Nat.succ_eq_add_one, Nat.sub_add_cancel hn]

theorem cast_wrap (x : Int) (n : Nat) : ((wrap x n : Nat) : Int) = x % ((2 ^ n : Nat) : Int) :=
  Int.toNat_of_nonneg (Int.emod_nonneg x (Int.ne_of_gt (cast_two_pow_pos n)))

theorem wrap_natCast (x n : Nat) : wrap (x : Int) n = x % 2 ^ n := by
  apply Int.ofNat.inj
  exact (cast_wrap x n).trans (Int.natCast_emod x (2 ^ n)).symm

theorem wrap_lt (x : Int) (n : Nat) : wrap x n < 2 ^ n := by
  apply Int.ofNat_lt.1
  rw [cast_wrap]
  exact Int.emod_lt_of_pos x (cast_two_pow_pos n)

/-- A value wrapped at n bits or more keeps its value modulo 2^n. -/
theorem wrap_emod_of_le (x : Int) {n k : Nat} (h : n ≤ k) : ((wrap x k : Nat) : Int) % ((2 ^ n : Nat) : Int) = x % ((2 ^ n : Nat) : Int) := by
  rw [cast_wrap, Int.emod_emod_of_dvd x (Int.natCast_dvd_natCast.2 (Nat.pow_dvd_pow 2 h))]

theorem cast_mod_emod (x n : Nat) : ((x % 2 ^ n : Nat) : Int) % ((2 ^ n : Nat) : Int) = (x : Int) % ((2 ^ n : Nat) : Int) := by
  rw [Int.natCast_emod, Int.emod_emod]

/-- Two's complement keeps a pattern's value modulo 2^n. -/
theorem signed_emod (x n : Nat) : signed x n % ((2 ^ n : Nat) : Int) = (x : Int) % ((2 ^ n : Nat) : Int) := by
  unfold signed
  split
  · exact cast_mod_emod x n
  · rw [Int.sub_emod_right, cast_mod_emod]

/-- Two's complement of n bits covers -2^(n-1) to 2^(n-1) - 1. -/
theorem signed_range (x : Nat) {n : Nat} (hn : 0 < n) :
    -((2 ^ (n - 1) : Nat) : Int) ≤ signed x n ∧ signed x n ≤ ((2 ^ (n - 1) : Nat) : Int) - 1 := by
  have hd := two_pow_eq_double hn
  have hlt : x % 2 ^ n < 2 ^ n := Nat.mod_lt _ (Nat.two_pow_pos n)
  unfold signed
  split <;> omega

/-! ### Src and Put (R111) -/

/-- The least value of a TI type. -/
def loTI (ti : Nat) : Int := if tiSigned ti then -(2 : Int) ^ (tiBits ti - 1) else 0

/-- The greatest value of a TI type. -/
def hiTI (ti : Nat) : Int := if tiSigned ti then (2 : Int) ^ (tiBits ti - 1) - 1 else (2 : Int) ^ tiBits ti - 1

/-- The value that Put stores: clamped to the type's range under SAT, else as it is. -/
def satTI (ti : Nat) (sat : Bool) (x : Int) : Int := if sat then min (max x (loTI ti)) (hiTI ti) else x

theorem loTI_eq (ti : Nat) : loTI ti = if tiSigned ti then -((2 ^ (tiBits ti - 1) : Nat) : Int) else 0 := by
  unfold loTI
  rw [two_pow_cast]

theorem hiTI_eq (ti : Nat) :
    hiTI ti = if tiSigned ti then ((2 ^ (tiBits ti - 1) : Nat) : Int) - 1 else ((2 ^ tiBits ti : Nat) : Int) - 1 := by
  unfold hiTI
  rw [two_pow_cast, two_pow_cast]

theorem srcTI_eq (ti x : Nat) : srcTI ti x = if tiSigned ti then signed x (tiBits ti) else ((x % 2 ^ tiBits ti : Nat) : Int) := rfl

theorem tiBits_pos (ti : Nat) : 0 < tiBits ti := by
  unfold tiBits Legal.tiBits
  split <;> omega

/-- Put keeps at least 32 bits: those of the value, or of its pattern extended by the type's sign. -/
theorem putTI_eq (ti : Nat) (sat : Bool) (x : Int) :
    putTI ti sat x = if tiBits ti < 32 then wrap (srcTI ti (wrap (satTI ti sat x) (tiBits ti))) 32 else wrap (satTI ti sat x) (tiBits ti) := by
  have hmod : wrap (satTI ti sat x) (tiBits ti) % 2 ^ tiBits ti = wrap (satTI ti sat x) (tiBits ti) := Nat.mod_eq_of_lt (wrap_lt _ _)
  rw [srcTI_eq, hmod]
  unfold satTI
  rw [loTI_eq, hiTI_eq]
  rfl

/-- Src keeps a pattern's value modulo 2^n. -/
theorem srcTI_emod (ti x : Nat) : srcTI ti x % ((2 ^ tiBits ti : Nat) : Int) = (x : Int) % ((2 ^ tiBits ti : Nat) : Int) := by
  rw [srcTI_eq]
  split
  · exact signed_emod x _
  · exact cast_mod_emod x _

/-- Src is within the type's range. -/
theorem srcTI_range (ti x : Nat) : loTI ti ≤ srcTI ti x ∧ srcTI ti x ≤ hiTI ti := by
  rw [srcTI_eq, loTI_eq, hiTI_eq]
  split
  · exact signed_range x (tiBits_pos ti)
  · have hlt : x % 2 ^ tiBits ti < 2 ^ tiBits ti := Nat.mod_lt _ (Nat.two_pow_pos _)
    omega

theorem loTI_le_hiTI (ti : Nat) : loTI ti ≤ hiTI ti := Int.le_trans (srcTI_range ti 0).1 (srcTI_range ti 0).2

/-- The range of a type of n bits holds 2^n values. -/
theorem hiTI_eq_loTI_add (ti : Nat) : hiTI ti = loTI ti + ((2 ^ tiBits ti : Nat) : Int) - 1 := by
  have hd := two_pow_eq_double (tiBits_pos ti)
  rw [loTI_eq, hiTI_eq]
  split <;> omega

/-- Two values of the range that agree modulo 2^n are equal. -/
theorem eq_of_emod_eq_of_range {ti : Nat} {y z : Int} (hy : loTI ti ≤ y ∧ y ≤ hiTI ti) (hz : loTI ti ≤ z ∧ z ≤ hiTI ti)
    (h : y % ((2 ^ tiBits ti : Nat) : Int) = z % ((2 ^ tiBits ti : Nat) : Int)) : y = z := by
  have hhi := hiTI_eq_loTI_add ti
  have hdvd : ((2 ^ tiBits ti : Nat) : Int) ∣ y - z := Int.dvd_of_emod_eq_zero (Int.emod_eq_emod_iff_emod_sub_eq_zero.1 h)
  have hsub : y - z = 0 := Int.eq_zero_of_dvd_of_natAbs_lt_natAbs hdvd (by omega)
  omega

/-- Put keeps the stored value modulo 2^n, whatever the extension into the register. -/
theorem putTI_emod (ti : Nat) (sat : Bool) (x : Int) :
    (putTI ti sat x : Int) % ((2 ^ tiBits ti : Nat) : Int) = satTI ti sat x % ((2 ^ tiBits ti : Nat) : Int) := by
  rw [putTI_eq]
  split
  · next hn => rw [wrap_emod_of_le _ (Nat.le_of_lt hn), srcTI_emod, wrap_emod_of_le _ (Nat.le_refl _)]
  · exact wrap_emod_of_le _ (Nat.le_refl _)

/-- What Src reads of a stored value agrees with it modulo 2^n. -/
theorem srcTI_putTI_emod (ti : Nat) (sat : Bool) (x : Int) :
    srcTI ti (putTI ti sat x) % ((2 ^ tiBits ti : Nat) : Int) = satTI ti sat x % ((2 ^ tiBits ti : Nat) : Int) :=
  (srcTI_emod ti _).trans (putTI_emod ti sat x)

/-- A stored value within the type's range is read back as it was. -/
theorem srcTI_putTI_of_range (ti : Nat) (sat : Bool) (x : Int) (h : loTI ti ≤ satTI ti sat x ∧ satTI ti sat x ≤ hiTI ti) :
    srcTI ti (putTI ti sat x) = satTI ti sat x :=
  eq_of_emod_eq_of_range (srcTI_range ti _) h (srcTI_putTI_emod ti sat x)

/-- Under SAT the value read back is the one clamped to the range. -/
theorem srcTI_putTI_sat (ti : Nat) (x : Int) : srcTI ti (putTI ti true x) = min (max x (loTI ti)) (hiTI ti) := by
  have hle := loTI_le_hiTI ti
  have hclamp : satTI ti true x = min (max x (loTI ti)) (hiTI ti) := rfl
  rw [srcTI_putTI_of_range ti true x (by omega), hclamp]

/-- Src takes a value of the type's range back from its pattern at any width that holds the type. -/
theorem srcTI_wrap_of_range {ti k : Nat} {z : Int} (hk : tiBits ti ≤ k) (hz : loTI ti ≤ z ∧ z ≤ hiTI ti) : srcTI ti (wrap z k) = z :=
  eq_of_emod_eq_of_range (srcTI_range ti _) hz ((srcTI_emod ti _).trans (wrap_emod_of_le z hk))

/-- The range of a signed type of at most 32 bits is within that of .s32, whose TI code is 0. -/
theorem range_s32_of_range {ti : Nat} {z : Int} (hn : tiBits ti ≤ 32) (hs : tiSigned ti = true) (hz : loTI ti ≤ z ∧ z ≤ hiTI ti) :
    loTI 0 ≤ z ∧ z ≤ hiTI 0 := by
  have hp : 2 ^ (tiBits ti - 1) ≤ 2 ^ 31 := Nat.pow_le_pow_right (by omega) (by omega)
  have hlo : loTI 0 = -2 ^ 31 := rfl
  have hhi : hiTI 0 = 2 ^ 31 - 1 := rfl
  rw [loTI_eq, hiTI_eq, hs, if_pos rfl, if_pos rfl] at hz
  omega

/-- A signed type narrower than 32 bits is sign-extended into its register. -/
theorem signed_putTI_of_narrow (ti : Nat) (sat : Bool) (x : Int) (hn : tiBits ti < 32) (hs : tiSigned ti = true) :
    signed (putTI ti sat x) 32 = srcTI ti (putTI ti sat x) := by
  have hz := srcTI_range ti (wrap (satTI ti sat x) (tiBits ti))
  rw [putTI_eq, if_pos hn, srcTI_wrap_of_range (Nat.le_of_lt hn) hz]
  exact srcTI_wrap_of_range (ti := 0) (Nat.le_refl 32) (range_s32_of_range (Nat.le_of_lt hn) hs hz)

/-- An unsigned type narrower than 32 bits is zero-extended into its register. -/
theorem putTI_lt_of_narrow (ti : Nat) (sat : Bool) (x : Int) (hn : tiBits ti < 32) (hs : tiSigned ti = false) :
    putTI ti sat x < 2 ^ tiBits ti := by
  rw [putTI_eq, if_pos hn, srcTI_eq, hs, if_neg Bool.false_ne_true, wrap_natCast]
  exact Nat.lt_of_le_of_lt (Nat.mod_le _ _) (Nat.mod_lt _ (Nat.two_pow_pos _))

/-- Settles O21: each form by its read lemma; a value put and read back by the one integer of the range that agrees with it modulo 2^n. -/
theorem operandForms : Obligations.OperandForms := by
  unfold Obligations.OperandForms
  refine ⟨⟨fun b fresh t n pos => ⟨fun hp hv => ?_, fun hp => ?_, fun hp => ?_, fun hn hp => ?_⟩,
    fun b fresh t n pos x hv hk hp => ⟨fun w hw => ?_, fun l h hl hh => ?_, ?_, fun t' => ?_, ?_, fun hn => ?_, ?_, ?_, ?_⟩⟩,
    fun ti x _ => ⟨?_, ?_, ?_, ?_, ?_, ?_⟩⟩
  · exact ⟨_, by rw [Band.readOpnd_v_word, Band.readV_dead b fresh t n pos hp hv]; rfl⟩
  · rw [Band.readOpnd_v_word, Band.readV_hold b fresh t n pos hp]; rfl
  · rw [Band.readOpnd_k_word, Band.readK_hold b n hp]; rfl
  · rw [Band.readOpnd_p, Band.readP_hold b t n hn hp]; rfl
  · have hr := b.readV_live fresh t n pos w (hv n) hw
    refine ⟨?_, ?_, ?_⟩
    · rw [Band.readOpnd_v_word, hr]; rfl
    · rw [Band.readOpnd_v_narrow b fresh t n pos 16 (by omega), hr]; rfl
    · rw [Band.readOpnd_v_narrow b fresh t n pos 8 (by omega), hr]; rfl
  · exact b.readOpnd_v_pair fresh t n pos l h (b.readV_live fresh t n pos l (hv n) hl) (b.readV_live fresh t (n + 1) pos h (hv _) hh)
  · rw [Band.readOpnd_k_word, Band.readK_ready b n (hk n)]; rfl
  · exact b.readOpnd_k_pair fresh t' n pos _ _ (b.readK_ready n (hk n)) (b.readK_ready (n + 1) (hk _))
  · rw [Band.readOpnd_p, Band.readP_seven]; rfl
  · rw [Band.readOpnd_p, Band.readP_ready b t n hn (hp n)]; rfl
  · exact b.readOpnd_zero fresh t pos 32
  · exact b.readOpnd_lit fresh t x pos 32
  · exact b.readOpnd_lit fresh t x pos 64
  · exact (srcTI_range ti _).1
  · exact (srcTI_range ti _).2
  · rw [two_pow_cast]
    exact Int.emod_eq_emod_iff_emod_sub_eq_zero.1 (srcTI_putTI_emod ti false x)
  · exact srcTI_putTI_sat ti x
  · exact fun hn hs => signed_putTI_of_narrow ti false x hn hs
  · exact fun hn hs => putTI_lt_of_narrow ti false x hn hs

end Sys2Proof.Machine
end

section
/-!
PROOFS. A code taken apart into sign, exponent field and mantissa field (R21), the exact quantum at which Round gives a code's own value back
in every mode (R29), and sums and products that do not depend on the order of their operands.
-/
namespace Sys2Proof.Machine

/-! ### The three fields of a code (R21) -/

theorem Fmt.width_sub_one (f : Fmt) : f.width - 1 = f.mant + f.expo := by unfold Fmt.width; omega

/-- The value of a sign, an exponent field and a mantissa field (R21): what decode makes of a code, by its fields. -/
def Fmt.value (f : Fmt) (neg : Bool) (ex m : Nat) : Fv :=
  if ex = 2 ^ f.expo - 1 ∧ f.hasInf = true then (if m = 0 then .inf neg else .nan)
  else if f = .e4m3 ∧ ex = 2 ^ f.expo - 1 ∧ m = 7 then .nan
  else if ex = 0 then (if m = 0 then .zero neg else .fin neg m (f.emin - (f.mant : Int)))
  else .fin neg (2 ^ f.mant + m) ((ex : Int) - (f.bias : Int) - (f.mant : Int))

theorem Fmt.decode_eq_value (f : Fmt) {a : Nat} (ha : a < 2 ^ f.width) :
    f.decode a = f.value (bitOf a (f.width - 1)) (a / 2 ^ f.mant % 2 ^ f.expo) (a % 2 ^ f.mant) := by
  simp only [Fmt.decode, Fmt.value, Nat.mod_eq_of_lt ha]

theorem Fmt.value_not (f : Fmt) (neg : Bool) (ex m : Nat) : f.value (!neg) ex m = (f.value neg ex m).neg := by
  simp only [Fmt.value, apply_ite Fv.neg]
  rfl

/-- A finite value has fields that are not those of an infinity or a NaN, and is subnormal or normal by its exponent field. -/
theorem Fmt.value_eq_fin {f : Fmt} {neg n : Bool} {ex m k : Nat} {e : Int} (h : f.value neg ex m = .fin n k e) :
    ¬(ex = 2 ^ f.expo - 1 ∧ f.hasInf = true) ∧ ¬(f = .e4m3 ∧ ex = 2 ^ f.expo - 1 ∧ m = 7) ∧ n = neg ∧
      ((ex = 0 ∧ 0 < m ∧ k = m ∧ e = f.emin - (f.mant : Int)) ∨
       (0 < ex ∧ k = 2 ^ f.mant + m ∧ e = (ex : Int) - (f.bias : Int) - (f.mant : Int))) := by
  unfold Fmt.value at h
  split at h
  next => split at h <;> cases h
  next hinf =>
    split at h
    next => cases h
    next hnan =>
      split at h
      next hex =>
        split at h
        next => cases h
        next hm =>
          cases h
          exact ⟨hinf, hnan, rfl, .inl ⟨hex, Nat.pos_of_ne_zero hm, rfl, rfl⟩⟩
      next hex =>
        cases h
        exact ⟨hinf, hnan, rfl, .inr ⟨Nat.pos_of_ne_zero hex, rfl, rfl⟩⟩

/-- A code is its sign bit and, below it, the exponent field above the mantissa field. -/
theorem Fmt.signBit_add_fields (f : Fmt) {a : Nat} (ha : a < 2 ^ f.width) :
    f.signBit (bitOf a (f.width - 1)) + (a / 2 ^ f.mant % 2 ^ f.expo * 2 ^ f.mant + a % 2 ^ f.mant) = a := by
  have hlow : a / 2 ^ f.mant % 2 ^ f.expo * 2 ^ f.mant + a % 2 ^ f.mant = a % 2 ^ (f.width - 1) := by
    rw [f.width_sub_one, Nat.pow_add, Nat.mod_mul, Nat.add_comm, Nat.mul_comm]
  have hw : 2 ^ f.width = 2 * 2 ^ (f.width - 1) := two_pow_eq_double (by unfold Fmt.width; omega)
  have htop : a / 2 ^ (f.width - 1) < 2 := (Nat.div_lt_iff_lt_mul (Nat.two_pow_pos _)).2 (hw ▸ ha)
  have hsign : f.signBit (bitOf a (f.width - 1)) = 2 ^ (f.width - 1) * (a / 2 ^ (f.width - 1)) := by
    unfold Fmt.signBit bitOf
    obtain h | h := Nat.le_one_iff_eq_zero_or_eq_one.1 (Nat.le_of_lt_succ htop)
    · simp [h]
    · simp [h]
  rw [hlow, hsign, Nat.div_add_mod]

/-- Turning the sign bit leaves the two other fields and turns the sign (R21). -/
theorem Fmt.decode_xor_signBit (f : Fmt) {b : Nat} (hb : b < 2 ^ f.width) : f.decode (b ^^^ 2 ^ (f.width - 1)) = (f.decode b).neg := by
  have hlt : b ^^^ 2 ^ (f.width - 1) < 2 ^ f.width :=
    Nat.xor_lt_two_pow hb (Nat.pow_lt_pow_right (by omega) (by unfold Fmt.width; omega))
  have hsign : bitOf (b ^^^ 2 ^ (f.width - 1)) (f.width - 1) = !bitOf b (f.width - 1) := by simp [bitOf_eq_testBit]
  have hex : (b ^^^ 2 ^ (f.width - 1)) / 2 ^ f.mant % 2 ^ f.expo = b / 2 ^ f.mant % 2 ^ f.expo := by
    rw [f.width_sub_one, Nat.xor_div_two_pow, Nat.pow_add, Nat.mul_div_cancel_left _ (Nat.two_pow_pos _), Nat.xor_mod_two_pow,
      Nat.mod_self, Nat.xor_zero]
  have hm : (b ^^^ 2 ^ (f.width - 1)) % 2 ^ f.mant = b % 2 ^ f.mant := by
    rw [f.width_sub_one, Nat.xor_mod_two_pow, Nat.pow_add, Nat.mul_mod_right, Nat.xor_zero]
  rw [f.decode_eq_value hlt, f.decode_eq_value hb, hsign, hex, hm, f.value_not]

/-- No finite value's code lies above the format's largest. -/
theorem Fmt.fields_le_maxCode {f : Fmt} {ex m : Nat} (hex : ex < 2 ^ f.expo) (hm : m < 2 ^ f.mant)
    (hinf : ¬(ex = 2 ^ f.expo - 1 ∧ f.hasInf = true)) (hnan : ¬(f = .e4m3 ∧ ex = 2 ^ f.expo - 1 ∧ m = 7)) :
    ex * 2 ^ f.mant + m ≤ f.maxCode := by
  cases f <;> simp [Fmt.expo, Fmt.mant, Fmt.hasInf, Fmt.maxCode] at * <;> omega

/-! ### Rounding at the value's own quantum (R29) -/

theorem srHash_lt (seed tid ctr : Nat) : srHash seed tid ctr < 2 ^ 32 := by
  unfold srHash
  exact Nat.xor_lt_two_pow (Nat.mod_lt _ (Nat.two_pow_pos 32)) (Nat.lt_of_le_of_lt (Nat.div_le_self _ _) (Nat.mod_lt _ (Nat.two_pow_pos 32)))

/-- H is 16 bits of the hash. -/
theorem Sr.h_lt (r : Sr) : r.h < 2 ^ 16 := Nat.div_lt_of_lt_mul (srHash_lt r.seed r.tid r.ctr)

/-- A whole number of quanta rounds to itself: nothing is discarded, and H, a fraction below one, does not carry. -/
theorem roundInt_of_whole (neg : Bool) (n : Nat) (e : Int) (mode : Nat) (r : Sr) :
    roundInt { neg := neg, n := n, e := e } e mode r = n := by
  have hsr : (n * 2 ^ 16 + r.h) / 2 ^ 16 = n := by have := r.h_lt; omega
  match mode with
  | 0 | 1 | 2 | 3 | 4 => simp [roundInt, shiftZ, Nat.mod_one]
  | _ + 5 => simpa [roundInt, shiftZ] using hsr

/-- Round of n times 2^e where 2^e is the quantum at that magnitude: the code of n quanta, if there is one. -/
theorem Fmt.round_of_quantum {f : Fmt} {neg : Bool} {n : Nat} {e : Int} (mode : Nat) (r : Sr) (hn : 0 < n) (hlt : n < 2 ^ f.p)
    (hq : max ((Nat.log2 n : Int) + e) f.emin = e + (f.mant : Int)) :
    f.round { neg := neg, n := n, e := e } mode r =
      if n < 2 ^ f.mant then f.signBit neg + n
      else if f.maxCode < (e + f.mant + f.bias).toNat * 2 ^ f.mant + (n - 2 ^ f.mant) then f.overflow neg mode
      else f.signBit neg + ((e + f.mant + f.bias).toNat * 2 ^ f.mant + (n - 2 ^ f.mant)) := by
  have hqe : e + (f.mant : Int) - (f.p : Int) + 1 = e := by unfold Fmt.p; omega
  have hp : f.p - 1 = f.mant := by unfold Fmt.p; omega
  simp only [Fmt.round, Ex.log2, hq, hqe, roundInt_of_whole, if_neg (Nat.ne_of_lt hlt), if_neg (Nat.ne_of_gt hn), hp]

theorem Fmt.round_subnormal {f : Fmt} {neg : Bool} {m : Nat} (mode : Nat) (r : Sr) (hpos : 0 < m) (hm : m < 2 ^ f.mant) :
    f.round { neg := neg, n := m, e := f.emin - (f.mant : Int) } mode r = f.signBit neg + m := by
  have hlog : Nat.log2 m < f.mant := (Nat.log2_lt (Nat.ne_of_gt hpos)).2 hm
  have hlt : m < 2 ^ f.p := Nat.lt_trans hm (Nat.pow_lt_pow_right (by omega) (Nat.lt_succ_self f.mant))
  rw [Fmt.round_of_quantum mode r hpos hlt (by omega), if_pos hm]

theorem Fmt.round_normal {f : Fmt} {neg : Bool} {ex m : Nat} (mode : Nat) (r : Sr) (hpos : 0 < ex) (hm : m < 2 ^ f.mant)
    (hmax : ex * 2 ^ f.mant + m ≤ f.maxCode) :
    f.round { neg := neg, n := 2 ^ f.mant + m, e := (ex : Int) - (f.bias : Int) - (f.mant : Int) } mode r =
      f.signBit neg + (ex * 2 ^ f.mant + m) := by
  have hlt : 2 ^ f.mant + m < 2 ^ f.p := by unfold Fmt.p; omega
  have hn : 0 < 2 ^ f.mant + m := by omega
  have hlog : Nat.log2 (2 ^ f.mant + m) = f.mant := (Nat.log2_eq_iff (Nat.ne_of_gt hn)).2 ⟨Nat.le_add_right _ _, hlt⟩
  have hfield : ((ex : Int) - (f.bias : Int) - (f.mant : Int) + f.mant + f.bias).toNat = ex := by omega
  rw [Fmt.round_of_quantum mode r hn hlt (by rw [hlog]; unfold Fmt.emin; omega), if_neg (by omega), hfield, Nat.add_sub_cancel_left,
    if_neg (Nat.not_lt.2 hmax)]

/-- The value of a format's code rounds to that code in every mode, with the one draw of .sr (R29, R33). -/
theorem roundFv_decode_of_fin {f : Fmt} {a : Nat} {n : Bool} {m : Nat} {e : Int} (mode : Nat) (r : Sr) (ha : a < 2 ^ f.width)
    (h : f.decode a = .fin n m e) : roundFv f (f.decode a) mode r = (a, drawsOf mode) := by
  have hex : a / 2 ^ f.mant % 2 ^ f.expo < 2 ^ f.expo := Nat.mod_lt _ (Nat.two_pow_pos _)
  have hm : a % 2 ^ f.mant < 2 ^ f.mant := Nat.mod_lt _ (Nat.two_pow_pos _)
  have hcode := f.signBit_add_fields ha
  obtain ⟨hinf, hnan, rfl, ⟨hzero, hpos, rfl, rfl⟩ | ⟨hpos, rfl, rfl⟩⟩ := Fmt.value_eq_fin ((f.decode_eq_value ha).symm.trans h)
  · rw [hzero, Nat.zero_mul, Nat.zero_add] at hcode
    rw [h, roundFv, Fmt.round_subnormal mode r hpos hm, hcode]
  · rw [h, roundFv, Fmt.round_normal mode r hpos hm (Fmt.fields_le_maxCode hex hm hinf hnan), hcode]

/-! ### Sums and products in either order (R132, R133) -/

/-- The common exponent of a sum is the least of its terms' exponents. -/
theorem sumTerms_exponent (l : List (Int × Int)) : (sumTerms l).2 = (l.map Prod.snd).min?.getD 0 := by
  cases l with
  | nil => rfl
  | cons t ts =>
    rw [List.map_cons, List.min?_cons', List.foldl_map]
    simp [sumTerms]

/-- The least element of a list does not depend on the list's order. -/
theorem min?_eq_of_perm {l l' : List Int} (h : l.Perm l') : l.min? = l'.min? :=
  Option.ext fun a => by simp only [List.min?_eq_some_iff, h.mem_iff]

theorem sumTerms_eq_of_perm {l l' : List (Int × Int)} (h : l.Perm l') : sumTerms l = sumTerms l' := by
  have hexp : (sumTerms l).2 = (sumTerms l').2 := by rw [sumTerms_exponent, sumTerms_exponent, min?_eq_of_perm (h.map Prod.snd)]
  refine Prod.ext ?_ hexp
  calc (sumTerms l).1 = l.foldl (fun a t => a + t.1 * (2 : Int) ^ (t.2 - (sumTerms l).2).toNat) 0 := rfl
    _ = l.foldl (fun a t => a + t.1 * (2 : Int) ^ (t.2 - (sumTerms l').2).toNat) 0 := by rw [hexp]
    _ = (sumTerms l').1 := h.foldl_eq' (fun _ _ _ _ _ => Int.add_right_comm ..) 0

/-- A sum of terms does not depend on their order: it looks only at which terms there are and at their exact sum. -/
theorem addTerms_eq_of_perm (f : Fmt) {l l' : List Fv} (h : l.Perm l') (mode : Nat) (r : Sr) : addTerms f l mode r = addTerms f l' mode r := by
  simp only [addTerms, h.contains_eq, h.any_eq, h.all_eq, sumTerms_eq_of_perm (h.filterMap _), (h.filterMap _).isEmpty_eq]

theorem Fv.mul_comm (x y : Fv) : x.mul y = y.mul x := by
  cases x <;> cases y <;> simp [Fv.mul, Fv.sign, bne_comm, Nat.mul_comm, Int.add_comm]

theorem faddEl_comm (f : Fmt) (mode : Nat) (r : Sr) (a b c : Nat) : faddEl f mode r a b c = faddEl f mode r b a c :=
  addTerms_eq_of_perm f (.swap _ _ _) mode r

theorem fmulEl_comm (f : Fmt) (mode : Nat) (r : Sr) (a b c : Nat) : fmulEl f mode r a b c = fmulEl f mode r b a c := by
  unfold fmulEl
  rw [Fv.mul_comm]

/-- FSUB adds the second operand with its sign bit turned (R133). -/
theorem fsubEl_eq_faddEl_xor (f : Fmt) (mode : Nat) (r : Sr) (a : Nat) {b : Nat} (c : Nat) (hb : b < 2 ^ f.width) :
    fsubEl f mode r a b c = faddEl f mode r a (b ^^^ 2 ^ (f.width - 1)) c := by
  unfold fsubEl faddEl
  rw [f.decode_xor_signBit hb]

/-- Settles O22: a finite code's value lies on its own quantum, sums and products take their terms in any order, and turning the sign bit negates
the value, in every format. -/
theorem roundingKeepsCodes : Obligations.RoundingKeepsCodes := fun f mode a b c r ha hb =>
  ⟨fun _ _ _ h => roundFv_decode_of_fin mode r ha h, faddEl_comm f mode r a b c, fmulEl_comm f mode r a b c,
    fun _ _ => fsubEl_eq_faddEl_xor f mode r a c hb⟩

end Sys2Proof.Machine
end

section
/-!
PROOFS. A lane's turn (R48, R268): what one slot does with the run that it offers, and that nothing that follows a run changes the issue
register, so that a run that retired ends its turn.
-/
namespace Sys2Proof.Machine

/-! ### Slot keys -/

theorem keyCore_slotKey (core : Nat) {lane slot : Nat} (hl : lane < 64) (hs : slot < 4) : keyCore (slotKey core lane slot) = core := by
  unfold keyCore slotKey; omega

theorem keyLane_slotKey (core : Nat) {lane slot : Nat} (hl : lane < 64) (hs : slot < 4) : keyLane (slotKey core lane slot) = lane := by
  unfold keyLane slotKey; omega

theorem keySlot_slotKey (core lane : Nat) {slot : Nat} (hs : slot < 4) : keySlot (slotKey core lane slot) = slot := by
  unfold keySlot slotKey; omega

/-- The issue register of an offered run, by the slot that its key names. -/
theorem issueOf_slotKey (core pc depth rep len : Nat) {lane slot : Nat} (o : Offer) (word : Word) (hl : lane < 64) (hs : slot < 4) :
    issueOf (slotKey core lane slot) pc depth o rep len word =
      { core := core, lane := lane, slot := slot, threads := o.threads, pc := pc, depth := depth, word := word, len := len, rot := o.rot,
        single := o.single, rep := rep, inRep := decide (0 < rep) } := by
  simp only [issueOf, keyCore_slotKey core hl hs, keyLane_slotKey core hl hs, keySlot_slotKey core lane hs]

/-! ### What follows a run leaves the issue register -/

@[simp] theorem State.modBand_issue (s : State) (k : Nat) (f : Band → Band) : (s.modBand k f).issue = s.issue := by
  unfold State.modBand; split <;> rfl

@[simp] theorem State.modCtx_issue (s : State) (c : Nat) (g : Ctx → Ctx) : (s.modCtx c g).issue = s.issue := by
  unfold State.modCtx; split <;> rfl

@[simp] theorem State.answerStep_issue (s : State) (ctx mst : Nat) : (s.answerStep ctx mst).issue = s.issue := State.modCtx_issue s ctx _

@[simp] theorem State.modCore_issue (s : State) (c : Nat) (f : Core → Core) : (s.modCore c f).issue = s.issue := rfl

@[simp] theorem State.stopBand_issue (s : State) (k : Nat) (f : BandFault) : (s.stopBand k f).issue = s.issue := State.modBand_issue s k _

@[simp] theorem State.armLines_issue (s : State) (k : Nat) (lines : List Nat) : (s.armLines k lines).issue = s.issue := by
  suffices h : ∀ (step : State → Nat → State) (t : State), (∀ u n, (step u n).issue = u.issue) → (lines.foldl step t).issue = t.issue from
    (h _ _ fun u n => State.modBand_issue u k _).trans (State.modBand_issue s k _)
  intro step t hstep
  induction lines generalizing t with
  | nil => rfl
  | cons n r ih => rw [List.foldl_cons, ih, hstep]

@[simp] theorem State.trackEnd_issue (s : State) (k : Nat) (x : Tracker) : (s.trackEnd k x).issue = s.issue := by
  unfold State.trackEnd
  dsimp only
  repeat' split
  all_goals simp

@[simp] theorem State.track_issue (s : State) (k : Nat) (i : Instr) (r : Run) : (s.track k i r).issue = s.issue := by
  unfold State.track
  dsimp only
  repeat' split
  all_goals simp

@[simp] theorem State.checkDivergence_issue (s : State) (k : Nat) : (s.checkDivergence k).issue = s.issue := by
  unfold State.checkDivergence; split <;> simp

@[simp] theorem State.afterWatch_issue (s0 s1 : State) (k op : Nat) : (s0.afterWatch s1 k op).issue = s1.issue := by
  unfold State.afterWatch
  dsimp only
  repeat' split
  all_goals simp

/-- Rotation, tracker, counters, watchpoints and the step's end: none of them touches the issue register. -/
@[simp] theorem State.afterRun_issue (s0 s1 : State) (k : Nat) (i : Option Instr) : (s0.afterRun s1 k i).issue = s1.issue := by
  unfold State.afterRun
  dsimp only
  repeat' split
  all_goals simp

/-! ### A run that is offered (R64, R86) -/

section Offer
variable {s t : State} {k : Nat} {b : Band} {o : Offer} {th : Thread}

/-- The words at the run's PC decode and the run retires. -/
theorem State.issueOffer_retired {i : Instr} {n : Nat} (hth : b.thread (o.threads.headD 0) = th) (hpast : b.pastEnd = false)
    (hdec : Decode.decodeAt th.pc (s.wordsFrom (keyCore k) th.pc) = .ok (i, n))
    (hexec : exec i { s with issue := issueOf k th.pc th.depth o th.rep n ((s.wordAt (keyCore k) th.pc).getD 0) } = .next t)
    (hheld : t.issue.held = false) : s.issueOffer k b o = .next (s.afterRun t k (some i)) := by
  simp only [State.issueOffer, hth, hpast, hdec, hexec, hheld, Bool.false_eq_true, if_false]

/-- The words at the run's PC decode and the run is held. -/
theorem State.issueOffer_held {i : Instr} {n op : Nat} {f : Form} (hth : b.thread (o.threads.headD 0) = th) (hpast : b.pastEnd = false)
    (hdec : Decode.decodeAt th.pc (s.wordsFrom (keyCore k) th.pc) = .ok (i, n))
    (hexec : exec i { s with issue := issueOf k th.pc th.depth o th.rep n ((s.wordAt (keyCore k) th.pc).getD 0) } = .next t)
    (hheld : t.issue.held = true) (hform : i.form? = some (op, f)) : s.issueOffer k b o = .next (s.afterWatch t k op) := by
  simp only [State.issueOffer, hth, hpast, hdec, hexec, hheld, hform, Bool.false_eq_true, if_false, if_true]

/-- The words at the run's PC do not decode, and the run takes the illegal-instruction trap. -/
theorem State.issueOffer_refused {r : Nat} {q : Nat × Word} (hth : b.thread (o.threads.headD 0) = th) (hpast : b.pastEnd = false)
    (hdec : Decode.decodeAt th.pc (s.wordsFrom (keyCore k) th.pc) = .error r) (hq : s.refusal (keyCore k) th.pc r = q)
    (htrap : State.stopRun { s with issue := { issueOf k th.pc th.depth o 0 1 q.2 with inRep := false } } (illInsn q.1 q.2) = t)
    (hheld : t.issue.held = false) : s.issueOffer k b o = .next (s.afterRun t k none) := by
  simp only [State.issueOffer, hth, hpast, hdec, hq, htrap, hheld, Bool.false_eq_true, if_false]

/-- A slot whose band may issue, has no completed band operation to issue first and stands at no breakpoint issues the run that it offers. -/
theorem State.trySlot_offer (hband : s.band? k = some b) (hmay : s.mayIssue k b = true)
    (hdone : b.stepping.isSome ∨ b.stopHolds = true ∨ b.firstDone = none) (hrun : b.nextRun = some o)
    (hbp : o.single = true ∨ s.breakpoint b (keyCore k) (b.thread (o.threads.headD 0)).pc o.threads = none)
    (hissue : s.issueOffer k b o = .next t) : s.trySlot k = (.next t, !t.issue.held) := by
  have hfirst : (if b.stepping.isNone && !b.stopHolds then b.firstDone else none) = none := by
    rcases hdone with h | h | h
    · simp [Option.isSome_iff_ne_none.1 h]
    · simp [h]
    · simp [h]
  have hhalt : (if o.single then none else s.breakpoint b (keyCore k) (b.thread (o.threads.headD 0)).pc o.threads) = none := by
    rcases hbp with h | h
    · rw [h]; rfl
    · rw [h, ite_self]
  simp only [State.trySlot, hband, hmay, hfirst, hrun, hhalt, hissue, Bool.not_true, Bool.false_eq_true, if_false]

end Offer

/-! ### The slots of a lane in order (R48) -/

theorem State.trySlots_empty (s : State) (core lane : Nat) {slots : List Nat} (h : ∀ x ∈ slots, s.band? (slotKey core lane x) = none) :
    s.trySlots core lane slots = .next s := by
  induction slots with
  | nil => rfl
  | cons x r ih =>
    have hx : s.trySlot (slotKey core lane x) = (.next s, false) := by simp [State.trySlot, h x (by simp)]
    simp only [State.trySlots, hx]
    exact ih fun y hy => h y (List.mem_cons_of_mem _ hy)

/-- A slot that issues its run ends the turn. -/
theorem State.trySlots_issued {s t : State} {core lane slot : Nat} (slots : List Nat) (h : s.trySlot (slotKey core lane slot) = (.next t, true)) :
    s.trySlots core lane (slot :: slots) = .next t := by
  simp [State.trySlots, h]

/-- A slot whose run is held leaves the turn to the slots after it. -/
theorem State.trySlots_held {s t : State} {core lane slot : Nat} (slots : List Nat) (h : s.trySlot (slotKey core lane slot) = (.next t, false)) :
    s.trySlots core lane (slot :: slots) = t.trySlots core lane slots := by
  simp [State.trySlots, h]

/-- A step whose choice is a lane's turn: the clocks advance, the lane's slots are tried, and the marks follow. -/
theorem step_turn {s t : State} {core lane : Nat} {rest : List Choice} (hag : s.agenda = .turn core lane :: rest)
    (h : (({ s with agenda := rest } : State).tick.setLane (core * 64 + lane) { s.lane (core * 64 + lane) with skip := none }).trySlots core lane
      (s.lane (core * 64 + lane)).order = .next t) : step s = .next (s.aftermath t true) := by
  have hchoice : s.choice = (some (.turn core lane), rest) := by simp [State.choice, hag]
  have hact : ({ s with agenda := rest } : State).tick.act (.turn core lane) = .next t := h
  unfold step State.choose
  simp only [hchoice, hact]
  rfl

/-- Settles O5: the first slot's run is issued as its words decode; a run that retires ends the turn, and after one that is held the other slots are tried. -/
theorem stepRunsDecoded : Obligations.StepRunsDecoded := by
  intro s core lane slot rest slots b o hag horder s1 s2 k th hlane hslot hband hmay hpast hdone hrun hbp
  have hcore : keyCore k = core := keyCore_slotKey core hlane hslot
  have hturn : ∀ t, s2.trySlots core lane (slot :: slots) = .next t → step s = .next (s.aftermath t true) := fun t h =>
    step_turn hag (horder ▸ h)
  have htry : ∀ t, s2.issueOffer k b o = .next t → s2.trySlot k = (.next t, !t.issue.held) := fun t h =>
    State.trySlot_offer hband hmay hdone hrun (hcore.symm ▸ hbp) h
  refine ⟨fun i n t hdec hexec => ?_, fun r hdec => ?_⟩
  · have hexec' : exec i { s2 with issue := issueOf k th.pc th.depth o th.rep n ((s2.wordAt (keyCore k) th.pc).getD 0) } = .next t := by
      rw [issueOf_slotKey _ _ _ _ _ _ _ hlane hslot, hcore]; exact hexec
    refine ⟨fun hheld => ?_, fun hheld op f hform => ?_⟩
    · have hissue := htry _ (State.issueOffer_retired rfl hpast (hcore.symm ▸ hdec) hexec' hheld)
      rw [State.afterRun_issue, hheld] at hissue
      exact hturn _ (State.trySlots_issued slots hissue)
    · intro u hempty
      have hissue := htry _ (State.issueOffer_held rfl hpast (hcore.symm ▸ hdec) hexec' hheld hform)
      rw [State.afterWatch_issue, hheld] at hissue
      exact hturn _ ((State.trySlots_held slots hissue).trans (State.trySlots_empty u core lane hempty))
  · intro q t hheld
    have hissue := htry _ (State.issueOffer_refused (q := q) (t := t) rfl hpast (hcore.symm ▸ hdec) (by rw [hcore])
      (by rw [issueOf_slotKey _ _ _ _ _ _ _ hlane hslot]; rfl) hheld)
    rw [State.afterRun_issue, hheld] at hissue
    exact hturn _ (State.trySlots_issued slots hissue)

end Sys2Proof.Machine
end

section
/-!
PROOFS. Instructions that read the machine and no operand (R60, R160, R179 to R182): the shared commit with values that depend on the thread
alone, and ACTV's mask by its bits.
-/
namespace Sys2Proof.Machine

/-! ### Guards (R73) -/

/-- The value of a thread's guard. -/
def Band.guardBit (b : Band) (g : Nat) (gn : Bool) (t : Nat) : Bool := (if g = 7 then true else bitOf (b.thread t).preds g) != gn

theorem Band.guard_ok {b : Band} {f : Fld} {t : Nat} {c : Bool} (h : b.guard f t = .ok c) : c = b.guardBit f.g f.gn t := by
  unfold Band.guard at h
  obtain ⟨p, hp, hc⟩ := rd_bind_ok h
  cases hc
  unfold Band.guardBit
  by_cases h7 : f.g = 7
  · rw [h7, Band.readP_seven] at hp
    cases hp
    rw [if_pos h7]
  · rw [if_neg h7]
    cases hpend : b.pendingP t f.g with
    | true => rw [Band.readP_hold b t f.g h7 hpend] at hp; cases hp
    | false => rw [Band.readP_ready b t f.g h7 hpend] at hp; cases hp; rfl

theorem filterRd_ok_eq {α : Type} {p : α → Rd Bool} {q : α → Bool} (hq : ∀ a c, p a = .ok c → c = q a) {l r : List α} (h : filterRd p l = .ok r) :
    r = l.filter q := by
  induction l generalizing r with
  | nil => cases h; rfl
  | cons a l ih =>
    unfold filterRd at h
    obtain ⟨c, hc, h⟩ := rd_bind_ok h
    obtain ⟨r', hr, h⟩ := rd_bind_ok h
    cases h
    rw [List.filter_cons, ← hq a c hc, ih hr]

/-- The guarded threads are those of the run whose guard holds. -/
theorem Band.guarded_eq_filter {b : Band} {f : Fld} {l ts : List Nat} (h : b.guarded f l = .ok ts) : ts = l.filter (b.guardBit f.g f.gn) :=
  filterRd_ok_eq (fun _ _ => Band.guard_ok) h

/-! ### Reads of no operand -/

/-- What a thread brings to a computation without operands. -/
def State.bare (s : State) (b : Band) (t : Nat) : In := { band := b, t := t, a := 0, b := 0, c := 0, fresh := s.fresh, core := s.issue.core }

theorem State.readIn_bare (s : State) (b : Band) (f : Fld) (t : Nat) : s.readIn b f 0 0 0 t = .ok (s.bare b t) := rfl

theorem mapRd_ok {α β : Type} {f : α → Rd β} {g : α → β} {l : List α} (h : ∀ a ∈ l, f a = .ok (g a)) : mapRd f l = .ok (l.map g) := by
  induction l with
  | nil => rfl
  | cons a l ih =>
    unfold mapRd
    rw [h a (by simp), ih fun x hx => h x (List.mem_cons_of_mem _ hx)]
    rfl

/-- The results of an instruction whose value looks at the thread alone and makes no draw. -/
def resultsOf (val : Nat → Nat) (ts : List Nat) : List Res := ts.map fun t => { thread := t, val := val t }

section Commit
variable {s : State} {b : Band} {f : Fld} {tg : Target} {ts : List Nat} {ins : List In}

theorem Ready.ins_bare (h : Ready s b f 0 0 0 tg ts ins) : ins = ts.map (s.bare b) := by
  have hops := h.operands
  rw [mapRd_ok (g := s.bare b) fun t _ => State.readIn_bare s b f t] at hops
  cases hops
  rfl

/-- Where a run without operands is ready, the shared operation commits its threads' values. -/
theorem Ready.perThread_bare (h : Ready s b f 0 0 0 tg ts ins) (val : Nat → Nat) :
    s.perThread f 0 0 0 tg (fun x => .ok (val x.t, 0)) = s.finish (s.commit b f 0 0 0 tg (resultsOf val ts)) := by
  have hres : mapRd (fun t => do
      let i ← s.readIn b f 0 0 0 t
      let v ← (.ok (val i.t, 0) : Rd (Nat × Nat))
      return ({ thread := t, val := v.1, draws := v.2 } : Res)) ts = .ok (resultsOf val ts) := mapRd_ok fun t _ => rfl
  unfold State.perThread State.withBand
  rw [h.band]
  show s.finish (b.guarded f s.issue.threads >>= _) = _
  rw [h.guard]
  show s.finish (if b.destPending f tg ts then _ else _) = _
  rw [h.dest]
  show s.finish (mapRd _ ts >>= _) = _
  rw [hres]
  rfl

/-- Where a run without operands is ready, its commit leaves each thread's value in its destination and keeps the rest. -/
theorem Ready.commit_bare (h : Ready s b f 0 0 0 tg ts ins) (val : Nat → Nat) :
    ∃ t b', s.commit b f 0 0 0 tg (resultsOf val ts) = .ok t ∧ Kept s t b b' f 0 0 0 tg ts ∧ Landed b' f tg ins (fun x => val x.t) ∧
      ∀ x ∈ ins, (b'.thread x.t).rndctr = ((b.thread x.t).rndctr + 0) % 2 ^ 32 := by
  obtain ⟨t, b', hnext, hkept, hland, hctr⟩ := State.perThread_next s b f 0 0 0 tg (fun x => .ok (val x.t, 0)) (fun x => (val x.t, 0)) ts ins h
    fun _ _ => rfl
  have hcommit := State.commit_next s b f 0 0 0 tg (resultsOf val ts) (by rw [resultsOf, List.length_map]; exact h.room)
  rw [h.perThread_bare, hcommit] at hnext
  cases hnext
  exact ⟨_, b', hcommit, hkept, hland, hctr⟩

end Commit

/-- Words that agree may stand for each other in a destination of registers. -/
theorem Landed.congr_words {b' : Band} {f : Fld} {n : Nat} {ins : List In} {v w : In → Nat} (h : Landed b' f (.regs n) ins v)
    (hw : ∀ x ∈ ins, ∀ i < n, wordOf (v x) i = wordOf (w x) i) : Landed b' f (.regs n) ins w := by
  unfold Landed at h ⊢
  cases hk : f.dk with
  | true =>
    simp only [hk, if_true] at h ⊢
    exact fun x hx i hi => (h x hx i hi).trans (hw x (List.mem_of_mem_head? hx) i hi)
  | false =>
    simp only [hk, Bool.false_eq_true, if_false] at h ⊢
    exact fun x hx i hi => (h x hx i hi).trans (by rw [hw x hx i hi])

/-- An instruction without operands completes where, whenever it is ready, it commits values whose words are those of its meaning. -/
theorem completes_of_commit {i : Instr} {f : Fld} {n : Nat} {value : State → In → Nat}
    (h : ∀ s b ts ins, Ready s b f 0 0 0 (.regs n) ts ins → ∃ val : Nat → Nat, exec i s = s.finish (s.commit b f 0 0 0 (.regs n) (resultsOf val ts)) ∧
      ∀ t ∈ ts, ∀ w < n, wordOf (val t) w = wordOf (value s (s.bare b t)) w) :
    Completes i { f := f, wa := 0, wb := 0, wc := 0, tg := .regs n, value := fun s x => (value s x, 0) } := by
  intro s b ts ins hready _
  obtain ⟨val, hexec, hval⟩ := h s b ts ins hready
  obtain ⟨t, b', hcommit, hkept, hland, hctr⟩ := hready.commit_bare val
  refine ⟨t, b', by rw [hexec, hcommit]; rfl, hkept, hland.congr_words ?_, hctr⟩
  intro x hx w hw
  rw [hready.ins_bare] at hx
  obtain ⟨j, hj, rfl⟩ := List.mem_map.1 hx
  exact hval j hj w hw

/-! ### SREG (R179) -/

theorem State.sregOp_ready {s : State} {b : Band} {f : Fld} {n : Nat} {ts : List Nat} {ins : List In} (hn : f.w2 % 256 ≤ 0x18)
    (hw : n = if f.w2 % 256 = 0x12 ∨ f.w2 % 256 = 0x13 then 2 else 1) (h : Ready s b f 0 0 0 (.regs n) ts ins) :
    s.sregOp f = s.finish (s.commit b f 0 0 0 (.regs n) (resultsOf (fun t => (s.sreg b (f.w2 % 256) t).getD 0) ts)) := by
  subst hw
  unfold State.sregOp State.withBand
  simp only [h.band, h.guard, h.dest, bind, Except.bind, Nat.not_lt.2 hn, if_false, Bool.false_eq_true, resultsOf]

/-- SREG completes for every number that names a register. -/
theorem sreg_completes {i : Instr} {f : Fld} {m : Sem} (hi : ∀ s, exec i s = s.sregOp f) (hm : sregSem f = some m) : Completes i m := by
  unfold sregSem at hm
  by_cases hn : f.w2 % 256 ≤ 0x18
  · simp only [hn, if_true, Option.some.injEq] at hm
    subst hm
    exact completes_of_commit fun s _ _ _ h => ⟨_, (hi s).trans (State.sregOp_ready hn rfl h), fun _ _ _ _ => rfl⟩
  · simp only [hn, if_false] at hm
    cases hm

/-! ### PERFR (R182) -/

/-- A selector that R182 numbers names a counter. -/
theorem State.perfCounter_isSome (s : State) (core sel : Nat) (h : sel ≤ 9 ∨ (0x1000 ≤ sel ∧ sel ≤ 0x1FFF ∧ sel / 64 % 4 ≠ 3)) :
    (s.perfCounter core sel).isSome = true := by
  unfold State.perfCounter
  split
  · rfl
  · split
    · rfl
    · have hsel : 0x1000 ≤ sel ∧ sel ≤ 0x1FFF ∧ sel / 64 % 4 ≠ 3 := by omega
      rw [if_pos ⟨hsel.1, hsel.2.1⟩]
      dsimp only
      split
      · next h3 => exact absurd h3 hsel.2.2
      · rfl
      · rfl

theorem perfr_ready {s : State} {b : Band} {f : FormX} {ts : List Nat} {ins : List In} {x : Nat}
    (hx : s.perfCounter s.issue.core ((viewX f).w2 % 65536) = some x) (h : Ready s b (viewX f) 0 0 0 (.regs 2) ts ins) :
    exec (.perfr f) s = s.finish (s.commit b (viewX f) 0 0 0 (.regs 2) (resultsOf (fun _ => x) ts)) := by
  show execPerfr f s = _
  unfold execPerfr State.withBand
  simp only [h.band, h.guard, h.dest, hx, bind, Except.bind, if_false, Bool.false_eq_true, resultsOf]

theorem perfr_completes {f : FormX} {m : Sem} (hm : machineReadSem (.perfr f) = some m) : Completes (.perfr f) m := by
  unfold machineReadSem at hm
  dsimp only at hm
  split at hm
  · next hsel =>
    cases hm
    refine completes_of_commit fun s b ts ins h => ?_
    obtain ⟨x, hx⟩ := Option.isSome_iff_exists.1 (s.perfCounter_isSome s.issue.core _ hsel)
    exact ⟨_, perfr_ready hx h, fun _ _ _ _ => by rw [State.bare, hx]; rfl⟩
  · cases hm

/-! ### ACTV (R160) -/

/-- The bits of a mask are its members. -/
theorem bitOf_maskOf (l : List Nat) (i : Nat) : bitOf (maskOf l) i = decide (i ∈ l) := by
  have one : ∀ m a, bitOf (if bitOf m a then m else m + 2 ^ a) i = (decide (i = a) || bitOf m i) := by
    intro m a
    cases h : bitOf m a with
    | true =>
      by_cases hi : i = a
      · simp [hi, h]
      · simp [hi]
    | false =>
      have := bitOf_replace m a i true
      simp only [h, Bool.false_eq_true, if_false, if_true, Nat.sub_zero] at this
      rw [if_neg Bool.false_ne_true, this]
      by_cases hi : i = a <;> simp [hi]
  have all : ∀ m, bitOf (l.foldl (fun m i => if bitOf m i then m else m + 2 ^ i) m) i = (decide (i ∈ l) || bitOf m i) := by
    induction l with
    | nil => simp
    | cons a r ih =>
      intro m
      rw [List.foldl_cons, ih, one]
      by_cases hi : i = a <;> simp [hi]
  rw [maskOf, all, bitOf_of_lt 0 0 i (by omega) (Nat.zero_le i), Bool.or_false]

/-- Two numbers whose low bits agree have the same words. -/
theorem wordOf_congr {x y n w : Nat} (h : ∀ i < 32 * n, bitOf x i = bitOf y i) (hw : w < n) : wordOf x w = wordOf y w := by
  unfold wordOf
  apply BitVec.eq_of_getLsbD_eq
  intro i hi
  rw [BitVec.getLsbD_ofNat, BitVec.getLsbD_ofNat, Nat.testBit_div_two_pow, Nat.testBit_div_two_pow, ← bitOf_eq_testBit, ← bitOf_eq_testBit,
    h _ (by omega)]

/-- The mask of the guarded threads, bit by bit. -/
theorem bitOf_maskOf_guarded {s : State} {b : Band} {f : Fld} {ts : List Nat} (h : b.guarded f s.issue.threads = .ok ts) {i : Nat} (hi : i < 64) :
    bitOf (maskOf ts) i = bitOf (((actvSem f).value s (s.bare b i)).1) i := by
  unfold actvSem
  rw [bitOf_maskOf, bitOf_fromBits, Band.guarded_eq_filter h]
  simp only [List.mem_filter, hi, decide_true, Bool.true_and, Bool.decide_and, Bool.decide_eq_true]
  rfl

theorem State.actvOp_ready {s : State} {b : Band} {f : Fld} {ts : List Nat} {ins : List In} (h : Ready s b f 0 0 0 (.regs 2) ts ins) :
    s.actvOp f = s.finish (s.commit b f 0 0 0 (.regs 2) (resultsOf (fun _ => maskOf ts) ts)) := by
  unfold State.actvOp State.withBand
  simp only [h.band, h.guard, h.dest, bind, Except.bind, if_false, Bool.false_eq_true, resultsOf]

theorem actv_completes {i : Instr} {f : Fld} (hi : ∀ s, exec i s = s.actvOp f) : Completes i (actvSem f) :=
  completes_of_commit fun s _ _ _ h => ⟨_, (hi s).trans (State.actvOp_ready h), fun _ _ _ hw =>
    wordOf_congr (n := 2) (fun _ hj => bitOf_maskOf_guarded h.guard hj) hw⟩

/-! ### CYCLE (R181) -/

/-- Counts handed out along a list without repeats, each by its position. -/
theorem resultsOf_zipIdx (g : Nat → Nat) {l : List Nat} (hd : l.Nodup) :
    (l.zipIdx.map fun p => ({ thread := p.1, val := g p.2 } : Res)) = resultsOf (fun t => g (l.idxOf t)) l := by
  unfold resultsOf
  apply List.ext_getElem
  · simp
  · intro n h1 h2
    have hn : n < l.length := by simpa using h2
    simp [hd.idxOf_getElem n hn]

theorem cycle_ready {s : State} {b : Band} {f : FormS} {ins : List In} (h : Ready s b (viewS f) 0 0 0 (.regs 2) s.issue.threads ins) {t : State}
    (hc : s.commit b (viewS f) 0 0 0 (.regs 2)
      (resultsOf (fun j => ((s.die (coreDie s.issue.core)).cycle + s.issue.threads.idxOf j) % 2 ^ 64) s.issue.threads) = .ok t) :
    exec (.cycle f) s = .next (t.setDie (coreDie s.issue.core)
      { s.die (coreDie s.issue.core) with cycle := (s.die (coreDie s.issue.core)).cycle + s.issue.threads.length }) := by
  rw [← resultsOf_zipIdx (fun n => ((s.die (coreDie s.issue.core)).cycle + n) % 2 ^ 64) h.distinct] at hc
  show execCycle f s = _
  unfold execCycle State.withBand
  simp only [h.band, h.dest, hc, bind, Except.bind, if_false, Bool.false_eq_true]
  rfl

/-- Settles O19: SREG, ACTV and PERFR commit values that look at no operand, and CYCLE hands its count out along the run. -/
theorem machineReadsComplete : Obligations.MachineReadsComplete := by
  refine ⟨fun i m hm => ?_, fun f s b ins h => ?_⟩
  · cases i with
    | sreg f => exact sreg_completes (fun s => rfl) hm
    | sregX f => exact sreg_completes (fun s => rfl) hm
    | actv f => cases hm; exact actv_completes fun s => rfl
    | actvX f => cases hm; exact actv_completes fun s => rfl
    | perfr f => exact perfr_completes hm
    | _ => cases hm
  · intro d
    obtain ⟨t, b', hcommit, hkept, hland, -⟩ := h.commit_bare fun j => (d.cycle + s.issue.threads.idxOf j) % 2 ^ 64
    refine ⟨t, b', cycle_ready h hcommit, hkept, fun n th hn i hi => ?_⟩
    obtain ⟨hlt, rfl⟩ := List.getElem?_eq_some_iff.1 hn
    have hx : s.bare b s.issue.threads[n] ∈ ins := by rw [h.ins_bare]; exact List.mem_map_of_mem (List.getElem_mem hlt)
    have hval := hland _ hx i hi
    dsimp only [State.bare] at hval
    rwa [h.distinct.idxOf_getElem n hlt] at hval

end Sys2Proof.Machine
end

section
/-!
PROOFS. Writes of special registers (R59, R60, R62, R63, R178 to R180): numbers and selectors that name nothing end the run, and SREGW writes one
register of the band that its run has advanced.
-/
namespace Sys2Proof.Machine

/-! ### A run that no register answers -/

theorem Band.guard_of_ready {b : Band} {f : Fld} {t : Nat} (h : f.g = 7 ∨ b.pendingP t f.g = false) : b.guard f t = .ok (b.guardBit f.g f.gn t) := by
  unfold Band.guard Band.guardBit
  by_cases h7 : f.g = 7
  · rw [h7, Band.readP_seven]; rfl
  · rw [Band.readP_ready b t f.g h7 (h.resolve_left h7), if_neg h7]; rfl

theorem filterRd_ok {α : Type} {p : α → Rd Bool} {q : α → Bool} {l : List α} (h : ∀ a ∈ l, p a = .ok (q a)) : filterRd p l = .ok (l.filter q) := by
  induction l with
  | nil => rfl
  | cons a l ih =>
    unfold filterRd
    rw [h a (by simp), ih fun x hx => h x (List.mem_cons_of_mem _ hx), List.filter_cons]
    rfl

/-- A guard that can be read for every thread of a run gives its guarded threads. -/
theorem Guarded.guarded {b : Band} {f : Fld} {l ts : List Nat} (h : Guarded b f.g f.gn l ts) : b.guarded f l = .ok ts := by
  rw [h.2]
  exact filterRd_ok fun t ht => Band.guard_of_ready (h.1 t ht)

/-- A run that ends with an illegal operand takes the trap of cause 2. -/
theorem takeTrap_of_illOpnd {s : State} {b : Band} (hb : s.band? s.issue.key = some b) : s.finish (.error illOpnd) = exec (.takeTrap { cause := 2 }) s := by
  show _ = s.withBand fun _ => _
  rw [State.withBand, hb]
  rfl

section Refused
variable {s : State} {b : Band} {ts : List Nat} {f : FormX}

/-- SREG of a number without a register (R60). -/
theorem sregX_traps (hb : s.band? s.issue.key = some b) (hg : b.guarded (viewX f) s.issue.threads = .ok ts) (hn : 0x18 < f.w2.toNat % 256) :
    exec (.sregX f) s = exec (.takeTrap { cause := 2 }) s := by
  rw [← takeTrap_of_illOpnd hb]
  show s.sregOp (viewX f) = _
  have hw : (viewX f).w2 = f.w2.toNat := rfl
  unfold State.sregOp State.withBand
  simp only [hb, hg, hw, hn, bind, Except.bind, if_true]

/-- A selector beyond those that R182 numbers names no counter. -/
theorem State.perfCounter_none (s : State) (core : Nat) {sel : Nat} (h1 : 10 ≤ sel) (h2 : sel < 0x1000 ∨ 0x2000 ≤ sel ∨ sel / 64 % 4 = 3) :
    s.perfCounter core sel = none := by
  unfold State.perfCounter
  rw [if_neg (by omega), if_neg (by omega)]
  split
  · simp only [show sel / 64 % 4 = 3 by omega]
  · rfl

/-- PERFR of a selector without a counter (R182). -/
theorem perfr_traps (hb : s.band? s.issue.key = some b) (hg : b.guarded (viewX f) s.issue.threads = .ok ts) (h1 : 10 ≤ f.w2.toNat % 65536)
    (h2 : f.w2.toNat % 65536 < 0x1000 ∨ 0x2000 ≤ f.w2.toNat % 65536 ∨ f.w2.toNat % 65536 / 64 % 4 = 3) :
    exec (.perfr f) s = exec (.takeTrap { cause := 2 }) s := by
  rw [← takeTrap_of_illOpnd hb]
  show execPerfr f s = _
  have hw : (viewX f).w2 = f.w2.toNat := rfl
  unfold execPerfr State.withBand
  simp only [hb, hg, hw, State.perfCounter_none s _ h1 h2, bind, Except.bind]

/-- SREGW of a number that is not of a register that can be written (R180). -/
theorem sregw_traps (hb : s.band? s.issue.key = some b) (hg : b.guarded (viewX f) s.issue.threads = .ok ts)
    (hn : f.w2.toNat % 256 ∉ [0x0C, 0x0D, 0x0E, 0x14]) : exec (.sregw f) s = exec (.takeTrap { cause := 2 }) s := by
  rw [← takeTrap_of_illOpnd hb]
  show execSregw f s = _
  have hw : (viewX f).w2 = f.w2.toNat := rfl
  have hnot : (!(f.w2.toNat % 256 = 0x0C || f.w2.toNat % 256 = 0x0D || f.w2.toNat % 256 = 0x0E || f.w2.toNat % 256 = 0x14)) = true := by simpa [and_assoc] using hn
  unfold execSregw State.withBand
  simp only [hb, hg, hw, hnot, bind, Except.bind, if_true]

end Refused

/-! ### A run that retires without a result -/

/-- The band that a run leaves whose last reads act and whose threads advance. -/
def Band.retireRun (b : Band) (f : Fld) (wa wb wc : Nat) (r : Run) : Band := ((b.lastReads f wa wb wc r.threads).prune []).advance r r.threads

theorem Band.retireRun_rest (b : Band) (f : Fld) (wa wb wc : Nat) (r : Run) :
    b.retireRun f wa wb wc r = { b with threads := (b.retireRun f wa wb wc r).threads, regs := (b.retireRun f wa wb wc r).regs } := by
  unfold Band.retireRun
  rw [Band.advance_rest, Band.prune_rest, Band.lastReads_rest]

theorem Band.vreg?_advance (b : Band) (r : Run) (ts : List Nat) (n j : Nat) : (b.advance r ts).vreg? n j = b.vreg? n j := by
  rw [Band.advance_rest]; rfl

theorem Band.retireRun_lastReads (b : Band) (f : Fld) (wa wb wc : Nat) (r : Run) : LastReadsOnly b (b.retireRun f wa wb wc r) f wa wb wc r.threads := by
  intro n j
  unfold Band.retireRun
  rw [Band.vreg?_advance, Band.vreg?_prune, Band.vreg?_lastReads]

/-- The band before the run's threads advance has the threads of the band. -/
theorem Band.threads_pruned (b : Band) (f : Fld) (wa wb wc : Nat) (ts keep : List Nat) : ((b.lastReads f wa wb wc ts).prune keep).threads = b.threads := by
  rw [Band.prune_rest, Band.lastReads_rest]

/-- A thread that advances has retired. -/
theorem Band.thread_advance_retired (b : Band) (r : Run) (ts : List Nat) (j : Nat) (hd : ts.Nodup) (hl : ∀ t ∈ ts, t < b.threads.length) :
    (b.advance r ts).thread j = if j ∈ ts then (b.thread j).retired r else b.thread j := by
  rw [Band.thread_advance b r ts j hd hl]
  unfold Thread.retired
  split
  · cases r.inRep <;> rfl
  · rfl

@[simp] theorem Band.length_advance (b : Band) (r : Run) (ts : List Nat) : (b.advance r ts).threads.length = b.threads.length := by
  unfold Band.advance
  split <;> simp

theorem Band.thread_retireRun {b : Band} (f : Fld) (wa wb wc : Nat) {r : Run} (j : Nat) (hd : r.threads.Nodup) (hl : ∀ t ∈ r.threads, t < b.threads.length) :
    (b.retireRun f wa wb wc r).thread j = if j ∈ r.threads then (b.thread j).retired r else b.thread j := by
  have ht : ((b.lastReads f wa wb wc r.threads).prune []).thread j = b.thread j := by unfold Band.thread; rw [Band.threads_pruned]
  unfold Band.retireRun
  rw [Band.thread_advance_retired _ _ _ _ hd (by rw [Band.threads_pruned]; exact hl), ht]

@[simp] theorem Band.length_retireRun (b : Band) (f : Fld) (wa wb wc : Nat) (r : Run) : (b.retireRun f wa wb wc r).threads.length = b.threads.length := by
  unfold Band.retireRun
  rw [Band.length_advance, Band.threads_pruned]

/-! ### SREGW (R59, R62, R63, R180) -/

/-- The operands of SREGW with their threads. -/
theorem mapRd_pairs {f : Nat → Rd Nat} {x : Nat → Nat} {ts : List Nat} (h : ∀ t ∈ ts, f t = .ok (x t)) :
    mapRd (fun t => do return (t, ← f t)) ts = .ok (ts.map fun t => (t, x t)) :=
  mapRd_ok fun t ht => by rw [h t ht]; rfl

/-- A table of a function's values over some keys. -/
theorem Tbl.get_map_pairs {ts : List Nat} (x : Nat → Nat) {t : Nat} (ht : t ∈ ts) : Tbl.get (ts.map fun t => (t, x t)) t 0 = x t := by
  suffices h : Tbl.find? (ts.map fun t => (t, x t)) t = some (x t) by rw [Tbl.get, h]; rfl
  induction ts with
  | nil => cases ht
  | cons a r ih =>
    rw [List.map_cons, Tbl.find?]
    by_cases ha : a = t
    · simp [ha]
    · rw [if_neg ha, ih ((List.mem_cons.1 ht).resolve_left fun e => ha e.symm)]

theorem bstatBad_iff (w : Nat) : bstatBad w = true ↔ 2 ^ 10 ≤ w ∨ bits w 7 5 ≠ 0 := by simp [bstatBad]

section Sregw
variable {s : State} {b : Band} {f : FormX} {t : Nat} {r : List Nat} {x : Nat → Nat}

/-- SREGW past its checks: the lowest guarded thread's operand, or each thread's own, goes to the register that the number names. -/
theorem sregw_eq (hb : s.band? s.issue.key = some b) (hg : b.guarded (viewX f) s.issue.threads = .ok (t :: r))
    (hx : ∀ j ∈ t :: r, b.readOpnd s.fresh j (viewX f).a 32 1 = .ok (x j)) (b1 : Band) (hb1 : b.retireRun (viewX f) 32 0 0 s.issue = b1) :
    (f.w2.toNat % 256 = 0x0C → exec (.sregw f) s = s.finish (if bstatBad (x t) then .error illOpnd else
      .ok (s.putBand { b1 with mx := b1.mx && !bitOf (x t) 9, qov := b1.qov && !bitOf (x t) 8 }))) ∧
    (f.w2.toNat % 256 = 0x0D → exec (.sregw f) s = .next (s.putBand { b1 with rndseed := x t })) ∧
    (f.w2.toNat % 256 = 0x0E → exec (.sregw f) s = .next (s.putBand (b1.modThreads (t :: r) fun j th =>
      { th with rndctr := Tbl.get ((t :: r).map fun j => (j, x j)) j 0 }))) ∧
    (f.w2.toNat % 256 = 0x14 → exec (.sregw f) s = .next ((s.putBand b1).modFlight b.flight fun fl => { fl with starve := min (max (x t) 4096) (2 ^ 22) })) := by
  have hw : (viewX f).w2 = f.w2.toNat := rfl
  have hvals := mapRd_pairs hx
  simp only [bind, Except.bind] at hvals
  unfold Band.retireRun at hb1
  have hexec : exec (.sregw f) s = execSregw f s := rfl
  rw [hexec]
  unfold execSregw State.withBand
  refine ⟨fun hn => ?_, fun hn => ?_, fun hn => ?_, fun hn => ?_⟩
  all_goals
    simp only [hb, hg, hw, hn, hvals, hb1, bind, Except.bind]
    rfl

end Sregw
/-- Settles O20: a number or selector that names nothing, and ones in BSTAT's other fields, end the run with an illegal operand; every other SREGW writes
its register of the band that the run has advanced. -/
theorem specialRegisterWrites : Obligations.SpecialRegisterWrites := by
  refine ⟨fun s b f ts hb hg => ?_, fun f s b ts x hruns hg hne hx => ?_⟩
  · exact ⟨sregX_traps hb hg.guarded, perfr_traps hb hg.guarded, sregw_traps hb hg.guarded⟩
  · intro n x0
    obtain ⟨t, r, rfl⟩ := List.exists_cons_of_ne_nil hne
    have hb := hruns.band
    obtain ⟨hbstat, hseed, hctr, hstarve⟩ := sregw_eq hb hg.guarded hx _ rfl
    have hsub : ∀ j ∈ t :: r, j < b.threads.length := fun j hj => hruns.inBand j (List.mem_filter.1 (hg.2 ▸ hj)).1
    have hnodup : (t :: r).Nodup := hg.2 ▸ hruns.distinct.filter _
    refine ⟨fun hn hbad => ?_, b.retireRun (viewX f) 32 0 0 s.issue, Band.retireRun_rest .., Band.retireRun_lastReads b _ _ _ _ _,
      fun j => Band.thread_retireRun _ _ _ _ j hruns.distinct hruns.inBand, fun hn hlt hzero => ?_, hseed, fun hn => ⟨_, hctr hn, ?_, fun j => ?_⟩,
      fun hn fl hfl => ?_⟩
    · rw [hbstat hn, if_pos ((bstatBad_iff (x t)).2 hbad), takeTrap_of_illOpnd hb]
    · rw [hbstat hn, if_neg fun h => ((bstatBad_iff (x t)).1 h).elim (Nat.not_le.2 hlt) fun h => h hzero]
      rfl
    · exact Band.modThreads_rest _ _ _
    · rw [Band.thread_modThreads _ _ _ _ hnodup, Band.length_retireRun]
      by_cases hj : j ∈ t :: r
      · simp only [hj, hsub j hj, and_self, if_true, Tbl.get_map_pairs x hj]
      · simp only [hj, false_and, if_false]
    · refine ⟨min (max (x t) 4096) (2 ^ 22), by omega, by omega, fun h1 h2 => ?_, ?_⟩
      · exact (congrArg (min · (2 ^ 22)) (Nat.max_eq_left h1)).trans (Nat.min_eq_left h2)
      · rw [hstarve hn, State.modFlight, State.flight?_putBand, hfl]
        rfl

end Sys2Proof.Machine
end

section
/-!
PROOFS. The end of threads (R55, R170, R171): what ends in the band, in one lemma over any keep set; where nothing waits on the threads the machine
changes by that band and its flight's count alone, and the band then stays, leaves its slot or restarts.
-/
namespace Sys2Proof.Machine

/-! ### Entries set twice -/

theorem Tbl.put_put {α : Type} (t : Tbl α) (k : Nat) (v w : α) : Tbl.put (Tbl.put t k v) k w = Tbl.put t k w := by
  induction t with
  | nil => simp [Tbl.put]
  | cons p r ih =>
    obtain ⟨j, x⟩ := p
    rw [Tbl.put]
    by_cases h1 : k < j
    · simp [Tbl.put, h1]
    · by_cases h2 : k = j
      · simp [Tbl.put, h2]
      · simp [Tbl.put, h1, h2, ih]

theorem State.modBand_of {s : State} {k : Nat} {b : Band} (f : Band → Band) (h : s.band? k = some b) : s.modBand k f = s.setBand k (f b) := by
  simp [State.modBand, h]

theorem State.modFlight_of {s : State} {n : Nat} {fl : Flight} (g : Flight → Flight) (h : s.flight? n = some fl) :
    s.modFlight n g = { s with flights := Tbl.put s.flights n (g fl) } := by
  simp [State.modFlight, h]

/-! ### The threads of a band by their indexes -/

theorem Band.thread_eq_getElem (b : Band) {j : Nat} (hj : j < b.threads.length) : b.thread j = b.threads[j] := by
  rw [Band.thread, List.getD_eq_getElem?_getD, List.getElem?_eq_getElem hj]
  rfl

theorem Band.forall_threads_iff (b : Band) (p : Thread → Prop) : (∀ th ∈ b.threads, p th) ↔ ∀ j < b.threads.length, p (b.thread j) := by
  rw [List.forall_mem_iff_forall_getElem]
  constructor
  · intro h j hj
    rw [b.thread_eq_getElem hj]
    exact h j hj
  · intro h j hj
    rw [← b.thread_eq_getElem hj]
    exact h j hj

theorem Band.allExited_iff (b : Band) : b.allExited = true ↔ ∀ j < b.threads.length, (b.thread j).state = .exited := by
  rw [← Band.forall_threads_iff b fun th => th.state = .exited]
  simp [Band.allExited]

/-- A band with no thread at a band operation has none to complete. -/
theorem Band.evalInstances_of_none {b : Band} (h : ∀ j < b.threads.length, (b.thread j).state ≠ .atOp) : b.evalInstances = b := by
  have hnone : b.instances = [] := by
    unfold Band.instances
    rw [List.filterMap_eq_nil_iff.2]
    · rfl
    · intro th hth
      have := (Band.forall_threads_iff b fun th => th.state ≠ .atOp).2 h th hth
      split
      · next hst _ => exact absurd hst this
      · rfl
  rw [Band.evalInstances, hnone]
  rfl

/-! ### What ends in a band -/

/-- A thread's entries dropped, but for the names kept. -/
def Band.dropEntries (keep : Nat → Bool) (b : Band) (t : Nat) : Band :=
  { b with regs := b.regs.map fun r => if keep r.name then r else { r with vals := Tbl.del r.vals t } }

theorem Band.foldl_dropEntries_rest (keep : Nat → Bool) (ts : List Nat) (b : Band) :
    ts.foldl (Band.dropEntries keep) b = { b with regs := (ts.foldl (Band.dropEntries keep) b).regs } := by
  induction ts generalizing b with
  | nil => rfl
  | cons t r ih => rw [List.foldl_cons, ih]; rfl

theorem Band.vreg?_dropEntries (keep : Nat → Bool) (b : Band) (t n j : Nat) :
    (b.dropEntries keep t).vreg? n j = if j = t ∧ keep n = false then none else b.vreg? n j := by
  unfold Band.dropEntries Band.vreg?
  simp only
  induction b.regs with
  | nil => simp
  | cons r l ih =>
    rw [List.map_cons, List.findSome?_cons, List.findSome?_cons, ih]
    by_cases hn : r.name = n
    · subst hn
      cases hk : keep r.name with
      | true => simp
      | false =>
        by_cases hj : j = t <;> simp [hj, Tbl.find?_del]
    · cases keep r.name <;> simp [hn]

theorem Band.vreg?_foldl_dropEntries (keep : Nat → Bool) (ts : List Nat) (b : Band) (n j : Nat) :
    (ts.foldl (Band.dropEntries keep) b).vreg? n j = if j ∈ ts ∧ keep n = false then none else b.vreg? n j := by
  induction ts generalizing b with
  | nil => simp
  | cons t r ih =>
    rw [List.foldl_cons, ih, Band.vreg?_dropEntries]
    by_cases hj : j = t <;> by_cases hk : keep n = false <;> simp [hj, hk]

/-- A thread that has ended: in STATE 5, parked nowhere, with no acquire to come. -/
def Thread.gone (th : Thread) : Thread := { th with state := .exited, park := .none, acqs := [] }

/-- A band of which threads have ended. -/
def Band.ended (b : Band) (ts : List Nat) (keep : Nat → Bool) : Band :=
  let b1 := ((ts.foldl (Band.dropEntries keep) (b.modThreads ts fun _ => Thread.gone)).leaveDone ts).prune []
  if ts.any fun t => bitOf b1.tracker.tmask t then b1.resetTracker else b1

theorem Band.leaveDone_of_nil {b : Band} (h : b.done = []) (ts : List Nat) : b.leaveDone ts = b := by
  cases b
  simp only at h
  subst h
  simp [Band.leaveDone]

/-- Where no completed band operation waits to issue, threads and entries go and at most the tracker resets. -/
theorem Band.ended_eq {b : Band} (ts : List Nat) (keep : Nat → Bool) (hdone : b.done = []) :
    ∃ x : Tracker, b.ended ts keep = { (ts.foldl (Band.dropEntries keep) (b.modThreads ts fun _ => Thread.gone)).prune [] with tracker := x } := by
  have hd : (ts.foldl (Band.dropEntries keep) (b.modThreads ts fun _ => Thread.gone)).done = [] := by
    rw [Band.foldl_dropEntries_rest, Band.modThreads_rest]; exact hdone
  unfold Band.ended
  rw [Band.leaveDone_of_nil hd]
  dsimp only
  split
  · exact ⟨{}, rfl⟩
  · exact ⟨_, rfl⟩

section Ended
variable {b : Band} (ts : List Nat) (keep : Nat → Bool) (hdone : b.done = [])
include hdone

theorem Band.ended_rest :
    b.ended ts keep = { b with threads := (b.ended ts keep).threads, regs := (b.ended ts keep).regs, tracker := (b.ended ts keep).tracker } := by
  obtain ⟨x, hx⟩ := Band.ended_eq ts keep hdone
  rw [hx, Band.prune_rest, Band.foldl_dropEntries_rest, Band.modThreads_rest]

theorem Band.threads_ended : (b.ended ts keep).threads = (b.modThreads ts fun _ => Thread.gone).threads := by
  obtain ⟨x, hx⟩ := Band.ended_eq ts keep hdone
  rw [hx, Band.prune_rest, Band.foldl_dropEntries_rest]

theorem Band.thread_ended (hd : ts.Nodup) (hl : ∀ t ∈ ts, t < b.threads.length) (j : Nat) :
    (b.ended ts keep).thread j = if j ∈ ts then (b.thread j).gone else b.thread j := by
  have hth : (b.ended ts keep).thread j = (b.modThreads ts fun _ => Thread.gone).thread j := by
    unfold Band.thread; rw [Band.threads_ended ts keep hdone]
  rw [hth, Band.thread_modThreads _ _ _ _ hd]
  by_cases hj : j ∈ ts
  · rw [if_pos ⟨hj, hl j hj⟩, if_pos hj]
  · rw [if_neg fun h => hj h.1, if_neg hj]

theorem Band.length_ended : (b.ended ts keep).threads.length = b.threads.length := by
  rw [Band.threads_ended ts keep hdone, Band.length_modThreads]

/-- The live bits that ended threads lose, but for the names kept (R55, R171). -/
theorem Band.vreg?_ended (n j : Nat) : (b.ended ts keep).vreg? n j = if j ∈ ts ∧ keep n = false then none else b.vreg? n j := by
  obtain ⟨x, hx⟩ := Band.ended_eq ts keep hdone
  have hv : (b.modThreads ts fun _ => Thread.gone).vreg? n j = b.vreg? n j := by rw [Band.modThreads_rest]; rfl
  rw [hx]
  show (Band.prune _ []).vreg? n j = _
  rw [Band.vreg?_prune, Band.vreg?_foldl_dropEntries, hv]

end Ended

/-! ### What ends in the machine -/

/-- A flight with a roster of no record: nothing of the machine is withdrawn from (R261, R346). -/
theorem State.withdraw_of_nil {s : State} {flight : Nat} {fl : Flight} (h : s.flight? flight = some fl) (hr : fl.roster = []) (team tidx : Nat) :
    s.withdraw flight team tidx = s := by
  simp [State.withdraw, h, hr]

theorem State.foldl_withdraw_of_nil {s : State} {flight : Nat} {fl : Flight} (h : s.flight? flight = some fl) (hr : fl.roster = []) (team : Nat)
    (tidx : Nat → Nat) (l : List Nat) : l.foldl (fun s t => s.withdraw flight team (tidx t)) s = s := by
  induction l with
  | nil => rfl
  | cons t r ih => rw [List.foldl_cons, State.withdraw_of_nil h hr, ih]

theorem State.leaveEcalls_of_nil {s : State} (h : s.ecalls = []) (b : Band) (ts : List Nat) : s.leaveEcalls b ts = s := by
  unfold State.leaveEcalls
  rw [h, List.map_nil, ← h]

/-- What the end of threads of a band needs so that it changes the band and its flight's count alone: its flight has no record on its roster and no
service is pending, and of the band none of those threads has ended, none is parked at a band operation and no completed one waits to issue; it is no task band. -/
structure Lone (s : State) (b : Band) (fl : Flight) (ts : List Nat) : Prop where
  flight : s.flight? b.flight = some fl
  roster : fl.roster = []
  ecalls : s.ecalls = []
  atOp : ∀ j < b.threads.length, (b.thread j).state ≠ .atOp
  done : b.done = []
  team : b.team < 0x80000000
  distinct : ts.Nodup
  inBand : ∀ t ∈ ts, t < b.threads.length
  live : ∀ t ∈ ts, (b.thread t).state ≠ .exited

section Lone
variable {s : State} {b : Band} {fl : Flight} {ts : List Nat} {k : Nat}

/-- The machine after threads of a band have ended, before what their band's end brings. -/
def State.endedIn (s : State) (k : Nat) (b : Band) (fl : Flight) (ts : List Nat) (keep : Nat → Bool) : State :=
  { s with bands := Tbl.put s.bands k (b.ended ts keep), flights := Tbl.put s.flights b.flight { fl with exited := fl.exited + ts.length } }

theorem State.band?_endedIn (keep : Nat → Bool) : (s.endedIn k b fl ts keep).band? k = some (b.ended ts keep) := Tbl.find?_put_self _ _ _

theorem Lone.atOp_ended (h : Lone s b fl ts) (keep : Nat → Bool) : ∀ j < (b.ended ts keep).threads.length, ((b.ended ts keep).thread j).state ≠ .atOp := by
  intro j hj
  rw [Band.length_ended ts keep h.done] at hj
  rw [Band.thread_ended ts keep h.done h.distinct h.inBand]
  split
  · exact TState.noConfusion
  · exact h.atOp j hj

theorem Lone.modFlight_ended (h : Lone s b fl ts) (keep : Nat → Bool) :
    ((s.setBand k (b.ended ts keep)).modFlight b.flight fun f => if isTask b.team then f else { f with exited := f.exited + ts.length }) =
      s.endedIn k b fl ts keep := by
  have htask : isTask b.team = false := by simp [isTask, h.team]
  rw [State.modFlight_of (fl := fl) _ (by rw [State.flight?_setBand]; exact h.flight), htask]
  rfl

/-- The end of such threads: their band's, their flight's count, and what their band's end brings. -/
theorem State.endThreads_of_lone (hb : s.band? k = some b) (h : Lone s b fl ts) (keep : Nat → Bool) :
    s.endThreads k ts keep = (s.endedIn k b fl ts keep).bandEnded k := by
  have hlive : ts.filter (fun t => decide ((b.thread t).state ≠ .exited)) = ts := List.filter_eq_self.2 fun t ht => by simpa using h.live t ht
  have hunfold : s.endThreads k ts keep = ((((ts.foldl (fun s t => s.withdraw b.flight b.team (b.thread t).tidx)
      ((s.setBand k (b.ended ts keep)).modFlight b.flight fun f => if isTask b.team then f else { f with exited := f.exited + ts.length })).leaveEcalls
        b ts).modBand k Band.evalInstances).bandEnded k) := by
    unfold State.endThreads
    rw [hb]
    dsimp only
    rw [hlive]
    rfl
  have hflight : (s.endedIn k b fl ts keep).flight? b.flight = some { fl with exited := fl.exited + ts.length } := Tbl.find?_put_self _ _ _
  have hset : (s.endedIn k b fl ts keep).setBand k (b.ended ts keep) = s.endedIn k b fl ts keep := by
    unfold State.setBand State.endedIn
    rw [Tbl.put_put]
  rw [hunfold, h.modFlight_ended, State.foldl_withdraw_of_nil hflight h.roster, State.leaveEcalls_of_nil (s := s.endedIn k b fl ts keep) h.ecalls,
    State.modBand_of _ (State.band?_endedIn keep), Band.evalInstances_of_none (h.atOp_ended keep), hset]

end Lone

/-! ### What the end of a band's threads brings (R170, R171) -/

section BandEnded
variable {s : State} {b : Band} {k : Nat}

/-- While a thread lives its band stays. -/
theorem State.bandEnded_stays (hb : s.band? k = some b) (h : ∃ j < b.threads.length, (b.thread j).state ≠ .exited) : s.bandEnded k = s := by
  have hlive : b.allExited = false := by
    obtain ⟨j, hj, hne⟩ := h
    exact Bool.eq_false_iff.2 fun hall => hne (b.allExited_iff.1 hall j hj)
  simp [State.bandEnded, hb, hlive]

theorem State.modTeam_keeps (s : State) (flight team : Nat) (g : Team → Team) :
    (s.modTeam flight team g).bands = s.bands ∧ (s.modTeam flight team g).mem = s.mem := by
  unfold State.modTeam State.modFlight
  split <;> exact ⟨rfl, rfl⟩

theorem State.freeTeam_keeps (s : State) (flight team : Nat) (place : Place) :
    (s.freeTeam flight team place).bands = s.bands ∧ (s.freeTeam flight team place).mem = s.mem := by
  unfold State.freeTeam
  split
  · exact State.modTeam_keeps _ _ _ _
  · exact State.modTeam_keeps _ _ _ _

/-- A band without a successor leaves its slot: no other slot's band changes, and no memory. -/
theorem State.bandEnded_leaves (hb : s.band? k = some b) (h : ∀ j < b.threads.length, (b.thread j).state = .exited) (hsucc : b.succ = none)
    (htask : b.task = none) : (s.bandEnded k).bands = Tbl.del s.bands k ∧ (s.bandEnded k).mem = s.mem := by
  have hend : s.bandEnded k = s.leaveSlot k b := by simp [State.bandEnded, hb, b.allExited_iff.2 h, hsucc, htask]
  rw [hend]
  unfold State.leaveSlot
  dsimp only
  split
  · exact State.freeTeam_keeps _ _ _ _
  · exact ⟨rfl, rfl⟩

/-- A band with a successor restarts. -/
theorem State.bandEnded_restarts {su : Succ} (hb : s.band? k = some b) (h : ∀ j < b.threads.length, (b.thread j).state = .exited) (hsucc : b.succ = some su) :
    s.bandEnded k = s.restart k b su := by
  simp [State.bandEnded, hb, b.allExited_iff.2 h, hsucc]

end BandEnded

/-- The program counter at which a loaded overlay's word stands (R227). -/
theorem State.entryPc_of_slot {s : State} {core ovid sl : Nat} (off : Nat) (h : (s.core core).slotOf? ovid = some sl) : s.entryPc core ovid off = sl * 16384 + off := by
  simp [State.entryPc, h]

theorem State.rejoin_keeps (s : State) (b : Band) : (s.rejoin b).mem = s.mem := by
  unfold State.rejoin State.modFlight
  split <;> rfl

/-- A band that stands restarted at a program counter, as its registers and threads say (R171). -/
structure RestartedAt (b b' : Band) (pc : Nat) : Prop where
  succ : b'.succ = none
  kregs : b'.kregs = b.kregs
  quota : b'.quota = b.quota
  rndseed : b'.rndseed = b.rndseed
  length : b'.threads.length = b.threads.length
  threads : ∀ j < b.threads.length, (b'.thread j).state = .ready ∧ (b'.thread j).depth = 0 ∧ (b'.thread j).pc = pc ∧ (b'.thread j).preds = 0 ∧
    (b'.thread j).rndctr = 0 ∧ (b'.thread j).tidx = (b.thread j).tidx

theorem State.restart_spec (s : State) (k : Nat) (b : Band) {su : Succ} {sl : Nat} (hsl : (s.core (keyCore k)).slotOf? su.ovid = some sl) :
    ∃ b', (s.restart k b su).band? k = some b' ∧ (s.restart k b su).mem = s.mem ∧ RestartedAt b b' (sl * 16384 + su.off) := by
  unfold State.restart
  refine ⟨_, Tbl.find?_put_self _ _ _, State.rejoin_keeps s b, rfl, rfl, rfl, rfl, by simp, fun j hj => ?_⟩
  unfold Band.thread
  simp [hj, State.entryPc_of_slot su.off hsl]

/-- A restart looks at nothing of the threads but that they keep their numbers. -/
theorem RestartedAt.of_ended {b b' : Band} {fl : Flight} {s : State} {ts : List Nat} {keep : Nat → Bool} {pc : Nat} (h : Lone s b fl ts)
    (hr : RestartedAt (b.ended ts keep) b' pc) : RestartedAt b b' pc := by
  have hrest := Band.ended_rest ts keep h.done
  have hlen := Band.length_ended ts keep h.done
  refine ⟨hr.succ, by rw [hr.kregs, hrest], by rw [hr.quota, hrest], by rw [hr.rndseed, hrest], hr.length.trans hlen, fun j hj => ?_⟩
  obtain ⟨hstate, hdepth, hpc, hpreds, hctr, htidx⟩ := hr.threads j (hlen.symm ▸ hj)
  refine ⟨hstate, hdepth, hpc, hpreds, hctr, ?_⟩
  rw [htidx, Band.thread_ended ts keep h.done h.distinct h.inBand]
  split <;> rfl

/-! ### EXIT (R170, R171) -/

/-- Threads have ended and their band stays: STATE 5 and no live bit but of kept names for those, the others of the run advanced, and nothing else but
the band's tracker and successor and its flight's count. -/
def EndsThreads (s : State) (b : Band) (fl : Flight) (t : State) (b' : Band) (gone : List Nat) (keep : Nat → Prop) : Prop :=
  t = { s with bands := Tbl.put s.bands s.issue.key b', flights := Tbl.put s.flights b.flight { fl with exited := fl.exited + gone.length } } ∧
  b' = { b with threads := b'.threads, regs := b'.regs, tracker := b'.tracker, succ := b'.succ } ∧
  (∀ j, b'.thread j = if j ∈ gone then { b.thread j with state := .exited, park := .none, acqs := [] }
    else if j ∈ s.issue.threads then (b.thread j).retired s.issue else b.thread j) ∧
  ∀ n j, (j ∈ gone → ¬ keep n → b'.vreg? n j = none) ∧ ((j ∉ gone ∨ keep n) → b'.vreg? n j = b.vreg? n j)

/-- A band whose run advances but for the threads that are about to end, with its successor. -/
structure Passing (s : State) (b b2 : Band) (gone : List Nat) : Prop where
  rest : b2 = { b with threads := b2.threads, regs := b2.regs, succ := b2.succ }
  length : b2.threads.length = b.threads.length
  vregs : ∀ n j, b2.vreg? n j = b.vreg? n j
  threads : ∀ j, b2.thread j = if j ∈ gone then b.thread j else if j ∈ s.issue.threads then (b.thread j).retired s.issue else b.thread j

theorem Thread.retired_state (r : Run) (th : Thread) : (th.retired r).state = th.state := by
  unfold Thread.retired
  split <;> rfl

section Passing
variable {s : State} {b b2 : Band} {fl : Flight} {gone : List Nat} {keep : Nat → Bool} {K : Nat → Prop}

theorem Passing.state_eq (hp : Passing s b b2 gone) (j : Nat) : (b2.thread j).state = (b.thread j).state := by
  rw [hp.threads]
  split
  · rfl
  · split
    · exact Thread.retired_state _ _
    · rfl

theorem Passing.withSucc (hp : Passing s b b2 gone) (su : Option Succ) : Passing s b { b2 with succ := su } gone :=
  ⟨by rw [hp.rest], hp.length, hp.vregs, hp.threads⟩

/-- A run all of whose threads are about to end. -/
theorem Passing.refl (s : State) (b : Band) : Passing s b b s.issue.threads :=
  ⟨rfl, rfl, fun _ _ => rfl, fun j => by split <;> rfl⟩

/-- The threads of a run that end may do so after the others have advanced. -/
theorem Lone.passing (h : Lone s b fl gone) (hp : Passing s b b2 gone) : Lone (s.putBand b2) b2 fl gone where
  flight := by rw [hp.rest]; exact h.flight
  roster := h.roster
  ecalls := h.ecalls
  atOp j hj := by rw [hp.state_eq]; exact h.atOp j (hp.length ▸ hj)
  done := by rw [hp.rest]; exact h.done
  team := by rw [hp.rest]; exact h.team
  distinct := h.distinct
  inBand t ht := by rw [hp.length]; exact h.inBand t ht
  live t ht := by rw [hp.state_eq]; exact h.live t ht

theorem Passing.ends (hp : Passing s b b2 gone) (h : Lone s b fl gone) (hK : ∀ n, keep n = true ↔ K n) :
    EndsThreads s b fl (s.endedIn s.issue.key b2 fl gone keep) (b2.ended gone keep) gone K := by
  obtain ⟨hflight, hdone⟩ : b2.flight = b.flight ∧ b2.done = [] := ⟨by rw [hp.rest], by rw [hp.rest]; exact h.done⟩
  have hin : ∀ t ∈ gone, t < b2.threads.length := fun t ht => by rw [hp.length]; exact h.inBand t ht
  refine ⟨by rw [State.endedIn, hflight], ?_, fun j => ?_, fun n j => ?_⟩
  · rw [Band.ended_rest gone keep hdone, hp.rest]
  · rw [Band.thread_ended gone keep hdone h.distinct hin, hp.threads]
    by_cases hj : j ∈ gone
    · simp only [hj, if_true]; rfl
    · simp only [hj, if_false]
  · rw [Band.vreg?_ended gone keep hdone, hp.vregs]
    refine ⟨fun hj hn => if_pos ⟨hj, Bool.eq_false_iff.2 fun hk => hn ((hK n).1 hk)⟩, fun hkeep => if_neg fun hd => ?_⟩
    rcases hkeep with hj | hn
    · exact hj hd.1
    · exact Bool.false_ne_true (hd.2.symm.trans ((hK n).2 hn))

/-- Setting the band first leaves the same machine after its threads have ended. -/
theorem State.endedIn_putBand (s : State) (b2 : Band) (fl : Flight) (gone : List Nat) (keep : Nat → Bool) :
    (s.putBand b2).endedIn s.issue.key b2 fl gone keep = s.endedIn s.issue.key b2 fl gone keep := by
  unfold State.endedIn State.putBand State.setBand
  rw [Tbl.put_put]

/-- Threads of a run end while another thread of their band lives. -/
theorem Passing.endThreads (hp : Passing s b b2 gone) (h : Lone s b fl gone) (hK : ∀ n, keep n = true ↔ K n)
    (hstay : ∃ j < b.threads.length, j ∉ gone ∧ (b.thread j).state ≠ .exited) {s2 : State} (hb : s2.band? s.issue.key = some b2) (h2 : Lone s2 b2 fl gone)
    (hs2 : s2.endedIn s.issue.key b2 fl gone keep = s.endedIn s.issue.key b2 fl gone keep) :
    ∃ t b', s2.endThreads s.issue.key gone keep = t ∧ EndsThreads s b fl t b' gone K ∧ b'.succ = b2.succ := by
  obtain ⟨j, hj, hnot, hlive⟩ := hstay
  refine ⟨_, _, ?_, hp.ends h hK, by rw [Band.ended_rest gone keep h2.done]⟩
  rw [State.endThreads_of_lone hb h2, hs2, State.bandEnded_stays (State.band?_endedIn keep)]
  refine ⟨j, by rw [Band.length_ended gone keep h2.done, hp.length]; exact hj, ?_⟩
  rw [Band.thread_ended gone keep h2.done h2.distinct h2.inBand, if_neg hnot, hp.state_eq]
  exact hlive

theorem Passing.endThreads_putBand (hp : Passing s b b2 gone) (h : Lone s b fl gone) (hK : ∀ n, keep n = true ↔ K n)
    (hstay : ∃ j < b.threads.length, j ∉ gone ∧ (b.thread j).state ≠ .exited) :
    ∃ t b', (s.putBand b2).endThreads s.issue.key gone keep = t ∧ EndsThreads s b fl t b' gone K ∧ b'.succ = b2.succ :=
  hp.endThreads h hK hstay (by rw [State.band?_putBand, if_pos rfl]) (h.passing hp) (s.endedIn_putBand b2 fl gone keep)

end Passing

section Exit
variable {s : State} {b : Band} {fl : Flight} {ts : List Nat}

theorem exit_eq (hb : s.band? s.issue.key = some b) (f : FormI) :
    exec (.exit f) s = .next (s.endThreads s.issue.key s.issue.threads fun _ => false) := by
  show execExit f s = _
  unfold execExit State.withBand
  rw [hb]
  rfl

theorem Lone.allExited_ended (h : Lone s b fl ts) (keep : Nat → Bool) (hall : ∀ j < b.threads.length, j ∉ ts → (b.thread j).state = .exited) :
    ∀ j < (b.ended ts keep).threads.length, ((b.ended ts keep).thread j).state = .exited := by
  intro j hj
  rw [Band.length_ended ts keep h.done] at hj
  rw [Band.thread_ended ts keep h.done h.distinct h.inBand]
  by_cases hjt : j ∈ ts
  · rw [if_pos hjt]; rfl
  · rw [if_neg hjt]; exact hall j hj hjt

/-- The last threads of a band exit without a successor, and it leaves its slot. -/
theorem exit_leaves (hb : s.band? s.issue.key = some b) (h : Lone s b fl s.issue.threads)
    (hall : ∀ j < b.threads.length, j ∉ s.issue.threads → (b.thread j).state = .exited) (htask : b.task = none) (hsucc : b.succ = none) (f : FormI) :
    ∃ t, exec (.exit f) s = .next t ∧ t.band? s.issue.key = none ∧ (∀ k, k ≠ s.issue.key → t.band? k = s.band? k) ∧ t.mem = s.mem := by
  obtain ⟨hbands, hmem⟩ := State.bandEnded_leaves (State.band?_endedIn (s := s) (k := s.issue.key) (fl := fl) _) (h.allExited_ended (fun _ => false) hall)
    (by rw [Band.ended_rest _ _ h.done]; exact hsucc) (by rw [Band.ended_rest _ _ h.done]; exact htask)
  have hfind : ∀ k, (((s.endedIn s.issue.key b fl s.issue.threads fun _ => false).bandEnded s.issue.key).band? k) =
      if k = s.issue.key then none else s.band? k := by
    intro k
    rw [State.band?, hbands, Tbl.find?_del]
    by_cases hk : k = s.issue.key
    · rw [if_pos hk, if_pos hk]
    · rw [if_neg hk, if_neg hk]
      exact Tbl.find?_put_other _ _ _ _ hk
  refine ⟨_, by rw [exit_eq hb, State.endThreads_of_lone hb h], by rw [hfind, if_pos rfl], fun k hk => by rw [hfind, if_neg hk], hmem⟩

/-- The last threads of a band exit with a successor recorded, and every thread of it restarts there. -/
theorem exit_restarts (hb : s.band? s.issue.key = some b) (h : Lone s b fl s.issue.threads)
    (hall : ∀ j < b.threads.length, j ∉ s.issue.threads → (b.thread j).state = .exited) {su : Succ} {sl : Nat} (hsucc : b.succ = some su)
    (hsl : (s.core (keyCore s.issue.key)).slotOf? su.ovid = some sl) (f : FormI) :
    ∃ t b', exec (.exit f) s = .next t ∧ t.band? s.issue.key = some b' ∧ t.mem = s.mem ∧ RestartedAt b b' (sl * 16384 + su.off) := by
  obtain ⟨b', hband, hmem, hr⟩ := (s.endedIn s.issue.key b fl s.issue.threads fun _ => false).restart_spec s.issue.key
    (b.ended s.issue.threads fun _ => false) hsl
  refine ⟨_, b', ?_, hband, hmem, hr.of_ended h⟩
  rw [exit_eq hb, State.endThreads_of_lone hb h, State.bandEnded_restarts (State.band?_endedIn _) (h.allExited_ended _ hall)
    (by rw [Band.ended_rest _ _ h.done]; exact hsucc)]

end Exit

/-! ### EXIT in Form X -/

theorem lastReadOf_false (o : Opnd) (w : Nat) : lastReadOf o false w = [] := by cases o <;> rfl

/-- Without a last-read bit no entry is read for the last time. -/
theorem Fld.lastReadNames_of_false {f : Fld} (ha : f.la = false) (hb : f.lb = false) (hc : f.lc = false) (wa wb wc : Nat) :
    f.lastReadNames wa wb wc = [] := by
  rw [Fld.lastReadNames_eq, ha, hb, hc, lastReadOf_false, lastReadOf_false, lastReadOf_false]
  rfl

/-- The band of an EXIT in Form X when its guarded threads end: the others of the run have advanced. -/
def Band.exitX (b : Band) (f : Fld) (r : Run) (ts : List Nat) : Band :=
  ((b.lastReads f 0 0 0 r.threads).prune []).advance r (r.threads.filter (!ts.contains ·))

theorem Band.exitX_succ (b : Band) (f : Fld) (r : Run) (ts : List Nat) : (b.exitX f r ts).succ = b.succ := by
  rw [Band.exitX, Band.advance_rest, Band.prune_rest, Band.lastReads_rest]

section ExitX
variable {s : State} {b : Band} {fl : Flight} {ts : List Nat} {f : FormX}

theorem Passing.exitX (hruns : Runs s b) (f : Fld) (ha : f.la = false) (hb : f.lb = false) (hc : f.lc = false) (ts : List Nat) :
    Passing s b (b.exitX f s.issue ts) ts where
  rest := by rw [Band.exitX, Band.advance_rest, Band.prune_rest, Band.lastReads_rest]
  length := by rw [Band.exitX, Band.length_advance, Band.threads_pruned]
  vregs n j := by rw [Band.exitX, Band.vreg?_advance, Band.vreg?_prune, Band.vreg?_lastReads, Fld.lastReadNames_of_false ha hb hc]; simp
  threads j := by
    have hth : ((b.lastReads f 0 0 0 s.issue.threads).prune []).thread j = b.thread j := by unfold Band.thread; rw [Band.threads_pruned]
    rw [Band.exitX, Band.thread_advance_retired _ _ _ _ (hruns.distinct.filter _)
      (fun t ht => by rw [Band.threads_pruned]; exact hruns.inBand t (List.mem_filter.1 ht).1), hth]
    by_cases hj : j ∈ ts <;> simp [hj]

/-- EXIT in Form X without a successor. -/
theorem exitSucc_plain (hb : s.band? s.issue.key = some b) (hg : b.guarded (viewX f) s.issue.threads = .ok ts) (hmf : f.mf.toNat % 2 = 0) :
    exec (.exitSucc f) s = .next ((s.putBand (b.exitX (viewX f) s.issue ts)).endThreads s.issue.key ts fun _ => false) := by
  have hv : (viewX f).mf = f.mf.toNat := rfl
  show execExitSucc f s = _
  unfold execExitSucc State.withBand
  simp only [hb, hg, hv, hmf, bind, Except.bind, if_true]
  rfl

/-- EXIT.succ whose successor is loaded, with none recorded and no kept register awaited. -/
theorem exitSucc_records (hb : s.band? s.issue.key = some b) (hg : b.guarded (viewX f) s.issue.threads = .ok ts) (hmf : f.mf.toNat % 2 = 1) (hne : ts ≠ [])
    {a sl : Nat} (ha : (viewX f).a = .v a) (hsl : (s.core s.issue.core).slotOf? (f.w2.toNat / 65536) = some sl)
    (hoff : f.w2.toNat % 65536 < ((s.core s.issue.core).overlays.getD sl {}).words.length) (hsucc : b.succ = none) (hpend : ∀ t r, b.pendingV t r = false) :
    exec (.exitSucc f) s = .next ((s.putBand { b.exitX (viewX f) s.issue ts with
      succ := some { ovid := f.w2.toNat / 65536, off := f.w2.toNat % 65536, a := a, n := f.d.toNat } }).endThreads s.issue.key ts
        fun n => decide (a ≤ n) && decide (n < a + f.d.toNat)) := by
  have hv : (viewX f).mf = f.mf.toNat ∧ (viewX f).w2 = f.w2.toNat ∧ (viewX f).d = f.d.toNat := ⟨rfl, rfl, rfl⟩
  have hempty : ts.isEmpty = false := by simpa using hne
  have hwait : (ts.any fun t => (List.range f.d.toNat).any fun i => b.pendingV t (a + i)) = false := by simp [hpend]
  show execExitSucc f s = _
  unfold execExitSucc State.withBand
  simp only [hb, hg, hv, hmf, ha, hsl, hoff, hsucc, hempty, hwait, bind, Except.bind, Nat.one_ne_zero, if_false, Bool.false_eq_true, decide_true, Bool.not_true,
    Option.any_none]
  rfl

end ExitX

/-- Settles O28: the threads that end are alone in the machine but for their flight's count, and what follows is their band's: it stays, leaves its slot
or restarts. -/
theorem exitsEndThreads : Obligations.ExitsEndThreads := by
  intro s b fl ts hruns hfl hroster hecalls hop hdone hlive hteam htask ends
  have hlone : ∀ gone : List Nat, gone.Sublist s.issue.threads → Lone s b fl gone := fun gone hsub =>
    ⟨hfl, hroster, hecalls, (b.forall_threads_iff fun th => th.state ≠ .atOp).1 hop, hdone, hteam, hruns.distinct.sublist hsub,
      fun t ht => hruns.inBand t (hsub.subset ht), fun t ht => hlive t (hsub.subset ht)⟩
  have hrun := hlone _ (List.Sublist.refl _)
  have hnone : ∀ n : Nat, (fun _ => false) n = true ↔ False := fun _ => by simp
  refine ⟨fun hstay f => ?_, fun hall hne f => ⟨fun hsucc => ?_, fun su sl hsucc hsl => ?_⟩, fun f hg hla hlb hlc hne hstay => ?_⟩
  · obtain ⟨t, b', ht, hends, hs⟩ := (Passing.refl s b).endThreads hrun hnone hstay hruns.band hrun rfl
    exact ⟨t, b', by rw [exit_eq hruns.band, ht], hends, hs⟩
  · exact exit_leaves hruns.band hrun hall htask hsucc f
  · obtain ⟨t, b', ht, hband, hmem, hr⟩ :=
      exit_restarts hruns.band hrun hall hsucc ((keyCore_slotKey s.issue.core hruns.lane hruns.slot).symm ▸ hsl) f
    exact ⟨t, b', ht, hband, hr.succ, hr.kregs, hr.quota, hr.rndseed, hmem, hr.length, hr.threads⟩
  · have hgone := hlone ts (hg.2 ▸ List.filter_sublist)
    have hpass := Passing.exitX hruns (viewX f) hla hlb hlc ts
    refine ⟨fun hmf => ?_, fun hmf a sl ha hsl hoff hsucc hpend => ?_⟩
    · obtain ⟨t, b', ht, hends, hs⟩ := hpass.endThreads_putBand hgone hnone hstay
      exact ⟨t, b', by rw [exitSucc_plain hruns.band hg.guarded hmf, ht], hends, hs.trans (Band.exitX_succ _ _ _ _)⟩
    · obtain ⟨t, b', ht, hends, hs⟩ := (hpass.withSucc _).endThreads_putBand hgone (keep := fun n => decide (a ≤ n) && decide (n < a + f.d.toNat))
        (K := fun n => a ≤ n ∧ n < a + f.d.toNat) (fun n => by simp) hstay
      exact ⟨t, b', by rw [exitSucc_records hruns.band hg.guarded hmf hne ha hsl hoff hsucc hpend, ht], hends, hs⟩

end Sys2Proof.Machine
end

section
/-!
PROOFS. The integer arithmetic, logic and shift instructions (R109, R111, R116 to R119): each shared operation completes where its computation agrees with
that of the statement, and the computations agree as integers, bit by bit, or modulo 2^n where Put keeps no more.
-/
namespace Sys2Proof.Machine

/-! ### Computations that end no run -/

/-- An instruction whose computation is its meaning's value on operands below their widths completes. -/
theorem completes_of_value_eq {i : Instr} {m : Sem} {value : State → In → Nat × Nat}
    (hi : ∀ s, exec i s = s.perThread m.f m.wa m.wb m.wc m.tg fun x => .ok (value s x))
    (hv : ∀ s x, x.a < 2 ^ m.wa → x.b < 2 ^ m.wb → x.c < 2 ^ m.wc → value s x = m.value s x) : Completes i m :=
  completes_of_perThread i m (fun s x => .ok (value s x)) hi fun s x ha hb hc _ => congrArg Except.ok (hv s x ha hb hc)

/-- An instruction whose computation is its meaning's value as it stands completes. -/
theorem completes_of_value {i : Instr} {m : Sem} (hi : ∀ s, exec i s = s.perThread m.f m.wa m.wb m.wc m.tg fun x => .ok (m.value s x)) :
    Completes i m :=
  completes_of_value_eq hi fun _ _ _ _ _ => rfl

/-! ### Arithmetic under a TI type (R116) -/

theorem intOp_completes {i : Instr} {f : Fld} {op spec : Int → Int → Int} (hi : ∀ s, exec i s = s.intOp f op) (h : ∀ a b, op a b = spec a b) :
    Completes i (intSem f spec) :=
  completes_of_value_eq hi fun _ x _ _ _ => congrArg (fun y => (putTI f.sub f.sat y, 0)) (h (srcTI f.sub x.a) (srcTI f.sub x.b))

theorem tiSigned_iff (ti : Nat) : tiSigned ti = true ↔ ti = 0 ∨ ti = 2 ∨ ti = 4 ∨ ti = 6 := by simp [tiSigned, or_assoc]

theorem idivOp_eq_quotSpec (ti : Nat) (a b : Int) : idivOp ti a b = quotSpec ti a b := by
  unfold idivOp quotSpec
  by_cases hb : b = 0
  · simp only [hb, ne_eq, not_true_eq_false, if_true, if_false, tiSigned_iff, two_pow_cast]
  · simp only [hb, ne_eq, not_false_eq_true, if_true, if_false]

theorem iremOp_eq (a b : Int) : iremOp a b = if b = 0 then a else a - b * Int.tdiv a b := by
  unfold iremOp
  rw [Int.tmod_def]

/-- The upper half of a product rounds down, as both divisions do by a positive number. -/
theorem ediv_two_pow_eq_fdiv (x : Int) (n : Nat) : x / (2 : Int) ^ n = Int.fdiv x (2 ^ n) :=
  (Int.fdiv_eq_ediv_of_nonneg x (by rw [two_pow_cast]; exact Int.le_of_lt (cast_two_pow_pos n))).symm

/-! ### The carry (R117) -/

/-- The carry out of two n-bit patterns and a bit is 0 or 1. -/
theorem carry_eq {n a b : Nat} (c : Nat) (ha : a < 2 ^ n) (hb : b < 2 ^ n) :
    (a + b + c % 2) / 2 ^ n = if 2 ^ n ≤ a % 2 ^ n + b % 2 ^ n + c % 2 then 1 else 0 := by
  rw [Nat.mod_eq_of_lt ha, Nat.mod_eq_of_lt hb]
  split
  · next h => exact Nat.div_eq_of_lt_le (by omega) (by omega)
  · next h => exact Nat.div_eq_of_lt (Nat.lt_of_not_le h)

theorem carryOp_completes {i : Instr} {f : Fld} (hi : ∀ s, exec i s = s.carryOp f) : Completes i (carrySem f) :=
  completes_of_value_eq hi fun _ x ha hb _ => congrArg (·, 0) (carry_eq x.c ha hb)

/-! ### Logic (R118) -/

/-- An operation that acts on each bit gives the number of its bits. -/
theorem eq_fromBits {x n : Nat} {g : Nat → Bool} (hx : x < 2 ^ n) (h : ∀ j < n, x.testBit j = g j) : x = fromBits g n := by
  refine eq_of_bits _ _ fun j => ?_
  rw [bitOf_fromBits]
  by_cases hj : j < n
  · rw [bitOf_eq_testBit, h j hj, decide_eq_true hj, Bool.true_and]
  · rw [bitOf_of_lt x n j hx (Nat.le_of_not_lt hj), decide_eq_false hj, Bool.false_and]

theorem bitOp_completes {i : Instr} {f : Fld} {op : Nat → Nat → Nat} {spec : Bool → Bool → Bool} (hi : ∀ s, exec i s = s.bitOp f op)
    (hlt : ∀ n a b, a < 2 ^ n → b < 2 ^ n → op a b < 2 ^ n) (h : ∀ a b j, (op a b).testBit j = spec (a.testBit j) (b.testBit j)) :
    Completes i (logicSem f spec) :=
  completes_of_value_eq hi fun _ x ha hb _ => by
    have hbits : op x.a x.b = fromBits (fun j => spec (bitOf x.a j) (bitOf x.b j)) (tiBits f.sub) :=
      eq_fromBits (hlt _ _ _ ha hb) fun j _ => by rw [h, bitOf_eq_testBit, bitOf_eq_testBit]
    rw [hbits]
    rfl

theorem testBit_xor_and (a b j : Nat) : (a ^^^ (a &&& b)).testBit j = (a.testBit j && !b.testBit j) := by
  rw [Nat.testBit_xor, Nat.testBit_and]
  cases a.testBit j <;> cases b.testBit j <;> rfl

/-! ### Shifts (R119) -/

/-- Put without SAT looks at the value modulo 2^n alone. -/
theorem putTI_congr {ti : Nat} {x y : Int} (h : x % ((2 ^ tiBits ti : Nat) : Int) = y % ((2 ^ tiBits ti : Nat) : Int)) :
    putTI ti false x = putTI ti false y := by
  have hw : wrap (satTI ti false x) (tiBits ti) = wrap (satTI ti false y) (tiBits ti) := congrArg Int.toNat h
  rw [putTI_eq, putTI_eq, hw]

theorem shiftOp_completes {i : Instr} {f : Fld} {op : Nat → Nat → Nat → Nat} {spec : Nat → Nat → Nat → Int} (hi : ∀ s, exec i s = s.shiftOp f op)
    (h : ∀ n u a, (op n u a : Int) % ((2 ^ n : Nat) : Int) = spec n u a % ((2 ^ n : Nat) : Int)) : Completes i (shiftSem f spec) :=
  completes_of_value_eq hi fun _ x _ _ _ => congrArg (·, 0) (putTI_congr (h (tiBits f.sub) x.a x.b))

theorem shlOp_emod (n u a : Nat) : (shlOp n u a : Int) % ((2 ^ n : Nat) : Int) = shlSpec n u a % ((2 ^ n : Nat) : Int) := by
  unfold shlOp shlSpec
  split
  · rfl
  · exact cast_mod_emod _ _

theorem shrOp_eq (n u a : Nat) : (shrOp n u a : Int) = shrSpec n u a := by
  unfold shrOp shrSpec
  split <;> rfl

theorem shaOp_emod (n u a : Nat) : (shaOp n u a : Int) % ((2 ^ n : Nat) : Int) = shaSpec n u a % ((2 ^ n : Nat) : Int) := by
  unfold shaOp shaSpec
  rw [wrap_emod_of_le _ (Nat.le_refl n), ediv_two_pow_eq_fdiv, Nat.min_def]

/-! ### The statement -/

theorem integer_completes {i : Instr} {m : Sem} (hm : integerSem i = some m) : Completes i m := by
  cases i with
  | iadd f | iaddX f | isub f | isubX f | imul f | imulX f => cases hm; exact intOp_completes (fun _ => rfl) fun _ _ => rfl
  | imin f | iminX f => cases hm; exact intOp_completes (fun _ => rfl) Int.min_def
  | imax f | imaxX f => cases hm; exact intOp_completes (fun _ => rfl) Int.max_def
  | imulh f | imulhX f => cases hm; exact intOp_completes (op := fun a b => a * b / 2 ^ _) (fun _ => rfl) fun a b => ediv_two_pow_eq_fdiv (a * b) _
  | idiv f | idivX f => cases hm; exact intOp_completes (fun _ => rfl) (idivOp_eq_quotSpec _)
  | irem f | iremX f => cases hm; exact intOp_completes (fun _ => rfl) iremOp_eq
  | iaddc f | iaddcX f => cases hm; exact carryOp_completes fun _ => rfl
  | imad f => cases hm; exact completes_of_value fun _ => rfl
  | _ => cases hm

theorem logicShift_completes {i : Instr} {m : Sem} (hm : logicShiftSem i = some m) : Completes i m := by
  cases i with
  | and f | andX f =>
    cases hm; exact bitOp_completes (fun _ => rfl) (fun _ a _ _ hb => Nat.and_lt_two_pow a hb) Nat.testBit_and
  | or f | orX f => cases hm; exact bitOp_completes (fun _ => rfl) (fun _ _ _ => Nat.or_lt_two_pow) Nat.testBit_or
  | xor f | xorX f => cases hm; exact bitOp_completes (fun _ => rfl) (fun _ _ _ => Nat.xor_lt_two_pow) Nat.testBit_xor
  | andn f | andnX f =>
    cases hm
    exact bitOp_completes (op := fun a b => a ^^^ (a &&& b)) (fun _ => rfl)
      (fun _ _ _ ha _ => Nat.xor_lt_two_pow ha (Nat.lt_of_le_of_lt Nat.and_le_left ha)) testBit_xor_and
  | shl f | shlX f => cases hm; exact shiftOp_completes (fun _ => rfl) shlOp_emod
  | shr f | shrX f => cases hm; exact shiftOp_completes (fun _ => rfl) fun n u a => congrArg (· % _) (shrOp_eq n u a)
  | sha f | shaX f => cases hm; exact shiftOp_completes (fun _ => rfl) shaOp_emod
  | rotl f | rotlX f => cases hm; exact shiftOp_completes (fun _ => rfl) fun _ _ _ => rfl
  | _ => cases hm

/-- Settles O15: arithmetic agrees as integers, logic bit by bit, and shifts modulo 2^n, which is all that Put without SAT keeps. -/
theorem integerCompletes : Obligations.IntegerCompletes := fun _ _ hm => hm.elim integer_completes logicShift_completes

end Sys2Proof.Machine
end

section
/-!
PROOFS. Unary operations, bit fields, selection, comparison and moves (R120 to R128): counts by recursion on the width, bit patterns bit by bit, and the
clamp of R120, which only the magnitude 2^(w-1) reaches.
-/
namespace Sys2Proof.Machine

/-! ### Unary operations to w bits (R120) -/

theorem Fld.wide_pos (f : Fld) : 0 < f.wide := by
  unfold Fld.wide
  split <;> omega

theorem unaryOp_completes {i : Instr} {f : Fld} {op : Nat → Nat → Nat} {spec : Nat → Nat → Int} (hi : ∀ s, exec i s = s.unaryOp f op)
    (h : ∀ w a, 0 < w → a < 2 ^ w → op w a % 2 ^ w = wrap (spec w a) w) : Completes i (unarySem f spec) :=
  completes_of_value_eq hi fun _ x ha _ _ => congrArg (·, 0) (h f.wide x.a f.wide_pos ha)

/-- The complement of a w-bit pattern turns each of its bits. -/
theorem compl_eq_fromBits {w a : Nat} (ha : a < 2 ^ w) : 2 ^ w - 1 - a = fromBits (fun j => !bitOf a j) w := by
  have hsucc : 2 ^ w - 1 - a = 2 ^ w - (a + 1) := by omega
  refine eq_fromBits (by omega) fun j hj => ?_
  rw [hsucc, Nat.testBit_two_pow_sub_succ ha, decide_eq_true hj, Bool.true_and, bitOf_eq_testBit]

theorem compl_wrap (w a : Nat) (_ : 0 < w) (ha : a < 2 ^ w) :
    (2 ^ w - 1 - a) % 2 ^ w = wrap (fromBits (fun j => !bitOf a j) w : Nat) w := by
  rw [wrap_natCast, compl_eq_fromBits ha]

theorem clampS_mod (w : Nat) (sat : Bool) (x : Int) : clampS w sat x % 2 ^ w = clampS w sat x := Nat.mod_eq_of_lt (wrap_lt _ w)

/-- Of the values up to 2^(w-1), the clamp under SAT changes that one alone. -/
theorem clampS_eq_satSpec {w : Nat} (sat : Bool) {x : Int} (hx : x ≤ ((2 ^ (w - 1) : Nat) : Int)) : clampS w sat x = wrap (satSpec sat x w) w := by
  unfold clampS satSpec
  rw [two_pow_cast]
  cases sat with
  | false => rfl
  | true =>
    simp only [if_true, Bool.true_and, decide_eq_true_eq]
    congr 1
    split <;> omega

theorem natAbs_eq_ite (x : Int) : (x.natAbs : Int) = if x < 0 then -x else x := by split <;> omega

theorem natAbs_signed_le {w : Nat} (hw : 0 < w) (a : Nat) : ((signed a w).natAbs : Int) ≤ ((2 ^ (w - 1) : Nat) : Int) := by
  have := signed_range a hw
  omega

theorem iabs_wrap (w a : Nat) (_ : 0 < w) (_ : a < 2 ^ w) :
    clampS w false (signed a w).natAbs % 2 ^ w = wrap (if signed a w < 0 then -signed a w else signed a w) w := by
  rw [clampS_mod, natAbs_eq_ite]
  rfl

theorem iabs_sat (sat : Bool) (w a : Nat) (hw : 0 < w) (_ : a < 2 ^ w) :
    clampS w sat (signed a w).natAbs % 2 ^ w = wrap (satSpec sat (if signed a w < 0 then -signed a w else signed a w) w) w := by
  rw [clampS_mod, clampS_eq_satSpec sat (natAbs_signed_le hw a), natAbs_eq_ite]

theorem ineg_sat (sat : Bool) (w a : Nat) (hw : 0 < w) (_ : a < 2 ^ w) : clampS w sat (-signed a w) % 2 ^ w = wrap (satSpec sat (-signed a w) w) w := by
  have := signed_range a hw
  rw [clampS_mod, clampS_eq_satSpec sat (by omega)]

/-- A number given by its bits, taken apart at its lowest bit. -/
theorem fromBits_succ_low (g : Nat → Bool) (n : Nat) : fromBits g (n + 1) = 2 * fromBits (fun j => g (j + 1)) n + if g 0 then 1 else 0 := by
  induction n with
  | zero => simp only [fromBits, Nat.pow_zero, Nat.mul_zero]
  | succ n ih =>
    rw [fromBits, ih, fromBits, Nat.pow_succ]
    cases g (n + 1) with
    | false => simp only [Bool.false_eq_true, if_false]; omega
    | true => simp only [if_true]; omega

/-- BREV after its first n bits: they stand turned round in the topmost n of the w places. -/
theorem brev_foldl (a w n : Nat) (hn : n ≤ w) : (List.range n).foldl (fun x i => if bitOf a i then x + 2 ^ (w - 1 - i) else x) 0 =
    2 ^ (w - n) * fromBits (fun j => bitOf a (n - 1 - j)) n := by
  induction n with
  | zero => rfl
  | succ n ih =>
    have hpow : 2 ^ (w - n) = 2 ^ (w - (n + 1)) * 2 := by rw [← Nat.pow_succ]; congr 1; omega
    have hplace : w - 1 - n = w - (n + 1) := by omega
    have hlow : (fun j => bitOf a (n + 1 - 1 - (j + 1))) = fun j => bitOf a (n - 1 - j) := funext fun j => by congr 1; omega
    rw [List.range_succ, List.foldl_append, ih (by omega), List.foldl_cons, List.foldl_nil, fromBits_succ_low, hlow, hpow, hplace, Nat.mul_add,
      Nat.mul_assoc, Nat.add_sub_cancel, Nat.sub_zero]
    split
    · rw [Nat.mul_one]
    · rfl

theorem brevOp_eq_fromBits (w a : Nat) : brevOp w a = fromBits (fun j => bitOf a (w - 1 - j)) w := by
  rw [brevOp, brev_foldl a w w (Nat.le_refl w), Nat.sub_self, Nat.pow_zero, Nat.one_mul]

theorem brev_wrap (w a : Nat) (_ : 0 < w) (_ : a < 2 ^ w) : brevOp w a % 2 ^ w = wrap (fromBits (fun j => bitOf a (w - 1 - j)) w : Nat) w := by
  rw [wrap_natCast, brevOp_eq_fromBits]

/-! ### Counts (R120) -/

theorem countOp_completes {i : Instr} {f : Fld} {op spec : Nat → Nat → Nat} (hi : ∀ s, exec i s = s.countOp f op)
    (h : ∀ w a, a < 2 ^ w → op w a = spec w a) : Completes i (countSem f spec) :=
  completes_of_value_eq hi fun _ x ha _ _ => congrArg (·, 0) (h f.wide x.a ha)

theorem popcOp_eq_sum (w a : Nat) (_ : a < 2 ^ w) : popcOp w a = ((List.range w).map fun i => a / 2 ^ i % 2).sum := by
  unfold popcOp
  induction List.range w with
  | nil => rfl
  | cons i l ih =>
    rw [List.filter_cons, List.map_cons, List.sum_cons, ← ih]
    unfold bitOf
    rcases Nat.mod_two_eq_zero_or_one (a / 2 ^ i) with h | h
    · simp [h]
    · simp [h, Nat.add_comm]

/-- Leading zeros: the topmost bit stands at log2, and a pattern without it is one of fewer bits. -/
theorem clzOp_eq (w a : Nat) (ha : a < 2 ^ w) : clzOp w a = if a = 0 then w else w - 1 - Nat.log2 a := by
  unfold clzOp
  induction w with
  | zero => simp
  | succ w ih =>
    rw [List.range_succ, List.reverse_append, List.reverse_singleton, List.singleton_append, List.takeWhile_cons]
    by_cases hlt : a < 2 ^ w
    · rw [bitOf_of_lt a w w hlt (Nat.le_refl w), if_pos (by rfl), List.length_cons, ih hlt]
      split
      · rfl
      · next h0 => have := (Nat.log2_lt h0).2 hlt; omega
    · have hlog : Nat.log2 a = w := (Nat.log2_eq_iff (by have := Nat.two_pow_pos w; omega)).2 ⟨Nat.le_of_not_lt hlt, ha⟩
      have hone : a / 2 ^ w = 1 := Nat.div_eq_of_lt_le (by omega) (by omega)
      have hbit : bitOf a w = true := by simp [bitOf, hone]
      have h0 : a ≠ 0 := by have := Nat.two_pow_pos w; omega
      rw [hbit, if_neg (by decide), if_neg h0, hlog]
      simp

/-- The length of the part of a range before its first member that satisfies p is found by searching for it. -/
theorem length_takeWhile_range' (p : Nat → Bool) (s n : Nat) :
    s + ((List.range' s n).takeWhile fun i => !p i).length = ((List.range' s n).find? p).getD (s + n) := by
  induction n generalizing s with
  | zero => rfl
  | succ n ih =>
    rw [List.range'_succ, List.takeWhile_cons, List.find?_cons]
    cases p s with
    | true => rfl
    | false =>
      have := ih (s + 1)
      simp only [Bool.not_false, if_true, List.length_cons]
      rw [show s + (n + 1) = s + 1 + n by omega, ← this]
      omega

theorem ctzOp_eq_find (w a : Nat) (_ : a < 2 ^ w) : ctzOp w a = ((List.range w).find? fun i => a / 2 ^ i % 2 = 1).getD w := by
  have := length_takeWhile_range' (bitOf a) 0 w
  rwa [Nat.zero_add, Nat.zero_add, ← List.range_eq_range'] at this

theorem unary_completes {i : Instr} {m : Sem} (hm : unaryInstrSem i = some m) : Completes i m := by
  cases i with
  | not f | notX f => cases hm; exact unaryOp_completes (op := fun w a => 2 ^ w - 1 - a) (fun _ => rfl) compl_wrap
  | iabs f => cases hm; exact unaryOp_completes (op := fun w a => clampS w false (signed a w).natAbs) (fun _ => rfl) iabs_wrap
  | iabsX f => cases hm; exact unaryOp_completes (op := fun w a => clampS w (viewX f).sat (signed a w).natAbs) (fun _ => rfl) (iabs_sat _)
  | ineg f => cases hm; exact unaryOp_completes (op := fun w a => clampS w false (-signed a w)) (fun _ => rfl) fun _ _ _ _ => clampS_mod _ _ _
  | inegX f => cases hm; exact unaryOp_completes (op := fun w a => clampS w (viewX f).sat (-signed a w)) (fun _ => rfl) (ineg_sat _)
  | popc f | popcX f => cases hm; exact countOp_completes (fun _ => rfl) popcOp_eq_sum
  | clz f | clzX f => cases hm; exact countOp_completes (fun _ => rfl) clzOp_eq
  | ctz f | ctzX f => cases hm; exact countOp_completes (fun _ => rfl) ctzOp_eq_find
  | brev f | brevX f => cases hm; exact unaryOp_completes (fun _ => rfl) brev_wrap
  | _ => cases hm

/-! ### Bit fields and bytes (R121, R122) -/

/-- The top bit of an l-bit pattern. -/
theorem bitOf_top {x l : Nat} (hl : 0 < l) (hx : x < 2 ^ l) : bitOf x (l - 1) = decide (2 ^ (l - 1) ≤ x) := by
  by_cases h : x < 2 ^ (l - 1)
  · rw [bitOf_of_lt x _ _ h (Nat.le_refl _), decide_eq_false (Nat.not_le.2 h)]
  · have hd := two_pow_eq_double hl
    have hone : x / 2 ^ (l - 1) = 1 := Nat.div_eq_of_lt_le (by omega) (by omega)
    simp [bitOf, hone, Nat.le_of_not_lt h]

theorem bfxOp_eq_bfxSpec (ti u ctl : Nat) : bfxOp ti u ctl = bfxSpec ti u ctl := by
  unfold bfxOp bfxSpec
  dsimp only
  generalize min (ctl / 256 % 256) (tiBits ti) = l
  rcases Nat.eq_zero_or_pos l with rfl | hl
  · simp
  · rw [bitOf_top hl (Nat.mod_lt _ (Nat.two_pow_pos l)), two_pow_cast]

/-- The mask of a field of l bits at p. -/
theorem testBit_fieldMask (l p j : Nat) : ((2 ^ l - 1) * 2 ^ p).testBit j = (decide (p ≤ j) && decide (j < p + l)) := by
  rw [Nat.testBit_mul_two_pow, Nat.testBit_two_pow_sub_one]
  by_cases hp : p ≤ j
  · have hlt : j - p < l ↔ j < p + l := by omega
    simp [hp, hlt]
  · simp [hp]

/-- BFI within n bits: a field that begins or reaches beyond them is cut off there. -/
theorem bfiOp_eq_bfiSpec {n u : Nat} (b ctl : Nat) (hu : u < 2 ^ n) : bfiOp n u b ctl = bfiSpec n u b ctl := by
  unfold bfiOp bfiSpec
  dsimp only
  generalize ctl % 256 = p
  generalize ctl / 256 % 256 = len
  have hfield : ∀ j, (j < p + if n ≤ p then 0 else min len (n - p)) ∧ p ≤ j ↔ j < n ∧ p ≤ j ∧ j < p + len := fun j => by split <;> omega
  generalize (if n ≤ p then 0 else min len (n - p)) = l at hfield
  have hbit : ∀ j, ((u ^^^ (u &&& (2 ^ l - 1) * 2 ^ p)) ||| (b * 2 ^ p &&& (2 ^ l - 1) * 2 ^ p)).testBit j =
      if j < p + l ∧ p ≤ j then bitOf b (j - p) else u.testBit j := fun j => by
    rw [Nat.testBit_or, testBit_xor_and, Nat.testBit_and, testBit_fieldMask, Nat.testBit_mul_two_pow, bitOf_eq_testBit]
    by_cases hp : p ≤ j <;> by_cases hl : j < p + l <;> simp [hp, hl]
  refine eq_of_bits _ _ fun j => ?_
  rw [bitOf_eq_testBit, hbit, bitOf_fromBits]
  simp only [hfield]
  by_cases hj : j < n
  · simp only [hj, true_and, decide_true, Bool.true_and, bitOf_eq_testBit]
  · rw [if_neg fun h => hj h.1, ← bitOf_eq_testBit, bitOf_of_lt u n j hu (Nat.le_of_not_lt hj), decide_eq_false hj, Bool.false_and]

/-- Byte k of a pair of words. -/
theorem byte_of_pair {a k : Nat} (b : Nat) (ha : a < 2 ^ 32) (hk : k < 8) :
    (a + 2 ^ 32 * b) / 2 ^ (8 * k) % 256 = (if k < 4 then a / 2 ^ (8 * k) else b / 2 ^ (8 * (k - 4))) % 256 := by
  split
  · next h4 =>
    have hpow : 2 ^ 32 = 2 ^ (8 * k) * (256 * 2 ^ (8 * (3 - k))) := by rw [← Nat.pow_add 2 8, ← Nat.pow_add]; congr 1; omega
    rw [hpow, Nat.mul_assoc, Nat.add_mul_div_left _ _ (Nat.two_pow_pos _), Nat.mul_assoc, Nat.add_mul_mod_self_left]
  · next h4 =>
    have hpow : 2 ^ (8 * k) = 2 ^ 32 * 2 ^ (8 * (k - 4)) := by rw [← Nat.pow_add]; congr 1; omega
    have hhigh : (a + 2 ^ 32 * b) / 2 ^ 32 = b := by omega
    rw [hpow, ← Nat.div_div_eq_div_mul, hhigh]

theorem bpermOp_eq {a b : Nat} (c : Nat) (ha : a < 2 ^ 32) : bpermOp a b c = bpermByte a b (c % 16) + bpermByte a b (c / 2 ^ 4 % 16) * 2 ^ 8
    + bpermByte a b (c / 2 ^ 8 % 16) * 2 ^ 16 + bpermByte a b (c / 2 ^ 12 % 16) * 2 ^ 24 := by
  have hbyte : ∀ nib, (if 8 ≤ nib then (if 128 ≤ (a + 2 ^ 32 * b) / 2 ^ (8 * (nib % 8)) % 256 then 255 else 0)
      else (a + 2 ^ 32 * b) / 2 ^ (8 * (nib % 8)) % 256) = bpermByte a b nib := fun nib => by
    rw [byte_of_pair b ha (Nat.mod_lt _ (by omega))]
    rfl
  unfold bpermOp
  simp only [hbyte, List.range, List.range.loop, List.foldl_cons, List.foldl_nil, Nat.reduceMul, Nat.pow_zero, Nat.div_one]
  omega

/-! ### Selection, comparison and moves (R123 to R128) -/

theorem intCond_eq_condSpec (code w a b : Nat) : intCond code w a b = condSpec code w a b := by
  match code with
  | 0 | 1 | 2 | 3 | 4 | 5 | 6 | 7 | 8 => rfl
  | _ + 9 => rfl

theorem cmpOp_completes {i : Instr} {f : Fld} {w : Nat} (hw : f.wide = w) (hi : ∀ s, exec i s = s.cmpOp f) : Completes i
    { f := f, wa := w, wb := w, wc := 0, tg := .pred, value := fun _ x => (if condSpec f.sub w x.a x.b then 1 else 0, 0) } := by
  subst hw
  exact completes_of_value_eq hi fun _ x _ _ _ => by rw [intCond_eq_condSpec]

theorem movkOp_completes {i : Instr} {f : Fld} (hi : ∀ s, exec i s = s.movkOp f) : Completes i
    { f := f, wa := 0, wb := 32, wc := 0, tg := .regs 1,
      ok := fun _ x => x.b < x.band.width ∧ ∃ v, x.band.readOpnd x.fresh x.b f.a 32 (4 + x.t) = .ok v,
      value := fun _ x => ((x.band.readOpnd x.fresh x.b f.a 32 (4 + x.t)).toOption.getD 0, 0) } :=
  completes_of_perThread i _ _ hi fun _ x _ _ _ hok => by
    obtain ⟨hlt, v, hv⟩ := hok
    simp only [if_neg (Nat.not_le.2 hlt), hv]
    rfl

/-- A 16-bit immediate sign-extended into a register. -/
theorem wrap_signed_word {x : Nat} (hx : x < 2 ^ 16) : wrap (signed x 16) 32 = if x < 2 ^ 15 then x else 2 ^ 32 - 2 ^ 16 + x := by
  unfold wrap signed
  split <;> split <;> omega

theorem move_completes {i : Instr} {m : Sem} (hm : moveSem i = some m) : Completes i m := by
  cases i with
  | bfx f => cases hm; exact completes_of_value_eq (fun _ => rfl) fun _ x _ _ _ => by rw [bfxOp_eq_bfxSpec]
  | bfi f => cases hm; exact completes_of_value_eq (fun _ => rfl) fun _ x ha _ _ => by rw [bfiOp_eq_bfiSpec x.b x.c ha]
  | bperm f => cases hm; exact completes_of_value_eq (fun _ => rfl) fun _ x ha _ _ => by rw [bpermOp_eq x.c ha]
  | sel f => cases hm; exact completes_of_value_eq (fun _ => rfl) fun _ x _ _ _ => by simp only [ne_eq, ite_not, apply_ite]
  | icmp f | icmpX f => cases hm; exact cmpOp_completes rfl fun _ => rfl
  | plop f | plopX f | mov f | movX f | lea f | ldiLiteral f lit => cases hm; exact completes_of_value fun _ => rfl
  | movk f | movkX f => cases hm; exact movkOp_completes fun _ => rfl
  | ldi f => cases hm; exact completes_of_value_eq (fun _ => rfl) fun _ _ _ _ _ => by rw [wrap_signed_word f.imm.isLt]
  | _ => cases hm

/-- Settles O16: counts agree at every width, patterns bit by bit, and MOVK where its source thread can be read. -/
theorem unaryAndMovesComplete : Obligations.UnaryAndMovesComplete := fun _ _ hm => hm.elim unary_completes move_completes

end Sys2Proof.Machine
end

section
/-!
PROOFS. The float instructions (R129 to R136) and the conversions and narrow formats (R138 to R145): computations that are their meanings' values as they
stand, but for the conditions of FCMP and CVT's two forms.
-/
namespace Sys2Proof.Machine

/-! ### The float instructions (R129 to R134) -/

theorem floatOp_completes {i : Instr} {f : Fld} {n : Nat} {op : ElOp} (hi : ∀ s, exec i s = s.floatOp f n op) : Completes i (floatSem f n op) :=
  completes_of_value hi

theorem scaleOp_completes {i : Instr} {f : Fld} (hi : ∀ s, exec i s = s.scaleOp f) :
    Completes i { floatSem f 2 fscaleEl with value := fun _ x => floatThread f.sub f.rnd true fscaleEl x } :=
  completes_of_value hi

theorem floatInstr_completes {i : Instr} {m : Sem} (hm : floatInstrSem i = some m) : Completes i m := by
  cases i with
  | fadd f | faddX f | fsub f | fsubX f | fmul f | fmulX f | ffma f | fdiv f | fdivX f => cases hm; exact floatOp_completes fun _ => rfl
  | fmin f | fminX f | fmax f | fmaxX f => cases hm; exact floatOp_completes fun _ => rfl
  | frcp f | frcpX f | frsq f | frsqX f | fsqrt f | fsqrtX f => cases hm; exact floatOp_completes fun _ => rfl
  | fexp2 f | fexp2X f | flog2 f | flog2X f => cases hm; exact floatOp_completes fun _ => rfl
  | fsin f | fsinX f | fcos f | fcosX f | ftanh f | ftanhX f => cases hm; exact floatOp_completes fun _ => rfl
  | frnd f | frndX f => cases hm; exact floatOp_completes fun _ => rfl
  | fscale f | fscaleX f => cases hm; exact scaleOp_completes fun _ => rfl
  | _ => cases hm

/-! ### Tests (R135, R136) -/

theorem isNan_or_eq_decide (x y : Fv) : (x.isNan || y.isNan) = decide (x = .nan ∨ y = .nan) := by
  cases x <;> cases y <;> rfl

/-- A condition over an order by its code; less-or-equal is not greater. -/
theorem floatCond_eq_fcondSpec (code : Nat) (x y : Fv) : floatCond code x y = fcondSpec code x y := by
  unfold floatCond fcondSpec
  rw [isNan_or_eq_decide]
  generalize decide (x = .nan ∨ y = .nan) = un
  match code with
  | 0 | 1 | 2 | 4 | 6 => rfl
  | 3 | 5 => cases h : Fv.cmp x y <;> rfl
  | _ + 7 => rfl

theorem fcmpOp_completes {i : Instr} {f : Fld} {fm : Fmt} (hfm : (tfFmt f.mf).1 = fm) (hi : ∀ s, exec i s = s.fcmpOp f) : Completes i
    { f := f, wa := 32, wb := 32, wc := 0, tg := .pred, value := fun _ x => (if fcondSpec f.sub (fm.decode x.a) (fm.decode x.b) then 1 else 0, 0) } := by
  subst hfm
  exact completes_of_value_eq hi fun _ x _ _ _ => by rw [floatCond_eq_fcondSpec]

theorem floatTest_completes {i : Instr} {m : Sem} (hm : floatTestSem i = some m) : Completes i m := by
  cases i with
  | fcmp f | fcmpX f => cases hm; exact fcmpOp_completes rfl fun _ => rfl
  | fclass f | fclassX f => cases hm; exact completes_of_value fun _ => rfl
  | _ => cases hm

/-- Settles O17: each float instruction is its element operation thread by thread, and a condition tells unordered operands from the three orders. -/
theorem floatCompletes : Obligations.FloatCompletes := fun _ _ hm => hm.elim floatInstr_completes floatTest_completes

/-! ### Conversions (R138 to R145) -/

/-- CVT's two forms: a pair packed from two FP32 values, and one element. -/
theorem cvt_perThread (f : XL) (s : State) : exec (.cvt f) s =
    let v := viewXL f
    let two := !bitOf v.w2 10 && (v.mf = 3 || v.mf = 4)
    s.perThread v (if two then 32 else if bitOf v.w2 9 then tiBits v.sub else 32) (if two then 32 else 0) 0
      (.regs (if two then 1 else if bitOf v.w2 10 then wordsFor (tiBits v.mf) else 1)) fun x => .ok (cvtValue v x) := by
  show s.cvtOp (viewXL f) = _
  unfold State.cvtOp cvtValue
  cases htwo : !bitOf (viewXL f).w2 10 && (decide ((viewXL f).mf = 3) || decide ((viewXL f).mf = 4)) with
  | true => simp only [htwo, if_true]
  | false => simp only [htwo, Bool.false_eq_true, if_false]; rfl

theorem convert_completes {i : Instr} {m : Sem} (hm : convertSem i = some m) : Completes i m := by
  cases i with
  | cvt f => cases hm; exact completes_of_value (cvt_perThread f)
  | scalex f | cbenc f =>
    cases hm
    refine completes_of_perThread _ _ _ (fun _ => rfl) fun _ _ _ _ _ hok => ?_
    obtain ⟨old, hold⟩ := hok
    simp only [hold]
    rfl
  | qpack f | qunpk f | cbdec f => cases hm; exact completes_of_value fun _ => rfl
  | _ => cases hm

/-- Settles O18: CVT by its two forms, the others as they stand. -/
theorem convertCompletes : Obligations.ConvertCompletes := fun _ _ => convert_completes

end Sys2Proof.Machine
end

section
/-!
PROOFS. The special cases of the float instructions (R132, R133): each element operation on operands of given kinds, where it does not round.
-/
namespace Sys2Proof.Machine

section Kinds
variable {f : Fmt} {mode : Nat} {r : Sr} {a b c : Nat}

/-! ### Sums (R29, R132) -/

theorem addTerms_of_nan {l : List Fv} (h : Fv.nan ∈ l) : addTerms f l mode r = (f.nan, 0) := by
  have hany : l.any Fv.isNan = true := List.any_eq_true.2 ⟨.nan, h, rfl⟩
  unfold addTerms
  simp [hany]

theorem addTerms_opposite_infs (n : Bool) : addTerms f [.inf n, .inf (!n)] mode r = (f.nan, 0) := by cases n <;> rfl

theorem addTerms_zeros (n m : Bool) : addTerms f [.zero n, .zero m] mode r = (f.zero (if n = m then n else decide (mode = 2)), 0) := by
  cases n <;> cases m <;> rfl

/-- A value and its negation sum to an exact zero, with the sign that the mode gives. -/
theorem addTerms_cancel (n : Bool) (k : Nat) (e : Int) :
    addTerms f [.fin n k e, .fin (!n) k e] mode r = (f.zero (decide (mode = 2)), 0) := by
  have hsum : signedMant n k + signedMant (!n) k = 0 := by
    cases n with
    | false => exact Int.add_right_neg k
    | true => exact Int.add_left_neg k
  simp [addTerms, Fv.isNan, sumTerms, hsum, exOfInt, roundOr, zeroSign]

/-! ### Products (R132) -/

theorem Fv.mul_of_nan {x y : Fv} (h : x = .nan ∨ y = .nan) : x.mul y = .nan := by
  rcases h with rfl | rfl
  · rfl
  · cases x <;> rfl

/-- FFMA of a NaN factor or a NaN addend. -/
theorem ffmaEl_of_nan (h : (f.decode a).mul (f.decode b) = .nan ∨ f.decode c = .nan) : ffmaEl f mode r a b c = (f.nan, 0) :=
  addTerms_of_nan (by rcases h with h | h <;> simp [h])

/-! ### Operands by their kinds (R132, R133) -/

/-- Two operands of which one is a NaN. -/
theorem binary_of_nan (h : f.decode a = .nan ∨ f.decode b = .nan) : faddEl f mode r a b c = (f.nan, 0) ∧ fsubEl f mode r a b c = (f.nan, 0) ∧
    fmulEl f mode r a b c = (f.nan, 0) ∧ fdivEl f mode r a b c = (f.nan, 0) ∧ ffmaEl f mode r a b c = (f.nan, 0) ∧
    ffmaEl f mode r c a b = (f.nan, 0) := by
  refine ⟨addTerms_of_nan ?_, addTerms_of_nan ?_, ?_, ?_, ffmaEl_of_nan (.inl (Fv.mul_of_nan h)), ffmaEl_of_nan ?_⟩
  · rcases h with h | h <;> simp [h]
  · rcases h with h | h <;> simp [h, Fv.neg]
  · rw [fmulEl, Fv.mul_of_nan h]
    rfl
  · rcases h with h | h
    · simp only [fdivEl, h]
    · unfold fdivEl
      rw [h]
      cases f.decode a <;> rfl
  · rcases h with h | h
    · exact .inl (Fv.mul_of_nan (.inr h))
    · exact .inr h

/-- One operand that is a NaN. -/
theorem unary_of_nan (h : f.decode a = .nan) : frcpEl f mode r a b c = (f.nan, 0) ∧ fsqrtEl f mode r a b c = (f.nan, 0) ∧
    frsqEl f mode r a b c = (f.nan, 0) ∧ fexp2El f mode r a b c = (f.nan, 0) ∧ flog2El f mode r a b c = (f.nan, 0) ∧
    fsinEl f mode r a b c = (f.nan, 0) ∧ fcosEl f mode r a b c = (f.nan, 0) ∧ ftanhEl f mode r a b c = (f.nan, 0) := by
  simp only [frcpEl, fsqrtEl, frsqEl, fexp2El, flog2El, fsinEl, fcosEl, ftanhEl, h, and_self]

/-- Infinities of opposite signs added, an infinity taken from itself, and a quotient of infinities. -/
theorem of_opposite_infs {n : Bool} (ha : f.decode a = .inf n) (hb : f.decode b = .inf (!n)) :
    faddEl f mode r a b c = (f.nan, 0) ∧ fsubEl f mode r a a c = (f.nan, 0) ∧ fdivEl f mode r a b c = (f.nan, 0) := by
  simp only [faddEl, fsubEl, fdivEl, ha, hb, Fv.neg, addTerms_opposite_infs, and_self]

/-- A zero times an infinity is a NaN; their quotients are exact. -/
theorem of_zero_inf {n m : Bool} (ha : f.decode a = .zero n) (hb : f.decode b = .inf m) : fmulEl f mode r a b c = (f.nan, 0) ∧
    ffmaEl f mode r a b c = (f.nan, 0) ∧ fdivEl f mode r a b c = (f.zero (n != m), 0) ∧ fdivEl f mode r b a c = (f.inf (m != n), 0) := by
  have hmul : (f.decode a).mul (f.decode b) = .nan := by rw [ha, hb]; rfl
  refine ⟨?_, ffmaEl_of_nan (.inl hmul), ?_, ?_⟩
  · simp only [fmulEl, hmul, roundFv]
  · simp only [fdivEl, ha, hb, Fv.sign, bne_comm (a := m) (b := n)]
  · simp only [fdivEl, ha, hb, Fv.sign]

theorem of_zeros {n m : Bool} (ha : f.decode a = .zero n) (hb : f.decode b = .zero m) : fdivEl f mode r a b c = (f.nan, 0) ∧
    faddEl f mode r a b c = (f.zero (if n = m then n else decide (mode = 2)), 0) ∧ fmulEl f mode r a b c = (f.zero (n != m), 0) := by
  simp only [fdivEl, faddEl, fmulEl, ha, hb, Fv.mul, Fv.sign, roundFv, addTerms_zeros, and_self]

theorem fdivEl_fin_zero {n m : Bool} {k : Nat} {e : Int} (ha : f.decode a = .fin n k e) (hb : f.decode b = .zero m) :
    fdivEl f mode r a b c = (f.inf (n != m), 0) := by
  simp only [fdivEl, ha, hb]

theorem fsubEl_self_fin {n : Bool} {k : Nat} {e : Int} (ha : f.decode a = .fin n k e) : fsubEl f mode r a a c = (f.zero (decide (mode = 2)), 0) := by
  simp only [fsubEl, ha, Fv.neg, addTerms_cancel]

theorem unary_of_zero {n : Bool} (h : f.decode a = .zero n) : frcpEl f mode r a b c = (f.inf n, 0) ∧ fsqrtEl f mode r a b c = (f.zero n, 0) ∧
    frsqEl f mode r a b c = (f.inf n, 0) ∧ flog2El f mode r a b c = (f.inf true, 0) ∧ fsinEl f mode r a b c = (f.zero n, 0) ∧
    ftanhEl f mode r a b c = (f.zero n, 0) := by
  simp only [frcpEl, fsqrtEl, frsqEl, flog2El, fsinEl, ftanhEl, h, and_self]

/-- Roots and the logarithm of a negative number. -/
theorem unary_of_negative {k : Nat} {e : Int} (h : f.decode a = .fin true k e) : fsqrtEl f mode r a b c = (f.nan, 0) ∧
    frsqEl f mode r a b c = (f.nan, 0) ∧ flog2El f mode r a b c = (f.nan, 0) := by
  simp only [fsqrtEl, frsqEl, flog2El, h, if_true, and_self]

theorem unary_of_inf {n : Bool} (h : f.decode a = .inf n) : frcpEl f mode r a b c = (f.zero n, 0) ∧ fsinEl f mode r a b c = (f.nan, 0) ∧
    fcosEl f mode r a b c = (f.nan, 0) ∧ fexp2El f mode r a b c = (if n then f.zero false else f.inf false, 0) ∧
    fsqrtEl f mode r a b c = (if n then f.nan else f.inf false, 0) ∧ frsqEl f mode r a b c = (if n then f.nan else f.zero false, 0) := by
  simp only [frcpEl, fsinEl, fcosEl, fexp2El, fsqrtEl, frsqEl, h, and_self]

end Kinds

/-- Settles O23: no operand of these kinds reaches Round, so that each operation answers by its operands' kinds and makes no draw. -/
theorem floatSpecialCases : Obligations.FloatSpecialCases := fun _ _ _ _ _ _ _ =>
  ⟨binary_of_nan, unary_of_nan, fun _ => of_opposite_infs, fun _ _ => of_zero_inf, fun _ _ => of_zeros, fun _ _ _ _ => fdivEl_fin_zero,
    fun _ _ _ => fsubEl_self_fin, fun _ => unary_of_zero, fun _ _ => unary_of_negative, fun _ => unary_of_inf⟩

end Sys2Proof.Machine
end

section
/-!
PROOFS. A step of a unit (R284, R492, R494): what the schedule's event does in a step, and that the decoder answers no event. The rows of the
opcode map (R79) invert `Instr.form?`: an instruction that the decoder answers has the opcode and the form that it was read from.
-/
namespace Sys2Proof.Decode

/-! ### The rows of the opcode map (R79) -/

theorem mem_of_pick {α β : Type} [DecidableEq α] {t : List (α × β)} {k : α} {v : β} (h : pick t k = some v) : (k, v) ∈ t := by
  induction t with
  | nil => cases h
  | cons p r ih =>
    unfold pick at h
    split at h
    case isTrue hk => cases h; exact hk ▸ List.mem_cons_self
    case isFalse => exact List.mem_cons_of_mem _ (ih h)

/-- Every row of a table makes instructions of the opcode in the row's key, in the table's form. -/
def RowsOf {κ φ : Type} (op : κ → Nat) (form : φ → Form) (t : List (κ × (φ → Instr))) : Prop :=
  ∀ p ∈ t, ∀ f, (p.2 f).form? = some (op p.1, form f)

section Rows
variable {κ φ : Type} {op : κ → Nat} {form : φ → Form} {t : List (κ × (φ → Instr))}

theorem RowsOf.nil : RowsOf op form [] := fun _ h => nomatch h

theorem RowsOf.cons {p : κ × (φ → Instr)} (hp : ∀ f, (p.2 f).form? = some (op p.1, form f)) (ht : RowsOf op form t) :
    RowsOf op form (p :: t) := List.forall_mem_cons.2 ⟨hp, ht⟩

variable [DecidableEq κ] {k : κ}

theorem RowsOf.form?_of_pick (ht : RowsOf op form t) {g : φ → Instr} (h : pick t k = some g) (f : φ) :
    (g f).form? = some (op k, form f) := ht _ (mem_of_pick h) f

theorem RowsOf.form?_of_map_pick (ht : RowsOf op form t) {f : φ} {i : Instr} (h : (pick t k).map (· f) = some i) :
    i.form? = some (op k, form f) := by
  obtain ⟨g, hg, rfl⟩ := Option.map_eq_some_iff.1 h
  exact ht.form?_of_pick hg f

end Rows

theorem rowsOf_tableS : RowsOf id Form.s tableS := by
  unfold tableS
  repeat' apply RowsOf.cons fun _ => rfl
  exact RowsOf.nil

theorem rowsOf_tableSSub : RowsOf Prod.fst Form.s tableSSub := by
  unfold tableSSub
  repeat' apply RowsOf.cons fun _ => rfl
  exact RowsOf.nil

theorem rowsOf_tableX : RowsOf id Form.x tableX := by
  unfold tableX
  repeat' apply RowsOf.cons fun _ => rfl
  exact RowsOf.nil

theorem rowsOf_tableXSub : RowsOf Prod.fst Form.x tableXSub := by
  unfold tableXSub
  repeat' apply RowsOf.cons fun _ => rfl
  exact RowsOf.nil

theorem rowsOf_tableXL : RowsOf id XL.form tableXL := by
  unfold tableXL
  repeat' apply RowsOf.cons fun _ => rfl
  exact RowsOf.nil

theorem rowsOf_tableI : RowsOf id Form.i tableI := by
  unfold tableI
  repeat' apply RowsOf.cons fun _ => rfl
  exact RowsOf.nil

theorem rowsOf_tableB : RowsOf id Form.b tableB := by
  unfold tableB
  repeat' apply RowsOf.cons fun _ => rfl
  exact RowsOf.nil

/-! ### What the decoder answers (R64, R65, R79) -/

/-- The instruction of an opcode and a form has that opcode and that form. -/
theorem form?_of_ofForm {op : Nat} {form : Form} {i : Instr} (h : ofForm op form = some i) : i.form? = some (op, form) := by
  cases form with
  | s f =>
    cases hS : pick tableS op with
    | some g =>
      simp only [ofForm, hS, Option.some.injEq] at h
      exact h ▸ rowsOf_tableS.form?_of_pick hS f
    | none =>
      simp only [ofForm, hS] at h
      exact rowsOf_tableSSub.form?_of_map_pick h
  | sLit f lit =>
    obtain ⟨g, hg, rfl⟩ := Option.map_eq_some_iff.1 h
    exact rowsOf_tableXL.form?_of_pick hg (.sLit f lit)
  | x f =>
    cases hXL : pick tableXL op with
    | some g =>
      simp only [ofForm, hXL, Option.some.injEq] at h
      exact h ▸ rowsOf_tableXL.form?_of_pick hXL (.x f)
    | none =>
      cases hX : pick tableX op with
      | some g =>
        simp only [ofForm, hXL, hX, Option.some.injEq] at h
        exact h ▸ rowsOf_tableX.form?_of_pick hX f
      | none =>
        simp only [ofForm, hXL, hX] at h
        exact rowsOf_tableXSub.form?_of_map_pick h
  | xLit f lit =>
    obtain ⟨g, hg, rfl⟩ := Option.map_eq_some_iff.1 h
    exact rowsOf_tableXL.form?_of_pick hg (.xLit f lit)
  | i f => exact rowsOf_tableI.form?_of_map_pick h
  | iLit f lit =>
    obtain ⟨hop, h⟩ := Option.ite_none_right_eq_some.1 h
    cases h
    rw [hop]; rfl
  | b f => exact rowsOf_tableB.form?_of_map_pick h
  | r f =>
    obtain ⟨hop, h⟩ := Option.ite_none_right_eq_some.1 h
    cases h
    rw [hop]; rfl

/-- Decoding answers the row of the base word's opcode for the form that the words are laid out in. -/
theorem ofForm_of_decodeAt {pc n : Nat} {ws : List Word} {i : Instr} (h : decodeAt pc ws = .ok (i, n)) :
    ∃ short form, layout short ws = some form ∧ ofForm (opOf (ws.headD 0)) form = some i := by
  cases ws with
  | nil => cases h
  | cons w r =>
    unfold decodeAt at h
    dsimp only at h
    generalize (if opOf w = 0x7F then 1 else wordsOf (lenOf w)) = len at h
    repeat' split at h
    all_goals cases h
    exact ⟨_, _, ‹layout _ (w :: r) = some _›, ‹ofForm (opOf w) _ = some i›⟩

end Sys2Proof.Decode

namespace Sys2Proof.Machine

/-- A word of a program is no step of a unit. -/
theorem isEvent_of_decodeAt {pc n : Nat} {ws : List Word} {i : Instr} (h : Decode.decodeAt pc ws = .ok (i, n)) : isEvent i = false := by
  obtain ⟨_, form, _, hrow⟩ := Decode.ofForm_of_decodeAt h
  rw [isEvent, Decode.form?_of_ofForm hrow]
  rfl

/-! ### A step of a unit (R284, R492, R494) -/

theorem State.act_event_allowed {s : State} {e : Instr} (he : isEvent e = true) (hrail : s.powered = true ∨ onVaux e = true) :
    s.act (.event e) = exec e s := by
  have hallow : (isEvent e && (s.powered || onVaux e)) = true := by rw [he, Bool.true_and, Bool.or_eq_true]; exact hrail
  exact if_pos hallow

theorem State.act_event_barred {s : State} {e : Instr} (h : isEvent e = false ∨ (s.powered = false ∧ onVaux e = false)) :
    s.act (.event e) = .next s := by
  have hbar : ¬ (isEvent e && (s.powered || onVaux e)) = true := by
    rcases h with he | ⟨hp, hv⟩
    · simp [he]
    · simp [hp, hv]
  exact if_neg hbar

/-- A step takes the first choice of the agenda: the clocks advance, the choice is carried out, and the marks follow. -/
theorem step_of_act {s t : State} {c : Choice} {rest : List Choice} (hag : s.agenda = c :: rest)
    (hact : ({ s with agenda := rest } : State).tick.act c = .next t) : step s = .next (s.aftermath t c.runs) := by
  have hchoice : s.choice = (some c, rest) := by simp [State.choice, hag]
  unfold step State.choose
  simp only [hchoice, hact]

/-- Settles O6: the step carries the event out where it is allowed and else lets time pass, and each word that decodes has an encoding, which no event has. -/
theorem stepRunsEvent : Obligations.StepRunsEvent := by
  intro s e rest hag s1
  have hpow : s1.powered = s.powered := rfl
  refine ⟨fun he hrail t hexec => ?_, fun hbar => ?_, fun he pc ws n hdec => ?_⟩
  · exact step_of_act hag ((State.act_event_allowed he (hpow.symm ▸ hrail)).trans hexec)
  · exact step_of_act hag (State.act_event_barred (hpow.symm ▸ hbar))
  · exact absurd he (by simp [isEvent_of_decodeAt hdec])

end Sys2Proof.Machine
end

section
/-!
PROOFS. What one arrival at a barrier record changes (R257, R260): the record, where the memory is canonical, and no cluster.
-/
namespace Sys2Proof.Machine

/-! ### What waking a thread leaves alone -/

/-- A fold keeps what each of its steps keeps. -/
theorem State.foldl_keeps {α β : Type} (view : State → β) {f : State → α → State} (h : ∀ s a, view (f s a) = view s) (l : List α) (s : State) :
    view (l.foldl f s) = view s := by
  induction l generalizing s with
  | nil => rfl
  | cons a l ih => exact (ih (f s a)).trans (h s a)

/-- The memory, the clusters and the flights: what no wake and no watch event of a resident band touches. -/
def State.shared (s : State) : Memory × Tbl Cluster × Tbl Flight := (s.mem, s.clusters, s.flights)

theorem State.mem_of_shared {s t : State} (h : t.shared = s.shared) : t.mem = s.mem := congrArg (fun v => v.1) h

theorem State.clusters_of_shared {s t : State} (h : t.shared = s.shared) : t.clusters = s.clusters := congrArg (fun v => v.2.1) h

theorem State.flights_of_shared {s t : State} (h : t.shared = s.shared) : t.flights = s.flights := congrArg (fun v => v.2.2) h

theorem State.shared_modBand (s : State) (k : Nat) (f : Band → Band) : (s.modBand k f).shared = s.shared := by
  unfold State.modBand
  split <;> rfl

theorem State.shared_watchBand (s : State) (k name : Nat) : (s.watchBand k name).shared = s.shared := by
  unfold State.watchBand
  split
  · rfl
  · split
    · rfl
    · dsimp only
      split <;> rfl

theorem State.shared_watchScratch (s : State) (cluster off : Nat) : (s.watchScratch cluster off).shared = s.shared := by
  refine State.foldl_keeps State.shared (fun s k => ?_) _ s
  cases s.scratchLine k cluster off with
  | none => rfl
  | some n => exact s.shared_watchBand k n

theorem State.shared_scratchWrite (s : State) (cluster off n x : Nat) :
    (s.scratchWrite cluster off n x).shared = (s.mem.write (placeScratch cluster off) n x, s.clusters, s.flights) := by
  unfold State.scratchWrite
  dsimp only
  split
  · exact State.shared_watchScratch _ _ _
  · exact (State.shared_watchScratch _ _ _).trans (State.shared_watchScratch _ _ _)

theorem State.mem_scratchWrite (s : State) (cluster off n x : Nat) : (s.scratchWrite cluster off n x).mem = s.mem.write (placeScratch cluster off) n x :=
  congrArg (fun v => v.1) (s.shared_scratchWrite cluster off n x)

theorem State.clusters_scratchWrite (s : State) (cluster off n x : Nat) : (s.scratchWrite cluster off n x).clusters = s.clusters :=
  congrArg (fun v => v.2.1) (s.shared_scratchWrite cluster off n x)

theorem State.flights_scratchWrite (s : State) (cluster off n x : Nat) : (s.scratchWrite cluster off n x).flights = s.flights :=
  congrArg (fun v => v.2.2) (s.shared_scratchWrite cluster off n x)

theorem State.shared_acquire (s : State) (k : Nat) (ts : List Nat) (scope : Nat) (invs : List Nat) : (s.acquire k ts scope invs).shared = s.shared :=
  State.shared_modBand _ _ _

theorem State.shared_wakeBarrier (s : State) (k : Nat) (ref : BarRef) (phase : Nat) : (s.wakeBarrier k ref phase).shared = s.shared := by
  unfold State.wakeBarrier
  split
  · rfl
  · refine State.foldl_keeps State.shared (fun s t => ?_) _ s
    split
    · split
      · dsimp only
        split
        · exact (State.shared_acquire _ _ _ _ _).trans (State.shared_modBand _ _ _)
        · exact State.shared_modBand _ _ _
      · rfl
    · rfl

/-! ### What leaves the clusters alone -/

theorem State.clusters_modFlight (s : State) (n : Nat) (g : Flight → Flight) : (s.modFlight n g).clusters = s.clusters := by
  unfold State.modFlight
  split <;> rfl

theorem State.clusters_modCtx (s : State) (n : Nat) (g : Ctx → Ctx) : (s.modCtx n g).clusters = s.clusters := by
  unfold State.modCtx
  split <;> rfl

theorem State.clusters_watchBand (s : State) (k name : Nat) : (s.watchBand k name).clusters = s.clusters :=
  State.clusters_of_shared (s.shared_watchBand k name)

theorem State.clusters_notifyWrite (s : State) (q : Nat) (low high : Bool) (v : Nat) : (s.notifyWrite q low high v).clusters = s.clusters := by
  unfold State.notifyWrite State.notify
  dsimp only
  repeat' split
  all_goals rfl

theorem State.clusters_windowWrite (s : State) (line : Nat) (l : Tbl Byte) : (s.windowWrite line l).clusters = s.clusters := by
  refine State.foldl_keeps State.clusters (fun s g => ?_) _ s
  split
  · exact State.clusters_notifyWrite _ _ _ _ _
  · split <;> rfl

theorem State.clusters_clearPoison (s : State) (pa : Nat) (l : Tbl Byte) : (s.clearPoison pa l).clusters = s.clusters := by
  unfold State.clearPoison
  split <;> rfl

theorem State.clusters_invalidate (s : State) (pa : Nat) (writer : Option Nat) : (s.invalidate pa writer).clusters = s.clusters :=
  State.foldl_keeps State.clusters (f := fun s (h : Nat × Nat) => s.send (agentSlice (lineOf pa)) h.1 (laneOf h.2) (.inv h.2)) (fun _ _ => rfl)
    ((s.holdersOf pa).filter fun h => writer ≠ some h.1) s

theorem State.clusters_sliceWrite (s : State) (ia pa : Nat) (l : Tbl Byte) (writer : Option Nat) : (s.sliceWrite ia pa l writer).clusters = s.clusters := by
  unfold State.sliceWrite
  split
  · exact s.clusters_windowWrite ia l
  · split
    · rfl
    · refine (State.foldl_keeps State.clusters (fun s k => s.clusters_watchBand k _) _ _).trans ?_
      rw [State.clusters_invalidate, State.clusters_clearPoison]

theorem State.clusters_iaWrite (s : State) (ia n x : Nat) : (s.iaWrite ia n x).clusters = s.clusters := by
  unfold State.iaWrite
  split
  · exact State.clusters_sliceWrite _ _ _ _ _
  · rfl

theorem State.clusters_msix (s : State) (vec : Nat) : (s.msix vec).clusters = s.clusters := by
  unfold State.msix
  dsimp only
  split <;> rfl

/-- A fault record is written and counted; no cluster changes (R472). -/
theorem State.clusters_noteFault (s : State) (n : FaultNote) : (s.noteFault n).clusters = s.clusters := by
  unfold State.noteFault
  dsimp only
  split
  · rfl
  · split
    · exact State.clusters_iaWrite _ _ _ _
    · simp only [State.clusters_msix, State.clusters_iaWrite]

theorem State.clusters_trigger (s : State) (ctx tkind cluster team id : Nat) : (s.trigger ctx tkind cluster team id).clusters = s.clusters := by
  unfold State.trigger
  split
  · rfl
  · split
    · rfl
    · split
      · exact State.clusters_modCtx _ _ _
      · exact (State.clusters_noteFault _ _).trans (State.clusters_modCtx _ _ _)

theorem State.clusters_fwWrite (s : State) (pa n x : Nat) : (s.fwWrite pa n x).clusters = s.clusters := by rw [State.fwWrite]

theorem State.clusters_modTeam (s : State) (flight team : Nat) (g : Team → Team) : (s.modTeam flight team g).clusters = s.clusters :=
  State.clusters_modFlight _ _ _

theorem State.clusters_barSet (s : State) (p : BarAt) (r : Bar) : (s.barSet p r).clusters = s.clusters := by
  cases p with
  | global ia pa => rw [State.barSet, State.agentWrite, State.clusters_sliceWrite]
  | scratch c o => rw [State.barSet, State.clusters_scratchWrite]
  | saved pa => rw [State.barSet, State.clusters_fwWrite]

theorem State.clusters_releaseAbsent (s : State) (flight : Nat) (w : AbsentWaiter) : (s.releaseAbsent flight w).clusters = s.clusters := by
  unfold State.releaseAbsent
  split
  · rw [State.makeRunnable, State.clusters_modTeam, State.clusters_fwWrite, State.clusters_fwWrite]
  · rfl

theorem State.clusters_releaseAbsents (s : State) (flight : Nat) (ref : BarRef) (p : BarAt) : (s.releaseAbsents flight ref p).clusters = s.clusters := by
  unfold State.releaseAbsents
  split
  · rfl
  · dsimp only
    split
    · rfl
    · rw [State.clusters_trigger, State.clusters_barSet, State.foldl_keeps State.clusters fun s w => s.clusters_releaseAbsent flight w,
        State.clusters_modFlight]

/-- A phase that completes changes no cluster's own state (R260). -/
theorem State.clusters_completePhase (s : State) (flight : Nat) (ref : BarRef) (p : BarAt) : (s.completePhase flight ref p).clusters = s.clusters := by
  unfold State.completePhase
  dsimp only
  rw [State.clusters_releaseAbsents, State.foldl_keeps State.clusters fun s k => State.clusters_of_shared (s.shared_wakeBarrier k ref _), State.clusters_modFlight,
    State.clusters_barSet]

/-! ### The record after an arrival (R257, R260) -/

/-- A record's fields fit the bits that R257 gives them. -/
structure Bar.Fits (r : Bar) : Prop where
  expect : r.expect < 2 ^ 32
  arrived : r.arrived < 2 ^ 32
  phase : r.phase < 2 ^ 32
  mode : r.mode < 2 ^ 8
  teams : r.teams < 2 ^ 16
  rest : r.rest < 2 ^ 16
  absent : r.absent < 2 ^ 32
  flight : r.flight < 2 ^ 32

theorem Bar.fits_of (x : Nat) : (Bar.of x).Fits := by
  constructor <;> exact Nat.mod_lt _ (Nat.two_pow_pos _)

/-- A record that fits reads back as it was written. -/
theorem Bar.Fits.of_num {r : Bar} (h : r.Fits) : Bar.of (r.num % 256 ^ 32) = r := by
  obtain ⟨e, a, p, m, i, b, t, f, w⟩ := r
  obtain ⟨he, ha, hp, hm, ht, hw, hb, hf⟩ := h
  dsimp only at he ha hp hm ht hw hb hf
  have hinit : (if i then 2 ^ 104 else 0 : Nat) = 2 ^ 104 * i.toNat := by cases i <;> rfl
  have hi : i.toNat < 2 := i.toNat_lt
  simp only [Bar.of, Bar.num, Bar.mk.injEq, bits, bitOf, hinit]
  refine ⟨by omega, by omega, by omega, by omega, ?_, by omega, by omega, by omega, by omega⟩
  cases i
  · exact decide_eq_false (by simp only [Bool.toNat_false]; omega)
  · exact decide_eq_true (by simp only [Bool.toNat_true]; omega)

/-- A record with one arrival more, and with its phase completed (R260). -/
def Bar.hit (r : Bar) : Bar := { r with arrived := (r.arrived + 1) % 2 ^ 32 }
def Bar.next (r : Bar) : Bar := { r with arrived := 0, phase := (r.phase + 1) % 2 ^ 32 }

theorem Bar.Fits.hit {r : Bar} (h : r.Fits) : r.hit.Fits := { h with arrived := Nat.mod_lt _ (by decide) }

theorem Bar.Fits.next {r : Bar} (h : r.Fits) : r.next.Fits := { h with arrived := Nat.two_pow_pos 32, phase := Nat.mod_lt _ (by decide) }

section Record
variable {s : State} {c o : Nat} {r : Bar}

theorem State.barGet_congr {t : State} (h : t.mem = s.mem) : t.barGet (.scratch c o) = s.barGet (.scratch c o) := by
  simp only [State.barGet, State.scratchRead, h]

theorem State.fits_barGet (s : State) (c o : Nat) : (s.barGet (.scratch c o)).Fits := Bar.fits_of _

/-- In a canonical memory a record that is written is the record that stands there. -/
theorem State.barGet_barSet (hwf : s.mem.wf = true) (hr : r.Fits) : (s.barSet (.scratch c o) r).barGet (.scratch c o) = r := by
  rw [State.barSet, State.barGet, State.scratchRead, State.mem_scratchWrite, Memory.read_write _ _ _ _ hwf, hr.of_num]

theorem State.wf_barSet (hwf : s.mem.wf = true) : (s.barSet (.scratch c o) r).mem.wf = true := by
  rw [State.barSet, State.mem_scratchWrite]
  exact Memory.wf_write _ _ _ _ hwf

theorem State.flights_barSet : (s.barSet (.scratch c o) r).flights = s.flights := by rw [State.barSet, State.flights_scratchWrite]

theorem State.mem_modFlight (s : State) (n : Nat) (g : Flight → Flight) : (s.modFlight n g).mem = s.mem := by
  unfold State.modFlight
  split <;> rfl

end Record

/-- No thread of an absent team waits at a record of a flight (R320). -/
def State.NoneAbsent (s : State) (flight : Nat) : Prop := ∀ f, s.flight? flight = some f → f.absent = []

section Absent
variable {s : State} {flight : Nat}

theorem State.NoneAbsent.congr {t : State} (h : s.NoneAbsent flight) (he : t.flights = s.flights) : t.NoneAbsent flight := by
  unfold State.NoneAbsent State.flight?
  rw [he]
  exact h

theorem State.NoneAbsent.modFlight (h : s.NoneAbsent flight) {g : Flight → Flight} (hg : ∀ f, (g f).absent = f.absent) :
    (s.modFlight flight g).NoneAbsent flight := by
  unfold State.modFlight
  split
  · next f hf =>
    intro f' hf'
    rw [State.flight?, Tbl.find?_put_self] at hf'
    cases hf'
    exact (hg f).trans (h f hf)
  · exact h

theorem State.NoneAbsent.releaseAbsents (h : s.NoneAbsent flight) (ref : BarRef) (p : BarAt) : s.releaseAbsents flight ref p = s := by
  unfold State.releaseAbsents
  split
  · rfl
  · next f hf => simp [h f hf]

/-- A phase that completes leaves ARRIVED 0 and the next PHASE (R260). -/
theorem State.barGet_completePhase {c o : Nat} (hwf : s.mem.wf = true) (h : s.NoneAbsent flight) (ref : BarRef) :
    (s.completePhase flight ref (.scratch c o)).barGet (.scratch c o) = (s.barGet (.scratch c o)).next := by
  have hwoken : ∀ (keys : List Nat) (t : State) (phase : Nat), (keys.foldl (fun s k => s.wakeBarrier k ref phase) t).shared = t.shared :=
    fun keys t phase => State.foldl_keeps State.shared (fun s k => s.shared_wakeBarrier k ref phase) keys t
  unfold State.completePhase
  dsimp only
  rw [State.NoneAbsent.releaseAbsents, State.barGet_congr (State.mem_of_shared (hwoken _ _ _)), State.barGet_congr (State.mem_modFlight _ _ _)]
  · exact State.barGet_barSet hwf (s.fits_barGet c o).next
  · refine State.NoneAbsent.congr ?_ (State.flights_of_shared (hwoken _ _ _))
    exact (h.congr State.flights_barSet).modFlight fun _ => rfl

/-- An arrival counts, and the one that reaches EXPECT completes the phase: what it writes first, and what follows. -/
theorem State.arrive_eq (s : State) (flight : Nat) (ref : BarRef) (p : BarAt) (tidx : Nat) : ∃ g : Flight → Flight, (∀ f, (g f).absent = f.absent) ∧
    s.arrive flight ref p tidx = if (s.barGet p).expect ≤ (s.barGet p).arrived + 1
      then ((s.barSet p (s.barGet p).hit).modFlight flight g).completePhase flight ref p else (s.barSet p (s.barGet p).hit).modFlight flight g :=
  ⟨_, fun f => by split <;> rfl, rfl⟩

theorem State.clusters_arrive (s : State) (flight : Nat) (ref : BarRef) (p : BarAt) (tidx : Nat) : (s.arrive flight ref p tidx).clusters = s.clusters := by
  obtain ⟨g, _, he⟩ := s.arrive_eq flight ref p tidx
  rw [he]
  split
  · rw [State.clusters_completePhase, State.clusters_modFlight, State.clusters_barSet]
  · rw [State.clusters_modFlight, State.clusters_barSet]

theorem State.barGet_hit {c o : Nat} (hwf : s.mem.wf = true) (g : Flight → Flight) :
    ((s.barSet (.scratch c o) (s.barGet (.scratch c o)).hit).modFlight flight g).barGet (.scratch c o) = (s.barGet (.scratch c o)).hit := by
  rw [State.barGet_congr (State.mem_modFlight _ _ _), State.barGet_barSet hwf (s.fits_barGet c o).hit]

/-- An arrival short of EXPECT only counts. -/
theorem State.barGet_arrive_of_lt {c o : Nat} (hwf : s.mem.wf = true) (ref : BarRef) (tidx : Nat)
    (h : (s.barGet (.scratch c o)).arrived + 1 < (s.barGet (.scratch c o)).expect) :
    (s.arrive flight ref (.scratch c o) tidx).barGet (.scratch c o) = (s.barGet (.scratch c o)).hit := by
  obtain ⟨g, _, he⟩ := s.arrive_eq flight ref (.scratch c o) tidx
  rw [he, if_neg (Nat.not_le.2 h), State.barGet_hit hwf]

/-- The arrival that reaches EXPECT completes the phase. -/
theorem State.barGet_arrive_of_le {c o : Nat} (hwf : s.mem.wf = true) (hno : s.NoneAbsent flight) (ref : BarRef) (tidx : Nat)
    (h : (s.barGet (.scratch c o)).expect ≤ (s.barGet (.scratch c o)).arrived + 1) :
    (s.arrive flight ref (.scratch c o) tidx).barGet (.scratch c o) = (s.barGet (.scratch c o)).next := by
  obtain ⟨g, hg, he⟩ := s.arrive_eq flight ref (.scratch c o) tidx
  have hwf1 : ((s.barSet (.scratch c o) (s.barGet (.scratch c o)).hit).modFlight flight g).mem.wf = true := by
    rw [State.mem_modFlight]
    exact State.wf_barSet hwf
  rw [he, if_pos h, State.barGet_completePhase hwf1 ((hno.congr State.flights_barSet).modFlight hg), State.barGet_hit hwf]
  rfl

end Absent
end Sys2Proof.Machine
end

section
/-!
PROOFS. The command ring reader (R314 to R317): each of its steps as one rule, whose hypotheses hold in the states of `wit_CommandRingRuns`. Only
FREE and DONE ask for a canonical memory; O48 asks for none, and a memory that is not canonical refutes it.
-/
namespace Sys2Proof.Machine

/-! ### The engine and its slots (R300, R402) -/

theorem State.eng_congr {s t : State} (h : t.clusters = s.clusters) (cl : Nat) : t.eng cl = s.eng cl := by simp only [State.eng, State.cluster, h]

@[simp] theorem State.eng_modEng (s : State) (cl : Nat) (f : Engine → Engine) : (s.modEng cl f).eng cl = f (s.eng cl) := by
  simp [State.modEng, State.modCluster, State.eng]

@[simp] theorem State.mem_modEng (s : State) (cl : Nat) (f : Engine → Engine) : (s.modEng cl f).mem = s.mem := rfl

@[simp] theorem State.eng_modRing (s : State) (cl : Nat) (f : Ring → Ring) : (s.modRing cl f).eng cl = { s.eng cl with ring := f (s.eng cl).ring } :=
  s.eng_modEng cl _

@[simp] theorem State.mem_modRing (s : State) (cl : Nat) (f : Ring → Ring) : (s.modRing cl f).mem = s.mem := rfl

theorem Engine.slot_claim_singleton (g : Engine) (ctx n j : Nat) :
    (g.claim ctx [n]).slot j = if j = n ∧ (g.slot j).owner = none then { g.slot j with owner := some ctx } else g.slot j := by
  unfold Engine.claim Engine.slot
  simp only [List.foldl_cons, List.foldl_nil]
  by_cases hj : j = n
  · subst hj
    cases (Tbl.get g.slots j {}).owner <;> simp
  · cases (Tbl.get g.slots n {}).owner <;> simp [hj]

/-- A claim takes the unowned slots of a list and leaves every other slot: the first of them, then the rest, where the first is owned by then. -/
theorem Engine.slot_claim (g : Engine) (ctx : Nat) (ns : List Nat) (j : Nat) :
    (g.claim ctx ns).slot j = if j ∈ ns ∧ (g.slot j).owner = none then { g.slot j with owner := some ctx } else g.slot j := by
  induction ns generalizing g with
  | nil => simp [Engine.claim]
  | cons n ns ih =>
    have hrest : g.claim ctx (n :: ns) = (g.claim ctx [n]).claim ctx ns := rfl
    rw [hrest, ih, Engine.slot_claim_singleton]
    by_cases hj : j = n
    · subst hj
      cases ho : (g.slot j).owner <;> simp [ho]
    · simp [hj]

/-! ### The ring reader (R314 to R316) -/

/-- The ring reader of a cluster reads: its ring has an owner whose allocation stands at `base`, and is neither faulted nor halted nor stopped. -/
structure State.RingReads (s : State) (cl base : Nat) : Prop where
  place : s.ringBase cl = some base
  owned : (s.eng cl).ring.owner ≠ none
  sound : (s.eng cl).ring.faulted = false
  goes : (s.eng cl).ring.haltedByCmd = false
  runs : (s.eng cl).ring.stopped = false

/-- The command at the head of a ring (R314). -/
def State.ringHead (s : State) (cl base : Nat) : Nat :=
  let r := (s.eng cl).ring
  s.scratchRead cl (base + r.base + r.head % max r.entries 1 * 128) 128

/-- The six steps of the ring reader, each with the CMD that it takes. -/
def ringSteps (cl : Nat) : List (Instr × Nat) :=
  [(.ringNop cl, 0), (.ringMma cl, 1), (.ringRslv cl, 2), (.ringAcst cl, 3), (.ringAcz cl, 4), (.ringHalt cl, 5)]

theorem exec_ringSteps {i : Instr} {cl kind : Nat} (h : (i, kind) ∈ ringSteps cl) (s : State) : exec i s = .next (s.ringStep cl kind) := by
  simp only [ringSteps, List.mem_cons, Prod.mk.injEq, List.not_mem_nil, or_false] at h
  rcases h with ⟨rfl, rfl⟩ | ⟨rfl, rfl⟩ | ⟨rfl, rfl⟩ | ⟨rfl, rfl⟩ | ⟨rfl, rfl⟩ | ⟨rfl, rfl⟩ <;> rfl

section Reader
variable {s : State} {cl base kind : Nat}

theorem State.RingReads.reading (h : s.RingReads cl base) :
    ((s.eng cl).ring.owner.isNone || (s.eng cl).ring.faulted || (s.eng cl).ring.haltedByCmd || (s.eng cl).ring.stopped) = false := by
  simp [Option.isNone_eq_false_iff, Option.isSome_iff_ne_none, h.owned, h.sound, h.goes, h.runs]

theorem State.RingReads.step_of_none (h : s.RingReads cl base) (hcmd : (s.eng cl).ring.cmd = none) : s.ringStep cl kind = s.ringFetch cl kind base := by
  simp [State.ringStep, h.place, h.reading, hcmd]

/-- The command at the head is of a kind, and there is room for its entry. -/
structure State.RingOffers (s : State) (cl base kind : Nat) : Prop where
  idle : (s.eng cl).ring.cmd = none
  filled : (s.eng cl).ring.head < (s.eng cl).ring.tail
  room : (s.eng cl).live.length < 32
  kind : cmdKind (s.ringHead cl base) = kind

/-- The engine once the command at the head is consumed: it stands in the table, waiting (R315). -/
def Engine.ringFetched (g : Engine) (c : Nat) (e : Entry) : Engine :=
  { g with table := Tbl.put g.table g.nextEntry e, nextEntry := g.nextEntry + 1
           ring := { g.ring with index := g.ring.index + 1, head := g.ring.head + 1, cmd := some c, waited := decide (cmdWkind c = 0), entry := some g.nextEntry } }

/-- A ring once its command has failed its check: the commands after it are discarded (R316). -/
def Ring.failed (r : Ring) : Ring := { r with index := r.index + 1, faulted := true, head := r.tail, cmd := none, waited := false, entry := none }

theorem State.RingOffers.fetch_eq (h : s.RingOffers cl base kind) : s.ringFetch cl kind base =
    match s.cmdFault cl base (s.ringHead cl base) with
    | some reason => (s.modRing cl fun r => { r with index := r.index + 1 }).ringFault cl reason
    | none => (s.modRing cl fun r => { r with index := r.index + 1 }).modEng cl fun g =>
        { g with table := Tbl.put g.table (s.eng cl).nextEntry (s.ringEntry cl base (s.ringHead cl base)), nextEntry := (s.eng cl).nextEntry + 1
                 ring := { g.ring with head := (s.eng cl).ring.head + 1, cmd := some (s.ringHead cl base),
                                       waited := decide (cmdWkind (s.ringHead cl base) = 0), entry := some (s.eng cl).nextEntry } } := by
  have hgo : (decide ((s.eng cl).ring.tail ≤ (s.eng cl).ring.head) || decide (32 ≤ (s.eng cl).live.length) ||
      !(decide (cmdKind (s.ringHead cl base) = kind) || (decide (kind = 0) && decide (5 < cmdKind (s.ringHead cl base))))) = false := by
    simp [h.filled, h.room, h.kind]
  exact if_neg (Bool.eq_false_iff.1 hgo)

theorem State.eng_ringFault (s : State) (cl reason : Nat) : (s.ringFault cl reason).eng cl =
    { s.eng cl with ring := { (s.eng cl).ring with faulted := true, head := (s.eng cl).ring.tail, cmd := none, waited := false, entry := none } } :=
  (State.eng_congr (State.clusters_noteFault _ _) cl).trans (s.eng_modEng cl _)

/-- A command that passes its check is consumed and stands as the ring entry (R315). -/
theorem ringStep_fetches {i : Instr} (hi : (i, kind) ∈ ringSteps cl) (hr : s.RingReads cl base) (ho : s.RingOffers cl base kind)
    (hok : s.cmdFault cl base (s.ringHead cl base) = none) : Acts i s fun t =>
      t.mem = s.mem ∧ t.eng cl = (s.eng cl).ringFetched (s.ringHead cl base) (s.ringEntry cl base (s.ringHead cl base)) := by
  refine ⟨_, exec_ringSteps hi s, ?_⟩
  rw [hr.step_of_none ho.idle, ho.fetch_eq, hok]
  exact ⟨rfl, by simp [Engine.ringFetched]⟩

/-- A command that fails its check faults the ring and leaves the table (R316). -/
theorem ringStep_faults {i : Instr} {reason : Nat} (hi : (i, kind) ∈ ringSteps cl) (hr : s.RingReads cl base) (ho : s.RingOffers cl base kind)
    (hbad : s.cmdFault cl base (s.ringHead cl base) = some reason) : Acts i s fun t =>
      t.eng cl = { s.eng cl with ring := (s.eng cl).ring.failed } := by
  refine ⟨_, exec_ringSteps hi s, ?_⟩
  rw [hr.step_of_none ho.idle, ho.fetch_eq, hbad]
  exact (State.eng_ringFault _ _ _).trans (by rw [State.eng_modRing, Ring.failed])

/-- The current command d, whose wait has held, stands as entry n of the table (R315). -/
structure State.RingHolds (s : State) (cl d n : Nat) (e : Entry) : Prop where
  cmd : (s.eng cl).ring.cmd = some d
  entry : (s.eng cl).ring.entry = some n
  found : Tbl.find? (s.eng cl).table n = some e
  waits : e.waits = true
  waited : (s.eng cl).ring.waited = true

section Holds
variable {d n : Nat} {e : Entry}

theorem State.RingReads.step_posts (h : s.RingReads cl base) (hh : s.RingHolds cl d n e) {op : TileOp} (hop : cmdOp d = some op) :
    s.ringStep cl (cmdKind d) = s.ringPost cl n e := by
  simp [State.ringStep, h.place, h.reading, hh.cmd, hh.entry, hh.found, hh.waits, hh.waited, hop]

theorem State.RingReads.step_ends (h : s.RingReads cl base) (hh : s.RingHolds cl d n e) (hop : cmdOp d = none) : s.ringStep cl (cmdKind d) =
    let s1 := (s.modEng cl fun g => { g with table := Tbl.del g.table n }).ringEnd cl n
    if cmdKind d = 5 then s1.modRing cl fun r => { r with haltedByCmd := true } else s1 := by
  simp [State.ringStep, h.place, h.reading, hh.cmd, hh.entry, hh.found, hh.waits, hh.waited, hop]

/-- The engine once the operation of entry n is posted at the end of the table (R315, R402). -/
def Engine.ringPosted (g : Engine) (n : Nat) (e : Entry) (cycle : Nat) : Engine :=
  { g.claim e.ctx e.op.slots with
    table := Tbl.put (Tbl.del g.table n) g.nextEntry { e with waits := false, posted := cycle }
    nextEntry := g.nextEntry + 1
    ring := { g.ring with entry := some g.nextEntry } }

/-- The operation of a command whose slots no other context owns is posted (R315). -/
theorem ringStep_posts {i : Instr} {op : TileOp} (hi : (i, cmdKind d) ∈ ringSteps cl) (hr : s.RingReads cl base) (hh : s.RingHolds cl d n e)
    (hop : cmdOp d = some op) (hown : s.foreignSlots cl e = []) : Acts i s fun t =>
      t.mem = s.mem ∧ t.eng cl = (s.eng cl).ringPosted n e (s.die (clusterDie cl)).cycle := by
  refine ⟨_, exec_ringSteps hi s, ?_⟩
  have hpost : s.ringPost cl n e = s.modEng cl fun g => g.ringPosted n e (s.die (clusterDie cl)).cycle := by
    simp only [State.ringPost, hown, List.isEmpty_nil, if_true]
    rfl
  rw [hr.step_posts hh hop, hpost]
  exact ⟨rfl, s.eng_modEng cl _⟩

/-- A ring once a command without an operation has ended: the arrivals that its SIG asks for are owed, and HALT stops the reader (R315). -/
def Ring.ended (r : Ring) (d n : Nat) : Ring :=
  let owed (a : Nat) : Owed := { entry := n, flight := r.flight, team := r.team, addr := a }
  { r with cmd := none, waited := false, entry := none
           frees := r.frees ++ if cmdSig d % 2 = 1 then [owed (pbBytes d 79 76)] else []
           dones := r.dones ++ if cmdSig d / 2 % 2 = 1 then [owed (pbBytes d 83 80)] else []
           haltedByCmd := r.haltedByCmd || decide (cmdKind d = 5) }

theorem append_ite_singleton {α : Type} (p : Prop) [Decidable p] (l : List α) (a : α) : (if p then l ++ [a] else l) = l ++ if p then [a] else [] := by
  split
  · rfl
  · rw [List.append_nil]

theorem ringStep_ends {i : Instr} (hi : (i, cmdKind d) ∈ ringSteps cl) (hr : s.RingReads cl base) (hh : s.RingHolds cl d n e) (hop : cmdOp d = none) :
    Acts i s fun t => t.mem = s.mem ∧ t.eng cl = { s.eng cl with table := Tbl.del (s.eng cl).table n, ring := (s.eng cl).ring.ended d n } := by
  have hfree : bitOf (pbBytes d 66 66) 0 = true ↔ cmdSig d % 2 = 1 := by simp [bitOf, cmdSig]
  have hdone : bitOf (pbBytes d 66 66) 1 = true ↔ cmdSig d / 2 % 2 = 1 := by simp [bitOf, cmdSig]
  refine ⟨_, exec_ringSteps hi s, ?_⟩
  rw [hr.step_ends hh hop]
  have hend : ((s.modEng cl fun g => { g with table := Tbl.del g.table n }).ringEnd cl n).eng cl = { s.eng cl with
      table := Tbl.del (s.eng cl).table n, ring := { (s.eng cl).ring.ended d n with haltedByCmd := (s.eng cl).ring.haltedByCmd } } := by
    simp only [State.ringEnd, State.eng_modEng, hh.cmd, Option.getD_some, Ring.ended, Engine.mk.injEq, Ring.mk.injEq, true_and, and_true]
    simp only [hfree, hdone, append_ite_singleton, and_self]
  dsimp only
  split
  · next h5 => exact ⟨rfl, by rw [State.eng_modRing, hend]; simp [Ring.ended, h5]⟩
  · next h5 => exact ⟨rfl, by rw [hend]; simp [Ring.ended, h5]⟩

end Holds
end Reader

/-- NOP and HALT have no operation, nor has a kind that no command has (R314). -/
theorem cmdOp_eq_none_iff (d : Nat) : cmdOp d = none ↔ cmdKind d = 0 ∨ 5 ≤ cmdKind d := by
  unfold cmdOp
  dsimp only
  split
  · next h => simp only [h, reduceCtorEq, false_iff]; decide
  · next h => simp only [h, reduceCtorEq, false_iff]; decide
  · next h => simp only [h, reduceCtorEq, false_iff]; decide
  · next h => simp only [h, reduceCtorEq, false_iff]; decide
  · next h1 h2 h3 h4 =>
    simp only [imp_false] at h1 h2 h3 h4
    exact ⟨fun _ => by omega, fun _ => rfl⟩

theorem cmdOp_mma {d : Nat} (h : cmdKind d = 1) : cmdOp d = some (.mma (d % 2 ^ 512)) := by simp only [cmdOp, h]

theorem cmdOp_acz {d : Nat} (h : cmdKind d = 4) : cmdOp d = some (.acz (cmdSop d % 128) (cmdSop d / 256 % 64)) := by simp [cmdOp, h, bits]

/-! ### Waits and arrivals (R317) -/

section Waits
variable {s : State} {cl : Nat}

theorem ringWaitHolds_acts {d : Nat} (hd : (s.eng cl).ring.cmd = some d) (hs : (s.eng cl).ring.stopped = false) (hw : (s.eng cl).ring.waited = false)
    (hh : s.waitHolds (s.eng cl).ring d = true) : Acts (.ringWaitHolds cl) s fun t =>
      t.mem = s.mem ∧ t.eng cl = { s.eng cl with ring := { (s.eng cl).ring with waited := true } } := by
  have hgo : (!(s.eng cl).ring.stopped && !(s.eng cl).ring.waited && (s.eng cl).ring.cmd.any (s.waitHolds (s.eng cl).ring)) = true := by
    simp [hd, hs, hw, hh]
  exact ⟨_, if_pos hgo, rfl, s.eng_modRing cl _⟩

variable {r : Ring} {d c o : Nat}

theorem phaseReached_iff {p v : Nat} (hp : p < 2 ^ 32) : phaseReached p v = true ↔ 1 ≤ ((p : Int) - v) % 2 ^ 32 ∧ ((p : Int) - v) % 2 ^ 32 < 2 ^ 31 := by
  simp only [phaseReached, Bool.and_eq_true, decide_eq_true_eq]
  omega

theorem State.waitHolds_phase_iff (hp : s.barAt r.flight (r.ref (cmdWaddr d)) = some (.scratch c o)) (hk : cmdWkind d = 1) :
    s.waitHolds r d = true ↔ 1 ≤ (((s.barGet (.scratch c o)).phase : Int) - cmdWval d) % 2 ^ 32 ∧
      (((s.barGet (.scratch c o)).phase : Int) - cmdWval d) % 2 ^ 32 < 2 ^ 31 := by
  rw [← phaseReached_iff (s.fits_barGet c o).phase]
  simp [State.waitHolds, hp, hk]

theorem State.waitHolds_word_iff (hp : s.barAt r.flight (r.ref (cmdWaddr d)) = some (.scratch c o)) (hk : cmdWkind d = 2) :
    s.waitHolds r d = true ↔ cmdWval d ≤ s.mem.read (placeScratch c o) 4 := by
  have hne : ¬ cmdWkind d = 1 := by omega
  unfold State.waitHolds
  simp only [hp, hne, if_false]
  exact decide_eq_true_iff

end Waits

section Arrivals
variable {s : State} {cl n c o : Nat} {w : Owed}

/-- The record of an owed arrival as its ring's team names it. -/
def Owed.ref (w : Owed) : BarRef := { space := 1, team := w.team, addr := w.addr }

/-- What one arrival leaves of a record at a scratchpad place of a canonical memory. -/
structure State.ArrivedAt (s t : State) (flight c o : Nat) : Prop where
  counts : (s.barGet (.scratch c o)).arrived + 1 < (s.barGet (.scratch c o)).expect → t.barGet (.scratch c o) = (s.barGet (.scratch c o)).hit
  completes : (s.barGet (.scratch c o)).expect ≤ (s.barGet (.scratch c o)).arrived + 1 → s.NoneAbsent flight →
    t.barGet (.scratch c o) = (s.barGet (.scratch c o)).next

theorem State.arrivedAt_ringArrive (hwf : s.mem.wf = true) (hp : s.barAt w.flight w.ref = some (.scratch c o)) (f : Ring → Ring) :
    ∃ t, (s.ringArrive w).map (fun s1 => s1.modRing cl f) = some t ∧ t.eng cl = { s.eng cl with ring := f (s.eng cl).ring } ∧ s.ArrivedAt t w.flight c o := by
  have hloc : s.barAt w.flight { space := 1, team := w.team, addr := w.addr } = some (.scratch c o) := hp
  refine ⟨(s.arrive w.flight w.ref (.scratch c o) 0).modRing cl f, by rw [State.ringArrive, hloc]; rfl, ?_, fun h => ?_, fun h hno => ?_⟩
  · rw [State.eng_modRing, State.eng_congr (State.clusters_arrive _ _ _ _ _)]
  · exact (State.barGet_congr (State.mem_modRing _ _ _)).trans (State.barGet_arrive_of_lt hwf _ _ h)
  · exact (State.barGet_congr (State.mem_modRing _ _ _)).trans (State.barGet_arrive_of_le hwf hno _ _ h)

/-- FREE is one arrival on its record. -/
theorem freeArrival_acts (hwf : s.mem.wf = true) (hp : s.barAt w.flight w.ref = some (.scratch c o))
    (hw : ((s.eng cl).ring.frees.find? fun p => p.entry = n) = some w) : Acts (.freeArrival cl n) s fun t =>
      (t.eng cl).ring = { (s.eng cl).ring with frees := (s.eng cl).ring.frees.filter fun p => p.entry ≠ n } ∧ s.ArrivedAt t w.flight c o := by
  obtain ⟨t, ht, hring, harr⟩ := State.arrivedAt_ringArrive (cl := cl) hwf hp fun r => { r with frees := r.frees.filter fun p => p.entry ≠ n }
  have hexec : exec (.freeArrival cl n) s = .next (((s.ringArrive w).map (fun s1 => s1.modRing cl fun r =>
      { r with frees := r.frees.filter fun p => p.entry ≠ n })).getD s) := by
    show execFreeArrival cl n s = _
    rw [execFreeArrival, hw]
  rw [ht, Option.getD_some] at hexec
  exact ⟨t, hexec, congrArg Engine.ring hring, harr⟩

/-- DONE is one arrival on its record, once the command's entry has retired. -/
theorem doneArrival_acts (hwf : s.mem.wf = true) (hp : s.barAt w.flight w.ref = some (.scratch c o))
    (hw : ((s.eng cl).ring.dones.find? fun p => p.entry = n) = some w) (hret : ∀ e, Tbl.find? (s.eng cl).table n = some e → e.retired = true) :
    Acts (.doneArrival cl n) s fun t =>
      (t.eng cl).ring = { (s.eng cl).ring with dones := (s.eng cl).ring.dones.filter fun p => p.entry ≠ n } ∧ s.ArrivedAt t w.flight c o := by
  obtain ⟨t, ht, hring, harr⟩ := State.arrivedAt_ringArrive (cl := cl) hwf hp fun r => { r with dones := r.dones.filter fun p => p.entry ≠ n }
  have hexec : exec (.doneArrival cl n) s = .next (((s.ringArrive w).map (fun s1 => s1.modRing cl fun r =>
      { r with dones := r.dones.filter fun p => p.entry ≠ n })).getD s) := by
    show execDoneArrival cl n s = _
    rw [execDoneArrival, hw]
    cases he : Tbl.find? (s.eng cl).table n with
    | none => rfl
    | some e => simp [hret e he]
  rw [ht, Option.getD_some] at hexec
  exact ⟨t, hexec, congrArg Engine.ring hring, harr⟩

end Arrivals

/-! ### Arrivals in a memory that is not canonical (R257, R260, R317) -/

/-- A machine whose memory breaks `Memory.wf`: ARRIVED of the record at scratchpad offset 0 is 1, in a cell that stands after one of a higher address.
Entry 0 of the ring owes FREE there. -/
def strayArrived : State :=
  let owed : Owed := { entry := 0, flight := 0, team := 0, addr := 0 }
  { State.reset with
    mem := [(placeScratch 0 32, 1), (placeScratch 0 4, 1)]
    clusters := [(0, { engine := { ring := { frees := [owed] } } })]
    flights := [(0, probeFlight)] }

/-- Refutes O48: its last clause does not ask for a canonical memory (`freeArrival_acts` does). In `strayArrived` FREE completes the phase, but ARRIVED
then reads 1, where the statement has 0: the arrival writes ARRIVED in front of the cell that stands, and the 0 of the completed phase removes only
what was written. -/
theorem not_commandRingRuns : ¬ Obligations.CommandRingRuns := by
  intro h
  obtain ⟨_, _, _, _, harrivals⟩ := h strayArrived 0
  obtain ⟨hfree, _⟩ := harrivals 0 { entry := 0, flight := 0, team := 0, addr := 0 } 0 0 (by decide)
  obtain ⟨t, hexec, _, _, hcompletes⟩ := hfree (by decide)
  have harrived := congrArg Bar.arrived (hcompletes (by decide) (by decide))
  cases hexec
  exact absurd harrived (by decide)

end Sys2Proof.Machine
end
